-- ==== Sys2Proof/Word.lean ====
section
/-! DEFINITION. The widths the 80386 works in (00_scope.md R6, R9): a byte is 8 bits, a word 16, a dword 32. -/

namespace Sys2Proof

/-- Eight bits: the unit memory and I/O space are addressed in (20_memory.md R100, R102). -/
abbrev Byte := BitVec 8

/-- Sixteen bits: a selector, a 16-bit operand. -/
abbrev Word := BitVec 16

/-- Thirty-two bits: a general register, an offset, a linear or a physical address. -/
abbrev Dword := BitVec 32

/-- The operand sizes of 00_scope.md R6. -/
inductive Size
  | b8
  | b16
  | b32
deriving DecidableEq, Repr

end Sys2Proof
end

