-- ==== Sys2Proof/Syntax.lean ====
section
/-! DEFINITION. The instructions of the 80386: one constructor of `Instr` for each of the 285 rows of
opcode_table.json (30_encoding.md R280): the rows with operands in the table's order, then those without. -/

namespace Sys2Proof

/-- The 3-bit register number of 10_state.md R30, named by its 32-bit register. At 16 bits it names the low half; with
w = 0 the numbers 4 to 7 name AH, CH, DH, BH. -/
inductive Reg
  | eax
  | ecx
  | edx
  | ebx
  | esp
  | ebp
  | esi
  | edi
deriving DecidableEq, Repr

/-- The segment registers of 10_state.md R50. -/
inductive SReg
  | es
  | cs
  | ss
  | ds
  | fs
  | gs
deriving DecidableEq, Repr

/-- The w field (30_encoding.md R238): a byte, or the full operand size. -/
inductive Width
  | byte
  | full
deriving DecidableEq, Repr

/-- The d field (30_encoding.md R244). -/
inductive Dir
  /-- d = 0: register/memory <- register. -/
  | toRm
  /-- d = 1: register <- register/memory. -/
  | toReg
deriving DecidableEq, Repr

/-- A repeat prefix: F2 (REPNE, REP) or F3 (REPE, REP), 43_string.md R445. -/
inductive Rep
  | f2
  | f3
deriving DecidableEq, Repr

/-- Base and index of the 16-bit addressing modes (30_encoding.md R251). -/
inductive Base16
  | bxSi
  | bxDi
  | bpSi
  | bpDi
  | si
  | di
  | bp
  | bx
deriving DecidableEq, Repr

/-- The displacement of a 16-bit addressing mode: mod 00, 01, 10. -/
inductive Disp16
  | none
  | d8 (v : BitVec 8)
  | d16 (v : BitVec 16)
deriving DecidableEq, Repr

/-- The displacement of a 32-bit addressing mode: mod 00, 01, 10. -/
inductive Disp32
  | none
  | d8 (v : BitVec 8)
  | d32 (v : BitVec 32)
deriving DecidableEq, Repr

/-- The ss field (30_encoding.md R254). -/
inductive Scale
  | x1
  | x2
  | x4
  | x8
deriving DecidableEq, Repr

/-- A memory operand as the mod r/m and s-i-b bytes give it (30_encoding.md R250 to R254). -/
inductive MemOp
  /-- 16-bit addressing with a base (R251). -/
  | a16 (base : Base16) (disp : Disp16)
  /-- 16-bit addressing, mod 00 r/m 110: displacement only. -/
  | abs16 (d : BitVec 16)
  /-- 32-bit addressing without s-i-b byte (R252). -/
  | a32 (base : Reg) (disp : Disp32)
  /-- 32-bit addressing, mod 00 r/m 101: displacement only. -/
  | abs32 (d : BitVec 32)
  /-- 32-bit addressing with s-i-b byte (R254); no index is the index field 100. -/
  | sib (base : Reg) (scale : Scale) (index : Option Reg) (disp : Disp32)
  /-- s-i-b byte with mod 00 and base 101: a 32-bit displacement in place of the base. -/
  | sibAbs (scale : Scale) (index : Option Reg) (d : BitVec 32)
deriving DecidableEq, Repr

/-- The r/m operand (30_encoding.md R258): mod 11 names a register. -/
inductive RM
  | reg (r : Reg)
  | mem (m : MemOp)
deriving DecidableEq, Repr

/-- An immediate with the width it is encoded in (30_encoding.md R246, R266). -/
inductive Imm
  | i8 (v : BitVec 8)
  | i16 (v : BitVec 16)
  | i32 (v : BitVec 32)
deriving DecidableEq, Repr

/-- A full displacement or a full offset, of 16 or 32 bits (30_encoding.md R266). -/
inductive Off
  | o16 (v : BitVec 16)
  | o32 (v : BitVec 32)
deriving DecidableEq, Repr

/-- The instructions. Each constructor's comment gives the row's mnemonic, its encoding and its rule. -/
inductive Instr
  | movRmReg (w : Width) (reg : Reg) (rm : RM) -- MOV: 1000100w mod:reg:r/m, R301
  | movRegRm (w : Width) (reg : Reg) (rm : RM) -- MOV: 1000101w mod:reg:r/m, R301
  | movRmImm (w : Width) (rm : RM) (imm : Imm) -- MOV: 1100011w mod:000:r/m, R302
  | movRegImm (w : Width) (reg : Reg) (imm : Imm) -- MOV: 1011:w:reg, R303
  | movAccMem (w : Width) (off : Off) -- MOV: 1010000w, R304
  | movMemAcc (w : Width) (off : Off) -- MOV: 1010001w, R304
  | movSregRm (sr : SReg) (rm : RM) -- MOV: 10001110 mod:sreg3:r/m, R305
  | movRmSreg (sr : SReg) (rm : RM) -- MOV: 10001100 mod:sreg3:r/m, R306
  | movsx (w : Width) (reg : Reg) (rm : RM) -- MOVSX: 00001111 1011111w mod:reg:r/m, R308
  | movzx (w : Width) (reg : Reg) (rm : RM) -- MOVZX: 00001111 1011011w mod:reg:r/m, R309
  | pushRm (rm : RM) -- PUSH: 11111111 mod:110:r/m, R310
  | pushReg (reg : Reg) -- PUSH: 01010:reg, R310
  | pushImm (imm : Imm) -- PUSH: 011010s0, R310
  | popRm (rm : RM) -- POP: 10001111 mod:000:r/m, R313
  | popReg (reg : Reg) -- POP: 01011:reg, R313
  | xchgRmReg (w : Width) (reg : Reg) (rm : RM) -- XCHG: 1000011w mod:reg:r/m, R316
  | xchgAccReg (reg : Reg) -- XCHG: 10010:reg, R316
  | inImm (w : Width) (port : BitVec 8) -- IN: 1110010w, R318
  | inDx (w : Width) -- IN: 1110110w, R318
  | outImm (w : Width) (port : BitVec 8) -- OUT: 1110011w, R319
  | outDx (w : Width) -- OUT: 1110111w, R319
  | lea (reg : Reg) (m : MemOp) -- LEA: 10001101 mod:reg:r/m, R320
  | lds (reg : Reg) (m : MemOp) -- LDS: 11000101 mod:reg:r/m, R322
  | les (reg : Reg) (m : MemOp) -- LES: 11000100 mod:reg:r/m, R323
  | lfs (reg : Reg) (m : MemOp) -- LFS: 00001111 10110100 mod:reg:r/m, R324
  | lgs (reg : Reg) (m : MemOp) -- LGS: 00001111 10110101 mod:reg:r/m, R325
  | lss (reg : Reg) (m : MemOp) -- LSS: 00001111 10110010 mod:reg:r/m, R326
  | addRegRm (d : Dir) (w : Width) (reg : Reg) (rm : RM) -- ADD: 000000dw mod:reg:r/m, R361
  | addRmImm (w : Width) (rm : RM) (imm : Imm) -- ADD: 100000sw mod:000:r/m, R361
  | addAccImm (w : Width) (imm : Imm) -- ADD: 0000010w, R361
  | adcRegRm (d : Dir) (w : Width) (reg : Reg) (rm : RM) -- ADC: 000100dw mod:reg:r/m, R362
  | adcRmImm (w : Width) (rm : RM) (imm : Imm) -- ADC: 100000sw mod:010:r/m, R362
  | adcAccImm (w : Width) (imm : Imm) -- ADC: 0001010w, R362
  | incRm (w : Width) (rm : RM) -- INC: 1111111w mod:000:r/m, R363
  | incReg (reg : Reg) -- INC: 01000:reg, R363
  | subRegRm (d : Dir) (w : Width) (reg : Reg) (rm : RM) -- SUB: 001010dw mod:reg:r/m, R364
  | subRmImm (w : Width) (rm : RM) (imm : Imm) -- SUB: 100000sw mod:101:r/m, R364
  | subAccImm (w : Width) (imm : Imm) -- SUB: 0010110w, R364
  | sbbRegRm (d : Dir) (w : Width) (reg : Reg) (rm : RM) -- SBB: 000110dw mod:reg:r/m, R365
  | sbbRmImm (w : Width) (rm : RM) (imm : Imm) -- SBB: 100000sw mod:011:r/m, R365
  | sbbAccImm (w : Width) (imm : Imm) -- SBB: 0001110w, R365
  | decRm (w : Width) (rm : RM) -- DEC: 1111111w mod:001:r/m, R366
  | decReg (reg : Reg) -- DEC: 01001:reg, R366
  | cmpRegRm (d : Dir) (w : Width) (reg : Reg) (rm : RM) -- CMP: 001110dw mod:reg:r/m, R367
  | cmpRmImm (w : Width) (rm : RM) (imm : Imm) -- CMP: 100000sw mod:111:r/m, R367
  | cmpAccImm (w : Width) (imm : Imm) -- CMP: 0011110w, R367
  | neg (w : Width) (rm : RM) -- NEG: 1111011w mod:011:r/m, R368
  | mul (w : Width) (rm : RM) -- MUL: 1111011w mod:100:r/m, R373
  | imulAcc (w : Width) (rm : RM) -- IMUL: 1111011w mod:101:r/m, R374
  | imulReg (reg : Reg) (rm : RM) -- IMUL: 00001111 10101111 mod:reg:r/m, R375
  | imulImm (reg : Reg) (rm : RM) (imm : Imm) -- IMUL: 011010s1 mod:reg:r/m, R376
  | div (w : Width) (rm : RM) -- DIV: 1111011w mod:110:r/m, R377
  | idiv (w : Width) (rm : RM) -- IDIV: 1111011w mod:111:r/m, R378
  | aad (base : BitVec 8) -- AAD: 11010101 00001010, R379
  | aam (base : BitVec 8) -- AAM: 11010100 00001010, R380
  | rolBy1 (w : Width) (rm : RM) -- ROL: 1101000w mod:000:r/m, R401
  | rolByCl (w : Width) (rm : RM) -- ROL: 1101001w mod:000:r/m, R401
  | rolByImm (w : Width) (rm : RM) (count : BitVec 8) -- ROL: 1100000w mod:000:r/m, R401
  | rorBy1 (w : Width) (rm : RM) -- ROR: 1101000w mod:001:r/m, R402
  | rorByCl (w : Width) (rm : RM) -- ROR: 1101001w mod:001:r/m, R402
  | rorByImm (w : Width) (rm : RM) (count : BitVec 8) -- ROR: 1100000w mod:001:r/m, R402
  | rclBy1 (w : Width) (rm : RM) -- RCL: 1101000w mod:010:r/m, R403
  | rclByCl (w : Width) (rm : RM) -- RCL: 1101001w mod:010:r/m, R403
  | rclByImm (w : Width) (rm : RM) (count : BitVec 8) -- RCL: 1100000w mod:010:r/m, R403
  | rcrBy1 (w : Width) (rm : RM) -- RCR: 1101000w mod:011:r/m, R404
  | rcrByCl (w : Width) (rm : RM) -- RCR: 1101001w mod:011:r/m, R404
  | rcrByImm (w : Width) (rm : RM) (count : BitVec 8) -- RCR: 1100000w mod:011:r/m, R404
  | shlBy1 (w : Width) (rm : RM) -- SHL_SAL: 1101000w mod:100:r/m, R405
  | shlByCl (w : Width) (rm : RM) -- SHL_SAL: 1101001w mod:100:r/m, R405
  | shlByImm (w : Width) (rm : RM) (count : BitVec 8) -- SHL_SAL: 1100000w mod:100:r/m, R405
  | shrBy1 (w : Width) (rm : RM) -- SHR: 1101000w mod:101:r/m, R406
  | shrByCl (w : Width) (rm : RM) -- SHR: 1101001w mod:101:r/m, R406
  | shrByImm (w : Width) (rm : RM) (count : BitVec 8) -- SHR: 1100000w mod:101:r/m, R406
  | sarBy1 (w : Width) (rm : RM) -- SAR: 1101000w mod:111:r/m, R407
  | sarByCl (w : Width) (rm : RM) -- SAR: 1101001w mod:111:r/m, R407
  | sarByImm (w : Width) (rm : RM) (count : BitVec 8) -- SAR: 1100000w mod:111:r/m, R407
  | shldImm (reg : Reg) (rm : RM) (count : BitVec 8) -- SHLD: 00001111 10100100 mod:reg:r/m, R408
  | shldCl (reg : Reg) (rm : RM) -- SHLD: 00001111 10100101 mod:reg:r/m, R408
  | shrdImm (reg : Reg) (rm : RM) (count : BitVec 8) -- SHRD: 00001111 10101100 mod:reg:r/m, R409
  | shrdCl (reg : Reg) (rm : RM) -- SHRD: 00001111 10101101 mod:reg:r/m, R409
  | andRegRm (d : Dir) (w : Width) (reg : Reg) (rm : RM) -- AND: 001000dw mod:reg:r/m, R410
  | andRmImm (w : Width) (rm : RM) (imm : Imm) -- AND: 1000000w mod:100:r/m, R410
  | andRmImm8 (rm : RM) (imm8 : BitVec 8) -- AND: 10000011 mod:100:r/m, R410
  | andAccImm (w : Width) (imm : Imm) -- AND: 0010010w, R410
  | testRmReg (w : Width) (reg : Reg) (rm : RM) -- TEST: 1000010w mod:reg:r/m, R411
  | testRmImm (w : Width) (rm : RM) (imm : Imm) -- TEST: 1111011w mod:000:r/m, R411
  | testAccImm (w : Width) (imm : Imm) -- TEST: 1010100w, R411
  | orRegRm (d : Dir) (w : Width) (reg : Reg) (rm : RM) -- OR: 000010dw mod:reg:r/m, R412
  | orRmImm (w : Width) (rm : RM) (imm : Imm) -- OR: 1000000w mod:001:r/m, R412
  | orRmImm8 (rm : RM) (imm8 : BitVec 8) -- OR: 10000011 mod:001:r/m, R412
  | orAccImm (w : Width) (imm : Imm) -- OR: 0000110w, R412
  | xorRegRm (d : Dir) (w : Width) (reg : Reg) (rm : RM) -- XOR: 001100dw mod:reg:r/m, R413
  | xorRmImm (w : Width) (rm : RM) (imm : Imm) -- XOR: 1000000w mod:110:r/m, R413
  | xorRmImm8 (rm : RM) (imm8 : BitVec 8) -- XOR: 10000011 mod:110:r/m, R413
  | xorAccImm (w : Width) (imm : Imm) -- XOR: 0011010w, R413
  | notRm (w : Width) (rm : RM) -- NOT: 1111011w mod:010:r/m, R414
  | cmps (w : Width) -- CMPS: 1010011w, R431
  | ins (w : Width) -- INS: 0110110w, R432
  | lods (w : Width) -- LODS: 1010110w, R433
  | movs (w : Width) -- MOVS: 1010010w, R434
  | outs (w : Width) -- OUTS: 0110111w, R435
  | scas (w : Width) -- SCAS: 1010111w, R436
  | stos (w : Width) -- STOS: 1010101w, R437
  | repeCmps (w : Width) -- REPE_CMPS: 11110011 1010011w, R446
  | repneCmps (w : Width) -- REPNE_CMPS: 11110010 1010011w, R447
  | repeScas (w : Width) -- REPE_SCAS: 11110011 1010111w, R452
  | repneScas (w : Width) -- REPNE_SCAS: 11110010 1010111w, R453
  | repInsF2 (w : Width) -- REP_INS: 11110010 0110110w, R448
  | repInsF3 (w : Width) -- REP_INS: 11110011 0110110w, R448
  | repLodsF2 (w : Width) -- REP_LODS: 11110010 1010110w, R449
  | repLodsF3 (w : Width) -- REP_LODS: 11110011 1010110w, R449
  | repMovsF2 (w : Width) -- REP_MOVS: 11110010 1010010w, R450
  | repMovsF3 (w : Width) -- REP_MOVS: 11110011 1010010w, R450
  | repOutsF2 (w : Width) -- REP_OUTS: 11110010 0110111w, R451
  | repOutsF3 (w : Width) -- REP_OUTS: 11110011 0110111w, R451
  | repStosF2 (w : Width) -- REP_STOS: 11110010 1010101w, R454
  | repStosF3 (w : Width) -- REP_STOS: 11110011 1010101w, R454
  | bsf (reg : Reg) (rm : RM) -- BSF: 00001111 10111100 mod:reg:r/m, R461
  | bsr (reg : Reg) (rm : RM) -- BSR: 00001111 10111101 mod:reg:r/m, R462
  | btImm (rm : RM) (bit : BitVec 8) -- BT: 00001111 10111010 mod:100:r/m, R463
  | btReg (reg : Reg) (rm : RM) -- BT: 00001111 10100011 mod:reg:r/m, R463
  | btcImm (rm : RM) (bit : BitVec 8) -- BTC: 00001111 10111010 mod:111:r/m, R464
  | btcReg (reg : Reg) (rm : RM) -- BTC: 00001111 10111011 mod:reg:r/m, R464
  | btrImm (rm : RM) (bit : BitVec 8) -- BTR: 00001111 10111010 mod:110:r/m, R465
  | btrReg (reg : Reg) (rm : RM) -- BTR: 00001111 10110011 mod:reg:r/m, R465
  | btsImm (rm : RM) (bit : BitVec 8) -- BTS: 00001111 10111010 mod:101:r/m, R466
  | btsReg (reg : Reg) (rm : RM) -- BTS: 00001111 10101011 mod:reg:r/m, R466
  | ibts (reg : Reg) (rm : RM) -- IBTS: 00001111 10100111 mod:reg:r/m, R467
  | xbts (reg : Reg) (rm : RM) -- XBTS: 00001111 10100110 mod:reg:r/m, R468
  | callRel (off : Off) -- CALL: 11101000, R490
  | callRm (rm : RM) -- CALL: 11111111 mod:010:r/m, R491
  | callPtr (off : Off) (sel : BitVec 16) -- CALL: 10011010, R492
  | callMem (m : MemOp) -- CALL: 11111111 mod:011:r/m, R493
  | jmpShort (disp : BitVec 8) -- JMP: 11101011, R495
  | jmpRel (off : Off) -- JMP: 11101001, R496
  | jmpRm (rm : RM) -- JMP: 11111111 mod:100:r/m, R497
  | jmpPtr (off : Off) (sel : BitVec 16) -- JMP: 11101010, R498
  | jmpMem (m : MemOp) -- JMP: 11111111 mod:101:r/m, R499
  | retImm (n : BitVec 16) -- RET: 11000010, R501
  | retfImm (n : BitVec 16) -- RET: 11001010, R503
  | joShort (disp : BitVec 8) -- JO: 01110000, R510
  | joNear (off : Off) -- JO: 00001111 10000000, R510
  | jnoShort (disp : BitVec 8) -- JNO: 01110001, R511
  | jnoNear (off : Off) -- JNO: 00001111 10000001, R511
  | jbShort (disp : BitVec 8) -- JB_JNAE: 01110010, R512
  | jbNear (off : Off) -- JB_JNAE: 00001111 10000010, R512
  | jnbShort (disp : BitVec 8) -- JNB_JAE: 01110011, R513
  | jnbNear (off : Off) -- JNB_JAE: 00001111 10000011, R513
  | jeShort (disp : BitVec 8) -- JE_JZ: 01110100, R514
  | jeNear (off : Off) -- JE_JZ: 00001111 10000100, R514
  | jneShort (disp : BitVec 8) -- JNE_JNZ: 01110101, R515
  | jneNear (off : Off) -- JNE_JNZ: 00001111 10000101, R515
  | jbeShort (disp : BitVec 8) -- JBE_JNA: 01110110, R516
  | jbeNear (off : Off) -- JBE_JNA: 00001111 10000110, R516
  | jnbeShort (disp : BitVec 8) -- JNBE_JA: 01110111, R517
  | jnbeNear (off : Off) -- JNBE_JA: 00001111 10000111, R517
  | jsShort (disp : BitVec 8) -- JS: 01111000, R518
  | jsNear (off : Off) -- JS: 00001111 10001000, R518
  | jnsShort (disp : BitVec 8) -- JNS: 01111001, R519
  | jnsNear (off : Off) -- JNS: 00001111 10001001, R519
  | jpShort (disp : BitVec 8) -- JP_JPE: 01111010, R520
  | jpNear (off : Off) -- JP_JPE: 00001111 10001010, R520
  | jnpShort (disp : BitVec 8) -- JNP_JPO: 01111011, R521
  | jnpNear (off : Off) -- JNP_JPO: 00001111 10001011, R521
  | jlShort (disp : BitVec 8) -- JL_JNGE: 01111100, R522
  | jlNear (off : Off) -- JL_JNGE: 00001111 10001100, R522
  | jnlShort (disp : BitVec 8) -- JNL_JGE: 01111101, R523
  | jnlNear (off : Off) -- JNL_JGE: 00001111 10001101, R523
  | jleShort (disp : BitVec 8) -- JLE_JNG: 01111110, R524
  | jleNear (off : Off) -- JLE_JNG: 00001111 10001110, R524
  | jnleShort (disp : BitVec 8) -- JNLE_JG: 01111111, R525
  | jnleNear (off : Off) -- JNLE_JG: 00001111 10001111, R525
  | jcxz (disp : BitVec 8) -- JCXZ_JECXZ: 11100011, R530
  | loop (disp : BitVec 8) -- LOOP: 11100010, R531
  | loopz (disp : BitVec 8) -- LOOPZ_LOOPE: 11100001, R532
  | loopnz (disp : BitVec 8) -- LOOPNZ_LOOPNE: 11100000, R533
  | seto (rm : RM) -- SETO: 00001111 10010000 mod:000:r/m, R535
  | setno (rm : RM) -- SETNO: 00001111 10010001 mod:000:r/m, R536
  | setb (rm : RM) -- SETB_SETNAE: 00001111 10010010 mod:000:r/m, R537
  | setnb (rm : RM) -- SETNB_SETAE: 00001111 10010011 mod:000:r/m, R538
  | sete (rm : RM) -- SETE_SETZ: 00001111 10010100 mod:000:r/m, R539
  | setne (rm : RM) -- SETNE_SETNZ: 00001111 10010101 mod:000:r/m, R540
  | setbe (rm : RM) -- SETBE_SETNA: 00001111 10010110 mod:000:r/m, R541
  | setnbe (rm : RM) -- SETNBE_SETA: 00001111 10010111 mod:000:r/m, R542
  | sets (rm : RM) -- SETS: 00001111 10011000 mod:000:r/m, R543
  | setns (rm : RM) -- SETNS: 00001111 10011001 mod:000:r/m, R544
  | setp (rm : RM) -- SETP_SETPE: 00001111 10011010 mod:000:r/m, R545
  | setnp (rm : RM) -- SETNP_SETPO: 00001111 10011011 mod:000:r/m, R546
  | setl (rm : RM) -- SETL_SETNGE: 00001111 10011100 mod:000:r/m, R547
  | setnl (rm : RM) -- SETNL_SETGE: 00001111 10011101 mod:000:r/m, R548
  | setle (rm : RM) -- SETLE_SETNG: 00001111 10011110 mod:000:r/m, R549
  | setnle (rm : RM) -- SETNLE_SETG: 00001111 10011111 mod:000:r/m, R550
  | enter (size : BitVec 16) (level : BitVec 8) -- ENTER: 11001000, R555
  | intN (v : BitVec 8) -- INT_n: 11001101, R561
  | bound (reg : Reg) (m : MemOp) -- BOUND: 01100010 mod:reg:r/m, R564
  | movCr0Reg (reg : Reg) -- MOV_CR0_reg: 00001111 00100010 11000:reg, R586
  | movCr2Reg (reg : Reg) -- MOV_CR2_reg: 00001111 00100010 11010:reg, R586
  | movCr3Reg (reg : Reg) -- MOV_CR3_reg: 00001111 00100010 11011:reg, R586
  | movRegCr0 (reg : Reg) -- MOV_reg_CR0: 00001111 00100000 11000:reg, R587
  | movRegCr2 (reg : Reg) -- MOV_reg_CR2: 00001111 00100000 11010:reg, R587
  | movRegCr3 (reg : Reg) -- MOV_reg_CR3: 00001111 00100000 11011:reg, R587
  | movDr0Reg (reg : Reg) -- MOV_DR0_reg: 00001111 00100011 11000:reg, R588
  | movDr1Reg (reg : Reg) -- MOV_DR1_reg: 00001111 00100011 11001:reg, R588
  | movDr2Reg (reg : Reg) -- MOV_DR2_reg: 00001111 00100011 11010:reg, R588
  | movDr3Reg (reg : Reg) -- MOV_DR3_reg: 00001111 00100011 11011:reg, R588
  | movDr6Reg (reg : Reg) -- MOV_DR6_reg: 00001111 00100011 11110:reg, R589
  | movDr7Reg (reg : Reg) -- MOV_DR7_reg: 00001111 00100011 11111:reg, R589
  | movRegDr6 (reg : Reg) -- MOV_reg_DR6: 00001111 00100001 11110:reg, R590
  | movRegDr7 (reg : Reg) -- MOV_reg_DR7: 00001111 00100001 11111:reg, R590
  | movRegDr0 (reg : Reg) -- MOV_reg_DR0: 00001111 00100001 11000:reg, R591
  | movRegDr1 (reg : Reg) -- MOV_reg_DR1: 00001111 00100001 11001:reg, R591
  | movRegDr2 (reg : Reg) -- MOV_reg_DR2: 00001111 00100001 11010:reg, R591
  | movRegDr3 (reg : Reg) -- MOV_reg_DR3: 00001111 00100001 11011:reg, R591
  | movTr6Reg (reg : Reg) -- MOV_TR6_reg: 00001111 00100110 11110:reg, R592
  | movTr7Reg (reg : Reg) -- MOV_TR7_reg: 00001111 00100110 11111:reg, R592
  | movRegTr6 (reg : Reg) -- MOV_reg_TR6: 00001111 00100100 11110:reg, R593
  | movRegTr7 (reg : Reg) -- MOV_reg_TR7: 00001111 00100100 11111:reg, R593
  | esc (ttt : BitVec 3) (lll : BitVec 3) (rm : RM) -- ESC: 11011:TTT mod:LLL:r/m, R610
  | arpl (reg : Reg) (rm : RM) -- ARPL: 01100011 mod:reg:r/m, R621
  | lar (reg : Reg) (rm : RM) -- LAR: 00001111 00000010 mod:reg:r/m, R622
  | lgdt (m : MemOp) -- LGDT: 00001111 00000001 mod:010:r/m, R623
  | lidt (m : MemOp) -- LIDT: 00001111 00000001 mod:011:r/m, R624
  | lldt (rm : RM) -- LLDT: 00001111 00000000 mod:010:r/m, R625
  | lmsw (rm : RM) -- LMSW: 00001111 00000001 mod:110:r/m, R626
  | lsl (reg : Reg) (rm : RM) -- LSL: 00001111 00000011 mod:reg:r/m, R627
  | ltr (rm : RM) -- LTR: 00001111 00000000 mod:011:r/m, R628
  | sgdt (m : MemOp) -- SGDT: 00001111 00000001 mod:000:r/m, R629
  | sidt (m : MemOp) -- SIDT: 00001111 00000001 mod:001:r/m, R630
  | sldt (rm : RM) -- SLDT: 00001111 00000000 mod:000:r/m, R631
  | smsw (rm : RM) -- SMSW: 00001111 00000001 mod:100:r/m, R632
  | str (rm : RM) -- STR: 00001111 00000000 mod:001:r/m, R633
  | verr (rm : RM) -- VERR: 00001111 00000000 mod:100:r/m, R634
  | verw (rm : RM) -- VERW: 00001111 00000000 mod:101:r/m, R635
  | addrsize -- ADDRSIZE: 01100111, R613
  | lock -- LOCK: 11110000, R612
  | opsize -- OPSIZE: 01100110, R614
  | segCs -- SEG_CS: 00101110, R615
  | segDs -- SEG_DS: 00111110, R615
  | segEs -- SEG_ES: 00100110, R615
  | segFs -- SEG_FS: 01100100, R615
  | segGs -- SEG_GS: 01100101, R615
  | segSs -- SEG_SS: 00110110, R615
  | repneRep -- REPNE_REP: 11110010, R445
  | repeRep -- REPE_REP: 11110011, R445
  | pushEs -- PUSH_ES: 00000110, R311
  | pushCs -- PUSH_CS: 00001110, R311
  | pushSs -- PUSH_SS: 00010110, R311
  | pushDs -- PUSH_DS: 00011110, R311
  | pushFs -- PUSH_FS: 00001111 10100000, R311
  | pushGs -- PUSH_GS: 00001111 10101000, R311
  | pusha -- PUSHA_PUSHAD: 01100000, R312
  | popEs -- POP_ES: 00000111, R314
  | popSs -- POP_SS: 00010111, R314
  | popDs -- POP_DS: 00011111, R314
  | popFs -- POP_FS: 00001111 10100001, R314
  | popGs -- POP_GS: 00001111 10101001, R314
  | popa -- POPA_POPAD: 01100001, R315
  | clc -- CLC: 11111000, R330
  | cld -- CLD: 11111100, R331
  | cli -- CLI: 11111010, R332
  | cmc -- CMC: 11110101, R334
  | lahf -- LAHF: 10011111, R335
  | popf -- POPF_POPFD: 10011101, R336
  | pushf -- PUSHF_PUSHFD: 10011100, R337
  | sahf -- SAHF: 10011110, R338
  | stc -- STC: 11111001, R339
  | std -- STD: 11111101, R340
  | sti -- STI: 11111011, R341
  | clts -- CLTS: 00001111 00000110, R333
  | aaa -- AAA: 00110111, R369
  | aas -- AAS: 00111111, R370
  | daa -- DAA: 00100111, R371
  | das -- DAS: 00101111, R372
  | cbw -- CBW_CWDE: 10011000, R381
  | cwd -- CWD_CDQ: 10011001, R382
  | xlat -- XLAT: 11010111, R438
  | ret -- RET: 11000011, R500
  | retf -- RET: 11001011, R502
  | leave -- LEAVE: 11001001, R556
  | int3 -- INT_3: 11001100, R562
  | into -- INTO: 11001110, R563
  | iret -- IRET_IRETD: 11001111, R565
  | hlt -- HLT: 11110100, R580
  | nop -- NOP: 10010000, R605
  | wait -- WAIT: 10011011, R606
deriving DecidableEq, Repr

end Sys2Proof
end

