-- ==== Sys2Proof/WellFormed.lean ====
section
/-! DEFINITION. Which terms of `Instr` an encoding exists for, under the size attributes of 30_encoding.md R232. -/

namespace Sys2Proof

/-- What the meaning of an instruction's bytes depends on: the operand size, the address size (R232) and a repeat
prefix read before them (43_string.md R445). -/
structure Ctx where
  osz32 : Bool
  asz32 : Bool
  rep : Option Rep
deriving DecidableEq, Repr

/-- After reset: 16-bit sizes (R232, Real Mode), no prefix. -/
def Ctx.reset : Ctx := { osz32 := false, asz32 := false, rep := none }

/-- The index field cannot name ESP (R254). -/
def indexOk (index : Option Reg) : Bool := index != some .esp

/-- A memory operand is one of R251 when the address size is 16, of R252 or R254 when it is 32. ESP as a base needs the
s-i-b byte, and BP or EBP as a base needs a displacement. -/
def MemOp.wf (c : Ctx) : MemOp → Bool
  | .a16 base disp => !c.asz32 && !(base == .bp && disp == .none)
  | .abs16 _ => !c.asz32
  | .a32 base disp => c.asz32 && base != .esp && !(base == .ebp && disp == .none)
  | .abs32 _ => c.asz32
  | .sib base _ index disp => c.asz32 && indexOk index && !(base == .ebp && disp == .none)
  | .sibAbs _ index _ => c.asz32 && indexOk index

def RM.wf (c : Ctx) : RM → Bool
  | .reg _ => true
  | .mem m => m.wf c

/-- A full-size immediate has the width of the operand size (R266). -/
def Imm.fullWf (c : Ctx) : Imm → Bool
  | .i8 _ => false
  | .i16 _ => !c.osz32
  | .i32 _ => c.osz32

/-- An immediate of a form with a w field and no s field (R266). -/
def Imm.wf (c : Ctx) (w : Width) (imm : Imm) : Bool :=
  match w, imm with
  | .byte, .i8 _ => true
  | .byte, _ => false
  | .full, i => i.fullWf c

/-- An immediate of a form with an s field (R246): 8 bits, or the full size where the operand is full size. -/
def Imm.sWf (c : Ctx) (w : Width) (imm : Imm) : Bool :=
  match w, imm with
  | _, .i8 _ => true
  | .byte, _ => false
  | .full, i => i.fullWf c

/-- A displacement or offset of 16 or 32 bits, by the size attribute it follows (R266). -/
def Off.wf (is32 : Bool) : Off → Bool
  | .o16 _ => !is32
  | .o32 _ => is32

/-- CS is no destination of MOV (R270); 90 is NOP, not XCHG (R280); a string opcode after a repeat prefix is the
repeated row. -/
def Instr.wf (c : Ctx) : Instr → Bool
  | .addrsize => true
  | .lock => true
  | .opsize => true
  | .segCs => true
  | .segDs => true
  | .segEs => true
  | .segFs => true
  | .segGs => true
  | .segSs => true
  | .repneRep => true
  | .repeRep => true
  | .movRmReg _ _ rm => rm.wf c
  | .movRegRm _ _ rm => rm.wf c
  | .movRmImm w rm imm => rm.wf c && imm.wf c w
  | .movRegImm w _ imm => imm.wf c w
  | .movAccMem _ off => off.wf c.asz32
  | .movMemAcc _ off => off.wf c.asz32
  | .movSregRm sr rm => rm.wf c && sr != .cs
  | .movRmSreg _ rm => rm.wf c
  | .movsx _ _ rm => rm.wf c
  | .movzx _ _ rm => rm.wf c
  | .pushRm rm => rm.wf c
  | .pushReg _ => true
  | .pushImm imm => imm.sWf c .full
  | .pushEs => true
  | .pushCs => true
  | .pushSs => true
  | .pushDs => true
  | .pushFs => true
  | .pushGs => true
  | .pusha => true
  | .popRm rm => rm.wf c
  | .popReg _ => true
  | .popEs => true
  | .popSs => true
  | .popDs => true
  | .popFs => true
  | .popGs => true
  | .popa => true
  | .xchgRmReg _ _ rm => rm.wf c
  | .xchgAccReg reg => reg != .eax
  | .inImm _ _ => true
  | .inDx _ => true
  | .outImm _ _ => true
  | .outDx _ => true
  | .lea _ m => m.wf c
  | .lds _ m => m.wf c
  | .les _ m => m.wf c
  | .lfs _ m => m.wf c
  | .lgs _ m => m.wf c
  | .lss _ m => m.wf c
  | .clc => true
  | .cld => true
  | .cli => true
  | .cmc => true
  | .lahf => true
  | .popf => true
  | .pushf => true
  | .sahf => true
  | .stc => true
  | .std => true
  | .sti => true
  | .clts => true
  | .addRegRm _ _ _ rm => rm.wf c
  | .addRmImm w rm imm => rm.wf c && imm.sWf c w
  | .addAccImm w imm => imm.wf c w
  | .adcRegRm _ _ _ rm => rm.wf c
  | .adcRmImm w rm imm => rm.wf c && imm.sWf c w
  | .adcAccImm w imm => imm.wf c w
  | .incRm _ rm => rm.wf c
  | .incReg _ => true
  | .subRegRm _ _ _ rm => rm.wf c
  | .subRmImm w rm imm => rm.wf c && imm.sWf c w
  | .subAccImm w imm => imm.wf c w
  | .sbbRegRm _ _ _ rm => rm.wf c
  | .sbbRmImm w rm imm => rm.wf c && imm.sWf c w
  | .sbbAccImm w imm => imm.wf c w
  | .decRm _ rm => rm.wf c
  | .decReg _ => true
  | .cmpRegRm _ _ _ rm => rm.wf c
  | .cmpRmImm w rm imm => rm.wf c && imm.sWf c w
  | .cmpAccImm w imm => imm.wf c w
  | .neg _ rm => rm.wf c
  | .aaa => true
  | .aas => true
  | .daa => true
  | .das => true
  | .mul _ rm => rm.wf c
  | .imulAcc _ rm => rm.wf c
  | .imulReg _ rm => rm.wf c
  | .imulImm _ rm imm => rm.wf c && imm.sWf c .full
  | .div _ rm => rm.wf c
  | .idiv _ rm => rm.wf c
  | .aad _ => true
  | .aam _ => true
  | .cbw => true
  | .cwd => true
  | .rolBy1 _ rm => rm.wf c
  | .rolByCl _ rm => rm.wf c
  | .rolByImm _ rm _ => rm.wf c
  | .rorBy1 _ rm => rm.wf c
  | .rorByCl _ rm => rm.wf c
  | .rorByImm _ rm _ => rm.wf c
  | .rclBy1 _ rm => rm.wf c
  | .rclByCl _ rm => rm.wf c
  | .rclByImm _ rm _ => rm.wf c
  | .rcrBy1 _ rm => rm.wf c
  | .rcrByCl _ rm => rm.wf c
  | .rcrByImm _ rm _ => rm.wf c
  | .shlBy1 _ rm => rm.wf c
  | .shlByCl _ rm => rm.wf c
  | .shlByImm _ rm _ => rm.wf c
  | .shrBy1 _ rm => rm.wf c
  | .shrByCl _ rm => rm.wf c
  | .shrByImm _ rm _ => rm.wf c
  | .sarBy1 _ rm => rm.wf c
  | .sarByCl _ rm => rm.wf c
  | .sarByImm _ rm _ => rm.wf c
  | .shldImm _ rm _ => rm.wf c
  | .shldCl _ rm => rm.wf c
  | .shrdImm _ rm _ => rm.wf c
  | .shrdCl _ rm => rm.wf c
  | .andRegRm _ _ _ rm => rm.wf c
  | .andRmImm w rm imm => rm.wf c && imm.wf c w
  | .andRmImm8 rm _ => rm.wf c
  | .andAccImm w imm => imm.wf c w
  | .testRmReg _ _ rm => rm.wf c
  | .testRmImm w rm imm => rm.wf c && imm.wf c w
  | .testAccImm w imm => imm.wf c w
  | .orRegRm _ _ _ rm => rm.wf c
  | .orRmImm w rm imm => rm.wf c && imm.wf c w
  | .orRmImm8 rm _ => rm.wf c
  | .orAccImm w imm => imm.wf c w
  | .xorRegRm _ _ _ rm => rm.wf c
  | .xorRmImm w rm imm => rm.wf c && imm.wf c w
  | .xorRmImm8 rm _ => rm.wf c
  | .xorAccImm w imm => imm.wf c w
  | .notRm _ rm => rm.wf c
  | .cmps _ => c.rep == none
  | .ins _ => c.rep == none
  | .lods _ => c.rep == none
  | .movs _ => c.rep == none
  | .outs _ => c.rep == none
  | .scas _ => c.rep == none
  | .stos _ => c.rep == none
  | .xlat => true
  | .repeCmps _ => true
  | .repneCmps _ => true
  | .repeScas _ => true
  | .repneScas _ => true
  | .repInsF2 _ => true
  | .repInsF3 _ => true
  | .repLodsF2 _ => true
  | .repLodsF3 _ => true
  | .repMovsF2 _ => true
  | .repMovsF3 _ => true
  | .repOutsF2 _ => true
  | .repOutsF3 _ => true
  | .repStosF2 _ => true
  | .repStosF3 _ => true
  | .bsf _ rm => rm.wf c
  | .bsr _ rm => rm.wf c
  | .btImm rm _ => rm.wf c
  | .btReg _ rm => rm.wf c
  | .btcImm rm _ => rm.wf c
  | .btcReg _ rm => rm.wf c
  | .btrImm rm _ => rm.wf c
  | .btrReg _ rm => rm.wf c
  | .btsImm rm _ => rm.wf c
  | .btsReg _ rm => rm.wf c
  | .ibts _ rm => rm.wf c
  | .xbts _ rm => rm.wf c
  | .callRel off => off.wf c.osz32
  | .callRm rm => rm.wf c
  | .callPtr off _ => off.wf c.osz32
  | .callMem m => m.wf c
  | .jmpShort _ => true
  | .jmpRel off => off.wf c.osz32
  | .jmpRm rm => rm.wf c
  | .jmpPtr off _ => off.wf c.osz32
  | .jmpMem m => m.wf c
  | .ret => true
  | .retImm _ => true
  | .retf => true
  | .retfImm _ => true
  | .joShort _ => true
  | .joNear off => off.wf c.osz32
  | .jnoShort _ => true
  | .jnoNear off => off.wf c.osz32
  | .jbShort _ => true
  | .jbNear off => off.wf c.osz32
  | .jnbShort _ => true
  | .jnbNear off => off.wf c.osz32
  | .jeShort _ => true
  | .jeNear off => off.wf c.osz32
  | .jneShort _ => true
  | .jneNear off => off.wf c.osz32
  | .jbeShort _ => true
  | .jbeNear off => off.wf c.osz32
  | .jnbeShort _ => true
  | .jnbeNear off => off.wf c.osz32
  | .jsShort _ => true
  | .jsNear off => off.wf c.osz32
  | .jnsShort _ => true
  | .jnsNear off => off.wf c.osz32
  | .jpShort _ => true
  | .jpNear off => off.wf c.osz32
  | .jnpShort _ => true
  | .jnpNear off => off.wf c.osz32
  | .jlShort _ => true
  | .jlNear off => off.wf c.osz32
  | .jnlShort _ => true
  | .jnlNear off => off.wf c.osz32
  | .jleShort _ => true
  | .jleNear off => off.wf c.osz32
  | .jnleShort _ => true
  | .jnleNear off => off.wf c.osz32
  | .jcxz _ => true
  | .loop _ => true
  | .loopz _ => true
  | .loopnz _ => true
  | .seto rm => rm.wf c
  | .setno rm => rm.wf c
  | .setb rm => rm.wf c
  | .setnb rm => rm.wf c
  | .sete rm => rm.wf c
  | .setne rm => rm.wf c
  | .setbe rm => rm.wf c
  | .setnbe rm => rm.wf c
  | .sets rm => rm.wf c
  | .setns rm => rm.wf c
  | .setp rm => rm.wf c
  | .setnp rm => rm.wf c
  | .setl rm => rm.wf c
  | .setnl rm => rm.wf c
  | .setle rm => rm.wf c
  | .setnle rm => rm.wf c
  | .enter _ _ => true
  | .leave => true
  | .intN _ => true
  | .int3 => true
  | .into => true
  | .bound _ m => m.wf c
  | .iret => true
  | .hlt => true
  | .movCr0Reg _ => true
  | .movCr2Reg _ => true
  | .movCr3Reg _ => true
  | .movRegCr0 _ => true
  | .movRegCr2 _ => true
  | .movRegCr3 _ => true
  | .movDr0Reg _ => true
  | .movDr1Reg _ => true
  | .movDr2Reg _ => true
  | .movDr3Reg _ => true
  | .movDr6Reg _ => true
  | .movDr7Reg _ => true
  | .movRegDr6 _ => true
  | .movRegDr7 _ => true
  | .movRegDr0 _ => true
  | .movRegDr1 _ => true
  | .movRegDr2 _ => true
  | .movRegDr3 _ => true
  | .movTr6Reg _ => true
  | .movTr7Reg _ => true
  | .movRegTr6 _ => true
  | .movRegTr7 _ => true
  | .nop => true
  | .wait => true
  | .esc _ _ rm => rm.wf c
  | .arpl _ rm => rm.wf c
  | .lar _ rm => rm.wf c
  | .lgdt m => m.wf c
  | .lidt m => m.wf c
  | .lldt rm => rm.wf c
  | .lmsw rm => rm.wf c
  | .lsl _ rm => rm.wf c
  | .ltr rm => rm.wf c
  | .sgdt m => m.wf c
  | .sidt m => m.wf c
  | .sldt rm => rm.wf c
  | .smsw rm => rm.wf c
  | .str rm => rm.wf c
  | .verr rm => rm.wf c
  | .verw rm => rm.wf c

end Sys2Proof
end

