-- ==== Sys2Proof/Decode.lean ====
section
/-! DEFINITION. The decoder of 30_encoding.md R275, total on any bytes, and the encoder that writes the same tables the
other way round. -/

namespace Sys2Proof

/-- Why bytes give no instruction. -/
inductive DecodeError
  /-- More bytes are needed than were given. -/
  | more
  /-- An encoding that raises exception 6 (R270, R273). -/
  | invalid
  /-- An encoding the spec says not to use and gives no effect: an unlisted control, debug or test register number
  (U5). -/
  | undefinedEncoding
deriving DecidableEq, Repr

/-- What the decoder reads at the head of a list of bytes. -/
inductive Decoded
  | instr (i : Instr) (length : Nat)
  | reject (e : DecodeError)
deriving DecidableEq, Repr

/-- A reader of instruction bytes: it takes bytes from the front of the list. -/
abbrev Parser (α : Type) := EStateM DecodeError (List Byte) α

def rejectWith {α : Type} (e : DecodeError) : Parser α := fun bs => .error e bs

def nextByte : Parser Byte := fun bs =>
  match bs with
  | [] => .error .more []
  | b :: rest => .ok b rest

/-- The next byte, not taken. -/
def peekByte : Parser Byte := fun bs =>
  match bs with
  | [] => .error .more []
  | b :: rest => .ok b (b :: rest)

/-- Multi-byte fields are little-endian (20_memory.md R112). -/
def nextWord : Parser Word := do
  let lo ← nextByte
  let hi ← nextByte
  pure (hi ++ lo)

def nextDword : Parser Dword := do
  let lo ← nextWord
  let hi ← nextWord
  pure (hi ++ lo)

/-! The register and condition fields (R240, R242, R251, R254). -/

def Reg.ofBits (b : BitVec 3) : Reg :=
  match b.toNat with
  | 0 => .eax
  | 1 => .ecx
  | 2 => .edx
  | 3 => .ebx
  | 4 => .esp
  | 5 => .ebp
  | 6 => .esi
  | _ => .edi

def Reg.toBits : Reg → BitVec 3
  | .eax => 0
  | .ecx => 1
  | .edx => 2
  | .ebx => 3
  | .esp => 4
  | .ebp => 5
  | .esi => 6
  | .edi => 7

/-- sreg3 (R242): 110 and 111 are "do not use" (exception 6, U18). -/
def SReg.ofBits (b : BitVec 3) : Option SReg :=
  match b.toNat with
  | 0 => some .es
  | 1 => some .cs
  | 2 => some .ss
  | 3 => some .ds
  | 4 => some .fs
  | 5 => some .gs
  | _ => none

def SReg.toBits : SReg → BitVec 3
  | .es => 0
  | .cs => 1
  | .ss => 2
  | .ds => 3
  | .fs => 4
  | .gs => 5

def Base16.ofBits (b : BitVec 3) : Base16 :=
  match b.toNat with
  | 0 => .bxSi
  | 1 => .bxDi
  | 2 => .bpSi
  | 3 => .bpDi
  | 4 => .si
  | 5 => .di
  | 6 => .bp
  | _ => .bx

def Base16.toBits : Base16 → BitVec 3
  | .bxSi => 0
  | .bxDi => 1
  | .bpSi => 2
  | .bpDi => 3
  | .si => 4
  | .di => 5
  | .bp => 6
  | .bx => 7

def Scale.ofBits (b : BitVec 2) : Scale :=
  match b.toNat with
  | 0 => .x1
  | 1 => .x2
  | 2 => .x4
  | _ => .x8

def Scale.toBits : Scale → BitVec 2
  | .x1 => 0
  | .x2 => 1
  | .x4 => 2
  | .x8 => 3

/-- The index field: 100 is no index register (R254). -/
def indexOfBits (b : BitVec 3) : Option Reg := if b = 4 then none else some (Reg.ofBits b)

def indexToBits : Option Reg → BitVec 3
  | none => 4
  | some r => r.toBits

/-- The w bit, bit 0 of an opcode byte (R238). -/
def opWidth (op : Byte) : Width := if op.getLsbD 0 then .full else .byte

/-- The d bit, bit 1 of an opcode byte (R244). -/
def opDir (op : Byte) : Dir := if op.getLsbD 1 then .toReg else .toRm

/-- Bits 2:0 of an opcode byte. -/
def opLow (op : Byte) : BitVec 3 := op.extractLsb' 0 3

/-- Bits 5:3 of an opcode byte. -/
def opMid (op : Byte) : BitVec 3 := op.extractLsb' 3 3

/-! The mod r/m and s-i-b bytes. -/

def disp16 (md : BitVec 2) : Parser Disp16 :=
  match md.toNat with
  | 0 => pure .none
  | 1 => do
    let v ← nextByte
    pure (.d8 v)
  | _ => do
    let v ← nextWord
    pure (.d16 v)

def disp32 (md : BitVec 2) : Parser Disp32 :=
  match md.toNat with
  | 0 => pure .none
  | 1 => do
    let v ← nextByte
    pure (.d8 v)
  | _ => do
    let v ← nextDword
    pure (.d32 v)

/-- R251. -/
def memOp16 (md : BitVec 2) (rm : BitVec 3) : Parser MemOp :=
  if md = 0 ∧ rm = 6 then do
    let d ← nextWord
    pure (.abs16 d)
  else do
    let d ← disp16 md
    pure (.a16 (Base16.ofBits rm) d)

/-- The s-i-b byte and what follows it (R254). -/
def sibOp (md : BitVec 2) : Parser MemOp := do
  let b ← nextByte
  let scale := Scale.ofBits (b.extractLsb' 6 2)
  let index := indexOfBits (b.extractLsb' 3 3)
  let base := b.extractLsb' 0 3
  if md = 0 ∧ base = 5 then do
    let d ← nextDword
    pure (.sibAbs scale index d)
  else do
    let d ← disp32 md
    pure (.sib (Reg.ofBits base) scale index d)

/-- R252. -/
def memOp32 (md : BitVec 2) (rm : BitVec 3) : Parser MemOp :=
  if rm = 4 then sibOp md
  else if md = 0 ∧ rm = 5 then do
    let d ← nextDword
    pure (.abs32 d)
  else do
    let d ← disp32 md
    pure (.a32 (Reg.ofBits rm) d)

/-- The mod r/m byte with all that belongs to it: the reg (or TTT) field and the r/m operand (R250, R258, R259). -/
def modRM (c : Ctx) : Parser (BitVec 3 × RM) := do
  let b ← nextByte
  let md := b.extractLsb' 6 2
  let reg := b.extractLsb' 3 3
  let rm := b.extractLsb' 0 3
  if md = 3 then pure (reg, .reg (Reg.ofBits rm))
  else do
    let m ← if c.asz32 then memOp32 md rm else memOp16 md rm
    pure (reg, .mem m)

/-- The mod r/m byte of a form with an opcode extension: the form is looked up, with its TTT bits, before the s-i-b byte
and the displacement are read, so that an undefined opcode is known from the mod r/m byte alone (R275 steps 4 and 5,
60_exceptions.md R657). -/
def extRM (c : Ctx) (known : BitVec 3 → Bool) : Parser (BitVec 3 × RM) := do
  let b ← peekByte
  if known (b.extractLsb' 3 3) then modRM c else rejectWith .invalid

/-- An operand that must be memory: mod = 11 raises exception 6 (R258, R270). -/
def memOnly (rm : RM) (k : MemOp → Instr) : Parser Instr :=
  match rm with
  | .mem m => pure (k m)
  | .reg _ => rejectWith .invalid

/-- A form with a register in the reg field. -/
def regRm (c : Ctx) (k : Reg → RM → Instr) : Parser Instr := do
  let (reg, rm) ← modRM c
  pure (k (Reg.ofBits reg) rm)

/-- A form with a register and a memory operand. -/
def regMem (c : Ctx) (k : Reg → MemOp → Instr) : Parser Instr := do
  let (reg, rm) ← modRM c
  memOnly rm (k (Reg.ofBits reg))

/-! Immediates and displacements (R246, R266). -/

def fullImm (c : Ctx) : Parser Imm :=
  if c.osz32 then do
    let v ← nextDword
    pure (.i32 v)
  else do
    let v ← nextWord
    pure (.i16 v)

def byteImm : Parser Imm := do
  let v ← nextByte
  pure (.i8 v)

def immOf (c : Ctx) (w : Width) : Parser Imm :=
  match w with
  | .byte => byteImm
  | .full => fullImm c

/-- A full displacement or offset of the given size. -/
def offOf (is32 : Bool) : Parser Off :=
  if is32 then do
    let v ← nextDword
    pure (.o32 v)
  else do
    let v ← nextWord
    pure (.o16 v)

/-- A direct far pointer: offset, then selector (R266). -/
def farPtr (c : Ctx) (k : Off → Word → Instr) : Parser Instr := do
  let off ← offOf c.osz32
  let sel ← nextWord
  pure (k off sel)

/-! The opcode groups. -/

/-- ooo of 41_arithmetic.md R360, register and r/m. -/
def aluRegRm (ooo : BitVec 3) : Dir → Width → Reg → RM → Instr :=
  match ooo.toNat with
  | 0 => .addRegRm
  | 1 => .orRegRm
  | 2 => .adcRegRm
  | 3 => .sbbRegRm
  | 4 => .andRegRm
  | 5 => .subRegRm
  | 6 => .xorRegRm
  | _ => .cmpRegRm

/-- ooo of R360, accumulator and immediate. -/
def aluAccImm (ooo : BitVec 3) : Width → Imm → Instr :=
  match ooo.toNat with
  | 0 => .addAccImm
  | 1 => .orAccImm
  | 2 => .adcAccImm
  | 3 => .sbbAccImm
  | 4 => .andAccImm
  | 5 => .subAccImm
  | 6 => .xorAccImm
  | _ => .cmpAccImm

/-- ooo of R360, r/m and immediate (80, 81, and 82 read as 80, R270). -/
def aluRmImm (ooo : BitVec 3) : Width → RM → Imm → Instr :=
  match ooo.toNat with
  | 0 => .addRmImm
  | 1 => .orRmImm
  | 2 => .adcRmImm
  | 3 => .sbbRmImm
  | 4 => .andRmImm
  | 5 => .subRmImm
  | 6 => .xorRmImm
  | _ => .cmpRmImm

/-- 83: a sign-extended byte; OR, AND and XOR have rows of their own for it. -/
def aluRmImm8 (ooo : BitVec 3) (rm : RM) (v : Byte) : Instr :=
  match ooo.toNat with
  | 0 => .addRmImm .full rm (.i8 v)
  | 1 => .orRmImm8 rm v
  | 2 => .adcRmImm .full rm (.i8 v)
  | 3 => .sbbRmImm .full rm (.i8 v)
  | 4 => .andRmImm8 rm v
  | 5 => .subRmImm .full rm (.i8 v)
  | 6 => .xorRmImm8 rm v
  | _ => .cmpRmImm .full rm (.i8 v)

/-- TTT of R264, by 1; 110 acts as SHL (R270, log 19). -/
def shiftBy1 (ttt : BitVec 3) : Width → RM → Instr :=
  match ttt.toNat with
  | 0 => .rolBy1
  | 1 => .rorBy1
  | 2 => .rclBy1
  | 3 => .rcrBy1
  | 4 => .shlBy1
  | 5 => .shrBy1
  | 6 => .shlBy1
  | _ => .sarBy1

def shiftByCl (ttt : BitVec 3) : Width → RM → Instr :=
  match ttt.toNat with
  | 0 => .rolByCl
  | 1 => .rorByCl
  | 2 => .rclByCl
  | 3 => .rcrByCl
  | 4 => .shlByCl
  | 5 => .shrByCl
  | 6 => .shlByCl
  | _ => .sarByCl

def shiftByImm (ttt : BitVec 3) : Width → RM → Byte → Instr :=
  match ttt.toNat with
  | 0 => .rolByImm
  | 1 => .rorByImm
  | 2 => .rclByImm
  | 3 => .rcrByImm
  | 4 => .shlByImm
  | 5 => .shrByImm
  | 6 => .shlByImm
  | _ => .sarByImm

/-- tttn of R262, Jcc short. -/
def jccShort (tttn : BitVec 4) : Byte → Instr :=
  match tttn.toNat with
  | 0 => .joShort
  | 1 => .jnoShort
  | 2 => .jbShort
  | 3 => .jnbShort
  | 4 => .jeShort
  | 5 => .jneShort
  | 6 => .jbeShort
  | 7 => .jnbeShort
  | 8 => .jsShort
  | 9 => .jnsShort
  | 10 => .jpShort
  | 11 => .jnpShort
  | 12 => .jlShort
  | 13 => .jnlShort
  | 14 => .jleShort
  | _ => .jnleShort

/-- tttn of R262, Jcc full displacement. -/
def jccNear (tttn : BitVec 4) : Off → Instr :=
  match tttn.toNat with
  | 0 => .joNear
  | 1 => .jnoNear
  | 2 => .jbNear
  | 3 => .jnbNear
  | 4 => .jeNear
  | 5 => .jneNear
  | 6 => .jbeNear
  | 7 => .jnbeNear
  | 8 => .jsNear
  | 9 => .jnsNear
  | 10 => .jpNear
  | 11 => .jnpNear
  | 12 => .jlNear
  | 13 => .jnlNear
  | 14 => .jleNear
  | _ => .jnleNear

/-- tttn of R262, SETcc. -/
def setcc (tttn : BitVec 4) : RM → Instr :=
  match tttn.toNat with
  | 0 => .seto
  | 1 => .setno
  | 2 => .setb
  | 3 => .setnb
  | 4 => .sete
  | 5 => .setne
  | 6 => .setbe
  | 7 => .setnbe
  | 8 => .sets
  | 9 => .setns
  | 10 => .setp
  | 11 => .setnp
  | 12 => .setl
  | 13 => .setnl
  | 14 => .setle
  | _ => .setnle

/-- The opcodes of the string instructions (43_string.md R431 to R437). -/
def isStringOp (op : Byte) : Bool :=
  let hi := (op.extractLsb' 4 4).toNat
  let lo := (op.extractLsb' 0 4).toNat
  (hi == 0xA && (4 ≤ lo && lo ≤ 7 || 10 ≤ lo)) || (hi == 0x6 && 12 ≤ lo)

/-- A string opcode, alone or with a repeat prefix (R445, 90_conflicts.md C11): F2 and F3 repeat INS, LODS, MOVS, OUTS
and STOS alike, each by its own row. The opcode is one of `isStringOp`. -/
def stringInstr (rep : Option Rep) (op : Byte) : Instr :=
  let w := opWidth op
  match op.toNat / 2, rep with
  | 0x52, none => .movs w
  | 0x52, some .f2 => .repMovsF2 w
  | 0x52, some .f3 => .repMovsF3 w
  | 0x53, none => .cmps w
  | 0x53, some .f2 => .repneCmps w
  | 0x53, some .f3 => .repeCmps w
  | 0x55, none => .stos w
  | 0x55, some .f2 => .repStosF2 w
  | 0x55, some .f3 => .repStosF3 w
  | 0x56, none => .lods w
  | 0x56, some .f2 => .repLodsF2 w
  | 0x56, some .f3 => .repLodsF3 w
  | 0x36, none => .ins w
  | 0x36, some .f2 => .repInsF2 w
  | 0x36, some .f3 => .repInsF3 w
  | 0x37, none => .outs w
  | 0x37, some .f2 => .repOutsF2 w
  | 0x37, some .f3 => .repOutsF3 w
  | _, none => .scas w
  | _, some .f2 => .repneScas w
  | _, some .f3 => .repeScas w

/-- F2 or F3: with a string opcode next it is the repeated row, the longer match (R280); else the prefix alone. -/
def repPrefix (r : Rep) (alone : Instr) : Parser Instr := do
  let b ← peekByte
  if isStringOp b then do
    let _ ← nextByte
    pure (stringInstr (some r) b)
  else pure alone

/-- 00 to 3F: the two-operand forms of R360, and what stands at 6, 7, E, F of each row. -/
def decode0to3 (c : Ctx) (op : Byte) : Parser Instr :=
  let ooo := opMid op
  match (opLow op).toNat with
  | 4 => do
    let imm ← immOf c .byte
    pure (aluAccImm ooo .byte imm)
  | 5 => do
    let imm ← immOf c .full
    pure (aluAccImm ooo .full imm)
  | 6 =>
    match ooo.toNat with
    | 0 => pure .pushEs
    | 1 => pure .pushCs
    | 2 => pure .pushSs
    | 3 => pure .pushDs
    | 4 => pure .segEs
    | 5 => pure .segCs
    | 6 => pure .segSs
    | _ => pure .segDs
  | 7 =>
    match ooo.toNat with
    | 0 => pure .popEs
    | 1 => rejectWith .invalid
    | 2 => pure .popSs
    | 3 => pure .popDs
    | 4 => pure .daa
    | 5 => pure .das
    | 6 => pure .aaa
    | _ => pure .aas
  | _ => regRm c (aluRegRm ooo (opDir op) (opWidth op))

/-- 40 to 5F: INC, DEC, PUSH, POP of a register. -/
def decode4to5 (op : Byte) : Instr :=
  let r := Reg.ofBits (opLow op)
  match (opMid op).toNat with
  | 0 => .incReg r
  | 1 => .decReg r
  | 2 => .pushReg r
  | _ => .popReg r

/-- 60 to 6F. -/
def decode6 (c : Ctx) (op : Byte) : Parser Instr :=
  match op.toNat with
  | 0x60 => pure .pusha
  | 0x61 => pure .popa
  | 0x62 => regMem c .bound
  | 0x63 => regRm c .arpl
  | 0x64 => pure .segFs
  | 0x65 => pure .segGs
  | 0x66 => pure .opsize
  | 0x67 => pure .addrsize
  | 0x68 => do
    let imm ← fullImm c
    pure (.pushImm imm)
  | 0x69 => do
    let (reg, rm) ← modRM c
    let imm ← fullImm c
    pure (.imulImm (Reg.ofBits reg) rm imm)
  | 0x6A => do
    let imm ← byteImm
    pure (.pushImm imm)
  | 0x6B => do
    let (reg, rm) ← modRM c
    let imm ← byteImm
    pure (.imulImm (Reg.ofBits reg) rm imm)
  | _ => pure (stringInstr c.rep op)

/-- 80 to 8F. -/
def decode8 (c : Ctx) (op : Byte) : Parser Instr :=
  match op.toNat with
  | 0x80 | 0x82 => do
    let (ooo, rm) ← modRM c
    let imm ← byteImm
    pure (aluRmImm ooo .byte rm imm)
  | 0x81 => do
    let (ooo, rm) ← modRM c
    let imm ← fullImm c
    pure (aluRmImm ooo .full rm imm)
  | 0x83 => do
    let (ooo, rm) ← modRM c
    let v ← nextByte
    pure (aluRmImm8 ooo rm v)
  | 0x84 | 0x85 => regRm c (.testRmReg (opWidth op))
  | 0x86 | 0x87 => regRm c (.xchgRmReg (opWidth op))
  | 0x88 | 0x89 => regRm c (.movRmReg (opWidth op))
  | 0x8A | 0x8B => regRm c (.movRegRm (opWidth op))
  | 0x8C => do
    let (reg, rm) ← modRM c
    match SReg.ofBits reg with
    | some sr => pure (.movRmSreg sr rm)
    | none => rejectWith .invalid
  | 0x8D => regMem c .lea
  | 0x8E => do
    let (reg, rm) ← modRM c
    match SReg.ofBits reg with
    | some .cs => rejectWith .invalid
    | some sr => pure (.movSregRm sr rm)
    | none => rejectWith .invalid
  | _ => do
    let (_, rm) ← extRM c (fun ttt => ttt == 0)
    pure (.popRm rm)

/-- 90 to 9F. -/
def decode9 (c : Ctx) (op : Byte) : Parser Instr :=
  match op.toNat with
  | 0x90 => pure .nop
  | 0x98 => pure .cbw
  | 0x99 => pure .cwd
  | 0x9A => farPtr c .callPtr
  | 0x9B => pure .wait
  | 0x9C => pure .pushf
  | 0x9D => pure .popf
  | 0x9E => pure .sahf
  | 0x9F => pure .lahf
  | _ => pure (.xchgAccReg (Reg.ofBits (opLow op)))

/-- A0 to AF. -/
def decodeA (c : Ctx) (op : Byte) : Parser Instr :=
  match op.toNat with
  | 0xA0 | 0xA1 => do
    let off ← offOf c.asz32
    pure (.movAccMem (opWidth op) off)
  | 0xA2 | 0xA3 => do
    let off ← offOf c.asz32
    pure (.movMemAcc (opWidth op) off)
  | 0xA8 | 0xA9 => do
    let imm ← immOf c (opWidth op)
    pure (.testAccImm (opWidth op) imm)
  | _ => pure (stringInstr c.rep op)

/-- B0 to BF: MOV immediate to register, w in bit 3 (40_data_transfer.md R303). -/
def decodeB (c : Ctx) (op : Byte) : Parser Instr :=
  let w : Width := if op.getLsbD 3 then .full else .byte
  do
    let imm ← immOf c w
    pure (.movRegImm w (Reg.ofBits (opLow op)) imm)

/-- C0 to CF. -/
def decodeC (c : Ctx) (op : Byte) : Parser Instr :=
  match op.toNat with
  | 0xC0 | 0xC1 => do
    let (ttt, rm) ← modRM c
    let v ← nextByte
    pure (shiftByImm ttt (opWidth op) rm v)
  | 0xC2 => do
    let n ← nextWord
    pure (.retImm n)
  | 0xC3 => pure .ret
  | 0xC4 => regMem c .les
  | 0xC5 => regMem c .lds
  | 0xC6 | 0xC7 => do
    let (_, rm) ← extRM c (fun ttt => ttt == 0)
    let imm ← immOf c (opWidth op)
    pure (.movRmImm (opWidth op) rm imm)
  | 0xC8 => do
    let size ← nextWord
    let level ← nextByte
    pure (.enter size level)
  | 0xC9 => pure .leave
  | 0xCA => do
    let n ← nextWord
    pure (.retfImm n)
  | 0xCB => pure .retf
  | 0xCC => pure .int3
  | 0xCD => do
    let v ← nextByte
    pure (.intN v)
  | 0xCE => pure .into
  | _ => pure .iret

/-- D0 to DF. -/
def decodeD (c : Ctx) (op : Byte) : Parser Instr :=
  match op.toNat with
  | 0xD0 | 0xD1 => do
    let (ttt, rm) ← modRM c
    pure (shiftBy1 ttt (opWidth op) rm)
  | 0xD2 | 0xD3 => do
    let (ttt, rm) ← modRM c
    pure (shiftByCl ttt (opWidth op) rm)
  | 0xD4 => do
    let b ← nextByte
    pure (.aam b)
  | 0xD5 => do
    let b ← nextByte
    pure (.aad b)
  | 0xD6 => rejectWith .invalid
  | 0xD7 => pure .xlat
  | _ => do
    let (lll, rm) ← modRM c
    pure (.esc (opLow op) lll rm)

/-- E0 to EF. -/
def decodeE (c : Ctx) (op : Byte) : Parser Instr :=
  match op.toNat with
  | 0xE0 => do
    let d ← nextByte
    pure (.loopnz d)
  | 0xE1 => do
    let d ← nextByte
    pure (.loopz d)
  | 0xE2 => do
    let d ← nextByte
    pure (.loop d)
  | 0xE3 => do
    let d ← nextByte
    pure (.jcxz d)
  | 0xE4 | 0xE5 => do
    let p ← nextByte
    pure (.inImm (opWidth op) p)
  | 0xE6 | 0xE7 => do
    let p ← nextByte
    pure (.outImm (opWidth op) p)
  | 0xE8 => do
    let off ← offOf c.osz32
    pure (.callRel off)
  | 0xE9 => do
    let off ← offOf c.osz32
    pure (.jmpRel off)
  | 0xEA => farPtr c .jmpPtr
  | 0xEB => do
    let d ← nextByte
    pure (.jmpShort d)
  | 0xEC | 0xED => pure (.inDx (opWidth op))
  | _ => pure (.outDx (opWidth op))

/-- F6 and F7; /1 acts as TEST (R270, log 19). -/
def group3 (c : Ctx) (w : Width) : Parser Instr := do
  let (ttt, rm) ← modRM c
  match ttt.toNat with
  | 2 => pure (.notRm w rm)
  | 3 => pure (.neg w rm)
  | 4 => pure (.mul w rm)
  | 5 => pure (.imulAcc w rm)
  | 6 => pure (.div w rm)
  | 7 => pure (.idiv w rm)
  | _ => do
    let imm ← immOf c w
    pure (.testRmImm w rm imm)

/-- FE and FF. -/
def group45 (c : Ctx) (w : Width) : Parser Instr := do
  let (ttt, rm) ← extRM c (fun ttt => ttt.toNat < 2 || (w == .full && ttt.toNat < 7))
  match ttt.toNat, w with
  | 0, _ => pure (.incRm w rm)
  | 1, _ => pure (.decRm w rm)
  | 2, .full => pure (.callRm rm)
  | 3, .full => memOnly rm .callMem
  | 4, .full => pure (.jmpRm rm)
  | 5, .full => memOnly rm .jmpMem
  | 6, .full => pure (.pushRm rm)
  | _, _ => rejectWith .invalid

/-- F0 to FF. -/
def decodeF (c : Ctx) (op : Byte) : Parser Instr :=
  match op.toNat with
  | 0xF0 => pure .lock
  | 0xF1 => rejectWith .invalid
  | 0xF2 => repPrefix .f2 .repneRep
  | 0xF3 => repPrefix .f3 .repeRep
  | 0xF4 => pure .hlt
  | 0xF5 => pure .cmc
  | 0xF6 | 0xF7 => group3 c (opWidth op)
  | 0xF8 => pure .clc
  | 0xF9 => pure .stc
  | 0xFA => pure .cli
  | 0xFB => pure .sti
  | 0xFC => pure .cld
  | 0xFD => pure .std
  | _ => group45 c (opWidth op)

/-- The one-byte opcodes, by their high four bits. -/
def decodeOneByte (c : Ctx) (op : Byte) : Parser Instr :=
  match op.toNat / 16 with
  | 4 | 5 => pure (decode4to5 op)
  | 6 => decode6 c op
  | 7 => do
    let d ← nextByte
    pure (jccShort (op.extractLsb' 0 4) d)
  | 8 => decode8 c op
  | 9 => decode9 c op
  | 10 => decodeA c op
  | 11 => decodeB c op
  | 12 => decodeC c op
  | 13 => decodeD c op
  | 14 => decodeE c op
  | 15 => decodeF c op
  | _ => decode0to3 c op

/-- 0F 00 (48_protection_control.md R620). -/
def group6 (c : Ctx) : Parser Instr := do
  let (ttt, rm) ← extRM c (fun ttt => ttt.toNat < 6)
  match ttt.toNat with
  | 0 => pure (.sldt rm)
  | 1 => pure (.str rm)
  | 2 => pure (.lldt rm)
  | 3 => pure (.ltr rm)
  | 4 => pure (.verr rm)
  | 5 => pure (.verw rm)
  | _ => rejectWith .invalid

/-- 0F 01 (48_protection_control.md R620). -/
def group7 (c : Ctx) : Parser Instr := do
  let (ttt, rm) ← extRM c (fun ttt => ttt.toNat != 5 && ttt.toNat != 7)
  match ttt.toNat with
  | 0 => memOnly rm .sgdt
  | 1 => memOnly rm .sidt
  | 2 => memOnly rm .lgdt
  | 3 => memOnly rm .lidt
  | 4 => pure (.smsw rm)
  | 6 => pure (.lmsw rm)
  | _ => rejectWith .invalid

/-- 0F BA: bit test with an immediate (44_bit.md R460). -/
def group8 (c : Ctx) : Parser Instr := do
  let (ttt, rm) ← extRM c (fun ttt => 4 ≤ ttt.toNat)
  match ttt.toNat with
  | 4 => do
    let v ← nextByte
    pure (.btImm rm v)
  | 5 => do
    let v ← nextByte
    pure (.btsImm rm v)
  | 6 => do
    let v ← nextByte
    pure (.btrImm rm v)
  | 7 => do
    let v ← nextByte
    pure (.btcImm rm v)
  | _ => rejectWith .invalid

/-- 0F 20 to 0F 26: the eee field (R248); the mod bits are ignored (47_processor_control.md R585); an unlisted number
is refused (U5). -/
def moveSpecial (op : Byte) : Parser Instr := do
  let b ← nextByte
  let r := Reg.ofBits (b.extractLsb' 0 3)
  match op.toNat, (b.extractLsb' 3 3).toNat with
  | 0x20, 0 => pure (.movRegCr0 r)
  | 0x20, 2 => pure (.movRegCr2 r)
  | 0x20, 3 => pure (.movRegCr3 r)
  | 0x21, 0 => pure (.movRegDr0 r)
  | 0x21, 1 => pure (.movRegDr1 r)
  | 0x21, 2 => pure (.movRegDr2 r)
  | 0x21, 3 => pure (.movRegDr3 r)
  | 0x21, 6 => pure (.movRegDr6 r)
  | 0x21, 7 => pure (.movRegDr7 r)
  | 0x22, 0 => pure (.movCr0Reg r)
  | 0x22, 2 => pure (.movCr2Reg r)
  | 0x22, 3 => pure (.movCr3Reg r)
  | 0x23, 0 => pure (.movDr0Reg r)
  | 0x23, 1 => pure (.movDr1Reg r)
  | 0x23, 2 => pure (.movDr2Reg r)
  | 0x23, 3 => pure (.movDr3Reg r)
  | 0x23, 6 => pure (.movDr6Reg r)
  | 0x23, 7 => pure (.movDr7Reg r)
  | 0x24, 6 => pure (.movRegTr6 r)
  | 0x24, 7 => pure (.movRegTr7 r)
  | 0x26, 6 => pure (.movTr6Reg r)
  | 0x26, 7 => pure (.movTr7Reg r)
  | _, _ => rejectWith .undefinedEncoding

/-- A r/m, register form with a byte count or bit number after it. -/
def regRmByte (c : Ctx) (k : Reg → RM → Byte → Instr) : Parser Instr := do
  let (reg, rm) ← modRM c
  let v ← nextByte
  pure (k (Reg.ofBits reg) rm v)

/-- The opcodes after 0F outside the rows 8 and 9 (R273). -/
def decodeTwoByteRest (c : Ctx) (op : Byte) : Parser Instr :=
  match op.toNat with
  | 0x00 => group6 c
  | 0x01 => group7 c
  | 0x02 => regRm c .lar
  | 0x03 => regRm c .lsl
  | 0x06 => pure .clts
  | 0x20 | 0x21 | 0x22 | 0x23 | 0x24 | 0x26 => moveSpecial op
  | 0xA0 => pure .pushFs
  | 0xA1 => pure .popFs
  | 0xA3 => regRm c .btReg
  | 0xA4 => regRmByte c .shldImm
  | 0xA5 => regRm c .shldCl
  | 0xA6 => regRm c .xbts
  | 0xA7 => regRm c .ibts
  | 0xA8 => pure .pushGs
  | 0xA9 => pure .popGs
  | 0xAB => regRm c .btsReg
  | 0xAC => regRmByte c .shrdImm
  | 0xAD => regRm c .shrdCl
  | 0xAF => regRm c .imulReg
  | 0xB2 => regMem c .lss
  | 0xB3 => regRm c .btrReg
  | 0xB4 => regMem c .lfs
  | 0xB5 => regMem c .lgs
  | 0xB6 | 0xB7 => regRm c (.movzx (opWidth op))
  | 0xBA => group8 c
  | 0xBB => regRm c .btcReg
  | 0xBC => regRm c .bsf
  | 0xBD => regRm c .bsr
  | 0xBE | 0xBF => regRm c (.movsx (opWidth op))
  | _ => rejectWith .invalid

/-- SETcc: the reg bits of the mod r/m byte are ignored (45_control_transfer.md R534, log 19). -/
def decodeSetcc (c : Ctx) (op : Byte) : Parser Instr := do
  let (_, rm) ← modRM c
  pure (setcc (op.extractLsb' 0 4) rm)

/-- The byte after 0F (R223, R273). -/
def decodeTwoByte (c : Ctx) : Parser Instr := do
  let op ← nextByte
  match op.toNat / 16 with
  | 8 => do
    let off ← offOf c.osz32
    pure (jccNear (op.extractLsb' 0 4) off)
  | 9 => decodeSetcc c op
  | _ => decodeTwoByteRest c op

/-- One row of opcode_table.json at the head of the bytes: a prefix byte, or an opcode with its operands (R275). -/
def decodeInstr (c : Ctx) : Parser Instr := do
  let op ← nextByte
  if op = 0x0F then decodeTwoByte c else decodeOneByte c op

/-- The decoder: the instruction at the head of `bytes` and the number of bytes it takes. -/
def decode (c : Ctx) (bytes : List Byte) : Decoded :=
  match decodeInstr c bytes with
  | .ok i rest => .instr i (bytes.length - rest.length)
  | .error e _ => .reject e

/-- The first `n` bytes of a number, the least significant first: the words of opcode_table.json as memory holds them. -/
def bytesOf : Nat → Nat → List Byte
  | 0, _ => []
  | n + 1, w => BitVec.ofNat 8 w :: bytesOf n (w / 256)

/-- The longest instruction (R222). -/
def maxLength : Nat := 15

/-- The instruction the decoder reads, after reset, from the bytes of `w` (its low `nbits` bits, then zeros). -/
def decodeTableWord (nbits w : Nat) : Option Instr :=
  match decode Ctx.reset (bytesOf maxLength (w % 2 ^ nbits)) with
  | .instr i _ => some i
  | .reject _ => none

/-! The encoder. -/

def Width.bit : Width → Byte
  | .byte => 0
  | .full => 1

def Dir.bit : Dir → Byte
  | .toRm => 0
  | .toReg => 2

/-- The s bit of a form with an s field (R246): 1 for a byte that is to be sign-extended. -/
def Imm.sBit (w : Width) : Imm → Byte
  | .i8 _ => match w with
    | .byte => 0
    | .full => 2
  | _ => 0

/-- A register number in bits 2:0 of an opcode byte. -/
def Reg.low (r : Reg) : Byte := r.toBits.zeroExtend 8

def encodeWord (v : Word) : List Byte := [v.extractLsb' 0 8, v.extractLsb' 8 8]

def encodeDword (v : Dword) : List Byte :=
  [v.extractLsb' 0 8, v.extractLsb' 8 8, v.extractLsb' 16 8, v.extractLsb' 24 8]

def Imm.encode : Imm → List Byte
  | .i8 v => [v]
  | .i16 v => encodeWord v
  | .i32 v => encodeDword v

def Off.encode : Off → List Byte
  | .o16 v => encodeWord v
  | .o32 v => encodeDword v

def Disp16.md : Disp16 → BitVec 2
  | .none => 0
  | .d8 _ => 1
  | .d16 _ => 2

def Disp16.encode : Disp16 → List Byte
  | .none => []
  | .d8 v => [v]
  | .d16 v => encodeWord v

def Disp32.md : Disp32 → BitVec 2
  | .none => 0
  | .d8 _ => 1
  | .d32 _ => 2

def Disp32.encode : Disp32 → List Byte
  | .none => []
  | .d8 v => [v]
  | .d32 v => encodeDword v

/-- Three fields of a mod r/m byte or of an s-i-b byte, the first in bits 7:6 (R220). -/
def fieldsByte (a : BitVec 2) (b c : BitVec 3) : Byte := a ++ (b ++ c : BitVec 6)

def MemOp.encode (reg : BitVec 3) : MemOp → List Byte
  | .a16 base disp => fieldsByte disp.md reg base.toBits :: disp.encode
  | .abs16 d => fieldsByte 0 reg 6 :: encodeWord d
  | .a32 base disp => fieldsByte disp.md reg base.toBits :: disp.encode
  | .abs32 d => fieldsByte 0 reg 5 :: encodeDword d
  | .sib base scale index disp =>
    fieldsByte disp.md reg 4 :: fieldsByte scale.toBits (indexToBits index) base.toBits :: disp.encode
  | .sibAbs scale index d => fieldsByte 0 reg 4 :: fieldsByte scale.toBits (indexToBits index) 5 :: encodeDword d

def RM.encode (reg : BitVec 3) : RM → List Byte
  | .reg r => [fieldsByte 3 reg r.toBits]
  | .mem m => m.encode reg

/-- The bytes of a well-formed instruction, from the encodings of opcode_table.json. -/
def encode : Instr → List Byte
  | .addrsize => [0x67]
  | .lock => [0xF0]
  | .opsize => [0x66]
  | .segCs => [0x2E]
  | .segDs => [0x3E]
  | .segEs => [0x26]
  | .segFs => [0x64]
  | .segGs => [0x65]
  | .segSs => [0x36]
  | .repneRep => [0xF2]
  | .repeRep => [0xF3]
  | .movRmReg w reg rm => (0x88 ||| w.bit) :: rm.encode reg.toBits
  | .movRegRm w reg rm => (0x8A ||| w.bit) :: rm.encode reg.toBits
  | .movRmImm w rm imm => (0xC6 ||| w.bit) :: (rm.encode 0 ++ imm.encode)
  | .movRegImm w reg imm => (0xB0 ||| (w.bit <<< 3) ||| reg.low) :: imm.encode
  | .movAccMem w off => (0xA0 ||| w.bit) :: off.encode
  | .movMemAcc w off => (0xA2 ||| w.bit) :: off.encode
  | .movSregRm sr rm => 0x8E :: rm.encode sr.toBits
  | .movRmSreg sr rm => 0x8C :: rm.encode sr.toBits
  | .movsx w reg rm => 0x0F :: (0xBE ||| w.bit) :: rm.encode reg.toBits
  | .movzx w reg rm => 0x0F :: (0xB6 ||| w.bit) :: rm.encode reg.toBits
  | .pushRm rm => 0xFF :: rm.encode 6
  | .pushReg reg => [(0x50 ||| reg.low)]
  | .pushImm imm => (0x68 ||| imm.sBit .full) :: imm.encode
  | .pushEs => [0x06]
  | .pushCs => [0x0E]
  | .pushSs => [0x16]
  | .pushDs => [0x1E]
  | .pushFs => [0x0F, 0xA0]
  | .pushGs => [0x0F, 0xA8]
  | .pusha => [0x60]
  | .popRm rm => 0x8F :: rm.encode 0
  | .popReg reg => [(0x58 ||| reg.low)]
  | .popEs => [0x07]
  | .popSs => [0x17]
  | .popDs => [0x1F]
  | .popFs => [0x0F, 0xA1]
  | .popGs => [0x0F, 0xA9]
  | .popa => [0x61]
  | .xchgRmReg w reg rm => (0x86 ||| w.bit) :: rm.encode reg.toBits
  | .xchgAccReg reg => [(0x90 ||| reg.low)]
  | .inImm w port => (0xE4 ||| w.bit) :: [port]
  | .inDx w => [(0xEC ||| w.bit)]
  | .outImm w port => (0xE6 ||| w.bit) :: [port]
  | .outDx w => [(0xEE ||| w.bit)]
  | .lea reg m => 0x8D :: m.encode reg.toBits
  | .lds reg m => 0xC5 :: m.encode reg.toBits
  | .les reg m => 0xC4 :: m.encode reg.toBits
  | .lfs reg m => 0x0F :: 0xB4 :: m.encode reg.toBits
  | .lgs reg m => 0x0F :: 0xB5 :: m.encode reg.toBits
  | .lss reg m => 0x0F :: 0xB2 :: m.encode reg.toBits
  | .clc => [0xF8]
  | .cld => [0xFC]
  | .cli => [0xFA]
  | .cmc => [0xF5]
  | .lahf => [0x9F]
  | .popf => [0x9D]
  | .pushf => [0x9C]
  | .sahf => [0x9E]
  | .stc => [0xF9]
  | .std => [0xFD]
  | .sti => [0xFB]
  | .clts => [0x0F, 0x06]
  | .addRegRm d w reg rm => (0x00 ||| d.bit ||| w.bit) :: rm.encode reg.toBits
  | .addRmImm w rm imm => (0x80 ||| imm.sBit w ||| w.bit) :: (rm.encode 0 ++ imm.encode)
  | .addAccImm w imm => (0x04 ||| w.bit) :: imm.encode
  | .adcRegRm d w reg rm => (0x10 ||| d.bit ||| w.bit) :: rm.encode reg.toBits
  | .adcRmImm w rm imm => (0x80 ||| imm.sBit w ||| w.bit) :: (rm.encode 2 ++ imm.encode)
  | .adcAccImm w imm => (0x14 ||| w.bit) :: imm.encode
  | .incRm w rm => (0xFE ||| w.bit) :: rm.encode 0
  | .incReg reg => [(0x40 ||| reg.low)]
  | .subRegRm d w reg rm => (0x28 ||| d.bit ||| w.bit) :: rm.encode reg.toBits
  | .subRmImm w rm imm => (0x80 ||| imm.sBit w ||| w.bit) :: (rm.encode 5 ++ imm.encode)
  | .subAccImm w imm => (0x2C ||| w.bit) :: imm.encode
  | .sbbRegRm d w reg rm => (0x18 ||| d.bit ||| w.bit) :: rm.encode reg.toBits
  | .sbbRmImm w rm imm => (0x80 ||| imm.sBit w ||| w.bit) :: (rm.encode 3 ++ imm.encode)
  | .sbbAccImm w imm => (0x1C ||| w.bit) :: imm.encode
  | .decRm w rm => (0xFE ||| w.bit) :: rm.encode 1
  | .decReg reg => [(0x48 ||| reg.low)]
  | .cmpRegRm d w reg rm => (0x38 ||| d.bit ||| w.bit) :: rm.encode reg.toBits
  | .cmpRmImm w rm imm => (0x80 ||| imm.sBit w ||| w.bit) :: (rm.encode 7 ++ imm.encode)
  | .cmpAccImm w imm => (0x3C ||| w.bit) :: imm.encode
  | .neg w rm => (0xF6 ||| w.bit) :: rm.encode 3
  | .aaa => [0x37]
  | .aas => [0x3F]
  | .daa => [0x27]
  | .das => [0x2F]
  | .mul w rm => (0xF6 ||| w.bit) :: rm.encode 4
  | .imulAcc w rm => (0xF6 ||| w.bit) :: rm.encode 5
  | .imulReg reg rm => 0x0F :: 0xAF :: rm.encode reg.toBits
  | .imulImm reg rm imm => (0x69 ||| imm.sBit .full) :: (rm.encode reg.toBits ++ imm.encode)
  | .div w rm => (0xF6 ||| w.bit) :: rm.encode 6
  | .idiv w rm => (0xF6 ||| w.bit) :: rm.encode 7
  | .aad base => [0xD5, base]
  | .aam base => [0xD4, base]
  | .cbw => [0x98]
  | .cwd => [0x99]
  | .rolBy1 w rm => (0xD0 ||| w.bit) :: rm.encode 0
  | .rolByCl w rm => (0xD2 ||| w.bit) :: rm.encode 0
  | .rolByImm w rm count => (0xC0 ||| w.bit) :: (rm.encode 0 ++ [count])
  | .rorBy1 w rm => (0xD0 ||| w.bit) :: rm.encode 1
  | .rorByCl w rm => (0xD2 ||| w.bit) :: rm.encode 1
  | .rorByImm w rm count => (0xC0 ||| w.bit) :: (rm.encode 1 ++ [count])
  | .rclBy1 w rm => (0xD0 ||| w.bit) :: rm.encode 2
  | .rclByCl w rm => (0xD2 ||| w.bit) :: rm.encode 2
  | .rclByImm w rm count => (0xC0 ||| w.bit) :: (rm.encode 2 ++ [count])
  | .rcrBy1 w rm => (0xD0 ||| w.bit) :: rm.encode 3
  | .rcrByCl w rm => (0xD2 ||| w.bit) :: rm.encode 3
  | .rcrByImm w rm count => (0xC0 ||| w.bit) :: (rm.encode 3 ++ [count])
  | .shlBy1 w rm => (0xD0 ||| w.bit) :: rm.encode 4
  | .shlByCl w rm => (0xD2 ||| w.bit) :: rm.encode 4
  | .shlByImm w rm count => (0xC0 ||| w.bit) :: (rm.encode 4 ++ [count])
  | .shrBy1 w rm => (0xD0 ||| w.bit) :: rm.encode 5
  | .shrByCl w rm => (0xD2 ||| w.bit) :: rm.encode 5
  | .shrByImm w rm count => (0xC0 ||| w.bit) :: (rm.encode 5 ++ [count])
  | .sarBy1 w rm => (0xD0 ||| w.bit) :: rm.encode 7
  | .sarByCl w rm => (0xD2 ||| w.bit) :: rm.encode 7
  | .sarByImm w rm count => (0xC0 ||| w.bit) :: (rm.encode 7 ++ [count])
  | .shldImm reg rm count => 0x0F :: 0xA4 :: (rm.encode reg.toBits ++ [count])
  | .shldCl reg rm => 0x0F :: 0xA5 :: rm.encode reg.toBits
  | .shrdImm reg rm count => 0x0F :: 0xAC :: (rm.encode reg.toBits ++ [count])
  | .shrdCl reg rm => 0x0F :: 0xAD :: rm.encode reg.toBits
  | .andRegRm d w reg rm => (0x20 ||| d.bit ||| w.bit) :: rm.encode reg.toBits
  | .andRmImm w rm imm => (0x80 ||| w.bit) :: (rm.encode 4 ++ imm.encode)
  | .andRmImm8 rm imm8 => 0x83 :: (rm.encode 4 ++ [imm8])
  | .andAccImm w imm => (0x24 ||| w.bit) :: imm.encode
  | .testRmReg w reg rm => (0x84 ||| w.bit) :: rm.encode reg.toBits
  | .testRmImm w rm imm => (0xF6 ||| w.bit) :: (rm.encode 0 ++ imm.encode)
  | .testAccImm w imm => (0xA8 ||| w.bit) :: imm.encode
  | .orRegRm d w reg rm => (0x08 ||| d.bit ||| w.bit) :: rm.encode reg.toBits
  | .orRmImm w rm imm => (0x80 ||| w.bit) :: (rm.encode 1 ++ imm.encode)
  | .orRmImm8 rm imm8 => 0x83 :: (rm.encode 1 ++ [imm8])
  | .orAccImm w imm => (0x0C ||| w.bit) :: imm.encode
  | .xorRegRm d w reg rm => (0x30 ||| d.bit ||| w.bit) :: rm.encode reg.toBits
  | .xorRmImm w rm imm => (0x80 ||| w.bit) :: (rm.encode 6 ++ imm.encode)
  | .xorRmImm8 rm imm8 => 0x83 :: (rm.encode 6 ++ [imm8])
  | .xorAccImm w imm => (0x34 ||| w.bit) :: imm.encode
  | .notRm w rm => (0xF6 ||| w.bit) :: rm.encode 2
  | .cmps w => [(0xA6 ||| w.bit)]
  | .ins w => [(0x6C ||| w.bit)]
  | .lods w => [(0xAC ||| w.bit)]
  | .movs w => [(0xA4 ||| w.bit)]
  | .outs w => [(0x6E ||| w.bit)]
  | .scas w => [(0xAE ||| w.bit)]
  | .stos w => [(0xAA ||| w.bit)]
  | .xlat => [0xD7]
  | .repeCmps w => [0xF3, (0xA6 ||| w.bit)]
  | .repneCmps w => [0xF2, (0xA6 ||| w.bit)]
  | .repeScas w => [0xF3, (0xAE ||| w.bit)]
  | .repneScas w => [0xF2, (0xAE ||| w.bit)]
  | .repInsF2 w => [0xF2, (0x6C ||| w.bit)]
  | .repInsF3 w => [0xF3, (0x6C ||| w.bit)]
  | .repLodsF2 w => [0xF2, (0xAC ||| w.bit)]
  | .repLodsF3 w => [0xF3, (0xAC ||| w.bit)]
  | .repMovsF2 w => [0xF2, (0xA4 ||| w.bit)]
  | .repMovsF3 w => [0xF3, (0xA4 ||| w.bit)]
  | .repOutsF2 w => [0xF2, (0x6E ||| w.bit)]
  | .repOutsF3 w => [0xF3, (0x6E ||| w.bit)]
  | .repStosF2 w => [0xF2, (0xAA ||| w.bit)]
  | .repStosF3 w => [0xF3, (0xAA ||| w.bit)]
  | .bsf reg rm => 0x0F :: 0xBC :: rm.encode reg.toBits
  | .bsr reg rm => 0x0F :: 0xBD :: rm.encode reg.toBits
  | .btImm rm bit => 0x0F :: 0xBA :: (rm.encode 4 ++ [bit])
  | .btReg reg rm => 0x0F :: 0xA3 :: rm.encode reg.toBits
  | .btcImm rm bit => 0x0F :: 0xBA :: (rm.encode 7 ++ [bit])
  | .btcReg reg rm => 0x0F :: 0xBB :: rm.encode reg.toBits
  | .btrImm rm bit => 0x0F :: 0xBA :: (rm.encode 6 ++ [bit])
  | .btrReg reg rm => 0x0F :: 0xB3 :: rm.encode reg.toBits
  | .btsImm rm bit => 0x0F :: 0xBA :: (rm.encode 5 ++ [bit])
  | .btsReg reg rm => 0x0F :: 0xAB :: rm.encode reg.toBits
  | .ibts reg rm => 0x0F :: 0xA7 :: rm.encode reg.toBits
  | .xbts reg rm => 0x0F :: 0xA6 :: rm.encode reg.toBits
  | .callRel off => 0xE8 :: off.encode
  | .callRm rm => 0xFF :: rm.encode 2
  | .callPtr off sel => 0x9A :: (off.encode ++ encodeWord sel)
  | .callMem m => 0xFF :: m.encode 3
  | .jmpShort disp => 0xEB :: [disp]
  | .jmpRel off => 0xE9 :: off.encode
  | .jmpRm rm => 0xFF :: rm.encode 4
  | .jmpPtr off sel => 0xEA :: (off.encode ++ encodeWord sel)
  | .jmpMem m => 0xFF :: m.encode 5
  | .ret => [0xC3]
  | .retImm n => 0xC2 :: encodeWord n
  | .retf => [0xCB]
  | .retfImm n => 0xCA :: encodeWord n
  | .joShort disp => 0x70 :: [disp]
  | .joNear off => 0x0F :: 0x80 :: off.encode
  | .jnoShort disp => 0x71 :: [disp]
  | .jnoNear off => 0x0F :: 0x81 :: off.encode
  | .jbShort disp => 0x72 :: [disp]
  | .jbNear off => 0x0F :: 0x82 :: off.encode
  | .jnbShort disp => 0x73 :: [disp]
  | .jnbNear off => 0x0F :: 0x83 :: off.encode
  | .jeShort disp => 0x74 :: [disp]
  | .jeNear off => 0x0F :: 0x84 :: off.encode
  | .jneShort disp => 0x75 :: [disp]
  | .jneNear off => 0x0F :: 0x85 :: off.encode
  | .jbeShort disp => 0x76 :: [disp]
  | .jbeNear off => 0x0F :: 0x86 :: off.encode
  | .jnbeShort disp => 0x77 :: [disp]
  | .jnbeNear off => 0x0F :: 0x87 :: off.encode
  | .jsShort disp => 0x78 :: [disp]
  | .jsNear off => 0x0F :: 0x88 :: off.encode
  | .jnsShort disp => 0x79 :: [disp]
  | .jnsNear off => 0x0F :: 0x89 :: off.encode
  | .jpShort disp => 0x7A :: [disp]
  | .jpNear off => 0x0F :: 0x8A :: off.encode
  | .jnpShort disp => 0x7B :: [disp]
  | .jnpNear off => 0x0F :: 0x8B :: off.encode
  | .jlShort disp => 0x7C :: [disp]
  | .jlNear off => 0x0F :: 0x8C :: off.encode
  | .jnlShort disp => 0x7D :: [disp]
  | .jnlNear off => 0x0F :: 0x8D :: off.encode
  | .jleShort disp => 0x7E :: [disp]
  | .jleNear off => 0x0F :: 0x8E :: off.encode
  | .jnleShort disp => 0x7F :: [disp]
  | .jnleNear off => 0x0F :: 0x8F :: off.encode
  | .jcxz disp => 0xE3 :: [disp]
  | .loop disp => 0xE2 :: [disp]
  | .loopz disp => 0xE1 :: [disp]
  | .loopnz disp => 0xE0 :: [disp]
  | .seto rm => 0x0F :: 0x90 :: rm.encode 0
  | .setno rm => 0x0F :: 0x91 :: rm.encode 0
  | .setb rm => 0x0F :: 0x92 :: rm.encode 0
  | .setnb rm => 0x0F :: 0x93 :: rm.encode 0
  | .sete rm => 0x0F :: 0x94 :: rm.encode 0
  | .setne rm => 0x0F :: 0x95 :: rm.encode 0
  | .setbe rm => 0x0F :: 0x96 :: rm.encode 0
  | .setnbe rm => 0x0F :: 0x97 :: rm.encode 0
  | .sets rm => 0x0F :: 0x98 :: rm.encode 0
  | .setns rm => 0x0F :: 0x99 :: rm.encode 0
  | .setp rm => 0x0F :: 0x9A :: rm.encode 0
  | .setnp rm => 0x0F :: 0x9B :: rm.encode 0
  | .setl rm => 0x0F :: 0x9C :: rm.encode 0
  | .setnl rm => 0x0F :: 0x9D :: rm.encode 0
  | .setle rm => 0x0F :: 0x9E :: rm.encode 0
  | .setnle rm => 0x0F :: 0x9F :: rm.encode 0
  | .enter size level => 0xC8 :: (encodeWord size ++ [level])
  | .leave => [0xC9]
  | .intN v => 0xCD :: [v]
  | .int3 => [0xCC]
  | .into => [0xCE]
  | .bound reg m => 0x62 :: m.encode reg.toBits
  | .iret => [0xCF]
  | .hlt => [0xF4]
  | .movCr0Reg reg => [0x0F, 0x22, (0xC0 ||| reg.low)]
  | .movCr2Reg reg => [0x0F, 0x22, (0xD0 ||| reg.low)]
  | .movCr3Reg reg => [0x0F, 0x22, (0xD8 ||| reg.low)]
  | .movRegCr0 reg => [0x0F, 0x20, (0xC0 ||| reg.low)]
  | .movRegCr2 reg => [0x0F, 0x20, (0xD0 ||| reg.low)]
  | .movRegCr3 reg => [0x0F, 0x20, (0xD8 ||| reg.low)]
  | .movDr0Reg reg => [0x0F, 0x23, (0xC0 ||| reg.low)]
  | .movDr1Reg reg => [0x0F, 0x23, (0xC8 ||| reg.low)]
  | .movDr2Reg reg => [0x0F, 0x23, (0xD0 ||| reg.low)]
  | .movDr3Reg reg => [0x0F, 0x23, (0xD8 ||| reg.low)]
  | .movDr6Reg reg => [0x0F, 0x23, (0xF0 ||| reg.low)]
  | .movDr7Reg reg => [0x0F, 0x23, (0xF8 ||| reg.low)]
  | .movRegDr6 reg => [0x0F, 0x21, (0xF0 ||| reg.low)]
  | .movRegDr7 reg => [0x0F, 0x21, (0xF8 ||| reg.low)]
  | .movRegDr0 reg => [0x0F, 0x21, (0xC0 ||| reg.low)]
  | .movRegDr1 reg => [0x0F, 0x21, (0xC8 ||| reg.low)]
  | .movRegDr2 reg => [0x0F, 0x21, (0xD0 ||| reg.low)]
  | .movRegDr3 reg => [0x0F, 0x21, (0xD8 ||| reg.low)]
  | .movTr6Reg reg => [0x0F, 0x26, (0xF0 ||| reg.low)]
  | .movTr7Reg reg => [0x0F, 0x26, (0xF8 ||| reg.low)]
  | .movRegTr6 reg => [0x0F, 0x24, (0xF0 ||| reg.low)]
  | .movRegTr7 reg => [0x0F, 0x24, (0xF8 ||| reg.low)]
  | .nop => [0x90]
  | .wait => [0x9B]
  | .esc ttt lll rm => (0xD8 ||| ttt.zeroExtend 8) :: rm.encode lll
  | .arpl reg rm => 0x63 :: rm.encode reg.toBits
  | .lar reg rm => 0x0F :: 0x02 :: rm.encode reg.toBits
  | .lgdt m => 0x0F :: 0x01 :: m.encode 2
  | .lidt m => 0x0F :: 0x01 :: m.encode 3
  | .lldt rm => 0x0F :: 0x00 :: rm.encode 2
  | .lmsw rm => 0x0F :: 0x01 :: rm.encode 6
  | .lsl reg rm => 0x0F :: 0x03 :: rm.encode reg.toBits
  | .ltr rm => 0x0F :: 0x00 :: rm.encode 3
  | .sgdt m => 0x0F :: 0x01 :: m.encode 0
  | .sidt m => 0x0F :: 0x01 :: m.encode 1
  | .sldt rm => 0x0F :: 0x00 :: rm.encode 0
  | .smsw rm => 0x0F :: 0x01 :: rm.encode 4
  | .str rm => 0x0F :: 0x00 :: rm.encode 1
  | .verr rm => 0x0F :: 0x00 :: rm.encode 4
  | .verw rm => 0x0F :: 0x00 :: rm.encode 5

end Sys2Proof
end

