-- ==== Sys2Proof/Config.lean ====
section
/-! DEFINITION. What one implementation and its board fix (00_scope.md R7, 92_eei_decisions.md section 2), and the
free values (93_implementation_defined.md: UNDEF). -/

namespace Sys2Proof.Config

/-- DESIGN CHOICE (log 2). `UNDEF(n)` of 00_scope.md R11: the k-th value the spec calls undefined. It has no body, so
nothing can be proved of it. A step reads it at the counter `State.draws` and advances the counter, so each use is a
fresh value; a narrower undefined value is the low bits of one. Safe: every claim holds whatever the values are. -/
opaque freeDword : Nat → Dword

/-- Which coprocessor ERROR# shows at reset (70_reset_and_hazards.md R755). -/
inductive Coprocessor
  | none
  | i80287
  | i80387
deriving DecidableEq, Repr

/-- Which size attribute selects CX or ECX in JCXZ (D16, 90_conflicts.md C16). -/
inductive SizeAttr
  | address
  | operand
deriving DecidableEq, Repr

/-- The number GATE_TYPE_INTERRUPT (D12, 90_conflicts.md C10): the 386 trap gate has the other of 14 and 15. -/
inductive GateTypeInterrupt
  | t14
  | t15
deriving DecidableEq, Repr

/-- The kinds of bus cycle of Table 5-2 (20_memory.md R144). -/
inductive CycleKind
  | interruptAcknowledge
  | ioDataRead
  | ioDataWrite
  | memoryCodeRead
  | halt
  | shutdown
  | memoryDataRead
  | memoryDataWrite
deriving DecidableEq, Repr

/-- The addresses from `first` to `last`. -/
structure AddressRange where
  first : Nat
  last : Nat
deriving DecidableEq, Repr

def AddressRange.has (r : AddressRange) (a : Nat) : Bool := decide (r.first ≤ a) && decide (a ≤ r.last)

/-- Addresses at which the platform asserts BS16# in cycles of one kind (20_memory.md R147). -/
structure SixteenBitRange where
  cycle : CycleKind
  range : AddressRange
deriving DecidableEq, Repr

/-- What answers at a physical address that is not RAM (93_implementation_defined.md section 2). -/
inductive Responder
  /-- Read-only memory: a write changes nothing. -/
  | rom
  /-- A memory-mapped device. -/
  | device
  /-- Nothing: READY# never comes (20_memory.md R145). -/
  | absent
deriving DecidableEq, Repr

/-- A region of the physical address space. -/
structure MemoryRegion where
  range : AddressRange
  responder : Responder
deriving DecidableEq, Repr

/-- The parameters of 00_scope.md R7 that a program can tell apart. State carries one, no step changes it (log 11). -/
structure Params where
  /-- REVISION_ID, the value of DL after reset (R757). -/
  revisionId : Byte
  /-- SELFTEST_REQUESTED: BUSY# low at the falling edge of RESET (R754). -/
  selftestRequested : Bool
  /-- COPROCESSOR (R755). -/
  coprocessor : Coprocessor
  /-- BS16(addr, cycle), as the ranges in which it holds (log 11). -/
  bs16 : List SixteenBitRange
  /-- MEMORY_MAP of physical addresses: the first region that has an address says what answers there, and an address in no
  region is RAM (log 4). -/
  memoryMap : List MemoryRegion
  /-- MEMORY_MAP of I/O addresses: the ports where nothing answers (log 4). -/
  absentPorts : List AddressRange
  /-- PREFETCH_WINDOW in bytes (D4). -/
  prefetchWindow : Nat
  /-- GATE_TYPE_INTERRUPT (D12). -/
  gateTypeInterrupt : GateTypeInterrupt
  /-- SMSW_PRIVILEGED (D15). -/
  smswPrivileged : Bool
  /-- JCXZ_SIZE_ATTR (D16). -/
  jcxzSizeAttr : SizeAttr
  /-- HAS_IBTS_XBTS (D8). -/
  hasIbtsXbts : Bool
deriving DecidableEq, Repr

/-- The defaults of 92_eei_decisions.md section 2. REVISION_ID is "unspecified constant" there: DESIGN CHOICE 0 (log 11). -/
def Params.default : Params :=
  { revisionId := 0#8
    selftestRequested := false
    coprocessor := .none
    bs16 := []
    memoryMap := []
    absentPorts := []
    prefetchWindow := 32
    gateTypeInterrupt := .t14
    smswPrivileged := false
    jcxzSizeAttr := .address
    hasIbtsXbts := false }

/-- BS16(addr, cycle): BS16# is asserted in a cycle of kind `k` at address `a`. -/
def Params.asserts16 (p : Params) (k : CycleKind) (a : Nat) : Bool := p.bs16.any fun r => r.cycle == k && r.range.has a

/-- What answers at physical address `a`: none is RAM. -/
def Params.responder (p : Params) (a : Nat) : Option Responder :=
  (p.memoryMap.find? fun r => r.range.has a).map fun r => r.responder

/-- Every physical address is memory, some of it perhaps read-only: no device, and nothing absent. -/
def Params.allMemory (p : Params) : Bool := p.memoryMap.all fun r => r.responder == .rom

/-- Nothing answers at port `p`. -/
def Params.portAbsent (p : Params) (port : Nat) : Bool := p.absentPorts.any fun r => r.has port

end Sys2Proof.Config
end

