-- ==== Sys2Proof/Machine/State.lean ====
section
/-! DEFINITION. The state of the 80386 as plain data (10_state.md R85), why a step can stop, and the state after reset
(10_state.md R80, R81; 70_reset_and_hazards.md R760). -/

namespace Sys2Proof.Machine

/-- The eight general registers (10_state.md R30). -/
structure Regs where
  eax : Dword
  ecx : Dword
  edx : Dword
  ebx : Dword
  esp : Dword
  ebp : Dword
  esi : Dword
  edi : Dword
deriving DecidableEq, Repr

/-- EFLAGS (10_state.md R45, R46). Its fixed bits 1, 3, 5, 15 and 31:18 are not stored: `Eflags.word` writes them. -/
structure Eflags where
  /-- CF, bit 0. -/
  cf : Bool
  /-- PF, bit 2. -/
  pf : Bool
  /-- AF, bit 4. -/
  af : Bool
  /-- ZF, bit 6. -/
  zf : Bool
  /-- SF, bit 7. -/
  sf : Bool
  /-- TF, bit 8. -/
  tf : Bool
  /-- IF, bit 9. -/
  ifl : Bool
  /-- DF, bit 10. -/
  df : Bool
  /-- OF, bit 11. -/
  ofl : Bool
  /-- IOPL, bits 13:12. -/
  iopl : BitVec 2
  /-- NT, bit 14. -/
  nt : Bool
  /-- RF, bit 16. -/
  rf : Bool
  /-- VM, bit 17. -/
  vm : Bool
deriving DecidableEq, Repr

/-- A segment register, or LDTR or TR: the visible selector and the hidden descriptor cache (10_state.md R50, R52, R61).
The cache keeps no present bit: only a present descriptor is ever loaded. -/
structure SegReg where
  selector : Word
  base : Dword
  /-- After granularity scaling. -/
  limit : Dword
  /-- False after a null selector is loaded. -/
  valid : Bool
  dpl : BitVec 2
  /-- Type field of the descriptor (20_memory.md R195). -/
  type : BitVec 4
  /-- The D or B bit. -/
  db : Bool
deriving DecidableEq, Repr

/-- The defined bits of CR0 (10_state.md R56). -/
structure Cr0 where
  pe : Bool
  mp : Bool
  em : Bool
  ts : Bool
  et : Bool
  pg : Bool
deriving DecidableEq, Repr

/-- GDTR or IDTR (10_state.md R61). -/
structure TableReg where
  base : Dword
  limit : Word
deriving DecidableEq, Repr

/-- A translation the TLB holds (10_state.md R72): page and frame numbers and the combined rights. -/
structure TlbEntry where
  page : BitVec 20
  frame : BitVec 20
  user : Bool
  writable : Bool
  dirty : Bool
deriving DecidableEq, Repr

/-- The interrupt inhibit of 10_state.md R74. -/
inductive Shadow
  | none
  /-- After STI: INTR only. -/
  | sti
  /-- After MOV SS or POP SS: INTR, NMI and debug traps. -/
  | ss
deriving DecidableEq, Repr

/-- run_state (10_state.md R75). -/
inductive RunState
  | running
  | halted
  | shutdown
deriving DecidableEq, Repr

/-- The input pins a program can tell (20_memory.md R140), sampled once at each boundary (D5). Only the environment
changes them. The NMI pin is its edge latch `State.nmiPending`. -/
structure Pins where
  intr : Bool
  /-- What `IntAck()` returns (60_exceptions.md R662). -/
  intVector : Byte
  reset : Bool
  busy : Bool
  error : Bool
  /-- The coprocessor asks for operand transfers: those of `State.copRequest`. -/
  pereq : Bool
  /-- Another bus master asks for the bus. -/
  hold : Bool
deriving DecidableEq, Repr

/-- A bus cycle that a device can see (20_memory.md R104, R106, R108, R122). -/
inductive BusCycle
  /-- An I/O read of `n` bytes from port `port`. -/
  | ioRead (port n : Nat)
  /-- An I/O write of bytes at `port` and up. -/
  | ioWrite (port : Nat) (bytes : List Byte)
  /-- An interrupt acknowledge cycle with its byte address (R146). -/
  | intAck (address : Nat)
  /-- The halt indication cycle, byte address 2. -/
  | halt
  /-- The shutdown indication cycle, byte address 0. -/
  | shutdown
  /-- The write of a coprocessor opcode to port 800000F8H, a 32-bit port if `wide` (R106). -/
  | coprocessorOpcode (opcode : Word) (wide : Bool)
  /-- The read of `n` bytes from the coprocessor's operand port 800000FCH (R107). -/
  | coprocessorRead (n : Nat)
  /-- The write of bytes to port 800000FCH. -/
  | coprocessorWrite (bytes : List Byte)
  /-- A memory code read of `n` bytes from a memory-mapped device, at physical address `address`. -/
  | codeRead (address n : Nat)
  /-- A memory data read of `n` bytes from a memory-mapped device, at physical address `address`. -/
  | memoryRead (address n : Nat)
  /-- A memory data write of bytes to a memory-mapped device, at `address` and up. -/
  | memoryWrite (address : Nat) (bytes : List Byte)
deriving DecidableEq, Repr

/-- A memory cycle at a memory-mapped device, in its place among the cycles of `State.bus`. -/
structure DeviceCycle where
  /-- How many cycles of `State.bus` ran before it. -/
  after : Nat
  cycle : BusCycle
deriving DecidableEq, Repr

/-- What the coprocessor asks for while PEREQ is asserted (20_memory.md R107; log 24): how many bytes of the operand so
far, counted from its first byte, which way, and the bytes it gives. Only its own data sheet says which opcode asks for
what, so the environment sets it. -/
structure CopRequest where
  /-- From the coprocessor to memory. -/
  toMemory : Bool
  count : Nat
  /-- What its operand port answers, the first byte first; a byte not listed is a free value. -/
  data : List Byte
deriving DecidableEq, Repr

def CopRequest.none : CopRequest := { toMemory := false, count := 0, data := [] }

/-- The memory operand of the coprocessor opcode being executed, as the processor holds it to make the transfers that PEREQ
asks for, also while later instructions run (10_state.md R68; 20_memory.md R107; 70_reset_and_hazards.md R782; log 24). -/
structure CopOperand where
  seg : SReg
  off : Dword
  /-- That segment register as the ESC found it. -/
  cache : SegReg
  /-- PE was 1: the rights of the segment are checked. -/
  rights : Bool
  /-- CPL was 3: the accesses are user accesses. -/
  user : Bool
  /-- How many bytes of the operand have been transferred. -/
  moved : Nat
  /-- False once exception 9 has ended the transfers. -/
  live : Bool
deriving DecidableEq, Repr

/-- A repeated string instruction between two of its iterations (43_string.md R445; log 9). -/
structure Again where
  instr : Instr
  /-- EIP of the instruction that follows. -/
  next : Dword
  /-- EIP has run past FFFFFFFFH by then (D6). -/
  nextOver : Bool
deriving DecidableEq, Repr

/-- What is known of the instruction being read or repeated (30_encoding.md R226 to R230; log 8). -/
structure Prefixes where
  seg : Option SReg
  opsize : Bool
  addrsize : Bool
  lock : Bool
  rep : Option Rep
  /-- How many prefix bytes. -/
  count : Nat
  /-- The D bit under which the instruction was prefetched and decoded, if it is another than that of CS now
  (70_reset_and_hazards.md R775; log 15). -/
  codeD : Option Bool
  /-- The iterations that are left of a repeated string instruction. -/
  again : Option Again
deriving DecidableEq, Repr

def Prefixes.none : Prefixes :=
  { seg := Option.none, opsize := false, addrsize := false, lock := false, rep := Option.none, count := 0,
    codeD := Option.none, again := Option.none }

/-- A code byte of the prefetch queue: one that may have been prefetched under another mode or other page tables
(70_reset_and_hazards.md R775; log 15), or one that has been read from a memory-mapped device (log 59). -/
structure QueuedByte where
  linear : Dword
  /-- The physical address it came from, and what it was. -/
  physical : Dword
  byte : Byte
  /-- The D bit of code then. -/
  codeD : Bool
  /-- The queue holds it for certain: it was read from a memory-mapped device. -/
  sure : Bool
deriving DecidableEq, Repr

/-- The machine. The fields from `instrEip` on are the model's own. -/
structure State where
  regs : Regs
  eip : Dword
  eflags : Eflags
  es : SegReg
  cs : SegReg
  ss : SegReg
  ds : SegReg
  fs : SegReg
  gs : SegReg
  cr0 : Cr0
  cr2 : Dword
  /-- Bits 31:12; the reserved bits 11:0 are not stored (U11). -/
  cr3 : BitVec 20
  gdtr : TableReg
  idtr : TableReg
  ldtr : SegReg
  tr : SegReg
  dr0 : Dword
  dr1 : Dword
  dr2 : Dword
  dr3 : Dword
  dr6 : Dword
  dr7 : Dword
  tr6 : Dword
  tr7 : Dword
  /-- The privilege level outside Real and Virtual 8086 Mode (60_exceptions.md R700; log 10). -/
  cpl : BitVec 2
  nmiPending : Bool
  nmiInService : Bool
  shadow : Shadow
  runState : RunState
  /-- The coprocessor opcode being executed (10_state.md R68). -/
  copOpcode : Word
  /-- Its memory operand, if it has one, and how much of it has been transferred (10_state.md R68, R107). -/
  copOperand : Option CopOperand
  tlb : List TlbEntry
  /-- Physical addresses stored to, whose bytes the prefetch queue may hold as they were before (10_state.md R71, D4). -/
  stale : List Dword
  /-- Bytes of the prefetch queue that a fetch from memory now might not give (10_state.md R71): those it may hold from
  before a change of mode or of page tables, and those it has read from memory-mapped devices. -/
  queued : List QueuedByte
  /-- Physical memory in canonical form (`Memory.wf`). -/
  mem : List Host.Cell
  /-- What a read of an I/O port answers; a port not listed answers a free value. -/
  ioInputs : List (Nat × Byte)
  /-- The bus cycles so far, the newest first. -/
  bus : List BusCycle
  /-- The memory cycles at memory-mapped devices so far, the newest first (20_memory.md R122; 10_state.md R71). -/
  deviceBus : List DeviceCycle
  pins : Pins
  /-- The coprocessor's request, set by the environment with `Pins.pereq`. -/
  copRequest : CopRequest
  /-- EIP of the first byte, prefixes included, of the instruction being executed: what a fault saves (log 8). -/
  instrEip : Dword
  /-- EIP has run past FFFFFFFFH (D6; log 31). -/
  eipOver : Bool
  pfx : Prefixes
  /-- DR6 bits of debug traps not yet taken (log 21). -/
  pendingDb : Dword
  /-- How many free values have been used (log 2). -/
  draws : Nat
  params : Config.Params
deriving DecidableEq, Repr

/-- Why the machine stops where the spec gives no effect. -/
inductive Fault
  /-- Raised by IN, OUT, INS, OUTS and their repeated forms for an operand that runs past port FFFFH (D9): that I/O
  address does not exist. `at'` is the state in which it is met. Safe: the hardware goes on. -/
  | ioPastTop (at' : State)
  /-- Raised by an access to a physical address or an I/O port where nothing answers, so that READY# never comes: the
  processor waits forever (20_memory.md R145, D11: `stuck`). `at'` is the state in which it waits, with what the step has
  written and the bus cycles it has run by then, from which RESET takes it (70_reset_and_hazards.md R750). Safe: without
  RESET no step follows. -/
  | noReady (at' : State)
  /-- Raised by an ESC that waits for a transfer of its memory operand with no coprocessor attached, so that PEREQ never comes:
  the instruction never completes (93_implementation_defined.md U12: `stuck`). `at'` is the state in which it waits, its
  opcode written, from which RESET takes it. Safe: without RESET no step follows. -/
  | noPereq (at' : State)
deriving DecidableEq, Repr

/-- The state in which a step stands that ends in a fault of the model. -/
def Fault.reached : Fault → State
  | .ioPastTop t => t
  | .noReady t => t
  | .noPereq t => t

/-- Why the model declines to give a step a meaning. -/
inductive Refusal
  /-- Raised by no arm of `exec` in this model: an instruction without a meaning, named by its mnemonic. Safe. -/
  | notModelled (mnemonic : String)
  /-- Raised by the fetch of a byte that a store has modified since the last taken transfer inside the prefetch window:
  20_memory.md R180, 70_reset_and_hazards.md R775 and D4 call it `refuse`. Safe. -/
  | staleCode
  /-- Raised by the fetch of a control, debug or test register number that is not listed (30_encoding.md R270, U5).
  Safe. -/
  | undefinedEncoding
  /-- Raised by the delivery of an interrupt or exception in Virtual 8086 Mode through a 286 gate (60_exceptions.md
  R682, U10). Safe. -/
  | gate286InV86
deriving DecidableEq, Repr

/-- What a step answers. -/
abbrev Answer := Host.Outcome State Fault Refusal

/-- An exception about to be delivered (60_exceptions.md R650). -/
structure Exn where
  vector : Byte
  /-- The error code, if the vector takes one (R653, R654). -/
  errorCode : Option Word
  /-- The linear address a page fault puts in CR2. -/
  cr2 : Option Dword
  /-- The DR6 bits a debug exception sets. -/
  dr6 : Dword
  /-- The pushed EFLAGS image has RF = 1 (R675). -/
  rfImage : Bool
deriving DecidableEq, Repr

/-- What a fault keeps of the effects before it (60_exceptions.md R650, D2). -/
inductive Keep
  | nothing
  /-- Memory and the coprocessor's side: stack bytes made free (D2 b, U17), or the part of an operand transferred before
  exception 9 (70_reset_and_hazards.md R782). -/
  | memory
  /-- A task switch past its commit point (R722). -/
  | everything
deriving DecidableEq, Repr

/-- How the execution of an instruction is cut short. -/
inductive Stop
  | exn (e : Exn) (keep : Keep)
  | fault (f : Fault)
  | refuse (r : Refusal)
deriving DecidableEq, Repr

/-- A computation on the state that can be cut short. -/
abbrev M := EStateM Stop State

/-- What a register holds after reset where the spec states no value, or calls it undefined: DESIGN CHOICE zero
(log 1). -/
abbrev State.unstated : Dword := 0

/-- 10_state.md R81: a data segment register after reset. R81 gives base, limit and "read/write": type 3 is read/write
data, accessed. DESIGN CHOICE (log 1): DPL 0, and D or B 0, which R81 leaves open. -/
def SegReg.afterReset : SegReg :=
  { selector := 0, base := 0, limit := 0xFFFF, valid := true, dpl := 0, type := 3, db := false }

/-- LDTR and TR after reset: DESIGN CHOICE, not usable until loaded (10_state.md R81; log 1). -/
def SegReg.unusable : SegReg :=
  { selector := 0, base := 0, limit := 0, valid := false, dpl := 0, type := 0, db := false }

/-- The state after RESET under the parameters `p` (10_state.md R80, R81). A register whose value the spec calls
undefined is `State.unstated`; EAX is 0 where the self-test was requested, because it passes (log 41). -/
def State.resetWith (p : Config.Params) : State :=
  { regs := { eax := if p.selftestRequested then 0 else unstated, ecx := unstated, edx := 0x0300 ||| p.revisionId.setWidth 32,
              ebx := unstated, esp := unstated, ebp := unstated, esi := unstated, edi := unstated }
    eip := 0x0000FFF0
    eflags := { cf := false, pf := false, af := false, zf := false, sf := false, tf := false, ifl := false, df := false,
                ofl := false, iopl := 0, nt := false, rf := false, vm := false }
    es := .afterReset
    cs := { SegReg.afterReset with selector := 0xF000, base := 0xFFFF0000 }
    ss := .afterReset
    ds := .afterReset
    fs := .afterReset
    gs := .afterReset
    cr0 := { pe := false, mp := false, em := false, ts := false, et := p.coprocessor == .i80387, pg := false }
    cr2 := unstated
    cr3 := unstated.extractLsb' 12 20
    gdtr := { base := 0, limit := 0xFFFF }
    idtr := { base := 0, limit := 0x03FF }
    ldtr := .unusable
    tr := .unusable
    dr0 := unstated
    dr1 := unstated
    dr2 := unstated
    dr3 := unstated
    dr6 := unstated
    dr7 := 0
    tr6 := unstated
    tr7 := unstated
    cpl := 0
    nmiPending := false
    nmiInService := false
    shadow := .none
    runState := .running
    copOpcode := 0
    copOperand := none
    tlb := []
    stale := []
    queued := []
    mem := []
    ioInputs := []
    bus := []
    deviceBus := []
    pins := { intr := false, intVector := 0, reset := false, busy := false, error := false, pereq := false, hold := false }
    copRequest := CopRequest.none
    instrEip := 0x0000FFF0
    eipOver := false
    pfx := Prefixes.none
    pendingDb := 0
    draws := 0
    params := p }

/-- The machine right after reset, on the default platform (D11). -/
def State.reset : State := State.resetWith Config.Params.default

end Sys2Proof.Machine
end

