-- ==== Sys2Proof/Machine/Bus.lean ====
section
/-! DEFINITION. What the bus shows: the cycles of an operand by Table 5-8 (20_memory.md R116, R147), byte enables and lanes
(R141, R142, R147, R148), and the definition of a cycle (R144). Of the rest of the bus no field of State keeps a trace
(log 28). -/

namespace Sys2Proof.Machine

open Config (CycleKind)

/-! The cycles of an operand. -/

/-- The cycles of the part of an operand that lies in one dword: `n` bytes from address `a`, which begin `from'` bytes
into the operand. If BS16# is asserted there and they lie in both halves of the bus, two cycles, the low half first. -/
def dwordCycles (sixteen : Nat → Bool) (a from' n : Nat) : List (Nat × Nat) :=
  if sixteen a && decide (a % 4 < 2) && decide (2 < a % 4 + n) then
    [(from', 2 - a % 4), (from' + (2 - a % 4), n - (2 - a % 4))]
  else [(from', n)]

/-- The bus cycles of an operand of `n` bytes, at most 4, at address `a`, in the order performed, each as the offset and
the number of the operand's bytes it transfers (R116): the highest-order bytes first. `sixteen` says at which addresses
BS16# is asserted. -/
def operandCycles (sixteen : Nat → Bool) (n a : Nat) : List (Nat × Nat) :=
  if 4 < a % 4 + n then
    dwordCycles sixteen (a + (4 - a % 4)) (4 - a % 4) (n - (4 - a % 4)) ++ dwordCycles sixteen a 0 (4 - a % 4)
  else dwordCycles sixteen a 0 n

/-- The byte enables asserted (bit i for BEi#) by a cycle of `n` bytes at low address bits `low` (R141). -/
def byteEnables (n low : Nat) : BitVec 4 := BitVec.ofNat 4 ((2 ^ n - 1) * 2 ^ low)

/-- A1 and A0 from the byte enables (R141): the lowest enable asserted. -/
def enableAddress (be : BitVec 4) : BitVec 2 :=
  if be.getLsbD 0 then 0 else if be.getLsbD 1 then 1 else if be.getLsbD 2 then 2 else 3

/-- What each lane of D0 to D31, the lowest first, carries during a write (R142): the logical byte 0 to 3, or none where
the table says undefined (U2). -/
def writeLanes (be : BitVec 4) : List (Option Nat) :=
  let lane (i : Nat) : Option Nat := if be.getLsbD i then some i else none
  if be.getLsbD 0 || be.getLsbD 1 then [lane 0, lane 1, lane 2, lane 3] else [lane 2, lane 3, lane 2, lane 3]

/-- The lane from which a read takes logical byte `i` (R147 a, c): with BS16# asserted the upper half is read from D0 to
D15. -/
def readLane (sixteen : Bool) (i : Nat) : Nat := if sixteen then i % 2 else i

/-- The byte enables of the second cycle that BS16# calls for when both halves are enabled (R147 c, d): BE0# and BE1# are
negated. -/
def secondCycle (be : BitVec 4) : Option (BitVec 4) :=
  if be.getLsbD 1 && be.getLsbD 2 then some (be &&& 0b1100) else none

/-- A1, BHE#, BLE# (true is high) for a 16-bit device (R148): the half that holds the lowest byte enabled. -/
def device16 (be : BitVec 4) : Bool × Bool × Bool :=
  if be.getLsbD 0 || be.getLsbD 1 then (false, !be.getLsbD 1, !be.getLsbD 0)
  else (true, !be.getLsbD 3, !be.getLsbD 2)

/-! The definition of a cycle (R144). -/

/-- M/IO#, D/C#, W/R# (true is high). -/
def cyclePins : CycleKind → Bool × Bool × Bool
  | .interruptAcknowledge => (false, false, false)
  | .ioDataRead => (false, true, false)
  | .ioDataWrite => (false, true, true)
  | .memoryCodeRead => (true, false, false)
  | .halt => (true, false, true)
  | .shutdown => (true, false, true)
  | .memoryDataRead => (true, true, false)
  | .memoryDataWrite => (true, true, true)

/-- Is a cycle of this kind locked? None: some are. -/
def cycleLocked : CycleKind → Option Bool
  | .interruptAcknowledge => some true
  | .ioDataRead => some false
  | .ioDataWrite => some false
  | .memoryCodeRead => some false
  | .halt => some false
  | .shutdown => some false
  | .memoryDataRead => none
  | .memoryDataWrite => none

/-- The kind of a cycle that State lists. -/
def BusCycle.kind : BusCycle → CycleKind
  | .ioRead _ _ => .ioDataRead
  | .ioWrite _ _ => .ioDataWrite
  | .intAck _ => .interruptAcknowledge
  | .halt => .halt
  | .shutdown => .shutdown
  | .coprocessorOpcode _ _ => .ioDataWrite
  | .coprocessorRead _ => .ioDataRead
  | .coprocessorWrite _ => .ioDataWrite
  | .codeRead _ _ => .memoryCodeRead
  | .memoryRead _ _ => .memoryDataRead
  | .memoryWrite _ _ => .memoryDataWrite

/-- Its byte address (R104, R106, R144, R146). -/
def BusCycle.address : BusCycle → Nat
  | .ioRead port _ => port
  | .ioWrite port _ => port
  | .intAck a => a
  | .halt => 2
  | .shutdown => 0
  | .coprocessorOpcode _ _ => 0x800000F8
  | .coprocessorRead _ => 0x800000FC
  | .coprocessorWrite _ => 0x800000FC
  | .codeRead a _ => a
  | .memoryRead a _ => a
  | .memoryWrite a _ => a

/-- How many bytes it transfers; a cycle that transfers nothing asserts one byte enable. -/
def BusCycle.width : BusCycle → Nat
  | .ioRead _ n => n
  | .ioWrite _ bytes => bytes.length
  | .intAck _ => 1
  | .halt => 1
  | .shutdown => 1
  | .coprocessorOpcode _ wide => if wide then 4 else 2
  | .coprocessorRead n => n
  | .coprocessorWrite bytes => bytes.length
  | .codeRead _ n => n
  | .memoryRead _ n => n
  | .memoryWrite _ bytes => bytes.length

/-- Its byte enables: BE0# for both acknowledge cycles (addresses 4 and 0) and for shutdown, BE2# for halt. -/
def BusCycle.enables (c : BusCycle) : BitVec 4 := byteEnables c.width (c.address % 4)

end Sys2Proof.Machine
end

