-- ==== Sys2Proof/Machine/Registers.lean ====
section
/-! DEFINITION. Reading and writing registers, and the modes and sizes that the state selects. -/

namespace Sys2Proof

/-- The number of bits of an operand size (00_scope.md R6). -/
def Size.bits : Size → Nat
  | .b8 => 8
  | .b16 => 16
  | .b32 => 32

/-- The number of bytes of an operand size. -/
def Size.bytes : Size → Nat
  | .b8 => 1
  | .b16 => 2
  | .b32 => 4

end Sys2Proof

namespace Sys2Proof.Machine

/-- `trunc` of 00_scope.md R11: the low bits of `v` at size `sz`, the rest zero. -/
def trunc (sz : Size) (v : Dword) : Dword :=
  match sz with
  | .b8 => (v.setWidth 8).setWidth 32
  | .b16 => (v.setWidth 16).setWidth 32
  | .b32 => v

/-- `sext_32` of the low bits of `v` at size `sz`. -/
def signExtend (sz : Size) (v : Dword) : Dword :=
  match sz with
  | .b8 => (v.setWidth 8).signExtend 32
  | .b16 => (v.setWidth 16).signExtend 32
  | .b32 => v

/-- A write of the low 16 bits of a register leaves the upper half as it is (10_state.md R31). -/
def mergeWord (old : Dword) (v : Word) : Dword := old.extractLsb' 16 16 ++ v

/-! General registers (10_state.md R30, R31). -/

def Regs.get (g : Regs) : Reg → Dword
  | .eax => g.eax
  | .ecx => g.ecx
  | .edx => g.edx
  | .ebx => g.ebx
  | .esp => g.esp
  | .ebp => g.ebp
  | .esi => g.esi
  | .edi => g.edi

def Regs.set (g : Regs) (r : Reg) (v : Dword) : Regs :=
  match r with
  | .eax => { g with eax := v }
  | .ecx => { g with ecx := v }
  | .edx => { g with edx := v }
  | .ebx => { g with ebx := v }
  | .esp => { g with esp := v }
  | .ebp => { g with ebp := v }
  | .esi => { g with esi := v }
  | .edi => { g with edi := v }

/-- The 32-bit register a byte register number lies in. -/
def Reg.byteHome : Reg → Reg
  | .eax => .eax
  | .ecx => .ecx
  | .edx => .edx
  | .ebx => .ebx
  | .esp => .eax
  | .ebp => .ecx
  | .esi => .edx
  | .edi => .ebx

/-- Numbers 4 to 7 with w = 0 are the high bytes AH, CH, DH, BH. -/
def Reg.isHighByte : Reg → Bool
  | .esp => true
  | .ebp => true
  | .esi => true
  | .edi => true
  | _ => false

/-- `reg(n, sz)` of 00_scope.md R11, zero-extended. -/
def Regs.read (g : Regs) (sz : Size) (r : Reg) : Dword :=
  match sz with
  | .b32 => g.get r
  | .b16 => ((g.get r).setWidth 16).setWidth 32
  | .b8 =>
    let v := g.get (Reg.byteHome r)
    if Reg.isHighByte r then (v.extractLsb' 8 8).setWidth 32 else (v.setWidth 8).setWidth 32

/-- `reg(n, sz) <- v`: the bits outside the named part are unchanged (10_state.md R31). -/
def Regs.write (g : Regs) (sz : Size) (r : Reg) (v : Dword) : Regs :=
  match sz with
  | .b32 => g.set r v
  | .b16 => g.set r (mergeWord (g.get r) (v.setWidth 16))
  | .b8 =>
    let home := Reg.byteHome r
    let old := g.get home
    let b := v.setWidth 8
    if Reg.isHighByte r then g.set home (old.extractLsb' 16 16 ++ b ++ old.extractLsb' 0 8)
    else g.set home (old.extractLsb' 8 24 ++ b)

/-- A register of the state at a size. -/
def State.reg (s : State) (sz : Size) (r : Reg) : Dword := s.regs.read sz r

/-- A write of a register of the state at a size. -/
def State.setReg (s : State) (sz : Size) (r : Reg) (v : Dword) : State := { s with regs := s.regs.write sz r v }

/-! Segment registers. -/

def State.seg (s : State) : SReg → SegReg
  | .es => s.es
  | .cs => s.cs
  | .ss => s.ss
  | .ds => s.ds
  | .fs => s.fs
  | .gs => s.gs

def State.setSeg (s : State) (sr : SReg) (v : SegReg) : State :=
  match sr with
  | .es => { s with es := v }
  | .cs => { s with cs := v }
  | .ss => { s with ss := v }
  | .ds => { s with ds := v }
  | .fs => { s with fs := v }
  | .gs => { s with gs := v }

/-- A write of EFLAGS. -/
def State.setFlags (s : State) (f : Eflags) : State := { s with eflags := f }

/-! Modes (60_exceptions.md R703) and sizes (30_encoding.md R232). -/

/-- Virtual 8086 Mode. -/
def State.v86 (s : State) : Bool := s.cr0.pe && s.eflags.vm

/-- Protected Mode with VM = 0. -/
def State.protectedMode (s : State) : Bool := s.cr0.pe && !s.eflags.vm

/-- CPL: 0 in Real Mode, 3 in Virtual 8086 Mode (60_exceptions.md R700). -/
def State.currentCpl (s : State) : BitVec 2 :=
  if s.cr0.pe then (if s.eflags.vm then 3 else s.cpl) else 0

/-- The D bit of CS, 0 in Real and Virtual 8086 Mode (30_encoding.md R232). -/
def State.csD (s : State) : Bool := s.protectedMode && s.cs.db

/-- The D bit under which the instruction was decoded: that of CS, unless it was prefetched under another one
(70_reset_and_hazards.md R775; log 15). -/
def State.codeD (s : State) : Bool := s.pfx.codeD.getD s.csD

/-- osz is 32 (30_encoding.md R232). -/
def State.osz32 (s : State) : Bool := s.codeD ^^ s.pfx.opsize

/-- asz is 32. -/
def State.asz32 (s : State) : Bool := s.codeD ^^ s.pfx.addrsize

/-- The operand size of a form without a w field. -/
def State.osz (s : State) : Size := if s.osz32 then .b32 else .b16

/-- The address size. -/
def State.asz (s : State) : Size := if s.asz32 then .b32 else .b16

/-- The operand size of a form with a w field (30_encoding.md R238). -/
def State.wsz (s : State) (w : Width) : Size :=
  match w with
  | .byte => .b8
  | .full => s.osz

/-- StackAddrSize (10_state.md R36): by the B bit of SS, 16 in Real and Virtual 8086 Mode. -/
def State.stackSize (s : State) : Size := if s.protectedMode && s.ss.db then .b32 else .b16

/-- What the decoder needs to know of the state. -/
def State.ctx (s : State) : Ctx := { osz32 := s.osz32, asz32 := s.asz32, rep := s.pfx.rep }

end Sys2Proof.Machine
end

