-- ==== Sys2Proof/Machine/Flags.lean ====
section
/-! DEFINITION. EFLAGS as a word (10_state.md R46), the flag functions of 41_arithmetic.md R360 and the conditions of
30_encoding.md R262. -/

namespace Sys2Proof.Machine

/-- `b` as a number with that bit at place `n`. -/
def bitAt (b : Bool) (n : Nat) : Dword := if b then BitVec.ofNat 32 (2 ^ n) else 0

/-- EFLAGS with its fixed bits: bit 1 reads 1, bits 3, 5, 15 and 31:18 read 0 (10_state.md R46). -/
def Eflags.word (f : Eflags) : Dword :=
  0x2 ||| bitAt f.cf 0 ||| bitAt f.pf 2 ||| bitAt f.af 4 ||| bitAt f.zf 6 ||| bitAt f.sf 7 ||| bitAt f.tf 8
    ||| bitAt f.ifl 9 ||| bitAt f.df 10 ||| bitAt f.ofl 11 ||| (f.iopl.setWidth 32 <<< 12) ||| bitAt f.nt 14
    ||| bitAt f.rf 16 ||| bitAt f.vm 17

/-- The flags an image holds, every field. -/
def Eflags.ofWord (v : Dword) : Eflags :=
  { cf := v.getLsbD 0, pf := v.getLsbD 2, af := v.getLsbD 4, zf := v.getLsbD 6, sf := v.getLsbD 7, tf := v.getLsbD 8,
    ifl := v.getLsbD 9, df := v.getLsbD 10, ofl := v.getLsbD 11, iopl := v.extractLsb' 12 2, nt := v.getLsbD 14,
    rf := v.getLsbD 16, vm := v.getLsbD 17 }

/-- CF, PF, AF, ZF, SF, TF, DF, OF, NT from an image; IF if CPL ≤ IOPL and IOPL if CPL = 0, both as they are before
(10_state.md R48; 40_data_transfer.md R336). RF and VM are kept. -/
def Eflags.load (f : Eflags) (cpl : BitVec 2) (image : Dword) : Eflags :=
  let v := Eflags.ofWord image
  { v with
    ifl := if cpl ≤ f.iopl then v.ifl else f.ifl
    iopl := if cpl = 0 then v.iopl else f.iopl
    rf := f.rf
    vm := f.vm }

/-- The most significant bit at size `sz`. -/
def signBit (sz : Size) (v : Dword) : Bool := v.getLsbD (sz.bits - 1)

/-- PF: the low byte has an even number of 1 bits. -/
def parityEven (v : Dword) : Bool :=
  !(v.getLsbD 0 ^^ v.getLsbD 1 ^^ v.getLsbD 2 ^^ v.getLsbD 3 ^^ v.getLsbD 4 ^^ v.getLsbD 5 ^^ v.getLsbD 6 ^^ v.getLsbD 7)

/-- `signed(v)` at size `sz` (00_scope.md R11). -/
def signedVal (sz : Size) (v : Dword) : Int :=
  match sz with
  | .b8 => (v.setWidth 8).toInt
  | .b16 => (v.setWidth 16).toInt
  | .b32 => v.toInt

/-- SF, ZF, PF of a result (41_arithmetic.md R360). -/
def Eflags.withSZP (f : Eflags) (sz : Size) (r : Dword) : Eflags :=
  { f with sf := signBit sz r, zf := trunc sz r == 0, pf := parityEven r }

/-- a + b + c at size `sz`. -/
def addResult (sz : Size) (a b : Dword) (c : Bool) : Dword :=
  trunc sz (BitVec.ofNat 32 (a.toNat + b.toNat + c.toNat))

/-- The arithmetic flags of r = a + b + c (41_arithmetic.md R360). -/
def Eflags.afterAdd (f : Eflags) (sz : Size) (a b : Dword) (c : Bool) : Eflags :=
  let r := addResult sz a b c
  { f.withSZP sz r with
    cf := decide (2 ^ sz.bits ≤ a.toNat + b.toNat + c.toNat)
    af := decide (16 ≤ a.toNat % 16 + b.toNat % 16 + c.toNat)
    ofl := signBit sz a == signBit sz b && signBit sz r != signBit sz a }

/-- a − b − c at size `sz`. -/
def subResult (sz : Size) (a b : Dword) (c : Bool) : Dword :=
  trunc sz (a - b - BitVec.ofNat 32 c.toNat)

/-- The arithmetic flags of r = a − b − c (41_arithmetic.md R360). -/
def Eflags.afterSub (f : Eflags) (sz : Size) (a b : Dword) (c : Bool) : Eflags :=
  let r := subResult sz a b c
  { f.withSZP sz r with
    cf := decide (a.toNat < b.toNat + c.toNat)
    af := decide (a.toNat % 16 < b.toNat % 16 + c.toNat)
    ofl := signBit sz a != signBit sz b && signBit sz r != signBit sz a }

/-- AND, OR, XOR, TEST (42_logic.md R410): CF = OF = 0, SF, ZF, PF from the result; `af` is the undefined AF. -/
def Eflags.afterLogic (f : Eflags) (sz : Size) (r : Dword) (af : Bool) : Eflags :=
  { f.withSZP sz r with cf := false, ofl := false, af := af }

/-- The sixteen conditions tttn (30_encoding.md R262). -/
inductive Cond
  | o
  | no
  | b
  | nb
  | e
  | ne
  | be
  | nbe
  | s
  | ns
  | p
  | np
  | l
  | nl
  | le
  | nle
deriving DecidableEq, Repr

/-- What each condition tests (30_encoding.md R262). -/
def Eflags.holds (f : Eflags) : Cond → Bool
  | .o => f.ofl
  | .no => !f.ofl
  | .b => f.cf
  | .nb => !f.cf
  | .e => f.zf
  | .ne => !f.zf
  | .be => f.cf || f.zf
  | .nbe => !f.cf && !f.zf
  | .s => f.sf
  | .ns => !f.sf
  | .p => f.pf
  | .np => !f.pf
  | .l => f.sf != f.ofl
  | .nl => f.sf == f.ofl
  | .le => f.zf || f.sf != f.ofl
  | .nle => !f.zf && f.sf == f.ofl

end Sys2Proof.Machine
end

