-- ==== Sys2Proof/Machine/Memory.lean ====
section
/-! DEFINITION. Free values, physical memory and what answers there, paging with its TLB, data breakpoints, the segment checks and the access
primitives of 20_memory.md R120. -/

namespace Sys2Proof.Machine

/-! Raising an exception (60_exceptions.md R650, R651) and drawing a free value. -/

/-- A fault: the pushed EFLAGS image has RF = 1 (60_exceptions.md R675). -/
def Exn.fault (vector : Byte) (errorCode : Option Word) : Exn :=
  { vector := vector, errorCode := errorCode, cr2 := none, dr6 := 0, rfImage := true }

/-- #DE divide error. -/
def Exn.de : Exn := Exn.fault 0 none
/-- #BR bound. -/
def Exn.br : Exn := Exn.fault 5 none
/-- #UD invalid opcode. -/
def Exn.ud : Exn := Exn.fault 6 none
/-- #NM coprocessor not available. -/
def Exn.nm : Exn := Exn.fault 7 none
/-- #DF double fault: an abort, error code 0. -/
def Exn.dfault : Exn := { Exn.fault 8 (some 0) with rfImage := false }
/-- #TS invalid TSS. -/
def Exn.ts (code : Word) : Exn := Exn.fault 10 (some code)
/-- #NP segment not present. -/
def Exn.np (code : Word) : Exn := Exn.fault 11 (some code)
/-- #SS stack fault. -/
def Exn.ss (code : Word) : Exn := Exn.fault 12 (some code)
/-- #GP general protection. -/
def Exn.gp (code : Word) : Exn := Exn.fault 13 (some code)
/-- Coprocessor segment overrun: an abort (47_processor_control.md R610). -/
def Exn.overrun : Exn := { Exn.fault 9 none with rfImage := false }
/-- #MF coprocessor error. -/
def Exn.mf : Exn := Exn.fault 16 none

/-- A debug trap: the image keeps RF. -/
def Exn.dbTrap (bits : Dword) : Exn := { vector := 1, errorCode := none, cr2 := none, dr6 := bits, rfImage := false }

/-- A page fault at linear address `l` (20_memory.md R200; 60_exceptions.md R653): bit 0 protection violation, bit 1
write, bit 2 user. -/
def Exn.pf (l : Dword) (protection write user : Bool) : Exn :=
  let code : Word := (if protection then 1 else 0) ||| (if write then 2 else 0) ||| (if user then 4 else 0)
  { Exn.fault 14 (some code) with cr2 := some l }

/-- `raise` (60_exceptions.md R650). -/
def raise {α : Type} (e : Exn) : M α := fun s => .error (.exn e .nothing) s

/-- A stop with a fault of the model. -/
def stopFault {α : Type} (f : Fault) : M α := fun s => .error (.fault f) s

/-- A stop with a refusal. -/
def refuse {α : Type} (r : Refusal) : M α := fun s => .error (.refuse r) s

/-- `if c: raise e`. -/
def raiseIf (c : Bool) (e : Exn) : M Unit := fun s => if c then .error (.exn e .nothing) s else .ok () s

/-- `UNDEF(32)`: the next free value (00_scope.md R11; log 2). -/
def freeDword : M Dword := fun s => .ok (Config.freeDword s.draws) { s with draws := s.draws + 1 }

/-- `UNDEF(1)`. -/
def freeBit : M Bool := fun s => .ok ((Config.freeDword s.draws).getLsbD 0) { s with draws := s.draws + 1 }

/-- `UNDEF(n)` for an operand size, zero-extended. -/
def freeAt (sz : Size) : M Dword := fun s => .ok (trunc sz (Config.freeDword s.draws)) { s with draws := s.draws + 1 }

/-- `UNDEF(16)` above a defined low half. -/
def freeUpper (low : Word) : M Dword := fun s =>
  .ok (mergeWord (Config.freeDword s.draws) low) { s with draws := s.draws + 1 }

/-! Physical memory: a list of (address, byte), addresses rising, no entry equal to what an unlisted address reads as. -/

/-- What a byte that nothing has written reads as: DESIGN CHOICE (log 3). -/
def Memory.unlisted : Byte := 0

def Memory.read (m : List Host.Cell) (a : Nat) : Byte :=
  match m with
  | [] => Memory.unlisted
  | (k, v) :: rest => if a = k then v else if a < k then Memory.unlisted else Memory.read rest a

def Memory.write (m : List Host.Cell) (a : Nat) (v : Byte) : List Host.Cell :=
  match m with
  | [] => if v = Memory.unlisted then [] else [(a, v)]
  | (k, w) :: rest =>
    if a < k then (if v = Memory.unlisted then (k, w) :: rest else (a, v) :: (k, w) :: rest)
    else if a = k then (if v = Memory.unlisted then rest else (a, v) :: rest)
    else (k, w) :: Memory.write rest a v

/-- Every entry from `lo` on lies above it and below 2^32, and differs from what an unlisted address reads as. -/
def Memory.wfFrom (lo : Nat) : List Host.Cell → Bool
  | [] => true
  | (k, v) :: rest => decide (lo ≤ k) && decide (k < 2 ^ 32) && decide (v ≠ Memory.unlisted) && Memory.wfFrom (k + 1) rest

/-- The canonical form. -/
def Memory.wf (m : List Host.Cell) : Bool := Memory.wfFrom 0 m

/-- One byte of physical memory. -/
def State.readByte (s : State) (a : Dword) : Byte := Memory.read s.mem a.toNat

/-- Bytes, the lowest address first, as a number (20_memory.md R110, R111). -/
def leNat : List Byte → Nat
  | [] => 0
  | b :: rest => b.toNat + 256 * leNat rest

/-- Bytes as a dword. -/
def leDword (bs : List Byte) : Dword := BitVec.ofNat 32 (leNat bs)

/-- The low `n` bytes of a value, the least significant first (20_memory.md R111). -/
def leBytes : Nat → Dword → List Byte
  | 0, _ => []
  | n + 1, v => v.setWidth 8 :: leBytes n (v >>> 8)

/-- The dword at a physical address. -/
def State.physDword (s : State) (a : Dword) : Dword :=
  leDword [s.readByte a, s.readByte (a + 1), s.readByte (a + 2), s.readByte (a + 3)]

/-- A byte written at a physical address, unless the platform keeps it as it is (`fixed`). -/
def writeCell (fixed : Nat → Bool) (m : List Host.Cell) (a : Nat) (b : Byte) : List Host.Cell :=
  if fixed a then m else Memory.write m a b

/-- Bytes written at physical addresses, one to each. -/
def writeCells (fixed : Nat → Bool) (m : List Host.Cell) : List Dword → List Byte → List Host.Cell
  | a :: as, b :: bs => writeCells fixed (writeCell fixed m a.toNat b) as bs
  | _, _ => m

/-- No store of the processor changes what `State.mem` holds here: it is not RAM (MEMORY_MAP of 00_scope.md R7; log 4). -/
def State.isFixed (s : State) (a : Nat) : Bool := (s.params.responder a).isSome

/-- A memory-mapped device answers. -/
def State.isDevice (s : State) (a : Dword) : Bool := s.params.responder a.toNat == some .device

/-- Nothing answers. -/
def State.isAbsent (s : State) (a : Dword) : Bool := s.params.responder a.toNat == some .absent

/-- Nothing answers at one of the four bytes of the dword at `a`. -/
def State.absentDword (s : State) (a : Dword) : Bool := [a, a + 1, a + 2, a + 3].any s.isAbsent

/-! Paging (20_memory.md R200). -/

/-- The page of a linear address. -/
def pageOf (l : Dword) : BitVec 20 := l.extractLsb' 12 20

/-- The offset in its page. -/
def offsetIn (l : Dword) : BitVec 12 := l.extractLsb' 0 12

/-- A write of CR3 flushes the TLB (10_state.md R57, R72). -/
def State.setCr3 (s : State) (v : Dword) : State := { s with cr3 := v.extractLsb' 12 20, tlb := [] }

/-- The page directory entry and the page table entry of a linear address, and where they lie. -/
structure TableEntries where
  pdeAt : Dword
  pde : Dword
  pteAt : Dword
  pte : Dword
deriving DecidableEq, Repr

def State.tableEntries (s : State) (l : Dword) : TableEntries :=
  let pdeAt : Dword := (s.cr3 ++ 0#12) + ((l >>> 22) <<< 2)
  let pde := s.physDword pdeAt
  let pteAt : Dword := (pde &&& 0xFFFFF000) + (((l >>> 12) &&& 0x3FF) <<< 2)
  { pdeAt := pdeAt, pde := pde, pteAt := pteAt, pte := s.physDword pteAt }

/-- P of an entry. -/
def entryPresent (e : Dword) : Bool := e.getLsbD 0

/-- The translation the entries give: U/S and R/W must be set in both for a user access. -/
def TableEntries.translation (t : TableEntries) (l : Dword) : TlbEntry :=
  { page := pageOf l
    frame := pageOf t.pte
    user := t.pde.getLsbD 2 && t.pte.getLsbD 2
    writable := t.pde.getLsbD 1 && t.pte.getLsbD 1
    dirty := t.pte.getLsbD 6 }

/-- The protection check of R200: a supervisor access passes. -/
def TlbEntry.permits (e : TlbEntry) (write user : Bool) : Bool := !user || (e.user && (!write || e.writable))

/-- The entry of a linear address in the TLB. -/
def findEntry (page : BitVec 20) : List TlbEntry → Option TlbEntry
  | [] => none
  | e :: rest => if e.page = page then some e else findEntry page rest

/-- The physical address a translation gives. -/
def TlbEntry.physical (e : TlbEntry) (l : Dword) : Dword := e.frame ++ offsetIn l

/-- A write of a dword of a table entry. DESIGN CHOICE (log 15): it is no store for the prefetch queue, so no byte becomes
stale by it. -/
def State.setPhysDword (s : State) (a v : Dword) : State :=
  { s with mem := writeCells s.isFixed s.mem [a, a + 1, a + 2, a + 3] (leBytes 4 v) }

/-- The set of a TLB entry: 32 entries in 4 ways are 8 sets (10_state.md R72). PRESUMED (log 13): by the low bits of the
page number. -/
def TlbEntry.set (e : TlbEntry) : BitVec 3 := e.page.extractLsb' 0 3

/-- The TLB takes an entry: it replaces one of the same page and, where the set is full, one of its four that `choice`
picks (10_state.md R72; log 13). -/
def insertEntry (tlb : List TlbEntry) (e : TlbEntry) (choice : Nat) : List TlbEntry :=
  let others := tlb.filter fun x => x.page != e.page
  let ways := others.filter fun x => x.set == e.set
  if ways.length < 4 then e :: others
  else
    match ways[choice % 4]? with
    | some old => e :: others.filter fun x => x.page != old.page
    | none => e :: others

/-- The walk of R200: it sets A in both entries and, on a write, D in the page table entry, and the TLB holds the
result. A table where nothing answers stops the processor (R145). -/
def walk (write user : Bool) (l : Dword) : M Dword := fun s =>
  let t := s.tableEntries l
  if s.absentDword t.pdeAt || (entryPresent t.pde && s.absentDword t.pteAt) then .error (.fault (.noReady s)) s
  else if !entryPresent t.pde || !entryPresent t.pte then .error (.exn (Exn.pf l false write user) .nothing) s
  else
    let e := t.translation l
    if !e.permits write user then .error (.exn (Exn.pf l true write user) .nothing) s
    else
      let e' := { e with dirty := e.dirty || write }
      let s1 := s.setPhysDword t.pdeAt (t.pde ||| 0x20)
      let s2 := s1.setPhysDword t.pteAt (t.pte ||| 0x20 ||| (if write then 0x40 else 0))
      .ok (e'.physical l)
        { s2 with tlb := insertEntry s2.tlb e' (Config.freeDword s.draws).toNat, draws := s.draws + 1 }

/-- An entry held by the TLB and the tables in memory give the same result and the tables need no A or D bit set. -/
def TlbEntry.agrees (e : TlbEntry) (t : TableEntries) (write : Bool) (l : Dword) : Bool :=
  entryPresent t.pde && entryPresent t.pte && t.pde.getLsbD 5 && t.pte.getLsbD 5 && (!write || t.pte.getLsbD 6) &&
    { t.translation l with dirty := e.dirty } == e

/-- The use of a held entry. -/
def useEntry (e : TlbEntry) (write user : Bool) (l : Dword) : M Dword := fun s =>
  if e.permits write user then .ok (e.physical l) s
  else .error (.exn (Exn.pf l true write user) .nothing) s

/-- The physical address of a linear address (20_memory.md R101, R200). A held entry that no longer agrees with the
tables may or may not still be held: a free bit says which (70_reset_and_hazards.md R777; log 13). -/
def translate (write user : Bool) (l : Dword) : M Dword := fun s =>
  if !s.cr0.pg then .ok l s
  else
    match findEntry (pageOf l) s.tlb with
    | none => walk write user l s
    | some e =>
      if write && !e.dirty then walk write user l s
      else if e.agrees (s.tableEntries l) write l then useEntry e write user l s
      else if (Config.freeDword s.draws).getLsbD 0 then useEntry e write user l { s with draws := s.draws + 1 }
      else walk write user l { s with draws := s.draws + 1 }

/-- The linear addresses `l`, `l + 1`, … of an operand, modulo 2^32. -/
def linearRange (l : Dword) : Nat → List Dword
  | 0 => []
  | n + 1 => l :: linearRange (l + 1) n

/-- The physical addresses of an operand of `n` bytes at `l`, `n` at most a page: each page touched is translated once,
the page of the first byte first (60_exceptions.md R657 step 6). -/
def physRange (write user : Bool) (l : Dword) (n : Nat) : M (List Dword) := do
  let p ← translate write user l
  let last := l + BitVec.ofNat 32 (n - 1)
  if pageOf last = pageOf l then pure (linearRange p n)
  else do
    let q ← translate write user (last &&& 0xFFFFF000)
    let first := 4096 - (offsetIn l).toNat
    pure (linearRange p first ++ linearRange q (n - first))

/-- The physical address of a linear address as the tables in memory give it, with no effect; none if a page is not
present. -/
def State.peekPhys (s : State) (l : Dword) : Option Dword :=
  if !s.cr0.pg then some l
  else
    let t := s.tableEntries l
    if entryPresent t.pde && entryPresent t.pte then some ((t.translation l).physical l) else none

/-! Data breakpoints (60_exceptions.md R730). -/

/-- R/Wn of DR7. -/
def dr7Rw (dr7 : Dword) (n : Nat) : BitVec 2 := dr7.extractLsb' (16 + 4 * n) 2

/-- LENn of DR7. -/
def dr7Len (dr7 : Dword) (n : Nat) : BitVec 2 := dr7.extractLsb' (18 + 4 * n) 2

/-- Ln or Gn. -/
def dr7Enabled (dr7 : Dword) (n : Nat) : Bool := dr7.getLsbD (2 * n) || dr7.getLsbD (2 * n + 1)

/-- DRn for n = 0 to 3. -/
def State.drAddress (s : State) : Nat → Dword
  | 0 => s.dr0
  | 1 => s.dr1
  | 2 => s.dr2
  | _ => s.dr3

/-- Two ranges of linear addresses overlap. -/
def rangesOverlap (a : Dword) (n : Nat) (b : Dword) (k : Nat) : Bool :=
  decide ((b - a).toNat < n) || decide ((a - b).toNat < k)

/-- Breakpoint `n` matches a data access. R/W = 10 and LEN = 10 are undefined: a free bit says whether they match
(log 32). -/
def dataMatch (s : State) (n : Nat) (write : Bool) (l : Dword) (size : Nat) : Bool :=
  let rw := dr7Rw s.dr7 n
  let len := dr7Len s.dr7 n
  let undefinedBit := (Config.freeDword (s.draws + n)).getLsbD 0
  let base := s.drAddress n
  let hit : Bool :=
    if len = 0 then rangesOverlap l size base 1
    else if len = 1 then rangesOverlap l size (base &&& 0xFFFFFFFE) 2
    else if len = 3 then rangesOverlap l size (base &&& 0xFFFFFFFC) 4
    else undefinedBit
  dr7Enabled s.dr7 n &&
    (if rw = 0 then false else if rw = 1 then write && hit else if rw = 3 then hit else hit && undefinedBit)

/-- Record the breakpoints an access meets, to be trapped after the instruction. -/
def noteAccess (write : Bool) (l : Dword) (size : Nat) : M Unit := fun s =>
  if s.dr7 &&& 0xFF = 0 then .ok () s
  else
    .ok () { s with
      pendingDb := s.pendingDb ||| bitAt (dataMatch s 0 write l size) 0 ||| bitAt (dataMatch s 1 write l size) 1
        ||| bitAt (dataMatch s 2 write l size) 2 ||| bitAt (dataMatch s 3 write l size) 3
      draws := s.draws + 4 }

/-! The prefetch queue (10_state.md R71; 20_memory.md R180). -/

/-- The linear addresses of the prefetch window. -/
def State.prefetchWindow (s : State) : List Dword := linearRange (s.cs.base + s.instrEip) (s.params.prefetchWindow + 1)

/-- A physical address whose byte may be in the prefetch queue: it lies within PREFETCH_WINDOW bytes of the instruction
being executed (20_memory.md R180, D4). -/
def State.inPrefetchWindow (s : State) (a : Dword) : Bool :=
  if !s.cr0.pg then decide ((a - (s.cs.base + s.instrEip)).toNat ≤ s.params.prefetchWindow)
  else s.prefetchWindow.any fun l => s.peekPhys l == some a

/-- The byte at a linear address, if the prefetch queue has read it from a memory-mapped device. -/
def State.heldByte (s : State) (l : Dword) : Option Byte :=
  (s.queued.find? fun q => q.sure && q.linear == l).map fun q => q.byte

/-- `s` with the bytes that the prefetch queue may hold from before a change from `old`, where their prefetch under the
mode and the page tables of `old` gave another byte, or an instruction of another size, than their fetch now would
(70_reset_and_hazards.md R775; log 15). What it has read from devices it holds already, and where nothing answers it has
read nothing. -/
def State.queueSince (s old : State) : State :=
  if s.csD = old.csD ∧ s.cr0.pg = old.cr0.pg ∧ s.cr3 = old.cr3 then s
  else
    { s with
      queued := (s.prefetchWindow.filterMap fun l =>
        match old.peekPhys l with
        | none => none
        | some p =>
          if (s.csD = old.csD ∧ s.peekPhys l = some p) ∨ old.isDevice p ∨ old.isAbsent p ∨ (old.heldByte l).isSome then none
          else some { linear := l, physical := p, byte := old.readByte p, codeD := old.csD, sure := false }) ++ s.queued }

/-- A write of bytes to physical addresses; those that it changes in the prefetch window become stale. -/
def State.storePhys (s : State) (as : List Dword) (bs : List Byte) : State :=
  let mem := writeCells s.isFixed s.mem as bs
  { s with
    mem := mem
    stale := (as.filter fun a => Memory.read mem a.toNat != s.readByte a && s.inPrefetchWindow a) ++ s.stale }

/-! Devices and absent memory (MEMORY_MAP of 00_scope.md R7, R122, R145; log 4). -/

/-- The cycles of an access to the physical addresses `as`, each as the offset and the number of the bytes it transfers:
those of its dwords by Table 5-8, an operand of more than four bytes being taken four at a time (R116; log 4). `sixteen`
says where BS16# is asserted, `k` is the offset of the first byte, and `fuel` is the number of bytes. -/
def accessCycles (sixteen : Dword → Bool) : Nat → Nat → List Dword → List (Nat × Nat)
  | 0, _, _ => []
  | _ + 1, _, [] => []
  | fuel + 1, k, a :: rest =>
    let n := min 4 (rest.length + 1)
    ((operandCycles (fun x => sixteen ((a :: rest).getD (x - a.toNat) a)) n a.toNat).map fun c => (k + c.1, c.2)) ++
      accessCycles sixteen fuel (k + n) ((a :: rest).drop 4)

/-- The cycles of an access that run: all, or those before the first one that nothing answers (R145). -/
def State.cyclesRun (s : State) (kind : Config.CycleKind) (as : List Dword) : List (Nat × Nat) :=
  (accessCycles (fun a => s.params.asserts16 kind a.toNat) as.length 0 as).takeWhile fun c =>
    !((as.drop c.1).take c.2).any s.isAbsent

/-- The cycles of an access that a device sees, `cycle` giving each one from its offset, its address and its length. -/
def State.noteCycles (s : State) (kind : Config.CycleKind) (as : List Dword) (cycle : Nat → Nat → Nat → BusCycle) : State :=
  let seen := (s.cyclesRun kind as).filter fun c => ((as.drop c.1).take c.2).any s.isDevice
  { s with
    deviceBus := (seen.map fun c => { after := s.bus.length, cycle := cycle c.1 (as.getD c.1 0).toNat c.2 }).reverse ++
      s.deviceBus }

/-- The bytes read at physical addresses where a device answers at some: its bytes are free values, from draw `k` on. -/
def State.answers (s : State) : Nat → List Dword → List Byte
  | _, [] => []
  | k, a :: as => (if s.isDevice a then (Config.freeDword k).setWidth 8 else s.readByte a) :: s.answers (k + 1) as

/-- The state in which a data read waits for READY#: the cycles before have run. -/
def State.readStuck (s : State) (as : List Dword) : State := s.noteCycles .memoryDataRead as fun _ a n => .memoryRead a n

/-- The state in which a data write waits for READY#: the bytes of the cycles before have been written. -/
def State.writeStuck (s : State) (as : List Dword) (bs : List Byte) : State :=
  let done := (s.cyclesRun .memoryDataWrite as).flatMap fun c => (as.zip bs |>.drop c.1).take c.2
  (s.noteCycles .memoryDataWrite as fun k a n => .memoryWrite a ((bs.drop k).take n)).storePhys (done.map Prod.fst)
    (done.map Prod.snd)

/-- A data read of physical addresses. -/
def readPhys (as : List Dword) : M (List Byte) := fun s =>
  if as.any s.isAbsent then .error (.fault (.noReady (s.readStuck as))) s
  else if as.any s.isDevice then
    .ok (s.answers s.draws as)
      { s.noteCycles .memoryDataRead as (fun _ a n => .memoryRead a n) with draws := s.draws + as.length }
  else .ok (as.map s.readByte) s

/-- A data write of physical addresses. -/
def writePhys (as : List Dword) (bs : List Byte) : M Unit := fun s =>
  if as.any s.isAbsent then .error (.fault (.noReady (s.writeStuck as bs))) s
  else if as.any s.isDevice then
    .ok () ((s.noteCycles .memoryDataWrite as fun k a n => .memoryWrite a ((bs.drop k).take n)).storePhys as bs)
  else .ok () (s.storePhys as bs)

/-! Linear accesses. -/

/-- Read `n` bytes at a linear address. -/
def readLinear (user : Bool) (l : Dword) (n : Nat) : M (List Byte) := do
  let as ← physRange false user l n
  noteAccess false l n
  readPhys as

/-- Write bytes at a linear address: every page is checked before a byte is written (20_memory.md R120). -/
def writeLinear (user : Bool) (l : Dword) (bs : List Byte) : M Unit := do
  let as ← physRange true user l bs.length
  noteAccess true l bs.length
  writePhys as bs

/-- An access the processor makes to a descriptor table or a TSS: supervisor whatever CPL is (20_memory.md R200). DESIGN
CHOICE (log 45): bit 2 of the error code of a page fault it raises at CPL 3 is 0, which R200 says and R653 does not. -/
def sysRead (l : Dword) (sz : Size) : M Dword := do
  let bs ← readLinear false l sz.bytes
  pure (leDword bs)

def sysWrite (l : Dword) (sz : Size) (v : Dword) : M Unit := writeLinear false l (leBytes sz.bytes v)

/-! Segment checks (20_memory.md R192). -/

/-- Type bit 3: code. -/
def SegReg.isCode (c : SegReg) : Bool := c.type.getLsbD 3

/-- Code with C = 1. -/
def SegReg.isConforming (c : SegReg) : Bool := c.type.getLsbD 3 && c.type.getLsbD 2

/-- Data with W = 1. -/
def SegReg.writable (c : SegReg) : Bool := !c.type.getLsbD 3 && c.type.getLsbD 1

/-- Data, or code with R = 1. -/
def SegReg.readable (c : SegReg) : Bool := !c.type.getLsbD 3 || c.type.getLsbD 1

/-- Data with E = 1. -/
def SegReg.expandDown (c : SegReg) : Bool := !c.type.getLsbD 3 && c.type.getLsbD 2

/-- The limit check of R192 for `n` bytes at `off`, without wrap-around. -/
def SegReg.limitOk (c : SegReg) (off : Dword) (n : Nat) : Bool :=
  if c.expandDown then
    decide (c.limit.toNat < off.toNat) && decide (off.toNat + n ≤ (if c.db then 2 ^ 32 else 2 ^ 16))
  else decide (off.toNat + n ≤ c.limit.toNat + 1)

/-- The rights check of R192, made when PE = 1 (log 34). -/
def SegReg.rightsOk (c : SegReg) (write : Bool) : Bool := c.valid && (if write then c.writable else c.readable)

/-- A reference of `n` bytes at `off` passes the checks of R192. -/
def State.segOk (s : State) (sr : SReg) (off : Dword) (n : Nat) (write : Bool) : Bool :=
  (s.seg sr).limitOk off n && (!s.cr0.pe || (s.seg sr).rightsOk write)

/-- Exception 12 for SS, else 13, error code 0. -/
def segFault (sr : SReg) : Exn := if sr = .ss then Exn.ss 0 else Exn.gp 0

def segCheck (sr : SReg) (off : Dword) (n : Nat) (write : Bool) : M Unit := fun s =>
  if s.segOk sr off n write then .ok () s else .error (.exn (segFault sr) .nothing) s

/-- The linear address of an offset (20_memory.md R101). -/
def State.linear (s : State) (sr : SReg) (off : Dword) : Dword := (s.seg sr).base + off

/-- The access is "user" when CPL = 3 (20_memory.md R200). -/
def State.isUser (s : State) : Bool := s.currentCpl == 3

/-- `MemRead(seg, off, n)` (20_memory.md R120). -/
def memRead (sr : SReg) (off : Dword) (sz : Size) : M Dword := do
  segCheck sr off sz.bytes false
  let s ← get
  let bs ← readLinear s.isUser (s.linear sr off) sz.bytes
  pure (leDword bs)

/-- `MemWrite(seg, off, n, v)` (20_memory.md R120). -/
def memWrite (sr : SReg) (off : Dword) (sz : Size) (v : Dword) : M Unit := do
  segCheck sr off sz.bytes true
  let s ← get
  writeLinear s.isUser (s.linear sr off) (leBytes sz.bytes v)

/-- A store of `n` bytes that `source` gives once the checks of the store have passed. -/
def storeFrom (sr : SReg) (off : Dword) (n : Nat) (source : M (List Byte)) : M Unit := do
  segCheck sr off n true
  let s ← get
  let l := s.linear sr off
  let as ← physRange true s.isUser l n
  let bs ← source
  noteAccess true l n
  writePhys as bs

end Sys2Proof.Machine
end

