-- ==== Sys2Proof/Machine/Segments.lean ====
section
/-! DEFINITION. Descriptors, segment register loads, the stack, transfers of control and the stack pointers of a TSS
(20_memory.md R190 to R197; 10_state.md R36; 45_control_transfer.md R485). -/

namespace Sys2Proof.Machine

/-! Selectors. -/

/-- RPL. -/
def rpl (sel : Word) : BitVec 2 := sel.extractLsb' 0 2

/-- A null selector: bits 15:2 are 0. -/
def isNull (sel : Word) : Bool := sel.extractLsb' 2 14 == 0

/-- TI = 1: the LDT. -/
def inLdt (sel : Word) : Bool := sel.getLsbD 2

/-- The offset of the descriptor in its table: index × 8. -/
def tableOffset (sel : Word) : Dword := (sel &&& 0xFFF8).setWidth 32

/-- The error code that names a selector: its low two bits replaced by (0, EXT) (60_exceptions.md R653). -/
def selCode (sel : Word) (ext : Bool) : Word := (sel &&& 0xFFFC) ||| (if ext then 1 else 0)

/-- The error code that is EXT alone. -/
def extCode (ext : Bool) : Word := if ext then 1 else 0

/-- `sel` with its RPL replaced. -/
def withRpl (sel : Word) (level : BitVec 2) : Word := (sel &&& 0xFFFC) ||| level.setWidth 16

/-! Descriptors (20_memory.md R195, R196). -/

/-- The eight bytes of a descriptor as two dwords. -/
structure Descriptor where
  lo : Dword
  hi : Dword
deriving DecidableEq, Repr

def Descriptor.type (d : Descriptor) : BitVec 4 := d.hi.extractLsb' 8 4
def Descriptor.isSegment (d : Descriptor) : Bool := d.hi.getLsbD 12
def Descriptor.dpl (d : Descriptor) : BitVec 2 := d.hi.extractLsb' 13 2
def Descriptor.present (d : Descriptor) : Bool := d.hi.getLsbD 15
def Descriptor.granular (d : Descriptor) : Bool := d.hi.getLsbD 23
def Descriptor.db (d : Descriptor) : Bool := d.hi.getLsbD 22
def Descriptor.base (d : Descriptor) : Dword := d.hi.extractLsb' 24 8 ++ d.hi.extractLsb' 0 8 ++ d.lo.extractLsb' 16 16
/-- The 20-bit limit field. -/
def Descriptor.rawLimit (d : Descriptor) : BitVec 20 := d.hi.extractLsb' 16 4 ++ d.lo.extractLsb' 0 16
/-- The limit scaled by G. -/
def Descriptor.limit (d : Descriptor) : Dword :=
  if d.granular then d.rawLimit ++ 0xFFF#12 else d.rawLimit.setWidth 32

def Descriptor.isCode (d : Descriptor) : Bool := d.isSegment && d.type.getLsbD 3
def Descriptor.isConforming (d : Descriptor) : Bool := d.isCode && d.type.getLsbD 2
def Descriptor.isData (d : Descriptor) : Bool := d.isSegment && !d.type.getLsbD 3
def Descriptor.isWritableData (d : Descriptor) : Bool := d.isData && d.type.getLsbD 1
def Descriptor.isReadableCode (d : Descriptor) : Bool := d.isCode && d.type.getLsbD 1
/-- A system segment or gate of type `t`. -/
def Descriptor.isSystem (d : Descriptor) (t : BitVec 4) : Bool := !d.isSegment && d.type == t

/-- A gate's selector. -/
def Descriptor.gateSelector (d : Descriptor) : Word := d.lo.extractLsb' 16 16
/-- Bit 3 of a gate's or a TSS's type: 386. -/
def Descriptor.is386 (d : Descriptor) : Bool := d.type.getLsbD 3
/-- A gate's offset: 16 bits zero-extended for a 286 gate. -/
def Descriptor.gateOffset (d : Descriptor) : Dword :=
  if d.is386 then d.hi.extractLsb' 16 16 ++ d.lo.extractLsb' 0 16 else (d.lo.extractLsb' 0 16).setWidth 32
/-- A call gate's parameter count. -/
def Descriptor.gateCount (d : Descriptor) : Nat := (d.hi.extractLsb' 0 5).toNat
/-- An available TSS: type 1 or 9. -/
def Descriptor.isAvailableTss (d : Descriptor) : Bool := d.isSystem 1 || d.isSystem 9
/-- A busy TSS: type 3 or 11. -/
def Descriptor.isBusyTss (d : Descriptor) : Bool := d.isSystem 3 || d.isSystem 11

/-- The cache loaded from a descriptor (10_state.md R52). -/
def Descriptor.cache (d : Descriptor) (sel : Word) : SegReg :=
  { selector := sel, base := d.base, limit := d.limit, valid := true, dpl := d.dpl, type := d.type, db := d.db }

/-- Base of the descriptor table a selector names. -/
def State.tableBase (s : State) (sel : Word) : Dword := if inLdt sel then s.ldtr.base else s.gdtr.base

/-- index × 8 + 7 is inside the table (20_memory.md R190). -/
def State.inTable (s : State) (sel : Word) : Bool :=
  if inLdt sel then s.ldtr.valid && decide ((tableOffset sel).toNat + 7 ≤ s.ldtr.limit.toNat)
  else decide ((tableOffset sel).toNat + 7 ≤ s.gdtr.limit.toNat)

/-- The linear address of a selector's descriptor. -/
def State.descriptorAt (s : State) (sel : Word) : Dword := s.tableBase sel + tableOffset sel

/-- Eight bytes at a linear address, read by the processor. -/
def readDescriptorAt (l : Dword) : M Descriptor := do
  let bs ← readLinear false l 8
  pure { lo := leDword (bs.take 4), hi := leDword (bs.drop 4) }

/-- `ReadDescriptor(sel)` (20_memory.md R190): `outside` is what a selector outside its table raises. -/
def readDescriptor (sel : Word) (outside : Exn) : M Descriptor := do
  let s ← get
  raiseIf (!s.inTable sel) outside
  readDescriptorAt (s.descriptorAt sel)

/-- Set the Accessed bit of a code or data descriptor in its table if it is clear. DESIGN CHOICE (log 44): the write is of
the one byte that holds the bit, byte 5, a width that R190 does not give. -/
def setAccessed (sel : Word) (d : Descriptor) : M Unit := do
  let s ← get
  if d.type.getLsbD 0 then pure ()
  else sysWrite (s.descriptorAt sel + 5) .b8 ((d.hi >>> 8) ||| 1)

/-- Write the type byte of a system descriptor with its busy bit (type bit 1) set or clear. DESIGN CHOICE (log 44): that byte
alone is written, a width that the spec does not give. -/
def writeBusy (sel : Word) (d : Descriptor) (busy : Bool) : M Unit := do
  let s ← get
  let byte := d.hi >>> 8
  sysWrite (s.descriptorAt sel + 5) .b8 (if busy then byte ||| 2 else byte &&& 0xFFFFFFFD)

/-! Segment register loads. -/

/-- A write of a segment register. -/
def setSegReg (sr : SReg) (v : SegReg) : M Unit := modify fun s => s.setSeg sr v

/-- The 8086 segment load (20_memory.md R191; 10_state.md R52): in Virtual 8086 Mode also limit FFFFH and rights
read/write data, DPL 3. -/
def State.load8086 (s : State) (sr : SReg) (v : Word) : State :=
  let old := s.seg sr
  let base : Dword := v.setWidth 32 <<< 4
  if s.cr0.pe then
    s.setSeg sr { selector := v, base := base, limit := 0xFFFF, valid := true, dpl := 3, type := 3, db := false }
  else s.setSeg sr { old with selector := v, base := base }

/-- A null selector in a data segment register (20_memory.md R190). -/
def State.loadNull (s : State) (sr : SReg) (sel : Word) : State :=
  s.setSeg sr { s.seg sr with selector := sel, valid := false }

/-- The SS half of `Load(sreg, sel)` (20_memory.md R190) at privilege level `cpl`, with the exceptions its callers name:
`bad` for a selector or descriptor that may not be used, `missing` for a descriptor that is not present. -/
def loadStackSegment (cpl : BitVec 2) (sel : Word) (null bad missing : Exn) : M Descriptor := do
  raiseIf (isNull sel) null
  let d ← readDescriptor sel bad
  raiseIf (rpl sel != cpl || d.dpl != cpl || !d.isWritableData) bad
  raiseIf (!d.present) missing
  pure d

/-- The DS, ES, FS, GS half, for a selector that is not null. -/
def loadDataSegment (cpl : BitVec 2) (sel : Word) (bad missing : Exn) : M Descriptor := do
  let d ← readDescriptor sel bad
  raiseIf (!d.isData && !d.isReadableCode) bad
  raiseIf (!d.isConforming && (decide (d.dpl < rpl sel) || decide (d.dpl < cpl))) bad
  raiseIf (!d.present) missing
  pure d

/-- `Load(sreg, sel)` in Protected Mode (20_memory.md R190). -/
def loadSegProtected (sr : SReg) (sel : Word) : M Unit := do
  let s ← get
  let gp := Exn.gp (selCode sel false)
  if sr = .ss then do
    let d ← loadStackSegment s.currentCpl sel (Exn.gp 0) gp (Exn.ss (selCode sel false))
    setAccessed sel d
    setSegReg .ss (d.cache sel)
  else if isNull sel then modify fun s => s.loadNull sr sel
  else do
    let d ← loadDataSegment s.currentCpl sel gp (Exn.np (selCode sel false))
    setAccessed sel d
    setSegReg sr (d.cache sel)

/-- A segment register load in the current mode (10_state.md R51). -/
def loadSeg (sr : SReg) (sel : Word) : M Unit := do
  let s ← get
  if s.protectedMode then loadSegProtected sr sel else modify fun s => s.load8086 sr sel

/-! The stack (10_state.md R36). -/

/-- SPx. -/
def State.sp (s : State) : Dword := s.reg s.stackSize .esp

/-- `SPx + k` at the width of SPx. -/
def State.spPlus (s : State) (k : Dword) : Dword := trunc s.stackSize (s.sp + k)

/-- A write of SPx: with SP the upper half of ESP is unchanged. -/
def State.setSp (s : State) (v : Dword) : State := s.setReg s.stackSize .esp v

/-- An item of `n` bytes at offset `p` of the stack would wrap the segment in Real Mode, where the segment ends at offset
FFFFH (10_state.md R36). -/
def State.wrapsStack (s : State) (p : Dword) (n : Nat) : Bool := !s.cr0.pe && decide (65536 < p.toNat + n)

/-- `Push(v, sz)`. In Real Mode an item that would wrap the segment cannot be pushed, whatever limit SS has kept from
Protected Mode (10_state.md R36, R52): a stack fault, which with SP = 1 cannot be delivered on that stack and so shuts the
processor down (60_exceptions.md R690). DEDUCED (log 35): a dword with SP = 2 or 3, which would wrap too, raises the same
stack fault. -/
def push (sz : Size) (v : Dword) : M Unit := do
  let s ← get
  let p := s.spPlus (-(BitVec.ofNat 32 sz.bytes))
  raiseIf (s.wrapsStack p sz.bytes) (Exn.ss 0)
  memWrite .ss p sz v
  modify fun s => s.setSp p

/-- `Pop(sz)`. -/
def pop (sz : Size) : M Dword := do
  let s ← get
  let v ← memRead .ss s.sp sz
  modify fun s => s.setSp (s.spPlus (BitVec.ofNat 32 sz.bytes))
  pure v

/-- The top `n` bytes of the stack are inside the SS limits, else #SS(0) (45_control_transfer.md R502). DESIGN CHOICE
(log 49): they are counted up from SS:(E)SP without wrapping at 16 bits. -/
def checkStackTop (n : Nat) : M Unit := do
  let s ← get
  segCheck .ss s.sp n false

/-- The value `k` bytes above the top of the stack. DESIGN CHOICE (log 49): SS:(E)SP + k does not wrap at 16 bits. -/
def stackAt (k : Nat) (sz : Size) : M Dword := do
  let s ← get
  memRead .ss (s.sp + BitVec.ofNat 32 k) sz

/-- `n` pushes of size `sz` all pass the segment checks of SS. -/
def State.pushesFit (s : State) (sz : Size) : Nat → Bool
  | 0 => true
  | n + 1 => s.segOk .ss (s.spPlus (-(BitVec.ofNat 32 (sz.bytes * (n + 1))))) sz.bytes true && s.pushesFit sz n

/-- The stack has room for `n` items of size `sz`, else #SS(0) (60_exceptions.md R671). -/
def checkRoom (sz : Size) (n : Nat) : M Unit := fun s =>
  if s.pushesFit sz n then .ok () s else .error (.exn (Exn.ss 0) .nothing) s

/-- Push a list of values, the first one first. -/
def pushAll (sz : Size) : List Dword → M Unit
  | [] => pure ()
  | v :: rest => do
    push sz v
    pushAll sz rest

/-! Stack memory spoiled by a multi-word push that faults (D2 b, U17; log 26). -/

/-- The `n` bytes below offset `sp` of the stack become free values; a byte that has no address is left. -/
def State.spoil (s : State) (sp : Dword) : Nat → State
  | 0 => s
  | n + 1 =>
    let off := trunc s.stackSize (sp - BitVec.ofNat 32 (n + 1))
    let s1 : State :=
      match s.peekPhys (s.linear .ss off) with
      | some a =>
        { s with
          mem := writeCell s.isFixed s.mem a.toNat ((Config.freeDword s.draws).setWidth 8)
          draws := s.draws + 1 }
      | none => s
    s1.spoil sp n

/-- Run the pushes `m` of `n` bytes in all onto the stack of the present state. If they fault after at least one push, the
bytes below the stack pointer that the instruction could have written are free; nothing else of it stays. A fault of the
first push has changed no memory (40_data_transfer.md R300, D2 b). DESIGN CHOICE (logs 26, 27): where bytes are made free,
the A bits that earlier page walks of the instruction or delivery have set stay set, since memory is then as at the start of
the pushes. -/
def spoiling {α : Type} (n : Nat) (m : M α) : M α := fun s =>
  match m s with
  | .ok a s' => .ok a s'
  | .error (.exn e .nothing) s' =>
    if s'.regs.esp = s.regs.esp then .error (.exn e .nothing) s'
    else .error (.exn e .memory) ({ s with draws := s'.draws, deviceBus := s'.deviceBus }.spoil s.sp n)
  | .error e s' => .error e s'

/-! Transfers of control (45_control_transfer.md R480, R481). -/

/-- `pc <- target` by a taken transfer: it discards the prefetch queue (70_reset_and_hazards.md R775). -/
def State.jumpTo (s : State) (target : Dword) : State :=
  { s with eip := target, eipOver := false, stale := [], queued := [] }

/-- A near transfer: the target must not exceed the CS limit, else #GP(0) (R480). -/
def nearTarget (target : Dword) : M Unit := do
  let s ← get
  raiseIf (decide (s.cs.limit.toNat < target.toNat)) (Exn.gp 0)

/-- CS and EIP loaded together. -/
def setCodeSegment (cs : SegReg) (target : Dword) : M Unit :=
  modify fun s => (s.setSeg .cs cs).jumpTo target

/-- A write of CPL. -/
def setCpl (level : BitVec 2) : M Unit := modify fun s => { s with cpl := level }

/-! The inner stack pointers of the current TSS (45_control_transfer.md R485). -/

/-- The type bit that tells a 386 TSS. -/
def SegReg.is386 (c : SegReg) : Bool := c.type.getLsbD 3

/-- A field of the current TSS; beyond its limit #TS(TR.selector). DEDUCED (log 30): so it is while TR has never been
loaded, for which R485 names no exception. -/
def tssField (off : Dword) (sz : Size) (ext : Bool) : M Dword := do
  let s ← get
  raiseIf (!s.tr.valid || decide (s.tr.limit.toNat < off.toNat + sz.bytes - 1)) (Exn.ts (selCode s.tr.selector ext))
  sysRead (s.tr.base + off) sz

/-- SS and ESP for level `level` from the current TSS, with the descriptor of SS. DESIGN CHOICE (log 55): the 16-bit SP of
a 286 TSS is zero-extended to ESP, of whose upper half R485 does not speak. -/
def innerStack (level : BitVec 2) (ext : Bool) : M (Word × Dword × Descriptor) := do
  let s ← get
  let n : Dword := level.setWidth 32
  let sp ← if s.tr.is386 then tssField (4 + 8 * n) .b32 ext else tssField (2 + 4 * n) .b16 ext
  let sel ← if s.tr.is386 then tssField (8 + 8 * n) .b16 ext else tssField (4 + 4 * n) .b16 ext
  let sel : Word := sel.setWidth 16
  let ts := Exn.ts (selCode sel ext)
  let d ← loadStackSegment level sel ts ts (Exn.ss (selCode sel ext))
  pure (sel, sp, d)

/-- SS:ESP of an inner level loaded; the stack pointer is written whole (log 55). -/
def switchStack (sel : Word) (sp : Dword) (d : Descriptor) : M Unit :=
  modify fun s => (s.setSeg .ss (d.cache sel)).setReg .b32 .esp sp

end Sys2Proof.Machine
end

