-- ==== Sys2Proof/Machine/Operands.lean ====
section
/-! DEFINITION. Operands: effective addresses (30_encoding.md R250 to R256), register and memory operands, immediates,
displacements and far pointers (R258, R266, R267). -/

namespace Sys2Proof.Machine

/-- Where an operand is. -/
inductive Loc
  | reg (r : Reg)
  | mem (sr : SReg) (off : Dword)
deriving DecidableEq, Repr

/-- Is BP, EBP or ESP the base? Then the default segment is SS, else DS (20_memory.md R185). -/
def MemOp.defaultSeg : MemOp → SReg
  | .a16 .bpSi _ => .ss
  | .a16 .bpDi _ => .ss
  | .a16 .bp _ => .ss
  | .a16 _ _ => .ds
  | .abs16 _ => .ds
  | .a32 .esp _ => .ss
  | .a32 .ebp _ => .ss
  | .a32 _ _ => .ds
  | .abs32 _ => .ds
  | .sib .esp _ _ _ => .ss
  | .sib .ebp _ _ _ => .ss
  | .sib _ _ _ _ => .ds
  | .sibAbs _ _ _ => .ds

/-- A segment override prefix replaces the default segment (30_encoding.md R228). -/
def State.overridden (s : State) (default : SReg) : SReg := s.pfx.seg.getD default

/-- The base and index part of a 16-bit address, before truncation (30_encoding.md R251). -/
def Regs.base16 (g : Regs) : Base16 → Dword
  | .bxSi => g.ebx + g.esi
  | .bxDi => g.ebx + g.edi
  | .bpSi => g.ebp + g.esi
  | .bpDi => g.ebp + g.edi
  | .si => g.esi
  | .di => g.edi
  | .bp => g.ebp
  | .bx => g.ebx

/-- A displacement, sign-extended (30_encoding.md R267). -/
def dispValue16 : Disp16 → Dword
  | .none => 0
  | .d8 v => v.signExtend 32
  | .d16 v => v.signExtend 32

def dispValue32 : Disp32 → Dword
  | .none => 0
  | .d8 v => v.signExtend 32
  | .d32 v => v

def scaleShift : Scale → Nat
  | .x1 => 0
  | .x2 => 1
  | .x4 => 2
  | .x8 => 3

/-- (scaled index), 0 with no index register (30_encoding.md R254). -/
def Regs.scaledIndex (g : Regs) (scale : Scale) : Option Reg → Dword
  | none => 0
  | some r => g.get r <<< scaleShift scale

/-- The offset of a memory operand (30_encoding.md R256). -/
def Regs.offset (g : Regs) : MemOp → Dword
  | .a16 base disp => trunc .b16 (g.base16 base + dispValue16 disp)
  | .abs16 d => d.setWidth 32
  | .a32 base disp => g.get base + dispValue32 disp
  | .abs32 d => d
  | .sib base scale index disp => g.get base + g.scaledIndex scale index + dispValue32 disp
  | .sibAbs scale index d => g.scaledIndex scale index + d

/-- An s-i-b byte with index = 100 and ss ≠ 00: the effective address is undefined (30_encoding.md R254, U4). -/
def MemOp.undefinedAddress : MemOp → Bool
  | .sib _ scale none _ => scale != .x1
  | .sibAbs scale none _ => scale != .x1
  | _ => false

/-- The effective address: segment and offset. Where the spec calls it undefined the offset is a free value (log 16). -/
def effectiveAddress (m : MemOp) : M (SReg × Dword) := fun s =>
  let sr := s.overridden (MemOp.defaultSeg m)
  if MemOp.undefinedAddress m then .ok (sr, Config.freeDword s.draws) { s with draws := s.draws + 1 }
  else .ok (sr, s.regs.offset m) s

/-- The operand is in memory. -/
def RM.isMem : RM → Bool
  | .reg _ => false
  | .mem _ => true

/-- Where an r/m operand is (30_encoding.md R258). -/
def resolve (rm : RM) : M Loc := fun s =>
  match rm with
  | .reg r => .ok (.reg r) s
  | .mem m =>
    match effectiveAddress m s with
    | .ok a s' => .ok (.mem a.1 a.2) s'
    | .error e s' => .error e s'

/-- Read an operand at a size, zero-extended. -/
def readLoc (sz : Size) (l : Loc) : M Dword := fun s =>
  match l with
  | .reg r => .ok (s.reg sz r) s
  | .mem sr off => memRead sr off sz s

/-- Read an operand that is to be written back: the segment checks of the write come first, then the page checks
(60_exceptions.md R657 step 6; log 37). -/
def readToUpdate (sz : Size) (l : Loc) : M Dword := do
  match l with
  | .reg _ => pure ()
  | .mem sr off => segCheck sr off sz.bytes true
  readLoc sz l

/-- Write an operand at a size. -/
def writeLoc (sz : Size) (l : Loc) (v : Dword) : M Unit := fun s =>
  match l with
  | .reg r => .ok () (s.setReg sz r v)
  | .mem sr off => memWrite sr off sz v s

/-- Read an r/m operand. -/
def readRm (sz : Size) (rm : RM) : M Dword := do
  let l ← resolve rm
  readLoc sz l

/-- Write a general register. -/
def writeReg (sz : Size) (r : Reg) (v : Dword) : M Unit := fun s => .ok () (s.setReg sz r v)

/-- The value of an immediate in an operand of size `sz`: 8 bits are sign-extended to a larger operand (30_encoding.md
R246, R267). -/
def immValue (sz : Size) : Imm → Dword
  | .i8 v => trunc sz (v.signExtend 32)
  | .i16 v => trunc sz (v.setWidth 32)
  | .i32 v => trunc sz v

/-- A displacement relative to the next instruction, sign-extended. -/
def relDisp : Off → Dword
  | .o16 v => v.signExtend 32
  | .o32 v => v

/-- An unsigned offset. -/
def absOffset : Off → Dword
  | .o16 v => v.setWidth 32
  | .o32 v => v

/-- The target of a relative transfer (45_control_transfer.md R480): with osz = 16 its upper half is zero. `s.eip` is
the next instruction's. -/
def State.relTarget (s : State) (disp : Dword) : Dword := trunc s.osz (s.eip + disp)

/-- A far pointer in memory: an offset of osz bits, then a selector (40_data_transfer.md R322). Its whole length is
checked first (log 39). -/
def readFarPointer (m : MemOp) : M (Dword × Word) := do
  let (sr, off) ← effectiveAddress m
  let s ← get
  let k := s.osz.bytes
  segCheck sr off (k + 2) false
  let target ← memRead sr off s.osz
  let sel ← memRead sr (off + BitVec.ofNat 32 k) .b16
  pure (target, sel.setWidth 16)

end Sys2Proof.Machine
end

