-- ==== Sys2Proof/Machine/Task.lean ====
section
/-! DEFINITION. The task switch (60_exceptions.md R720 to R722; TSS layouts 20_memory.md R197; log 30). -/

namespace Sys2Proof.Machine

/-- What causes a task switch (R721). -/
inductive TaskKind
  | jmp
  | call
  | int
  | iret
deriving DecidableEq, Repr

/-- CALL and INT nest the new task. -/
def TaskKind.nests : TaskKind → Bool
  | .call => true
  | .int => true
  | _ => false

/-- JMP and IRET leave the old task available. -/
def TaskKind.releases : TaskKind → Bool
  | .jmp => true
  | .iret => true
  | _ => false

/-- A selector as a value to store. -/
def selValue (sel : Word) : Dword := sel.setWidth 32

/-- The dynamic fields of a 386 TSS with the values saved in them, in the order of R721 step 2 (20_memory.md R176). -/
def State.fields386 (s : State) (eip flags : Dword) : List (Nat × Size × Dword) :=
  [(0x28, .b32, s.regs.eax), (0x2C, .b32, s.regs.ecx), (0x30, .b32, s.regs.edx),
   (0x34, .b32, s.regs.ebx), (0x38, .b32, s.regs.esp), (0x3C, .b32, s.regs.ebp), (0x40, .b32, s.regs.esi),
   (0x44, .b32, s.regs.edi), (0x48, .b16, selValue s.es.selector), (0x4C, .b16, selValue s.cs.selector),
   (0x50, .b16, selValue s.ss.selector), (0x54, .b16, selValue s.ds.selector), (0x58, .b16, selValue s.fs.selector),
   (0x5C, .b16, selValue s.gs.selector), (0x24, .b32, flags), (0x20, .b32, eip)]

/-- The dynamic fields of a 286 TSS, in that order. -/
def State.fields286 (s : State) (eip flags : Dword) : List (Nat × Size × Dword) :=
  [(0x12, .b16, s.regs.eax), (0x14, .b16, s.regs.ecx), (0x16, .b16, s.regs.edx),
   (0x18, .b16, s.regs.ebx), (0x1A, .b16, s.regs.esp), (0x1C, .b16, s.regs.ebp), (0x1E, .b16, s.regs.esi),
   (0x20, .b16, s.regs.edi), (0x22, .b16, selValue s.es.selector), (0x24, .b16, selValue s.cs.selector),
   (0x26, .b16, selValue s.ss.selector), (0x28, .b16, selValue s.ds.selector), (0x10, .b16, flags), (0x0E, .b16, eip)]

/-- Store fields of a TSS whose base is `base`. -/
def writeFields (base : Dword) : List (Nat × Size × Dword) → M Unit
  | [] => pure ()
  | (off, sz, v) :: rest => do
    sysWrite (base + BitVec.ofNat 32 off) sz v
    writeFields base rest

/-- From here on an exception is taken in the new task (R722). -/
def committed {α : Type} (m : M α) : M α := fun s =>
  match m s with
  | .ok a s' => .ok a s'
  | .error (.exn e _) s' => .error (.exn e .everything) s'
  | .error e s' => .error e s'

/-- A register whose selector is loaded and not yet validated. -/
def SegReg.unchecked (c : SegReg) (sel : Word) : SegReg := { c with selector := sel, valid := false }

/-- Every segment register, and LDTR, keeps its selector and is not valid. -/
def State.uncheckAll (s : State) : State :=
  { s with
    ldtr := s.ldtr.unchecked s.ldtr.selector
    es := s.es.unchecked s.es.selector
    cs := s.cs.unchecked s.cs.selector
    ss := s.ss.unchecked s.ss.selector
    ds := s.ds.unchecked s.ds.selector
    fs := s.fs.unchecked s.fs.selector
    gs := s.gs.unchecked s.gs.selector }

/-- Step 6 of R721: TR and CR0.TS. The old task's segments are no longer in use (log 30), nor is its prefetch queue. -/
def State.startTask (s : State) (ns : Word) (nd : Descriptor) : State :=
  { s.uncheckAll with tr := nd.cache ns, cr0 := { s.cr0 with ts := true }, stale := [], queued := [] }

/-! Step 7: the fields of the new TSS are read one after the other, each under what has been loaded before it. -/

/-- Load the field at `off` of the TSS at `base`. -/
def loadField (base : Dword) (off : Nat) (sz : Size) (put : State → Dword → State) : M Unit := do
  let v ← sysRead (base + BitVec.ofNat 32 off) sz
  modify fun s => put s v

/-- A selector, not yet validated. -/
def State.putSelector (s : State) (sr : SReg) (sel : Word) : State := s.setSeg sr ((s.seg sr).unchecked sel)

def State.putLdt (s : State) (sel : Word) : State := { s with ldtr := s.ldtr.unchecked sel }

/-- General registers of a 386 TSS. -/
def loadRegs386 (base : Dword) : List (Nat × Reg) → M Unit
  | [] => pure ()
  | (off, r) :: rest => do
    loadField base off .b32 fun s v => s.setReg .b32 r v
    loadRegs386 base rest

/-- General registers of a 286 TSS: their upper halves are undefined (U14). -/
def loadRegs286 (base : Dword) : List (Nat × Reg) → M Unit
  | [] => pure ()
  | (off, r) :: rest => do
    let u ← freeDword
    loadField base off .b16 fun s v => s.setReg .b32 r (mergeWord u (v.setWidth 16))
    loadRegs286 base rest

/-- Selectors of segment registers. -/
def loadSelectors (base : Dword) : List (Nat × SReg) → M Unit
  | [] => pure ()
  | (off, sr) :: rest => do
    loadField base off .b16 fun s v => s.putSelector sr (v.setWidth 16)
    loadSelectors base rest

/-- The new task's entry EIP, the field of size `sz` at linear address `l`, as memory holds it: the processor has not
read it yet. DESIGN CHOICE (log 30): where a byte of it cannot be read, as its page is not present or no memory answers, it
is a free value. -/
def State.entryEip (s : State) (l : Dword) (sz : Size) : Dword :=
  match (linearRange l sz.bytes).mapM s.peekPhys with
  | none => trunc sz (Config.freeDword s.draws)
  | some as =>
    if as.any fun a => s.isDevice a || s.isAbsent a then trunc sz (Config.freeDword s.draws)
    else leDword (as.map s.readByte)

/-- Fields of the image that come before EIP, which is the field of size `sz` at linear address `l`: an exception here
saves the new task's entry EIP too (R722). -/
def beforeEntry (l : Dword) (sz : Size) (m : M Unit) : M Unit := fun s =>
  match m s with
  | .ok a s' => .ok a s'
  | .error (.exn e keep) s' =>
    .error (.exn e keep) { s' with eip := s'.entryEip l sz, eipOver := false, draws := s'.draws + 1 }
  | .error e s' => .error e s'

/-- CR3 is loaded only if paging is enabled. -/
def loadImage386 (base : Dword) : M Unit := do
  let s ← get
  beforeEntry (base + 0x20) .b32 do
    if s.cr0.pg then loadField base 0x1C .b32 State.setCr3 else pure ()
    loadField base 0x60 .b16 fun s v => s.putLdt (v.setWidth 16)
    loadField base 0x24 .b32 fun s v => s.setFlags (Eflags.ofWord v)
    loadField base 0x20 .b32 State.jumpTo
  loadRegs386 base [(0x28, .eax), (0x2C, .ecx), (0x30, .edx), (0x34, .ebx), (0x38, .esp), (0x3C, .ebp), (0x40, .esi),
    (0x44, .edi)]
  loadSelectors base [(0x48, .es), (0x4C, .cs), (0x50, .ss), (0x54, .ds), (0x58, .fs), (0x5C, .gs)]

/-- A 286 TSS has no CR3; FS and GS become null, the upper halves of EIP and EFLAGS zero. -/
def loadImage286 (base : Dword) : M Unit := do
  beforeEntry (base + 0x0E) .b16 do
    loadField base 0x2A .b16 fun s v => s.putLdt (v.setWidth 16)
    loadField base 0x10 .b16 fun s v => s.setFlags (Eflags.ofWord v)
    loadField base 0x0E .b16 State.jumpTo
  loadRegs286 base [(0x12, .eax), (0x14, .ecx), (0x16, .edx), (0x18, .ebx), (0x1A, .esp), (0x1C, .ebp), (0x1E, .esi),
    (0x20, .edi)]
  loadSelectors base [(0x22, .es), (0x24, .cs), (0x26, .ss), (0x28, .ds)]
  modify fun s => (s.putSelector .fs 0).putSelector .gs 0

/-- Step 8: CALL and INT set NT. -/
def State.nestTask (s : State) (kind : TaskKind) : State :=
  if kind.nests then s.setFlags { s.eflags with nt := true } else s

/-- Step 9: LDTR is null or names a present LDT in the GDT, else #TS. -/
def loadTaskLdt (sel : Word) (ext : Bool) : M Unit :=
  if isNull sel then pure ()
  else do
    let ts := Exn.ts (selCode sel ext)
    raiseIf (inLdt sel) ts
    let d ← readDescriptor sel ts
    raiseIf (!d.isSystem 2 || !d.present) ts
    modify fun s => { s with ldtr := d.cache sel }

/-- Step 10 for DS, ES, FS, GS. -/
def loadTaskData (cpl : BitVec 2) (sr : SReg) (sel : Word) (ext : Bool) : M Unit :=
  if isNull sel then pure ()
  else do
    let d ← loadDataSegment cpl sel (Exn.ts (selCode sel ext)) (Exn.np (selCode sel ext))
    setAccessed sel d
    setSegReg sr (d.cache sel)

/-- Step 10 with VM = 0. -/
def loadTaskSegments (ext : Bool) : M Unit := do
  let s ← get
  let cs := s.cs.selector
  let tsCs := Exn.ts (selCode cs ext)
  raiseIf (isNull cs) tsCs
  let c ← readDescriptor cs tsCs
  raiseIf (!c.isCode) tsCs
  raiseIf (!c.present) (Exn.np (selCode cs ext))
  raiseIf (if c.isConforming then decide (rpl cs < c.dpl) else c.dpl != rpl cs) tsCs
  setAccessed cs c
  setSegReg .cs (c.cache cs)
  setCpl (rpl cs)
  let ss := s.ss.selector
  let tsSs := Exn.ts (selCode ss ext)
  let d ← loadStackSegment (rpl cs) ss tsSs tsSs (Exn.ss (selCode ss ext))
  setAccessed ss d
  setSegReg .ss (d.cache ss)
  loadTaskData (rpl cs) .ds s.ds.selector ext
  loadTaskData (rpl cs) .es s.es.selector ext
  loadTaskData (rpl cs) .fs s.fs.selector ext
  loadTaskData (rpl cs) .gs s.gs.selector ext

/-- Step 10 with VM = 1: all six segment registers 8086-style, CPL 3. -/
def State.loadTask8086 (s : State) : State :=
  { ((((((s.load8086 .es s.es.selector).load8086 .cs s.cs.selector).load8086 .ss s.ss.selector).load8086 .ds
      s.ds.selector).load8086 .fs s.fs.selector).load8086 .gs s.gs.selector) with cpl := 3 }

/-- Step 11: L0 to L3 and LE are cleared, and a T bit of 1 makes a debug trap pend. -/
def State.noteTask (s : State) (trap : Bool) : State :=
  { s with
    dr7 := s.dr7 &&& 0xFFFFFEAA
    pendingDb := s.pendingDb ||| (if trap then 0x8000 else 0) }

/-- Step 11: the T bit is bit 0 at 64H of a 386 TSS. -/
def noteTrap (nd : Descriptor) : M Unit := do
  if nd.is386 then loadField nd.base 0x64 .b16 fun s v => s.noteTask (v.getLsbD 0)
  else modify fun s => s.noteTask false

/-- Steps 6 to 12 of R721. -/
def enterTask (kind : TaskKind) (ns : Word) (nd : Descriptor) (ext : Bool) : M Unit := do
  modify fun s => s.startTask ns nd
  if nd.is386 then loadImage386 nd.base else loadImage286 nd.base
  modify fun s => s.nestTask kind
  let s ← get
  loadTaskLdt s.ldtr.selector ext
  if s.eflags.vm then modify fun s => s.loadTask8086 else loadTaskSegments ext
  noteTrap nd
  let s ← get
  raiseIf (decide (s.cs.limit.toNat < s.eip.toNat)) (Exn.gp 0)

/-- Steps 1 to 5 of R721. `saveEip` is the EIP saved in the old task. -/
def leaveTask (kind : TaskKind) (ns : Word) (nd : Descriptor) (saveEip : Dword) (ext : Bool) : M Unit := do
  let s ← get
  raiseIf (decide (nd.limit.toNat < (if nd.is386 then 0x67 else 0x2B))) (Exn.ts (selCode ns ext))
  raiseIf (!s.tr.valid) (Exn.ts (selCode s.tr.selector ext))
  let flags := if kind = .iret then { s.eflags with nt := false } else s.eflags
  writeFields s.tr.base
    (if s.tr.is386 then s.fields386 saveEip flags.word else s.fields286 saveEip flags.word)
  if kind.releases then do
    let old ← readDescriptorAt (s.descriptorAt s.tr.selector)
    writeBusy s.tr.selector old false
  else pure ()
  if kind.nests then sysWrite nd.base .b16 (selValue s.tr.selector) else pure ()
  if kind = .iret then pure () else writeBusy ns nd true

/-- The task switch of R721 to the TSS that `ns` names, with descriptor `nd`. -/
def taskSwitch (kind : TaskKind) (ns : Word) (nd : Descriptor) (saveEip : Dword) (ext : Bool) : M Unit := do
  leaveTask kind ns nd saveEip ext
  committed (enterTask kind ns nd ext)

end Sys2Proof.Machine
end

