-- ==== Sys2Proof/Machine/Ops.lean ====
section
/-! DEFINITION. Taking an interrupt or exception (60_exceptions.md R650 to R690), returning from one (R685, R686), and
how an instruction ends. -/

namespace Sys2Proof.Machine

/-! What is delivered. -/

/-- An interrupt or exception to deliver. -/
structure Event where
  vector : Byte
  errorCode : Option Word
  /-- INT n, INT 3, INTO (R670). -/
  software : Bool
  /-- The chain of events began with a hardware interrupt (R653). -/
  ext : Bool
  savedEip : Dword
  /-- The pushed EFLAGS image has RF = 1 (R675). -/
  rfImage : Bool
  /-- Raised by the processor: only then do the classes of R655 apply. -/
  exception : Bool
deriving DecidableEq, Repr

/-- An exception as an event of the instruction at `savedEip`. -/
def Exn.event (e : Exn) (savedEip : Dword) (ext : Bool) : Event :=
  { vector := e.vector, errorCode := e.errorCode, software := false, ext := ext, savedEip := savedEip,
    rfImage := e.rfImage, exception := true }

/-- A software interrupt (46_interrupt.md R561). -/
def softwareEvent (vector : Byte) (savedEip : Dword) : Event :=
  { vector := vector, errorCode := none, software := true, ext := false, savedEip := savedEip, rfImage := false,
    exception := false }

/-- NMI or INTR (R660, R661). -/
def hardwareEvent (vector : Byte) (savedEip : Dword) : Event :=
  { vector := vector, errorCode := none, software := false, ext := true, savedEip := savedEip, rfImage := false,
    exception := false }

/-- The EFLAGS image an event saves (R675). -/
def Event.image (ev : Event) (f : Eflags) : Dword := if ev.rfImage then { f with rf := true }.word else f.word

/-! Real Mode (R665). -/

/-- RF is cleared by INT n, INT 3 and INTO, which are instructions that complete (R730). -/
def deliverReal (ev : Event) : M Unit := do
  let s ← get
  let slot := 4 * ev.vector.toNat
  raiseIf (decide (s.idtr.limit.toNat < slot + 3)) Exn.dfault
  spoiling 6 (pushAll .b16 [s.eflags.word, selValue s.cs.selector, ev.savedEip])
  modify fun s => { s with eflags := { s.eflags with ifl := false, tf := false, rf := s.eflags.rf && !ev.software } }
  let off ← sysRead (s.idtr.base + BitVec.ofNat 32 slot) .b16
  let sel ← sysRead (s.idtr.base + BitVec.ofNat 32 (slot + 2)) .b16
  modify fun s => (s.load8086 .cs (sel.setWidth 16)).jumpTo off

/-! Protected and Virtual 8086 Mode (R670 to R682). -/

/-- The 386 interrupt gate's type number (D12). -/
def State.interruptGateType (s : State) : BitVec 4 :=
  match s.params.gateTypeInterrupt with
  | .t14 => 14
  | .t15 => 15

/-- An interrupt gate, of the 286 or the 386: it clears IF. -/
def State.isInterruptGate (s : State) (g : Descriptor) : Bool := g.isSystem 6 || g.isSystem s.interruptGateType

/-- A type that may stand in the IDT: task gate, 286 and 386 interrupt and trap gates. -/
def isIdtGate (g : Descriptor) : Bool := g.isSystem 5 || g.isSystem 6 || g.isSystem 7 || g.isSystem 14 || g.isSystem 15

/-- The error code that names an IDT entry (R653). -/
def idtCode (vector : Byte) (ext : Bool) : Word := BitVec.ofNat 16 (8 * vector.toNat + 2) ||| extCode ext

/-- The item size of a gate. -/
def Descriptor.gateSize (g : Descriptor) : Size := if g.is386 then .b32 else .b16

/-- Flag changes on delivery through a gate (R675). -/
def Eflags.throughGate (f : Eflags) (clearIf : Bool) : Eflags :=
  { f with tf := false, nt := false, vm := false, rf := false, ifl := f.ifl && !clearIf }

/-- The error code as a dword: its upper half is undefined (U15), and bits 15:3 of a page fault's too (R653). -/
def errorValue (ev : Event) (code : Word) : M Dword := do
  let v ← freeDword
  pure (if ev.vector = 14 then (v &&& 0xFFFFFFF8) ||| code.setWidth 32 else mergeWord v code)

/-- The error code as the last item pushed. -/
def errorItem (ev : Event) : M (List Dword) :=
  match ev.errorCode with
  | none => pure []
  | some code => do
    let v ← errorValue ev code
    pure [v]

/-- Push the frame, then load CS:EIP from the gate and change the flags. The frame has its room and the target is inside its
segment, or #SS(0) and #GP(0). What `loadStack` writes is part of the load of SS, which comes before the pushes (R672, R680
step 2; 20_memory.md R176, R190). -/
def enterGate (g : Descriptor) (tsel : Word) (t : Descriptor) (level : BitVec 2) (loadStack : M Unit) (items : List Dword) :
    M Unit := do
  checkRoom g.gateSize items.length
  raiseIf (decide (t.limit.toNat < g.gateOffset.toNat)) (Exn.gp 0)
  spoiling (g.gateSize.bytes * items.length) (do
    loadStack
    pushAll g.gateSize items)
  setAccessed tsel t
  setCodeSegment (t.cache (withRpl tsel level)) g.gateOffset
  modify fun s => { s with eflags := s.eflags.throughGate (s.isInterruptGate g) }

/-- Same-level delivery (R671). DESIGN CHOICE (log 50): the upper half of CS pushed as a dword is zero. -/
def deliverSame (ev : Event) (g : Descriptor) (tsel : Word) (t : Descriptor) : M Unit := do
  let s ← get
  let code ← errorItem ev
  enterGate g tsel t s.currentCpl (pure ()) ([ev.image s.eflags, selValue s.cs.selector, ev.savedEip] ++ code)

/-- Delivery to an inner level (R672). DESIGN CHOICE (log 50): the upper halves of SS and CS pushed as dwords are
zero. -/
def deliverInner (ev : Event) (g : Descriptor) (tsel : Word) (t : Descriptor) : M Unit := do
  let s ← get
  let (sel, sp, d) ← innerStack t.dpl ev.ext
  let code ← errorItem ev
  switchStack sel sp d
  setCpl t.dpl
  enterGate g tsel t t.dpl (setAccessed sel d)
    ([selValue s.ss.selector, s.regs.esp, ev.image s.eflags, selValue s.cs.selector, ev.savedEip] ++ code)

/-- VM is turned off, at level 0 (R680 steps 1 and 2). -/
def State.leaveV86 (s : State) : State := { s with eflags := { s.eflags with vm := false }, cpl := 0 }

/-- The four data segment registers null (R680 step 3). -/
def State.dropData (s : State) : State := (((s.loadNull .gs 0).loadNull .fs 0).loadNull .ds 0).loadNull .es 0

/-- Delivery from Virtual 8086 Mode (R680, R682). A 286 gate is refused (U10). DESIGN CHOICE (log 17): it is refused before
the check that the code segment is a non-conforming one of level 0, of which R682 gives no order. -/
def deliverV86 (ev : Event) (g : Descriptor) (tsel : Word) (t : Descriptor) : M Unit := do
  let s ← get
  if !g.is386 then refuse .gate286InV86 else pure ()
  raiseIf (t.isConforming || t.dpl != 0) (Exn.gp (selCode tsel ev.ext))
  let (sel, sp, d) ← innerStack 0 ev.ext
  let gs ← freeUpper s.gs.selector
  let fs ← freeUpper s.fs.selector
  let ds ← freeUpper s.ds.selector
  let es ← freeUpper s.es.selector
  let ss ← freeUpper s.ss.selector
  let cs ← freeUpper s.cs.selector
  let code ← errorItem ev
  modify State.leaveV86
  switchStack sel sp d
  enterGate g tsel t 0 (setAccessed sel d)
    ([gs, fs, ds, es, ss, s.regs.esp, ev.image s.eflags, cs, ev.savedEip] ++ code)
  modify State.dropData

/-- Delivery through a task gate (R673): the error code is pushed on the new task's stack. -/
def deliverTask (ev : Event) (g : Descriptor) : M Unit := do
  let ns := g.gateSelector
  let gp := Exn.gp (selCode ns ev.ext)
  raiseIf (isNull ns || inLdt ns) gp
  let nd ← readDescriptor ns gp
  raiseIf (!nd.isAvailableTss) gp
  raiseIf (!nd.present) (Exn.np (selCode ns ev.ext))
  taskSwitch .int ns nd ev.savedEip ev.ext
  match ev.errorCode with
  | none => pure ()
  | some code => do
    let v ← errorValue ev code
    committed (push (if nd.is386 then .b32 else .b16) v)

def deliverProtected (ev : Event) : M Unit := do
  let s ← get
  let code := idtCode ev.vector ev.ext
  raiseIf (decide (s.idtr.limit.toNat < 8 * ev.vector.toNat + 7)) (Exn.gp code)
  let g ← readDescriptorAt (s.idtr.base + BitVec.ofNat 32 (8 * ev.vector.toNat))
  raiseIf (!isIdtGate g) (Exn.gp code)
  raiseIf (ev.software && decide (g.dpl < s.currentCpl)) (Exn.gp code)
  raiseIf (!g.present) (Exn.np code)
  if g.isSystem 5 then deliverTask ev g
  else do
    let tsel := g.gateSelector
    raiseIf (isNull tsel) (Exn.gp (extCode ev.ext))
    let gp := Exn.gp (selCode tsel ev.ext)
    let t ← readDescriptor tsel gp
    raiseIf (!t.isCode) gp
    raiseIf (decide (s.currentCpl < t.dpl)) gp
    raiseIf (!t.present) (Exn.np (selCode tsel ev.ext))
    if s.v86 then deliverV86 ev g tsel t
    else if !t.isConforming && decide (t.dpl < s.currentCpl) then deliverInner ev g tsel t
    else deliverSame ev g tsel t

/-- Delivery in the present mode. -/
def deliver (ev : Event) : M Unit := do
  let s ← get
  if s.cr0.pe then deliverProtected ev else deliverReal ev

/-! Exceptions during delivery, and shutdown (R655, R690). -/

/-- Vectors 0 and 9 to 13. -/
def isContributory (vector : Byte) : Bool := vector == 0 || (decide (9 ≤ vector.toNat) && decide (vector.toNat ≤ 13))

/-- What follows when the delivery of `ev` raises `e` (R655): none is shutdown. -/
def Event.escalate (ev : Event) (e : Exn) : Option Exn :=
  if ev.exception && ev.vector == 8 then none
  else if e.vector == 8 then some Exn.dfault
  else if ev.exception && isContributory ev.vector && isContributory e.vector then some Exn.dfault
  else if ev.exception && ev.vector == 14 && (isContributory e.vector || e.vector == 14) then some Exn.dfault
  else some e

/-- CR2 of a page fault, the DR6 bits of a debug exception; general detect clears DR7.GD (R730). -/
def State.noteException (s : State) (e : Exn) : State :=
  { s with
    cr2 := e.cr2.getD s.cr2
    dr6 := s.dr6 ||| e.dr6
    dr7 := if e.dr6.getLsbD 13 then s.dr7 &&& 0xFFFFDFFF else s.dr7 }

/-- The state in which an exception is delivered: `s` before the instruction, `s'` where it was cut short (R650, D2).
Bus cycles that have run and free values that have been used stay so, and so does what the coprocessor was given. -/
def keptState (s s' : State) : Keep → State
  | .nothing => { s with draws := s'.draws, bus := s'.bus, deviceBus := s'.deviceBus }
  | .memory =>
    { s with
      draws := s'.draws, bus := s'.bus, deviceBus := s'.deviceBus, mem := s'.mem
      copOpcode := s'.copOpcode, copOperand := s'.copOperand }
  | .everything => { s' with instrEip := s'.eip, pfx := Prefixes.none, shadow := .none }

/-- Shutdown with its indication cycle (R690, R741). The inhibit of MOV SS, POP SS and STI ends with the instruction
that shut down (10_state.md R74): NMI may end the shutdown. -/
def State.enterShutdown (s : State) : State :=
  { s with runState := .shutdown, pfx := Prefixes.none, shadow := .none, bus := .shutdown :: s.bus }

/-- The handler is entered: the machine runs, no prefix is pending, nothing is inhibited. DESIGN CHOICE (log 56): an
inhibit of 10_state.md R74 ends here, also where a fault or an NMI comes before the instruction it covers has completed,
of which R74 does not speak. -/
def State.handlerEntered (s : State) : State :=
  { s with runState := .running, pfx := Prefixes.none, shadow := .none }

/-- Deliver an event, and what its delivery raises: CR2 keeps the address of the last page fault, also of one that is
reported as a double fault or ends in shutdown (10_state.md R57). No chain of R655 is longer than five events, so
`fuel` 6 is never used up: it would be shutdown. -/
def deliverChain (fuel : Nat) (ev : Event) (s : State) : Answer :=
  match fuel with
  | 0 => .next s.enterShutdown
  | n + 1 =>
    match deliver ev s with
    | .ok _ s' => .next s'.handlerEntered
    | .error (.exn e keep) s' =>
      let base := (keptState s s' keep).noteException e
      match ev.escalate e with
      | none => .next base.enterShutdown
      | some e2 => deliverChain n (e2.event base.instrEip ev.ext) base
    | .error (.fault f) _ => .fault f
    | .error (.refuse r) _ => .refused r

/-- Deliver an event and all that its delivery raises. -/
def deliverEvent (ev : Event) (s : State) : Answer := deliverChain 6 ev s

/-- TAKING AN EXCEPTION: the exception `e` of the instruction at `instrEip`. -/
def takeException (e : Exn) (s : State) : Answer := deliverEvent (e.event s.instrEip false) (s.noteException e)

/-! How an instruction ends. -/

/-- The DR6 bit BS, if TF was 1 when the instruction started (R731). -/
def State.stepBit (s : State) : Dword := if s.eflags.tf then 0x4000 else 0

/-- An instruction that completes: `s` is the state it started in, `s'` the state it leaves. The prefixes and the
interrupt inhibit are used up, RF is cleared (R730), and a single step pends if TF was 1 at the start. -/
def State.retire (s s' : State) : State :=
  { s' with
    pfx := Prefixes.none
    shadow := .none
    eflags := { s'.eflags with rf := false }
    pendingDb := s'.pendingDb ||| s.stepBit }

/-- IRET, POPF and task switches leave RF as they set it (R730). -/
def State.retireKeepRf (s s' : State) : State :=
  { s' with pfx := Prefixes.none, shadow := .none, pendingDb := s'.pendingDb ||| s.stepBit }

/-- MOV SS and POP SS inhibit interrupts and debug traps for one instruction (10_state.md R74). -/
def State.retireSs (s s' : State) : State := { s.retire s' with shadow := .ss }

/-- STI inhibits INTR for one instruction (10_state.md R74). -/
def State.retireSti (s s' : State) : State := { s.retire s' with shadow := .sti }

/-- An iteration of the repeated string instruction `i` that is not the last: EIP is at the first prefix again, and the
instruction goes on from where it is (43_string.md R445; log 9). -/
def State.retireIteration (i : Instr) (s s' : State) : State :=
  { s' with
    eip := s.instrEip
    eipOver := false
    pfx := { s.pfx with count := 0, again := some { instr := i, next := s.eip, nextOver := s.eipOver } }
    pendingDb := s'.pendingDb ||| s.stepBit }

/-- WAIT or ESC finds BUSY# asserted: it will be tried again (47_processor_control.md R606, R610). DEDUCED (log 47):
it has not completed, so an inhibit that MOV SS, POP SS or STI began lasts (70_reset_and_hazards.md R778). -/
def State.retireWaiting (s s' : State) : State :=
  { s' with eip := s.instrEip, eipOver := false, pfx := Prefixes.none }

/-- An instruction cut short in state `s'`, having started in `s`. -/
def stopped (s s' : State) : Stop → Answer
  | .exn e keep => takeException e (keptState s s' keep)
  | .fault f => .fault f
  | .refuse r => .refused r

/-- Run an instruction; `after` says how it ends. -/
def finish {α : Type} (after : α → State → State → State) (m : M α) (s : State) : Answer :=
  match m s with
  | .ok a s' => .next (after a s s')
  | .error e s' => stopped s s' e

/-- Run an instruction that ends in the ordinary way. -/
def complete (m : M Unit) (s : State) : Answer := finish (fun _ => State.retire) m s

/-- A software interrupt (46_interrupt.md R561 to R563): the saved EIP is the next instruction's. -/
def softwareInterrupt (vector : Byte) (s : State) : Answer := deliverEvent (softwareEvent vector s.eip) s

/-! Returning from an interrupt or exception (R685, R686; 46_interrupt.md R565). -/

/-- Null out the data segment registers that the level `cpl` may not use (45_control_transfer.md R504). DESIGN CHOICE (log
61): a register that is not valid, as it holds a null selector, keeps its selector; R504 tests the cached descriptor only. -/
def State.dropSeg (s : State) (cpl : BitVec 2) (sr : SReg) : State :=
  if (s.seg sr).valid && !(s.seg sr).isConforming && decide ((s.seg sr).dpl < cpl) then s.loadNull sr 0 else s

def State.dropInner (s : State) (cpl : BitVec 2) : State :=
  (((s.dropSeg cpl .es).dropSeg cpl .ds).dropSeg cpl .fs).dropSeg cpl .gs

/-- SS:ESP of the outer level by IRET (R685 step 6): a 32-bit image is ESP whole, a 16-bit image is SPx. -/
def State.setOuterStack (s : State) (ss : SegReg) (sz : Size) (sp : Dword) : State :=
  let s1 := s.setSeg .ss ss
  if sz = .b32 then s1.setReg .b32 .esp sp else s1.setSp sp

/-- The code segment a far return or IRET names (45_control_transfer.md R502, R686). -/
def returnSegment (sel : Word) : M Descriptor := do
  let s ← get
  let gp := Exn.gp (selCode sel false)
  raiseIf (isNull sel) (Exn.gp 0)
  let d ← readDescriptor sel gp
  raiseIf (!d.isCode || decide (rpl sel < s.currentCpl)) gp
  raiseIf (if d.isConforming then decide (rpl sel < d.dpl) else d.dpl != rpl sel) gp
  raiseIf (!d.present) (Exn.np (selCode sel false))
  pure d

/-- The stack segment of the outer level (45_control_transfer.md R504). -/
def returnStack (level : BitVec 2) (sel : Word) : M Descriptor :=
  loadStackSegment level sel (Exn.gp 0) (Exn.gp (selCode sel false)) (Exn.ss (selCode sel false))

/-- The flags an IRET image gives over the flags `f` (10_state.md R48): RF only with osz = 32. -/
def State.iretFlags (s : State) (image : Dword) (f : Eflags) : Eflags :=
  { f.load s.currentCpl image with rf := if s.osz32 then image.getLsbD 16 else f.rf }

/-- IRET in Real Mode, and in Virtual 8086 Mode with IOPL = 3 (46_interrupt.md R565). -/
def iret8086 : M Unit := do
  let s ← get
  let ip ← pop s.osz
  let sel ← pop s.osz
  let fl ← pop s.osz
  raiseIf (decide (0xFFFF < ip.toNat)) (Exn.gp 0)
  modify fun s' => ((s'.load8086 .cs (sel.setWidth 16)).jumpTo ip).setFlags (s.iretFlags fl s'.eflags)

/-- IRET with NT = 1 (R686): the back link names a busy TSS. DESIGN CHOICE (log 57): one that is not present raises #NP
naming it, an exception that R686 does not list. DESIGN CHOICE (log 30): a back link beyond the limit of the current TSS,
for which R686 names no exception either, raises #TS with the selector of TR. -/
def iretTask : M Unit := do
  let s ← get
  let back ← tssField 0 .b16 false
  let back : Word := back.setWidth 16
  let ts := Exn.ts (selCode back false)
  raiseIf (isNull back || inLdt back) ts
  let nd ← readDescriptor back ts
  raiseIf (!nd.isBusyTss) ts
  raiseIf (!nd.present) (Exn.np (selCode back false))
  taskSwitch .iret back nd s.eip false

/-- IRET to Virtual 8086 Mode (R685 steps 2 to 6): the frame of R680, SS:ESP being popped last. -/
def iretToV86 (ip sel fl : Dword) : M Unit := do
  checkStackTop 36
  let es ← stackAt 20 .b32
  let ds ← stackAt 24 .b32
  let fs ← stackAt 28 .b32
  let gs ← stackAt 32 .b32
  let esp ← stackAt 12 .b32
  let ss ← stackAt 16 .b32
  modify fun s =>
    let s1 := (((((s.load8086 .cs (sel.setWidth 16)).load8086 .ss (ss.setWidth 16)).load8086 .es (es.setWidth 16)).load8086
      .ds (ds.setWidth 16)).load8086 .fs (fs.setWidth 16)).load8086 .gs (gs.setWidth 16)
    { (s1.jumpTo (ip &&& 0xFFFF)).setReg .b32 .esp esp with eflags := Eflags.ofWord fl, cpl := 3 }

/-- IRET within the task to Protected Mode (R686). -/
def iretProtected (ip sel fl : Dword) : M Unit := do
  let s ← get
  let k := s.osz.bytes
  let sel : Word := sel.setWidth 16
  let d ← returnSegment sel
  if rpl sel = s.currentCpl then do
    raiseIf (decide (d.limit.toNat < ip.toNat)) (Exn.gp 0)
    setAccessed sel d
    modify fun s' => (s'.setSp (s'.spPlus (BitVec.ofNat 32 (3 * k)))).setFlags (s.iretFlags fl s'.eflags)
    setCodeSegment (d.cache sel) ip
  else do
    checkStackTop (5 * k)
    let sp ← stackAt (3 * k) s.osz
    let ss ← stackAt (4 * k) s.osz
    let ss : Word := ss.setWidth 16
    let sd ← returnStack (rpl sel) ss
    raiseIf (decide (d.limit.toNat < ip.toNat)) (Exn.gp 0)
    setAccessed sel d
    setAccessed ss sd
    modify fun s' => { (s'.setOuterStack (sd.cache ss) s.osz sp).setFlags (s.iretFlags fl s'.eflags) with cpl := rpl sel }
    setCodeSegment (d.cache sel) ip
    modify fun s => s.dropInner (rpl sel)

/-- RETURNING FROM AN EXCEPTION: the whole of IRET but its V86 privilege check. In Protected Mode the EFLAGS image is read
first, then EIP and CS (R685 steps 2 and 3). NMI is no longer in service
(10_state.md R70). DESIGN CHOICE (log 58): an IRET that faults, also one whose task switch faults past its commit point, is
not the IRET that ends NMI service, of which R70 and 46_interrupt.md R565 do not speak. -/
def returnFromException : M Unit := do
  let s ← get
  if !s.protectedMode then iret8086
  else if s.eflags.nt then iretTask
  else do
    let k := s.osz.bytes
    checkStackTop (3 * k)
    let fl ← stackAt (2 * k) s.osz
    let ip ← stackAt 0 s.osz
    let sel ← stackAt k s.osz
    if s.osz32 && fl.getLsbD 17 && s.currentCpl == 0 then iretToV86 ip sel fl
    else iretProtected ip sel fl
  modify fun s => { s with nmiInService := false }

end Sys2Proof.Machine
end

