-- ==== Sys2Proof/Machine/Prefetch.lean ====
section
/-! DEFINITION. The code reads that a memory-mapped device sees, of bytes that are executed and of bytes ahead of them that
may never be (10_state.md R71, 20_memory.md R118, R122, R152, 70_reset_and_hazards.md R775; log 59). Code in RAM or
read-only memory leaves no trace of its reads. -/

namespace Sys2Proof.Machine

/-- The offset of the `k`-th byte to fetch does not exceed the CS limit (D6). -/
def State.codeByteOk (s : State) (k : Nat) : Bool :=
  s.cs.valid && decide (s.eip.toNat + (if s.eipOver then 2 ^ 32 else 0) + k ≤ s.cs.limit.toNat)

/-- The four addresses of the aligned dword that holds the byte at `a`. -/
def dwordOf (a : Dword) : List Dword := linearRange (a &&& 0xFFFFFFFC) 4

/-- `s` after a code read of the dword that holds the byte at linear address `l`, physical address `p`: a device sees its
cycles, and its bytes, free values, are in the prefetch queue. -/
def State.codeRead (s : State) (l p : Dword) : State :=
  let as := dwordOf p
  let bytes := (dwordOf l).zip (as.zip (s.answers s.draws as))
  { s.noteCycles .memoryCodeRead as fun _ a n => .codeRead a n with
    queued := (bytes.filter fun x => s.isDevice x.2.1).map (fun x =>
      { linear := x.1, physical := x.2.1, byte := x.2.2, codeD := s.csD, sure := true }) ++ s.queued
    draws := s.draws + as.length }

/-- A device answers at a byte of that dword that the prefetch queue does not hold yet. -/
def State.unread (s : State) (l p : Dword) : Bool :=
  ((dwordOf l).zip (dwordOf p)).any fun x => s.isDevice x.2 && (s.heldByte x.1).isNone

/-- Read the dword of code that holds the byte at linear address `l`, physical address `p`: where nothing answers the
processor waits forever (20_memory.md R145), and a read of memory changes nothing. -/
def readCode (l p : Dword) : M Unit := fun s =>
  if (dwordOf p).any s.isAbsent then
    .error (.fault (.noReady (s.noteCycles .memoryCodeRead (dwordOf p) fun _ a n => .codeRead a n))) s
  else if s.unread l p then .ok () (s.codeRead l p)
  else .ok () s

/-- The physical address of a code byte ahead, if its page may be read. DESIGN CHOICE (log 59): by the tables in memory,
without an effect on them or on the TLB. -/
def State.codePhys (s : State) (l : Dword) : Option Dword :=
  if s.cr0.pg && !((s.tableEntries l).translation l).permits false s.isUser then none else s.peekPhys l

/-- The dwords of code ahead, at most `n`, from the one of the `k`-th byte on, each as the linear and the physical address
of its first byte there: prefetch runs up to the CS limit and up to a page that may not be read (R775). -/
def State.codeAhead (s : State) : Nat → Nat → List (Dword × Dword)
  | 0, _ => []
  | n + 1, k =>
    let l := s.linear .cs (s.eip + BitVec.ofNat 32 k)
    match s.codePhys l with
    | none => []
    | some p => if s.codeByteOk k then (l, p) :: s.codeAhead n (k + (4 - l.toNat % 4)) else []

/-- Read dwords of code, the first one first. -/
def readAhead : List (Dword × Dword) → M Unit
  | [] => pure ()
  | (l, p) :: rest => do
    readCode l p
    readAhead rest

/-- A code read of that dword would show: nothing answers, or a device answers what the queue does not hold yet. -/
def State.showsRead (s : State) (d : Dword × Dword) : Bool := (dwordOf d.2).any s.isAbsent || s.unread d.1 d.2

/-- PREFETCH before a step. How many of the dwords within PREFETCH_WINDOW have been read by then is a free value, because
the spec does not say when the queue fills (91_not_in_source.md N20). Where every address is memory, and where no dword
within the window shows, there is nothing to see, and while another master has the bus nothing is read. DESIGN CHOICE (log
59): it goes on in the halted and in the shutdown state too, of which 60_exceptions.md R740 and R741 do not speak. -/
def prefetch : M Unit := fun s =>
  if s.params.allMemory || s.pins.hold then .ok () s
  else
    let ahead := s.codeAhead (s.params.prefetchWindow / 4 + 1) 0
    if ahead.any s.showsRead then
      readAhead (ahead.take ((Config.freeDword s.draws).toNat % (ahead.length + 1))) { s with draws := s.draws + 1 }
    else .ok () s

end Sys2Proof.Machine
end

