-- ==== Sys2Proof/Machine/Fetch.lean ====
section
/-! DEFINITION. Fetching an instruction's bytes (10_state.md R40 to R42, 60_exceptions.md R657), the check of the LOCK
prefix, and where a first instruction is placed. -/

namespace Sys2Proof.Machine

/-! Instruction bytes. -/

/-- The byte at a linear address as a fetch from memory gives it: a byte that may be stale in the prefetch queue is
refused (20_memory.md R180, D4; log 15), where nothing answers the processor waits forever (R145), and a memory-mapped
device answers a code read of the aligned dword (R118; log 59). -/
def fetchMemory (l : Dword) : M Byte := do
  let s ← get
  let p ← translate false s.isUser l
  if s.stale.contains p then refuse .staleCode
  else do
    readCode l p
    let s ← get
    pure ((s.heldByte l).getD (s.readByte p))

/-- The byte at a linear address from the prefetch queue, where it has been read from a device, or where it may still be
from before a change of mode or of page tables, a free bit for each such byte saying whether it is; else from memory
(70_reset_and_hazards.md R775; log 15, log 59). -/
def fetchQueued (l : Dword) : List QueuedByte → M Byte
  | [] => fetchMemory l
  | q :: rest =>
    if q.linear = l then do
      let held ← if q.sure then pure true else freeBit
      let s ← get
      if !held then fetchQueued l rest
      else if s.stale.contains q.physical then refuse .staleCode
      else pure q.byte
    else fetchQueued l rest

/-- The `k`-th byte from EIP: limit, page, then the byte. -/
def fetchByte (k : Nat) : M Byte := do
  let s ← get
  raiseIf (!s.codeByteOk k) (Exn.gp 0)
  fetchQueued (s.linear .cs (s.eip + BitVec.ofNat 32 k)) s.queued

/-- Up to `n` bytes from the `k`-th on, each with the state after it is fetched, and what stopped the fetch, in which
state. -/
def gather : Nat → Nat → State → List (Byte × State) × Option (Stop × State)
  | 0, _, _ => ([], none)
  | n + 1, k, s =>
    match fetchByte k s with
    | .ok b s' =>
      let rest := gather n (k + 1) s'
      ((b, s') :: rest.1, rest.2)
    | .error e s' => ([], some (e, s'))

/-- The state after the first `n` bytes. -/
def stateAfter (s : State) : List (Byte × State) → Nat → State
  | (_, s') :: rest, n + 1 => stateAfter s' rest n
  | _, _ => s

/-- How many bytes are read before the decoder can tell that they are no instruction. -/
def bytesToReject (c : Ctx) (bytes : List Byte) : Nat :=
  ((List.range (maxLength + 1)).find? fun n => decode c (bytes.take n) != .reject .more).getD maxLength

/-- EIP past `n` bytes; it does not wrap silently (D6; log 31). -/
def State.skip (s : State) (n : Nat) : State :=
  { s with eip := s.eip + BitVec.ofNat 32 n, eipOver := s.eipOver || decide (2 ^ 32 ≤ s.eip.toNat + n) }

/-- The D bit of code that an instruction's first byte may have been decoded under, if another than that of CS now. -/
def State.queuedD (s : State) : Option Bool :=
  (s.queued.find? fun q => q.linear == s.linear .cs s.eip && q.codeD != s.csD).map fun q => q.codeD

/-- The instruction's first byte is at EIP, unless its prefixes have been read (log 8). An instruction that may have been
decoded before a change of mode has its sizes of before or of now, as a free bit says (70_reset_and_hazards.md R775; log
15). -/
def State.markStart (s : State) : State :=
  if s.pfx.count ≠ 0 then s
  else
    match s.queuedD with
    | none => { s with instrEip := s.eip }
    | some d =>
      { s with
        instrEip := s.eip
        pfx := { s.pfx with codeD := if (Config.freeDword s.draws).getLsbD 0 then some d else none }
        draws := s.draws + 1 }

/-- A prefix byte, which is part of the instruction that follows it. -/
def isPrefix : Instr → Bool
  | .addrsize => true
  | .lock => true
  | .opsize => true
  | .segCs => true
  | .segDs => true
  | .segEs => true
  | .segFs => true
  | .segGs => true
  | .segSs => true
  | .repneRep => true
  | .repeRep => true
  | _ => false

/-- One row of the opcode table at EIP (30_encoding.md R275). Bytes that are needed and cannot be fetched raise what
stopped the fetch, then an undefined opcode raises #UD, then an instruction of more than 15 bytes with the prefixes before
it #GP(0) (R222, 60_exceptions.md R657; log 8): a prefix byte is no instruction yet. What the bytes that were read took,
cycles at devices and free values, has been done. -/
def fetch : M Instr := fun s =>
  let got := gather maxLength 0 s
  let bytes := got.1.map Prod.fst
  match decode s.ctx bytes with
  | .instr i n =>
    let s' := stateAfter s got.1 n
    if isPrefix i || decide (s.pfx.count + n ≤ maxLength) then .ok i (s'.skip n)
    else .error (.exn (Exn.gp 0) .nothing) s'
  | .reject .more =>
    match got.2 with
    | some (e, s') => .error e s'
    | none => .error (.exn (Exn.gp 0) .nothing) (stateAfter s got.1 maxLength)
  | .reject .invalid => .error (.exn Exn.ud .nothing) (stateAfter s got.1 (bytesToReject s.ctx bytes))
  | .reject .undefinedEncoding => .error (.refuse .undefinedEncoding) s

/-! LOCK (47_processor_control.md R612; 20_memory.md R162; log 33). -/

/-- A memory destination of a form with a d field. -/
def lockableDir (d : Dir) (rm : RM) : Bool := d == .toRm && RM.isMem rm

/-- BT, BTS, BTR, BTC, XCHG, ADD, OR, ADC, SBB, AND, SUB, XOR, NOT, NEG, INC, DEC with a memory destination (R162). -/
def lockable : Instr → Bool
  | .btImm rm _ => RM.isMem rm
  | .btReg _ rm => RM.isMem rm
  | .btsImm rm _ => RM.isMem rm
  | .btsReg _ rm => RM.isMem rm
  | .btrImm rm _ => RM.isMem rm
  | .btrReg _ rm => RM.isMem rm
  | .btcImm rm _ => RM.isMem rm
  | .btcReg _ rm => RM.isMem rm
  | .xchgRmReg _ _ rm => RM.isMem rm
  | .addRegRm d _ _ rm => lockableDir d rm
  | .addRmImm _ rm _ => RM.isMem rm
  | .orRegRm d _ _ rm => lockableDir d rm
  | .orRmImm _ rm _ => RM.isMem rm
  | .orRmImm8 rm _ => RM.isMem rm
  | .adcRegRm d _ _ rm => lockableDir d rm
  | .adcRmImm _ rm _ => RM.isMem rm
  | .sbbRegRm d _ _ rm => lockableDir d rm
  | .sbbRmImm _ rm _ => RM.isMem rm
  | .andRegRm d _ _ rm => lockableDir d rm
  | .andRmImm _ rm _ => RM.isMem rm
  | .andRmImm8 rm _ => RM.isMem rm
  | .subRegRm d _ _ rm => lockableDir d rm
  | .subRmImm _ rm _ => RM.isMem rm
  | .xorRegRm d _ _ rm => lockableDir d rm
  | .xorRmImm _ rm _ => RM.isMem rm
  | .xorRmImm8 rm _ => RM.isMem rm
  | .notRm _ rm => RM.isMem rm
  | .neg _ rm => RM.isMem rm
  | .incRm _ rm => RM.isMem rm
  | .decRm _ rm => RM.isMem rm
  | _ => false

/-- What the LOCK prefix raises before the instruction `i`: #UD where it is not legal, then #GP(0) if CPL is greater
than IOPL in Protected Mode. -/
def lockFault (i : Instr) (s : State) : Option Exn :=
  if !s.pfx.lock || isPrefix i then none
  else if !lockable i then some Exn.ud
  else if s.protectedMode && decide (s.eflags.iopl < s.currentCpl) then some (Exn.gp 0)
  else none

/-! Placing a first instruction (log 7). -/

/-- The physical address of the next byte to fetch, if there is one. -/
def State.fetchAddress (s : State) : Option Dword := s.peekPhys (s.linear .cs s.eip)

/-- The bytes of `w` (its low `nbits` bits, then zeros, up to the longest instruction) where the next instruction is
fetched: from memory, and not as an iteration of an instruction fetched before. -/
def placeWord (s : State) (nbits w : Nat) : State :=
  match s.fetchAddress with
  | none => s
  | some p =>
    { s with
      mem := writeCells (fun _ => false) s.mem (linearRange p maxLength) (bytesOf maxLength (w % 2 ^ nbits))
      stale := [], queued := [], pfx := { s.pfx with again := none } }

end Sys2Proof.Machine
end

