-- ==== Sys2Proof/Machine/InOut.lean ====
section
/-! DEFINITION. I/O: the cycles of IN and OUT, how a device answers (20_memory.md R102, R104), and I/O permission (R210,
R211). -/

namespace Sys2Proof.Machine

/-! I/O (20_memory.md R102, R104). -/

/-- What port `p` answers, if the environment has said. -/
def portInput (p : Nat) : List (Nat × Byte) → Option Byte
  | [] => none
  | (k, v) :: rest => if k = p then some v else portInput p rest

/-- The byte a read of port `p` gives: the environment's, or a free value (log 5). -/
def inputByte (p : Nat) : M Byte := fun s =>
  match portInput p s.ioInputs with
  | some v => .ok v s
  | none => .ok ((Config.freeDword s.draws).setWidth 8) { s with draws := s.draws + 1 }

def inputBytes (p : Nat) : Nat → M (List Byte)
  | 0 => pure []
  | n + 1 => do
    let b ← inputByte p
    let rest ← inputBytes (p + 1) n
    pure (b :: rest)

/-- Bus cycles that have run, in order. -/
def State.logged (s : State) (cs : List BusCycle) : State := { s with bus := cs.reverse ++ s.bus }

def logCycles (cs : List BusCycle) : M Unit := modify fun s => s.logged cs

/-- Nothing answers at one of the `n` ports from `port` on. -/
def portsAbsent (p : Config.Params) (port : Nat) : Nat → Bool
  | 0 => false
  | n + 1 => p.portAbsent port || portsAbsent p (port + 1) n

/-- The cycles of an I/O operand at `port`. An operand past port FFFFH has no address (D9), and in the first cycle that
nothing answers READY# never comes (20_memory.md R145). -/
def ioCycles (port : Word) (n : Nat) (cycles : List BusCycle) : M Unit := do
  let s ← get
  if 65536 < port.toNat + n then stopFault (.ioPastTop s)
  else if portsAbsent s.params port.toNat n then
    stopFault (.noReady (s.logged (cycles.takeWhile fun c => !portsAbsent s.params c.address c.width)))
  else logCycles cycles

/-- `IoRead(port, n)`. -/
def ioRead (port : Word) (sz : Size) : M Dword := do
  let s ← get
  let cycles := operandCycles (s.params.asserts16 .ioDataRead) sz.bytes port.toNat
  ioCycles port sz.bytes (cycles.map fun c => .ioRead (port.toNat + c.1) c.2)
  let bs ← inputBytes port.toNat sz.bytes
  pure (leDword bs)

/-- `IoWrite(port, n, v)`. -/
def ioWrite (port : Word) (sz : Size) (v : Dword) : M Unit := do
  let s ← get
  let cycles := operandCycles (s.params.asserts16 .ioDataWrite) sz.bytes port.toNat
  let bytes := leBytes sz.bytes v
  ioCycles port sz.bytes (cycles.map fun c => .ioWrite (port.toNat + c.1) ((bytes.drop c.1).take c.2))

/-- `IoPermitted(port, n)` (R211). DEDUCED (log 6): a TSS too short to hold Bit_Map_Offset permits nothing, and neither does
a TR that has never been loaded, of which R212 does not speak. The bits of ports beyond 65535 deny (D9). -/
def ioPermitted (port : Word) (n : Nat) : M Bool := do
  let s ← get
  if !s.tr.valid || !s.tr.type.getLsbD 3 || decide (s.tr.limit.toNat < 0x67) then pure false
  else do
    let map ← sysRead (s.tr.base + 0x66) .b16
    let at' := map.toNat + port.toNat / 8
    if s.tr.limit.toNat < at' + 1 then pure false
    else do
      let w ← sysRead (s.tr.base + BitVec.ofNat 32 at') .b16
      let mask : Dword := BitVec.ofNat 32 ((2 ^ n - 1) * 2 ^ (port.toNat % 8))
      pure (w &&& mask == 0 && decide (port.toNat + n ≤ 65536))

/-- The I/O privilege check (R210): none in Real Mode; CPL ≤ IOPL, or the bitmap, in Protected Mode; the bitmap in
Virtual 8086 Mode. -/
def checkIo (port : Word) (sz : Size) : M Unit := do
  let s ← get
  if !s.cr0.pe then pure ()
  else if !s.eflags.vm && decide (s.currentCpl ≤ s.eflags.iopl) then pure ()
  else do
    let ok ← ioPermitted port sz.bytes
    raiseIf (!ok) (Exn.gp 0)

end Sys2Proof.Machine
end

