-- ==== Sys2Proof/Machine/DataTransfer.lean ====
section
/-! DEFINITION. Data transfer, segment control and flag control (40_data_transfer.md). In a meaning `s` is the state the
instruction starts in: EIP is the next instruction's, `instrEip` the instruction's own. -/

namespace Sys2Proof.Machine

/-! MOV (R301 to R309). -/

def execMovRmReg (w : Width) (reg : Reg) (rm : RM) (s : State) : Answer :=
  complete (do
    let l ← resolve rm
    writeLoc (s.wsz w) l (s.reg (s.wsz w) reg)) s

def execMovRegRm (w : Width) (reg : Reg) (rm : RM) (s : State) : Answer :=
  complete (do
    let v ← readRm (s.wsz w) rm
    writeReg (s.wsz w) reg v) s

def execMovRmImm (w : Width) (rm : RM) (imm : Imm) (s : State) : Answer :=
  complete (do
    let l ← resolve rm
    writeLoc (s.wsz w) l (immValue (s.wsz w) imm)) s

def execMovRegImm (w : Width) (reg : Reg) (imm : Imm) (s : State) : Answer :=
  complete (writeReg (s.wsz w) reg (immValue (s.wsz w) imm)) s

def execMovAccMem (w : Width) (off : Off) (s : State) : Answer :=
  complete (do
    let v ← memRead (s.overridden .ds) (absOffset off) (s.wsz w)
    writeReg (s.wsz w) .eax v) s

def execMovMemAcc (w : Width) (off : Off) (s : State) : Answer :=
  complete (memWrite (s.overridden .ds) (absOffset off) (s.wsz w) (s.reg (s.wsz w) .eax)) s

/-- A load of SS inhibits interrupts for one instruction (10_state.md R74). -/
def State.retireSegLoad (sr : SReg) (s s' : State) : State := if sr = .ss then s.retireSs s' else s.retire s'

def execMovSregRm (sr : SReg) (rm : RM) (s : State) : Answer :=
  finish (fun _ => State.retireSegLoad sr) (do
    let v ← readRm .b16 rm
    loadSeg sr (v.setWidth 16)) s

/-- A 16-bit system value to r/m: 16 bits to memory; to a register at osz, the upper half undefined with osz = 32
(U6). -/
def storeWord (rm : RM) (v : Word) : M Unit := do
  let s ← get
  let l ← resolve rm
  match l with
  | .mem sr off => memWrite sr off .b16 (v.setWidth 32)
  | .reg r =>
    if s.osz32 then do
      let d ← freeUpper v
      writeReg .b32 r d
    else writeReg .b16 r (v.setWidth 32)

def execMovRmSreg (sr : SReg) (rm : RM) (s : State) : Answer :=
  complete (storeWord rm (s.seg sr).selector) s

/-- The source size of MOVSX and MOVZX (R308). -/
def extendSize : Width → Size
  | .byte => .b8
  | .full => .b16

def execMovsx (w : Width) (reg : Reg) (rm : RM) (s : State) : Answer :=
  complete (do
    let v ← readRm (extendSize w) rm
    writeReg s.osz reg (signExtend (extendSize w) v)) s

def execMovzx (w : Width) (reg : Reg) (rm : RM) (s : State) : Answer :=
  complete (do
    let v ← readRm (extendSize w) rm
    writeReg s.osz reg v) s

/-! PUSH and POP (R310 to R315). -/

def execPushRm (rm : RM) (s : State) : Answer :=
  complete (do
    let v ← readRm s.osz rm
    push s.osz v) s

def execPushReg (reg : Reg) (s : State) : Answer := complete (push s.osz (s.reg s.osz reg)) s

def execPushImm (imm : Imm) (s : State) : Answer := complete (push s.osz (immValue s.osz imm)) s

/-- PUSH of a segment register (R311): with osz = 32 the upper half pushed is undefined (U6). -/
def pushSeg (sr : SReg) : M Unit := do
  let s ← get
  let sel := (s.seg sr).selector
  if s.osz32 then do
    let v ← freeUpper sel
    push .b32 v
  else push .b16 (selValue sel)

def execPushEs (s : State) : Answer := complete (pushSeg .es) s
def execPushCs (s : State) : Answer := complete (pushSeg .cs) s
def execPushSs (s : State) : Answer := complete (pushSeg .ss) s
def execPushDs (s : State) : Answer := complete (pushSeg .ds) s
def execPushFs (s : State) : Answer := complete (pushSeg .fs) s
def execPushGs (s : State) : Answer := complete (pushSeg .gs) s

/-- The eight registers in the order PUSHA pushes them; ESP is the value before. -/
def Regs.pushOrder (g : Regs) : List Dword := [g.eax, g.ecx, g.edx, g.ebx, g.esp, g.ebp, g.esi, g.edi]

/-- The eight items of PUSHA run across offset 0 of the stack segment: SP is below their length, and not 0. -/
def State.pushaWraps (s : State) : Bool := s.sp != 0 && decide (s.sp.toNat < 8 * s.osz.bytes)

/-- PUSHA (R312). In Real Mode a frame that wraps raises exception 13 (log 35); with SP 1, 3 or 5 the exception cannot be
delivered, which ends in shutdown. DESIGN CHOICE (log 35): the exception comes before any item is stored, so that the stack
memory below SP stays as it is; R312 does not say when it comes. -/
def execPusha (s : State) : Answer :=
  complete (spoiling (8 * s.osz.bytes) (do
    raiseIf (!s.cr0.pe && s.pushaWraps) (Exn.gp 0)
    pushAll s.osz s.regs.pushOrder)) s

/-- POP to r/m (R313): an address with ESP as base is computed after the increment. -/
def execPopRm (rm : RM) (s : State) : Answer :=
  complete (do
    let v ← pop s.osz
    let l ← resolve rm
    writeLoc s.osz l v) s

def execPopReg (reg : Reg) (s : State) : Answer :=
  complete (do
    let v ← pop s.osz
    writeReg s.osz reg v) s

/-- POP of a segment register (R314). -/
def popSeg (sr : SReg) : M Unit := do
  let s ← get
  let v ← pop s.osz
  loadSeg sr (v.setWidth 16)

def execPopEs (s : State) : Answer := complete (popSeg .es) s
def execPopSs (s : State) : Answer := finish (fun _ => State.retireSs) (popSeg .ss) s
def execPopDs (s : State) : Answer := complete (popSeg .ds) s
def execPopFs (s : State) : Answer := complete (popSeg .fs) s
def execPopGs (s : State) : Answer := complete (popSeg .gs) s

/-- POPA (R315): the image of ESP is skipped. -/
def execPopa (s : State) : Answer :=
  complete (do
    let di ← pop s.osz
    let si ← pop s.osz
    let bp ← pop s.osz
    let _ ← pop s.osz
    let bx ← pop s.osz
    let dx ← pop s.osz
    let cx ← pop s.osz
    let ax ← pop s.osz
    writeReg s.osz .edi di
    writeReg s.osz .esi si
    writeReg s.osz .ebp bp
    writeReg s.osz .ebx bx
    writeReg s.osz .edx dx
    writeReg s.osz .ecx cx
    writeReg s.osz .eax ax) s

/-! XCHG (R316). -/

/-- Exchange an operand with a register. -/
def exchange (sz : Size) (l : Loc) (reg : Reg) : M Unit := do
  let a ← readToUpdate sz l
  let s ← get
  writeLoc sz l (s.reg sz reg)
  writeReg sz reg a

def execXchgRmReg (w : Width) (reg : Reg) (rm : RM) (s : State) : Answer :=
  complete (do
    let l ← resolve rm
    exchange (s.wsz w) l reg) s

def execXchgAccReg (reg : Reg) (s : State) : Answer := complete (exchange s.osz (.reg reg) .eax) s

/-! IN and OUT (R318, R319). -/

/-- DX as a port. -/
def State.portDx (s : State) : Word := s.regs.edx.setWidth 16

/-- IN: the permission check, then the I/O cycle. -/
def inputTo (port : Word) (sz : Size) : M Unit := do
  checkIo port sz
  let v ← ioRead port sz
  writeReg sz .eax v

/-- OUT. -/
def outputFrom (port : Word) (sz : Size) : M Unit := do
  checkIo port sz
  let s ← get
  ioWrite port sz (s.reg sz .eax)

def execInImm (w : Width) (port : BitVec 8) (s : State) : Answer := complete (inputTo (port.setWidth 16) (s.wsz w)) s
def execInDx (w : Width) (s : State) : Answer := complete (inputTo s.portDx (s.wsz w)) s
def execOutImm (w : Width) (port : BitVec 8) (s : State) : Answer :=
  complete (outputFrom (port.setWidth 16) (s.wsz w)) s
def execOutDx (w : Width) (s : State) : Answer := complete (outputFrom s.portDx (s.wsz w)) s

/-! LEA and the far pointer loads (R320 to R326). -/

def execLea (reg : Reg) (m : MemOp) (s : State) : Answer :=
  complete (do
    let a ← effectiveAddress m
    writeReg s.osz reg a.2) s

/-- The segment load is checked before either register is written (R322). -/
def loadFarPointer (sr : SReg) (reg : Reg) (m : MemOp) : M Unit := do
  let s ← get
  let p ← readFarPointer m
  loadSeg sr p.2
  writeReg s.osz reg p.1

def execLds (reg : Reg) (m : MemOp) (s : State) : Answer := complete (loadFarPointer .ds reg m) s
def execLes (reg : Reg) (m : MemOp) (s : State) : Answer := complete (loadFarPointer .es reg m) s
def execLfs (reg : Reg) (m : MemOp) (s : State) : Answer := complete (loadFarPointer .fs reg m) s
def execLgs (reg : Reg) (m : MemOp) (s : State) : Answer := complete (loadFarPointer .gs reg m) s
def execLss (reg : Reg) (m : MemOp) (s : State) : Answer := complete (loadFarPointer .ss reg m) s

/-! Flag control (R330 to R341). -/

/-- A change of EFLAGS. -/
def changeFlags (f : Eflags → Eflags) : M Unit := modify fun s => s.setFlags (f s.eflags)

/-- Raises #GP(0) if CPL is greater than 0 (note l). -/
def checkCpl0 : M Unit := do
  let s ← get
  raiseIf (s.currentCpl != 0) (Exn.gp 0)

/-- Raises #GP(0) if PE = 1 and CPL is greater than IOPL (note m). -/
def checkIopl : M Unit := do
  let s ← get
  raiseIf (s.cr0.pe && decide (s.eflags.iopl < s.currentCpl)) (Exn.gp 0)

/-- In Virtual 8086 Mode, IOPL below 3 (60_exceptions.md R681). -/
def State.v86Sensitive (s : State) : Bool := s.v86 && decide (s.eflags.iopl < 3)

def execClc (s : State) : Answer := complete (changeFlags fun f => { f with cf := false }) s
def execCld (s : State) : Answer := complete (changeFlags fun f => { f with df := false }) s

def execCli (s : State) : Answer :=
  complete (do
    checkIopl
    changeFlags fun f => { f with ifl := false }) s

def execCmc (s : State) : Answer := complete (changeFlags fun f => { f with cf := !f.cf }) s

/-- The number 100 with w = 0 is AH. -/
def execLahf (s : State) : Answer := complete (writeReg .b8 .esp s.eflags.word) s

def execPopf (s : State) : Answer :=
  finish (fun _ => State.retireKeepRf) (do
    raiseIf s.v86Sensitive (Exn.gp 0)
    let v ← pop s.osz
    changeFlags fun f => { f.load s.currentCpl v with rf := f.rf && !s.osz32 }) s

def execPushf (s : State) : Answer :=
  complete (do
    raiseIf s.v86Sensitive (Exn.gp 0)
    push s.osz { s.eflags with vm := false, rf := false }.word) s

def execSahf (s : State) : Answer :=
  complete (changeFlags fun f =>
    let v := Eflags.ofWord (s.reg .b8 .esp)
    { f with sf := v.sf, zf := v.zf, af := v.af, pf := v.pf, cf := v.cf }) s

def execStc (s : State) : Answer := complete (changeFlags fun f => { f with cf := true }) s
def execStd (s : State) : Answer := complete (changeFlags fun f => { f with df := true }) s

def execSti (s : State) : Answer :=
  finish (fun _ => State.retireSti) (do
    checkIopl
    changeFlags fun f => { f with ifl := true }) s

def execClts (s : State) : Answer :=
  complete (do
    checkCpl0
    modify fun s => { s with cr0 := { s.cr0 with ts := false } }) s

end Sys2Proof.Machine
end

