-- ==== Sys2Proof/Machine/Arithmetic.lean ====
section
/-! DEFINITION. Arithmetic instructions (41_arithmetic.md). -/

namespace Sys2Proof.Machine

/-! The two-operand forms (R360 to R367). -/

/-- An operation on a destination value, a source value and the flags: the result and the new flags. -/
abbrev AluOp := Size → Dword → Dword → Eflags → Dword × Eflags

def aluAdd : AluOp := fun sz a b f => (addResult sz a b false, f.afterAdd sz a b false)
def aluAdc : AluOp := fun sz a b f => (addResult sz a b f.cf, f.afterAdd sz a b f.cf)
def aluSub : AluOp := fun sz a b f => (subResult sz a b false, f.afterSub sz a b false)
def aluSbb : AluOp := fun sz a b f => (subResult sz a b f.cf, f.afterSub sz a b f.cf)
/-- INC: `b` is 1; CF unchanged (R363). -/
def aluInc : AluOp := fun sz a b f => (addResult sz a b false, { f.afterAdd sz a b false with cf := f.cf })
/-- DEC: CF unchanged (R366). -/
def aluDec : AluOp := fun sz a b f => (subResult sz a b false, { f.afterSub sz a b false with cf := f.cf })
/-- NEG: 0 − a (R368). -/
def aluNeg : AluOp := fun sz a _ f => (subResult sz 0 a false, f.afterSub sz 0 a false)

/-- dst <- op(dst, src), with the flags: read, compute, write (R360). -/
def alu (op : AluOp) (sz : Size) (dst : Loc) (src : Dword) : M Unit := do
  let a ← readToUpdate sz dst
  let s ← get
  writeLoc sz dst (op sz a src s.eflags).1
  modify fun s => s.setFlags (op sz a src s.eflags).2

/-- The flags of an operation whose result is discarded (R367). -/
def compare (op : AluOp) (sz : Size) (dst : Loc) (src : Dword) : M Unit := do
  let a ← readLoc sz dst
  modify fun s => s.setFlags (op sz a src s.eflags).2

/-- The register and r/m operands as destination and source, by the d field (30_encoding.md R244). -/
def byDirection (d : Dir) (sz : Size) (reg : Reg) (rm : RM) (k : Loc → Dword → M Unit) : M Unit := do
  let l ← resolve rm
  match d with
  | .toRm => do
    let s ← get
    k l (s.reg sz reg)
  | .toReg => do
    let v ← readLoc sz l
    k (.reg reg) v

/-- A destination r/m with an immediate source. -/
def withImm (sz : Size) (rm : RM) (imm : Imm) (k : Loc → Dword → M Unit) : M Unit := do
  let l ← resolve rm
  k l (immValue sz imm)

def execAddRegRm (d : Dir) (w : Width) (reg : Reg) (rm : RM) (s : State) : Answer :=
  complete (byDirection d (s.wsz w) reg rm (alu aluAdd (s.wsz w))) s
def execAddRmImm (w : Width) (rm : RM) (imm : Imm) (s : State) : Answer :=
  complete (withImm (s.wsz w) rm imm (alu aluAdd (s.wsz w))) s
def execAddAccImm (w : Width) (imm : Imm) (s : State) : Answer :=
  complete (withImm (s.wsz w) (.reg .eax) imm (alu aluAdd (s.wsz w))) s

def execAdcRegRm (d : Dir) (w : Width) (reg : Reg) (rm : RM) (s : State) : Answer :=
  complete (byDirection d (s.wsz w) reg rm (alu aluAdc (s.wsz w))) s
def execAdcRmImm (w : Width) (rm : RM) (imm : Imm) (s : State) : Answer :=
  complete (withImm (s.wsz w) rm imm (alu aluAdc (s.wsz w))) s
def execAdcAccImm (w : Width) (imm : Imm) (s : State) : Answer :=
  complete (withImm (s.wsz w) (.reg .eax) imm (alu aluAdc (s.wsz w))) s

def execIncRm (w : Width) (rm : RM) (s : State) : Answer :=
  complete (do
    let l ← resolve rm
    alu aluInc (s.wsz w) l 1) s
def execIncReg (reg : Reg) (s : State) : Answer := complete (alu aluInc s.osz (.reg reg) 1) s

def execSubRegRm (d : Dir) (w : Width) (reg : Reg) (rm : RM) (s : State) : Answer :=
  complete (byDirection d (s.wsz w) reg rm (alu aluSub (s.wsz w))) s
def execSubRmImm (w : Width) (rm : RM) (imm : Imm) (s : State) : Answer :=
  complete (withImm (s.wsz w) rm imm (alu aluSub (s.wsz w))) s
def execSubAccImm (w : Width) (imm : Imm) (s : State) : Answer :=
  complete (withImm (s.wsz w) (.reg .eax) imm (alu aluSub (s.wsz w))) s

def execSbbRegRm (d : Dir) (w : Width) (reg : Reg) (rm : RM) (s : State) : Answer :=
  complete (byDirection d (s.wsz w) reg rm (alu aluSbb (s.wsz w))) s
def execSbbRmImm (w : Width) (rm : RM) (imm : Imm) (s : State) : Answer :=
  complete (withImm (s.wsz w) rm imm (alu aluSbb (s.wsz w))) s
def execSbbAccImm (w : Width) (imm : Imm) (s : State) : Answer :=
  complete (withImm (s.wsz w) (.reg .eax) imm (alu aluSbb (s.wsz w))) s

def execDecRm (w : Width) (rm : RM) (s : State) : Answer :=
  complete (do
    let l ← resolve rm
    alu aluDec (s.wsz w) l 1) s
def execDecReg (reg : Reg) (s : State) : Answer := complete (alu aluDec s.osz (.reg reg) 1) s

def execCmpRegRm (d : Dir) (w : Width) (reg : Reg) (rm : RM) (s : State) : Answer :=
  complete (byDirection d (s.wsz w) reg rm (compare aluSub (s.wsz w))) s
def execCmpRmImm (w : Width) (rm : RM) (imm : Imm) (s : State) : Answer :=
  complete (withImm (s.wsz w) rm imm (compare aluSub (s.wsz w))) s
def execCmpAccImm (w : Width) (imm : Imm) (s : State) : Answer :=
  complete (withImm (s.wsz w) (.reg .eax) imm (compare aluSub (s.wsz w))) s

def execNeg (w : Width) (rm : RM) (s : State) : Answer :=
  complete (do
    let l ← resolve rm
    alu aluNeg (s.wsz w) l 0) s

/-! Decimal adjustments (R369 to R372, R379, R380). -/

/-- AL. -/
def State.al (s : State) : Dword := s.reg .b8 .eax

/-- AH. -/
def State.ah (s : State) : Dword := s.reg .b8 .esp

/-- AX from AH and AL. -/
def writeAx (ah al : Dword) : M Unit := do
  writeReg .b8 .eax al
  writeReg .b8 .esp ah

/-- The adjustment of AAA and AAS is taken. -/
def State.asciiAdjusts (s : State) : Bool := decide (9 < (s.al &&& 0xF).toNat) || s.eflags.af

/-- AAA and AAS: `step` is added to AL and AH; OF, SF, ZF, PF are undefined (U1, U7). -/
def asciiAdjust (dAl dAh : Dword) : M Unit := do
  let s ← get
  let adj := s.asciiAdjusts
  if adj then writeAx (s.ah + dAh) ((s.al + dAl) &&& 0xF) else writeReg .b8 .eax (s.al &&& 0xF)
  let ofl ← freeBit
  let sf ← freeBit
  let zf ← freeBit
  let pf ← freeBit
  modify fun s => s.setFlags { s.eflags with af := adj, cf := adj, ofl := ofl, sf := sf, zf := zf, pf := pf }

def execAaa (s : State) : Answer := complete (asciiAdjust 6 1) s
def execAas (s : State) : Answer := complete (asciiAdjust (-6) (-1)) s

/-- DAA (R371). -/
def execDaa (s : State) : Answer :=
  complete (do
    let a := s.al
    let low := decide (9 < (a &&& 0xF).toNat) || s.eflags.af
    let high := decide (0x99 < a.toNat) || s.eflags.cf
    let r := trunc .b8 (a + (if low then 6 else 0) + (if high then 0x60 else 0))
    writeReg .b8 .eax r
    let ofl ← freeBit
    changeFlags fun f => { f.withSZP .b8 r with af := low, cf := high, ofl := ofl }) s

/-- DAS (R372): CF is also set by the borrow of the first subtraction. -/
def execDas (s : State) : Answer :=
  complete (do
    let a := s.al
    let low := decide (9 < (a &&& 0xF).toNat) || s.eflags.af
    let high := decide (0x99 < a.toNat) || s.eflags.cf
    let r := trunc .b8 (a - (if low then 6 else 0) - (if high then 0x60 else 0))
    writeReg .b8 .eax r
    let ofl ← freeBit
    changeFlags fun f => { f.withSZP .b8 r with
      af := low, cf := high || (low && (s.eflags.cf || decide (a.toNat < 6))), ofl := ofl }) s

/-- SF, ZF, PF from AL; OF, AF, CF undefined (R379, R380). -/
def flagsFromAl (al : Dword) : M Unit := do
  let ofl ← freeBit
  let af ← freeBit
  let cf ← freeBit
  modify fun s => s.setFlags { s.eflags.withSZP .b8 al with ofl := ofl, af := af, cf := cf }

/-- AAD (R379): the second byte is the multiplier (log 18). -/
def execAad (base : BitVec 8) (s : State) : Answer :=
  complete (do
    let r := trunc .b8 (s.ah * base.setWidth 32 + s.al)
    writeAx 0 r
    flagsFromAl r) s

/-- AAM (R380): the second byte is the divisor, 0 raises exception 0 (60_exceptions.md R651; log 18). -/
def execAam (base : BitVec 8) (s : State) : Answer :=
  complete (do
    raiseIf (base == 0) Exn.de
    let b : Dword := base.setWidth 32
    writeAx (s.al / b) (s.al % b)
    flagsFromAl (s.al % b)) s

/-! Multiplication and division (R373 to R378). -/

/-- SF, ZF, AF, PF undefined; CF = OF = `wide` (R373). -/
def multiplyFlags (wide : Bool) : M Unit := do
  let sf ← freeBit
  let zf ← freeBit
  let af ← freeBit
  let pf ← freeBit
  modify fun s => s.setFlags { s.eflags with cf := wide, ofl := wide, sf := sf, zf := zf, af := af, pf := pf }

/-- All six arithmetic flags undefined. -/
def undefinedFlags : M Unit := do
  let ofl ← freeBit
  let sf ← freeBit
  let zf ← freeBit
  let af ← freeBit
  let pf ← freeBit
  let cf ← freeBit
  modify fun s => s.setFlags { s.eflags with ofl := ofl, sf := sf, zf := zf, af := af, pf := pf, cf := cf }

/-- The double-width accumulator: AX, DX:AX or EDX:EAX. -/
def State.wideAcc (s : State) (sz : Size) : Nat :=
  match sz with
  | .b8 => (s.reg .b16 .eax).toNat
  | _ => (s.reg sz .edx).toNat * 2 ^ sz.bits + (s.reg sz .eax).toNat

/-- Write the two halves of the double-width accumulator: AH:AL, DX:AX or EDX:EAX. -/
def writeWide (sz : Size) (high low : Dword) : M Unit :=
  match sz with
  | .b8 => writeAx high low
  | _ => do
    writeReg sz .eax low
    writeReg sz .edx high

/-- The low `sz` bits of an integer. -/
def lowHalf (sz : Size) (v : Int) : Dword := trunc sz (BitVec.ofInt 32 v)

/-- The next `sz` bits of an integer. -/
def highHalf (sz : Size) (v : Int) : Dword := lowHalf sz (v / 2 ^ sz.bits)

def execMul (w : Width) (rm : RM) (s : State) : Answer :=
  complete (do
    let sz := s.wsz w
    let m ← readRm sz rm
    let p : Int := (s.reg sz .eax).toNat * m.toNat
    writeWide sz (highHalf sz p) (lowHalf sz p)
    multiplyFlags (highHalf sz p != 0)) s

/-- The product does not fit in its lower half as a signed value. -/
def signedOverflow (sz : Size) (p : Int) : Bool := p != signedVal sz (lowHalf sz p)

def execImulAcc (w : Width) (rm : RM) (s : State) : Answer :=
  complete (do
    let sz := s.wsz w
    let m ← readRm sz rm
    let p := signedVal sz (s.reg sz .eax) * signedVal sz m
    writeWide sz (highHalf sz p) (lowHalf sz p)
    multiplyFlags (signedOverflow sz p)) s

/-- IMUL to a register (R375, R376). -/
def multiplyTo (reg : Reg) (sz : Size) (a b : Dword) : M Unit := do
  let p := signedVal sz a * signedVal sz b
  writeReg sz reg (lowHalf sz p)
  multiplyFlags (signedOverflow sz p)

def execImulReg (reg : Reg) (rm : RM) (s : State) : Answer :=
  complete (do
    let m ← readRm s.osz rm
    multiplyTo reg s.osz (s.reg s.osz reg) m) s

def execImulImm (reg : Reg) (rm : RM) (imm : Imm) (s : State) : Answer :=
  complete (do
    let m ← readRm s.osz rm
    multiplyTo reg s.osz m (immValue s.osz imm)) s

/-- The quotient does not fit, or the divisor is 0 (R377). -/
def divideError (sz : Size) (dividend divisor : Nat) : Bool :=
  divisor == 0 || decide (2 ^ sz.bits ≤ dividend / divisor)

def execDiv (w : Width) (rm : RM) (s : State) : Answer :=
  complete (do
    let sz := s.wsz w
    let d ← readRm sz rm
    let n := s.wideAcc sz
    raiseIf (divideError sz n d.toNat) Exn.de
    writeWide sz (BitVec.ofNat 32 (n % d.toNat)) (BitVec.ofNat 32 (n / d.toNat))
    undefinedFlags) s

/-- The dividend as a signed value of twice the width. -/
def State.signedWideAcc (s : State) (sz : Size) : Int :=
  let n := s.wideAcc sz
  if n < 2 ^ (2 * sz.bits - 1) then n else (n : Int) - 2 ^ (2 * sz.bits)

/-- The signed quotient, truncated toward zero, is outside −2^(n−1) … 2^(n−1)−1, or the divisor is 0 (R378). DESIGN
CHOICE (log 46): a quotient of −2^(n−1) completes, as R378's range says; 93_implementation_defined.md G.5 says otherwise. -/
def signedDivideError (sz : Size) (dividend divisor : Int) : Bool :=
  divisor == 0 || decide (dividend.tdiv divisor < -(2 ^ (sz.bits - 1))) ||
    decide (2 ^ (sz.bits - 1) ≤ dividend.tdiv divisor)

def execIdiv (w : Width) (rm : RM) (s : State) : Answer :=
  complete (do
    let sz := s.wsz w
    let d ← readRm sz rm
    let n := s.signedWideAcc sz
    let d := signedVal sz d
    raiseIf (signedDivideError sz n d) Exn.de
    writeWide sz (lowHalf sz (n.tmod d)) (lowHalf sz (n.tdiv d))
    undefinedFlags) s

/-! Conversions (R381, R382). -/

/-- CBW; CWDE with osz = 32. -/
def execCbw (s : State) : Answer :=
  complete (if s.osz32 then writeReg .b32 .eax (signExtend .b16 s.regs.eax)
    else writeReg .b16 .eax (signExtend .b8 s.regs.eax)) s

/-- CWD; CDQ with osz = 32. -/
def execCwd (s : State) : Answer :=
  complete (writeReg s.osz .edx (if signBit s.osz s.regs.eax then 0xFFFFFFFF else 0)) s

end Sys2Proof.Machine
end

