-- ==== Sys2Proof/Machine/Processor.lean ====
section
/-! DEFINITION. Prefixes, HLT, MOV to and from control, debug and test registers, NOP, WAIT and ESC
(47_processor_control.md). -/

namespace Sys2Proof.Machine

/-! Prefix bytes (R612 to R616; log 8). The prefix is noted for the instruction that follows. -/

/-- One more prefix byte has been read. -/
def State.notePrefix (s : State) (f : Prefixes → Prefixes) : Answer :=
  .next { s with pfx := { f s.pfx with count := s.pfx.count + 1 } }

def execAddrsize (s : State) : Answer := s.notePrefix fun p => { p with addrsize := true }
def execOpsize (s : State) : Answer := s.notePrefix fun p => { p with opsize := true }
def execLock (s : State) : Answer := s.notePrefix fun p => { p with lock := true }
def execSegCs (s : State) : Answer := s.notePrefix fun p => { p with seg := some .cs }
def execSegDs (s : State) : Answer := s.notePrefix fun p => { p with seg := some .ds }
def execSegEs (s : State) : Answer := s.notePrefix fun p => { p with seg := some .es }
def execSegFs (s : State) : Answer := s.notePrefix fun p => { p with seg := some .fs }
def execSegGs (s : State) : Answer := s.notePrefix fun p => { p with seg := some .gs }
def execSegSs (s : State) : Answer := s.notePrefix fun p => { p with seg := some .ss }
def execRepneRep (s : State) : Answer := s.notePrefix fun p => { p with rep := some .f2 }
def execRepeRep (s : State) : Answer := s.notePrefix fun p => { p with rep := some .f3 }

/-! HLT (R580). -/

/-- The halted state, with its indication cycle. -/
def State.halt (s : State) : State := { s with runState := .halted, bus := .halt :: s.bus }

def execHlt (s : State) : Answer :=
  complete (do
    checkCpl0
    modify State.halt) s

/-! Control registers (R585 to R587, 10_state.md R56, R57). -/

/-- The defined bits of CR0 as a dword, the reserved ones 0. -/
def Cr0.word (c : Cr0) : Dword :=
  bitAt c.pe 0 ||| bitAt c.mp 1 ||| bitAt c.em 2 ||| bitAt c.ts 3 ||| bitAt c.et 4 ||| bitAt c.pg 31

def Cr0.ofWord (v : Dword) : Cr0 :=
  { pe := v.getLsbD 0, mp := v.getLsbD 1, em := v.getLsbD 2, ts := v.getLsbD 3, et := v.getLsbD 4, pg := v.getLsbD 31 }

/-- `v` in the positions of `mask`, a free value in the others (U11). -/
def withReserved (mask v : Dword) : M Dword := do
  let u ← freeDword
  pure ((v &&& mask) ||| (u &&& ~~~mask))

/-- A move to a special register: the privilege check, `write`, and the six undefined flags (U1). -/
def moveTo (write : State → State) : M Unit := do
  checkCpl0
  modify write
  undefinedFlags

/-- A move from a special register whose defined bits are `mask`. -/
def moveFrom (reg : Reg) (mask : Dword) (value : State → Dword) : M Unit := do
  checkCpl0
  let s ← get
  let v ← withReserved mask (value s)
  writeReg .b32 reg v
  undefinedFlags

def State.setCr0 (s : State) (c : Cr0) : State := { s with cr0 := c }

/-- PG = 1 with PE = 0 raises #GP(0). Code prefetched under the old mode may stay in the queue. -/
def execMovCr0Reg (reg : Reg) (s : State) : Answer :=
  complete (do
    checkCpl0
    let c := Cr0.ofWord (s.regs.get reg)
    raiseIf (c.pg && !c.pe) (Exn.gp 0)
    modify fun s => (s.setCr0 c).queueSince s
    undefinedFlags) s

def State.setCr2 (s : State) (v : Dword) : State := { s with cr2 := v }

def execMovCr2Reg (reg : Reg) (s : State) : Answer :=
  complete (moveTo fun s => s.setCr2 (s.regs.get reg)) s

def execMovCr3Reg (reg : Reg) (s : State) : Answer :=
  complete (moveTo fun s => (s.setCr3 (s.regs.get reg)).queueSince s) s

def execMovRegCr0 (reg : Reg) (s : State) : Answer := complete (moveFrom reg 0x8000001F fun s => s.cr0.word) s
def execMovRegCr2 (reg : Reg) (s : State) : Answer := complete (moveFrom reg 0xFFFFFFFF fun s => s.cr2) s
def execMovRegCr3 (reg : Reg) (s : State) : Answer := complete (moveFrom reg 0xFFFFF000 fun s => s.cr3 ++ 0#12) s

/-! Debug registers (R588 to R591, 10_state.md R66). -/

/-- General detect: a debug fault with DR6.BD (60_exceptions.md R730; log 22). -/
def Exn.generalDetect : Exn := { Exn.fault 1 none with dr6 := 0x2000 }

/-- Raises general detect if DR7.GD = 1. DESIGN CHOICE (log 22): right after MOV SS or POP SS too, as a fault of the
instruction itself, where 70_reset_and_hazards.md R778 inhibits debug exceptions and yet delivers a fault of that
instruction. -/
def checkDetect : M Unit := do
  let s ← get
  raiseIf (s.dr7.getLsbD 13) Exn.generalDetect

/-- The defined bits of DR6. -/
def dr6Mask : Dword := 0x0000E00F

/-- The defined bits of DR7. -/
def dr7Mask : Dword := 0xFFFF23FF

def moveToDebug (write : State → State) : M Unit := do
  checkDetect
  moveTo write

def moveFromDebug (reg : Reg) (mask : Dword) (value : State → Dword) : M Unit := do
  checkDetect
  moveFrom reg mask value

def State.setDr0 (s : State) (v : Dword) : State := { s with dr0 := v }
def State.setDr1 (s : State) (v : Dword) : State := { s with dr1 := v }
def State.setDr2 (s : State) (v : Dword) : State := { s with dr2 := v }
def State.setDr3 (s : State) (v : Dword) : State := { s with dr3 := v }
def State.setDr6 (s : State) (v : Dword) : State := { s with dr6 := v &&& dr6Mask }
def State.setDr7 (s : State) (v : Dword) : State := { s with dr7 := v &&& dr7Mask }

def execMovDr0Reg (reg : Reg) (s : State) : Answer := complete (moveToDebug fun s => s.setDr0 (s.regs.get reg)) s
def execMovRegDr0 (reg : Reg) (s : State) : Answer := complete (moveFromDebug reg 0xFFFFFFFF fun s => s.dr0) s
def execMovDr1Reg (reg : Reg) (s : State) : Answer := complete (moveToDebug fun s => s.setDr1 (s.regs.get reg)) s
def execMovRegDr1 (reg : Reg) (s : State) : Answer := complete (moveFromDebug reg 0xFFFFFFFF fun s => s.dr1) s
def execMovDr2Reg (reg : Reg) (s : State) : Answer := complete (moveToDebug fun s => s.setDr2 (s.regs.get reg)) s
def execMovRegDr2 (reg : Reg) (s : State) : Answer := complete (moveFromDebug reg 0xFFFFFFFF fun s => s.dr2) s
def execMovDr3Reg (reg : Reg) (s : State) : Answer := complete (moveToDebug fun s => s.setDr3 (s.regs.get reg)) s
def execMovRegDr3 (reg : Reg) (s : State) : Answer := complete (moveFromDebug reg 0xFFFFFFFF fun s => s.dr3) s
def execMovDr6Reg (reg : Reg) (s : State) : Answer := complete (moveToDebug fun s => s.setDr6 (s.regs.get reg)) s
def execMovRegDr6 (reg : Reg) (s : State) : Answer := complete (moveFromDebug reg dr6Mask fun s => s.dr6) s
def execMovDr7Reg (reg : Reg) (s : State) : Answer := complete (moveToDebug fun s => s.setDr7 (s.regs.get reg)) s
def execMovRegDr7 (reg : Reg) (s : State) : Answer := complete (moveFromDebug reg dr7Mask fun s => s.dr7) s

/-! Test registers: plain storage (R592, R593, D14; log 14). -/

def State.setTr6 (s : State) (v : Dword) : State := { s with tr6 := v }
def State.setTr7 (s : State) (v : Dword) : State := { s with tr7 := v }

def execMovTr6Reg (reg : Reg) (s : State) : Answer := complete (moveTo fun s => s.setTr6 (s.regs.get reg)) s
def execMovRegTr6 (reg : Reg) (s : State) : Answer := complete (moveFrom reg 0xFFFFFFFF fun s => s.tr6) s
def execMovTr7Reg (reg : Reg) (s : State) : Answer := complete (moveTo fun s => s.setTr7 (s.regs.get reg)) s
def execMovRegTr7 (reg : Reg) (s : State) : Answer := complete (moveFrom reg 0xFFFFFFFF fun s => s.tr7) s

/-! NOP and WAIT (R605, R606). -/

def execNop (s : State) : Answer := complete (pure ()) s

/-- How WAIT and ESC end: BUSY# asserted means they are tried again at the next boundary. -/
def State.retireBusy (waiting : Bool) (s s' : State) : State := if waiting then s.retireWaiting s' else s.retire s'

/-- It answers whether BUSY# is still asserted. -/
def waitReady : M Bool := do
  let s ← get
  raiseIf (s.cr0.mp && s.cr0.ts) Exn.nm
  if s.pins.busy then pure true
  else do
    raiseIf s.pins.error Exn.mf
    pure false

def execWait (s : State) : Answer := finish State.retireBusy waitReady s

/-! ESC (R610; log 24). -/

/-- The two bytes of the opcode, the first one in the low byte. -/
def escOpcode (ttt lll : BitVec 3) (rm : RM) : Word :=
  let bytes := encode (.esc ttt lll rm)
  (bytes.getD 1 0) ++ (bytes.getD 0 0)

/-- FNINIT and FNCLEX do not wait for BUSY#. -/
def busyExempt (op : Word) : Bool := op == 0xE3DB || op == 0xE2DB

/-- FSTSW AX. -/
def isFstswAx (op : Word) : Bool := op == 0xE0DF

/-- FSTSW mem (DD /7) and FSTCW mem (D9 /7). -/
def storesStatus (ttt lll : BitVec 3) (rm : RM) : Bool := RM.isMem rm && (ttt == 5 || ttt == 1) && lll == 7

/-- FSAVE mem (DD /6) and FSTENV mem (D9 /6). -/
def storesEnvironment (ttt lll : BitVec 3) (rm : RM) : Bool := RM.isMem rm && (ttt == 5 || ttt == 1) && lll == 6

/-- FNINIT, FNCLEX, FSTSW, FSTSW AX, FSTCW, FSTENV, FSAVE do not look at ERROR#. DESIGN CHOICE (log 24): FESTENV and FESAVE,
which R610 lists too and gives no encoding for, have no opcode beside those of FSTENV and FSAVE. -/
def errorExempt (ttt lll : BitVec 3) (rm : RM) : Bool :=
  let op := escOpcode ttt lll rm
  busyExempt op || isFstswAx op || storesStatus ttt lll rm || storesEnvironment ttt lll rm

/-- How many bytes one cycle at the operand port moves: 2 for an 80287, 4 for an 80387, by CR0.ET (20_memory.md R106). -/
def State.copUnit (s : State) : Nat := if s.cr0.et then 4 else 2

/-- The transfers of this opcode: what the coprocessor asks for on PEREQ. With no coprocessor the stores of the presence
test take what the data bus returns (70_reset_and_hazards.md R768, U12), and nothing else is asked for. -/
def State.copTransfers (s : State) (ttt lll : BitVec 3) (rm : RM) : CopRequest :=
  if s.params.coprocessor = .none then
    if isFstswAx (escOpcode ttt lll rm) || storesStatus ttt lll rm then { toMemory := true, count := 2, data := [] }
    else CopRequest.none
  else if s.pins.pereq then s.copRequest
  else CopRequest.none

/-- How many bytes of a memory operand are checked before the instruction is executed (note q): the whole operand that is
asked for, its first byte if none is. DEDUCED (log 24): through SS, of which note q names the starting address, the first
transfer; a later one past the limit is exception 9. -/
def CopRequest.checked (r : CopRequest) (unit : Nat) (sr : SReg) : Nat :=
  max 1 (if sr = .ss then min unit r.count else r.count)

/-- The segment checks before the instruction is executed. -/
def checkEscOperand (l : Loc) (r : CopRequest) : M Unit :=
  match l with
  | .reg _ => pure ()
  | .mem sr off => do
    let s ← get
    segCheck sr off (r.checked s.copUnit sr) r.toMemory

/-- The page of the first transfer, if there is one. -/
def checkEscPage (l : Loc) (r : CopRequest) : M Unit :=
  match l with
  | .reg _ => pure ()
  | .mem sr off => do
    let s ← get
    if r.count = 0 then pure ()
    else do
      let _ ← physRange r.toMemory s.isUser (s.linear sr off) (min s.copUnit r.count)
      pure ()

/-- A memory operand as the processor holds it, nothing of it transferred yet. DESIGN CHOICE (log 24): with its segment as
the ESC finds it and the level the ESC runs at, so that what later instructions do to them does not move the operand. -/
def State.heldOperand (s : State) : Loc → Option CopOperand
  | .reg _ => none
  | .mem sr off =>
    some { seg := sr, off := off, cache := s.seg sr, rights := s.cr0.pe, user := s.isUser, moved := 0, live := true }

/-- The opcode and the operand are held, and the opcode is written to port 800000F8H. -/
def State.startEsc (s : State) (op : Word) (l : Loc) : State :=
  { s with copOpcode := op, copOperand := s.heldOperand l, bus := .coprocessorOpcode op s.cr0.et :: s.bus }

/-- Bytes `k` and up, `n` in all, that the operand port answers: the request's, or free values. -/
def copBytes (data : List Byte) (k : Nat) : Nat → M (List Byte)
  | 0 => pure []
  | n + 1 => do
    let u ← freeDword
    let rest ← copBytes data (k + 1) n
    pure (data.getD k (u.setWidth 8) :: rest)

/-- `n` bytes read from the operand port: the cycle is as wide as the port is (20_memory.md R106). -/
def readCop (data : List Byte) (k n : Nat) : M (List Byte) := do
  let s ← get
  logCycles [.coprocessorRead s.copUnit]
  copBytes data k n

/-- Bytes written to the operand port: the cycle is as wide as the port is, what the operand does not fill being free
values (20_memory.md R106; log 24). -/
def writeCop (bs : List Byte) : M Unit := do
  let s ← get
  let pad ← copBytes [] 0 (s.copUnit - bs.length)
  logCycles [.coprocessorWrite (bs ++ pad)]

/-- `n` bytes of the operand from byte `k` on pass the checks of 20_memory.md R192. -/
def CopOperand.fits (o : CopOperand) (k n : Nat) (write : Bool) : Bool :=
  o.cache.limitOk (o.off + BitVec.ofNat 32 k) n && (!o.rights || o.cache.rightsOk write)

/-- The linear address of its byte `k`. -/
def CopOperand.linear (o : CopOperand) (k : Nat) : Dword := o.cache.base + (o.off + BitVec.ofNat 32 k)

/-- `k` bytes of the operand `o` have been transferred. -/
def State.copMoved (s : State) (o : CopOperand) (k : Nat) : State := { s with copOperand := some { o with moved := k } }

/-- One transfer of `n` bytes, `k` bytes into the operand (20_memory.md R107). -/
def transferUnit (r : CopRequest) (o : CopOperand) (k n : Nat) : M Unit := do
  raiseIf (!o.fits k n r.toMemory) (segFault o.seg)
  let as ← physRange r.toMemory o.user (o.linear k) n
  if r.toMemory then do
    let bs ← readCop r.data k n
    noteAccess true (o.linear k) n
    writePhys as bs
  else do
    noteAccess false (o.linear k) n
    let bs ← readPhys as
    writeCop bs
  modify fun s => s.copMoved o (k + n)

/-- No more of the held operand is transferred. -/
def State.endTransfers (s : State) : State := { s with copOperand := s.copOperand.map fun o => { o with live := false } }

/-- A fault part-way through the transfers is exception 9, an abort: what has been transferred stays (R610,
70_reset_and_hazards.md R782), and no more follows. DESIGN CHOICE (log 24): CR2 does not take the address of a page fault that is reported so, of
which 10_state.md R57 does not speak. -/
def overrunning (m : M Unit) : M Unit := fun s =>
  match m s with
  | .ok a s' => .ok a s'
  | .error (.exn _ _) s' => .error (.exn Exn.overrun .memory) s'.endTransfers
  | .error e s' => .error e s'

/-- The transfers from byte `k` on, `unit` bytes at a time; `fuel` is the number of bytes. -/
def transferRest (r : CopRequest) (o : CopOperand) (unit : Nat) : Nat → Nat → M Unit
  | 0, _ => pure ()
  | fuel + 1, k =>
    if r.count ≤ k then pure ()
    else do
      transferUnit r o k (min unit (r.count - k))
      transferRest r o unit fuel (k + unit)

/-- The transfers of a memory operand that are asked for when the ESC is executed. The first one has been checked. -/
def transferAll (r : CopRequest) (o : CopOperand) : M Unit := do
  let s ← get
  if r.count = 0 then pure ()
  else do
    transferUnit r o 0 (min s.copUnit r.count)
    overrunning (transferRest r o s.copUnit r.count s.copUnit)

/-- The transfers that are asked for after that, while later instructions run (70_reset_and_hazards.md R782). -/
def transferMore : M Unit := do
  let s ← get
  match s.copOperand with
  | none => pure ()
  | some o => overrunning (transferRest s.copRequest o s.copUnit s.copRequest.count o.moved)

/-- Serve the transfers of an opcode. FSTSW AX moves its word to AX; no other opcode without a memory operand moves
anything. -/
def serveTransfers (op : Word) (r : CopRequest) : M Unit := do
  let s ← get
  match s.copOperand with
  | some o => transferAll r o
  | none =>
    if isFstswAx op && r.toMemory && decide (r.count ≠ 0) then do
      let bs ← readCop r.data 0 2
      writeReg .b16 .eax (leDword bs)
    else pure ()

/-- The opcode waits for a transfer that never comes: with no coprocessor PEREQ is never asserted (U12). DEDUCED (log 24):
every opcode with a memory operand waits for one, but for FSTSW mem and FSTCW mem, which complete with what the data bus
returns (70_reset_and_hazards.md R768). -/
def State.hangs (s : State) (ttt lll : BitVec 3) (rm : RM) : Bool :=
  s.params.coprocessor == .none && RM.isMem rm && !storesStatus ttt lll rm

/-- Serve the transfers, or wait for ever. -/
def serveOrHang (hangs : Bool) (op : Word) (r : CopRequest) : M Unit := do
  let s ← get
  if hangs then stopFault (.noPereq s) else serveTransfers op r

/-- It answers whether BUSY# is still asserted. -/
def escape (ttt lll : BitVec 3) (rm : RM) : M Bool := do
  let s ← get
  raiseIf (s.cr0.em || s.cr0.ts) Exn.nm
  let l ← resolve rm
  let r := s.copTransfers ttt lll rm
  checkEscOperand l r
  checkEscPage l r
  let op := escOpcode ttt lll rm
  if s.pins.busy && !busyExempt op then pure true
  else do
    raiseIf (s.pins.error && !errorExempt ttt lll rm) Exn.mf
    modify fun s => s.startEsc op l
    serveOrHang (s.hangs ttt lll rm) op r
    pure false

def execEsc (ttt lll : BitVec 3) (rm : RM) (s : State) : Answer := finish State.retireBusy (escape ttt lll rm) s

end Sys2Proof.Machine
end

