-- ==== Sys2Proof/Machine/Boundary.lean ====
section
/-! DEFINITION. What happens at an instruction boundary instead of an instruction, in the order of 60_exceptions.md R656
(log 21). -/

namespace Sys2Proof.Machine

/-- RESET (60_exceptions.md R664): memory, the environment and the parameters stay. -/
def State.resetPin (s : State) : State :=
  { State.resetWith s.params with
    mem := s.mem
    ioInputs := s.ioInputs
    bus := s.bus
    deviceBus := s.deviceBus
    pins := s.pins
    copRequest := s.copRequest
    draws := s.draws }

/-- A byte in memory when the step that changes it from `old` to `new` is cut short, as the free value `u` says: either,
or, with paging on, `old` with A set and not yet D, bits 5 and 6 of a table entry. -/
def cutByte (paging : Bool) (u : Dword) (old new : Byte) : Byte :=
  if u.getLsbD 0 then new else if paging && u.getLsbD 1 then old ||| (new &&& 0x20) else old

/-- `m`, in which the bytes at the addresses `as` become as `cutByte` says on the way to `new`, from draw `k` on. -/
def Memory.partly (paging : Bool) (new : List Host.Cell) : List Dword → Nat → List Host.Cell → List Host.Cell
  | [], _, m => m
  | a :: as, k, m =>
    Memory.partly paging new as (k + 1)
      (Memory.write m a.toNat (cutByte paging (Config.freeDword k) (Memory.read m a.toNat) (Memory.read new a.toNat)))

/-- RESET while the step from `s` to `t` is being done (70_reset_and_hazards.md R750): any of the bytes the step writes
may have been written, and any number of its bus cycles, counted from the first, may have run (log 53). -/
def State.cutBy (s t : State) : State :=
  let as := (t.mem ++ s.mem).map fun c => BitVec.ofNat 32 c.1
  let ran := t.bus.length - s.bus.length
  let bus := t.bus.drop ((Config.freeDword t.draws).toNat % (ran + 1))
  let seen := t.deviceBus.dropWhile fun c => decide (bus.length < c.after)
  let last := min (seen.length - s.deviceBus.length) (seen.takeWhile fun c => c.after == bus.length).length
  { s.resetPin with
    mem := Memory.partly s.cr0.pg t.mem as (t.draws + 2) s.mem
    bus := bus
    deviceBus := seen.drop ((Config.freeDword (t.draws + 1)).toNat % (last + 1))
    draws := t.draws + 2 + as.length }

/-- An event between instructions saves EIP as it is. -/
def State.atBoundary (s : State) : State := { s with instrEip := s.eip }

/-- Debug traps pend and are not inhibited (10_state.md R74). -/
def State.debugTrapDue (s : State) : Bool := s.pendingDb != 0 && s.shadow != .ss

/-- The debug trap with all the DR6 bits that pend (60_exceptions.md R730, R731). DESIGN CHOICE (log 21): a fault of its
delivery saves the EIP of the next instruction too, where R652 names the instruction that caused the first exception: that
one has completed and is not run again. -/
def takeDebugTrap (s : State) : Answer :=
  takeException (Exn.dbTrap s.pendingDb) { s.atBoundary with pendingDb := 0 }

/-- Instruction breakpoint `n` matches: R/W = 00, LEN = 00, enabled, at the linear address of the next instruction. -/
def State.breakAt (s : State) (n : Nat) : Bool :=
  dr7Enabled s.dr7 n && dr7Rw s.dr7 n == 0 && dr7Len s.dr7 n == 0 && s.drAddress n == s.linear .cs s.eip

/-- The DR6 bits of the instruction breakpoints that match. -/
def State.breakBits (s : State) : Dword :=
  bitAt (s.breakAt 0) 0 ||| bitAt (s.breakAt 1) 1 ||| bitAt (s.breakAt 2) 2 ||| bitAt (s.breakAt 3) 3

/-- An instruction breakpoint is due: RF suppresses it (R657 step 1), and MOV SS or POP SS before it inhibits it
(70_reset_and_hazards.md R778: "debug exceptions and single-step traps"). -/
def State.breakDue (s : State) : Bool := !s.eflags.rf && s.shadow != .ss && s.breakBits != 0

/-- The debug fault of an instruction breakpoint: the pushed image keeps RF (R675). -/
def takeBreakpoint (s : State) : Answer := takeException (Exn.dbTrap s.breakBits) s.atBoundary

/-- The code bytes from a linear address on, as far as they are known before the fetch: from memory as its tables translate
the address, or from the prefetch queue where a device has answered. DESIGN CHOICE (log 59): what a device has not yet been
asked for is not known, and neither is what nothing answers; DESIGN CHOICE (log 15): a byte that the queue may hold from
before a change of mode or of page tables is looked at in memory. -/
def State.peekBytes (s : State) (l : Dword) : Nat → List Byte
  | 0 => []
  | n + 1 =>
    match s.heldByte l, s.peekPhys l with
    | some b, _ => b :: s.peekBytes (l + 1) n
    | none, some p => if s.isDevice p || s.isAbsent p then [] else s.readByte p :: s.peekBytes (l + 1) n
    | none, none => []

/-- A prefix byte. -/
def isPrefixByte (b : Byte) : Bool :=
  b == 0x26 || b == 0x2E || b == 0x36 || b == 0x3E || (decide (0x64 ≤ b.toNat) && decide (b.toNat ≤ 0x67)) || b == 0xF0 ||
    b == 0xF2 || b == 0xF3

/-- After its prefixes the instruction is a MOV to or from a debug register. -/
def leadsToMovDr : List Byte → Bool
  | [] => false
  | b :: rest =>
    if isPrefixByte b then leadsToMovDr rest
    else b == 0x0F && (rest.head? == some 0x21 || rest.head? == some 0x23)

/-- General detect will stop the next instruction: it comes before NMI and INTR (R656). No iteration of a repeated string
instruction is a MOV to or from a debug register. DESIGN CHOICE (log 22): only the bytes are looked at, so NMI and INTR
wait too behind another fault that such an instruction raises first (a bad LOCK, the CS limit, a page fault of its fetch, an
unlisted register number), which R656 and R657 do not order against them. -/
def State.detectDue (s : State) : Bool :=
  s.pfx.again == none && s.dr7.getLsbD 13 && s.shadow != .ss && leadsToMovDr (s.peekBytes (s.linear .cs s.eip) maxLength)

/-- An NMI is pending and may be processed (10_state.md R70, R74). -/
def State.nmiDue (s : State) : Bool := s.nmiPending && !s.nmiInService && s.shadow != .ss

/-- NMI (60_exceptions.md R661). -/
def State.nmiTaken (s : State) : State := { s.atBoundary with nmiPending := false, nmiInService := true }

def takeNmi (s : State) : Answer := deliverEvent (hardwareEvent 2 s.eip) s.nmiTaken

/-- INTR is asserted, enabled and not inhibited. -/
def State.intrDue (s : State) : Bool := s.pins.intr && s.eflags.ifl && s.shadow == .none

/-- INTR with its two acknowledge cycles (60_exceptions.md R662; 20_memory.md R146). -/
def takeIntr (s : State) : Answer :=
  deliverEvent (hardwareEvent s.pins.intVector s.eip)
    { s.atBoundary with bus := .intAck 0 :: .intAck 4 :: s.bus }

/-! Coprocessor transfers between instructions (70_reset_and_hazards.md R782; log 24). -/

/-- The coprocessor asks, between two instructions, for bytes of the operand of its opcode that have not been transferred
yet. A halted or shut down machine does not serve it (60_exceptions.md R740, R741). -/
def State.copDue (s : State) : Bool :=
  s.pins.pereq && s.runState == .running && s.params.coprocessor != .none &&
    match s.copOperand with
    | none => false
    | some o => o.live && decide (o.moved < s.copRequest.count)

/-- The step that serves them: the instruction at CS:EIP waits. A fault is exception 9, part-way as it is, with the EIP of
that instruction saved (log 24). -/
def serveLater (s : State) : Answer := finish (fun _ _ s' => s') transferMore s.atBoundary

/-- In shutdown only NMI and RESET count; a delivery that fails leaves the machine shut down (60_exceptions.md R741).
DESIGN CHOICE (log 25): an NMI that comes while another is in service is held in shutdown too (10_state.md R70), and the EIP
that is saved is EIP as the fetch left it, past the instruction that shut the machine down: R741 and R652 say neither. -/
def stepShutdown (s : State) : Answer :=
  if s.nmiDue then
    match deliver (hardwareEvent 2 s.eip) s.nmiTaken with
    | .ok _ s' => .next s'.handlerEntered
    | .error (.exn e _) s' =>
      .next (({ s with nmiPending := false, draws := s'.draws, deviceBus := s'.deviceBus } : State).noteException e)
    | .error (.fault f) _ => .fault f
    | .error (.refuse r) _ => .refused r
  else .next s

/-- What takes the place of the next instruction, if anything does (R656). A halted machine waits (R740; log 25). -/
def boundary (s : State) : Option Answer :=
  if s.runState = .shutdown then some (stepShutdown s)
  else if s.debugTrapDue then some (takeDebugTrap s)
  else if s.runState = .running && s.breakDue then some (takeBreakpoint s)
  else if s.runState = .running && s.detectDue then none
  else if s.nmiDue then some (takeNmi s)
  else if s.intrDue then some (takeIntr s)
  else if s.runState = .halted then some (.next s)
  else none

/-- What a step does instead of an instruction: HOLD gives the bus away, in every run state, and nothing happens until it
is negated (20_memory.md R170, R172; log 54); the rest comes only before an instruction's first byte (60_exceptions.md
R663), the transfers that the coprocessor waits for before the events of R656 (log 24). -/
def interruption (s : State) : Option Answer :=
  if s.pins.hold then some (.next s)
  else if s.pfx.count ≠ 0 then none
  else if s.copDue then some (serveLater s)
  else boundary s

end Sys2Proof.Machine
end

