-- ==== Sys2Proof/Machine/Logic.lean ====
section
/-! DEFINITION. Shift, rotate and boolean instructions (42_logic.md). -/

namespace Sys2Proof.Machine

/-! Shifts and rotates (R400). -/

/-- The operand of a shift by `count`: a count of 0 only reads it. -/
def readShifted (sz : Size) (l : Loc) (count : Nat) : M Dword := if count = 0 then readLoc sz l else readToUpdate sz l

/-- A shift or rotate of a value at a size by a count from 1 to 31, with the flags before and a free dword for the flag
bits that are undefined: bit 0 for OF, bit 1 for AF, bit 2 for CF. -/
abbrev ShiftOp := Size → Nat → Dword → Eflags → Dword → Dword × Eflags

/-- OF is defined for a count of 1 only. -/
def oneOr (c : Nat) (b : Bool) (u : Dword) : Bool := if c = 1 then b else u.getLsbD 0

/-- ROL (R401). -/
def shiftRol : ShiftOp := fun sz c v f u =>
  let k := c % sz.bits
  let r := trunc sz ((v <<< k) ||| (v >>> (sz.bits - k)))
  (r, { f with cf := r.getLsbD 0, ofl := oneOr c (signBit sz r ^^ r.getLsbD 0) u })

/-- ROR (R402). -/
def shiftRor : ShiftOp := fun sz c v f u =>
  let k := c % sz.bits
  let r := trunc sz ((v >>> k) ||| (v <<< (sz.bits - k)))
  (r, { f with cf := signBit sz r, ofl := oneOr c (signBit sz r ^^ r.getLsbD (sz.bits - 2)) u })

/-- `k` single rotates left through carry (R403). -/
def rotateCarryLeft (sz : Size) : Nat → Dword × Bool → Dword × Bool
  | 0, p => p
  | k + 1, p => rotateCarryLeft sz k (trunc sz (p.1 <<< 1) ||| bitAt p.2 0, signBit sz p.1)

/-- `k` single rotates right through carry (R404). -/
def rotateCarryRight (sz : Size) : Nat → Dword × Bool → Dword × Bool
  | 0, p => p
  | k + 1, p => rotateCarryRight sz k ((p.1 >>> 1) ||| bitAt p.2 (sz.bits - 1), p.1.getLsbD 0)

/-- RCL (R403): OF from the result. -/
def shiftRcl : ShiftOp := fun sz c v f u =>
  let p := rotateCarryLeft sz (c % (sz.bits + 1)) (v, f.cf)
  (p.1, { f with cf := p.2, ofl := oneOr c (signBit sz p.1 ^^ p.2) u })

/-- RCR (R404): OF from the operand. -/
def shiftRcr : ShiftOp := fun sz c v f u =>
  let p := rotateCarryRight sz (c % (sz.bits + 1)) (v, f.cf)
  (p.1, { f with cf := p.2, ofl := oneOr c (signBit sz v ^^ f.cf) u })

/-- SHL (R405). -/
def shiftShl : ShiftOp := fun sz c v f u =>
  let r := trunc sz (v <<< c)
  let cf := if c ≤ sz.bits then v.getLsbD (sz.bits - c) else u.getLsbD 2
  (r, { f.withSZP sz r with cf := cf, af := u.getLsbD 1, ofl := oneOr c (signBit sz r ^^ cf) u })

/-- SHR (R406). -/
def shiftShr : ShiftOp := fun sz c v f u =>
  let r := v >>> c
  let cf := if c ≤ sz.bits then v.getLsbD (c - 1) else u.getLsbD 2
  (r, { f.withSZP sz r with cf := cf, af := u.getLsbD 1, ofl := oneOr c (signBit sz v) u })

/-- SAR (R407). -/
def shiftSar : ShiftOp := fun sz c v f u =>
  let r := trunc sz ((signExtend sz v).sshiftRight c)
  (r, { f.withSZP sz r with cf := v.getLsbD (min c sz.bits - 1), af := u.getLsbD 1, ofl := oneOr c false u })

/-- The count is masked to 5 bits; a count of 0 changes no operand and no flag, and writes nothing back (R400; log 37). -/
def shiftBy (op : ShiftOp) (sz : Size) (rm : RM) (count : Nat) : M Unit := do
  let l ← resolve rm
  let v ← readShifted sz l (count % 32)
  if count % 32 = 0 then pure ()
  else do
    let u ← freeDword
    let s ← get
    writeLoc sz l (op sz (count % 32) v s.eflags u).1
    modify fun s => s.setFlags (op sz (count % 32) v s.eflags u).2

/-- CL. -/
def State.cl (s : State) : Nat := (s.reg .b8 .ecx).toNat

def execRolBy1 (w : Width) (rm : RM) (s : State) : Answer := complete (shiftBy shiftRol (s.wsz w) rm 1) s
def execRolByCl (w : Width) (rm : RM) (s : State) : Answer := complete (shiftBy shiftRol (s.wsz w) rm s.cl) s
def execRolByImm (w : Width) (rm : RM) (count : BitVec 8) (s : State) : Answer :=
  complete (shiftBy shiftRol (s.wsz w) rm count.toNat) s

def execRorBy1 (w : Width) (rm : RM) (s : State) : Answer := complete (shiftBy shiftRor (s.wsz w) rm 1) s
def execRorByCl (w : Width) (rm : RM) (s : State) : Answer := complete (shiftBy shiftRor (s.wsz w) rm s.cl) s
def execRorByImm (w : Width) (rm : RM) (count : BitVec 8) (s : State) : Answer :=
  complete (shiftBy shiftRor (s.wsz w) rm count.toNat) s

def execRclBy1 (w : Width) (rm : RM) (s : State) : Answer := complete (shiftBy shiftRcl (s.wsz w) rm 1) s
def execRclByCl (w : Width) (rm : RM) (s : State) : Answer := complete (shiftBy shiftRcl (s.wsz w) rm s.cl) s
def execRclByImm (w : Width) (rm : RM) (count : BitVec 8) (s : State) : Answer :=
  complete (shiftBy shiftRcl (s.wsz w) rm count.toNat) s

def execRcrBy1 (w : Width) (rm : RM) (s : State) : Answer := complete (shiftBy shiftRcr (s.wsz w) rm 1) s
def execRcrByCl (w : Width) (rm : RM) (s : State) : Answer := complete (shiftBy shiftRcr (s.wsz w) rm s.cl) s
def execRcrByImm (w : Width) (rm : RM) (count : BitVec 8) (s : State) : Answer :=
  complete (shiftBy shiftRcr (s.wsz w) rm count.toNat) s

def execShlBy1 (w : Width) (rm : RM) (s : State) : Answer := complete (shiftBy shiftShl (s.wsz w) rm 1) s
def execShlByCl (w : Width) (rm : RM) (s : State) : Answer := complete (shiftBy shiftShl (s.wsz w) rm s.cl) s
def execShlByImm (w : Width) (rm : RM) (count : BitVec 8) (s : State) : Answer :=
  complete (shiftBy shiftShl (s.wsz w) rm count.toNat) s

def execShrBy1 (w : Width) (rm : RM) (s : State) : Answer := complete (shiftBy shiftShr (s.wsz w) rm 1) s
def execShrByCl (w : Width) (rm : RM) (s : State) : Answer := complete (shiftBy shiftShr (s.wsz w) rm s.cl) s
def execShrByImm (w : Width) (rm : RM) (count : BitVec 8) (s : State) : Answer :=
  complete (shiftBy shiftShr (s.wsz w) rm count.toNat) s

def execSarBy1 (w : Width) (rm : RM) (s : State) : Answer := complete (shiftBy shiftSar (s.wsz w) rm 1) s
def execSarByCl (w : Width) (rm : RM) (s : State) : Answer := complete (shiftBy shiftSar (s.wsz w) rm s.cl) s
def execSarByImm (w : Width) (rm : RM) (count : BitVec 8) (s : State) : Answer :=
  complete (shiftBy shiftSar (s.wsz w) rm count.toNat) s

/-! SHLD and SHRD (R408, R409). -/

/-- A double shift: the result and CF of a destination, a register operand and a count from 1 to the size. -/
abbrev DoubleShiftOp := Size → Nat → Dword → Dword → Dword × Bool

def doubleShl : DoubleShiftOp := fun sz c v fill =>
  (trunc sz ((v <<< c) ||| (fill >>> (sz.bits - c))), v.getLsbD (sz.bits - c))

def doubleShr : DoubleShiftOp := fun sz c v fill =>
  (trunc sz ((v >>> c) ||| (fill <<< (sz.bits - c))), v.getLsbD (c - 1))

/-- The flags of a double shift: OF for a count of 1 says whether the sign changed. -/
def Eflags.afterDoubleShift (f : Eflags) (sz : Size) (c : Nat) (v r : Dword) (cf : Bool) (u : Dword) : Eflags :=
  { f.withSZP sz r with cf := cf, af := u.getLsbD 1, ofl := oneOr c (signBit sz v ^^ signBit sz r) u }

/-- A count above the size leaves the result and the flags undefined (U8). -/
def doubleShift (op : DoubleShiftOp) (reg : Reg) (rm : RM) (count : Nat) : M Unit := do
  let s ← get
  let sz := s.osz
  let c := count % 32
  let l ← resolve rm
  let v ← readShifted sz l c
  if c = 0 then pure ()
  else if sz.bits < c then do
    let r ← freeAt sz
    writeLoc sz l r
    undefinedFlags
  else do
    let u ← freeDword
    let r := op sz c v (s.reg sz reg)
    writeLoc sz l r.1
    modify fun s => s.setFlags (s.eflags.afterDoubleShift sz c v r.1 r.2 u)

def execShldImm (reg : Reg) (rm : RM) (count : BitVec 8) (s : State) : Answer :=
  complete (doubleShift doubleShl reg rm count.toNat) s
def execShldCl (reg : Reg) (rm : RM) (s : State) : Answer := complete (doubleShift doubleShl reg rm s.cl) s
def execShrdImm (reg : Reg) (rm : RM) (count : BitVec 8) (s : State) : Answer :=
  complete (doubleShift doubleShr reg rm count.toNat) s
def execShrdCl (reg : Reg) (rm : RM) (s : State) : Answer := complete (doubleShift doubleShr reg rm s.cl) s

/-! AND, TEST, OR, XOR, NOT (R410 to R414). -/

/-- A boolean operation on two operands. -/
abbrev BoolOp := Dword → Dword → Dword

def boolAnd : BoolOp := fun a b => a &&& b
def boolOr : BoolOp := fun a b => a ||| b
def boolXor : BoolOp := fun a b => a ^^^ b

/-- The flags of a boolean operation with result `r`: AF is undefined. -/
def logicFlags (sz : Size) (r : Dword) : M Unit := do
  let af ← freeBit
  modify fun s => s.setFlags (s.eflags.afterLogic sz r af)

/-- dst <- op(dst, src), with the flags. -/
def logic (op : BoolOp) (sz : Size) (dst : Loc) (src : Dword) : M Unit := do
  let a ← readToUpdate sz dst
  writeLoc sz dst (op a src)
  logicFlags sz (op a src)

/-- TEST: nothing is written. -/
def test (sz : Size) (dst : Loc) (src : Dword) : M Unit := do
  let a ← readLoc sz dst
  logicFlags sz (a &&& src)

def execAndRegRm (d : Dir) (w : Width) (reg : Reg) (rm : RM) (s : State) : Answer :=
  complete (byDirection d (s.wsz w) reg rm (logic boolAnd (s.wsz w))) s
def execAndRmImm (w : Width) (rm : RM) (imm : Imm) (s : State) : Answer :=
  complete (withImm (s.wsz w) rm imm (logic boolAnd (s.wsz w))) s
/-- 83 /n (30_encoding.md R270): the byte is sign-extended. -/
def execAndRmImm8 (rm : RM) (imm8 : BitVec 8) (s : State) : Answer :=
  complete (withImm s.osz rm (.i8 imm8) (logic boolAnd s.osz)) s
def execAndAccImm (w : Width) (imm : Imm) (s : State) : Answer :=
  complete (withImm (s.wsz w) (.reg .eax) imm (logic boolAnd (s.wsz w))) s

def execOrRegRm (d : Dir) (w : Width) (reg : Reg) (rm : RM) (s : State) : Answer :=
  complete (byDirection d (s.wsz w) reg rm (logic boolOr (s.wsz w))) s
def execOrRmImm (w : Width) (rm : RM) (imm : Imm) (s : State) : Answer :=
  complete (withImm (s.wsz w) rm imm (logic boolOr (s.wsz w))) s
/-- 83 /n (30_encoding.md R270): the byte is sign-extended. -/
def execOrRmImm8 (rm : RM) (imm8 : BitVec 8) (s : State) : Answer :=
  complete (withImm s.osz rm (.i8 imm8) (logic boolOr s.osz)) s
def execOrAccImm (w : Width) (imm : Imm) (s : State) : Answer :=
  complete (withImm (s.wsz w) (.reg .eax) imm (logic boolOr (s.wsz w))) s

def execXorRegRm (d : Dir) (w : Width) (reg : Reg) (rm : RM) (s : State) : Answer :=
  complete (byDirection d (s.wsz w) reg rm (logic boolXor (s.wsz w))) s
def execXorRmImm (w : Width) (rm : RM) (imm : Imm) (s : State) : Answer :=
  complete (withImm (s.wsz w) rm imm (logic boolXor (s.wsz w))) s
/-- 83 /n (30_encoding.md R270): the byte is sign-extended. -/
def execXorRmImm8 (rm : RM) (imm8 : BitVec 8) (s : State) : Answer :=
  complete (withImm s.osz rm (.i8 imm8) (logic boolXor s.osz)) s
def execXorAccImm (w : Width) (imm : Imm) (s : State) : Answer :=
  complete (withImm (s.wsz w) (.reg .eax) imm (logic boolXor (s.wsz w))) s

def execTestRmReg (w : Width) (reg : Reg) (rm : RM) (s : State) : Answer :=
  complete (byDirection .toRm (s.wsz w) reg rm (test (s.wsz w))) s
def execTestRmImm (w : Width) (rm : RM) (imm : Imm) (s : State) : Answer :=
  complete (withImm (s.wsz w) rm imm (test (s.wsz w))) s
def execTestAccImm (w : Width) (imm : Imm) (s : State) : Answer :=
  complete (withImm (s.wsz w) (.reg .eax) imm (test (s.wsz w))) s

/-- NOT changes no flag (R414). -/
def execNotRm (w : Width) (rm : RM) (s : State) : Answer :=
  complete (do
    let l ← resolve rm
    let a ← readToUpdate (s.wsz w) l
    writeLoc (s.wsz w) l (trunc (s.wsz w) (~~~a))) s

end Sys2Proof.Machine
end

