-- ==== Sys2Proof/Machine/Bits.lean ====
section
/-! DEFINITION. Bit scan, bit test and bit string instructions (44_bit.md). -/

namespace Sys2Proof.Machine

/-! BT, BTC, BTR, BTS (R460, R463 to R466). -/

/-- Where the unit that holds bit `o` of a bit string lies: a memory operand is the base of the string (log 38). -/
def bitUnit (sz asz : Size) (l : Loc) (o : Int) : Loc :=
  match l with
  | .reg r => .reg r
  | .mem sr off => .mem sr (trunc asz (off + BitVec.ofInt 32 ((sz.bytes : Int) * (o / (sz.bits : Int)))))

/-- The bit's place in its unit. -/
def bitPlace (sz : Size) (o : Int) : Nat := (o % (sz.bits : Int)).toNat

/-- `v` with bit `n` made `b`. -/
def setBit (v : Dword) (n : Nat) (b : Bool) : Dword :=
  if b then v ||| (1#32 <<< n) else v &&& ~~~(1#32 <<< n)

/-- CF is the selected bit; OF, SF, ZF, AF, PF are undefined. -/
def bitFlags (cf : Bool) : M Unit := do
  undefinedFlags
  modify fun s => s.setFlags { s.eflags with cf := cf }

/-- BT. -/
def testBit (sz : Size) (l : Loc) (n : Nat) : M Unit := do
  let v ← readLoc sz l
  bitFlags (v.getLsbD n)

/-- BTC, BTR, BTS: the selected bit becomes `f` of itself. -/
def changeBit (f : Bool → Bool) (sz : Size) (l : Loc) (n : Nat) : M Unit := do
  let v ← readToUpdate sz l
  writeLoc sz l (setBit v n (f (v.getLsbD n)))
  bitFlags (v.getLsbD n)

/-- The immediate forms. -/
def bitImm (rm : RM) (bit : BitVec 8) (k : Size → Loc → Nat → M Unit) : M Unit := do
  let s ← get
  let l ← resolve rm
  k s.osz l (bit.toNat % s.osz.bits)

/-- The register forms. -/
def bitReg (reg : Reg) (rm : RM) (k : Size → Loc → Nat → M Unit) : M Unit := do
  let s ← get
  let o := signedVal s.osz (s.reg s.osz reg)
  let l ← resolve rm
  k s.osz (bitUnit s.osz s.asz l o) (bitPlace s.osz o)

def execBtImm (rm : RM) (bit : BitVec 8) (s : State) : Answer := complete (bitImm rm bit testBit) s
def execBtReg (reg : Reg) (rm : RM) (s : State) : Answer := complete (bitReg reg rm testBit) s
def execBtcImm (rm : RM) (bit : BitVec 8) (s : State) : Answer := complete (bitImm rm bit (changeBit not)) s
def execBtcReg (reg : Reg) (rm : RM) (s : State) : Answer := complete (bitReg reg rm (changeBit not)) s
def execBtrImm (rm : RM) (bit : BitVec 8) (s : State) : Answer :=
  complete (bitImm rm bit (changeBit fun _ => false)) s
def execBtrReg (reg : Reg) (rm : RM) (s : State) : Answer := complete (bitReg reg rm (changeBit fun _ => false)) s
def execBtsImm (rm : RM) (bit : BitVec 8) (s : State) : Answer :=
  complete (bitImm rm bit (changeBit fun _ => true)) s
def execBtsReg (reg : Reg) (rm : RM) (s : State) : Answer := complete (bitReg reg rm (changeBit fun _ => true)) s

/-! BSF and BSR (R461, R462). -/

/-- The least significant 1 bit among the lowest `n`. -/
def lowestBit : Nat → Dword → Nat
  | 0, _ => 0
  | n + 1, v => if v.getLsbD 0 then 0 else lowestBit n (v >>> 1) + 1

/-- The most significant 1 bit among the lowest `n`. -/
def highestBit : Nat → Dword → Nat
  | 0, _ => 0
  | n + 1, v => if v.getLsbD n then n else highestBit n v

/-- The source zero sets ZF and leaves the register undefined (U9); CF, OF, SF, AF, PF are undefined. -/
def scanBits (index : Nat → Dword → Nat) (reg : Reg) (rm : RM) : M Unit := do
  let s ← get
  let v ← readRm s.osz rm
  if v = 0 then do
    let d ← freeAt s.osz
    writeReg s.osz reg d
  else writeReg s.osz reg (BitVec.ofNat 32 (index s.osz.bits v))
  undefinedFlags
  modify fun s => s.setFlags { s.eflags with zf := v == 0 }

def execBsf (reg : Reg) (rm : RM) (s : State) : Answer := complete (scanBits lowestBit reg rm) s
def execBsr (reg : Reg) (rm : RM) (s : State) : Answer := complete (scanBits highestBit reg rm) s

/-! IBTS and XBTS (R467, R468; log 12). With HAS_IBTS_XBTS false they raise exception 6. With it true they do what the
spec recalls: the string starts at the bit offset (E)AX from the r/m operand and is CL bits long. -/

/-- The byte of a bit string in memory that holds bit `o`. -/
def stringByte (asz : Size) (off : Dword) (o : Int) : Dword := trunc asz (off + BitVec.ofInt 32 (o / 8))

/-- Bit `o` of a bit string. A register operand holds the osz bits from 0; beyond them it has no value. DESIGN CHOICE (log
12): a string in memory is accessed byte by byte and its byte is read once for every bit, up to eight times, an access width
that R467 and R468 do not give and a memory-mapped device sees. -/
def readStringBit (sz asz : Size) (l : Loc) (o : Int) : M Bool :=
  match l with
  | .reg r => do
    let v ← readLoc sz (.reg r)
    let u ← freeBit
    pure (if o < (sz.bits : Int) then v.getLsbD o.toNat else u)
  | .mem sr off => do
    let v ← memRead sr (stringByte asz off o) .b8
    pure (v.getLsbD (o % 8).toNat)

/-- A write of bit `o` of a bit string; beyond a register operand there is nothing to write. DESIGN CHOICE (log 12): in
memory the bit's byte is read and written once for every bit, as R467 gives no access width. -/
def writeStringBit (sz asz : Size) (l : Loc) (o : Int) (b : Bool) : M Unit :=
  match l with
  | .reg r => do
    let v ← readLoc sz (.reg r)
    writeReg sz r (if o < (sz.bits : Int) then setBit v o.toNat b else v)
  | .mem sr off => do
    let v ← readToUpdate .b8 (.mem sr (stringByte asz off o))
    memWrite sr (stringByte asz off o) .b8 (setBit v (o % 8).toNat b)

/-- The offset in (E)AX. DESIGN CHOICE (log 12): R467 and R468 say only that it is held there; it is AX or EAX by the operand
size, taken as signed, and in a register operand mod osz, as for BT. -/
def State.stringStart (s : State) (l : Loc) : Int :=
  let o := signedVal s.osz (s.reg s.osz .eax)
  match l with
  | .reg _ => o % (s.osz.bits : Int)
  | .mem _ _ => o

/-- `n` bits of a string from `o` up, the first one least significant. -/
def extractString (sz asz : Size) (l : Loc) : Int → Nat → M Dword
  | _, 0 => pure 0
  | o, n + 1 => do
    let b ← readStringBit sz asz l o
    let rest ← extractString sz asz l (o + 1) n
    pure ((rest <<< 1) ||| bitAt b 0)

/-- Write bits `i`, `i + 1`, … of `v` at `o` and up, `n` in all. DESIGN CHOICE (log 12): for a bit above the size, which CL
can ask for, R467 gives no value, and a free bit is written. -/
def insertString (sz asz : Size) (l : Loc) (v : Dword) : Nat → Int → Nat → M Unit
  | _, _, 0 => pure ()
  | i, o, n + 1 => do
    let u ← freeBit
    writeStringBit sz asz l o (if i < sz.bits then v.getLsbD i else u)
    insertString sz asz l v (i + 1) (o + 1) n

/-- IBTS (R467). DESIGN CHOICE (log 12): where the part has no IBTS and XBTS, exception 6 comes when the whole instruction
has been fetched, and so after the #GP(0) of one of more than 15 bytes, where R657 step 3 has an undefined opcode first. -/
def execIbts (reg : Reg) (rm : RM) (s : State) : Answer :=
  complete (do
    raiseIf (!s.params.hasIbtsXbts) Exn.ud
    let l ← resolve rm
    insertString s.osz s.asz l (s.reg s.osz reg) 0 (s.stringStart l) s.cl
    undefinedFlags) s

/-- XBTS (R468). Where the part has none, exception 6 comes as for IBTS (log 12). All CL bits are read, with the checks of a
memory operand. More than osz bits do not fit the register: DESIGN CHOICE (log 12), its value is then a free one. -/
def execXbts (reg : Reg) (rm : RM) (s : State) : Answer :=
  complete (do
    raiseIf (!s.params.hasIbtsXbts) Exn.ud
    let l ← resolve rm
    let v ← extractString s.osz s.asz l (s.stringStart l) s.cl
    let u ← freeAt s.osz
    writeReg s.osz reg (if s.osz.bits < s.cl then u else v)
    undefinedFlags) s

end Sys2Proof.Machine
end

