-- ==== Sys2Proof/Machine/ControlTransfer.lean ====
section
/-! DEFINITION. Control transfer instructions (45_control_transfer.md). -/

namespace Sys2Proof.Machine

/-! Near transfers (R480, R490, R491, R495 to R497, R500, R501). -/

/-- A near jump: the limit check, then EIP. -/
def jumpNear (target : Dword) : M Unit := do
  nearTarget target
  modify fun s => s.jumpTo target

/-- A near call: the limit check precedes the push. -/
def callNear (target : Dword) : M Unit := do
  nearTarget target
  let s ← get
  push s.osz s.eip
  modify fun s => s.jumpTo target

def execCallRel (off : Off) (s : State) : Answer := complete (callNear (s.relTarget (relDisp off))) s

def execCallRm (rm : RM) (s : State) : Answer :=
  complete (do
    let target ← readRm s.osz rm
    callNear target) s

def execJmpShort (disp : BitVec 8) (s : State) : Answer :=
  complete (jumpNear (s.relTarget (disp.signExtend 32))) s

def execJmpRel (off : Off) (s : State) : Answer := complete (jumpNear (s.relTarget (relDisp off))) s

def execJmpRm (rm : RM) (s : State) : Answer :=
  complete (do
    let target ← readRm s.osz rm
    jumpNear target) s

/-- A near return that releases `n` more bytes. -/
def returnNear (n : Word) : M Unit := do
  let s ← get
  let target ← pop s.osz
  nearTarget target
  modify fun s => (s.setSp (s.spPlus (n.setWidth 32))).jumpTo target

def execRet (s : State) : Answer :=
  complete (do
    let target ← pop s.osz
    jumpNear target) s

def execRetImm (n : BitVec 16) (s : State) : Answer := complete (returnNear n) s

/-! Far JMP and CALL (R481 to R486). Each answers whether it switched tasks. -/

/-- A far transfer that pushes its return address. -/
def TaskKind.isCall (kind : TaskKind) : Bool := kind == .call

/-- CS and the next EIP on the stack, if the transfer is a call. DESIGN CHOICE (log 50): the upper half of CS pushed as a
dword is zero, which R483 says and R481 and R484 leave open. -/
def pushReturn (kind : TaskKind) (sz : Size) : M Unit := do
  let s ← get
  if kind.isCall then spoiling (2 * sz.bytes) (pushAll sz [selValue s.cs.selector, s.eip]) else pure ()

/-- In Real and Virtual 8086 Mode (R481). DESIGN CHOICE (log 60): the target is checked before a far CALL pushes, an order
that R481 does not give. -/
def farReal (kind : TaskKind) (sel : Word) (off : Dword) : M Unit := do
  let s ← get
  raiseIf (decide (0xFFFF < off.toNat)) (Exn.gp 0)
  pushReturn kind s.osz
  modify fun s => (s.load8086 .cs sel).jumpTo off

/-- To a code segment (R483). -/
def farCode (kind : TaskKind) (sel : Word) (d : Descriptor) (off : Dword) : M Unit := do
  let s ← get
  let gp := Exn.gp (selCode sel false)
  raiseIf (if d.isConforming then decide (s.currentCpl < d.dpl)
    else decide (s.currentCpl < rpl sel) || d.dpl != s.currentCpl) gp
  raiseIf (!d.present) (Exn.np (selCode sel false))
  raiseIf (decide (d.limit.toNat < off.toNat)) (Exn.gp 0)
  pushReturn kind s.osz
  setAccessed sel d
  setCodeSegment (d.cache (withRpl sel s.currentCpl)) off

/-- The value of size `sz` that lies `k` bytes above the top of the stack of `old` (log 49). -/
def oldStackAt (old : State) (k : Nat) (sz : Size) : M Dword := do
  let off := old.sp + BitVec.ofNat 32 k
  raiseIf (!old.segOk .ss off sz.bytes false) (Exn.ss 0)
  let bs ← readLinear old.isUser (old.linear .ss off) sz.bytes
  pure (leDword bs)

/-- Copy `n` parameters of size `sz` from the stack of `old`, the last one first, which keeps their order. -/
def copyParams (old : State) (sz : Size) : Nat → M Unit
  | 0 => pure ()
  | n + 1 => do
    let v ← oldStackAt old (sz.bytes * n) sz
    push sz v
    copyParams old sz n

/-- The state with the inner stack and level in place. -/
def State.onInnerStack (s : State) (level : BitVec 2) (sel : Word) (sp : Dword) (d : Descriptor) : State :=
  { (s.setSeg .ss (d.cache sel)).setReg .b32 .esp sp with cpl := level }

/-- The pushes of R485, in its order: the old SS and ESP, the parameters, CS and the next EIP. DESIGN CHOICE (log 50): the
upper half of a selector pushed as a dword is zero. -/
def pushCallFrame (old : State) (sz : Size) (count : Nat) : M Unit := do
  push sz (selValue old.ss.selector)
  push sz old.regs.esp
  copyParams old sz count
  push sz (selValue old.cs.selector)
  push sz old.eip

/-- CALL through a gate `g` to the more privileged code segment `t` (R485). SS is loaded before the pushes, with the Accessed
bit of its descriptor (20_memory.md R176, R190). CPL changes last, so the pushes are made at the old level (log 52). -/
def callInner (g : Descriptor) (tsel : Word) (t : Descriptor) : M Unit := do
  let s ← get
  let sz := if g.is386 then Size.b32 else .b16
  let (sel, sp, d) ← innerStack t.dpl false
  raiseIf (!(s.onInnerStack t.dpl sel sp d).pushesFit sz (g.gateCount + 4)) (Exn.ss 0)
  raiseIf (decide (t.limit.toNat < g.gateOffset.toNat)) (Exn.gp 0)
  switchStack sel sp d
  spoiling (sz.bytes * (g.gateCount + 4)) (do
    setAccessed sel d
    pushCallFrame s sz g.gateCount)
  setAccessed tsel t
  setCpl t.dpl
  setCodeSegment (t.cache (withRpl tsel t.dpl)) g.gateOffset

/-- Through a call gate `g` that `sel` names (R484). -/
def farGate (kind : TaskKind) (sel : Word) (g : Descriptor) : M Unit := do
  let s ← get
  raiseIf (decide (g.dpl < s.currentCpl) || decide (g.dpl < rpl sel)) (Exn.gp (selCode sel false))
  raiseIf (!g.present) (Exn.np (selCode sel false))
  let tsel := g.gateSelector
  raiseIf (isNull tsel) (Exn.gp 0)
  let gp := Exn.gp (selCode tsel false)
  let t ← readDescriptor tsel gp
  raiseIf (!t.isCode) gp
  raiseIf (decide (s.currentCpl < t.dpl)) gp
  raiseIf (!kind.isCall && !t.isConforming && t.dpl != s.currentCpl) gp
  raiseIf (!t.present) (Exn.np (selCode tsel false))
  if kind.isCall && !t.isConforming && decide (t.dpl < s.currentCpl) then callInner g tsel t
  else do
    raiseIf (decide (t.limit.toNat < g.gateOffset.toNat)) (Exn.gp 0)
    pushReturn kind (if g.is386 then .b32 else .b16)
    setAccessed tsel t
    setCodeSegment (t.cache (withRpl tsel s.currentCpl)) g.gateOffset

/-- To the task whose available TSS `sel` names, with descriptor `d` (R486). DESIGN CHOICE (log 48): a selector of the LDT
raises #GP with it, as R486 says for the selector of a task gate. -/
def farTss (kind : TaskKind) (sel : Word) (d : Descriptor) : M Unit := do
  let s ← get
  raiseIf (decide (d.dpl < s.currentCpl) || decide (d.dpl < rpl sel) || inLdt sel) (Exn.gp (selCode sel false))
  raiseIf (!d.present) (Exn.np (selCode sel false))
  taskSwitch kind sel d s.eip false

/-- Through a task gate `g` that `sel` names (R486). -/
def farTaskGate (kind : TaskKind) (sel : Word) (g : Descriptor) : M Unit := do
  let s ← get
  raiseIf (decide (g.dpl < s.currentCpl) || decide (g.dpl < rpl sel)) (Exn.gp (selCode sel false))
  raiseIf (!g.present) (Exn.np (selCode sel false))
  let ns := g.gateSelector
  let gp := Exn.gp (selCode ns false)
  raiseIf (isNull ns || inLdt ns) gp
  let nd ← readDescriptor ns gp
  raiseIf (!nd.isAvailableTss) gp
  raiseIf (!nd.present) (Exn.np (selCode ns false))
  taskSwitch kind ns nd s.eip false

/-- In Protected Mode (R482). -/
def farProtected (kind : TaskKind) (sel : Word) (off : Dword) : M Bool := do
  raiseIf (isNull sel) (Exn.gp 0)
  let gp := Exn.gp (selCode sel false)
  let d ← readDescriptor sel gp
  if d.isCode then do
    farCode kind sel d off
    pure false
  else if d.isSystem 4 || d.isSystem 12 then do
    farGate kind sel d
    pure false
  else if d.isSystem 5 then do
    farTaskGate kind sel d
    pure true
  else if d.isAvailableTss then do
    farTss kind sel d
    pure true
  else raise gp

/-- A far JMP or CALL in the current mode. -/
def farTransfer (kind : TaskKind) (sel : Word) (off : Dword) : M Bool := do
  let s ← get
  if s.protectedMode then farProtected kind sel off
  else do
    farReal kind sel off
    pure false

/-- A transfer that switched tasks leaves RF as the new task's image has it (60_exceptions.md R730). -/
def State.retireFar (switched : Bool) (s s' : State) : State := if switched then s.retireKeepRf s' else s.retire s'

def execCallPtr (off : Off) (sel : BitVec 16) (s : State) : Answer :=
  finish State.retireFar (farTransfer .call sel (absOffset off)) s

def execCallMem (m : MemOp) (s : State) : Answer :=
  finish State.retireFar (do
    let p ← readFarPointer m
    farTransfer .call p.2 p.1) s

def execJmpPtr (off : Off) (sel : BitVec 16) (s : State) : Answer :=
  finish State.retireFar (farTransfer .jmp sel (absOffset off)) s

def execJmpMem (m : MemOp) (s : State) : Answer :=
  finish State.retireFar (do
    let p ← readFarPointer m
    farTransfer .jmp p.2 p.1) s

/-! Far RET (R502 to R504). -/

def retfReal (n : Word) : M Unit := do
  let s ← get
  let ip ← pop s.osz
  let sel ← pop s.osz
  raiseIf (decide (0xFFFF < ip.toNat)) (Exn.gp 0)
  modify fun s => ((s.load8086 .cs (sel.setWidth 16)).jumpTo ip).setSp (s.spPlus (n.setWidth 32))

/-- The segment checks come before anything is written. `n` bytes are released on both stacks, and SP or ESP is written by
the size of the outer stack (R504). DESIGN CHOICE (log 55): with osz = 16 and a 32-bit outer stack the popped SP is
zero-extended, and a carry out of the addition of `n` goes into bit 16 of ESP. -/
def retfProtected (n : Word) : M Unit := do
  let s ← get
  let k := s.osz.bytes
  checkStackTop (2 * k)
  let sel ← stackAt k .b16
  let ip ← stackAt 0 s.osz
  let sel : Word := sel.setWidth 16
  let d ← returnSegment sel
  if rpl sel = s.currentCpl then do
    raiseIf (decide (d.limit.toNat < ip.toNat)) (Exn.gp 0)
    setAccessed sel d
    modify fun s => s.setSp (s.spPlus (BitVec.ofNat 32 (2 * k + n.toNat)))
    setCodeSegment (d.cache sel) ip
  else do
    checkStackTop (4 * k + n.toNat)
    let sp ← stackAt (2 * k + n.toNat) s.osz
    let ss ← stackAt (3 * k + n.toNat) .b16
    let ss : Word := ss.setWidth 16
    let sd ← returnStack (rpl sel) ss
    raiseIf (decide (d.limit.toNat < ip.toNat)) (Exn.gp 0)
    setAccessed sel d
    setAccessed ss sd
    modify fun s => s.setSeg .ss (sd.cache ss)
    modify fun s => s.setSp (sp + n.setWidth 32)
    setCpl (rpl sel)
    setCodeSegment (d.cache sel) ip
    modify fun s => s.dropInner (rpl sel)

def returnFar (n : Word) : M Unit := do
  let s ← get
  if s.protectedMode then retfProtected n else retfReal n

def execRetf (s : State) : Answer := complete (returnFar 0) s
def execRetfImm (n : BitVec 16) (s : State) : Answer := complete (returnFar n) s

/-! Conditional jumps (R509 to R525), JCXZ and LOOP (R530 to R533). -/

/-- The limit is checked only when the jump is taken. -/
def jumpIf (taken : Bool) (target : Dword) : M Unit := if taken then jumpNear target else pure ()

def execJoShort (disp : BitVec 8) (s : State) : Answer :=
  complete (jumpIf (s.eflags.holds .o) (s.relTarget (disp.signExtend 32))) s
def execJoNear (off : Off) (s : State) : Answer :=
  complete (jumpIf (s.eflags.holds .o) (s.relTarget (relDisp off))) s
def execJnoShort (disp : BitVec 8) (s : State) : Answer :=
  complete (jumpIf (s.eflags.holds .no) (s.relTarget (disp.signExtend 32))) s
def execJnoNear (off : Off) (s : State) : Answer :=
  complete (jumpIf (s.eflags.holds .no) (s.relTarget (relDisp off))) s
def execJbShort (disp : BitVec 8) (s : State) : Answer :=
  complete (jumpIf (s.eflags.holds .b) (s.relTarget (disp.signExtend 32))) s
def execJbNear (off : Off) (s : State) : Answer :=
  complete (jumpIf (s.eflags.holds .b) (s.relTarget (relDisp off))) s
def execJnbShort (disp : BitVec 8) (s : State) : Answer :=
  complete (jumpIf (s.eflags.holds .nb) (s.relTarget (disp.signExtend 32))) s
def execJnbNear (off : Off) (s : State) : Answer :=
  complete (jumpIf (s.eflags.holds .nb) (s.relTarget (relDisp off))) s
def execJeShort (disp : BitVec 8) (s : State) : Answer :=
  complete (jumpIf (s.eflags.holds .e) (s.relTarget (disp.signExtend 32))) s
def execJeNear (off : Off) (s : State) : Answer :=
  complete (jumpIf (s.eflags.holds .e) (s.relTarget (relDisp off))) s
def execJneShort (disp : BitVec 8) (s : State) : Answer :=
  complete (jumpIf (s.eflags.holds .ne) (s.relTarget (disp.signExtend 32))) s
def execJneNear (off : Off) (s : State) : Answer :=
  complete (jumpIf (s.eflags.holds .ne) (s.relTarget (relDisp off))) s
def execJbeShort (disp : BitVec 8) (s : State) : Answer :=
  complete (jumpIf (s.eflags.holds .be) (s.relTarget (disp.signExtend 32))) s
def execJbeNear (off : Off) (s : State) : Answer :=
  complete (jumpIf (s.eflags.holds .be) (s.relTarget (relDisp off))) s
def execJnbeShort (disp : BitVec 8) (s : State) : Answer :=
  complete (jumpIf (s.eflags.holds .nbe) (s.relTarget (disp.signExtend 32))) s
def execJnbeNear (off : Off) (s : State) : Answer :=
  complete (jumpIf (s.eflags.holds .nbe) (s.relTarget (relDisp off))) s
def execJsShort (disp : BitVec 8) (s : State) : Answer :=
  complete (jumpIf (s.eflags.holds .s) (s.relTarget (disp.signExtend 32))) s
def execJsNear (off : Off) (s : State) : Answer :=
  complete (jumpIf (s.eflags.holds .s) (s.relTarget (relDisp off))) s
def execJnsShort (disp : BitVec 8) (s : State) : Answer :=
  complete (jumpIf (s.eflags.holds .ns) (s.relTarget (disp.signExtend 32))) s
def execJnsNear (off : Off) (s : State) : Answer :=
  complete (jumpIf (s.eflags.holds .ns) (s.relTarget (relDisp off))) s
def execJpShort (disp : BitVec 8) (s : State) : Answer :=
  complete (jumpIf (s.eflags.holds .p) (s.relTarget (disp.signExtend 32))) s
def execJpNear (off : Off) (s : State) : Answer :=
  complete (jumpIf (s.eflags.holds .p) (s.relTarget (relDisp off))) s
def execJnpShort (disp : BitVec 8) (s : State) : Answer :=
  complete (jumpIf (s.eflags.holds .np) (s.relTarget (disp.signExtend 32))) s
def execJnpNear (off : Off) (s : State) : Answer :=
  complete (jumpIf (s.eflags.holds .np) (s.relTarget (relDisp off))) s
def execJlShort (disp : BitVec 8) (s : State) : Answer :=
  complete (jumpIf (s.eflags.holds .l) (s.relTarget (disp.signExtend 32))) s
def execJlNear (off : Off) (s : State) : Answer :=
  complete (jumpIf (s.eflags.holds .l) (s.relTarget (relDisp off))) s
def execJnlShort (disp : BitVec 8) (s : State) : Answer :=
  complete (jumpIf (s.eflags.holds .nl) (s.relTarget (disp.signExtend 32))) s
def execJnlNear (off : Off) (s : State) : Answer :=
  complete (jumpIf (s.eflags.holds .nl) (s.relTarget (relDisp off))) s
def execJleShort (disp : BitVec 8) (s : State) : Answer :=
  complete (jumpIf (s.eflags.holds .le) (s.relTarget (disp.signExtend 32))) s
def execJleNear (off : Off) (s : State) : Answer :=
  complete (jumpIf (s.eflags.holds .le) (s.relTarget (relDisp off))) s
def execJnleShort (disp : BitVec 8) (s : State) : Answer :=
  complete (jumpIf (s.eflags.holds .nle) (s.relTarget (disp.signExtend 32))) s
def execJnleNear (off : Off) (s : State) : Answer :=
  complete (jumpIf (s.eflags.holds .nle) (s.relTarget (relDisp off))) s

/-- The size that selects CX or ECX in JCXZ (D16). -/
def State.jcxzSize (s : State) : Size :=
  match s.params.jcxzSizeAttr with
  | .address => s.asz
  | .operand => s.osz

def execJcxz (disp : BitVec 8) (s : State) : Answer :=
  complete (jumpIf (s.reg s.jcxzSize .ecx == 0) (s.relTarget (disp.signExtend 32))) s

/-- CX or ECX, by the address size, less 1. -/
def State.loopCount (s : State) : Dword := trunc s.asz (s.reg s.asz .ecx - 1)

/-- LOOP and its conditions: the count is written, then the jump is taken if it is not 0 and `also` holds. -/
def loopOn (also : Bool) (target : Dword) : M Unit := do
  let s ← get
  writeReg s.asz .ecx s.loopCount
  jumpIf (s.loopCount != 0 && also) target

def execLoop (disp : BitVec 8) (s : State) : Answer := complete (loopOn true (s.relTarget (disp.signExtend 32))) s
def execLoopz (disp : BitVec 8) (s : State) : Answer :=
  complete (loopOn s.eflags.zf (s.relTarget (disp.signExtend 32))) s
def execLoopnz (disp : BitVec 8) (s : State) : Answer :=
  complete (loopOn (!s.eflags.zf) (s.relTarget (disp.signExtend 32))) s

/-! SETcc (R534 to R550). -/

/-- 01H or 00H to a byte operand. -/
def setByte (b : Bool) (rm : RM) : M Unit := do
  let l ← resolve rm
  writeLoc .b8 l (bitAt b 0)

def execSeto (rm : RM) (s : State) : Answer := complete (setByte (s.eflags.holds .o) rm) s
def execSetno (rm : RM) (s : State) : Answer := complete (setByte (s.eflags.holds .no) rm) s
def execSetb (rm : RM) (s : State) : Answer := complete (setByte (s.eflags.holds .b) rm) s
def execSetnb (rm : RM) (s : State) : Answer := complete (setByte (s.eflags.holds .nb) rm) s
def execSete (rm : RM) (s : State) : Answer := complete (setByte (s.eflags.holds .e) rm) s
def execSetne (rm : RM) (s : State) : Answer := complete (setByte (s.eflags.holds .ne) rm) s
def execSetbe (rm : RM) (s : State) : Answer := complete (setByte (s.eflags.holds .be) rm) s
def execSetnbe (rm : RM) (s : State) : Answer := complete (setByte (s.eflags.holds .nbe) rm) s
def execSets (rm : RM) (s : State) : Answer := complete (setByte (s.eflags.holds .s) rm) s
def execSetns (rm : RM) (s : State) : Answer := complete (setByte (s.eflags.holds .ns) rm) s
def execSetp (rm : RM) (s : State) : Answer := complete (setByte (s.eflags.holds .p) rm) s
def execSetnp (rm : RM) (s : State) : Answer := complete (setByte (s.eflags.holds .np) rm) s
def execSetl (rm : RM) (s : State) : Answer := complete (setByte (s.eflags.holds .l) rm) s
def execSetnl (rm : RM) (s : State) : Answer := complete (setByte (s.eflags.holds .nl) rm) s
def execSetle (rm : RM) (s : State) : Answer := complete (setByte (s.eflags.holds .le) rm) s
def execSetnle (rm : RM) (s : State) : Answer := complete (setByte (s.eflags.holds .nle) rm) s

/-! ENTER and LEAVE (R555, R556). -/

/-- Copy `n` frame pointers down the stack. -/
def copyFrames (sz : Size) : Nat → M Unit
  | 0 => pure ()
  | n + 1 => do
    let s ← get
    let bp := trunc sz (s.reg sz .ebp - BitVec.ofNat 32 sz.bytes)
    let v ← memRead .ss bp sz
    push sz v
    writeReg sz .ebp bp
    copyFrames sz n

/-- DESIGN CHOICE (log 51): where the stack is 16 bits wide and osz is 32, the frame pointer that is pushed and that EBP
takes is SP zero-extended. -/
def enterFrame (size : Word) (level : Nat) : M Unit := do
  let s ← get
  push s.osz (s.reg s.osz .ebp)
  let t ← get
  let frame := t.sp
  if level = 0 then pure ()
  else do
    copyFrames s.osz (level - 1)
    push s.osz frame
  writeReg s.osz .ebp frame
  modify fun s => s.setSp (s.spPlus (-(size.setWidth 32)))

def execEnter (size : BitVec 16) (level : BitVec 8) (s : State) : Answer :=
  complete (spoiling (s.osz.bytes * (level.toNat % 32 + 1)) (enterFrame size (level.toNat % 32))) s

def execLeave (s : State) : Answer :=
  complete (do
    modify fun s => s.setSp (s.reg s.stackSize .ebp)
    let v ← pop s.osz
    writeReg s.osz .ebp v) s

end Sys2Proof.Machine
end

