-- ==== Sys2Proof/Machine/Interrupts.lean ====
section
/-! DEFINITION. INT n, INT 3, INTO, BOUND, IRET (46_interrupt.md). -/

namespace Sys2Proof.Machine

/-- INT n is IOPL-sensitive in Virtual 8086 Mode (R561). -/
def execIntN (v : BitVec 8) (s : State) : Answer :=
  if s.v86Sensitive then takeException (Exn.gp 0) s else softwareInterrupt v s

def execInt3 (s : State) : Answer := softwareInterrupt 3 s

def execInto (s : State) : Answer := if s.eflags.ofl then softwareInterrupt 4 s else complete (pure ()) s

/-- BOUND (R564): the index is outside the two signed bounds. -/
def outOfBounds (sz : Size) (i lo hi : Dword) : Bool :=
  decide (signedVal sz i < signedVal sz lo) || decide (signedVal sz hi < signedVal sz i)

/-- The two bounds are two operands, each with its own checks (R564; 20_memory.md R121). DEDUCED (log 39): the offset of the
second is taken modulo 2^32. -/
def execBound (reg : Reg) (m : MemOp) (s : State) : Answer :=
  complete (do
    let sz := s.osz
    let (sr, off) ← effectiveAddress m
    let lo ← memRead sr off sz
    let hi ← memRead sr (off + BitVec.ofNat 32 sz.bytes) sz
    raiseIf (outOfBounds sz (s.reg sz reg) lo hi) Exn.br) s

/-- IRET (R565): in Virtual 8086 Mode it needs IOPL = 3. -/
def execIret (s : State) : Answer :=
  finish (fun _ => State.retireKeepRf) (do
    raiseIf s.v86Sensitive (Exn.gp 0)
    returnFromException) s

end Sys2Proof.Machine
end

