-- ==== Sys2Proof/Machine/Protection.lean ====
section
/-! DEFINITION. Protection control instructions (48_protection_control.md). -/

namespace Sys2Proof.Machine

/-- Exception 6 outside Protected Mode (note a, R620). DESIGN CHOICE (log 8): an instruction of more than 15 bytes has raised
#GP(0) when it was fetched, before this exception 6, an order that R657 step 3 gives for undefined opcodes only. -/
def checkProtected : M Unit := do
  let s ← get
  raiseIf (!s.protectedMode) Exn.ud

/-- A write of ZF. -/
def setZf (b : Bool) : M Unit := modify fun s => s.setFlags { s.eflags with zf := b }

/-- ARPL (R621). DESIGN CHOICE (log 37): write access to a memory operand is checked only where the RPL is raised, after the
checks of the read, its page check among them. -/
def execArpl (reg : Reg) (rm : RM) (s : State) : Answer :=
  complete (do
    checkProtected
    let l ← resolve rm
    let d ← readLoc .b16 l
    let level := rpl (s.reg .b16 reg |>.setWidth 16)
    if rpl (d.setWidth 16) < level then do
      writeLoc .b16 l (selValue (withRpl (d.setWidth 16) level))
      setZf true
    else setZf false) s

/-! LAR, LSL, VERR, VERW: a selector that may not be used clears ZF (note p). -/

/-- The descriptor a selector names, if there is one. -/
def probe (sel : Word) : M (Option Descriptor) := do
  let s ← get
  if isNull sel || !s.inTable sel then pure none
  else do
    let d ← readDescriptorAt (s.descriptorAt sel)
    pure (some d)

/-- CPL ≤ DPL and RPL ≤ DPL. -/
def State.mayUse (s : State) (sel : Word) (d : Descriptor) : Bool :=
  decide (s.currentCpl ≤ d.dpl) && decide (rpl sel ≤ d.dpl)

/-- The types LAR accepts (R622). -/
def Descriptor.larType (d : Descriptor) : Bool :=
  d.isSegment || d.isSystem 1 || d.isSystem 2 || d.isSystem 3 || d.isSystem 4 || d.isSystem 5 || d.isSystem 9 ||
    d.isSystem 11 || d.isSystem 12

/-- The types LSL accepts (R627). -/
def Descriptor.lslType (d : Descriptor) : Bool :=
  d.isSegment || d.isSystem 1 || d.isSystem 2 || d.isSystem 3 || d.isSystem 9 || d.isSystem 11

def State.larOk (s : State) (sel : Word) (d : Descriptor) : Bool := d.larType && (d.isConforming || s.mayUse sel d)
def State.lslOk (s : State) (sel : Word) (d : Descriptor) : Bool := d.lslType && (d.isConforming || s.mayUse sel d)
def State.verrOk (s : State) (sel : Word) (d : Descriptor) : Bool :=
  (d.isData || d.isReadableCode) && (d.isConforming || s.mayUse sel d)
def State.verwOk (s : State) (sel : Word) (d : Descriptor) : Bool := d.isWritableData && s.mayUse sel d

/-- Read a selector operand and look its descriptor up: `ok` says if it passes; ZF says so, and `use` then acts. -/
def examine (rm : RM) (ok : State → Word → Descriptor → Bool) (use : Descriptor → M Unit) : M Unit := do
  checkProtected
  let v ← readRm .b16 rm
  let sel : Word := v.setWidth 16
  let found ← probe sel
  let s ← get
  match found with
  | none => setZf false
  | some d =>
    if ok s sel d then do
      use d
      setZf true
    else setZf false

/-- The access rights LAR gives: the second dword under a mask (R622). -/
def Descriptor.accessRights (d : Descriptor) : Dword := d.hi &&& 0x00F0FF00

def execLar (reg : Reg) (rm : RM) (s : State) : Answer :=
  complete (examine rm State.larOk fun d => writeReg s.osz reg d.accessRights) s

def execLsl (reg : Reg) (rm : RM) (s : State) : Answer :=
  complete (examine rm State.lslOk fun d => writeReg s.osz reg d.limit) s

def execVerr (rm : RM) (s : State) : Answer := complete (examine rm State.verrOk fun _ => pure ()) s
def execVerw (rm : RM) (s : State) : Answer := complete (examine rm State.verwOk fun _ => pure ()) s

/-! LGDT, LIDT, SGDT, SIDT (R623, R624, R629, R630; 10_state.md R61). -/

/-- The six bytes of a table register: with osz = 16 only 24 bits of the base are loaded. The whole operand is checked
first (log 39). -/
def readTableReg (m : MemOp) : M TableReg := do
  let (sr, off) ← effectiveAddress m
  segCheck sr off 6 false
  let limit ← memRead sr off .b16
  let base ← memRead sr (off + 2) .b32
  let s ← get
  pure { limit := limit.setWidth 16, base := if s.osz32 then base else base &&& 0x00FFFFFF }

def State.setGdtr (s : State) (t : TableReg) : State := { s with gdtr := t }
def State.setIdtr (s : State) (t : TableReg) : State := { s with idtr := t }

def execLgdt (m : MemOp) (s : State) : Answer :=
  complete (do
    checkCpl0
    let t ← readTableReg m
    modify fun s => s.setGdtr t) s

def execLidt (m : MemOp) (s : State) : Answer :=
  complete (do
    checkCpl0
    let t ← readTableReg m
    modify fun s => s.setIdtr t) s

/-- The six bytes stored: with osz = 16 the last is undefined (U13). The whole operand is checked first (20_memory.md R120;
log 39); then the limit is stored, and then the base, two bytes further (R629). -/
def storeTableReg (m : MemOp) (t : TableReg) : M Unit := do
  let (sr, off) ← effectiveAddress m
  segCheck sr off 6 true
  let u ← freeDword
  let s ← get
  let base := if s.osz32 then t.base else u.extractLsb' 24 8 ++ t.base.extractLsb' 0 24
  let l := s.linear sr off
  let as ← physRange true s.isUser l 6
  noteAccess true l 6
  writePhys (as.take 2) (leBytes 2 (t.limit.setWidth 32))
  writePhys (as.drop 2) (leBytes 4 base)

def execSgdt (m : MemOp) (s : State) : Answer := complete (storeTableReg m s.gdtr) s
def execSidt (m : MemOp) (s : State) : Answer := complete (storeTableReg m s.idtr) s

/-! LLDT, LTR, SLDT, STR (R625, R628, R631, R633). -/

def State.setLdtr (s : State) (c : SegReg) : State := { s with ldtr := c }
def State.setTr (s : State) (c : SegReg) : State := { s with tr := c }

/-- A descriptor that must be in the GDT and of an accepted kind, present. -/
def systemDescriptor (sel : Word) (ok : Descriptor → Bool) : M Descriptor := do
  let gp := Exn.gp (selCode sel false)
  raiseIf (inLdt sel) gp
  let d ← readDescriptor sel gp
  raiseIf (!ok d) gp
  raiseIf (!d.present) (Exn.np (selCode sel false))
  pure d

/-- A null selector leaves LDTR unusable. -/
def execLldt (rm : RM) (s : State) : Answer :=
  complete (do
    checkProtected
    checkCpl0
    let v ← readRm .b16 rm
    let sel : Word := v.setWidth 16
    if isNull sel then modify fun s => s.setLdtr { s.ldtr with selector := sel, valid := false }
    else do
      let d ← systemDescriptor sel fun d => d.isSystem 2
      modify fun s => s.setLdtr (d.cache sel)) s

/-- The descriptor becomes busy. -/
def execLtr (rm : RM) (s : State) : Answer :=
  complete (do
    checkProtected
    checkCpl0
    let v ← readRm .b16 rm
    let sel : Word := v.setWidth 16
    raiseIf (isNull sel) (Exn.gp 0)
    let d ← systemDescriptor sel Descriptor.isAvailableTss
    writeBusy sel d true
    modify fun s => s.setTr (d.cache sel)) s

def execSldt (rm : RM) (s : State) : Answer :=
  complete (do
    checkProtected
    storeWord rm s.ldtr.selector) s

def execStr (rm : RM) (s : State) : Answer :=
  complete (do
    checkProtected
    storeWord rm s.tr.selector) s

/-! LMSW and SMSW (R626, R632). -/

/-- PE cannot be reset; ET and PG are not affected. -/
def Cr0.loadMsw (c : Cr0) (v : Dword) : Cr0 :=
  { c with pe := c.pe || v.getLsbD 0, mp := v.getLsbD 1, em := v.getLsbD 2, ts := v.getLsbD 3 }

def execLmsw (rm : RM) (s : State) : Answer :=
  complete (do
    checkCpl0
    let v ← readRm .b16 rm
    modify fun s => (s.setCr0 (s.cr0.loadMsw v)).queueSince s) s

/-- The reserved bits read 0 (95_test_vectors.md section 2.10; log 36). -/
def execSmsw (rm : RM) (s : State) : Answer :=
  complete (do
    raiseIf (s.params.smswPrivileged && s.currentCpl != 0) (Exn.gp 0)
    storeWord rm (s.cr0.word.setWidth 16)) s

end Sys2Proof.Machine
end

