-- ==== Sys2Proof/Machine/Strings.lean ====
section
/-! DEFINITION. String instructions and the repeat prefixes (43_string.md). -/

namespace Sys2Proof.Machine

/-! The pointers and the count (R430): SI, DI, CX or ESI, EDI, ECX by the address size. -/

def State.srcOffset (s : State) : Dword := s.reg s.asz .esi

def State.dstOffset (s : State) : Dword := s.reg s.asz .edi

def State.repCount (s : State) : Dword := s.reg s.asz .ecx

/-- The segment of the source: DS unless overridden. -/
def State.srcSeg (s : State) : SReg := s.overridden .ds

/-- `+n` or `−n` by DF. -/
def State.stringStep (s : State) (sz : Size) : Dword :=
  if s.eflags.df then -(BitVec.ofNat 32 sz.bytes) else BitVec.ofNat 32 sz.bytes

/-- A pointer advanced by one element, wrapping at asz bits. -/
def State.advance (s : State) (sz : Size) (r : Reg) : State := s.setReg s.asz r (s.reg s.asz r + s.stringStep sz)

def advanceBoth (sz : Size) : M Unit := modify fun s => (s.advance sz .esi).advance sz .edi

/-! One element (R431 to R437). -/

def cmpsElement (sz : Size) : M Unit := do
  let s ← get
  let a ← memRead s.srcSeg s.srcOffset sz
  let b ← memRead .es s.dstOffset sz
  modify fun s => s.setFlags (s.eflags.afterSub sz a b false)
  advanceBoth sz

/-- INS: the checks of the store come before the I/O read (R432). -/
def insElement (sz : Size) : M Unit := do
  let s ← get
  checkIo s.portDx sz
  storeFrom .es s.dstOffset sz.bytes (do
    let v ← ioRead s.portDx sz
    pure (leBytes sz.bytes v))
  modify fun s => s.advance sz .edi

def lodsElement (sz : Size) : M Unit := do
  let s ← get
  let v ← memRead s.srcSeg s.srcOffset sz
  modify fun s => (s.setReg sz .eax v).advance sz .esi

def movsElement (sz : Size) : M Unit := do
  let s ← get
  let v ← memRead s.srcSeg s.srcOffset sz
  memWrite .es s.dstOffset sz v
  advanceBoth sz

/-- OUTS: the read of the element comes before the I/O write (R435). -/
def outsElement (sz : Size) : M Unit := do
  let s ← get
  checkIo s.portDx sz
  let v ← memRead s.srcSeg s.srcOffset sz
  ioWrite s.portDx sz v
  modify fun s => s.advance sz .esi

def scasElement (sz : Size) : M Unit := do
  let s ← get
  let b ← memRead .es s.dstOffset sz
  modify fun s' => (s'.setFlags (s'.eflags.afterSub sz (s.reg sz .eax) b false)).advance sz .edi

def stosElement (sz : Size) : M Unit := do
  let s ← get
  memWrite .es s.dstOffset sz (s.reg sz .eax)
  modify fun s => s.advance sz .edi

def execCmps (w : Width) (s : State) : Answer := complete (cmpsElement (s.wsz w)) s
def execIns (w : Width) (s : State) : Answer := complete (insElement (s.wsz w)) s
def execLods (w : Width) (s : State) : Answer := complete (lodsElement (s.wsz w)) s
def execMovs (w : Width) (s : State) : Answer := complete (movsElement (s.wsz w)) s
def execOuts (w : Width) (s : State) : Answer := complete (outsElement (s.wsz w)) s
def execScas (w : Width) (s : State) : Answer := complete (scasElement (s.wsz w)) s
def execStos (w : Width) (s : State) : Answer := complete (stosElement (s.wsz w)) s

/-- XLAT (R438). -/
def execXlat (s : State) : Answer :=
  complete (do
    let v ← memRead s.srcSeg (trunc s.asz (s.reg s.asz .ebx + s.al)) .b8
    writeReg .b8 .eax v) s

/-! Repeat prefixes (R445; log 9): one iteration is one step, and EIP stays at the first prefix until the last. -/

/-- One iteration: it answers whether the repeat is done. `stop` looks at the flags after a comparison. -/
def iteration (stop : Eflags → Bool) (element : M Unit) : M Bool := do
  let s ← get
  if s.repCount = 0 then pure true
  else do
    element
    writeReg s.asz .ecx (s.repCount - 1)
    let s' ← get
    pure (s.repCount == 1 || stop s'.eflags)

/-- How a step of the repeated instruction `i` ends. -/
def State.retireRepeat (i : Instr) (done : Bool) (s s' : State) : State :=
  if done then s.retire s' else s.retireIteration i s'

def repeated (i : Instr) (stop : Eflags → Bool) (element : M Unit) (s : State) : Answer :=
  finish (State.retireRepeat i) (iteration stop element) s

/-- REP stops for the count only. -/
def never (_ : Eflags) : Bool := false
/-- REPE stops when ZF = 0. -/
def untilUnequal (f : Eflags) : Bool := !f.zf
/-- REPNE stops when ZF = 1. -/
def untilEqual (f : Eflags) : Bool := f.zf

def execRepeCmps (w : Width) (s : State) : Answer := repeated (.repeCmps w) untilUnequal (cmpsElement (s.wsz w)) s
def execRepneCmps (w : Width) (s : State) : Answer := repeated (.repneCmps w) untilEqual (cmpsElement (s.wsz w)) s
def execRepeScas (w : Width) (s : State) : Answer := repeated (.repeScas w) untilUnequal (scasElement (s.wsz w)) s
def execRepneScas (w : Width) (s : State) : Answer := repeated (.repneScas w) untilEqual (scasElement (s.wsz w)) s
def execRepInsF2 (w : Width) (s : State) : Answer := repeated (.repInsF2 w) never (insElement (s.wsz w)) s
def execRepInsF3 (w : Width) (s : State) : Answer := repeated (.repInsF3 w) never (insElement (s.wsz w)) s
def execRepLodsF2 (w : Width) (s : State) : Answer := repeated (.repLodsF2 w) never (lodsElement (s.wsz w)) s
def execRepLodsF3 (w : Width) (s : State) : Answer := repeated (.repLodsF3 w) never (lodsElement (s.wsz w)) s
def execRepMovsF2 (w : Width) (s : State) : Answer := repeated (.repMovsF2 w) never (movsElement (s.wsz w)) s
def execRepMovsF3 (w : Width) (s : State) : Answer := repeated (.repMovsF3 w) never (movsElement (s.wsz w)) s
def execRepOutsF2 (w : Width) (s : State) : Answer := repeated (.repOutsF2 w) never (outsElement (s.wsz w)) s
def execRepOutsF3 (w : Width) (s : State) : Answer := repeated (.repOutsF3 w) never (outsElement (s.wsz w)) s
def execRepStosF2 (w : Width) (s : State) : Answer := repeated (.repStosF2 w) never (stosElement (s.wsz w)) s
def execRepStosF3 (w : Width) (s : State) : Answer := repeated (.repStosF3 w) never (stosElement (s.wsz w)) s

end Sys2Proof.Machine
end

