-- ==== Sys2Proof/Machine/Dispatch.lean ====
section
/-! DEFINITION. The meaning of every instruction: one arm for each constructor of `Instr`. -/

namespace Sys2Proof.Machine

/-- The meaning of an instruction. -/
def exec (i : Instr) (s : State) : Host.Outcome State Fault Refusal :=
  match i with
  | .movRmReg w reg rm => Sys2Proof.Machine.execMovRmReg w reg rm s
  | .movRegRm w reg rm => Sys2Proof.Machine.execMovRegRm w reg rm s
  | .movRmImm w rm imm => Sys2Proof.Machine.execMovRmImm w rm imm s
  | .movRegImm w reg imm => Sys2Proof.Machine.execMovRegImm w reg imm s
  | .movAccMem w off => Sys2Proof.Machine.execMovAccMem w off s
  | .movMemAcc w off => Sys2Proof.Machine.execMovMemAcc w off s
  | .movSregRm sr rm => Sys2Proof.Machine.execMovSregRm sr rm s
  | .movRmSreg sr rm => Sys2Proof.Machine.execMovRmSreg sr rm s
  | .movsx w reg rm => Sys2Proof.Machine.execMovsx w reg rm s
  | .movzx w reg rm => Sys2Proof.Machine.execMovzx w reg rm s
  | .pushRm rm => Sys2Proof.Machine.execPushRm rm s
  | .pushReg reg => Sys2Proof.Machine.execPushReg reg s
  | .pushImm imm => Sys2Proof.Machine.execPushImm imm s
  | .popRm rm => Sys2Proof.Machine.execPopRm rm s
  | .popReg reg => Sys2Proof.Machine.execPopReg reg s
  | .xchgRmReg w reg rm => Sys2Proof.Machine.execXchgRmReg w reg rm s
  | .xchgAccReg reg => Sys2Proof.Machine.execXchgAccReg reg s
  | .inImm w port => Sys2Proof.Machine.execInImm w port s
  | .inDx w => Sys2Proof.Machine.execInDx w s
  | .outImm w port => Sys2Proof.Machine.execOutImm w port s
  | .outDx w => Sys2Proof.Machine.execOutDx w s
  | .lea reg m => Sys2Proof.Machine.execLea reg m s
  | .lds reg m => Sys2Proof.Machine.execLds reg m s
  | .les reg m => Sys2Proof.Machine.execLes reg m s
  | .lfs reg m => Sys2Proof.Machine.execLfs reg m s
  | .lgs reg m => Sys2Proof.Machine.execLgs reg m s
  | .lss reg m => Sys2Proof.Machine.execLss reg m s
  | .addRegRm d w reg rm => Sys2Proof.Machine.execAddRegRm d w reg rm s
  | .addRmImm w rm imm => Sys2Proof.Machine.execAddRmImm w rm imm s
  | .addAccImm w imm => Sys2Proof.Machine.execAddAccImm w imm s
  | .adcRegRm d w reg rm => Sys2Proof.Machine.execAdcRegRm d w reg rm s
  | .adcRmImm w rm imm => Sys2Proof.Machine.execAdcRmImm w rm imm s
  | .adcAccImm w imm => Sys2Proof.Machine.execAdcAccImm w imm s
  | .incRm w rm => Sys2Proof.Machine.execIncRm w rm s
  | .incReg reg => Sys2Proof.Machine.execIncReg reg s
  | .subRegRm d w reg rm => Sys2Proof.Machine.execSubRegRm d w reg rm s
  | .subRmImm w rm imm => Sys2Proof.Machine.execSubRmImm w rm imm s
  | .subAccImm w imm => Sys2Proof.Machine.execSubAccImm w imm s
  | .sbbRegRm d w reg rm => Sys2Proof.Machine.execSbbRegRm d w reg rm s
  | .sbbRmImm w rm imm => Sys2Proof.Machine.execSbbRmImm w rm imm s
  | .sbbAccImm w imm => Sys2Proof.Machine.execSbbAccImm w imm s
  | .decRm w rm => Sys2Proof.Machine.execDecRm w rm s
  | .decReg reg => Sys2Proof.Machine.execDecReg reg s
  | .cmpRegRm d w reg rm => Sys2Proof.Machine.execCmpRegRm d w reg rm s
  | .cmpRmImm w rm imm => Sys2Proof.Machine.execCmpRmImm w rm imm s
  | .cmpAccImm w imm => Sys2Proof.Machine.execCmpAccImm w imm s
  | .neg w rm => Sys2Proof.Machine.execNeg w rm s
  | .mul w rm => Sys2Proof.Machine.execMul w rm s
  | .imulAcc w rm => Sys2Proof.Machine.execImulAcc w rm s
  | .imulReg reg rm => Sys2Proof.Machine.execImulReg reg rm s
  | .imulImm reg rm imm => Sys2Proof.Machine.execImulImm reg rm imm s
  | .div w rm => Sys2Proof.Machine.execDiv w rm s
  | .idiv w rm => Sys2Proof.Machine.execIdiv w rm s
  | .aad base => Sys2Proof.Machine.execAad base s
  | .aam base => Sys2Proof.Machine.execAam base s
  | .rolBy1 w rm => Sys2Proof.Machine.execRolBy1 w rm s
  | .rolByCl w rm => Sys2Proof.Machine.execRolByCl w rm s
  | .rolByImm w rm count => Sys2Proof.Machine.execRolByImm w rm count s
  | .rorBy1 w rm => Sys2Proof.Machine.execRorBy1 w rm s
  | .rorByCl w rm => Sys2Proof.Machine.execRorByCl w rm s
  | .rorByImm w rm count => Sys2Proof.Machine.execRorByImm w rm count s
  | .rclBy1 w rm => Sys2Proof.Machine.execRclBy1 w rm s
  | .rclByCl w rm => Sys2Proof.Machine.execRclByCl w rm s
  | .rclByImm w rm count => Sys2Proof.Machine.execRclByImm w rm count s
  | .rcrBy1 w rm => Sys2Proof.Machine.execRcrBy1 w rm s
  | .rcrByCl w rm => Sys2Proof.Machine.execRcrByCl w rm s
  | .rcrByImm w rm count => Sys2Proof.Machine.execRcrByImm w rm count s
  | .shlBy1 w rm => Sys2Proof.Machine.execShlBy1 w rm s
  | .shlByCl w rm => Sys2Proof.Machine.execShlByCl w rm s
  | .shlByImm w rm count => Sys2Proof.Machine.execShlByImm w rm count s
  | .shrBy1 w rm => Sys2Proof.Machine.execShrBy1 w rm s
  | .shrByCl w rm => Sys2Proof.Machine.execShrByCl w rm s
  | .shrByImm w rm count => Sys2Proof.Machine.execShrByImm w rm count s
  | .sarBy1 w rm => Sys2Proof.Machine.execSarBy1 w rm s
  | .sarByCl w rm => Sys2Proof.Machine.execSarByCl w rm s
  | .sarByImm w rm count => Sys2Proof.Machine.execSarByImm w rm count s
  | .shldImm reg rm count => Sys2Proof.Machine.execShldImm reg rm count s
  | .shldCl reg rm => Sys2Proof.Machine.execShldCl reg rm s
  | .shrdImm reg rm count => Sys2Proof.Machine.execShrdImm reg rm count s
  | .shrdCl reg rm => Sys2Proof.Machine.execShrdCl reg rm s
  | .andRegRm d w reg rm => Sys2Proof.Machine.execAndRegRm d w reg rm s
  | .andRmImm w rm imm => Sys2Proof.Machine.execAndRmImm w rm imm s
  | .andRmImm8 rm imm8 => Sys2Proof.Machine.execAndRmImm8 rm imm8 s
  | .andAccImm w imm => Sys2Proof.Machine.execAndAccImm w imm s
  | .testRmReg w reg rm => Sys2Proof.Machine.execTestRmReg w reg rm s
  | .testRmImm w rm imm => Sys2Proof.Machine.execTestRmImm w rm imm s
  | .testAccImm w imm => Sys2Proof.Machine.execTestAccImm w imm s
  | .orRegRm d w reg rm => Sys2Proof.Machine.execOrRegRm d w reg rm s
  | .orRmImm w rm imm => Sys2Proof.Machine.execOrRmImm w rm imm s
  | .orRmImm8 rm imm8 => Sys2Proof.Machine.execOrRmImm8 rm imm8 s
  | .orAccImm w imm => Sys2Proof.Machine.execOrAccImm w imm s
  | .xorRegRm d w reg rm => Sys2Proof.Machine.execXorRegRm d w reg rm s
  | .xorRmImm w rm imm => Sys2Proof.Machine.execXorRmImm w rm imm s
  | .xorRmImm8 rm imm8 => Sys2Proof.Machine.execXorRmImm8 rm imm8 s
  | .xorAccImm w imm => Sys2Proof.Machine.execXorAccImm w imm s
  | .notRm w rm => Sys2Proof.Machine.execNotRm w rm s
  | .cmps w => Sys2Proof.Machine.execCmps w s
  | .ins w => Sys2Proof.Machine.execIns w s
  | .lods w => Sys2Proof.Machine.execLods w s
  | .movs w => Sys2Proof.Machine.execMovs w s
  | .outs w => Sys2Proof.Machine.execOuts w s
  | .scas w => Sys2Proof.Machine.execScas w s
  | .stos w => Sys2Proof.Machine.execStos w s
  | .repeCmps w => Sys2Proof.Machine.execRepeCmps w s
  | .repneCmps w => Sys2Proof.Machine.execRepneCmps w s
  | .repeScas w => Sys2Proof.Machine.execRepeScas w s
  | .repneScas w => Sys2Proof.Machine.execRepneScas w s
  | .repInsF2 w => Sys2Proof.Machine.execRepInsF2 w s
  | .repInsF3 w => Sys2Proof.Machine.execRepInsF3 w s
  | .repLodsF2 w => Sys2Proof.Machine.execRepLodsF2 w s
  | .repLodsF3 w => Sys2Proof.Machine.execRepLodsF3 w s
  | .repMovsF2 w => Sys2Proof.Machine.execRepMovsF2 w s
  | .repMovsF3 w => Sys2Proof.Machine.execRepMovsF3 w s
  | .repOutsF2 w => Sys2Proof.Machine.execRepOutsF2 w s
  | .repOutsF3 w => Sys2Proof.Machine.execRepOutsF3 w s
  | .repStosF2 w => Sys2Proof.Machine.execRepStosF2 w s
  | .repStosF3 w => Sys2Proof.Machine.execRepStosF3 w s
  | .bsf reg rm => Sys2Proof.Machine.execBsf reg rm s
  | .bsr reg rm => Sys2Proof.Machine.execBsr reg rm s
  | .btImm rm bit => Sys2Proof.Machine.execBtImm rm bit s
  | .btReg reg rm => Sys2Proof.Machine.execBtReg reg rm s
  | .btcImm rm bit => Sys2Proof.Machine.execBtcImm rm bit s
  | .btcReg reg rm => Sys2Proof.Machine.execBtcReg reg rm s
  | .btrImm rm bit => Sys2Proof.Machine.execBtrImm rm bit s
  | .btrReg reg rm => Sys2Proof.Machine.execBtrReg reg rm s
  | .btsImm rm bit => Sys2Proof.Machine.execBtsImm rm bit s
  | .btsReg reg rm => Sys2Proof.Machine.execBtsReg reg rm s
  | .ibts reg rm => Sys2Proof.Machine.execIbts reg rm s
  | .xbts reg rm => Sys2Proof.Machine.execXbts reg rm s
  | .callRel off => Sys2Proof.Machine.execCallRel off s
  | .callRm rm => Sys2Proof.Machine.execCallRm rm s
  | .callPtr off sel => Sys2Proof.Machine.execCallPtr off sel s
  | .callMem m => Sys2Proof.Machine.execCallMem m s
  | .jmpShort disp => Sys2Proof.Machine.execJmpShort disp s
  | .jmpRel off => Sys2Proof.Machine.execJmpRel off s
  | .jmpRm rm => Sys2Proof.Machine.execJmpRm rm s
  | .jmpPtr off sel => Sys2Proof.Machine.execJmpPtr off sel s
  | .jmpMem m => Sys2Proof.Machine.execJmpMem m s
  | .retImm n => Sys2Proof.Machine.execRetImm n s
  | .retfImm n => Sys2Proof.Machine.execRetfImm n s
  | .joShort disp => Sys2Proof.Machine.execJoShort disp s
  | .joNear off => Sys2Proof.Machine.execJoNear off s
  | .jnoShort disp => Sys2Proof.Machine.execJnoShort disp s
  | .jnoNear off => Sys2Proof.Machine.execJnoNear off s
  | .jbShort disp => Sys2Proof.Machine.execJbShort disp s
  | .jbNear off => Sys2Proof.Machine.execJbNear off s
  | .jnbShort disp => Sys2Proof.Machine.execJnbShort disp s
  | .jnbNear off => Sys2Proof.Machine.execJnbNear off s
  | .jeShort disp => Sys2Proof.Machine.execJeShort disp s
  | .jeNear off => Sys2Proof.Machine.execJeNear off s
  | .jneShort disp => Sys2Proof.Machine.execJneShort disp s
  | .jneNear off => Sys2Proof.Machine.execJneNear off s
  | .jbeShort disp => Sys2Proof.Machine.execJbeShort disp s
  | .jbeNear off => Sys2Proof.Machine.execJbeNear off s
  | .jnbeShort disp => Sys2Proof.Machine.execJnbeShort disp s
  | .jnbeNear off => Sys2Proof.Machine.execJnbeNear off s
  | .jsShort disp => Sys2Proof.Machine.execJsShort disp s
  | .jsNear off => Sys2Proof.Machine.execJsNear off s
  | .jnsShort disp => Sys2Proof.Machine.execJnsShort disp s
  | .jnsNear off => Sys2Proof.Machine.execJnsNear off s
  | .jpShort disp => Sys2Proof.Machine.execJpShort disp s
  | .jpNear off => Sys2Proof.Machine.execJpNear off s
  | .jnpShort disp => Sys2Proof.Machine.execJnpShort disp s
  | .jnpNear off => Sys2Proof.Machine.execJnpNear off s
  | .jlShort disp => Sys2Proof.Machine.execJlShort disp s
  | .jlNear off => Sys2Proof.Machine.execJlNear off s
  | .jnlShort disp => Sys2Proof.Machine.execJnlShort disp s
  | .jnlNear off => Sys2Proof.Machine.execJnlNear off s
  | .jleShort disp => Sys2Proof.Machine.execJleShort disp s
  | .jleNear off => Sys2Proof.Machine.execJleNear off s
  | .jnleShort disp => Sys2Proof.Machine.execJnleShort disp s
  | .jnleNear off => Sys2Proof.Machine.execJnleNear off s
  | .jcxz disp => Sys2Proof.Machine.execJcxz disp s
  | .loop disp => Sys2Proof.Machine.execLoop disp s
  | .loopz disp => Sys2Proof.Machine.execLoopz disp s
  | .loopnz disp => Sys2Proof.Machine.execLoopnz disp s
  | .seto rm => Sys2Proof.Machine.execSeto rm s
  | .setno rm => Sys2Proof.Machine.execSetno rm s
  | .setb rm => Sys2Proof.Machine.execSetb rm s
  | .setnb rm => Sys2Proof.Machine.execSetnb rm s
  | .sete rm => Sys2Proof.Machine.execSete rm s
  | .setne rm => Sys2Proof.Machine.execSetne rm s
  | .setbe rm => Sys2Proof.Machine.execSetbe rm s
  | .setnbe rm => Sys2Proof.Machine.execSetnbe rm s
  | .sets rm => Sys2Proof.Machine.execSets rm s
  | .setns rm => Sys2Proof.Machine.execSetns rm s
  | .setp rm => Sys2Proof.Machine.execSetp rm s
  | .setnp rm => Sys2Proof.Machine.execSetnp rm s
  | .setl rm => Sys2Proof.Machine.execSetl rm s
  | .setnl rm => Sys2Proof.Machine.execSetnl rm s
  | .setle rm => Sys2Proof.Machine.execSetle rm s
  | .setnle rm => Sys2Proof.Machine.execSetnle rm s
  | .enter size level => Sys2Proof.Machine.execEnter size level s
  | .intN v => Sys2Proof.Machine.execIntN v s
  | .bound reg m => Sys2Proof.Machine.execBound reg m s
  | .movCr0Reg reg => Sys2Proof.Machine.execMovCr0Reg reg s
  | .movCr2Reg reg => Sys2Proof.Machine.execMovCr2Reg reg s
  | .movCr3Reg reg => Sys2Proof.Machine.execMovCr3Reg reg s
  | .movRegCr0 reg => Sys2Proof.Machine.execMovRegCr0 reg s
  | .movRegCr2 reg => Sys2Proof.Machine.execMovRegCr2 reg s
  | .movRegCr3 reg => Sys2Proof.Machine.execMovRegCr3 reg s
  | .movDr0Reg reg => Sys2Proof.Machine.execMovDr0Reg reg s
  | .movDr1Reg reg => Sys2Proof.Machine.execMovDr1Reg reg s
  | .movDr2Reg reg => Sys2Proof.Machine.execMovDr2Reg reg s
  | .movDr3Reg reg => Sys2Proof.Machine.execMovDr3Reg reg s
  | .movDr6Reg reg => Sys2Proof.Machine.execMovDr6Reg reg s
  | .movDr7Reg reg => Sys2Proof.Machine.execMovDr7Reg reg s
  | .movRegDr6 reg => Sys2Proof.Machine.execMovRegDr6 reg s
  | .movRegDr7 reg => Sys2Proof.Machine.execMovRegDr7 reg s
  | .movRegDr0 reg => Sys2Proof.Machine.execMovRegDr0 reg s
  | .movRegDr1 reg => Sys2Proof.Machine.execMovRegDr1 reg s
  | .movRegDr2 reg => Sys2Proof.Machine.execMovRegDr2 reg s
  | .movRegDr3 reg => Sys2Proof.Machine.execMovRegDr3 reg s
  | .movTr6Reg reg => Sys2Proof.Machine.execMovTr6Reg reg s
  | .movTr7Reg reg => Sys2Proof.Machine.execMovTr7Reg reg s
  | .movRegTr6 reg => Sys2Proof.Machine.execMovRegTr6 reg s
  | .movRegTr7 reg => Sys2Proof.Machine.execMovRegTr7 reg s
  | .esc ttt lll rm => Sys2Proof.Machine.execEsc ttt lll rm s
  | .arpl reg rm => Sys2Proof.Machine.execArpl reg rm s
  | .lar reg rm => Sys2Proof.Machine.execLar reg rm s
  | .lgdt m => Sys2Proof.Machine.execLgdt m s
  | .lidt m => Sys2Proof.Machine.execLidt m s
  | .lldt rm => Sys2Proof.Machine.execLldt rm s
  | .lmsw rm => Sys2Proof.Machine.execLmsw rm s
  | .lsl reg rm => Sys2Proof.Machine.execLsl reg rm s
  | .ltr rm => Sys2Proof.Machine.execLtr rm s
  | .sgdt m => Sys2Proof.Machine.execSgdt m s
  | .sidt m => Sys2Proof.Machine.execSidt m s
  | .sldt rm => Sys2Proof.Machine.execSldt rm s
  | .smsw rm => Sys2Proof.Machine.execSmsw rm s
  | .str rm => Sys2Proof.Machine.execStr rm s
  | .verr rm => Sys2Proof.Machine.execVerr rm s
  | .verw rm => Sys2Proof.Machine.execVerw rm s
  | .addrsize => Sys2Proof.Machine.execAddrsize s
  | .lock => Sys2Proof.Machine.execLock s
  | .opsize => Sys2Proof.Machine.execOpsize s
  | .segCs => Sys2Proof.Machine.execSegCs s
  | .segDs => Sys2Proof.Machine.execSegDs s
  | .segEs => Sys2Proof.Machine.execSegEs s
  | .segFs => Sys2Proof.Machine.execSegFs s
  | .segGs => Sys2Proof.Machine.execSegGs s
  | .segSs => Sys2Proof.Machine.execSegSs s
  | .repneRep => Sys2Proof.Machine.execRepneRep s
  | .repeRep => Sys2Proof.Machine.execRepeRep s
  | .pushEs => Sys2Proof.Machine.execPushEs s
  | .pushCs => Sys2Proof.Machine.execPushCs s
  | .pushSs => Sys2Proof.Machine.execPushSs s
  | .pushDs => Sys2Proof.Machine.execPushDs s
  | .pushFs => Sys2Proof.Machine.execPushFs s
  | .pushGs => Sys2Proof.Machine.execPushGs s
  | .pusha => Sys2Proof.Machine.execPusha s
  | .popEs => Sys2Proof.Machine.execPopEs s
  | .popSs => Sys2Proof.Machine.execPopSs s
  | .popDs => Sys2Proof.Machine.execPopDs s
  | .popFs => Sys2Proof.Machine.execPopFs s
  | .popGs => Sys2Proof.Machine.execPopGs s
  | .popa => Sys2Proof.Machine.execPopa s
  | .clc => Sys2Proof.Machine.execClc s
  | .cld => Sys2Proof.Machine.execCld s
  | .cli => Sys2Proof.Machine.execCli s
  | .cmc => Sys2Proof.Machine.execCmc s
  | .lahf => Sys2Proof.Machine.execLahf s
  | .popf => Sys2Proof.Machine.execPopf s
  | .pushf => Sys2Proof.Machine.execPushf s
  | .sahf => Sys2Proof.Machine.execSahf s
  | .stc => Sys2Proof.Machine.execStc s
  | .std => Sys2Proof.Machine.execStd s
  | .sti => Sys2Proof.Machine.execSti s
  | .clts => Sys2Proof.Machine.execClts s
  | .aaa => Sys2Proof.Machine.execAaa s
  | .aas => Sys2Proof.Machine.execAas s
  | .daa => Sys2Proof.Machine.execDaa s
  | .das => Sys2Proof.Machine.execDas s
  | .cbw => Sys2Proof.Machine.execCbw s
  | .cwd => Sys2Proof.Machine.execCwd s
  | .xlat => Sys2Proof.Machine.execXlat s
  | .ret => Sys2Proof.Machine.execRet s
  | .retf => Sys2Proof.Machine.execRetf s
  | .leave => Sys2Proof.Machine.execLeave s
  | .int3 => Sys2Proof.Machine.execInt3 s
  | .into => Sys2Proof.Machine.execInto s
  | .iret => Sys2Proof.Machine.execIret s
  | .hlt => Sys2Proof.Machine.execHlt s
  | .nop => Sys2Proof.Machine.execNop s
  | .wait => Sys2Proof.Machine.execWait s

end Sys2Proof.Machine
end

