-- ==== Sys2Proof/Machine/Step.lean ====
section
/-! DEFINITION. One step of the machine: an event between instructions, a prefix byte, an instruction, or one iteration
of a repeated string instruction (log 8, log 9). -/

namespace Sys2Proof.Machine

/-- Run a fetched instruction, unless its LOCK prefix stops it. -/
def runInstr (i : Instr) (s : State) : Answer :=
  match lockFault i s with
  | some e => takeException e s
  | none => exec i s

/-- A repeated string instruction takes up its next iteration: it is not fetched again (43_string.md R445; log 9). -/
def State.resume (s : State) (r : Again) : State :=
  { s with instrEip := s.eip, eip := r.next, eipOver := r.nextOver, pfx := { s.pfx with again := none } }

/-- The next iteration of a repeated string instruction, or fetch one row of the opcode table and run it. -/
def stepInstr (s : State) : Answer :=
  match s.pfx.again with
  | some r => exec r.instr (s.resume r)
  | none =>
    match fetch s.markStart with
    | .ok i s' => runInstr i s'
    | .error e s' => stopped s.markStart s' e

/-- What comes between instructions, or an instruction. -/
def stepAfterPrefetch (s : State) : Answer :=
  match interruption s with
  | some a => a
  | none => stepInstr s

/-- A step with RESET negated. The prefetch that has gone on since the step before comes first (10_state.md R71; log 59).
DESIGN CHOICE (log 59): a halted or shut down machine prefetches too, where 60_exceptions.md R740 and R741 list NMI, INTR and
RESET alone, and 20_memory.md R152 says that a prefetch request is always pending. -/
def stepOnce (s : State) : Answer :=
  match prefetch s with
  | .ok _ s' => stepAfterPrefetch s'
  | .error e s' => stopped s s' e

/-- A step with RESET asserted: what the machine was doing is cut short, and it is reset (60_exceptions.md R664). A step that
ends in a bus cycle without READY# is cut in that cycle or before it, and so are one with an I/O operand past port FFFFH and
an ESC that waits for PEREQ for ever. DESIGN CHOICE (log 53): a step that is refused is cut before anything. A machine that
is in the reset state already stays in it, and an NMI edge that comes then is ignored (70_reset_and_hazards.md R750). -/
def stepReset (s : State) : Answer :=
  if { s with nmiPending := false } = s.resetPin then .next s.resetPin
  else
    match stepOnce { s with pins := { s.pins with reset := false } } with
    | .next t => .next (s.cutBy t)
    | .fault f => .next (s.cutBy f.reached)
    | .refused _ => .next s.resetPin

/-- One step. RESET has priority over everything (70_reset_and_hazards.md R750). -/
def step (s : State) : Host.Outcome State Fault Refusal := if s.pins.reset then stepReset s else stepOnce s

/-- `s` with an instruction stored where it is fetched next (log 7). -/
def State.withFetchWord (s : State) (nbits w : Nat) : State := placeWord s nbits w

end Sys2Proof.Machine
end

