-- ==== Sys2Proof/Safety.lean ====
section
/-! DEFINITION. What counts as a safe run, what is true of every state the machine can be in, and the words in which the
statements say what an instruction changes and what it leaves. -/

namespace Sys2Proof.Machine

/-- `k` steps from a state, none of which stops. -/
def runs : Nat → State → Option State
  | 0, s => some s
  | k + 1, s =>
    match step s with
    | .next s' => runs k s'
    | .fault _ => none
    | .refused _ => none

/-- A run of `k` steps is safe: no step of it ends in a fault or a refusal of the model. -/
def Safe (s : State) (k : Nat) : Prop := ∃ s', runs k s = some s'

/-- What holds in every state. Physical memory has its canonical form; the reserved bits of DR6 and DR7 and of the
debug traps that pend are clear (10_state.md R66, U11); PG = 1 only with PE = 1 (47_processor_control.md R586); VM = 1
only with PE = 1 (10_state.md R47 d). -/
structure State.Inv (s : State) : Prop where
  mem : Memory.wf s.mem = true
  dr6 : s.dr6 &&& ~~~dr6Mask = 0
  dr7 : s.dr7 &&& ~~~dr7Mask = 0
  pending : s.pendingDb &&& ~~~dr6Mask = 0
  paging : s.cr0.pg = true → s.cr0.pe = true
  vm : s.eflags.vm = true → s.cr0.pe = true

/-! What an instruction leaves. -/

/-- `t` with the general registers, EFLAGS, memory, the cycles at memory-mapped devices and the bookkeeping of prefixes,
the prefetch queue, inhibition, pending debug traps and free values put back as they are in `s`. What is left to compare
is everything else: EIP, the segment registers with their caches, the control, debug, test and table registers, CPL, the
NMI latches, the run state, the I/O ports, the bus cycles, the pins and the parameters. -/
def State.putBack (t s : State) : State :=
  { t with
    regs := s.regs, eflags := s.eflags, mem := s.mem, tlb := s.tlb, stale := s.stale, queued := s.queued
    deviceBus := s.deviceBus, pendingDb := s.pendingDb, draws := s.draws, pfx := s.pfx, shadow := s.shadow }

/-- Every physical address is memory, some of it perhaps read-only: no device, and nothing absent (log 4). -/
abbrev State.AllMemory (s : State) : Prop := s.params.allMemory = true

/-- Paging is off, so that a physical address is the linear one, and every address is memory. -/
abbrev State.Plain (s : State) : Prop := s.cr0.pg = false ∧ s.AllMemory

theorem State.Plain.unpaged {s : State} (h : s.Plain) : s.cr0.pg = false := h.1

theorem State.Plain.memory {s : State} (h : s.Plain) : s.AllMemory := h.2

/-- Physical byte `p` is as before. With paging on, the walks of an instruction's accesses may have set A and D, bits 5
and 6 of a byte of a table entry that can be written (20_memory.md R200). -/
def SameByte (s t : State) (p : Dword) : Prop :=
  t.readByte p = s.readByte p ∨
    (s.cr0.pg = true ∧ s.isFixed p.toNat = false ∧ t.readByte p ||| 0x60 = s.readByte p ||| 0x60)

/-- Nothing is stored. -/
def NoStore (s t : State) : Prop := ∀ p : Dword, SameByte s t p

/-- What physical byte `p` is once `b` has been stored there: where the platform's memory cannot be written, what it was
(MEMORY_MAP of 00_scope.md R7; log 4). -/
def State.stored (s : State) (p : Dword) (b : Byte) : Byte := if s.isFixed p.toNat then s.readByte p else b

/-- The bytes `bs` have been stored at the physical addresses `as`, and every other byte is as before. -/
def Stores (s t : State) (as : List Dword) (bs : List Byte) : Prop :=
  as.length = bs.length ∧ as.map t.readByte = List.zipWith s.stored as bs ∧ ∀ p : Dword, p ∉ as → SameByte s t p

/-- What a store of `bs` at `sr:off` in state `s1` makes of the memory of `s`, wherever its bytes lie. -/
def StoresAt (s s1 t : State) (sr : SReg) (off : Dword) (bs : List Byte) : Prop :=
  ∀ as u, physRange true s1.isUser (s1.linear sr off) bs.length s1 = .ok as u → Stores s t as bs

/-- The general registers after `v` is written to a location: a location in memory changes none. -/
def Loc.regs (l : Loc) (g : Regs) (sz : Size) (v : Dword) : Regs :=
  match l with
  | .reg r => g.write sz r v
  | .mem _ _ => g

/-- Memory after `v` is written to a location in state `s1`: a register stores nothing. -/
def Loc.Stored (l : Loc) (s s1 t : State) (sz : Size) (v : Dword) : Prop :=
  match l with
  | .reg _ => NoStore s t
  | .mem sr off => StoresAt s s1 t sr off (leBytes sz.bytes v)

/-- An instruction that started in `s` has completed in `t`, with general registers `g` and flags `f`; all that
`State.putBack` compares is as in `u`; the prefixes and the interrupt inhibit are used up and RF is 0. -/
structure Ends (s t : State) (g : Regs) (f : Eflags) (u : State) : Prop where
  regs : t.regs = g
  eflags : t.eflags = { f with rf := false }
  rest : t.putBack s = u
  pfx : t.pfx = Prefixes.none
  shadow : t.shadow = .none

/-- `i` completes from `s`: registers `g`, everything else as in `u`, nothing stored. The flags are `f` of the flags it
leaves, so that `f` can leave a flag that the spec calls undefined as it is found. -/
def Gives (i : Instr) (s : State) (g : Regs) (f : Eflags → Eflags) (u : State) : Prop :=
  ∃ t, exec i s = .next t ∧ Ends s t g (f t.eflags) u ∧ NoStore s t

/-- `i` completes from `s` and writes `v` of size `sz` to location `l`, a store being made in state `s1`. -/
def Puts (i : Instr) (s s1 : State) (l : Loc) (sz : Size) (v : Dword) (f : Eflags → Eflags) : Prop :=
  ∃ t, exec i s = .next t ∧ Ends s t (l.regs s.regs sz v) (f t.eflags) s ∧ l.Stored s s1 t sz v

/-- The offset of the `i`-th item of size `sz` that is pushed, counting from 0. -/
def State.slot (s : State) (sz : Size) (i : Nat) : Dword := s.spPlus (-(BitVec.ofNat 32 (sz.bytes * (i + 1))))

/-- Where the bytes of that item lie, with paging off. -/
def State.slotBytes (s : State) (sz : Size) (i : Nat) : List Dword := linearRange (s.linear .ss (s.slot sz i)) sz.bytes

/-- With paging off: the items have been stored, the first one highest, and every other byte is as before. -/
def Pushed (s t : State) (sz : Size) (items : List Dword) : Prop :=
  (∀ i v, items[i]? = some v →
    (s.slotBytes sz i).map t.readByte = List.zipWith s.stored (s.slotBytes sz i) (leBytes sz.bytes v)) ∧
    ∀ p : Dword, (∀ i, i < items.length → p ∉ s.slotBytes sz i) → t.readByte p = s.readByte p

/-- With paging off: the access bytes of those of the descriptors that are not yet marked accessed. -/
def State.marks (s : State) (ds : List (Word × Descriptor)) : List Dword :=
  (ds.filter fun x => !x.2.type.getLsbD 0).map fun x => s.descriptorAt x.1 + 5

/-- With paging off: the items have been stored, the first one highest, and then the Accessed bit has been set in the
access bytes `marks`; every other byte is as before. -/
def PushedMarking (s t : State) (sz : Size) (items : List Dword) (marks : List Dword) : Prop :=
  (∀ p ∈ marks, t.readByte p = s.stored p (s.readByte p ||| 1)) ∧
    (∀ (i k : Nat) (v p : Dword) (b : Byte), items[i]? = some v → (s.slotBytes sz i)[k]? = some p →
      (leBytes sz.bytes v)[k]? = some b → p ∉ marks → t.readByte p = s.stored p b) ∧
    ∀ p : Dword, p ∉ marks → (∀ i, i < items.length → p ∉ s.slotBytes sz i) → t.readByte p = s.readByte p

/-- With paging off: nothing is stored but the Accessed bit in the access bytes `marks`. -/
def Marked (s t : State) (marks : List Dword) : Prop := PushedMarking s t .b8 [] marks

/-- The general registers after `n` items of size `sz` are pushed. -/
def State.regsPushed (s : State) (sz : Size) (n : Nat) : Regs :=
  s.regs.write s.stackSize .esp (s.spPlus (-(BitVec.ofNat 32 (sz.bytes * n))))

/-- The general registers after `n` bytes are released from the stack. -/
def State.regsPopped (s : State) (n : Nat) : Regs := s.regs.write s.stackSize .esp (s.spPlus (BitVec.ofNat 32 n))

/-- With paging off: the bytes of an operand at `sr:off`. -/
def State.operandBytes (s : State) (sr : SReg) (off : Dword) (n : Nat) : List Byte :=
  (linearRange (s.linear sr off) n).map s.readByte

/-- `i` completes from `s` and pushes `v` of size `sz`, the store being made in state `s1`. -/
def Pushes (i : Instr) (s s1 : State) (sz : Size) (v : Dword) : Prop :=
  ∃ t, exec i s = .next t ∧ Ends s t (s.regsPushed sz 1) s.eflags s ∧ StoresAt s s1 t .ss (s.slot sz 0) (leBytes sz.bytes v)

/-- With paging off: the `i`-th item of size `sz` on the stack, counting from 0 at the top. -/
def State.stackItem (s : State) (sz : Size) (i : Nat) : Dword :=
  leDword (s.operandBytes .ss (s.spPlus (BitVec.ofNat 32 (sz.bytes * i))) sz.bytes)

/-- The `i`-th item on the stack passes the checks of a read. -/
def State.itemOk (s : State) (sz : Size) (i : Nat) : Prop :=
  s.segOk .ss (s.spPlus (BitVec.ofNat 32 (sz.bytes * i))) sz.bytes false = true

/-- The `i`-th item to be pushed passes the checks of a store, and in Real Mode it does not wrap the segment
(10_state.md R36). -/
def State.slotOk (s : State) (sz : Size) (i : Nat) : Prop :=
  s.segOk .ss (s.slot sz i) sz.bytes true = true ∧ (s.cr0.pe = false → (s.slot sz i).toNat + sz.bytes ≤ 65536)

/-- `i` transfers control from `s`: EIP is `target` in the state that is otherwise `u`, with registers `g`. -/
def Jumps (i : Instr) (s : State) (g : Regs) (u : State) (target : Dword) : Prop :=
  Gives i s g (fun _ => s.eflags) { u with eip := target, eipOver := false }

/-- With paging off: the descriptor at a linear address. -/
def State.descriptorIn (s : State) (l : Dword) : Descriptor := { lo := s.physDword l, hi := s.physDword (l + 4) }

/-- Outside Protected Mode nothing is stored; with paging off at most the access byte of the descriptor that `sel`
names changes (its Accessed bit). -/
def OnlyAccessed (s t : State) (sel : Word) : Prop :=
  (s.protectedMode = false → NoStore s t) ∧
    (s.cr0.pg = false → ∀ p, p = s.descriptorAt sel + 5 ∨ t.readByte p = s.readByte p)

/-- The flags POPF and IRET load from an image `v`: IF with CPL ≤ IOPL, IOPL at CPL 0 (10_state.md R48), RF as `rf`
says, VM not. -/
def State.flagsFrom (s : State) (v : Dword) (rf : Bool) : Eflags :=
  { cf := v.getLsbD 0, pf := v.getLsbD 2, af := v.getLsbD 4, zf := v.getLsbD 6, sf := v.getLsbD 7, tf := v.getLsbD 8,
    df := v.getLsbD 10, ofl := v.getLsbD 11, nt := v.getLsbD 14, rf := rf, vm := s.eflags.vm
    ifl := if s.currentCpl ≤ s.eflags.iopl then v.getLsbD 9 else s.eflags.ifl
    iopl := if s.currentCpl = 0 then v.extractLsb' 12 2 else s.eflags.iopl }

/-! Transfers to a code segment in Protected Mode, and entering a handler. -/

/-- With paging off: `sel` names `d`, a present code segment whose limit takes in `off`. -/
structure CodeTarget (s : State) (sel : Word) (d : Descriptor) (off : Dword) : Prop where
  plain : s.Plain
  notNull : isNull sel = false
  inside : s.inTable sel = true
  found : d = s.descriptorIn (s.descriptorAt sel)
  code : d.isCode = true
  present : d.present = true
  limit : off.toNat ≤ d.limit.toNat

/-- `sel` names `d`, a present writable data segment of privilege level `level`, the RPL being `level` too. -/
structure StackTarget (s : State) (level : BitVec 2) (sel : Word) (d : Descriptor) : Prop where
  notNull : isNull sel = false
  inside : s.inTable sel = true
  found : d = s.descriptorIn (s.descriptorAt sel)
  level : rpl sel = level ∧ d.dpl = level
  data : d.isWritableData = true ∧ d.present = true

/-- What DS, ES, FS or GS holds after a return to the outer level `level`: a segment that the level may not use is gone
(45_control_transfer.md R504). -/
def SegReg.outside (c : SegReg) (level : BitVec 2) : SegReg :=
  if c.valid = true ∧ c.isConforming = false ∧ c.dpl < level then { c with selector := 0, valid := false } else c

/-- `s` returned to the code segment `d` and the stack segment `sd` of the outer level that `sel` names. -/
def State.outside (s : State) (sel : Word) (d : Descriptor) (off : Dword) (ss : Word) (sd : Descriptor) : State :=
  { s with
    cs := d.cache sel, eip := off, eipOver := false, ss := sd.cache ss, cpl := rpl sel
    es := s.es.outside (rpl sel), ds := s.ds.outside (rpl sel), fs := s.fs.outside (rpl sel), gs := s.gs.outside (rpl sel) }

/-- With paging off: `sel` names `g`, a present call gate that CPL and the RPL may use, to the code segment `c`
(45_control_transfer.md R484). -/
structure CallGate (s : State) (sel : Word) (g c : Descriptor) : Prop where
  notNull : isNull sel = false
  inside : s.inTable sel = true
  found : g = s.descriptorIn (s.descriptorAt sel)
  kind : g.isSystem 4 = true ∨ g.isSystem 12 = true
  present : g.present = true
  allowed : s.currentCpl ≤ g.dpl ∧ rpl sel ≤ g.dpl
  target : CodeTarget s g.gateSelector c g.gateOffset

/-- `s` with the code segment `d` in CS and EIP = `off`. -/
def State.inCode (s : State) (sel : Word) (d : Descriptor) (off : Dword) : State :=
  { s.setSeg .cs (d.cache sel) with eip := off, eipOver := false }

/-- The handler of vector `v` has been entered in Real Mode, `eip` being saved: three words are pushed, IF and TF are
clear, RF is `rf`, and CS:IP is what the vector's entry in memory holds. -/
structure EnteredReal (s t : State) (v : Byte) (eip : Dword) (rf : Bool) : Prop where
  regs : t.regs = s.regsPushed .b16 3
  eflags : t.eflags = { s.eflags with ifl := false, tf := false, rf := rf }
  pushed : Pushed s t .b16 [s.eflags.word, s.cs.selector.setWidth 32, eip]
  rest : ∀ a, a = s.idtr.base + BitVec.ofNat 32 (4 * v.toNat) →
    t.putBack s =
      { s.load8086 .cs (t.readByte (a + 3) ++ t.readByte (a + 2)) with
        eip := (t.readByte (a + 1) ++ t.readByte a).setWidth 32, eipOver := false, runState := .running }
  pfx : t.pfx = Prefixes.none
  shadow : t.shadow = .none

/-- With paging off: the IDT entry of vector `v` is `g`, a present interrupt or trap gate to the code segment `c`. -/
structure IdtGate (s : State) (v : Byte) (g c : Descriptor) : Prop where
  inIdt : 8 * v.toNat + 7 ≤ s.idtr.limit.toNat
  gate : g = s.descriptorIn (s.idtr.base + BitVec.ofNat 32 (8 * v.toNat))
  kind : g.isSystem 6 = true ∨ g.isSystem 7 = true ∨ g.isSystem 14 = true ∨ g.isSystem 15 = true
  present : g.present = true
  target : CodeTarget s g.gateSelector c g.gateOffset

/-- The flags after a handler is entered through gate `g`: an interrupt gate, type 6 or the parameter
GATE_TYPE_INTERRUPT, also clears IF (60_exceptions.md R675). -/
def State.flagsEntered (s : State) (g : Descriptor) : Eflags :=
  { s.eflags with
    tf := false, nt := false, vm := false, rf := false
    ifl := s.eflags.ifl &&
      !(g.isSystem 6 || g.isSystem (if s.params.gateTypeInterrupt = .t14 then 14 else 15)) }

/-- The handler behind gate `g` has been entered from `s` at privilege level `level`: the items are on the stack of `s1`, `s`
with the handler's stack in place, and then the descriptors at `marks` are marked accessed. -/
structure EnteredGate (s s1 t : State) (g c : Descriptor) (level : BitVec 2) (items marks : List Dword) : Prop where
  regs : t.regs = s1.regsPushed g.gateSize items.length
  eflags : t.eflags = s.flagsEntered g
  pushed : PushedMarking s1 t g.gateSize items marks
  rest : t.putBack s = { (s1.inCode (withRpl g.gateSelector level) c g.gateOffset).putBack s with runState := .running }
  pfx : t.pfx = Prefixes.none
  shadow : t.shadow = .none

/-- With paging off: the current TSS, of the 386 or the 286, gives level `level` the stack `sel:sp`, a present writable
data segment `d` of that level (45_control_transfer.md R485; 20_memory.md R197). -/
structure InnerStack (s : State) (level : BitVec 2) (sel : Word) (sp : Dword) (d : Descriptor) : Prop where
  valid : s.tr.valid = true
  fields : if s.tr.type.getLsbD 3 then
      8 * level.toNat + 9 ≤ s.tr.limit.toNat ∧
        sp = s.physDword (s.tr.base + BitVec.ofNat 32 (8 * level.toNat + 4)) ∧
        sel = (s.physDword (s.tr.base + BitVec.ofNat 32 (8 * level.toNat + 8))).setWidth 16
    else
      4 * level.toNat + 5 ≤ s.tr.limit.toNat ∧
        sp = s.physDword (s.tr.base + BitVec.ofNat 32 (4 * level.toNat + 2)) &&& 0xFFFF ∧
        sel = (s.physDword (s.tr.base + BitVec.ofNat 32 (4 * level.toNat + 4))).setWidth 16
  notNull : isNull sel = false
  inside : s.inTable sel = true
  found : d = s.descriptorIn (s.descriptorAt sel)
  level : rpl sel = level ∧ d.dpl = level
  data : d.isWritableData = true ∧ d.present = true

/-! Task switches (60_exceptions.md R720 to R722; 20_memory.md R197). -/

/-- With paging off: `s` with bytes stored at a linear address. -/
def State.storing (s : State) (a : Dword) (bs : List Byte) : State :=
  { s with mem := writeCells s.isFixed s.mem (linearRange a bs.length) bs }

/-- The same, one store after the other. -/
def State.storingAll (s : State) : List (Dword × List Byte) → State
  | [] => s
  | x :: rest => (s.storing x.1 x.2).storingAll rest

/-- With paging off: `s` with the Accessed bit of the descriptor `d` that `sel` names set. -/
def State.markingAccessed (s : State) (sel : Word) (d : Descriptor) : State :=
  s.storingAll ((s.marks [(sel, d)]).map fun p => (p, [s.readByte p ||| 1]))

/-- With paging off: `i` switches, as `kind` says, to the task whose TSS `ns` names, with descriptor `nd`: a JMP or
CALL to that TSS or to a task gate, INT n through a task gate, or IRET with NT = 1. -/
def SwitchesTo (s : State) (i : Instr) (kind : TaskKind) (ns : Word) (nd : Descriptor) : Prop :=
  (isNull ns = false ∧ inLdt ns = false ∧ s.inTable ns = true ∧ nd = s.descriptorIn (s.descriptorAt ns) ∧
    nd.present = true ∧ (if kind = .iret then nd.isBusyTss = true else nd.isAvailableTss = true)) ∧
  ((∃ sel : Word,
      ((∃ o, i = .jmpPtr o sel ∧ kind = .jmp ∨ i = .callPtr o sel ∧ kind = .call) ∨
        (∃ m off s1, readFarPointer m s = .ok (off, sel) s1 ∧ (i = .jmpMem m ∧ kind = .jmp ∨ i = .callMem m ∧ kind = .call))) ∧
      ((sel = ns ∧ s.currentCpl ≤ nd.dpl ∧ rpl ns ≤ nd.dpl) ∨
        (∃ g, isNull sel = false ∧ s.inTable sel = true ∧ g = s.descriptorIn (s.descriptorAt sel) ∧ g.isSystem 5 = true ∧
          g.present = true ∧ s.currentCpl ≤ g.dpl ∧ rpl sel ≤ g.dpl ∧ ns = g.gateSelector))) ∨
    (∃ (v : Byte) (g : Descriptor), i = .intN v ∧ kind = .int ∧ 8 * v.toNat + 7 ≤ s.idtr.limit.toNat ∧
      g = s.descriptorIn (s.idtr.base + BitVec.ofNat 32 (8 * v.toNat)) ∧ g.isSystem 5 = true ∧ g.present = true ∧
      s.currentCpl ≤ g.dpl ∧ ns = g.gateSelector) ∨
    (i = .iret ∧ kind = .iret ∧ s.eflags.nt = true ∧ 1 ≤ s.tr.limit.toNat ∧ ns = (s.physDword s.tr.base).setWidth 16))

/-- With paging off: `s` once the outgoing task has been saved in its 386 TSS, its descriptor made available by JMP and
IRET, the back link stored by CALL and INT, and the descriptor of the incoming task made busy but by IRET. -/
def State.taskSaved (s : State) (kind : TaskKind) (ns : Word) (nd : Descriptor) : State :=
  let b := s.tr.base
  let flags : Eflags := if kind = .iret then { s.eflags with nt := false } else s.eflags
  let s1 := s.storingAll
    [(b + 0x28, leBytes 4 s.regs.eax),
      (b + 0x2C, leBytes 4 s.regs.ecx), (b + 0x30, leBytes 4 s.regs.edx), (b + 0x34, leBytes 4 s.regs.ebx),
      (b + 0x38, leBytes 4 s.regs.esp), (b + 0x3C, leBytes 4 s.regs.ebp), (b + 0x40, leBytes 4 s.regs.esi),
      (b + 0x44, leBytes 4 s.regs.edi), (b + 0x48, leBytes 2 (s.es.selector.setWidth 32)),
      (b + 0x4C, leBytes 2 (s.cs.selector.setWidth 32)), (b + 0x50, leBytes 2 (s.ss.selector.setWidth 32)),
      (b + 0x54, leBytes 2 (s.ds.selector.setWidth 32)), (b + 0x58, leBytes 2 (s.fs.selector.setWidth 32)),
      (b + 0x5C, leBytes 2 (s.gs.selector.setWidth 32)), (b + 0x24, leBytes 4 flags.word), (b + 0x20, leBytes 4 s.eip)]
  let old := s.descriptorAt s.tr.selector + 5
  let s2 := if kind = .jmp ∨ kind = .iret then s1.storing old [s1.readByte old &&& 0xFD] else s1
  let s3 := if kind = .call ∨ kind = .int then s2.storing nd.base (leBytes 2 (s.tr.selector.setWidth 32)) else s2
  if kind = .iret then s3 else s3.storing (s.descriptorAt ns + 5) [s.readByte (s.descriptorAt ns + 5) ||| 2]

/-- A segment register or LDTR that takes the selector `sel` from a task's image, `d` being the descriptor it names. -/
def SegReg.fromTask (c : SegReg) (sel : Word) (d : Descriptor) : SegReg :=
  if isNull sel = true then { c with selector := sel, valid := false } else d.cache sel

/-- A selector for DS, ES, FS or GS in a task's image: null, or that of a present segment that level `level` may use. -/
def DataTarget (s : State) (level : BitVec 2) (sel : Word) (d : Descriptor) : Prop :=
  isNull sel = true ∨
    (s.inTable sel = true ∧ (d.isData = true ∨ d.isReadableCode = true) ∧
      (d.isConforming = true ∨ (rpl sel ≤ d.dpl ∧ level ≤ d.dpl)) ∧ d.present = true)

/-! Debug exceptions (60_exceptions.md R730; 10_state.md R66). -/

/-- DR0 to DR3. -/
def State.breakAddress (s : State) (k : Nat) : Dword := [s.dr0, s.dr1, s.dr2, s.dr3].getD k 0

/-- Breakpoint `k` is enabled, by Lk or Gk. -/
def State.BreakOn (s : State) (k : Nat) : Prop := s.dr7.getLsbD (2 * k) = true ∨ s.dr7.getLsbD (2 * k + 1) = true

/-- Instruction breakpoint `k`, R/W = 00 and LEN = 00, is at the linear address of the next instruction. -/
def State.Breaks (s : State) (k : Nat) : Prop :=
  s.BreakOn k ∧ s.dr7.extractLsb' (16 + 4 * k) 4 = 0 ∧ s.breakAddress k = s.cs.base + s.eip

/-- Data breakpoint `k` covers one of the `n` bytes at linear address `l`: R/W = 01 for a write, 11 for either; 1, 2
or 4 bytes by LEN = 00, 01, 11, the low bits of the address being ignored. -/
def State.Watches (s : State) (k : Nat) (write : Bool) (l : Dword) (n : Nat) : Prop :=
  s.BreakOn k ∧
    (s.dr7.extractLsb' (16 + 4 * k) 2 = 3 ∨ (s.dr7.extractLsb' (16 + 4 * k) 2 = 1 ∧ write = true)) ∧
    ∃ p ∈ [((0 : BitVec 2), 1, (0xFFFFFFFF : Dword)), (1, 2, 0xFFFFFFFE), (3, 4, 0xFFFFFFFC)],
      s.dr7.extractLsb' (18 + 4 * k) 2 = p.1 ∧
        ∃ i j, i < n ∧ j < p.2.1 ∧ l + BitVec.ofNat 32 i = (s.breakAddress k &&& p.2.2) + BitVec.ofNat 32 j

/-- What taking the exception `e` makes of CR2, DR6 and DR7: a page fault puts its linear address in CR2, a debug
exception sets its bits of DR6, and general detect clears DR7.GD. -/
def State.noting (s : State) (e : Exn) : State :=
  { s with
    cr2 := e.cr2.getD s.cr2, dr6 := s.dr6 ||| e.dr6
    dr7 := if e.dr6.getLsbD 13 = true then s.dr7 &&& 0xFFFFDFFF else s.dr7 }

/-- An error code as it is pushed: the upper half is undefined, and of a page fault's all but the low three bits. -/
def CodeItem (v : Byte) (code : Word) (x : Dword) : Prop :=
  if v = 14 then x.extractLsb' 0 3 = code.extractLsb' 0 3 else x.setWidth 16 = code

/-- With paging off: the handler behind the 386 gate `g` to the level 0 code segment `c` has been entered from `s` in Virtual
8086 Mode: the frame, with the saved EFLAGS `image`, the saved EIP `eip` and the error code if there is one, is on the stack
of `s1`, `s` with VM = 0 and the stack `sel`, `d` of level 0 in place, and the data segment registers are null
(60_exceptions.md R680). -/
structure LeftV86 (s s1 t : State) (g c d : Descriptor) (sel : Word) (image eip : Dword) (code : List Dword) : Prop where
  regs : t.regs = s1.regsPushed .b32 (9 + code.length)
  eflags : t.eflags = s.flagsEntered g
  pushed : ∃ gs fs ds es ss cs : Dword,
    [gs, fs, ds, es, ss, cs].map (·.setWidth 16) =
      [s.gs.selector, s.fs.selector, s.ds.selector, s.es.selector, s.ss.selector, s.cs.selector] ∧
    PushedMarking s1 t .b32 ([gs, fs, ds, es, ss, s.regs.esp, image, cs, eip] ++ code) (s.marks [(g.gateSelector, c)])
  cs : t.cs = c.cache (withRpl g.gateSelector 0)
  eip : t.eip = g.gateOffset
  ss : t.ss = d.cache sel
  cpl : t.currentCpl = 0
  data : ∀ sr : SReg, sr ≠ .cs → sr ≠ .ss → (t.seg sr).selector = 0 ∧ (t.seg sr).valid = false
  rest : ({ t with es := s.es, cs := s.cs, ss := s.ss, ds := s.ds, fs := s.fs, gs := s.gs, eip := s.eip, cpl := s.cpl,
                   eipOver := s.eipOver, runState := s.runState } : State).putBack s = s
  runState : t.runState = .running
  pfx : t.pfx = Prefixes.none
  shadow : t.shadow = .none

/-- `f` with the six arithmetic flags as they are in `u`. -/
def Eflags.arithmeticOf (f u : Eflags) : Eflags :=
  { f with ofl := u.ofl, sf := u.sf, zf := u.zf, af := u.af, pf := u.pf, cf := u.cf }

end Sys2Proof.Machine
end

