-- ==== Sys2Proof/Certificates/Slice0/Obligations.lean ====
section
/-! DEFINITION. The statements about the model. `Gives`, `Puts`, `Ends`, `StoresAt` and `Pushed` are of Safety.lean. A
docstring says which part of the spec a statement rests on; where the spec itself marks the effect "[from general
knowledge, not in source]" the statement cites the file, not a rule. -/

open Sys2Proof Sys2Proof.Machine

/-! Reset, the whole machine. -/

/-- The registers after RESET whose values 10_state.md (R80, R81) gives: EIP, CS, the data segment registers, EFLAGS,
CR0, IDTR, DR7, DX, EAX after a requested self-test, which passes (log 41), the run state, the NMI latches, the TLB.
RESET asserted, at any time and in any state, makes the next step give these registers; the ports, the pins and the
parameters are the environment's and stay (60_exceptions.md, RESET). It may cut short the step that is being done
(70_reset_and_hazards.md): each byte of memory is then as before that step or as after it, or, with paging on, as before
with A set and D not yet, and of its bus cycles those before some point have run; which bytes and how many cycles is
open (log 53, the model's choice of what can be cut). A step that waits forever, in a bus cycle that nothing answers or
for PEREQ, is cut there or before, too. Rests in part on text that the spec marks "[from general knowledge, not in
source]". -/
def Obligations.ResetRegisters : Prop :=
  (∀ p : Config.Params,
    (State.resetWith p).eip = 0x0000FFF0 ∧
    (State.resetWith p).eflags.word = 0x00000002 ∧
    ((State.resetWith p).cs.selector = 0xF000 ∧ (State.resetWith p).cs.base = 0xFFFF0000 ∧
      (State.resetWith p).cs.limit = 0xFFFF) ∧
    (∀ sr : SReg, sr ≠ .cs → ((State.resetWith p).seg sr).selector = 0 ∧ ((State.resetWith p).seg sr).base = 0 ∧
      ((State.resetWith p).seg sr).limit = 0xFFFF) ∧
    (∀ sr : SReg, ((State.resetWith p).seg sr).valid = true ∧ ((State.resetWith p).seg sr).writable = true) ∧
    (State.resetWith p).cr0 = { pe := false, mp := false, em := false, ts := false, pg := false,
                                et := p.coprocessor == .i80387 } ∧
    ((State.resetWith p).idtr.base = 0 ∧ (State.resetWith p).idtr.limit = 0x03FF) ∧
    (State.resetWith p).dr7 = 0 ∧
    (State.resetWith p).reg .b8 .esi = 0x03 ∧
    (State.resetWith p).reg .b8 .edx = p.revisionId.setWidth 32 ∧
    (p.selftestRequested = true → (State.resetWith p).regs.eax = 0) ∧
    (State.resetWith p).runState = .running ∧
    ((State.resetWith p).nmiPending = false ∧ (State.resetWith p).nmiInService = false) ∧
    (State.resetWith p).shadow = .none ∧
    (State.resetWith p).tlb = []) ∧
  (∀ s : State, s.Inv → s.pins.reset = true →
    ∃ t u, step s = .next t ∧
      t = { State.resetWith s.params with mem := t.mem, ioInputs := s.ioInputs, bus := t.bus, deviceBus := t.deviceBus,
                                          pins := s.pins, copRequest := s.copRequest, draws := t.draws } ∧
      (u = s ∨ step { s with pins := { s.pins with reset := false } } = .next u ∨
        ∃ f, step { s with pins := { s.pins with reset := false } } = .fault f ∧ u = f.reached) ∧
      t.bus <:+ u.bus ∧ t.deviceBus <:+ u.deviceBus ∧
      ∀ p, t.readByte p = s.readByte p ∨ t.readByte p = u.readByte p ∨
        (s.cr0.pg = true ∧ t.readByte p = s.readByte p ||| (u.readByte p &&& 0x20)))


/-- The invariant holds after reset, whatever the parameters. -/
def Obligations.ResetInvariant : Prop := State.reset.Inv ∧ ∀ p : Config.Params, (State.resetWith p).Inv

/-- Every step keeps the invariant: the canonical form of memory, the reserved bits of DR6, DR7 and of the debug traps
that pend (10_state.md, debug registers), PG = 1 only with PE = 1 and VM = 1 only with PE = 1 (47_processor_control.md,
MOV to CR0; 10_state.md, rules on VM). -/
def Obligations.StepKeepsInvariant : Prop :=
  ∀ s t : State, s.Inv → step s = .next t → t.Inv

/-! Decoding and the step. -/

/-- Decoding the encoding of any well-formed instruction gives it back, with its length, whatever bytes follow
(30_encoding.md). The two repeat prefixes are set apart: F2 or F3 before a string opcode is the repeated row, and before
any other opcode it is the prefix. -/
def Obligations.DecodeOfEncode : Prop :=
  ∀ (c : Ctx) (i : Instr) (rest : List Byte), i.wf c = true →
    (i ≠ .repneRep → i ≠ .repeRep → decode c (encode i ++ rest) = .instr i (encode i).length) ∧
    (i = .repneRep ∨ i = .repeRep →
      ∀ b : Byte, isStringOp b = false → decode c (encode i ++ b :: rest) = .instr i 1)

/-- A few words of 30_encoding.md, one from each family, written out from the rows of the opcode table. -/
def Obligations.DecodeSamples : Prop :=
  -- MOV 1000100w mod:reg:r/m, w = 1, mod 11, reg 011, r/m 000
  decode Ctx.reset [0b10001001, 0b11011000] = .instr (.movRmReg .full .ebx (.reg .eax)) 2 ∧
  -- ADD 000000dw, d = 1, w = 1, mod 01, reg 000, r/m 110 (BP), disp8 4
  decode Ctx.reset [0b00000011, 0b01000110, 4] = .instr (.addRegRm .toReg .full .eax (.mem (.a16 .bp (.d8 4)))) 3 ∧
  -- SHL 1100000w, w = 0, mod 11, TTT 100, r/m 001, imm8 3
  decode Ctx.reset [0b11000000, 0b11100001, 3] = .instr (.shlByImm .byte (.reg .ecx) 3) 3 ∧
  -- REP MOVS 11110011 1010010w, w = 1
  decode Ctx.reset [0b11110011, 0b10100101] = .instr (.repMovsF3 .full) 2 ∧
  -- BTS 00001111 10111010 mod 11, 101, r/m 010, imm8 5
  decode Ctx.reset [0b00001111, 0b10111010, 0b11101010, 5] = .instr (.btsImm (.reg .edx) 5) 4 ∧
  -- JNE 00001111 1000tttn, tttn 0101, displacement 0100H
  decode Ctx.reset [0b00001111, 0b10000101, 0x00, 0x01] = .instr (.jneNear (.o16 0x0100)) 4 ∧
  -- INT n 11001101, vector 21H
  decode Ctx.reset [0b11001101, 0x21] = .instr (.intN 0x21) 2 ∧
  -- MOV CR0,reg 00001111 00100010 11 eee 000 reg 001
  decode Ctx.reset [0b00001111, 0b00100010, 0b11000001] = .instr (.movCr0Reg .ecx) 3 ∧
  -- LGDT 00001111 00000001 mod 00, 010, r/m 110, disp16 1234H
  decode Ctx.reset [0b00001111, 0b00000001, 0b00010110, 0x34, 0x12] = .instr (.lgdt (.abs16 0x1234)) 5

/-- A step runs the decoded instruction: with RESET negated, nothing due at the boundary, paging off, only memory in the
address space, nothing of the prefetch queue in doubt and the next 15 bytes inside CS, `step` is `exec` of the instruction
that the bytes at CS:EIP decode to, in the state with EIP past that instruction; a LOCK prefix that the instruction does
not take raises its exception instead. Bytes that are no instruction raise exception 6, and an instruction of more than 15
bytes with its prefixes raises #GP(0), a prefix byte by itself being none yet (10_state.md, 30_encoding.md,
47_processor_control.md). A repeated string instruction that is not over goes on with its next iteration and is not
fetched again (43_string.md). How prefixes and iterations are steps is the model's choice (logs 8, 9). Before that, in every
state, code is prefetched (10_state.md R71): it changes the prefetch queue and the cycles that memory-mapped devices have
seen and uses free values, and nothing else, or it waits forever where nothing answers a byte of the code ahead; where
every address is memory it changes nothing. When that happens is the model's choice (log 59). -/
def Obligations.StepRunsDecoded : Prop :=
  (∀ r : State, r.pins.reset = false →
    (∃ t, prefetch r = .ok () t ∧ r.deviceBus <:+ t.deviceBus ∧
        t = { r with queued := t.queued, deviceBus := t.deviceBus, draws := t.draws }) ∨
      ((∃ u, step r = .fault (.noReady u)) ∧ ∃ p : Dword, r.params.responder p.toNat = some .absent)) ∧
  (∀ r : State, r.AllMemory → prefetch r = .ok () r) ∧
  ∀ r s : State, r.pins.reset = false → prefetch r = .ok () s → interruption s = none →
    (∀ a, s.pfx.again = some a →
      step r = exec a.instr { s with instrEip := s.eip, eip := a.next, eipOver := a.nextOver,
                                     pfx := { s.pfx with again := none } }) ∧
    (s.pfx.again = none → s.Plain → s.stale = [] → s.queued = [] → s.cs.valid = true → s.eipOver = false →
      s.eip.toNat + 14 ≤ s.cs.limit.toNat →
      (decode s.ctx ((linearRange (s.linear .cs s.eip) 15).map s.readByte) = .reject .invalid →
        step r = takeException Exn.ud s.markStart) ∧
      ∀ (i : Instr) (n : Nat),
        decode s.ctx ((linearRange (s.linear .cs s.eip) 15).map s.readByte) = .instr i n →
        (i ∈ [Instr.addrsize, .lock, .opsize, .segCs, .segDs, .segEs, .segFs, .segGs, .segSs, .repneRep, .repeRep] ∨
            s.pfx.count + n ≤ 15 →
          (lockFault i (s.markStart.skip n) = none → step r = exec i (s.markStart.skip n)) ∧
          (∀ e, lockFault i (s.markStart.skip n) = some e → step r = takeException e (s.markStart.skip n))) ∧
        (i ∉ [Instr.addrsize, .lock, .opsize, .segCs, .segDs, .segEs, .segFs, .segGs, .segSs, .repneRep, .repeRep] →
          15 < s.pfx.count + n → step r = takeException (Exn.gp 0) s.markStart) ∧
        ((s.markStart.skip n).eip = s.eip + BitVec.ofNat 32 n ∧
          (s.markStart.skip n).instrEip = if s.pfx.count = 0 then s.eip else s.instrEip))

/-- A prefix byte only notes itself for the instruction that follows: an operand-size or address-size prefix makes
that size the opposite of the default, a second one of the same kind changes nothing more, a segment override replaces
the default segment, LOCK and the repeat prefixes are remembered (30_encoding.md, 47_processor_control.md, prefixes).
That a prefix byte is a step of its own is the model's choice (log 8). LOCK is taken by BT, BTS, BTR, BTC, XCHG, ADD,
OR, ADC, SBB, AND, SUB, XOR, NOT, NEG, INC, DEC with a memory destination; before any other instruction it raises
exception 6, and before these, in Protected Mode with CPL greater than IOPL, #GP(0) (20_memory.md, LOCK; which of the
two checks comes first is log 33). Rests in part on text that the spec marks "[from general knowledge, not in
source]". -/
def Obligations.PrefixesNoted : Prop :=
  (∀ (s : State) (i : Instr) (takes : Prop),
    (takes ↔ ∃ (m : MemOp) (r : Reg) (w : Width) (imm : Imm) (b : BitVec 8),
      i ∈ [Instr.btImm (.mem m) b, .btReg r (.mem m), .btsImm (.mem m) b, .btsReg r (.mem m), .btrImm (.mem m) b,
        .btrReg r (.mem m), .btcImm (.mem m) b, .btcReg r (.mem m), .xchgRmReg w r (.mem m), .addRegRm .toRm w r (.mem m),
        .addRmImm w (.mem m) imm, .orRegRm .toRm w r (.mem m), .orRmImm w (.mem m) imm, .orRmImm8 (.mem m) b,
        .adcRegRm .toRm w r (.mem m), .adcRmImm w (.mem m) imm, .sbbRegRm .toRm w r (.mem m), .sbbRmImm w (.mem m) imm,
        .andRegRm .toRm w r (.mem m), .andRmImm w (.mem m) imm, .andRmImm8 (.mem m) b, .subRegRm .toRm w r (.mem m),
        .subRmImm w (.mem m) imm, .xorRegRm .toRm w r (.mem m), .xorRmImm w (.mem m) imm, .xorRmImm8 (.mem m) b,
        .notRm w (.mem m), .neg w (.mem m), .incRm w (.mem m), .decRm w (.mem m)]) →
    (s.pfx.lock = false ∨ i ∈ [Instr.addrsize, .lock, .opsize, .segCs, .segDs, .segEs, .segFs, .segGs, .segSs, .repneRep,
        .repeRep] → lockFault i s = none) ∧
    (s.pfx.lock = true → i ∉ [Instr.addrsize, .lock, .opsize, .segCs, .segDs, .segEs, .segFs, .segGs, .segSs, .repneRep,
        .repeRep] →
      (¬takes → lockFault i s = some Exn.ud) ∧
      (takes → s.protectedMode = true ∧ s.eflags.iopl < s.currentCpl → lockFault i s = some (Exn.gp 0)) ∧
      (takes → s.protectedMode = false ∨ s.currentCpl ≤ s.eflags.iopl → lockFault i s = none))) ∧
  ∀ s : State,
    (∀ p ∈ [(Instr.segCs, SReg.cs), (.segDs, .ds), (.segEs, .es), (.segFs, .fs), (.segGs, .gs), (.segSs, .ss)],
      ∃ t, exec p.1 s = .next t ∧ t = { s with pfx := t.pfx } ∧ (∀ d, t.overridden d = p.2) ∧
        t.pfx = { s.pfx with seg := some p.2, count := s.pfx.count + 1 }) ∧
    (∃ t, exec .opsize s = .next t ∧ t = { s with pfx := { s.pfx with opsize := true, count := s.pfx.count + 1 } } ∧
      t.osz32 = !s.codeD ∧ t.asz32 = s.asz32) ∧
    (∃ t, exec .addrsize s = .next t ∧ t = { s with pfx := { s.pfx with addrsize := true, count := s.pfx.count + 1 } } ∧
      t.asz32 = !s.codeD ∧ t.osz32 = s.osz32) ∧
    exec .lock s = .next { s with pfx := { s.pfx with lock := true, count := s.pfx.count + 1 } } ∧
    exec .repneRep s = .next { s with pfx := { s.pfx with rep := some .f2, count := s.pfx.count + 1 } } ∧
    exec .repeRep s = .next { s with pfx := { s.pfx with rep := some .f3, count := s.pfx.count + 1 } }

/-! Registers, memory, translation. -/

/-- 10_state.md R31: a write of an 8-bit or 16-bit register leaves the other bits of the extended register, and every
other register, as they are, and the part that is written reads back. -/
def Obligations.RegisterWriteKeepsUpper : Prop :=
  ∀ (s : State) (v : Dword) (r : Reg),
    (((s.setReg .b16 r v).regs.get r).extractLsb' 16 16 = (s.regs.get r).extractLsb' 16 16 ∧
      ((s.setReg .b16 r v).regs.get r).setWidth 16 = v.setWidth 16 ∧
      ∀ q, q ≠ r → (s.setReg .b16 r v).regs.get q = s.regs.get q) ∧
    (Reg.isHighByte r = false →
      ((s.setReg .b8 r v).regs.get r).extractLsb' 8 24 = (s.regs.get r).extractLsb' 8 24 ∧
      ((s.setReg .b8 r v).regs.get r).setWidth 8 = v.setWidth 8 ∧
      ∀ q, q ≠ r → (s.setReg .b8 r v).regs.get q = s.regs.get q) ∧
    (Reg.isHighByte r = true →
      ((s.setReg .b8 r v).regs.get (Reg.byteHome r)).extractLsb' 16 16 =
        (s.regs.get (Reg.byteHome r)).extractLsb' 16 16 ∧
      ((s.setReg .b8 r v).regs.get (Reg.byteHome r)).setWidth 8 = (s.regs.get (Reg.byteHome r)).setWidth 8 ∧
      ((s.setReg .b8 r v).regs.get (Reg.byteHome r)).extractLsb' 8 8 = v.setWidth 8 ∧
      ∀ q, q ≠ Reg.byteHome r → (s.setReg .b8 r v).regs.get q = s.regs.get q)

/-- A store that answers can be read back, byte by byte and little-endian, wherever its pages lie: byte `k` of the
operand holds bits 8k+7 to 8k of the value, or what it held where the platform's memory cannot be written (log 4); the
operand's bytes lie at different physical addresses, and no other byte of memory changes but for A and D bits of page
tables. With paging off an operand is read from the consecutive bytes at
segment base + offset, the lowest the least significant (20_memory.md, byte order and R120). An operand of which one byte
is where nothing answers stops the processor (20_memory.md, cycle handshake), and one inside a dword at a memory-mapped
device is one bus cycle there and changes no memory. Rests in part on text that the spec marks "[from general knowledge, not
in source]". -/
def Obligations.MemoryIsLittleEndian : Prop :=
  (∀ (s t u : State) (sr : SReg) (off v : Dword) (sz : Size) (as : List Dword), s.Inv →
    memWrite sr off sz v s = .ok () t →
    physRange true s.isUser (s.linear sr off) sz.bytes s = .ok as u →
    as.length = sz.bytes ∧ as.Nodup ∧
      (∀ k p, as[k]? = some p → t.readByte p = s.stored p (v.extractLsb' (8 * k) 8)) ∧
      (∀ p, p ∉ as → SameByte s t p) ∧
      t.regs = s.regs ∧ t.eflags = s.eflags ∧ t.putBack s = s) ∧
  (∀ (s : State) (sr : SReg) (off v : Dword) (sz : Size) (w : Bool) (as : List Dword) (u : State) (p : Dword),
    s.segOk sr off sz.bytes w = true → physRange w s.isUser (s.linear sr off) sz.bytes s = .ok as u → p ∈ as →
    s.params.responder p.toNat = some .absent →
    (w = false → ∃ t u', memRead sr off sz s = .error (.fault (.noReady u')) t) ∧
    (w = true → ∃ t u', memWrite sr off sz v s = .error (.fault (.noReady u')) t)) ∧
  (∀ (s : State) (sr : SReg) (off v : Dword) (sz : Size) (a : Nat), s.cr0.pg = false → a = (s.linear sr off).toNat →
    a % 4 + sz.bytes ≤ 4 → (∀ k, k < sz.bytes → s.params.responder (a + k) = some .device) →
    (s.segOk sr off sz.bytes false = true → s.params.asserts16 .memoryDataRead a = false →
      ∃ x t, memRead sr off sz s = .ok x t ∧
        t.deviceBus = { after := s.bus.length, cycle := .memoryRead a sz.bytes } :: s.deviceBus ∧ t.mem = s.mem) ∧
    (s.segOk sr off sz.bytes true = true → s.params.asserts16 .memoryDataWrite a = false →
      ∃ t, memWrite sr off sz v s = .ok () t ∧
        t.deviceBus = { after := s.bus.length, cycle := .memoryWrite a (leBytes sz.bytes v) } :: s.deviceBus ∧
        t.mem = s.mem)) ∧
  (∀ (s : State) (sr : SReg) (off : Dword) (sz : Size), s.Plain → s.segOk sr off sz.bytes false = true →
    ∃ v t, memRead sr off sz s = .ok v t ∧ t = { s with pendingDb := t.pendingDb, draws := t.draws } ∧
      (∀ k, k < sz.bytes →
        v.extractLsb' (8 * k) 8 = s.readByte ((s.seg sr).base + off + BitVec.ofNat 32 k)) ∧
      v.toNat < 2 ^ sz.bits)


/-- A reference that fails its segment checks raises exception 12 through SS, else 13, with error code 0, and changes
nothing (20_memory.md, segment checks): one that reaches past the limit of an expand-up segment, one outside an
expand-down segment, a store to a code segment or a read-only data segment, a read of an execute-only code segment, any
use of a register that holds a null selector. Rests in part on text that the spec marks "[from general knowledge, not in
source]". -/
def Obligations.SegmentChecks : Prop :=
  ∀ (s : State) (sr : SReg) (off v : Dword) (sz : Size) (c : SegReg), s.seg sr = c →
    ((c.expandDown = false ∧ c.limit.toNat < off.toNat + sz.bytes - 1) ∨
      (c.expandDown = true ∧ (off.toNat ≤ c.limit.toNat ∨
        (if c.db then 2 ^ 32 else 2 ^ 16) < off.toNat + sz.bytes)) ∨
      (s.cr0.pe = true ∧ c.valid = false) →
      memRead sr off sz s = .error (.exn (if sr = .ss then Exn.ss 0 else Exn.gp 0) .nothing) s ∧
      memWrite sr off sz v s = .error (.exn (if sr = .ss then Exn.ss 0 else Exn.gp 0) .nothing) s) ∧
    (s.cr0.pe = true → c.isCode = true ∨ c.writable = false →
      memWrite sr off sz v s = .error (.exn (if sr = .ss then Exn.ss 0 else Exn.gp 0) .nothing) s) ∧
    (s.cr0.pe = true → c.isCode = true → c.readable = false →
      memRead sr off sz s = .error (.exn (if sr = .ss then Exn.ss 0 else Exn.gp 0) .nothing) s)

/-- Translation of a linear address whose page the TLB does not hold (20_memory.md, paging): an entry that is not
present or that forbids a user access raises the page fault with CR2 and error code; else the physical address is the
frame and the offset, A is set in both entries and D in the page table entry for a write, where the entry can be
written. A table where nothing answers stops the processor (log 4). Rests in part on text that the spec marks "[from general knowledge, not in source]". -/
def Obligations.PageTranslation : Prop :=
  ∀ (s : State) (w u : Bool) (l pdeAt pde pteAt pte : Dword), s.Inv → s.cr0.pg = true →
    findEntry (pageOf l) s.tlb = none →
    pdeAt = (s.cr3 ++ 0#12) + ((l >>> 22) <<< 2) → pde = s.physDword pdeAt →
    pteAt = (pde &&& 0xFFFFF000) + (((l >>> 12) &&& 0x3FF) <<< 2) → pte = s.physDword pteAt →
    (s.absentDword pdeAt = true ∨ (pde.getLsbD 0 = true ∧ s.absentDword pteAt = true) →
      translate w u l s = .error (.fault (.noReady s)) s) ∧
    (s.absentDword pdeAt = false → pde.getLsbD 0 = false ∨ (s.absentDword pteAt = false ∧ pte.getLsbD 0 = false) →
      translate w u l s = .error (.exn (Exn.pf l false w u) .nothing) s) ∧
    (s.absentDword pdeAt = false → s.absentDword pteAt = false → pde.getLsbD 0 = true → pte.getLsbD 0 = true →
      (u = true ∧ (pde.getLsbD 2 = false ∨ pte.getLsbD 2 = false ∨
        (w = true ∧ (pde.getLsbD 1 = false ∨ pte.getLsbD 1 = false))) →
        translate w u l s = .error (.exn (Exn.pf l true w u) .nothing) s) ∧
      (u = false ∨ (pde.getLsbD 2 = true ∧ pte.getLsbD 2 = true ∧
        (w = true → pde.getLsbD 1 = true ∧ pte.getLsbD 1 = true)) →
        ∃ t, translate w u l s = .ok ((pte &&& 0xFFFFF000) + (l &&& 0xFFF)) t ∧
          (s.isFixed pteAt.toNat = false →
            (t.physDword pteAt).getLsbD 5 = true ∧ (w = true → (t.physDword pteAt).getLsbD 6 = true)) ∧
          (s.isFixed pdeAt.toNat = false → (t.physDword pdeAt).getLsbD 5 = true) ∧
          t.regs = s.regs ∧ t.eflags = s.eflags ∧ t.putBack s = s ∧ NoStore s t)) ∧
    (Exn.pf l false w u).cr2 = some l ∧ (Exn.pf l true w u).cr2 = some l ∧
    (∀ p, (Exn.pf l p w u).errorCode = some ((if p then 1 else 0) ||| (if w then 2 else 0) ||| (if u then 4 else 0)))

/-- 20_memory.md R148: A1, BHE# and BLE# for a 16-bit device, the ten rows of the table (true is high); BE0# is bit 0.
The patterns left out, all high and those that are not contiguous, never occur: the byte enables of a cycle of 1 to 4
bytes inside a dword are one of the ten. -/
def Obligations.SixteenBitDevice : Prop :=
  device16 0b0001 = (false, true, false) ∧
  device16 0b0010 = (false, false, true) ∧
  device16 0b0011 = (false, false, false) ∧
  device16 0b0100 = (true, true, false) ∧
  device16 0b0110 = (false, false, true) ∧
  device16 0b0111 = (false, false, false) ∧
  device16 0b1000 = (true, false, true) ∧
  device16 0b1100 = (true, false, false) ∧
  device16 0b1110 = (false, false, true) ∧
  device16 0b1111 = (false, false, false) ∧
  ∀ n low, 1 ≤ n → n + low ≤ 4 → byteEnables n low ∈ ([0b0001, 0b0010, 0b0011, 0b0100, 0b0110, 0b0111, 0b1000,
    0b1100, 0b1110, 0b1111] : List (BitVec 4))

/-! Data transfer (40_data_transfer.md). -/

/-- MOV to a register or memory operand, from a register or an immediate, and MOV from the accumulator to a direct
offset in DS or the segment an override names: the operand takes the value, nothing else changes. Rests in part on text
that the spec marks "[from general knowledge, not in source]". -/
def Obligations.MovToOperand : Prop :=
  ∀ (s s1 s2 : State) (w : Width) (rm : RM) (l : Loc) (reg : Reg) (imm : Imm) (off : Off) (a : Dword), s.Inv →
    (resolve rm s = .ok l s1 →
      (writeLoc (s.wsz w) l (s.reg (s.wsz w) reg) s1 = .ok () s2 →
        Puts (.movRmReg w reg rm) s s1 l (s.wsz w) (s.reg (s.wsz w) reg) fun _ => s.eflags) ∧
      (writeLoc (s.wsz w) l (immValue (s.wsz w) imm) s1 = .ok () s2 →
        Puts (.movRmImm w rm imm) s s1 l (s.wsz w) (immValue (s.wsz w) imm) fun _ => s.eflags)) ∧
    (a = (match off with | .o16 d => d.setWidth 32 | .o32 d => d) →
      memWrite (s.pfx.seg.getD .ds) a (s.wsz w) (s.reg (s.wsz w) .eax) s = .ok () s1 →
      Puts (.movMemAcc w off) s s (.mem (s.pfx.seg.getD .ds) a) (s.wsz w) (s.reg (s.wsz w) .eax) fun _ => s.eflags)


/-- MOV, MOVZX and MOVSX to a register: the register takes the operand or the immediate, extended with zeros or the sign
where the source is narrower; MOV to the accumulator from a direct offset in DS or the segment an override names; LEA
gives the offset of its operand, cut to the operand size, and reads no memory. Rests in part on text that the spec marks
"[from general knowledge, not in source]". -/
def Obligations.MovToRegister : Prop :=
  ∀ (s s1 : State) (w : Width) (rm : RM) (reg : Reg) (v : Dword), s.Inv →
    (readRm (s.wsz w) rm s = .ok v s1 →
      Gives (.movRegRm w reg rm) s (s.regs.write (s.wsz w) reg v) (fun _ => s.eflags) s) ∧
    (∀ imm, Gives (.movRegImm w reg imm) s (s.regs.write (s.wsz w) reg (immValue (s.wsz w) imm)) (fun _ => s.eflags) s) ∧
    (readRm (if w = .byte then .b8 else .b16) rm s = .ok v s1 →
      Gives (.movzx w reg rm) s (s.regs.write s.osz reg v) (fun _ => s.eflags) s ∧
      Gives (.movsx w reg rm) s
        (s.regs.write s.osz reg (if w = .byte then (v.setWidth 8).signExtend 32 else (v.setWidth 16).signExtend 32))
        (fun _ => s.eflags) s) ∧
    (∀ (m : MemOp) (a : SReg × Dword), effectiveAddress m s = .ok a s1 →
      Gives (.lea reg m) s (s.regs.write s.osz reg a.2) (fun _ => s.eflags) s) ∧
    (∀ (off : Off) (a : Dword), a = (match off with | .o16 d => d.setWidth 32 | .o32 d => d) →
      memRead (s.pfx.seg.getD .ds) a (s.wsz w) s = .ok v s1 →
      Gives (.movAccMem w off) s (s.regs.write (s.wsz w) .eax v) (fun _ => s.eflags) s)


/-- The effective address of every addressing form (30_encoding.md): base, scaled index and displacement, modulo 2^16 or
2^32, an 8-bit displacement being sign-extended; the default segment is SS where BP, EBP or ESP is the base and DS
elsewhere, a segment override replaces it. Where the s-i-b byte names no index and a scale other than 1 the spec leaves
the address undefined (log 16): not stated. Rests in part on text that the spec marks "[from general knowledge, not in
source]". -/
def Obligations.EffectiveAddress : Prop :=
  ∀ (s : State) (scaled : Scale → Option Reg → Dword),
    (scaled = fun sc index => match index with
      | none => 0
      | some r => s.regs.get r * (match sc with | .x1 => 1 | .x2 => 2 | .x4 => 4 | .x8 => 8)) →
    (∀ (b : Base16) (d : Disp16),
      effectiveAddress (.a16 b d) s =
        .ok (s.pfx.seg.getD (if b = .bp ∨ b = .bpSi ∨ b = .bpDi then .ss else .ds),
          (((match b with
              | .bxSi => s.regs.ebx.setWidth 16 + s.regs.esi.setWidth 16
              | .bxDi => s.regs.ebx.setWidth 16 + s.regs.edi.setWidth 16
              | .bpSi => s.regs.ebp.setWidth 16 + s.regs.esi.setWidth 16
              | .bpDi => s.regs.ebp.setWidth 16 + s.regs.edi.setWidth 16
              | .si => s.regs.esi.setWidth 16
              | .di => s.regs.edi.setWidth 16
              | .bp => s.regs.ebp.setWidth 16
              | .bx => s.regs.ebx.setWidth 16) +
            (match d with | .none => 0 | .d8 v => v.signExtend 16 | .d16 v => v) : Word)).setWidth 32) s) ∧
    (∀ d : Word, effectiveAddress (.abs16 d) s = .ok (s.pfx.seg.getD .ds, d.setWidth 32) s) ∧
    (∀ d : Dword, effectiveAddress (.abs32 d) s = .ok (s.pfx.seg.getD .ds, d) s) ∧
    (∀ (base : Reg) (d : Disp32) (x : Dword), x = (match d with | .none => 0 | .d8 v => v.signExtend 32 | .d32 v => v) →
      effectiveAddress (.a32 base d) s =
        .ok (s.pfx.seg.getD (if base = .ebp ∨ base = .esp then .ss else .ds), s.regs.get base + x) s ∧
      ∀ (sc : Scale) (index : Option Reg), (index = none → sc = .x1) →
        effectiveAddress (.sib base sc index d) s =
          .ok (s.pfx.seg.getD (if base = .ebp ∨ base = .esp then .ss else .ds),
            s.regs.get base + scaled sc index + x) s) ∧
    (∀ (sc : Scale) (index : Option Reg) (d : Dword), (index = none → sc = .x1) →
      effectiveAddress (.sibAbs sc index d) s = .ok (s.pfx.seg.getD .ds, scaled sc index + d) s)

/-- MOV from a segment register, SLDT, STR and SMSW: memory always takes 16 bits; a register takes 16 bits, and with a
32-bit operand size its upper half is undefined: nothing is said of it. SLDT and STR need Protected Mode. The reserved
bits of what SMSW stores are 0 by the model's choice (log 36). Rests in part on text that the spec marks "[from general
knowledge, not in source]". -/
def Obligations.StoreSystemWord : Prop :=
  ∀ (s : State) (rm : RM) (sr : SReg), s.Inv →
    ∀ p ∈ [(Instr.movRmSreg sr rm, true, (s.seg sr).selector), (.sldt rm, s.protectedMode, s.ldtr.selector),
        (.str rm, s.protectedMode, s.tr.selector),
        (.smsw rm, !(s.params.smswPrivileged && s.currentCpl != 0),
          (0#11 ++ BitVec.ofBool s.cr0.et ++ BitVec.ofBool s.cr0.ts ++ BitVec.ofBool s.cr0.em ++ BitVec.ofBool s.cr0.mp ++
            BitVec.ofBool s.cr0.pe : Word))],
      p.2.1 = true →
        (∀ r, rm = .reg r →
          (s.osz = .b16 → Gives p.1 s (s.regs.write .b16 r (p.2.2.setWidth 32)) (fun _ => s.eflags) s) ∧
          (s.osz = .b32 → ∃ t, exec p.1 s = .next t ∧ Ends s t (s.regs.set r (t.regs.get r)) s.eflags s ∧
            (t.regs.get r).setWidth 16 = p.2.2 ∧ NoStore s t)) ∧
        (∀ m sr' off s1 s2, rm = .mem m → resolve rm s = .ok (.mem sr' off) s1 →
          memWrite sr' off .b16 (p.2.2.setWidth 32) s1 = .ok () s2 →
          Puts p.1 s s1 (.mem sr' off) .b16 (p.2.2.setWidth 32) fun _ => s.eflags)

/-- 20_memory.md R191: an 8086 segment load, in Real and in Virtual 8086 Mode, sets the selector, and the base to 16
times it; it reads no descriptor, so nothing but that segment register changes and no fault is possible. -/
def Obligations.SegmentLoad8086 : Prop :=
  ∀ (s : State) (sr : SReg) (v : Word), s.protectedMode = false →
    ∃ t, loadSeg sr v s = .ok () t ∧ (t.seg sr).selector = v ∧ (t.seg sr).base = v.setWidth 32 <<< 4 ∧
      t.setSeg sr (s.seg sr) = s

/-- What a data segment register load does in Protected Mode, with paging off (20_memory.md, Load; 10_state.md, hidden
part): a null selector in DS, ES, FS, GS faults nothing and makes the register unusable; SS takes a present writable
data segment of the current level, named by a selector of that level; the others take present data or readable code that
the level and the RPL may use; the cache is loaded from the descriptor and the descriptor's Accessed bit is set. What
fails raises #GP, #NP or #SS with the selector, or #GP(0) for a null selector in SS, and changes no register. Rests in
part on text that the spec marks "[from general knowledge, not in source]". -/
def Obligations.SegmentLoadProtected : Prop :=
  ∀ (s : State) (sr : SReg) (sel : Word) (d : Descriptor) (dpl rpl : BitVec 2) (code : Word),
    s.Inv → s.protectedMode = true → s.Plain → sr ≠ .cs →
    d = s.descriptorIn (s.descriptorAt sel) → dpl = d.hi.extractLsb' 13 2 → rpl = sel.extractLsb' 0 2 →
    code = sel &&& 0xFFFC →
    (sr ≠ .ss → sel.extractLsb' 2 14 = 0 →
      loadSeg sr sel s = .ok () (s.setSeg sr { s.seg sr with selector := sel, valid := false })) ∧
    (sr = .ss → sel.extractLsb' 2 14 = 0 → ∃ t, loadSeg sr sel s = .error (.exn (Exn.gp 0) .nothing) t ∧ t = s) ∧
    (sel.extractLsb' 2 14 ≠ 0 → s.inTable sel = false →
      ∃ t, loadSeg sr sel s = .error (.exn (Exn.gp code) .nothing) t ∧ t = s) ∧
    (sel.extractLsb' 2 14 ≠ 0 → s.inTable sel = true →
      ((if sr = .ss then rpl = s.currentCpl ∧ dpl = s.currentCpl ∧ d.isWritableData = true
        else (d.isData = true ∨ d.isReadableCode = true) ∧
          (d.isConforming = true ∨ (rpl ≤ dpl ∧ s.currentCpl ≤ dpl))) →
        (d.present = true → ∃ t, loadSeg sr sel s = .ok () t ∧
          t.seg sr = { selector := sel, base := d.base, limit := d.limit, valid := true, dpl := dpl, type := d.type,
                       db := d.db } ∧
          t.regs = s.regs ∧ t.eflags = s.eflags ∧ (t.setSeg sr (s.seg sr)).putBack s = s ∧
          t.readByte (s.descriptorAt sel + 5) =
            s.stored (s.descriptorAt sel + 5) (s.readByte (s.descriptorAt sel + 5) ||| 1) ∧
          ∀ p, p ≠ s.descriptorAt sel + 5 → t.readByte p = s.readByte p) ∧
        (d.present = false → ∃ t, loadSeg sr sel s =
            .error (.exn (if sr = .ss then Exn.ss code else Exn.np code) .nothing) t ∧
          t.regs = s.regs ∧ t.putBack s = s)) ∧
      (¬(if sr = .ss then rpl = s.currentCpl ∧ dpl = s.currentCpl ∧ d.isWritableData = true
        else (d.isData = true ∨ d.isReadableCode = true) ∧
          (d.isConforming = true ∨ (rpl ≤ dpl ∧ s.currentCpl ≤ dpl))) →
        ∃ t, loadSeg sr sel s = .error (.exn (Exn.gp code) .nothing) t ∧ t.regs = s.regs ∧ t.putBack s = s))

/-- MOV and POP to a segment register and the far pointer loads: once the operand is read, the segment register is
loaded as `loadSeg` loads it (Obligations.SegmentLoad8086 and Obligations.SegmentLoadProtected say how), POP releases
its item, LDS and the others write the offset to the register, and everything else stays; of memory, with paging off, at
most one byte of the descriptor may change, and none outside Protected Mode. A load of SS by MOV or POP inhibits
interrupts for one instruction (10_state.md). CS is no destination of MOV: that encoding raises exception 6
(30_encoding.md; the decoder refuses it, log 42). PUSHA pushes EAX, ECX, EDX, EBX, the ESP from before, EBP, ESI, EDI,
and POPA pops them in the opposite order and discards the item of ESP, with paging off; in Real Mode a PUSHA whose frame
would run across offset 0 raises exception 13 (when that is: log 35, an inference; that it comes before any item is
stored: log 35, the model's choice). Rests in part on text that the spec marks "[from general knowledge, not in
source]". -/
def Obligations.SegmentLoadsPushaPopa : Prop :=
  (∀ s : State, s.Inv → s.Plain →
    (s.cr0.pe = true ∨ s.sp = 0 ∨ 8 * s.osz.bytes ≤ s.sp.toNat → (∀ i, i < 8 → s.slotOk s.osz i) →
      ∃ t, exec .pusha s = .next t ∧ Ends s t (s.regsPushed s.osz 8) s.eflags s ∧
        Pushed s t s.osz [s.regs.eax, s.regs.ecx, s.regs.edx, s.regs.ebx, s.regs.esp, s.regs.ebp, s.regs.esi, s.regs.edi]) ∧
    (s.cr0.pe = false → s.sp ≠ 0 → s.sp.toNat < 8 * s.osz.bytes → exec .pusha s = takeException (Exn.gp 0) s) ∧
    ((∀ i, i < 8 → s.itemOk s.osz i) →
      Gives .popa s
        ((((((((s.regsPopped (8 * s.osz.bytes)).write s.osz .edi (s.stackItem s.osz 0)).write s.osz .esi
          (s.stackItem s.osz 1)).write s.osz .ebp (s.stackItem s.osz 2)).write s.osz .ebx (s.stackItem s.osz 4)).write
          s.osz .edx (s.stackItem s.osz 5)).write s.osz .ecx (s.stackItem s.osz 6)).write s.osz .eax
          (s.stackItem s.osz 7)) (fun _ => s.eflags) s)) ∧
  ∀ (s s1 s2 : State) (v : Dword) (rm : RM) (sr : SReg), s.Inv →
    (sr ≠ .cs → readRm .b16 rm s = .ok v s1 → loadSeg sr (v.setWidth 16) s1 = .ok () s2 →
      ∃ t, exec (.movSregRm sr rm) s = .next t ∧ t.putBack s = s.setSeg sr (s2.seg sr) ∧ t.regs = s.regs ∧
        t.eflags = { s.eflags with rf := false } ∧ t.pfx = Prefixes.none ∧
        t.shadow = (if sr = .ss then .ss else .none) ∧ OnlyAccessed s t (v.setWidth 16)) ∧
    (∀ p ∈ [(Instr.popEs, SReg.es), (.popSs, .ss), (.popDs, .ds), (.popFs, .fs), (.popGs, .gs)],
      memRead .ss s.sp s.osz s = .ok v s1 →
      loadSeg p.2 (v.setWidth 16) { s1 with regs := s.regsPopped s.osz.bytes } = .ok () s2 →
      ∃ t, exec p.1 s = .next t ∧ t.putBack s = s.setSeg p.2 (s2.seg p.2) ∧ t.regs = s.regsPopped s.osz.bytes ∧
        t.eflags = { s.eflags with rf := false } ∧ t.pfx = Prefixes.none ∧
        t.shadow = (if p.2 = .ss then .ss else .none) ∧ OnlyAccessed s t (v.setWidth 16)) ∧
    (∀ (reg : Reg) (m : MemOp) (off : Dword) (sel : Word),
      ∀ p ∈ [(Instr.lds reg m, SReg.ds), (.les reg m, .es), (.lfs reg m, .fs), (.lgs reg m, .gs), (.lss reg m, .ss)],
        readFarPointer m s = .ok (off, sel) s1 → loadSeg p.2 sel s1 = .ok () s2 →
        ∃ t, exec p.1 s = .next t ∧ Ends s t (s.regs.write s.osz reg off) s.eflags (s.setSeg p.2 (s2.seg p.2)) ∧
          OnlyAccessed s t sel)

/-- PUSH of an operand, a register, an immediate, a segment register, and PUSHF: the stack pointer goes down by the
operand size and the value is stored there, ESP being pushed as it was before. A segment register pushed as 32 bits has
an undefined upper half. PUSHF pushes RF and VM as 0. In Real Mode that is for an item that does not wrap the segment at
FFFFH; with SP = 1 each of them shuts the processor down, with its bus cycle and nothing stored, whatever limit SS has
kept from Protected Mode (10_state.md R36, 60_exceptions.md R690; for memory alone in the address space). That the shut
down machine keeps EIP as the fetch left it, past the instruction, and that an interrupt inhibit ends there are the
model's choice and its inference (log 25). That a dword with SP = 2 or 3 is a stack fault in the same way is the model's
inference (log 35). Rests in part on text that the spec marks "[from general knowledge, not in source]". -/
def Obligations.PushOperand : Prop :=
  ∀ (s s1 s2 : State) (v : Dword), s.Inv →
    ((s.cr0.pe = false → (s.slot s.osz 0).toNat + s.osz.bytes ≤ 65536) →
      (∀ rm, readRm s.osz rm s = .ok v s1 → memWrite .ss (s.slot s.osz 0) s.osz v s1 = .ok () s2 →
        Pushes (.pushRm rm) s s1 s.osz v) ∧
      (∀ r, memWrite .ss (s.slot s.osz 0) s.osz (s.reg s.osz r) s = .ok () s2 →
        Pushes (.pushReg r) s s s.osz (s.reg s.osz r)) ∧
      (∀ imm, memWrite .ss (s.slot s.osz 0) s.osz (immValue s.osz imm) s = .ok () s2 →
        Pushes (.pushImm imm) s s s.osz (immValue s.osz imm)) ∧
      (∀ p ∈ [(Instr.pushEs, SReg.es), (.pushCs, .cs), (.pushSs, .ss), (.pushDs, .ds), (.pushFs, .fs), (.pushGs, .gs)],
        (s.osz = .b16 → memWrite .ss (s.slot .b16 0) .b16 ((s.seg p.2).selector.setWidth 32) s = .ok () s2 →
          Pushes p.1 s s .b16 ((s.seg p.2).selector.setWidth 32)) ∧
        (s.osz = .b32 → freeUpper (s.seg p.2).selector s = .ok v s1 →
          memWrite .ss (s.slot .b32 0) .b32 v s1 = .ok () s2 →
          v.setWidth 16 = (s.seg p.2).selector ∧ Pushes p.1 s s1 .b32 v)) ∧
      (s.v86 = false ∨ s.eflags.iopl = 3 → v = s.eflags.word &&& 0xFFFCFFFF →
        memWrite .ss (s.slot s.osz 0) s.osz v s = .ok () s2 → Pushes .pushf s s s.osz v)) ∧
    (s.cr0.pe = false → s.sp = 1 → s.AllMemory → ∀ (i : Instr) (r : Reg) (imm : Imm),
      (∃ rm, i = .pushRm rm ∧ readRm s.osz rm s = .ok v s1) ∨
        i ∈ [.pushReg r, .pushImm imm, .pushEs, .pushCs, .pushSs, .pushDs, .pushFs, .pushGs, .pushf] →
        ∃ t, exec i s = .next t ∧ t.runState = .shutdown ∧ t.bus = .shutdown :: s.bus ∧ t.regs = s.regs ∧
          t.eflags = s.eflags ∧ t.pfx = Prefixes.none ∧ t.shadow = .none ∧ NoStore s t ∧
          ({ t with runState := s.runState, bus := s.bus } : State).putBack s = s)

/-- POP to an operand or a register, and POPF: the item at the top is read and the stack pointer goes up by the operand
size; an operand whose address uses ESP is computed after that. POPF loads IF only with CPL ≤ IOPL and IOPL only at CPL
0, keeps VM, and with a 32-bit operand size clears RF. Rests in part on text that the spec marks "[from general
knowledge, not in source]". -/
def Obligations.PopOperand : Prop :=
  ∀ (s s1 s2 s3 : State) (v : Dword) (rm : RM) (l : Loc) (r : Reg), s.Inv →
    memRead .ss s.sp s.osz s = .ok v s1 →
    (resolve rm { s1 with regs := s.regsPopped s.osz.bytes } = .ok l s2 → writeLoc s.osz l v s2 = .ok () s3 →
      ∃ t, exec (.popRm rm) s = .next t ∧ Ends s t (l.regs (s.regsPopped s.osz.bytes) s.osz v) s.eflags s ∧
        l.Stored s s2 t s.osz v) ∧
    Gives (.popReg r) s ((s.regsPopped s.osz.bytes).write s.osz r v) (fun _ => s.eflags) s ∧
    (s.v86 = false ∨ s.eflags.iopl = 3 →
      ∃ t, exec .popf s = .next t ∧ t.regs = s.regsPopped s.osz.bytes ∧ t.putBack s = s ∧ t.pfx = Prefixes.none ∧
        t.shadow = .none ∧ NoStore s t ∧
        t.eflags = s.flagsFrom v (if s.osz = .b32 then false else s.eflags.rf))

/-- XCHG: the operand takes the register's value and the register the operand's. Rests in part on text that the spec
marks "[from general knowledge, not in source]". -/
def Obligations.Exchange : Prop :=
  ∀ (s s1 s2 s3 : State) (w : Width) (reg : Reg) (rm : RM) (l : Loc) (a : Dword), s.Inv →
    (resolve rm s = .ok l s1 → readLoc (s.wsz w) l s1 = .ok a s2 →
      writeLoc (s.wsz w) l (s.reg (s.wsz w) reg) s2 = .ok () s3 →
      ∃ t, exec (.xchgRmReg w reg rm) s = .next t ∧
        Ends s t ((l.regs s.regs (s.wsz w) (s.reg (s.wsz w) reg)).write (s.wsz w) reg a) s.eflags s ∧
        l.Stored s s2 t (s.wsz w) (s.reg (s.wsz w) reg)) ∧
    Gives (.xchgAccReg reg) s ((s.regs.write s.osz reg (s.reg s.osz .eax)).write s.osz .eax (s.reg s.osz reg))
      (fun _ => s.eflags) s

/-- IN and OUT where the I/O is permitted: IN gives AL, AX or EAX what the ports answer, a port whose answer the
environment has not given being free; OUT changes no register; both run the bus cycles of the operand (20_memory.md,
Table 5-8). An operand that runs past port FFFFH stops as the model's own fault (log 6), and one with a port where nothing
answers waits forever (20_memory.md, cycle handshake; log 4). Rests in part on text that the
spec marks "[from general knowledge, not in source]". -/
def Obligations.InputOutput : Prop :=
  ∀ (s s1 : State) (w : Width) (n : BitVec 8) (port : Word) (sz : Size), s.Inv → sz = s.wsz w →
    checkIo port sz s = .ok () s1 →
    (∀ i : Instr, (i = .inImm w n ∧ port = n.setWidth 16) ∨ (i = .inDx w ∧ port = s.regs.edx.setWidth 16) ∨
        (i = .outImm w n ∧ port = n.setWidth 16) ∨ (i = .outDx w ∧ port = s.regs.edx.setWidth 16) →
      port.toNat + sz.bytes ≤ 65536 → (∃ k, k < sz.bytes ∧ s.params.portAbsent (port.toNat + k) = true) →
      ∃ u, exec i s = .fault (.noReady u)) ∧
    (∀ i : Instr, (i = .inImm w n ∧ port = n.setWidth 16) ∨ (i = .inDx w ∧ port = s.regs.edx.setWidth 16) →
      (port.toNat + sz.bytes ≤ 65536 → (∀ k, k < sz.bytes → s.params.portAbsent (port.toNat + k) = false) →
        ∃ t v, exec i s = .next t ∧
          Ends s t (s.regs.write sz .eax v) s.eflags
            { s with bus := ((operandCycles (s.params.asserts16 .ioDataRead) sz.bytes port.toNat).map
                fun c => BusCycle.ioRead (port.toNat + c.1) c.2).reverse ++ s.bus } ∧ NoStore s t ∧
          ∀ k b, k < sz.bytes → portInput (port.toNat + k) s.ioInputs = some b → v.extractLsb' (8 * k) 8 = b) ∧
      (65536 < port.toNat + sz.bytes → ∃ u, exec i s = .fault (.ioPastTop u))) ∧
    (∀ i : Instr, (i = .outImm w n ∧ port = n.setWidth 16) ∨ (i = .outDx w ∧ port = s.regs.edx.setWidth 16) →
      (port.toNat + sz.bytes ≤ 65536 → (∀ k, k < sz.bytes → s.params.portAbsent (port.toNat + k) = false) →
        Gives i s s.regs (fun _ => s.eflags)
          { s with bus := ((operandCycles (s.params.asserts16 .ioDataWrite) sz.bytes port.toNat).map
              fun c => BusCycle.ioWrite (port.toNat + c.1)
                (((leBytes sz.bytes (s.reg sz .eax)).drop c.1).take c.2)).reverse ++ s.bus }) ∧
      (65536 < port.toNat + sz.bytes → ∃ u, exec i s = .fault (.ioPastTop u)))

/-- When I/O is permitted (20_memory.md, I/O permission): always in Real Mode; in Protected Mode with CPL ≤ IOPL; else,
and always in Virtual 8086 Mode, as the bits of the I/O permission map of a 386 TSS say, which must lie inside its limit
(with paging off); bits beyond port 65535 deny. What is not permitted raises #GP(0), and IN, OUT, INS and OUTS then take
it with nothing else done. A TSS too short for the map's base permits nothing, and neither does a TR that is not loaded
(DEDUCED, log 6). Rests in part on text
that the spec marks "[from general knowledge, not in source]". -/
def Obligations.IoPermission : Prop :=
  (∀ (s : State) (port : Word) (sz : Size) (map : Nat), s.Plain →
    map = leNat ([0, 1].map fun k => s.readByte (s.tr.base + 0x66 + k)) →
    (s.cr0.pe = false ∨ (s.eflags.vm = false ∧ s.currentCpl ≤ s.eflags.iopl) → checkIo port sz s = .ok () s) ∧
    (s.cr0.pe = true → (s.eflags.vm = true ∨ s.eflags.iopl < s.currentCpl) →
      (s.tr.valid = false ∨ s.tr.type.getLsbD 3 = false ∨ s.tr.limit.toNat < 0x67 →
        checkIo port sz s = .error (.exn (Exn.gp 0) .nothing) s) ∧
      (s.tr.valid = true → s.tr.type.getLsbD 3 = true → 0x67 ≤ s.tr.limit.toNat →
        (map + port.toNat / 8 + 1 ≤ s.tr.limit.toNat → port.toNat + sz.bytes ≤ 65536 →
          (∀ k, k < sz.bytes →
            (s.readByte (s.tr.base + BitVec.ofNat 32 (map + port.toNat / 8 + (port.toNat % 8 + k) / 8))).getLsbD
              ((port.toNat % 8 + k) % 8) = false) →
          ∃ t, checkIo port sz s = .ok () t ∧ t = { s with pendingDb := t.pendingDb, draws := t.draws }) ∧
        (s.tr.limit.toNat < map + port.toNat / 8 + 1 ∨ 65536 < port.toNat + sz.bytes ∨
          (∃ k, k < sz.bytes ∧
            (s.readByte (s.tr.base + BitVec.ofNat 32 (map + port.toNat / 8 + (port.toNat % 8 + k) / 8))).getLsbD
              ((port.toNat % 8 + k) % 8) = true) →
          ∃ t, checkIo port sz s = .error (.exn (Exn.gp 0) .nothing) t ∧
            t = { s with pendingDb := t.pendingDb, draws := t.draws })))) ∧
  (∀ (s s1 : State) (w : Width) (n : BitVec 8) (i : Instr) (port : Word) (e : Exn),
    (i, port) ∈ [(Instr.inImm w n, n.setWidth 16), (.outImm w n, n.setWidth 16), (.inDx w, s.regs.edx.setWidth 16),
      (.outDx w, s.regs.edx.setWidth 16), (.ins w, s.regs.edx.setWidth 16), (.outs w, s.regs.edx.setWidth 16)] →
    checkIo port (s.wsz w) s = .error (.exn e .nothing) s1 →
    exec i s = takeException e { s with draws := s1.draws, bus := s1.bus, deviceBus := s1.deviceBus })

/-! Flag control (40_data_transfer.md). -/

/-- CLC, STC, CMC, CLD, STD, SAHF, LAHF, CLTS: the one flag changes; SAHF loads SF, ZF, AF, PF, CF from AH and LAHF
stores them there, with bit 1 set and bits 3 and 5 clear; CLTS, at CPL 0, clears CR0.TS. CLI and STI where CPL ≤ IOPL:
STI inhibits INTR for one more instruction. Elsewhere, in Protected and Virtual 8086 Mode, they take #GP(0).
Rests in part on text that the spec marks "[from general knowledge, not in source]". -/
def Obligations.FlagInstructions : Prop :=
  (∀ s : State, s.Inv →
    Gives .clc s s.regs (fun _ => { s.eflags with cf := false }) s ∧
    Gives .stc s s.regs (fun _ => { s.eflags with cf := true }) s ∧
    Gives .cmc s s.regs (fun _ => { s.eflags with cf := !s.eflags.cf }) s ∧
    Gives .cld s s.regs (fun _ => { s.eflags with df := false }) s ∧
    Gives .std s s.regs (fun _ => { s.eflags with df := true }) s ∧
    Gives .sahf s s.regs (fun _ => { s.eflags with
      sf := s.regs.eax.getLsbD 15, zf := s.regs.eax.getLsbD 14, af := s.regs.eax.getLsbD 12, pf := s.regs.eax.getLsbD 10,
      cf := s.regs.eax.getLsbD 8 }) s ∧
    Gives .lahf s
      { s.regs with eax := s.regs.eax.extractLsb' 16 16 ++ (BitVec.ofBool s.eflags.sf ++ BitVec.ofBool s.eflags.zf ++ 0#1 ++
          BitVec.ofBool s.eflags.af ++ 0#1 ++ BitVec.ofBool s.eflags.pf ++ 1#1 ++ BitVec.ofBool s.eflags.cf : Byte) ++
          s.regs.eax.extractLsb' 0 8 } (fun _ => s.eflags) s ∧
    (s.currentCpl = 0 → Gives .clts s s.regs (fun _ => s.eflags) { s with cr0 := { s.cr0 with ts := false } })) ∧
  (∀ s : State, s.Inv →
    (s.cr0.pe = false ∨ s.currentCpl ≤ s.eflags.iopl →
      Gives .cli s s.regs (fun _ => { s.eflags with ifl := false }) s ∧
      ∃ t, exec .sti s = .next t ∧ t.regs = s.regs ∧ t.eflags = { s.eflags with ifl := true, rf := false } ∧
        t.putBack s = s ∧ t.pfx = Prefixes.none ∧ t.shadow = .sti ∧ NoStore s t) ∧
    (s.cr0.pe = true → s.eflags.iopl < s.currentCpl →
      exec .cli s = takeException (Exn.gp 0) s ∧ exec .sti s = takeException (Exn.gp 0) s))



/-! Arithmetic (41_arithmetic.md). -/

/-- The results and the flags of addition and subtraction at a size of n bits, from the unsigned and signed values: the
result modulo 2^n; CF the carry or borrow out of bit n-1, AF out of bit 3, OF that the signed result does not fit, ZF
that the result is 0, SF its top bit, PF that its low byte has an even number of ones; no other flag changes. Rests in
part on text that the spec marks "[from general knowledge, not in source]". -/
def Obligations.ArithmeticFlags : Prop :=
  ∀ (f : Eflags) (sz : Size) (a b : Dword) (c : Bool), a.toNat < 2 ^ sz.bits → b.toNat < 2 ^ sz.bits →
    (addResult sz a b c).toNat = (a.toNat + b.toNat + c.toNat) % 2 ^ sz.bits ∧
    f.afterAdd sz a b c =
      { f with
        cf := decide (2 ^ sz.bits ≤ a.toNat + b.toNat + c.toNat)
        pf := ((List.range 8).countP fun k => (addResult sz a b c).getLsbD k) % 2 == 0
        af := decide (16 ≤ a.toNat % 16 + b.toNat % 16 + c.toNat)
        zf := addResult sz a b c == 0
        sf := (addResult sz a b c).getLsbD (sz.bits - 1)
        ofl := decide (signedVal sz a + signedVal sz b + c.toNat < -(2 ^ (sz.bits - 1)) ∨
          2 ^ (sz.bits - 1) ≤ signedVal sz a + signedVal sz b + c.toNat) } ∧
    ((subResult sz a b c).toNat : Int) = ((a.toNat : Int) - b.toNat - c.toNat) % 2 ^ sz.bits ∧
    f.afterSub sz a b c =
      { f with
        cf := decide (a.toNat < b.toNat + c.toNat)
        pf := ((List.range 8).countP fun k => (subResult sz a b c).getLsbD k) % 2 == 0
        af := decide (a.toNat % 16 < b.toNat % 16 + c.toNat)
        zf := subResult sz a b c == 0
        sf := (subResult sz a b c).getLsbD (sz.bits - 1)
        ofl := decide (signedVal sz a - signedVal sz b - c.toNat < -(2 ^ (sz.bits - 1)) ∨
          2 ^ (sz.bits - 1) ≤ signedVal sz a - signedVal sz b - c.toNat) } ∧
    f.withSZP sz a =
      { f with
        pf := ((List.range 8).countP fun k => a.getLsbD k) % 2 == 0
        zf := a == 0
        sf := a.getLsbD (sz.bits - 1) }

/-- ADD, ADC, SUB, SBB in all their forms: the destination, a register or memory, takes the result and the six
arithmetic flags follow it (Obligations.ArithmeticFlags); ADC and SBB take CF in. Rests in part on text that the spec
marks "[from general knowledge, not in source]". -/
def Obligations.ArithmeticToDestination : Prop :=
  ∀ (s s1 s2 s3 : State) (d : Dir) (w : Width) (reg : Reg) (rm : RM) (imm : Imm) (l : Loc) (a : Dword) (sz : Size), s.Inv →
    sz = s.wsz w →
    ∀ p ∈ ([(Instr.addRegRm, Instr.addRmImm, Instr.addAccImm, fun x y => addResult sz x y false,
          fun x y => s.eflags.afterAdd sz x y false),
        (.adcRegRm, .adcRmImm, .adcAccImm, fun x y => addResult sz x y s.eflags.cf,
          fun x y => s.eflags.afterAdd sz x y s.eflags.cf),
        (.subRegRm, .subRmImm, .subAccImm, fun x y => subResult sz x y false,
          fun x y => s.eflags.afterSub sz x y false),
        (.sbbRegRm, .sbbRmImm, .sbbAccImm, fun x y => subResult sz x y s.eflags.cf,
          fun x y => s.eflags.afterSub sz x y s.eflags.cf)] :
        List ((Dir → Width → Reg → RM → Instr) × (Width → RM → Imm → Instr) × (Width → Imm → Instr) ×
          (Dword → Dword → Dword) × (Dword → Dword → Eflags))),
      (resolve rm s = .ok l s1 → readLoc sz l s1 = .ok a s2 →
        (d = .toRm → writeLoc sz l (p.2.2.2.1 a (s.reg sz reg)) s2 = .ok () s3 →
          Puts (p.1 d w reg rm) s s2 l sz (p.2.2.2.1 a (s.reg sz reg)) fun _ => p.2.2.2.2 a (s.reg sz reg)) ∧
        (d = .toReg →
          Gives (p.1 d w reg rm) s (s.regs.write sz reg (p.2.2.2.1 (s.reg sz reg) a))
            (fun _ => p.2.2.2.2 (s.reg sz reg) a) s) ∧
        (writeLoc sz l (p.2.2.2.1 a (immValue sz imm)) s2 = .ok () s3 →
          Puts (p.2.1 w rm imm) s s2 l sz (p.2.2.2.1 a (immValue sz imm)) fun _ => p.2.2.2.2 a (immValue sz imm))) ∧
      Gives (p.2.2.1 w imm) s (s.regs.write sz .eax (p.2.2.2.1 (s.reg sz .eax) (immValue sz imm)))
        (fun _ => p.2.2.2.2 (s.reg sz .eax) (immValue sz imm)) s

/-- CMP in all its forms sets the flags of the subtraction and changes nothing else. INC and DEC add and subtract 1 and
leave CF; NEG subtracts from 0. Rests in part on text that the spec marks "[from general knowledge, not in source]". -/
def Obligations.CompareIncrementNegate : Prop :=
  (∀ (s s1 : State) (d : Dir) (w : Width) (reg : Reg) (rm : RM) (imm : Imm) (a : Dword) (sz : Size), s.Inv → sz = s.wsz w →
    (readRm sz rm s = .ok a s1 →
      (d = .toRm → Gives (.cmpRegRm d w reg rm) s s.regs (fun _ => s.eflags.afterSub sz a (s.reg sz reg) false) s) ∧
      (d = .toReg → Gives (.cmpRegRm d w reg rm) s s.regs (fun _ => s.eflags.afterSub sz (s.reg sz reg) a false) s) ∧
      Gives (.cmpRmImm w rm imm) s s.regs (fun _ => s.eflags.afterSub sz a (immValue sz imm) false) s) ∧
    Gives (.cmpAccImm w imm) s s.regs (fun _ => s.eflags.afterSub sz (s.reg sz .eax) (immValue sz imm) false) s) ∧
  (∀ (s s1 s2 s3 : State) (w : Width) (reg : Reg) (rm : RM) (l : Loc) (a : Dword), s.Inv →
    (∀ sz, sz = s.wsz w → resolve rm s = .ok l s1 → readLoc sz l s1 = .ok a s2 →
      (writeLoc sz l (addResult sz a 1 false) s2 = .ok () s3 →
        Puts (.incRm w rm) s s2 l sz (addResult sz a 1 false)
          fun _ => { s.eflags.afterAdd sz a 1 false with cf := s.eflags.cf }) ∧
      (writeLoc sz l (subResult sz a 1 false) s2 = .ok () s3 →
        Puts (.decRm w rm) s s2 l sz (subResult sz a 1 false)
          fun _ => { s.eflags.afterSub sz a 1 false with cf := s.eflags.cf }) ∧
      (writeLoc sz l (subResult sz 0 a false) s2 = .ok () s3 →
        Puts (.neg w rm) s s2 l sz (subResult sz 0 a false) fun _ => s.eflags.afterSub sz 0 a false)) ∧
    (∀ sz, sz = s.osz →
      Gives (.incReg reg) s (s.regs.write sz reg (addResult sz (s.reg sz reg) 1 false))
        (fun _ => { s.eflags.afterAdd sz (s.reg sz reg) 1 false with cf := s.eflags.cf }) s ∧
      Gives (.decReg reg) s (s.regs.write sz reg (subResult sz (s.reg sz reg) 1 false))
        (fun _ => { s.eflags.afterSub sz (s.reg sz reg) 1 false with cf := s.eflags.cf }) s))


/-- AAA, AAS, DAA and DAS from AL, AH, AF and CF. The flags the spec calls undefined (OF; for AAA and AAS also SF, ZF,
PF) are whatever the instruction leaves. Rests in part on text that the spec marks "[from general knowledge, not in
source]". -/
def Obligations.DecimalAdjust : Prop :=
  ∀ (s : State) (al ah : Byte) (low high : Bool), s.Inv →
    al = s.regs.eax.extractLsb' 0 8 → ah = s.regs.eax.extractLsb' 8 8 →
    low = decide (9 < al.toNat % 16 ∨ s.eflags.af = true) → high = decide (0x99 < al.toNat ∨ s.eflags.cf = true) →
    Gives .aaa s (s.regs.write .b16 .eax (if low then ((ah + 1) ++ ((al + 6) &&& 0xF)).setWidth 32
        else (ah ++ (al &&& 0xF)).setWidth 32))
      (fun u => { s.eflags.arithmeticOf u with af := low, cf := low }) s ∧
    Gives .aas s (s.regs.write .b16 .eax (if low then ((ah - 1) ++ ((al - 6) &&& 0xF)).setWidth 32
        else (ah ++ (al &&& 0xF)).setWidth 32))
      (fun u => { s.eflags.arithmeticOf u with af := low, cf := low }) s ∧
    Gives .daa s
      (s.regs.write .b8 .eax ((al + (if low then 6 else 0) + (if high then 0x60 else 0)).setWidth 32))
      (fun u => { s.eflags.withSZP .b8 ((al + (if low then 6 else 0) + (if high then 0x60 else 0)).setWidth 32) with
        af := low, cf := high, ofl := u.ofl }) s ∧
    Gives .das s
      (s.regs.write .b8 .eax ((al - (if low then 6 else 0) - (if high then 0x60 else 0)).setWidth 32))
      (fun u => { s.eflags.withSZP .b8 ((al - (if low then 6 else 0) - (if high then 0x60 else 0)).setWidth 32) with
        af := low, cf := high || (low && (s.eflags.cf || decide (al.toNat < 6))), ofl := u.ofl }) s

/-- MUL and IMUL: the whole product in AX, DX:AX or EDX:EAX, or its low half in a register; CF and OF say that the upper
half is significant; SF, ZF, AF and PF are undefined. Rests in part on text that the spec marks "[from general
knowledge, not in source]". -/
def Obligations.Multiply : Prop :=
  ∀ (s s1 : State) (w : Width) (reg : Reg) (rm : RM) (imm : Imm) (m : Dword), s.Inv →
    (∀ (sz : Size) (i : Instr) (p : Int) (wide : Bool), sz = s.wsz w → readRm sz rm s = .ok m s1 →
      (i = .mul w rm ∧ p = ((s.reg sz .eax).toNat : Int) * m.toNat ∧ wide = decide (2 ^ sz.bits ≤ p)) ∨
      (i = .imulAcc w rm ∧ p = signedVal sz (s.reg sz .eax) * signedVal sz m ∧
        wide = decide (p < -(2 ^ (sz.bits - 1)) ∨ 2 ^ (sz.bits - 1) ≤ p)) →
      Gives i s (if sz = .b8 then s.regs.write .b16 .eax (BitVec.ofInt 32 p)
          else (s.regs.write sz .eax (BitVec.ofInt 32 p)).write sz .edx (BitVec.ofInt 32 (p / 2 ^ sz.bits)))
        (fun u => { s.eflags.arithmeticOf u with cf := wide, ofl := wide }) s) ∧
    (∀ (sz : Size) (i : Instr) (p : Int), sz = s.osz → readRm sz rm s = .ok m s1 →
      (i = .imulReg reg rm ∧ p = signedVal sz (s.reg sz reg) * signedVal sz m) ∨
      (i = .imulImm reg rm imm ∧ p = signedVal sz m * signedVal sz (immValue sz imm)) →
      Gives i s (s.regs.write sz reg (BitVec.ofInt 32 p))
        (fun u => { s.eflags.arithmeticOf u with
          cf := decide (p < -(2 ^ (sz.bits - 1)) ∨ 2 ^ (sz.bits - 1) ≤ p)
          ofl := decide (p < -(2 ^ (sz.bits - 1)) ∨ 2 ^ (sz.bits - 1) ≤ p) }) s)

/-- DIV and IDIV of AX, DX:AX or EDX:EAX: the quotient, truncated toward zero, and the remainder; the six flags are
undefined; a divisor of 0 or a quotient that does not fit raises exception 0. That a signed quotient of -2^(n-1) fits is
the model's choice between two places of the spec (log 46). Rests in part on text that the spec marks "[from general
knowledge, not in source]". -/
def Obligations.Divide : Prop :=
  ∀ (s s1 : State) (w : Width) (rm : RM) (d : Dword) (sz : Size) (i : Instr) (n v q r : Int), s.Inv → sz = s.wsz w →
    readRm sz rm s = .ok d s1 →
    n = (if sz = .b8 then ((s.reg .b16 .eax).toNat : Int)
      else (s.reg sz .edx).toNat * 2 ^ sz.bits + (s.reg sz .eax).toNat) →
    ((i = .div w rm ∧ v = d.toNat ∧ q = n / v ∧ r = n % v) →
      (v ≠ 0 ∧ q < 2 ^ sz.bits →
        Gives i s (if sz = .b8 then s.regs.write .b16 .eax (BitVec.ofInt 32 (r * 256 + q))
            else (s.regs.write sz .eax (BitVec.ofInt 32 q)).write sz .edx (BitVec.ofInt 32 r))
          (fun u => s.eflags.arithmeticOf u) s) ∧
      (v = 0 ∨ 2 ^ sz.bits ≤ q → exec i s = takeException Exn.de { s with draws := s1.draws, deviceBus := s1.deviceBus })) ∧
    ((i = .idiv w rm ∧ v = signedVal sz d ∧
        q = (if n < 2 ^ (2 * sz.bits - 1) then n else n - 2 ^ (2 * sz.bits)).tdiv v ∧
        r = (if n < 2 ^ (2 * sz.bits - 1) then n else n - 2 ^ (2 * sz.bits)).tmod v) →
      (v ≠ 0 ∧ -(2 ^ (sz.bits - 1)) ≤ q ∧ q < 2 ^ (sz.bits - 1) →
        Gives i s (if sz = .b8 then s.regs.write .b16 .eax ((BitVec.ofInt 8 r ++ BitVec.ofInt 8 q).setWidth 32)
            else (s.regs.write sz .eax (BitVec.ofInt 32 q)).write sz .edx (BitVec.ofInt 32 r))
          (fun u => s.eflags.arithmeticOf u) s) ∧
      (v = 0 ∨ q < -(2 ^ (sz.bits - 1)) ∨ 2 ^ (sz.bits - 1) ≤ q →
        exec i s = takeException Exn.de { s with draws := s1.draws, deviceBus := s1.deviceBus }))

/-- CBW, CWDE, CWD, CDQ extend the sign; AAD and AAM convert AX with the second byte of their encoding as the base, and
a base of 0 makes AAM raise exception 0 (bases other than 10: log 18). Rests in part on text that the spec marks "[from
general knowledge, not in source]". -/
def Obligations.Convert : Prop :=
  ∀ (s : State) (b : BitVec 8) (al ah : Byte), s.Inv →
    al = s.regs.eax.extractLsb' 0 8 → ah = s.regs.eax.extractLsb' 8 8 →
    (s.osz = .b16 → Gives .cbw s (s.regs.write .b16 .eax (al.signExtend 32)) (fun _ => s.eflags) s ∧
      Gives .cwd s (s.regs.write .b16 .edx (if s.regs.eax.getLsbD 15 then 0xFFFF else 0)) (fun _ => s.eflags) s) ∧
    (s.osz = .b32 → Gives .cbw s { s.regs with eax := (s.regs.eax.extractLsb' 0 16).signExtend 32 } (fun _ => s.eflags) s ∧
      Gives .cwd s { s.regs with edx := if s.regs.eax.getLsbD 31 then 0xFFFFFFFF else 0 } (fun _ => s.eflags) s) ∧
    Gives (.aad b) s (s.regs.write .b16 .eax ((ah * b + al).setWidth 32))
      (fun u => (s.eflags.arithmeticOf u).withSZP .b8 ((ah * b + al).setWidth 32)) s ∧
    (b ≠ 0 → Gives (.aam b) s (s.regs.write .b16 .eax (((al / b) ++ (al % b)).setWidth 32))
      (fun u => (s.eflags.arithmeticOf u).withSZP .b8 ((al % b).setWidth 32)) s) ∧
    (b = 0 → exec (.aam b) s = takeException Exn.de s)

/-! Logic, shifts and rotates (42_logic.md). -/

/-- AND, OR, XOR in all their forms, TEST and NOT: the bitwise result; CF and OF are 0, SF, ZF, PF follow the result, AF
is undefined. TEST writes nothing back, NOT changes no flag. Rests in part on text that the spec marks "[from general
knowledge, not in source]". -/
def Obligations.BooleanOperations : Prop :=
  ∀ (s s1 s2 s3 : State) (d : Dir) (w : Width) (reg : Reg) (rm : RM) (imm : Imm) (b8 : BitVec 8) (l : Loc) (a : Dword)
    (sz : Size) (fl : Dword → Eflags → Eflags), s.Inv →
    (fl = fun r u => { s.eflags.withSZP sz r with cf := false, ofl := false, af := u.af }) →
    (sz = s.wsz w → ∀ p ∈ ([(Instr.andRegRm, Instr.andRmImm, Instr.andAccImm, fun x y => x &&& y),
        (.orRegRm, .orRmImm, .orAccImm, fun x y => x ||| y), (.xorRegRm, .xorRmImm, .xorAccImm, fun x y => x ^^^ y)] :
        List ((Dir → Width → Reg → RM → Instr) × (Width → RM → Imm → Instr) × (Width → Imm → Instr) ×
          (Dword → Dword → Dword))),
      (resolve rm s = .ok l s1 → readLoc sz l s1 = .ok a s2 →
        (d = .toRm → writeLoc sz l (p.2.2.2 a (s.reg sz reg)) s2 = .ok () s3 →
          Puts (p.1 d w reg rm) s s2 l sz (p.2.2.2 a (s.reg sz reg)) (fl (p.2.2.2 a (s.reg sz reg)))) ∧
        (d = .toReg → Gives (p.1 d w reg rm) s (s.regs.write sz reg (p.2.2.2 (s.reg sz reg) a))
            (fl (p.2.2.2 (s.reg sz reg) a)) s) ∧
        (writeLoc sz l (p.2.2.2 a (immValue sz imm)) s2 = .ok () s3 →
          Puts (p.2.1 w rm imm) s s2 l sz (p.2.2.2 a (immValue sz imm)) (fl (p.2.2.2 a (immValue sz imm))))) ∧
      Gives (p.2.2.1 w imm) s (s.regs.write sz .eax (p.2.2.2 (s.reg sz .eax) (immValue sz imm)))
        (fl (p.2.2.2 (s.reg sz .eax) (immValue sz imm))) s) ∧
    (sz = s.osz → resolve rm s = .ok l s1 → readLoc sz l s1 = .ok a s2 →
      ∀ p ∈ ([(Instr.andRmImm8, fun x y => x &&& y), (.orRmImm8, fun x y => x ||| y), (.xorRmImm8, fun x y => x ^^^ y)] :
        List ((RM → BitVec 8 → Instr) × (Dword → Dword → Dword))),
      writeLoc sz l (p.2 a (trunc sz (b8.signExtend 32))) s2 = .ok () s3 →
      Puts (p.1 rm b8) s s2 l sz (p.2 a (trunc sz (b8.signExtend 32))) (fl (p.2 a (trunc sz (b8.signExtend 32))))) ∧
    (sz = s.wsz w → Gives (.testAccImm w imm) s s.regs (fl (s.reg sz .eax &&& immValue sz imm)) s) ∧
    (sz = s.wsz w → readRm sz rm s = .ok a s1 →
      Gives (.testRmReg w reg rm) s s.regs (fl (a &&& s.reg sz reg)) s ∧
      Gives (.testRmImm w rm imm) s s.regs (fl (a &&& immValue sz imm)) s) ∧
    (sz = s.wsz w → resolve rm s = .ok l s1 → readLoc sz l s1 = .ok a s2 →
      writeLoc sz l (trunc sz (~~~a)) s2 = .ok () s3 →
      Puts (.notRm w rm) s s2 l sz (trunc sz (~~~a)) fun _ => s.eflags)

/-- The results and flags of the shifts and rotates at a size of n bits by a count of 1 to 31, bit by bit. The rotates
turn the n bits, or with RCL and RCR the n + 1 bits with CF on top; the shifts fill with zeros, or SAR with the sign. CF
is the last bit moved out, undefined for SHL and SHR where the count is above n; OF is defined for a count of 1 only; AF
is undefined after a shift; the rotates leave SF, ZF, AF, PF. `u` holds the undefined flags. Rests in part on text that
the spec marks "[from general knowledge, not in source]". -/
def Obligations.ShiftResults : Prop :=
  ∀ (sz : Size) (c n : Nat) (v u : Dword) (f : Eflags) (x : Nat → Bool), n = sz.bits → 1 ≤ c → c ≤ 31 → v.toNat < 2 ^ n →
    (x = fun j => if j = n then f.cf else v.getLsbD j) →
    (∀ p ∈ [shiftRol sz c v f u, shiftRor sz c v f u, shiftRcl sz c v f u, shiftRcr sz c v f u],
      p.1.toNat < 2 ^ n ∧ p.2 = { f with cf := p.2.cf, ofl := p.2.ofl }) ∧
    (∀ p ∈ [shiftShl sz c v f u, shiftShr sz c v f u, shiftSar sz c v f u],
      p.1.toNat < 2 ^ n ∧ p.2 = { f.withSZP sz p.1 with cf := p.2.cf, af := p.2.af, ofl := p.2.ofl }) ∧
    (∀ p, p = shiftRol sz c v f u →
      (∀ j, j < n → p.1.getLsbD ((j + c) % n) = v.getLsbD j) ∧ p.2.cf = p.1.getLsbD 0 ∧
      (c = 1 → p.2.ofl = (p.1.getLsbD (n - 1) ^^ p.2.cf))) ∧
    (∀ p, p = shiftRor sz c v f u →
      (∀ j, j < n → p.1.getLsbD j = v.getLsbD ((j + c) % n)) ∧ p.2.cf = p.1.getLsbD (n - 1) ∧
      (c = 1 → p.2.ofl = (p.1.getLsbD (n - 1) ^^ p.1.getLsbD (n - 2)))) ∧
    (∀ p, p = shiftRcl sz c v f u →
      (∀ j, j ≤ n → (if (j + c) % (n + 1) = n then p.2.cf else p.1.getLsbD ((j + c) % (n + 1))) = x j) ∧
      (c = 1 → p.2.ofl = (p.1.getLsbD (n - 1) ^^ p.2.cf))) ∧
    (∀ p, p = shiftRcr sz c v f u →
      (∀ j, j ≤ n → (if j = n then p.2.cf else p.1.getLsbD j) = x ((j + c) % (n + 1))) ∧
      (c = 1 → p.2.ofl = (v.getLsbD (n - 1) ^^ f.cf))) ∧
    (∀ p, p = shiftShl sz c v f u →
      (∀ j, j < n → p.1.getLsbD j = (decide (c ≤ j) && v.getLsbD (j - c))) ∧ (c ≤ n → p.2.cf = v.getLsbD (n - c)) ∧
      (c = 1 → p.2.ofl = (p.1.getLsbD (n - 1) ^^ p.2.cf))) ∧
    (∀ p, p = shiftShr sz c v f u →
      (∀ j, j < n → p.1.getLsbD j = v.getLsbD (j + c)) ∧ (c ≤ n → p.2.cf = v.getLsbD (c - 1)) ∧
      (c = 1 → p.2.ofl = v.getLsbD (n - 1))) ∧
    (∀ p, p = shiftSar sz c v f u →
      (∀ j, j < n → p.1.getLsbD j = v.getLsbD (min (j + c) (n - 1))) ∧ p.2.cf = v.getLsbD (min (c - 1) (n - 1)) ∧
      (c = 1 → p.2.ofl = false))

/-- ROL, ROR, RCL, RCR, SHL, SHR, SAR by 1, by CL and by an immediate: the count is taken modulo 32; the operand takes
the result and the flags follow (Obligations.ShiftResults); a count of 0 changes nothing: that it also writes nothing
back, so that the operand need not be writable, is the model's choice (log 37). Rests in part on text that the spec
marks "[from general knowledge, not in source]". -/
def Obligations.ShiftAndRotate : Prop :=
  ∀ (s s1 s2 s3 s4 : State) (w : Width) (rm : RM) (imm : BitVec 8) (l : Loc) (v u : Dword) (sz : Size), s.Inv →
    sz = s.wsz w → resolve rm s = .ok l s1 → readLoc sz l s1 = .ok v s2 → freeDword s2 = .ok u s3 →
    ∀ p ∈ ([(shiftRol, Instr.rolBy1, Instr.rolByCl, Instr.rolByImm), (shiftRor, .rorBy1, .rorByCl, .rorByImm),
        (shiftRcl, .rclBy1, .rclByCl, .rclByImm), (shiftRcr, .rcrBy1, .rcrByCl, .rcrByImm),
        (shiftShl, .shlBy1, .shlByCl, .shlByImm), (shiftShr, .shrBy1, .shrByCl, .shrByImm),
        (shiftSar, .sarBy1, .sarByCl, .sarByImm)] :
        List (ShiftOp × (Width → RM → Instr) × (Width → RM → Instr) × (Width → RM → BitVec 8 → Instr))),
      ∀ (i : Instr) (c : Nat), (i, c) ∈ [(p.2.1 w rm, 1), (p.2.2.1 w rm, s.regs.ecx.toNat % 32),
          (p.2.2.2 w rm imm, imm.toNat % 32)] →
        (c = 0 → Gives i s s.regs (fun _ => s.eflags) s) ∧
        (c ≠ 0 → writeLoc sz l (p.1 sz c v s.eflags u).1 s3 = .ok () s4 →
          Puts i s s3 l sz (p.1 sz c v s.eflags u).1 fun _ => (p.1 sz c v s.eflags u).2)

/-- SHLD and SHRD by an immediate or CL, modulo 32: the operand is shifted, the bits that come in are the register's; CF
is the last bit moved out, OF for a count of 1 says that the sign changed, AF is undefined. A count above the operand
size leaves the operand and the flags undefined: then some value is written. That a count of 0 writes nothing back, so
that the operand need not be writable, is the model's choice (log 37). Rests in part on text that the spec marks
"[from general knowledge, not in source]". -/
def Obligations.DoubleShift : Prop :=
  ∀ (s s1 s2 s3 s4 : State) (rm : RM) (reg : Reg) (imm : BitVec 8) (l : Loc) (v u r : Dword) (sz : Size) (n c : Nat)
    (left : Bool), s.Inv → sz = s.osz → n = sz.bits → resolve rm s = .ok l s1 → readLoc sz l s1 = .ok v s2 →
    ∀ i : Instr, (i, c, left) ∈ [(Instr.shldImm reg rm imm, imm.toNat % 32, true),
        (.shldCl reg rm, s.regs.ecx.toNat % 32, true), (.shrdImm reg rm imm, imm.toNat % 32, false),
        (.shrdCl reg rm, s.regs.ecx.toNat % 32, false)] →
      (c = 0 → Gives i s s.regs (fun _ => s.eflags) s) ∧
      (1 ≤ c → c ≤ n → freeDword s2 = .ok u s3 → r.toNat < 2 ^ n →
        (∀ j, j < n → r.getLsbD j =
          (if left then (if c ≤ j then v.getLsbD (j - c) else (s.reg sz reg).getLsbD (n - c + j))
            else (if j + c < n then v.getLsbD (j + c) else (s.reg sz reg).getLsbD (j + c - n)))) →
        writeLoc sz l r s3 = .ok () s4 →
        Puts i s s3 l sz r fun g => { s.eflags.withSZP sz r with
          cf := v.getLsbD (if left then n - c else c - 1)
          af := g.af
          ofl := if c = 1 then v.getLsbD (n - 1) ^^ r.getLsbD (n - 1) else g.ofl }) ∧
      (n < c → freeAt sz s2 = .ok r s3 → writeLoc sz l r s3 = .ok () s4 →
        Puts i s s3 l sz r fun g => s.eflags.arithmeticOf g)

/-! String instructions (43_string.md). -/

/-- MOVS, CMPS, SCAS, LODS, STOS and XLAT, one element: the source is at SI or ESI in DS or the segment an override
names, the destination at DI or EDI in ES; the pointers move by the element size, up or down by DF, at the address size.
CMPS and SCAS set the flags of the subtraction. Rests in part on text that the spec marks "[from general knowledge, not
in source]". -/
def Obligations.StringElements : Prop :=
  ∀ (s s1 s2 : State) (w : Width) (sz : Size) (sr : SReg) (src dst step a b : Dword), s.Inv →
    sz = s.wsz w → sr = s.pfx.seg.getD .ds → src = s.reg s.asz .esi → dst = s.reg s.asz .edi →
    step = (if s.eflags.df then -(BitVec.ofNat 32 sz.bytes) else BitVec.ofNat 32 sz.bytes) →
    (memRead sr src sz s = .ok a s1 → memWrite .es dst sz a s1 = .ok () s2 →
      ∃ t, exec (.movs w) s = .next t ∧
        Ends s t ((s.regs.write s.asz .esi (src + step)).write s.asz .edi (dst + step)) s.eflags s ∧
        StoresAt s s1 t .es dst (leBytes sz.bytes a)) ∧
    (memRead sr src sz s = .ok a s1 → memRead .es dst sz s1 = .ok b s2 →
      Gives (.cmps w) s ((s.regs.write s.asz .esi (src + step)).write s.asz .edi (dst + step))
        (fun _ => s.eflags.afterSub sz a b false) s) ∧
    (memRead .es dst sz s = .ok b s1 →
      Gives (.scas w) s (s.regs.write s.asz .edi (dst + step))
        (fun _ => s.eflags.afterSub sz (s.reg sz .eax) b false) s) ∧
    (memRead sr src sz s = .ok a s1 →
      Gives (.lods w) s ((s.regs.write sz .eax a).write s.asz .esi (src + step)) (fun _ => s.eflags) s) ∧
    (memWrite .es dst sz (s.reg sz .eax) s = .ok () s1 →
      ∃ t, exec (.stos w) s = .next t ∧ Ends s t (s.regs.write s.asz .edi (dst + step)) s.eflags s ∧
        StoresAt s s t .es dst (leBytes sz.bytes (s.reg sz .eax))) ∧
    (memRead sr (trunc s.asz (s.reg s.asz .ebx + s.reg .b8 .eax)) .b8 s = .ok a s1 →
      Gives .xlat s (s.regs.write .b8 .eax a) (fun _ => s.eflags) s)

/-- INS and OUTS, one element, where the I/O is permitted: INS stores what the ports in DX answer at ES:DI or ES:EDI,
OUTS writes the element at SI or ESI to them. INS with paging off. An operand that runs past port FFFFH stops as the
model's own fault, and one with a port where nothing answers waits forever, once the memory operand has passed its checks
(logs 4, 6, the model's choice). Rests in part on text that
the spec marks "[from general knowledge, not in source]". -/
def Obligations.StringInputOutput : Prop :=
  ∀ (s s1 s2 : State) (w : Width) (sz : Size) (port : Word) (src dst step a : Dword), s.Inv →
    sz = s.wsz w → port = s.regs.edx.setWidth 16 → src = s.reg s.asz .esi → dst = s.reg s.asz .edi →
    step = (if s.eflags.df then -(BitVec.ofNat 32 sz.bytes) else BitVec.ofNat 32 sz.bytes) →
    checkIo port sz s = .ok () s1 →
    (port.toNat + sz.bytes ≤ 65536 → (∃ k, k < sz.bytes ∧ s.params.portAbsent (port.toNat + k) = true) →
      (s.Plain → s.segOk .es dst sz.bytes true = true → ∃ u, exec (.ins w) s = .fault (.noReady u)) ∧
      (memRead (s.pfx.seg.getD .ds) src sz s1 = .ok a s2 → ∃ u, exec (.outs w) s = .fault (.noReady u))) ∧
    (port.toNat + sz.bytes ≤ 65536 → (∀ k, k < sz.bytes → s.params.portAbsent (port.toNat + k) = false) → s.Plain →
      s.segOk .es dst sz.bytes true = true →
      ∃ t v, exec (.ins w) s = .next t ∧
        Ends s t (s.regs.write s.asz .edi (dst + step)) s.eflags
          { s with bus := ((operandCycles (s.params.asserts16 .ioDataRead) sz.bytes port.toNat).map
              fun c => BusCycle.ioRead (port.toNat + c.1) c.2).reverse ++ s.bus } ∧
        Stores s t (linearRange (s.linear .es dst) sz.bytes) (leBytes sz.bytes v) ∧
        ∀ k b, k < sz.bytes → portInput (port.toNat + k) s.ioInputs = some b → v.extractLsb' (8 * k) 8 = b) ∧
    (port.toNat + sz.bytes ≤ 65536 → (∀ k, k < sz.bytes → s.params.portAbsent (port.toNat + k) = false) →
      memRead (s.pfx.seg.getD .ds) src sz s1 = .ok a s2 →
      Gives (.outs w) s (s.regs.write s.asz .esi (src + step)) (fun _ => s.eflags)
        { s with bus := ((operandCycles (s.params.asserts16 .ioDataWrite) sz.bytes port.toNat).map
            fun c => BusCycle.ioWrite (port.toNat + c.1) (((leBytes sz.bytes a).drop c.1).take c.2)).reverse ++ s.bus }) ∧
    (65536 < port.toNat + sz.bytes →
      (s.Plain → s.segOk .es dst sz.bytes true = true → ∃ u, exec (.ins w) s = .fault (.ioPastTop u)) ∧
      (memRead (s.pfx.seg.getD .ds) src sz s1 = .ok a s2 → ∃ u, exec (.outs w) s = .fault (.ioPastTop u)))

/-- The repeated forms. With a count of 0 in CX or ECX nothing happens. Else one element is done as by the unrepeated
instruction and the count goes down by 1; the instruction is over when the count is then 0, and for REPE when ZF is 0 or
for REPNE when ZF is 1 after the comparison; else EIP is back at the first prefix and what is left is held, so that the next step goes on
with it (log 9; Obligations.StepRunsDecoded); RF and the interrupt inhibit are then as before. An element that raises an exception raises it as the
unrepeated instruction does. Rests in part on text that the spec marks "[from general knowledge, not in source]". -/
def Obligations.RepeatedStrings : Prop :=
  ∀ (s s1 : State) (w : Width) (e : Exn) (k : Keep) (done : Bool), s.Inv →
    ∀ p ∈ ([(Instr.repMovsF2, Instr.movs, movsElement, fun _ => false), (.repMovsF3, .movs, movsElement, fun _ => false),
        (.repStosF2, .stos, stosElement, fun _ => false), (.repStosF3, .stos, stosElement, fun _ => false),
        (.repLodsF2, .lods, lodsElement, fun _ => false), (.repLodsF3, .lods, lodsElement, fun _ => false),
        (.repInsF2, .ins, insElement, fun _ => false), (.repInsF3, .ins, insElement, fun _ => false),
        (.repOutsF2, .outs, outsElement, fun _ => false), (.repOutsF3, .outs, outsElement, fun _ => false),
        (.repeCmps, .cmps, cmpsElement, fun f => !f.zf), (.repneCmps, .cmps, cmpsElement, fun f => f.zf),
        (.repeScas, .scas, scasElement, fun f => !f.zf), (.repneScas, .scas, scasElement, fun f => f.zf)] :
        List ((Width → Instr) × (Width → Instr) × (Size → M Unit) × (Eflags → Bool))),
      (s.reg s.asz .ecx = 0 → Gives (p.1 w) s s.regs (fun _ => s.eflags) s) ∧
      (s.reg s.asz .ecx ≠ 0 → p.2.2.1 (s.wsz w) s = .ok () s1 →
        done = (s.reg s.asz .ecx == 1 || p.2.2.2 s1.eflags) →
        ∃ t u, exec (p.2.1 w) s = .next t ∧ exec (p.1 w) s = .next u ∧
          (done = true → u = { t with regs := t.regs.write s.asz .ecx (s.reg s.asz .ecx - 1) }) ∧
          (done = false → u = { t with
            regs := t.regs.write s.asz .ecx (s.reg s.asz .ecx - 1)
            eip := s.instrEip
            eipOver := false
            eflags := { t.eflags with rf := s.eflags.rf }
            shadow := s.shadow
            pfx := { s.pfx with count := 0, again := some { instr := p.1 w, next := s.eip, nextOver := s.eipOver } } })) ∧
      (s.reg s.asz .ecx ≠ 0 → p.2.2.1 (s.wsz w) s = .error (.exn e k) s1 → exec (p.1 w) s = exec (p.2.1 w) s)

/-! Bit instructions (44_bit.md). -/

/-- BT, BTS, BTR, BTC: CF is the selected bit, which then stays, is set, cleared or complemented; the other five flags
are undefined. An immediate or a register operand selects modulo the operand size; with a bit offset in a register and
a memory operand the unit that holds the bit is found from the signed offset, its address taken modulo the address
size (log 38, the model's choice). BSF and BSR: the number of the lowest or the highest 1 bit; for a source of 0 ZF is
set and the register is undefined; the other five flags are undefined. Rests in part on text that the spec marks
"[from general knowledge, not in source]". -/
def Obligations.BitTestAndScan : Prop :=
  (∀ (s s1 s2 s3 : State) (rm : RM) (reg : Reg) (imm : BitVec 8) (l l' : Loc) (v : Dword) (sz : Size) (n : Nat) (o : Int),
    s.Inv → sz = s.osz → resolve rm s = .ok l s1 →
    ∀ p ∈ [(Instr.btImm rm imm, Instr.btsImm rm imm, Instr.btrImm rm imm, Instr.btcImm rm imm, (imm.toNat : Int), true),
        (.btReg reg rm, .btsReg reg rm, .btrReg reg rm, .btcReg reg rm, signedVal sz (s.reg sz reg), false)],
      o = p.2.2.2.2.1 → n = (o % sz.bits).toNat →
      l' = (if p.2.2.2.2.2 then l else
        match l with
        | .reg r => .reg r
        | .mem sr off => .mem sr (trunc s.asz (off + BitVec.ofInt 32 (sz.bytes * (o / sz.bits))))) →
      readLoc sz l' s1 = .ok v s2 →
      Gives p.1 s s.regs (fun u => { s.eflags.arithmeticOf u with cf := v.getLsbD n }) s ∧
      (writeLoc sz l' (v ||| (1#32 <<< n)) s2 = .ok () s3 →
        Puts p.2.1 s s2 l' sz (v ||| (1#32 <<< n)) fun u => { s.eflags.arithmeticOf u with cf := v.getLsbD n }) ∧
      (writeLoc sz l' (v &&& ~~~(1#32 <<< n)) s2 = .ok () s3 →
        Puts p.2.2.1 s s2 l' sz (v &&& ~~~(1#32 <<< n)) fun u => { s.eflags.arithmeticOf u with cf := v.getLsbD n }) ∧
      (writeLoc sz l' (v ^^^ (1#32 <<< n)) s2 = .ok () s3 →
        Puts p.2.2.2.1 s s2 l' sz (v ^^^ (1#32 <<< n)) fun u => { s.eflags.arithmeticOf u with cf := v.getLsbD n })) ∧
  (∀ (s s1 : State) (rm : RM) (reg : Reg) (v : Dword) (n : Nat), s.Inv → readRm s.osz rm s = .ok v s1 →
    (v ≠ 0 → v.getLsbD n = true →
      ((∀ j, j < n → v.getLsbD j = false) →
        Gives (.bsf reg rm) s (s.regs.write s.osz reg (BitVec.ofNat 32 n))
          (fun u => { s.eflags.arithmeticOf u with zf := false }) s) ∧
      ((∀ j, n < j → v.getLsbD j = false) →
        Gives (.bsr reg rm) s (s.regs.write s.osz reg (BitVec.ofNat 32 n))
          (fun u => { s.eflags.arithmeticOf u with zf := false }) s)) ∧
    (v = 0 → ∀ i, i = .bsf reg rm ∨ i = .bsr reg rm →
      ∃ t, exec i s = .next t ∧
        Ends s t (s.regs.write s.osz reg (t.reg s.osz reg)) { s.eflags.arithmeticOf t.eflags with zf := true } s ∧
        NoStore s t))


/-- IBTS and XBTS where the parameter HAS_IBTS_XBTS is false raise exception 6: the model's choice (log 12, DEDUCED), where
the spec's decision refuses them. Where the part has them, as the spec
recalls them, XBTS gives the CL bits from bit offset (E)AX of the operand, zero-extended, and IBTS replaces those bits
of the operand by the low bits of the register; all six flags are undefined. For up to the operand size of bits that lie
inside a register operand, and for a memory operand with paging off; of more bits than the operand size XBTS gives some
value. What the model makes of the recalled text is its
choice (log 12). Rests in part on text that the spec marks "[from general knowledge, not in source]". -/
def Obligations.BitStrings : Prop :=
  ∀ (s s1 : State) (rm : RM) (reg r : Reg) (n o : Nat) (i : Int) (sr : SReg) (off : Dword) (byteAt : Nat → Dword), s.Inv →
    n = s.regs.ecx.toNat % 256 → i = signedVal s.osz (s.reg s.osz .eax) → o = (i % s.osz.bits).toNat →
    (byteAt = fun (j : Nat) => trunc s.asz (off + BitVec.ofInt 32 ((i + j) / 8))) →
    (s.params.hasIbtsXbts = false →
      exec (.ibts reg rm) s = takeException Exn.ud s ∧ exec (.xbts reg rm) s = takeException Exn.ud s) ∧
    (s.params.hasIbtsXbts = true → n ≤ s.osz.bits →
      (rm = .reg r → o + n ≤ s.osz.bits →
        Gives (.xbts reg rm) s (s.regs.write s.osz reg ((s.reg s.osz r >>> o) &&& BitVec.ofNat 32 (2 ^ n - 1)))
          (fun u => s.eflags.arithmeticOf u) s ∧
        Gives (.ibts reg rm) s (s.regs.write s.osz r
            ((s.reg s.osz r &&& ~~~(BitVec.ofNat 32 (2 ^ n - 1) <<< o)) |||
              ((s.reg s.osz reg &&& BitVec.ofNat 32 (2 ^ n - 1)) <<< o)))
          (fun u => s.eflags.arithmeticOf u) s) ∧
      (s.Plain → resolve rm s = .ok (.mem sr off) s1 →
        ((∀ j, j < n → s.segOk sr (byteAt j) 1 false = true) →
          ∃ t v, exec (.xbts reg rm) s = .next t ∧
            Ends s t (s.regs.write s.osz reg v) (s.eflags.arithmeticOf t.eflags) s ∧ NoStore s t ∧
            ∀ j, v.getLsbD j = (decide (j < n) && (s.readByte (s.linear sr (byteAt j))).getLsbD ((i + j) % 8).toNat)) ∧
        ((∀ j, j < n → s.segOk sr (byteAt j) 1 false = true ∧ s.segOk sr (byteAt j) 1 true = true) →
          ∃ t, exec (.ibts reg rm) s = .next t ∧ Ends s t s.regs (s.eflags.arithmeticOf t.eflags) s ∧
            (∀ j, j < n → (t.readByte (s.linear sr (byteAt j))).getLsbD ((i + j) % 8).toNat =
              if s.isFixed (s.linear sr (byteAt j)).toNat then
                (s.readByte (s.linear sr (byteAt j))).getLsbD ((i + j) % 8).toNat
              else (s.reg s.osz reg).getLsbD j) ∧
            ∀ p k, (∀ j, j < n → ¬(p = s.linear sr (byteAt j) ∧ k = ((i + j) % 8).toNat)) →
              (t.readByte p).getLsbD k = (s.readByte p).getLsbD k))) ∧
    (s.params.hasIbtsXbts = true → s.osz.bits < n → s.Plain → resolve rm s = .ok (.mem sr off) s1 →
      (∀ j, j < n → s.segOk sr (byteAt j) 1 false = true) →
      ∃ t v, exec (.xbts reg rm) s = .next t ∧ Ends s t (s.regs.write s.osz reg v) (s.eflags.arithmeticOf t.eflags) s ∧
        NoStore s t)

/-! Control transfer (45_control_transfer.md). -/

/-- Near CALL, JMP and RET: EIP is the target, cut to 16 bits with a 16-bit operand size, after a check against the
limit of CS that precedes the push; CALL pushes the address of the next instruction, RET pops its target and releases
the bytes its immediate names. A target beyond the limit takes #GP(0). CALL in Real Mode is for a return address that
does not wrap the segment at FFFFH (10_state.md R36: with SP = 1 it shuts the processor down, which is not stated here;
log 35). Rests in part on text that the spec marks "[from general knowledge, not in source]". -/
def Obligations.NearTransfers : Prop :=
  ∀ (s s1 s2 : State) (off : Off) (d8 : BitVec 8) (rm : RM) (v target : Dword) (n : BitVec 16), s.Inv →
    (∀ (call jmp : Instr) (from' : State),
      (call = .callRel off ∧ jmp = .jmpRel off ∧ from' = s ∧
        target = trunc s.osz (s.eip + (match off with | .o16 d => d.signExtend 32 | .o32 d => d))) ∨
      (call = .callRm rm ∧ jmp = .jmpRm rm ∧ readRm s.osz rm s = .ok target from') →
      (target.toNat ≤ s.cs.limit.toNat →
        Jumps jmp s s.regs s target ∧
        ((s.cr0.pe = false → (s.slot s.osz 0).toNat + s.osz.bytes ≤ 65536) →
          memWrite .ss (s.slot s.osz 0) s.osz s.eip from' = .ok () s2 →
          ∃ t, exec call s = .next t ∧
            Ends s t (s.regsPushed s.osz 1) s.eflags { s with eip := target, eipOver := false } ∧
            StoresAt s from' t .ss (s.slot s.osz 0) (leBytes s.osz.bytes s.eip))) ∧
      (s.cs.limit.toNat < target.toNat →
        exec jmp s = takeException (Exn.gp 0) { s with draws := from'.draws, deviceBus := from'.deviceBus } ∧
        exec call s = takeException (Exn.gp 0) { s with draws := from'.draws, deviceBus := from'.deviceBus })) ∧
    (target = trunc s.osz (s.eip + d8.signExtend 32) →
      (target.toNat ≤ s.cs.limit.toNat → Jumps (.jmpShort d8) s s.regs s target) ∧
      (s.cs.limit.toNat < target.toNat → exec (.jmpShort d8) s = takeException (Exn.gp 0) s)) ∧
    (memRead .ss s.sp s.osz s = .ok v s1 →
      (v.toNat ≤ s.cs.limit.toNat →
        Jumps .ret s (s.regsPopped s.osz.bytes) s v ∧ Jumps (.retImm n) s (s.regsPopped (s.osz.bytes + n.toNat)) s v) ∧
      (s.cs.limit.toNat < v.toNat →
        exec .ret s = takeException (Exn.gp 0) { s with draws := s1.draws, deviceBus := s1.deviceBus } ∧
        exec (.retImm n) s = takeException (Exn.gp 0) { s with draws := s1.draws, deviceBus := s1.deviceBus }))

/-- The sixteen conditions: a conditional jump, short or near, is taken where its condition on the flags holds, else
nothing happens but that EIP is the next instruction's, the target not being checked; SETcc gives a byte operand 1 or 0.
JCXZ jumps where CX or ECX is 0 (which of them: the parameter JCXZ_SIZE_ATTR). LOOP takes 1 from CX or ECX, by the
address size, and jumps where it is not then 0, LOOPZ only with ZF = 1 and LOOPNZ only with ZF = 0; no flag changes.
Rests in part on text that the spec marks "[from general knowledge, not in source]". -/
def Obligations.Conditions : Prop :=
  (∀ (s : State) (d8 : BitVec 8) (off : Off) (f : Eflags) (i : Instr) (target : Dword), s.Inv → f = s.eflags →
    ∀ p ∈ ([(Instr.joShort, Instr.joNear, f.ofl), (.jnoShort, .jnoNear, !f.ofl), (.jbShort, .jbNear, f.cf),
        (.jnbShort, .jnbNear, !f.cf), (.jeShort, .jeNear, f.zf), (.jneShort, .jneNear, !f.zf),
        (.jbeShort, .jbeNear, f.cf || f.zf), (.jnbeShort, .jnbeNear, !(f.cf || f.zf)), (.jsShort, .jsNear, f.sf),
        (.jnsShort, .jnsNear, !f.sf), (.jpShort, .jpNear, f.pf), (.jnpShort, .jnpNear, !f.pf),
        (.jlShort, .jlNear, f.sf ^^ f.ofl), (.jnlShort, .jnlNear, !(f.sf ^^ f.ofl)),
        (.jleShort, .jleNear, f.zf || (f.sf ^^ f.ofl)), (.jnleShort, .jnleNear, !(f.zf || (f.sf ^^ f.ofl)))] :
        List ((BitVec 8 → Instr) × (Off → Instr) × Bool)),
      (i = p.1 d8 ∧ target = trunc s.osz (s.eip + d8.signExtend 32)) ∨
      (i = p.2.1 off ∧ target = trunc s.osz (s.eip + (match off with | .o16 d => d.signExtend 32 | .o32 d => d))) →
      (p.2.2 = true → target.toNat ≤ s.cs.limit.toNat → Jumps i s s.regs s target) ∧
      (p.2.2 = true → s.cs.limit.toNat < target.toNat → exec i s = takeException (Exn.gp 0) s) ∧
      (p.2.2 = false → Gives i s s.regs (fun _ => s.eflags) s)) ∧
  (∀ (s s1 s2 : State) (rm : RM) (l : Loc) (f : Eflags) (v : Dword), s.Inv → f = s.eflags → resolve rm s = .ok l s1 →
    ∀ p ∈ ([(Instr.seto, f.ofl), (.setno, !f.ofl), (.setb, f.cf), (.setnb, !f.cf), (.sete, f.zf), (.setne, !f.zf),
        (.setbe, f.cf || f.zf), (.setnbe, !(f.cf || f.zf)), (.sets, f.sf), (.setns, !f.sf), (.setp, f.pf), (.setnp, !f.pf),
        (.setl, f.sf ^^ f.ofl), (.setnl, !(f.sf ^^ f.ofl)), (.setle, f.zf || (f.sf ^^ f.ofl)),
        (.setnle, !(f.zf || (f.sf ^^ f.ofl)))] : List ((RM → Instr) × Bool)),
      v = (if p.2 then 1 else 0) → writeLoc .b8 l v s1 = .ok () s2 → Puts (p.1 rm) s s1 l .b8 v fun _ => s.eflags) ∧
  (∀ (s : State) (d8 : BitVec 8) (target count : Dword), s.Inv → target = trunc s.osz (s.eip + d8.signExtend 32) →
    count = trunc s.asz (s.reg s.asz .ecx - 1) →
    ∀ p ∈ ([(Instr.jcxz d8, s.regs, s.reg (if s.params.jcxzSizeAttr = .address then s.asz else s.osz) .ecx == 0),
        (.loop d8, s.regs.write s.asz .ecx count, count != 0),
        (.loopz d8, s.regs.write s.asz .ecx count, count != 0 && s.eflags.zf),
        (.loopnz d8, s.regs.write s.asz .ecx count, count != 0 && !s.eflags.zf)] : List (Instr × Regs × Bool)),
      (p.2.2 = true → target.toNat ≤ s.cs.limit.toNat → Jumps p.1 s p.2.1 s target) ∧
      (p.2.2 = true → s.cs.limit.toNat < target.toNat → exec p.1 s = takeException (Exn.gp 0) s) ∧
      (p.2.2 = false → Gives p.1 s p.2.1 (fun _ => s.eflags) s))


/-- LEAVE loads the stack pointer from EBP and pops EBP. ENTER with level 0 pushes EBP, makes EBP the stack pointer and
takes the size off the stack pointer; with a level L from 1 to 31 (the level is taken modulo 32) it also pushes L - 1
frame pointers that it finds below EBP, and the new frame pointer; with paging off, for frame pointers that lie outside
the items pushed. The upper half of a frame pointer of 32 bits on a 16-bit stack is the model's choice (log 51). In Real
Mode it is for pushes that do not wrap the segment at FFFFH, whatever the limit of SS (10_state.md R36; log 35). Rests
in part on text that the spec marks "[from general knowledge, not in source]". -/
def Obligations.EnterLeave : Prop :=
  ∀ (s s1 : State) (size : BitVec 16) (level : BitVec 8) (v : Dword) (k n : Nat) (old : List Dword), s.Inv →
    k = s.osz.bytes →
    (memRead .ss (s.reg s.stackSize .ebp) s.osz
        { s with regs := s.regs.write s.stackSize .esp (s.reg s.stackSize .ebp) } = .ok v s1 →
      Gives .leave s
        ((s.regs.write s.stackSize .esp (s.reg s.stackSize .ebp + BitVec.ofNat 32 k)).write s.osz .ebp v)
        (fun _ => s.eflags) s) ∧
    (n = level.toNat % 32 → s.Plain →
      (n = 0 → s.slotOk s.osz 0 →
        ∃ t, exec (.enter size level) s = .next t ∧
          Ends s t ((s.regs.write s.stackSize .esp (s.slot s.osz 0 - size.setWidth 32)).write s.osz .ebp (s.slot s.osz 0))
            s.eflags s ∧
          Pushed s t s.osz [s.reg s.osz .ebp]) ∧
      (1 ≤ n → (∀ i, i < n + 1 → s.slotOk s.osz i) →
        (∀ i, i < n - 1 →
          s.segOk .ss (trunc s.osz (s.reg s.osz .ebp - BitVec.ofNat 32 (k * (i + 1)))) k false = true ∧
          ∀ j, j < n + 1 → ∀ p ∈ linearRange (s.linear .ss (trunc s.osz (s.reg s.osz .ebp - BitVec.ofNat 32 (k * (i + 1))))) k,
            p ∉ s.slotBytes s.osz j) →
        (old = (List.range (n - 1)).map fun i =>
          leDword (s.operandBytes .ss (trunc s.osz (s.reg s.osz .ebp - BitVec.ofNat 32 (k * (i + 1)))) k)) →
        ∃ t, exec (.enter size level) s = .next t ∧
          Ends s t ((s.regs.write s.stackSize .esp (s.slot s.osz n - size.setWidth 32)).write s.osz .ebp (s.slot s.osz 0))
            s.eflags s ∧
          Pushed s t s.osz ([s.reg s.osz .ebp] ++ old ++ [s.slot s.osz 0])))

/-- Far CALL, JMP and RET in Real and Virtual 8086 Mode, with paging off: CS is loaded the 8086 way and EIP is the
offset, which must not exceed FFFFH; CALL first pushes CS, as a dword with a zero upper half (log 50, the model's
choice), and the address of the next instruction; RET pops both and releases the bytes its immediate names. That CALL
tests the offset before it looks at the stack is the model's choice (log 60). CALL in Real Mode is for pushes that do
not wrap the segment at FFFFH, whatever the limit of SS (10_state.md R36; log 35). Rests in part on text that the spec
marks "[from general knowledge, not in source]". -/
def Obligations.FarTransfers8086 : Prop :=
  ∀ (s s1 : State) (sel : Word) (off : Dword) (o : Off) (m : MemOp) (n : BitVec 16), s.Inv → s.protectedMode = false →
    s.Plain →
    (∀ call jmp : Instr,
      (call = .callPtr o sel ∧ jmp = .jmpPtr o sel ∧ off = (match o with | .o16 d => d.setWidth 32 | .o32 d => d) ∧ s1 = s) ∨
      (call = .callMem m ∧ jmp = .jmpMem m ∧ readFarPointer m s = .ok (off, sel) s1) →
      (off.toNat ≤ 0xFFFF →
        Jumps jmp s s.regs (s.load8086 .cs sel) off ∧
        (s.slotOk s.osz 0 → s.slotOk s.osz 1 →
          ∃ t, exec call s = .next t ∧
            Ends s t (s.regsPushed s.osz 2) s.eflags { s.load8086 .cs sel with eip := off, eipOver := false } ∧
            Pushed s t s.osz [s.cs.selector.setWidth 32, s.eip])) ∧
      (0xFFFF < off.toNat →
        exec jmp s = takeException (Exn.gp 0) { s with draws := s1.draws } ∧
        exec call s = takeException (Exn.gp 0) { s with draws := s1.draws })) ∧
    (s.itemOk s.osz 0 → s.itemOk s.osz 1 → sel = (s.stackItem s.osz 1).setWidth 16 →
      (s.stackItem s.osz 0).toNat ≤ 0xFFFF →
      Jumps .retf s (s.regsPopped (2 * s.osz.bytes)) (s.load8086 .cs sel) (s.stackItem s.osz 0) ∧
      Jumps (.retfImm n) s (s.regsPopped (2 * s.osz.bytes + n.toNat)) (s.load8086 .cs sel) (s.stackItem s.osz 0))

/-- Far CALL, JMP and RET in Protected Mode to a code segment, with paging off. At the current level CS takes the
selector, with CPL as its RPL, and the descriptor; CALL pushes CS and the address of the next instruction; RET finds the
offset and the selector on the stack. RET to an outer level also takes SS and the stack pointer, of the size of the new
stack segment, from the stack, releases the bytes its immediate names on both stacks, and nulls the data segment
registers that the outer level may not use (45_control_transfer.md). JMP and CALL set the Accessed bit of the
descriptor; that RET sets those of the CS and SS descriptors is the model's choice (log 44), and so are how RET's items
are addressed on a 16-bit stack (log 49), what the upper half of ESP becomes on a 32-bit outer stack with osz = 16 (log
55), and that a data segment register that is not valid keeps its selector (log 61). Rests in part on text that the spec
marks "[from general knowledge, not in source]". -/
def Obligations.FarTransferProtected : Prop :=
  ∀ (s s1 : State) (sel : Word) (d : Descriptor) (off : Dword) (o : Off) (m : MemOp) (n : BitVec 16), s.Inv →
    s.protectedMode = true → CodeTarget s sel d off →
    (∀ call jmp : Instr,
      (call = .callPtr o sel ∧ jmp = .jmpPtr o sel ∧ off = (match o with | .o16 d => d.setWidth 32 | .o32 d => d)) ∨
      (call = .callMem m ∧ jmp = .jmpMem m ∧ readFarPointer m s = .ok (off, sel) s1) →
      (if d.isConforming then d.dpl ≤ s.currentCpl else d.dpl = s.currentCpl ∧ rpl sel ≤ s.currentCpl) →
      (∃ t, exec jmp s = .next t ∧ Ends s t s.regs s.eflags (s.inCode (withRpl sel s.currentCpl) d off) ∧
        Marked s t (s.marks [(sel, d)])) ∧
      (s.slotOk s.osz 0 → s.slotOk s.osz 1 →
        ∃ t, exec call s = .next t ∧
          Ends s t (s.regsPushed s.osz 2) s.eflags (s.inCode (withRpl sel s.currentCpl) d off) ∧
          PushedMarking s t s.osz [s.cs.selector.setWidth 32, s.eip] (s.marks [(sel, d)]))) ∧
    (∀ (back : Instr) (r : Nat), (back = .retf ∧ r = 0) ∨ (back = .retfImm n ∧ r = n.toNat) →
      off = leDword (s.operandBytes .ss s.sp s.osz.bytes) →
      sel = (leDword (s.operandBytes .ss (s.sp + BitVec.ofNat 32 s.osz.bytes) 2)).setWidth 16 →
      (if d.isConforming then d.dpl ≤ rpl sel else d.dpl = rpl sel) →
      (rpl sel = s.currentCpl → s.segOk .ss s.sp (2 * s.osz.bytes) false = true →
        ∃ t, exec back s = .next t ∧ Ends s t (s.regsPopped (2 * s.osz.bytes + r)) s.eflags (s.inCode sel d off) ∧
          Marked s t (s.marks [(sel, d)])) ∧
      (s.currentCpl < rpl sel → s.segOk .ss s.sp (4 * s.osz.bytes + r) false = true →
        ∀ (ss : Word) (sd : Descriptor) (sp : Dword),
          sp = leDword (s.operandBytes .ss (s.sp + BitVec.ofNat 32 (2 * s.osz.bytes + r)) s.osz.bytes) →
          ss = (leDword (s.operandBytes .ss (s.sp + BitVec.ofNat 32 (3 * s.osz.bytes + r)) 2)).setWidth 16 →
          StackTarget s (rpl sel) ss sd →
          ∃ t, exec back s = .next t ∧
            Ends s t (s.regs.write (s.outside sel d off ss sd).stackSize .esp (sp + BitVec.ofNat 32 r)) s.eflags
              (s.outside sel d off ss sd) ∧
            Marked s t (s.marks [(sel, d), (ss, sd)])))

/-- Far CALL and JMP through a call gate, with paging off (45_control_transfer.md). To a segment of the current level,
or a conforming one, CS and EIP come from the gate, CS with CPL as its RPL, and CALL pushes CS and the address of the
next instruction at the gate's size. CALL to a non-conforming segment of an inner level takes SS and the stack pointer
of that level from the current TSS and pushes there the old SS and ESP, the parameters of the gate's count in their
order, CS and the address of the next instruction; the Accessed bit of the SS descriptor is set before the pushes
(20_memory.md R176); CPL becomes the level of the segment. For parameters that lie outside what is pushed. The upper
halves of selectors pushed as dwords are zero and the parameters are found without wrapping at 16 bits: the model's
choices (logs 49, 50), and so are that a call gate sets the Accessed bits of the descriptors it loads (log 44) and the
upper half of the ESP from a 286 TSS (log 55). The task switch between 386 TSSs, with paging off and to a task of
Protected Mode whose segments are already accessed (60_exceptions.md): JMP, CALL, INT n and IRET with NT = 1 save EIP,
EFLAGS, the general registers and the selectors in the old TSS, set the busy bits and the back link as their kind says,
and load LDTR, EFLAGS, EIP, the general registers and the segment registers from the new one; TR names it, CR0.TS is
set, CALL and INT set NT, the local enables of DR7 are cleared, CPL is the RPL of CS, and a T bit of 1 makes the debug
trap BT pend. A TSS that is too small is refused before anything is saved; what goes wrong once the new registers are
loaded, as a null CS, is taken in the new task. The order of the steps is in part the model's choice (log 30). Rests in
part on text that the spec marks "[from general knowledge, not in source]". -/
def Obligations.CallGatesAndTaskSwitches : Prop :=
  (∀ (s s1 : State) (sel : Word) (g c : Descriptor) (o : Off) (m : MemOp) (off : Dword) (call jmp : Instr), s.Inv →
     s.protectedMode = true → CallGate s sel g c →
     (call = .callPtr o sel ∧ jmp = .jmpPtr o sel) ∨
       (call = .callMem m ∧ jmp = .jmpMem m ∧ readFarPointer m s = .ok (off, sel) s1) →
     ((if c.isConforming then c.dpl ≤ s.currentCpl else c.dpl = s.currentCpl) →
       (∃ t, exec jmp s = .next t ∧
         Ends s t s.regs s.eflags (s.inCode (withRpl g.gateSelector s.currentCpl) c g.gateOffset) ∧
         Marked s t (s.marks [(g.gateSelector, c)])) ∧
       (s.slotOk g.gateSize 0 → s.slotOk g.gateSize 1 →
         ∃ t, exec call s = .next t ∧
           Ends s t (s.regsPushed g.gateSize 2) s.eflags
             (s.inCode (withRpl g.gateSelector s.currentCpl) c g.gateOffset) ∧
           PushedMarking s t g.gateSize [s.cs.selector.setWidth 32, s.eip] (s.marks [(g.gateSelector, c)]))) ∧
     (c.isConforming = false → c.dpl < s.currentCpl →
       ∀ (ss : Word) (sp : Dword) (d : Descriptor) (u : State) (n : Nat) (at' : Nat → Dword) (params : List Dword),
         InnerStack s c.dpl ss sp d → u = (s.onInnerStack c.dpl ss sp d).markingAccessed ss d → n = (g.hi.extractLsb' 0 5).toNat →
         (∀ j, j < n + 4 → u.slotOk g.gateSize j) →
         (at' = fun k => s.sp + BitVec.ofNat 32 (g.gateSize.bytes * k)) →
         (∀ k, k < n → s.segOk .ss (at' k) g.gateSize.bytes false = true ∧
           ∀ j, j < n + 4 → ∀ p ∈ linearRange (s.linear .ss (at' k)) g.gateSize.bytes, p ∉ u.slotBytes g.gateSize j) →
         (params = ((List.range n).map fun k =>
           leDword ((linearRange (s.linear .ss (at' k)) g.gateSize.bytes).map u.readByte)).reverse) →
         ∃ t, exec call s = .next t ∧
           Ends s t (u.regsPushed g.gateSize (n + 4)) s.eflags
             (({ u with regs := s.regs } : State).inCode (withRpl g.gateSelector c.dpl) c g.gateOffset) ∧
           PushedMarking u t g.gateSize
             ([s.ss.selector.setWidth 32, s.regs.esp] ++ params ++ [s.cs.selector.setWidth 32, s.eip])
             (s.marks [(g.gateSelector, c)]))) ∧
  (∀ (s u x : State) (i : Instr) (kind : TaskKind) (ns : Word) (nd : Descriptor) (f : Nat → Dword) (w : Nat → Word)
     (d : Word → Descriptor) (flags : Eflags) (regs : Regs), s.Inv → s.protectedMode = true → s.Plain →
     s.tr.valid = true → s.tr.type.getLsbD 3 = true → SwitchesTo s i kind ns nd → nd.type.getLsbD 3 = true →
     u = s.taskSaved kind ns nd → (f = fun k => u.physDword (nd.base + BitVec.ofNat 32 k)) → (w = fun k => (f k).setWidth 16) →
     regs = { eax := f 0x28, ecx := f 0x2C, edx := f 0x30, ebx := f 0x34, esp := f 0x38, ebp := f 0x3C, esi := f 0x40,
              edi := f 0x44 } →
     flags = { Eflags.ofWord (f 0x24) with nt := (f 0x24).getLsbD 14 || kind == .call || kind == .int } →
     (kind ≠ .int → nd.limit.toNat < 0x67 →
       ∃ t, exec i s = takeException (Exn.ts (ns &&& 0xFFFC)) t ∧ t = { s with draws := t.draws }) ∧
     (0x67 ≤ nd.limit.toNat → (f 0x24).getLsbD 17 = false →
       (isNull (w 0x60) = true ∨
         (inLdt (w 0x60) = false ∧ u.inTable (w 0x60) = true ∧
           (u.descriptorIn (u.descriptorAt (w 0x60))).isSystem 2 = true ∧
           (u.descriptorIn (u.descriptorAt (w 0x60))).present = true)) →
       x = { u with ldtr := s.ldtr.fromTask (w 0x60) (u.descriptorIn (u.descriptorAt (w 0x60))) } →
       (d = fun sel => x.descriptorIn (x.descriptorAt sel)) →
       (kind ≠ .int → isNull (w 0x4C) = true →
         ∃ t, exec i s = takeException (Exn.ts 0) t ∧ t.regs = regs ∧ t.eflags = flags ∧ t.eip = f 0x20 ∧
           t.instrEip = f 0x20 ∧ t.ldtr = x.ldtr ∧ t.tr = nd.cache ns ∧ t.cr0 = { s.cr0 with ts := true } ∧
           ∀ p, t.readByte p = u.readByte p) ∧
       (CodeTarget x (w 0x4C) (d (w 0x4C)) (f 0x20) →
         (if (d (w 0x4C)).isConforming then (d (w 0x4C)).dpl ≤ rpl (w 0x4C) else (d (w 0x4C)).dpl = rpl (w 0x4C)) →
         StackTarget x (rpl (w 0x4C)) (w 0x50) (d (w 0x50)) →
         (∀ k ∈ [0x54, 0x48, 0x58, 0x5C], DataTarget x (rpl (w 0x4C)) (w k) (d (w k))) →
         (∀ k ∈ [0x4C, 0x50, 0x54, 0x48, 0x58, 0x5C], isNull (w k) = false → (d (w k)).type.getLsbD 0 = true) →
         ∃ t, exec i s = .next t ∧ t.regs = regs ∧ t.eflags = flags ∧
           t.putBack s =
             { s with
               eip := f 0x20, eipOver := false, ldtr := x.ldtr, tr := nd.cache ns, cr0 := { s.cr0 with ts := true }
               cs := (d (w 0x4C)).cache (w 0x4C), ss := (d (w 0x50)).cache (w 0x50)
               ds := s.ds.fromTask (w 0x54) (d (w 0x54)), es := s.es.fromTask (w 0x48) (d (w 0x48))
               fs := s.fs.fromTask (w 0x58) (d (w 0x58)), gs := s.gs.fromTask (w 0x5C) (d (w 0x5C))
               cpl := rpl (w 0x4C), dr7 := s.dr7 &&& 0xFFFFFEAA
               nmiInService := s.nmiInService && kind != .iret
               runState := if kind = .int then .running else s.runState } ∧
           t.pendingDb.getLsbD 15 = (s.pendingDb.getLsbD 15 || (f 0x64).getLsbD 0) ∧
           t.pfx = Prefixes.none ∧ t.shadow = .none ∧ ∀ p, t.readByte p = u.readByte p)))

/-! Interrupts and exceptions (46_interrupt.md, 60_exceptions.md). -/

/-- INT n, INT 3, INTO and taking an exception in Real Mode: FLAGS, CS and IP are pushed as words, IF and TF are
cleared, and CS:IP is loaded from the vector's entry in the interrupt table at the base of IDTR. An exception saves the
address of the instruction that raised it, a software interrupt, which also clears RF, that of the next one; DR6 and
DR7.GD are as a debug exception leaves them. INTO does nothing with OF = 0. For pushes that do not wrap the segment at
FFFFH, whatever the limit of SS (10_state.md R36; log 35). That an interrupt inhibit that is still on ends when the
handler is entered is the model's choice (log 56). Rests in part on text that the spec marks "[from general knowledge,
not in source]". -/
def Obligations.InterruptReal : Prop :=
  ∀ (s : State) (v : Byte), s.Inv → s.cr0.pe = false →
    (s.eflags.ofl = false → Gives .into s s.regs (fun _ => s.eflags) s) ∧
    (s.AllMemory → 4 * v.toNat + 3 ≤ s.idtr.limit.toNat → (∀ i, i < 3 → s.slotOk .b16 i) →
      (∀ i : Instr, i = .intN v ∨ (i = .int3 ∧ v = 3) ∨ (i = .into ∧ v = 4 ∧ s.eflags.ofl = true) →
        ∃ t, exec i s = .next t ∧ EnteredReal s t v s.eip false) ∧
      (∀ e : Exn, e.vector = v →
        ∃ t, takeException e s = .next t ∧ EnteredReal (s.noting e) t v s.instrEip s.eflags.rf))

/-- INT n, INT 3, INTO and taking an exception in Protected Mode through an interrupt or trap gate to a code segment of
the current level, with paging off: EFLAGS, CS and EIP are pushed at the size of the gate, for an exception that has one
then the error code; TF, NT, RF and, by an interrupt gate, IF are cleared; CS:EIP is the gate's. The image of EFLAGS
that a fault pushes has RF = 1. That the Accessed bit of the code segment's descriptor is set is the model's choice (log
44). CR2 takes the address of a page fault, DR6 the bits of a debug exception, which clears DR7.GD if it is general
detect. A software interrupt needs a gate whose DPL is not below CPL, else it raises #GP naming the gate. The upper half
of CS pushed as a dword is zero (log 50, the model's choice), and an interrupt inhibit that is still on ends when the
handler is entered (log 56, the model's choice). Rests in part on text that the spec marks "[from general knowledge, not
in source]". -/
def Obligations.GateSameLevel : Prop :=
  ∀ (s : State) (v : Byte) (g c : Descriptor), s.Inv → s.protectedMode = true → IdtGate s v g c →
    (if c.isConforming then c.dpl ≤ s.currentCpl else c.dpl = s.currentCpl) →
    (∀ i : Instr, i = .intN v ∨ (i = .int3 ∧ v = 3) ∨ (i = .into ∧ v = 4 ∧ s.eflags.ofl = true) →
      s.currentCpl ≤ g.dpl → (∀ j, j < 3 → s.slotOk g.gateSize j) →
      ∃ t, exec i s = .next t ∧
        EnteredGate s s t g c s.currentCpl [s.eflags.word, s.cs.selector.setWidth 32, s.eip]
          (s.marks [(g.gateSelector, c)])) ∧
    (g.dpl < s.currentCpl →
      ∃ u, deliver (softwareEvent v s.eip) s =
          .error (.exn (Exn.gp (BitVec.ofNat 16 (8 * v.toNat + 2))) .nothing) u ∧
        u = { s with pendingDb := u.pendingDb, draws := u.draws }) ∧
    (∀ (e : Exn) (s' : State) (image : Dword), e.vector = v → s' = s.noting e →
      image = (if e.rfImage then s.eflags.word ||| 0x10000 else s.eflags.word) →
      (e.errorCode = none → (∀ j, j < 3 → s.slotOk g.gateSize j) →
        ∃ t, takeException e s = .next t ∧
          EnteredGate s' s' t g c s.currentCpl [image, s.cs.selector.setWidth 32, s.instrEip]
            (s.marks [(g.gateSelector, c)])) ∧
      (∀ code, e.errorCode = some code → (∀ j, j < 4 → s.slotOk g.gateSize j) → (v = 14 → code.toNat < 8) →
        ∃ t x, takeException e s = .next t ∧ CodeItem v code x ∧
          EnteredGate s' s' t g c s.currentCpl [image, s.cs.selector.setWidth 32, s.instrEip, x]
            (s.marks [(g.gateSelector, c)])))

/-- The same to a non-conforming code segment of an inner level: SS:ESP of that level comes from the current TSS, of the
386 or the 286, and the old SS and ESP are pushed on the new stack before the rest; SS is loaded, with the Accessed bit
of its descriptor, before the pushes, and CS after them (20_memory.md R176); CPL is the level of the code segment. The
model's choices: the Accessed bits of both segments' descriptors are set (log 44), the upper halves of SS and CS pushed
as dwords are zero (log 50), and so is that of the ESP from a 286 TSS (log 55), and an interrupt inhibit that is still
on ends when the handler is entered (log 56). Rests in part on text that the spec marks "[from general knowledge, not in
source]". -/
def Obligations.GateInnerLevel : Prop :=
  ∀ (s s1 : State) (v : Byte) (g c d : Descriptor) (sel : Word) (sp : Dword), s.Inv → s.protectedMode = true →
    IdtGate s v g c → c.isConforming = false → c.dpl < s.currentCpl → InnerStack s c.dpl sel sp d →
    s1 = (s.onInnerStack c.dpl sel sp d).markingAccessed sel d →
    (∀ i : Instr, i = .intN v ∨ (i = .int3 ∧ v = 3) ∨ (i = .into ∧ v = 4 ∧ s.eflags.ofl = true) →
      s.currentCpl ≤ g.dpl → (∀ j, j < 5 → s1.slotOk g.gateSize j) →
      ∃ t, exec i s = .next t ∧
        EnteredGate s s1 t g c c.dpl
          [s.ss.selector.setWidth 32, s.regs.esp, s.eflags.word, s.cs.selector.setWidth 32, s.eip]
          (s.marks [(g.gateSelector, c)])) ∧
    (∀ (e : Exn) (image : Dword), e.vector = v →
      image = (if e.rfImage then s.eflags.word ||| 0x10000 else s.eflags.word) →
      (e.errorCode = none → (∀ j, j < 5 → s1.slotOk g.gateSize j) →
        ∃ t, takeException e s = .next t ∧
          EnteredGate (s.noting e) (s1.noting e) t g c c.dpl
            [s.ss.selector.setWidth 32, s.regs.esp, image, s.cs.selector.setWidth 32, s.instrEip]
            (s.marks [(g.gateSelector, c)])) ∧
      (∀ code, e.errorCode = some code → (∀ j, j < 6 → s1.slotOk g.gateSize j) → (v = 14 → code.toNat < 8) →
        ∃ t x, takeException e s = .next t ∧ CodeItem v code x ∧
          EnteredGate (s.noting e) (s1.noting e) t g c c.dpl
            [s.ss.selector.setWidth 32, s.regs.esp, image, s.cs.selector.setWidth 32, s.instrEip, x]
            (s.marks [(g.gateSelector, c)])))

/-- Virtual 8086 Mode, with paging off. INT n with IOPL = 3, INT 3, INTO and taking an exception through a 386 gate to a
level 0 code segment leave it; the software interrupts need a gate of DPL 3: on the stack of level 0 GS, FS, DS, ES, SS,
ESP, EFLAGS with VM = 1, and with RF = 1 for a fault, CS and EIP are pushed as dwords, the selectors with undefined
upper halves, then the error code of an exception that has one, and the four data segment registers become null; that
the Accessed bits of the CS and SS descriptors are set is the model's choice (log 44), that of SS before the pushes
(R680 step 2), and so are the upper half of the ESP from a 286 TSS, zero (log 55), and that an interrupt inhibit that is
still on ends when the handler is entered (log 56). IRET at level 0 from a 32-bit image with VM = 1 enters it again:
EIP, CS, EFLAGS, ESP, SS, ES, DS, FS, GS are taken from the stack, the segment registers the 8086 way; how its items are
addressed on a 16-bit stack is the model's choice (log 49). Rests in part on text that the spec marks "[from general
knowledge, not in source]". -/
def Obligations.Virtual8086 : Prop :=
  (∀ (s s1 : State) (v : Byte) (g c d : Descriptor) (sel : Word) (sp : Dword), s.Inv → s.v86 = true → IdtGate s v g c →
    g.type.getLsbD 3 = true → c.isConforming = false → c.dpl = 0 → InnerStack s 0 sel sp d →
    s1 = { (s.onInnerStack 0 sel sp d).markingAccessed sel d with eflags := { s.eflags with vm := false } } →
    (∀ i : Instr, (i = .intN v ∧ s.eflags.iopl = 3) ∨ (i = .int3 ∧ v = 3) ∨ (i = .into ∧ v = 4 ∧ s.eflags.ofl = true) →
      3 ≤ g.dpl → (∀ j, j < 9 → s1.slotOk .b32 j) →
      ∃ t, exec i s = .next t ∧ LeftV86 s s1 t g c d sel s.eflags.word s.eip []) ∧
    (∀ (e : Exn) (image : Dword), e.vector = v →
      image = (if e.rfImage then s.eflags.word ||| 0x10000 else s.eflags.word) →
      (e.errorCode = none → (∀ j, j < 9 → s1.slotOk .b32 j) →
        ∃ t, takeException e s = .next t ∧ LeftV86 (s.noting e) s1 t g c d sel image s.instrEip []) ∧
      (∀ code, e.errorCode = some code → (∀ j, j < 10 → s1.slotOk .b32 j) → (v = 14 → code.toNat < 8) →
        ∃ t x, takeException e s = .next t ∧ CodeItem v code x ∧
          LeftV86 (s.noting e) s1 t g c d sel image s.instrEip [x]))) ∧
  (∀ s : State, s.Inv → s.protectedMode = true → s.Plain → s.currentCpl = 0 → s.osz = .b32 →
    s.eflags.nt = false → s.segOk .ss s.sp 36 false = true →
    ∀ item : Nat → Dword, (∀ k, item k = leDword (s.operandBytes .ss (s.sp + BitVec.ofNat 32 (4 * k)) 4)) →
    (item 2).getLsbD 17 = true →
    ∃ t, exec .iret s = .next t ∧ t.regs = { s.regs with esp := item 3 } ∧ t.eflags = Eflags.ofWord (item 2) ∧
      t.eip = item 0 &&& 0xFFFF ∧
      (∀ p ∈ [(SReg.cs, 1), (.ss, 4), (.es, 5), (.ds, 6), (.fs, 7), (.gs, 8)],
        t.seg p.1 = { selector := (item p.2).setWidth 16, base := ((item p.2).setWidth 16).setWidth 32 <<< 4,
                      limit := 0xFFFF, valid := true, dpl := 3, type := 3, db := false }) ∧
      t.currentCpl = 3 ∧ t.nmiInService = false ∧ NoStore s t ∧
      ({ t with es := s.es, cs := s.cs, ss := s.ss, ds := s.ds, fs := s.fs, gs := s.gs, eip := s.eip, cpl := s.cpl,
                eipOver := s.eipOver, nmiInService := s.nmiInService } : State).putBack s = s ∧
      t.pfx = Prefixes.none ∧ t.shadow = .none)

/-- BOUND: nothing happens for an index that lies, as a signed value, between the two bounds, which are two operands,
the second one operand size further (its offset modulo 2^32: log 39, an inference); another one raises exception 5.
Rests in part on text that the spec marks "[from general knowledge, not in source]". -/
def Obligations.Bound : Prop :=
  ∀ (s s1 s2 s3 : State) (reg : Reg) (m : MemOp) (sr : SReg) (off lo hi : Dword) (sz : Size), s.Inv → sz = s.osz →
    effectiveAddress m s = .ok (sr, off) s1 → memRead sr off sz s1 = .ok lo s2 →
    memRead sr (off + BitVec.ofNat 32 sz.bytes) sz s2 = .ok hi s3 →
    (signedVal sz lo ≤ signedVal sz (s.reg sz reg) ∧ signedVal sz (s.reg sz reg) ≤ signedVal sz hi →
      Gives (.bound reg m) s s.regs (fun _ => s.eflags) s) ∧
    (signedVal sz (s.reg sz reg) < signedVal sz lo ∨ signedVal sz hi < signedVal sz (s.reg sz reg) →
      exec (.bound reg m) s = takeException Exn.br { s with draws := s3.draws, deviceBus := s3.deviceBus })

/-- IRET, with paging off, in Real Mode, in Virtual 8086 Mode with IOPL = 3, and in Protected Mode with NT = 0 to the
same or an outer level: EIP, CS and the flags are popped; IF needs CPL ≤ IOPL and IOPL needs CPL 0, VM stays, RF is
loaded by the 32-bit form only; NMI is no longer in service. To an outer level SS and ESP are popped too, ESP whole by
the 32-bit form, and the data segment registers that the outer level may not use become null. In Protected Mode the
Accessed bits of the descriptors loaded are set (log 44, the model's choice). The model's choices are also how the items
are addressed on a 16-bit stack (log 49), what the upper half of ESP becomes on a 32-bit outer stack with osz = 16 (log
55), and that a data segment register that is not valid keeps its selector (log 61). Rests in part on text that the spec
marks "[from general knowledge, not in source]". -/
def Obligations.InterruptReturn : Prop :=
  ∀ (s : State) (sel : Word), s.Inv → s.Plain →
    (s.protectedMode = false → (s.v86 = true → s.eflags.iopl = 3) → (∀ i, i < 3 → s.itemOk s.osz i) →
      (s.stackItem s.osz 0).toNat ≤ 0xFFFF → sel = (s.stackItem s.osz 1).setWidth 16 →
      ∃ t, exec .iret s = .next t ∧ t.regs = s.regsPopped (3 * s.osz.bytes) ∧
        t.eflags = s.flagsFrom (s.stackItem s.osz 2)
          (if s.osz = .b32 then (s.stackItem s.osz 2).getLsbD 16 else s.eflags.rf) ∧
        t.putBack s = { s.load8086 .cs sel with eip := s.stackItem s.osz 0, eipOver := false, nmiInService := false } ∧
        t.pfx = Prefixes.none ∧ t.shadow = .none ∧ NoStore s t) ∧
    (∀ (d : Descriptor) (item : Nat → Dword), s.protectedMode = true → s.eflags.nt = false →
      s.segOk .ss s.sp (3 * s.osz.bytes) false = true →
      (∀ k, item k = leDword (s.operandBytes .ss (s.sp + BitVec.ofNat 32 (s.osz.bytes * k)) s.osz.bytes)) →
      ¬(s.osz = .b32 ∧ (item 2).getLsbD 17 = true ∧ s.currentCpl = 0) →
      sel = (item 1).setWidth 16 → CodeTarget s sel d (item 0) →
      (if d.isConforming then d.dpl ≤ rpl sel else d.dpl = rpl sel) →
      (rpl sel = s.currentCpl →
        ∃ t, exec .iret s = .next t ∧ t.regs = s.regsPopped (3 * s.osz.bytes) ∧
          t.eflags = s.flagsFrom (item 2) (if s.osz = .b32 then (item 2).getLsbD 16 else s.eflags.rf) ∧
          t.putBack s = { s.inCode sel d (item 0) with nmiInService := false } ∧
          t.pfx = Prefixes.none ∧ t.shadow = .none ∧ Marked s t (s.marks [(sel, d)])) ∧
      (s.currentCpl < rpl sel → s.segOk .ss s.sp (5 * s.osz.bytes) false = true →
        ∀ (ss : Word) (sd : Descriptor), ss = (item 4).setWidth 16 → StackTarget s (rpl sel) ss sd →
          ∃ t, exec .iret s = .next t ∧
            t.regs = s.regs.write (if s.osz = .b32 then .b32 else (s.outside sel d (item 0) ss sd).stackSize) .esp (item 3) ∧
            t.eflags = s.flagsFrom (item 2) (if s.osz = .b32 then (item 2).getLsbD 16 else s.eflags.rf) ∧
            t.putBack s = { s.outside sel d (item 0) ss sd with nmiInService := false } ∧
            t.pfx = Prefixes.none ∧ t.shadow = .none ∧ Marked s t (s.marks [(sel, d), (ss, sd)])))

/-- How debug traps come to pend, with paging off: MOV from or to a memory operand, by the data breakpoints that cover
it (those with R/W or LEN = 10, which the spec calls undefined, apart), and with TF = 1 by single step; NOP by single
step. What takes the place of the next instruction, after the prefetch (60_exceptions.md, boundaries): while HOLD is
asserted nothing happens (log 54); else, where no coprocessor transfer is asked for, which comes first (log 24;
Obligations.ProcessorControl), debug traps that pend, then in a running machine an instruction breakpoint unless RF is
set, then NMI unless one is in service, then INTR with IF = 1; each but a single STI or load of SS before it permitting.
A halted machine that none of them wakes stays as it is; that a debug trap can wake it is log 43. A shut down machine
heeds NMI only, whose delivery ends the shutdown unless it raises an exception. The order, the idle steps of a halted
machine, what a failed delivery in shutdown leaves, and the EIP of the next instruction that a fault in the delivery of
a debug trap saves are in part the model's choice (logs 21, 25), and so is that an interrupt inhibit that is still on
ends when a handler is entered (log 56). An exception that the delivery of an event raises is delivered in its place,
its EXT bit being that of the event (log 23, an inference); where both are of the classes of 60_exceptions.md, double
fault, that is vector 8 with error code 0, and what goes wrong in delivering vector 8 shuts the machine down with its
bus cycle. Rests in part on text that the spec marks "[from general knowledge, not in source]". -/
def Obligations.Boundary : Prop :=
  (∀ (s s1 : State) (w : Width) (reg : Reg) (m : MemOp) (sr : SReg) (off l : Dword) (sz : Size), s.Inv →
    s.Plain → sz = s.wsz w → effectiveAddress m s = .ok (sr, off) s1 → l = (s.seg sr).base + off →
    ∀ p ∈ [(Instr.movRegRm w reg (.mem m), false), (.movRmReg w reg (.mem m), true)],
      s.segOk sr off sz.bytes p.2 = true →
      ∃ t, exec p.1 s = .next t ∧ t.pendingDb.getLsbD 14 = (s.pendingDb.getLsbD 14 || s.eflags.tf) ∧
        ∀ k, k < 4 → s.dr7.extractLsb' (16 + 4 * k) 2 ≠ 2 → s.dr7.extractLsb' (18 + 4 * k) 2 ≠ 2 →
          (t.pendingDb.getLsbD k = true ↔ s.pendingDb.getLsbD k = true ∨ s.Watches k p.2 l sz.bytes)) ∧
  (∀ s : State, ∃ t, exec .nop s = .next t ∧ t.pendingDb = s.pendingDb ||| (if s.eflags.tf then 0x4000 else 0)) ∧
  (∀ r s : State, r.pins.reset = false → prefetch r = .ok () s →
    (s.pins.hold = true → step r = .next s) ∧
    (s.pins.hold = false → s.pfx.count = 0 → s.copDue = false →
      (s.runState ≠ .shutdown → s.pendingDb ≠ 0 → s.shadow ≠ .ss →
        step r = takeException (Exn.dbTrap s.pendingDb) { s with instrEip := s.eip, pendingDb := 0 }) ∧
      (s.runState = .running → s.pendingDb = 0 → s.shadow ≠ .ss → s.eflags.rf = false → (∃ k, k < 4 ∧ s.Breaks k) →
        ∃ bits : Dword, (∀ k, bits.getLsbD k = true ↔ k < 4 ∧ s.Breaks k) ∧
          step r = takeException (Exn.dbTrap bits) { s with instrEip := s.eip }) ∧
      (s.runState ≠ .shutdown → s.pendingDb = 0 →
        (s.runState = .running → (s.eflags.rf = true ∨ ∀ k, k < 4 → ¬s.Breaks k) ∧ s.dr7.getLsbD 13 = false) →
        (s.nmiPending = true → s.nmiInService = false → s.shadow ≠ .ss →
          step r = deliverEvent (hardwareEvent 2 s.eip)
            { s with instrEip := s.eip, nmiPending := false, nmiInService := true }) ∧
        (s.nmiPending = false ∨ s.nmiInService = true ∨ s.shadow = .ss →
          (s.pins.intr = true → s.eflags.ifl = true → s.shadow = .none →
            step r = deliverEvent (hardwareEvent s.pins.intVector s.eip)
              { s with instrEip := s.eip, bus := .intAck 0 :: .intAck 4 :: s.bus }) ∧
          (s.pins.intr = false ∨ s.eflags.ifl = false ∨ s.shadow ≠ .none → s.runState = .halted → step r = .next s))) ∧
      (s.runState = .shutdown →
        (s.nmiPending = false ∨ s.nmiInService = true ∨ s.shadow = .ss → step r = .next s) ∧
        (s.nmiPending = true → s.nmiInService = false → s.shadow ≠ .ss →
          (∀ u, deliver (hardwareEvent 2 s.eip)
              { s with instrEip := s.eip, nmiPending := false, nmiInService := true } = .ok () u →
            step r = .next { u with runState := .running, pfx := Prefixes.none, shadow := .none }) ∧
          (∀ e k u, deliver (hardwareEvent 2 s.eip)
              { s with instrEip := s.eip, nmiPending := false, nmiInService := true } = .error (.exn e k) u →
            step r = .next (({ s with nmiPending := false, draws := u.draws, deviceBus := u.deviceBus } : State).noting e)))))) ∧
  ∀ (s u b : State) (ev df : Event) (e : Exn) (double : Prop), deliver ev s = .error (.exn e .nothing) u →
    b = ({ s with draws := u.draws, bus := u.bus, deviceBus := u.deviceBus } : State).noting e →
    df = { vector := 8, errorCode := some 0, software := false, ext := ev.ext, savedEip := s.instrEip, rfImage := false,
           exception := true } →
    (double ↔ e.vector = 8 ∨ ev.exception = true ∧
      ((ev.vector ∈ ([0, 9, 10, 11, 12, 13] : List Byte) ∧ e.vector ∈ ([0, 9, 10, 11, 12, 13] : List Byte)) ∨
        (ev.vector = 14 ∧ e.vector ∈ ([0, 9, 10, 11, 12, 13, 14] : List Byte)))) →
    (ev.exception = true ∧ ev.vector = 8 →
      deliverEvent ev s =
        .next { b with runState := .shutdown, pfx := Prefixes.none, shadow := .none, bus := .shutdown :: b.bus }) ∧
    (¬(ev.exception = true ∧ ev.vector = 8) → double →
      (∀ t, deliver df b = .ok () t →
        deliverEvent ev s = .next { t with runState := .running, pfx := Prefixes.none, shadow := .none }) ∧
      (∀ e2 k t, deliver df b = .error (.exn e2 k) t →
        ∃ v, deliverEvent ev s = .next v ∧ v.runState = .shutdown ∧ v.bus.head? = some .shutdown)) ∧
    (¬(ev.exception = true ∧ ev.vector = 8) → ¬double →
      ∀ t, deliver { vector := e.vector, errorCode := e.errorCode, software := false, ext := ev.ext, savedEip := s.instrEip,
                     rfImage := e.rfImage, exception := true } b = .ok () t →
        deliverEvent ev s = .next { t with runState := .running, pfx := Prefixes.none, shadow := .none })

/-! Processor and protection control (47_processor_control.md, 48_protection_control.md). -/

/-- MOV to and from the control, debug and test registers at CPL 0: the register takes the value, its reserved bits
apart, and gives it back, the reserved bits undefined; the six arithmetic flags are undefined. CR3 keeps bits 31:12 and
its load empties the TLB; CR0 refuses PG = 1 with PE = 0. With DR7.GD = 1 every move of a debug register raises
exception 1 with DR6.BD, right after MOV SS or POP SS too, where the spec both inhibits debug exceptions and delivers
the instruction's own faults: the model's choice (log 22). TR6 and TR7 are plain storage by the spec's decision D14 (log
14). Rests in part on text that the spec marks "[from general knowledge, not in source]". -/
def Obligations.SpecialRegisterMoves : Prop :=
  ∀ (s : State) (r : Reg) (v : Dword), s.Inv → v = s.regs.get r → s.currentCpl = 0 →
    (v.getLsbD 31 = true → v.getLsbD 0 = false → exec (.movCr0Reg r) s = takeException (Exn.gp 0) s) ∧
    (v.getLsbD 31 = false ∨ v.getLsbD 0 = true →
      Gives (.movCr0Reg r) s s.regs (fun u => s.eflags.arithmeticOf u)
        { s with cr0 := { pe := v.getLsbD 0, mp := v.getLsbD 1, em := v.getLsbD 2, ts := v.getLsbD 3, et := v.getLsbD 4,
                          pg := v.getLsbD 31 } }) ∧
    (∀ p ∈ [(Instr.movCr2Reg r, { s with cr2 := v }), (.movCr3Reg r, { s with cr3 := v.extractLsb' 12 20 }),
        (.movTr6Reg r, { s with tr6 := v }), (.movTr7Reg r, { s with tr7 := v })],
      Gives p.1 s s.regs (fun u => s.eflags.arithmeticOf u) p.2) ∧
    (∀ t, exec (.movCr3Reg r) s = .next t → t.tlb = []) ∧
    (∀ p ∈ [(Instr.movRegCr0 r, (0x8000001F : Dword), (bitAt s.cr0.pe 0 ||| bitAt s.cr0.mp 1 ||| bitAt s.cr0.em 2 |||
          bitAt s.cr0.ts 3 ||| bitAt s.cr0.et 4 ||| bitAt s.cr0.pg 31)),
        (.movRegCr2 r, 0xFFFFFFFF, s.cr2), (.movRegCr3 r, 0xFFFFF000, s.cr3.setWidth 32 <<< 12),
        (.movRegTr6 r, 0xFFFFFFFF, s.tr6), (.movRegTr7 r, 0xFFFFFFFF, s.tr7)],
      ∃ x, x &&& p.2.1 = p.2.2 ∧ Gives p.1 s (s.regs.set r x) (fun u => s.eflags.arithmeticOf u) s) ∧
    (s.dr7.getLsbD 13 = false →
      (∀ p ∈ [(Instr.movDr0Reg r, { s with dr0 := v }), (.movDr1Reg r, { s with dr1 := v }),
          (.movDr2Reg r, { s with dr2 := v }), (.movDr3Reg r, { s with dr3 := v }),
          (.movDr6Reg r, { s with dr6 := v &&& 0x0000E00F }), (.movDr7Reg r, { s with dr7 := v &&& 0xFFFF23FF })],
        Gives p.1 s s.regs (fun u => s.eflags.arithmeticOf u) p.2) ∧
      (∀ p ∈ [(Instr.movRegDr0 r, (0xFFFFFFFF : Dword), s.dr0), (.movRegDr1 r, 0xFFFFFFFF, s.dr1),
          (.movRegDr2 r, 0xFFFFFFFF, s.dr2), (.movRegDr3 r, 0xFFFFFFFF, s.dr3), (.movRegDr6 r, 0x0000E00F, s.dr6),
          (.movRegDr7 r, 0xFFFF23FF, s.dr7)],
        ∃ x, x &&& p.2.1 = p.2.2 ∧ Gives p.1 s (s.regs.set r x) (fun u => s.eflags.arithmeticOf u) s)) ∧
    (s.dr7.getLsbD 13 = true →
      ∀ i ∈ [Instr.movDr0Reg r, .movDr1Reg r, .movDr2Reg r, .movDr3Reg r, .movDr6Reg r, .movDr7Reg r, .movRegDr0 r,
          .movRegDr1 r, .movRegDr2 r, .movRegDr3 r, .movRegDr6 r, .movRegDr7 r],
        exec i s = takeException { vector := 1, errorCode := none, cr2 := none, dr6 := 0x2000, rfImage := true } s)

/-- The privilege checks. Outside CPL 0 the privileged instructions take #GP(0); in Virtual 8086 Mode with IOPL below 3
INT n, IRET, PUSHF and POPF do; outside Protected Mode the instructions that need it take exception 6. Rests in part on
text that the spec marks "[from general knowledge, not in source]". -/
def Obligations.PrivilegeChecks : Prop :=
  ∀ (s : State) (r : Reg) (m : MemOp) (rm : RM) (n : BitVec 8),
    (s.currentCpl ≠ 0 →
      ∀ i ∈ [Instr.clts, .hlt, .lgdt m, .lidt m, .lmsw rm, .movCr0Reg r, .movCr2Reg r, .movCr3Reg r, .movRegCr0 r,
          .movRegCr2 r, .movRegCr3 r, .movTr6Reg r, .movTr7Reg r, .movRegTr6 r, .movRegTr7 r],
        exec i s = takeException (Exn.gp 0) s) ∧
    (s.currentCpl ≠ 0 → s.dr7.getLsbD 13 = false →
      ∀ i ∈ [Instr.movDr0Reg r, .movDr1Reg r, .movDr2Reg r, .movDr3Reg r, .movDr6Reg r, .movDr7Reg r, .movRegDr0 r,
          .movRegDr1 r, .movRegDr2 r, .movRegDr3 r, .movRegDr6 r, .movRegDr7 r],
        exec i s = takeException (Exn.gp 0) s) ∧
    (s.protectedMode = true → s.currentCpl ≠ 0 →
      ∀ i ∈ [Instr.lldt rm, .ltr rm], exec i s = takeException (Exn.gp 0) s) ∧
    (s.v86 = true → s.eflags.iopl ≠ 3 →
      ∀ i ∈ [Instr.intN n, .iret, .pushf, .popf], exec i s = takeException (Exn.gp 0) s) ∧
    (s.protectedMode = false →
      ∀ i ∈ [Instr.arpl r rm, .lar r rm, .lsl r rm, .verr rm, .verw rm, .lldt rm, .ltr rm, .sldt rm, .str rm],
        exec i s = takeException Exn.ud s)

/-- NOP does nothing; HLT at CPL 0 halts the machine with its bus cycle. WAIT goes on when BUSY# and ERROR# are not
asserted, is tried again while BUSY# is, an interrupt inhibit lasting (log 47), and raises exception 16 for ERROR#, or 7
with MP and TS set. ESC raises exception 7 with EM or TS set and exception 12 or 13 for an operand that fails its
segment check; it waits for BUSY#, but for FNINIT and FNCLEX, and raises exception 16 for ERROR#, but for FNINIT,
FNCLEX, FSTSW, FSTCW, FSTENV and FSAVE (log 24); else the opcode is written to port 800000F8H and the bytes that the
coprocessor asks for with PEREQ are moved through port 800000FCH, 2 or 4 at a time by CR0.ET, each cycle there being of
that width. Through SS the first transfer is checked beforehand, and a later one past the limit is exception 9, which
ends the transfers (log 24, the model's choice). With no coprocessor the stores of the presence test, FSTSW AX among
them, take what the bus returns, and any other opcode with a memory operand waits for PEREQ for ever, the model's fault
noPereq (93_implementation_defined.md U12; which opcodes wait is an inference, log 24). What the coprocessor asks for
after that is moved between later instructions of a running machine (70_reset_and_hazards.md R782): the instruction that
is due waits and nothing else changes, and a transfer past the limit is exception 9 there too, at that instruction; when
that comes and which segment it goes through is the model's choice (log 24). Operands of ESC with paging off. What the
coprocessor asks for is set by the environment (log 24). Rests in part on text that the spec marks "[from general
knowledge, not in source]". -/
def Obligations.ProcessorControl : Prop :=
  (∀ s : State, s.Inv →
    Gives .nop s s.regs (fun _ => s.eflags) s ∧
    (s.currentCpl = 0 → Gives .hlt s s.regs (fun _ => s.eflags) { s with runState := .halted, bus := .halt :: s.bus }) ∧
    (s.cr0.mp = true → s.cr0.ts = true → exec .wait s = takeException Exn.nm s) ∧
    (s.cr0.mp = false ∨ s.cr0.ts = false →
      (s.pins.busy = true → exec .wait s = .next { s with eip := s.instrEip, eipOver := false, pfx := Prefixes.none }) ∧
      (s.pins.busy = false → s.pins.error = true → exec .wait s = takeException Exn.mf s) ∧
      (s.pins.busy = false → s.pins.error = false → Gives .wait s s.regs (fun _ => s.eflags) s)) ∧
    ∀ ttt lll rm, s.cr0.em = true ∨ s.cr0.ts = true → exec (.esc ttt lll rm) s = takeException Exn.nm s) ∧
  ∀ (s s1 u : State) (ttt lll : BitVec 3) (rm : RM) (l : Loc) (op : Word) (stores exempt : Bool) (r : CopRequest)
    (unit : Nat), s.Inv → s.cr0.em = false → s.cr0.ts = false → s.Plain → resolve rm s = .ok l s1 →
    op = ((encode (.esc ttt lll rm)).getD 1 0) ++ ((encode (.esc ttt lll rm)).getD 0 0) →
    (stores = true ↔ op = 0xE0DF ∨ (∃ m, rm = .mem m) ∧ (ttt = 5 ∨ ttt = 1) ∧ lll = 7) →
    (exempt = true ↔ op = 0xE3DB ∨ op = 0xE2DB ∨ stores = true ∨ (∃ m, rm = .mem m) ∧ (ttt = 5 ∨ ttt = 1) ∧ lll = 6) →
    r = (if s.params.coprocessor = .none then
        (if stores then { toMemory := true, count := 2, data := [] } else CopRequest.none)
      else if s.pins.pereq then s.copRequest else CopRequest.none) →
    unit = (if s.cr0.et then 4 else 2) →
    u = { s with
          copOpcode := op
          copOperand := (match l with
            | .reg _ => none
            | .mem sr off => some { seg := sr, off := off, cache := s.seg sr, rights := s.cr0.pe, user := s.isUser,
                                    moved := r.count, live := true })
          bus := .coprocessorOpcode op s.cr0.et :: s.bus } →
    (∀ sr off, l = .mem sr off →
      s.segOk sr off (max 1 (if sr = .ss then min unit r.count else r.count)) r.toMemory = false →
      exec (.esc ttt lll rm) s =
        takeException (if sr = .ss then Exn.ss 0 else Exn.gp 0) { s with draws := s1.draws }) ∧
    ((∀ sr off, l = .mem sr off →
        s.segOk sr off (max 1 (if sr = .ss then min unit r.count else r.count)) r.toMemory = true) →
      (s.pins.busy = true → op ≠ 0xE3DB → op ≠ 0xE2DB →
        ∃ t, exec (.esc ttt lll rm) s = .next t ∧ t.regs = s.regs ∧ t.eflags = s.eflags ∧
          t.putBack s = { s with eip := s.instrEip, eipOver := false } ∧ t.pfx = Prefixes.none ∧ t.shadow = s.shadow ∧
          NoStore s t) ∧
      (s.pins.busy = false ∨ op = 0xE3DB ∨ op = 0xE2DB →
        (s.pins.error = true → exempt = false → exec (.esc ttt lll rm) s = takeException Exn.mf { s with draws := s1.draws }) ∧
        (s.pins.error = false ∨ exempt = true →
          (s.params.coprocessor = .none → (∃ m, rm = .mem m) → stores = false →
            exec (.esc ttt lll rm) s = .fault (.noPereq { u with draws := s1.draws })) ∧
          ((s.params.coprocessor = .none → (∃ m, rm = .mem m) → stores = true) →
            r.count = 0 ∨ (∃ reg, l = .reg reg) ∧ (op ≠ 0xE0DF ∨ r.toMemory = false) →
            Gives (.esc ttt lll rm) s s.regs (fun _ => s.eflags) u) ∧
          (op = 0xE0DF → r.count ≠ 0 → r.toMemory = true →
            ∃ t v, exec (.esc ttt lll rm) s = .next t ∧
              Ends s t (s.regs.write .b16 .eax v) s.eflags { u with bus := .coprocessorRead unit :: u.bus } ∧ NoStore s t ∧
              ∀ k b, k < 2 → r.data[k]? = some b → v.extractLsb' (8 * k) 8 = b) ∧
          (∀ sr off, l = .mem sr off → 1 ≤ r.count → r.count ≤ 2 ^ 32 →
            ((∀ k, k < r.count → k % unit = 0 →
                s.segOk sr (off + BitVec.ofNat 32 k) (min unit (r.count - k)) r.toMemory = true) →
              (r.toMemory = true →
                ∃ t bs, exec (.esc ttt lll rm) s = .next t ∧ bs.length = r.count ∧
                  (∀ k b, k < r.count → r.data[k]? = some b → bs[k]? = some b) ∧
                  Ends s t s.regs s.eflags
                    { u with bus := List.replicate ((r.count + unit - 1) / unit) (.coprocessorRead unit) ++ u.bus } ∧
                  Stores s t (linearRange (s.linear sr off) r.count) bs) ∧
              (r.toMemory = false →
                ∃ pad : List Byte, pad.length = unit * ((r.count + unit - 1) / unit) - r.count ∧
                  Gives (.esc ttt lll rm) s s.regs (fun _ => s.eflags)
                    { u with bus := ((List.range ((r.count + unit - 1) / unit)).map
                        fun j => BusCycle.coprocessorWrite (((s.operandBytes sr off r.count ++ pad).drop (unit * j)).take
                          unit)).reverse ++ u.bus })) ∧
            (s.segOk sr off (min unit r.count) r.toMemory = true →
              ∀ k, k < r.count → k % unit = 0 →
                (∀ j, j < k → j % unit = 0 → s.segOk sr (off + BitVec.ofNat 32 j) (min unit (r.count - j)) r.toMemory = true) →
                s.segOk sr (off + BitVec.ofNat 32 k) (min unit (r.count - k)) r.toMemory = false →
                ∃ t, exec (.esc ttt lll rm) s =
                    takeException { vector := 9, errorCode := none, cr2 := none, dr6 := 0, rfImage := false } t ∧
                  t.regs = s.regs ∧ t.eflags = s.eflags ∧ t.copOpcode = op ∧
                  t.copOperand = some { seg := sr, off := off, cache := s.seg sr, rights := s.cr0.pe, user := s.isUser,
                                        moved := k, live := false } ∧
                  ({ t with copOpcode := s.copOpcode, copOperand := s.copOperand, bus := s.bus } : State).putBack s = s))))) ∧
  ∀ (z s : State) (o : CopOperand) (r : CopRequest) (unit n : Nat), s.Inv → s.Plain → z.pins.reset = false →
    prefetch z = .ok () s → s.pins.hold = false → s.pfx.count = 0 → s.runState = .running → s.params.coprocessor ≠ .none →
    s.pins.pereq = true → s.copOperand = some o → o.live = true → r = s.copRequest → o.moved + n = r.count → 1 ≤ n →
    r.count ≤ 2 ^ 32 → unit = (if s.cr0.et then 4 else 2) →
    ((∀ k, k < n → k % unit = 0 → o.fits (o.moved + k) (min unit (n - k)) r.toMemory = true) →
      (r.toMemory = true →
        ∃ t bs, step z = .next t ∧ bs.length = n ∧
          (∀ k b, k < n → r.data[o.moved + k]? = some b → bs[k]? = some b) ∧
          t.regs = s.regs ∧ t.eflags = s.eflags ∧ t.pfx = s.pfx ∧ t.shadow = s.shadow ∧
          t.putBack s = { s with
            instrEip := s.eip, copOperand := some { o with moved := r.count }
            bus := List.replicate ((n + unit - 1) / unit) (.coprocessorRead unit) ++ s.bus } ∧
          Stores s t (linearRange (o.linear o.moved) n) bs) ∧
      (r.toMemory = false →
        ∃ (t : State) (pad : List Byte), step z = .next t ∧ pad.length = unit * ((n + unit - 1) / unit) - n ∧
          t.regs = s.regs ∧ t.eflags = s.eflags ∧ t.pfx = s.pfx ∧ t.shadow = s.shadow ∧
          t.putBack s = { s with
            instrEip := s.eip, copOperand := some { o with moved := r.count }
            bus := ((List.range ((n + unit - 1) / unit)).map fun j => BusCycle.coprocessorWrite
              (((((linearRange (o.linear o.moved) n).map s.readByte) ++ pad).drop (unit * j)).take unit)).reverse ++ s.bus } ∧
          NoStore s t)) ∧
    ∀ k, k < n → k % unit = 0 →
      (∀ j, j < k → j % unit = 0 → o.fits (o.moved + j) (min unit (n - j)) r.toMemory = true) →
      o.fits (o.moved + k) (min unit (n - k)) r.toMemory = false →
      ∃ t, step z = takeException { vector := 9, errorCode := none, cr2 := none, dr6 := 0, rfImage := false } t ∧
        t.regs = s.regs ∧ t.eflags = s.eflags ∧ t.instrEip = s.eip ∧
        t.copOperand = some { o with moved := o.moved + k, live := false } ∧
        ({ t with instrEip := s.instrEip, copOperand := s.copOperand, bus := s.bus } : State).putBack s = s

/-- LGDT and LIDT at CPL 0 load a limit of 16 bits and a base of 32, or of 24 with a 16-bit operand size; SGDT and SIDT
store them, the last byte being undefined with a 16-bit operand size. Rests in part on text that the spec marks "[from
general knowledge, not in source]". -/
def Obligations.TableRegisters : Prop :=
  ∀ (s s1 s2 s3 : State) (m : MemOp) (sr : SReg) (off lim base u : Dword), s.Inv →
    effectiveAddress m s = .ok (sr, off) s1 →
    (s.currentCpl = 0 → s1.segOk sr off 6 false = true → memRead sr off .b16 s1 = .ok lim s2 →
      memRead sr (off + 2) .b32 s2 = .ok base s3 →
      ∀ r : TableReg, r = { limit := lim.setWidth 16, base := if s.osz = .b32 then base else base &&& 0x00FFFFFF } →
        Gives (.lgdt m) s s.regs (fun _ => s.eflags) { s with gdtr := r } ∧
        Gives (.lidt m) s s.regs (fun _ => s.eflags) { s with idtr := r }) ∧
    (s1.segOk sr off 6 true = true → freeDword s1 = .ok u s2 →
      ∀ p ∈ [(Instr.sgdt m, s.gdtr), (.sidt m, s.idtr)], ∀ bs : List Byte,
        bs = leBytes 2 (p.2.limit.setWidth 32) ++ leBytes 3 p.2.base ++
          [if s.osz = .b32 then p.2.base.extractLsb' 24 8 else u.extractLsb' 24 8] →
        writeLinear s.isUser (s.linear sr off) bs s2 = .ok () s3 →
        ∃ t, exec p.1 s = .next t ∧ Ends s t s.regs s.eflags s ∧ StoresAt s s2 t sr off bs)

/-- LLDT and LTR at CPL 0 in Protected Mode, with paging off: the selector names a present LDT, or a present available
TSS, in the GDT; the register takes it with its descriptor, and LTR marks the descriptor busy. A null selector leaves
LDTR unusable and makes LTR raise #GP(0). LMSW at CPL 0 loads TS, EM, MP and sets but cannot clear PE. Rests in part on
text that the spec marks "[from general knowledge, not in source]". -/
def Obligations.TaskRegisters : Prop :=
  ∀ (s s1 : State) (rm : RM) (v : Dword) (sel : Word) (d : Descriptor), s.Inv → s.currentCpl = 0 →
    readRm .b16 rm s = .ok v s1 → sel = v.setWidth 16 →
    Gives (.lmsw rm) s s.regs (fun _ => s.eflags)
      { s with cr0 := { s.cr0 with pe := s.cr0.pe || v.getLsbD 0, mp := v.getLsbD 1, em := v.getLsbD 2,
                                   ts := v.getLsbD 3 } } ∧
    (s.protectedMode = true → s.Plain →
      (isNull sel = true →
        Gives (.lldt rm) s s.regs (fun _ => s.eflags) { s with ldtr := { s.ldtr with selector := sel, valid := false } } ∧
        exec (.ltr rm) s = takeException (Exn.gp 0) { s with draws := s1.draws }) ∧
      (isNull sel = false → inLdt sel = true ∨ s.inTable sel = false →
        exec (.lldt rm) s = takeException (Exn.gp (sel &&& 0xFFFC)) { s with draws := s1.draws } ∧
        exec (.ltr rm) s = takeException (Exn.gp (sel &&& 0xFFFC)) { s with draws := s1.draws }) ∧
      (isNull sel = false → inLdt sel = false → s.inTable sel = true → d = s.descriptorIn (s.descriptorAt sel) →
        d.present = true →
        (d.isSystem 2 = true → Gives (.lldt rm) s s.regs (fun _ => s.eflags) { s with ldtr := d.cache sel }) ∧
        (d.isSystem 1 = true ∨ d.isSystem 9 = true →
          ∃ t, exec (.ltr rm) s = .next t ∧ Ends s t s.regs s.eflags { s with tr := d.cache sel } ∧
            t.readByte (s.descriptorAt sel + 5) =
              s.stored (s.descriptorAt sel + 5) (s.readByte (s.descriptorAt sel + 5) ||| 2) ∧
            ∀ p, p ≠ s.descriptorAt sel + 5 → t.readByte p = s.readByte p)))

/-- ARPL, LAR, LSL, VERR and VERW in Protected Mode (the last four with paging off): ZF says whether the selector's RPL
was raised, or whether the selector names a descriptor of an accepted type that CPL and RPL may use; then LAR gives its
access rights and LSL its limit. No other flag changes. That ARPL checks its right to write only where it writes is the
model's choice (log 37). Rests in part on text that the spec marks "[from general knowledge, not in source]". -/
def Obligations.SelectorProbes : Prop :=
  ∀ (s s1 s2 s3 : State) (rm : RM) (reg : Reg) (l : Loc) (v : Dword) (sel : Word) (d : Descriptor)
    (named system4 usable : Bool), s.Inv → s.protectedMode = true →
    (resolve rm s = .ok l s1 → readLoc .b16 l s1 = .ok v s2 →
      (v.extractLsb' 0 2 < (s.reg .b16 reg).extractLsb' 0 2 →
        ∀ x : Dword, x = (v &&& 0xFFFC) ||| (s.reg .b16 reg &&& 3) → writeLoc .b16 l x s2 = .ok () s3 →
          Puts (.arpl reg rm) s s2 l .b16 x fun _ => { s.eflags with zf := true }) ∧
      (¬v.extractLsb' 0 2 < (s.reg .b16 reg).extractLsb' 0 2 →
        Gives (.arpl reg rm) s s.regs (fun _ => { s.eflags with zf := false }) s)) ∧
    (s.Plain → readRm .b16 rm s = .ok v s1 → sel = v.setWidth 16 →
      named = (!isNull sel && s.inTable sel) → d = s.descriptorIn (s.descriptorAt sel) →
      system4 = (d.isSystem 1 || d.isSystem 2 || d.isSystem 3 || d.isSystem 9 || d.isSystem 11) →
      usable = (d.isConforming || (decide (s.currentCpl ≤ d.dpl) && decide (rpl sel ≤ d.dpl))) →
      Gives (.verr rm) s s.regs
        (fun _ => { s.eflags with zf := named && (d.isData || d.isReadableCode) && usable }) s ∧
      Gives (.verw rm) s s.regs (fun _ => { s.eflags with zf := named && d.isWritableData && usable }) s ∧
      (∀ ok : Bool, ok = (named && (d.isSegment || system4 || d.isSystem 4 || d.isSystem 5 || d.isSystem 12) && usable) →
        Gives (.lar reg rm) s (if ok then s.regs.write s.osz reg (d.hi &&& 0x00F0FF00) else s.regs)
          (fun _ => { s.eflags with zf := ok }) s) ∧
      (∀ ok : Bool, ok = (named && (d.isSegment || system4) && usable) →
        Gives (.lsl reg rm) s (if ok then s.regs.write s.osz reg d.limit else s.regs)
          (fun _ => { s.eflags with zf := ok }) s))
end

