-- ==== Sys2Proof/Laws/Memory.lean ====
section
/-! SUPPORT. Physical memory: reads after writes, and the canonical form that every operation keeps. -/

namespace Sys2Proof.Machine

/-! Reads after writes. -/

theorem Memory.read_of_wfFrom_lt {m : List Host.Cell} {lo a : Nat} (h : Memory.wfFrom lo m = true) (ha : a < lo) :
    Memory.read m a = Memory.unlisted := by
  cases m with
  | nil => rfl
  | cons c rest =>
    obtain ⟨k, v⟩ := c
    simp only [Memory.wfFrom, Bool.and_eq_true, decide_eq_true_eq] at h
    simp only [Memory.read]
    rw [if_neg (by omega), if_pos (by omega)]

/-- The byte written is the byte read. -/
theorem Memory.read_write_same {m : List Host.Cell} (lo : Nat) (h : Memory.wfFrom lo m = true) (a : Nat) (v : Byte) :
    Memory.read (Memory.write m a v) a = v := by
  induction m generalizing lo with
  | nil => by_cases hv : v = Memory.unlisted <;> simp [Memory.write, Memory.read, hv]
  | cons c rest ih =>
    obtain ⟨k, w⟩ := c
    simp only [Memory.wfFrom, Bool.and_eq_true, decide_eq_true_eq] at h
    obtain ⟨⟨⟨-, -⟩, -⟩, hr⟩ := h
    unfold Memory.write
    split_ifs with h1 hv h2 hv
    · simp [Memory.read, hv, h1, Nat.ne_of_lt h1]
    · simp [Memory.read]
    · subst h2; rw [hv]; exact Memory.read_of_wfFrom_lt hr (Nat.lt_succ_self _)
    · simp [Memory.read]
    · simp only [Memory.read, if_neg h2, if_neg h1]
      exact ih _ hr

/-- Every other byte reads as before. -/
theorem Memory.read_write_other {m : List Host.Cell} (lo : Nat) (h : Memory.wfFrom lo m = true) {a b : Nat} (hab : b ≠ a)
    (v : Byte) : Memory.read (Memory.write m a v) b = Memory.read m b := by
  induction m generalizing lo with
  | nil =>
    by_cases hv : v = Memory.unlisted <;> simp [Memory.write, Memory.read, hv, hab]
  | cons c rest ih =>
    obtain ⟨k, w⟩ := c
    simp only [Memory.wfFrom, Bool.and_eq_true, decide_eq_true_eq] at h
    obtain ⟨⟨⟨-, -⟩, -⟩, hr⟩ := h
    unfold Memory.write
    split_ifs with h1 hv h2 hv
    · rfl
    · simp only [Memory.read, if_neg hab]
      by_cases hba : b < a
      · rw [if_pos hba, if_neg (by omega), if_pos (by omega)]
      · rw [if_neg hba]
    · subst h2
      by_cases hba : b < a
      · rw [Memory.read_of_wfFrom_lt hr (by omega)]
        simp [Memory.read, hab, hba]
      · simp [Memory.read, hab, hba]
    · subst h2
      simp [Memory.read, hab]
    · simp only [Memory.read]
      rw [ih _ hr]

/-! The canonical form. -/

theorem Memory.wfFrom_mono {m : List Host.Cell} {lo lo' : Nat} (hle : lo' ≤ lo) (h : Memory.wfFrom lo m = true) :
    Memory.wfFrom lo' m = true := by
  cases m with
  | nil => rfl
  | cons c rest =>
    obtain ⟨k, v⟩ := c
    simp only [Memory.wfFrom, Bool.and_eq_true, decide_eq_true_eq] at h ⊢
    exact ⟨⟨⟨by omega, h.1.1.2⟩, h.1.2⟩, h.2⟩

theorem Memory.wfFrom_write {m : List Host.Cell} {lo : Nat} (h : Memory.wfFrom lo m = true) {a : Nat} (hlo : lo ≤ a)
    (ha : a < 2 ^ 32) (v : Byte) : Memory.wfFrom lo (Memory.write m a v) = true := by
  induction m generalizing lo with
  | nil =>
    by_cases hv : v = Memory.unlisted
    · simp [Memory.write, hv, Memory.wfFrom]
    · simp only [Memory.write, if_neg hv, Memory.wfFrom, Bool.and_eq_true, decide_eq_true_eq]
      exact ⟨⟨⟨hlo, ha⟩, hv⟩, trivial⟩
  | cons c rest ih =>
    obtain ⟨k, w⟩ := c
    have h0 := h
    simp only [Memory.wfFrom, Bool.and_eq_true, decide_eq_true_eq] at h
    obtain ⟨⟨⟨hk, hk2⟩, hw⟩, hr⟩ := h
    unfold Memory.write
    split_ifs with h1 hv h2 hv
    · exact h0
    · simp only [Memory.wfFrom, Bool.and_eq_true, decide_eq_true_eq]
      exact ⟨⟨⟨hlo, ha⟩, hv⟩, ⟨⟨by omega, hk2⟩, hw⟩, hr⟩
    · exact Memory.wfFrom_mono (by omega) hr
    · simp only [Memory.wfFrom, Bool.and_eq_true, decide_eq_true_eq]
      exact ⟨⟨⟨hlo, ha⟩, hv⟩, by subst h2; exact hr⟩
    · simp only [Memory.wfFrom, Bool.and_eq_true, decide_eq_true_eq]
      exact ⟨⟨⟨hk, hk2⟩, hw⟩, ih hr (by omega)⟩

/-- A write keeps the canonical form. -/
theorem Memory.wf_write {m : List Host.Cell} (h : Memory.wf m = true) (a : Dword) (v : Byte) :
    Memory.wf (Memory.write m a.toNat v) = true :=
  Memory.wfFrom_write h (Nat.zero_le _) a.isLt v

/-- So does a write that the platform may ignore. -/
theorem writeCell_wf {fixed : Nat → Bool} {m : List Host.Cell} (h : Memory.wf m = true) (a : Dword) (v : Byte) :
    Memory.wf (writeCell fixed m a.toNat v) = true := by
  unfold writeCell
  split
  · exact h
  · exact Memory.wf_write h a v

theorem read_writeCell_same {fixed : Nat → Bool} {m : List Host.Cell} (h : Memory.wf m = true) (a : Nat) (v : Byte) :
    Memory.read (writeCell fixed m a v) a = if fixed a then Memory.read m a else v := by
  unfold writeCell
  split
  · rfl
  · exact Memory.read_write_same 0 h a v

theorem read_writeCell_other {fixed : Nat → Bool} {m : List Host.Cell} (h : Memory.wf m = true) {a b : Nat} (hab : b ≠ a)
    (v : Byte) : Memory.read (writeCell fixed m a v) b = Memory.read m b := by
  unfold writeCell
  split
  · rfl
  · exact Memory.read_write_other 0 h hab v

/-- So does a write of several bytes. -/
theorem writeCells_wf {fixed : Nat → Bool} {m : List Host.Cell} (h : Memory.wf m = true) (as : List Dword)
    (bs : List Byte) : Memory.wf (writeCells fixed m as bs) = true := by
  induction as generalizing m bs with
  | nil => exact h
  | cons a as ih =>
    cases bs with
    | nil => exact h
    | cons b bs => exact ih (writeCell_wf h a b) bs

/-- Two canonical memories that read alike everywhere are equal. -/
theorem Memory.ext_wfFrom {m m' : List Host.Cell} {lo : Nat} (h : Memory.wfFrom lo m = true)
    (h' : Memory.wfFrom lo m' = true) (hr : ∀ a, Memory.read m a = Memory.read m' a) : m = m' := by
  induction m generalizing lo m' with
  | nil =>
    cases m' with
    | nil => rfl
    | cons c rest =>
      obtain ⟨k, v⟩ := c
      simp only [Memory.wfFrom, Bool.and_eq_true, decide_eq_true_eq] at h'
      have := hr k
      simp [Memory.read] at this
      exact absurd this.symm h'.1.2
  | cons c rest ih =>
    obtain ⟨k, v⟩ := c
    have h0 := h
    simp only [Memory.wfFrom, Bool.and_eq_true, decide_eq_true_eq] at h
    cases m' with
    | nil =>
      have := hr k
      simp [Memory.read] at this
      exact absurd this h.1.2
    | cons c' rest' =>
      obtain ⟨k', v'⟩ := c'
      have h0' := h'
      simp only [Memory.wfFrom, Bool.and_eq_true, decide_eq_true_eq] at h'
      have hk : k = k' := by
        rcases Nat.lt_trichotomy k k' with hlt | heq | hgt
        · have := hr k
          simp [Memory.read, Nat.ne_of_lt hlt, hlt] at this
          exact absurd this h.1.2
        · exact heq
        · have := hr k'
          simp [Memory.read, Nat.ne_of_lt hgt, hgt] at this
          exact absurd this.symm h'.1.2
      subst hk
      have hv : v = v' := by simpa [Memory.read] using hr k
      subst hv
      rw [ih h.2 h'.2]
      intro a
      by_cases hak : a ≤ k
      · rw [Memory.read_of_wfFrom_lt h.2 (by omega), Memory.read_of_wfFrom_lt h'.2 (by omega)]
      · have := hr a
        simpa [Memory.read, show ¬a = k by omega, show ¬a < k by omega] using this

/-! Several bytes at once. -/

/-- A byte that is not written reads as before. -/
theorem read_writeCells_other {fixed : Nat → Bool} {m : List Host.Cell} (h : Memory.wf m = true) (as : List Dword)
    (bs : List Byte) {p : Dword} (hp : p ∉ as) :
    Memory.read (writeCells fixed m as bs) p.toNat = Memory.read m p.toNat := by
  induction as generalizing m bs with
  | nil => rfl
  | cons a as ih =>
    cases bs with
    | nil => rfl
    | cons b bs =>
      simp only [List.mem_cons, not_or] at hp
      simp only [writeCells]
      rw [ih (writeCell_wf h a b) bs hp.2]
      exact read_writeCell_other h (fun he => hp.1 (BitVec.eq_of_toNat_eq he)) b

/-- A byte that the platform keeps as it is. -/
theorem read_writeCells_fixed {fixed : Nat → Bool} {m : List Host.Cell} (h : Memory.wf m = true) (as : List Dword)
    (bs : List Byte) {p : Dword} (hp : fixed p.toNat = true) :
    Memory.read (writeCells fixed m as bs) p.toNat = Memory.read m p.toNat := by
  induction as generalizing m bs with
  | nil => rfl
  | cons a as ih =>
    cases bs with
    | nil => rfl
    | cons b bs =>
      simp only [writeCells]
      rw [ih (writeCell_wf h a b) bs]
      by_cases ha : p.toNat = a.toNat
      · rw [← ha, read_writeCell_same h, if_pos hp]
      · exact read_writeCell_other h ha b

/-- Written bytes are read back, where the addresses differ and the platform takes the write. -/
theorem read_writeCells_get {fixed : Nat → Bool} {m : List Host.Cell} (h : Memory.wf m = true) (as : List Dword)
    (bs : List Byte) (hn : as.Nodup) {k : Nat} (hk : k < as.length) (hb : k < bs.length) :
    Memory.read (writeCells fixed m as bs) (as[k]).toNat =
      if fixed (as[k]).toNat then Memory.read m (as[k]).toNat else bs[k] := by
  induction as generalizing m bs k with
  | nil => simp at hk
  | cons a as ih =>
    cases bs with
    | nil => simp at hb
    | cons b bs =>
      rw [List.nodup_cons] at hn
      cases k with
      | zero =>
        simp only [writeCells, List.getElem_cons_zero]
        rw [read_writeCells_other (writeCell_wf h a b) as bs hn.1]
        exact read_writeCell_same h _ b
      | succ k =>
        simp only [writeCells, List.getElem_cons_succ]
        have hne : (as[k]'(by simpa using hk)).toNat ≠ a.toNat := fun he =>
          hn.1 (by rw [← BitVec.eq_of_toNat_eq he]; exact List.getElem_mem _)
        rw [ih (writeCell_wf h a b) bs hn.2 (by simpa using hk) (by simpa using hb), read_writeCell_other h hne]

@[simp] theorem linearRange_length (l : Dword) (n : Nat) : (linearRange l n).length = n := by
  induction n generalizing l with
  | zero => rfl
  | succ n ih => simp [linearRange, ih]

@[simp] theorem leBytes_length (n : Nat) (v : Dword) : (leBytes n v).length = n := by
  induction n generalizing v with
  | zero => rfl
  | succ n ih => simp [leBytes, ih]

theorem linearRange_get (l : Dword) (n k : Nat) (h : k < n) :
    (linearRange l n)[k]'(by simpa using h) = l + BitVec.ofNat 32 k := by
  induction n generalizing l k with
  | zero => omega
  | succ n ih =>
    cases k with
    | zero => simp [linearRange]
    | succ k =>
      simp only [linearRange, List.getElem_cons_succ]
      rw [ih (l + 1) k (by omega)]
      apply BitVec.eq_of_toNat_eq
      simp [BitVec.toNat_add, BitVec.toNat_ofNat]
      omega

theorem mem_linearRange {l p : Dword} {n : Nat} : p ∈ linearRange l n ↔ ∃ k, k < n ∧ p = l + BitVec.ofNat 32 k := by
  constructor
  · intro h
    obtain ⟨k, hk, he⟩ := List.getElem_of_mem h
    rw [linearRange_length] at hk
    exact ⟨k, hk, by rw [← he, linearRange_get l n k hk]⟩
  · rintro ⟨k, hk, rfl⟩
    rw [← linearRange_get l n k hk]
    exact List.getElem_mem _

theorem linearRange_nodup (l : Dword) (n : Nat) (hn : n ≤ 2 ^ 32) : (linearRange l n).Nodup := by
  rw [List.nodup_iff_injective_get]
  intro i j hij
  have hi : i.1 < n := by simpa using i.isLt
  have hj : j.1 < n := by simpa using j.isLt
  simp only [List.get_eq_getElem] at hij
  rw [linearRange_get l n i hi, linearRange_get l n j hj] at hij
  have := congrArg BitVec.toNat hij
  simp only [BitVec.toNat_add, BitVec.toNat_ofNat] at this
  apply Fin.ext
  have hl := l.isLt
  omega

/-! The state. -/

theorem State.storePhys_wf {s : State} (h : Memory.wf s.mem = true) (as : List Dword) (bs : List Byte) :
    Memory.wf (s.storePhys as bs).mem = true := writeCells_wf h as bs

theorem State.setPhysDword_wf {s : State} (h : Memory.wf s.mem = true) (a v : Dword) :
    Memory.wf (s.setPhysDword a v).mem = true := writeCells_wf h _ _

theorem State.reset_wf : Memory.wf State.reset.mem = true := rfl

end Sys2Proof.Machine
end

