-- ==== Sys2Proof/Laws/Run.lean ====
section
/-! SUPPORT. Running a computation of `M`: what each building block answers, and how an instruction that is not cut short
ends. -/

namespace Sys2Proof.Machine

variable {α β : Type}

@[simp] theorem run_pure (a : α) (s : State) : (pure a : M α) s = .ok a s := rfl

@[simp] theorem run_get (s : State) : (get : M State) s = .ok s s := rfl

@[simp] theorem run_modify (f : State → State) (s : State) : (modify f : M PUnit) s = .ok ⟨⟩ (f s) := rfl

theorem run_bind (x : M α) (f : α → M β) (s : State) :
    (x >>= f) s = match x s with
      | .ok a s' => f a s'
      | .error e s' => .error e s' := by
  show EStateM.bind x f s = _
  unfold EStateM.bind
  split <;> simp_all

/-- A sequence whose first half answers `a`. -/
theorem run_bind_ok {x : M α} {f : α → M β} {s s' : State} {a : α} (h : x s = .ok a s') : (x >>= f) s = f a s' := by
  rw [run_bind, h]

/-- A sequence whose first half is cut short. -/
theorem run_bind_error {x : M α} {f : α → M β} {s s' : State} {e : Stop} (h : x s = .error e s') :
    (x >>= f) s = .error e s' := by
  rw [run_bind, h]

/-- A sequence that answers has two halves that answer. -/
theorem run_bind_eq_ok {x : M α} {f : α → M β} {s t : State} {b : β} :
    (x >>= f) s = .ok b t ↔ ∃ a s', x s = .ok a s' ∧ f a s' = .ok b t := by
  rw [run_bind]
  cases h : x s with
  | ok a s' => simp
  | error e s' => simp

@[simp] theorem run_raise (e : Exn) (s : State) : (raise e : M α) s = .error (.exn e .nothing) s := rfl

@[simp] theorem run_raiseIf_false (e : Exn) (s : State) : raiseIf false e s = .ok () s := rfl

@[simp] theorem run_raiseIf_true (e : Exn) (s : State) : raiseIf true e s = .error (.exn e .nothing) s := rfl

theorem run_raiseIf_eq_ok {c : Bool} {e : Exn} {s t : State} : raiseIf c e s = .ok () t ↔ c = false ∧ t = s := by
  cases c <;> simp [raiseIf, eq_comm]

@[simp] theorem run_freeDword (s : State) :
    freeDword s = .ok (Config.freeDword s.draws) { s with draws := s.draws + 1 } := rfl

@[simp] theorem run_freeBit (s : State) :
    freeBit s = .ok ((Config.freeDword s.draws).getLsbD 0) { s with draws := s.draws + 1 } := rfl

@[simp] theorem run_freeAt (sz : Size) (s : State) :
    freeAt sz s = .ok (trunc sz (Config.freeDword s.draws)) { s with draws := s.draws + 1 } := rfl

@[simp] theorem run_freeUpper (low : Word) (s : State) :
    freeUpper low s = .ok (mergeWord (Config.freeDword s.draws) low) { s with draws := s.draws + 1 } := rfl

/-! Instructions. -/

/-- An instruction that is not cut short ends as `after` says. -/
theorem finish_ok {after : α → State → State → State} {m : M α} {s s' : State} {a : α} (h : m s = .ok a s') :
    finish after m s = .next (after a s s') := by
  unfold finish; rw [h]

theorem complete_ok {m : M Unit} {s s' : State} (h : m s = .ok () s') : complete m s = .next (s.retire s') :=
  finish_ok h

/-- An instruction that raises an exception takes it in the state the exception leaves. -/
theorem finish_exn {after : α → State → State → State} {m : M α} {s s' : State} {e : Exn} {k : Keep}
    (h : m s = .error (.exn e k) s') : finish after m s = takeException e (keptState s s' k) := by
  unfold finish; rw [h]; rfl

theorem complete_exn {m : M Unit} {s s' : State} {e : Exn} {k : Keep} (h : m s = .error (.exn e k) s') :
    complete m s = takeException e (keptState s s' k) := finish_exn h

/-! Task switches. -/

/-- All that reading the fields before EIP can do: what it does without the care for the entry EIP, but that an exception
saves that EIP (60_exceptions.md R722). -/
theorem beforeEntry_cases (l : Dword) (sz : Size) (m : M Unit) (s : State) :
    (∃ t, m s = .ok () t ∧ beforeEntry l sz m s = .ok () t) ∨
    (∃ e k t, m s = .error (.exn e k) t ∧
      beforeEntry l sz m s =
        .error (.exn e k) { t with eip := t.entryEip l sz, eipOver := false, draws := t.draws + 1 }) ∨
    (∃ e t, (∀ x k, e ≠ .exn x k) ∧ m s = .error e t ∧ beforeEntry l sz m s = .error e t) := by
  unfold beforeEntry
  cases h : m s with
  | ok a t => exact .inl ⟨t, rfl, rfl⟩
  | error e t =>
    cases e with
    | exn e k => exact .inr (.inl ⟨e, k, t, rfl, rfl⟩)
    | fault f => exact .inr (.inr ⟨_, t, by simp, rfl, rfl⟩)
    | refuse r => exact .inr (.inr ⟨_, t, by simp, rfl, rfl⟩)

end Sys2Proof.Machine
end

