-- ==== Sys2Proof/Laws/State.lean ====
section
/-! SUPPORT. What each named update of the state does to each field, so that no later proof unfolds a record update. -/

namespace Sys2Proof.Machine

/-! setReg -/

@[simp] theorem State.setReg_regs (s : State) (sz : Size) (r : Reg) (v : Dword) : (s.setReg sz r v).regs = s.regs.write sz r v := rfl
@[simp] theorem State.setReg_eip (s : State) (sz : Size) (r : Reg) (v : Dword) : (s.setReg sz r v).eip = s.eip := rfl
@[simp] theorem State.setReg_eflags (s : State) (sz : Size) (r : Reg) (v : Dword) : (s.setReg sz r v).eflags = s.eflags := rfl
@[simp] theorem State.setReg_es (s : State) (sz : Size) (r : Reg) (v : Dword) : (s.setReg sz r v).es = s.es := rfl
@[simp] theorem State.setReg_cs (s : State) (sz : Size) (r : Reg) (v : Dword) : (s.setReg sz r v).cs = s.cs := rfl
@[simp] theorem State.setReg_ss (s : State) (sz : Size) (r : Reg) (v : Dword) : (s.setReg sz r v).ss = s.ss := rfl
@[simp] theorem State.setReg_ds (s : State) (sz : Size) (r : Reg) (v : Dword) : (s.setReg sz r v).ds = s.ds := rfl
@[simp] theorem State.setReg_fs (s : State) (sz : Size) (r : Reg) (v : Dword) : (s.setReg sz r v).fs = s.fs := rfl
@[simp] theorem State.setReg_gs (s : State) (sz : Size) (r : Reg) (v : Dword) : (s.setReg sz r v).gs = s.gs := rfl
@[simp] theorem State.setReg_cr0 (s : State) (sz : Size) (r : Reg) (v : Dword) : (s.setReg sz r v).cr0 = s.cr0 := rfl
@[simp] theorem State.setReg_cr2 (s : State) (sz : Size) (r : Reg) (v : Dword) : (s.setReg sz r v).cr2 = s.cr2 := rfl
@[simp] theorem State.setReg_cr3 (s : State) (sz : Size) (r : Reg) (v : Dword) : (s.setReg sz r v).cr3 = s.cr3 := rfl
@[simp] theorem State.setReg_gdtr (s : State) (sz : Size) (r : Reg) (v : Dword) : (s.setReg sz r v).gdtr = s.gdtr := rfl
@[simp] theorem State.setReg_idtr (s : State) (sz : Size) (r : Reg) (v : Dword) : (s.setReg sz r v).idtr = s.idtr := rfl
@[simp] theorem State.setReg_ldtr (s : State) (sz : Size) (r : Reg) (v : Dword) : (s.setReg sz r v).ldtr = s.ldtr := rfl
@[simp] theorem State.setReg_tr (s : State) (sz : Size) (r : Reg) (v : Dword) : (s.setReg sz r v).tr = s.tr := rfl
@[simp] theorem State.setReg_dr0 (s : State) (sz : Size) (r : Reg) (v : Dword) : (s.setReg sz r v).dr0 = s.dr0 := rfl
@[simp] theorem State.setReg_dr1 (s : State) (sz : Size) (r : Reg) (v : Dword) : (s.setReg sz r v).dr1 = s.dr1 := rfl
@[simp] theorem State.setReg_dr2 (s : State) (sz : Size) (r : Reg) (v : Dword) : (s.setReg sz r v).dr2 = s.dr2 := rfl
@[simp] theorem State.setReg_dr3 (s : State) (sz : Size) (r : Reg) (v : Dword) : (s.setReg sz r v).dr3 = s.dr3 := rfl
@[simp] theorem State.setReg_dr6 (s : State) (sz : Size) (r : Reg) (v : Dword) : (s.setReg sz r v).dr6 = s.dr6 := rfl
@[simp] theorem State.setReg_dr7 (s : State) (sz : Size) (r : Reg) (v : Dword) : (s.setReg sz r v).dr7 = s.dr7 := rfl
@[simp] theorem State.setReg_tr6 (s : State) (sz : Size) (r : Reg) (v : Dword) : (s.setReg sz r v).tr6 = s.tr6 := rfl
@[simp] theorem State.setReg_tr7 (s : State) (sz : Size) (r : Reg) (v : Dword) : (s.setReg sz r v).tr7 = s.tr7 := rfl
@[simp] theorem State.setReg_cpl (s : State) (sz : Size) (r : Reg) (v : Dword) : (s.setReg sz r v).cpl = s.cpl := rfl
@[simp] theorem State.setReg_nmiPending (s : State) (sz : Size) (r : Reg) (v : Dword) : (s.setReg sz r v).nmiPending = s.nmiPending := rfl
@[simp] theorem State.setReg_nmiInService (s : State) (sz : Size) (r : Reg) (v : Dword) : (s.setReg sz r v).nmiInService = s.nmiInService := rfl
@[simp] theorem State.setReg_shadow (s : State) (sz : Size) (r : Reg) (v : Dword) : (s.setReg sz r v).shadow = s.shadow := rfl
@[simp] theorem State.setReg_runState (s : State) (sz : Size) (r : Reg) (v : Dword) : (s.setReg sz r v).runState = s.runState := rfl
@[simp] theorem State.setReg_copOpcode (s : State) (sz : Size) (r : Reg) (v : Dword) : (s.setReg sz r v).copOpcode = s.copOpcode := rfl
@[simp] theorem State.setReg_copOperand (s : State) (sz : Size) (r : Reg) (v : Dword) : (s.setReg sz r v).copOperand = s.copOperand := rfl
@[simp] theorem State.setReg_tlb (s : State) (sz : Size) (r : Reg) (v : Dword) : (s.setReg sz r v).tlb = s.tlb := rfl
@[simp] theorem State.setReg_stale (s : State) (sz : Size) (r : Reg) (v : Dword) : (s.setReg sz r v).stale = s.stale := rfl
@[simp] theorem State.setReg_queued (s : State) (sz : Size) (r : Reg) (v : Dword) : (s.setReg sz r v).queued = s.queued := rfl
@[simp] theorem State.setReg_mem (s : State) (sz : Size) (r : Reg) (v : Dword) : (s.setReg sz r v).mem = s.mem := rfl
@[simp] theorem State.setReg_ioInputs (s : State) (sz : Size) (r : Reg) (v : Dword) : (s.setReg sz r v).ioInputs = s.ioInputs := rfl
@[simp] theorem State.setReg_bus (s : State) (sz : Size) (r : Reg) (v : Dword) : (s.setReg sz r v).bus = s.bus := rfl
@[simp] theorem State.setReg_deviceBus (s : State) (sz : Size) (r : Reg) (v : Dword) : (s.setReg sz r v).deviceBus = s.deviceBus := rfl
@[simp] theorem State.setReg_pins (s : State) (sz : Size) (r : Reg) (v : Dword) : (s.setReg sz r v).pins = s.pins := rfl
@[simp] theorem State.setReg_copRequest (s : State) (sz : Size) (r : Reg) (v : Dword) : (s.setReg sz r v).copRequest = s.copRequest := rfl
@[simp] theorem State.setReg_instrEip (s : State) (sz : Size) (r : Reg) (v : Dword) : (s.setReg sz r v).instrEip = s.instrEip := rfl
@[simp] theorem State.setReg_eipOver (s : State) (sz : Size) (r : Reg) (v : Dword) : (s.setReg sz r v).eipOver = s.eipOver := rfl
@[simp] theorem State.setReg_pfx (s : State) (sz : Size) (r : Reg) (v : Dword) : (s.setReg sz r v).pfx = s.pfx := rfl
@[simp] theorem State.setReg_pendingDb (s : State) (sz : Size) (r : Reg) (v : Dword) : (s.setReg sz r v).pendingDb = s.pendingDb := rfl
@[simp] theorem State.setReg_draws (s : State) (sz : Size) (r : Reg) (v : Dword) : (s.setReg sz r v).draws = s.draws := rfl
@[simp] theorem State.setReg_params (s : State) (sz : Size) (r : Reg) (v : Dword) : (s.setReg sz r v).params = s.params := rfl

/-! setFlags -/

@[simp] theorem State.setFlags_regs (s : State) (f : Eflags) : (s.setFlags f).regs = s.regs := rfl
@[simp] theorem State.setFlags_eip (s : State) (f : Eflags) : (s.setFlags f).eip = s.eip := rfl
@[simp] theorem State.setFlags_eflags (s : State) (f : Eflags) : (s.setFlags f).eflags = f := rfl
@[simp] theorem State.setFlags_es (s : State) (f : Eflags) : (s.setFlags f).es = s.es := rfl
@[simp] theorem State.setFlags_cs (s : State) (f : Eflags) : (s.setFlags f).cs = s.cs := rfl
@[simp] theorem State.setFlags_ss (s : State) (f : Eflags) : (s.setFlags f).ss = s.ss := rfl
@[simp] theorem State.setFlags_ds (s : State) (f : Eflags) : (s.setFlags f).ds = s.ds := rfl
@[simp] theorem State.setFlags_fs (s : State) (f : Eflags) : (s.setFlags f).fs = s.fs := rfl
@[simp] theorem State.setFlags_gs (s : State) (f : Eflags) : (s.setFlags f).gs = s.gs := rfl
@[simp] theorem State.setFlags_cr0 (s : State) (f : Eflags) : (s.setFlags f).cr0 = s.cr0 := rfl
@[simp] theorem State.setFlags_cr2 (s : State) (f : Eflags) : (s.setFlags f).cr2 = s.cr2 := rfl
@[simp] theorem State.setFlags_cr3 (s : State) (f : Eflags) : (s.setFlags f).cr3 = s.cr3 := rfl
@[simp] theorem State.setFlags_gdtr (s : State) (f : Eflags) : (s.setFlags f).gdtr = s.gdtr := rfl
@[simp] theorem State.setFlags_idtr (s : State) (f : Eflags) : (s.setFlags f).idtr = s.idtr := rfl
@[simp] theorem State.setFlags_ldtr (s : State) (f : Eflags) : (s.setFlags f).ldtr = s.ldtr := rfl
@[simp] theorem State.setFlags_tr (s : State) (f : Eflags) : (s.setFlags f).tr = s.tr := rfl
@[simp] theorem State.setFlags_dr0 (s : State) (f : Eflags) : (s.setFlags f).dr0 = s.dr0 := rfl
@[simp] theorem State.setFlags_dr1 (s : State) (f : Eflags) : (s.setFlags f).dr1 = s.dr1 := rfl
@[simp] theorem State.setFlags_dr2 (s : State) (f : Eflags) : (s.setFlags f).dr2 = s.dr2 := rfl
@[simp] theorem State.setFlags_dr3 (s : State) (f : Eflags) : (s.setFlags f).dr3 = s.dr3 := rfl
@[simp] theorem State.setFlags_dr6 (s : State) (f : Eflags) : (s.setFlags f).dr6 = s.dr6 := rfl
@[simp] theorem State.setFlags_dr7 (s : State) (f : Eflags) : (s.setFlags f).dr7 = s.dr7 := rfl
@[simp] theorem State.setFlags_tr6 (s : State) (f : Eflags) : (s.setFlags f).tr6 = s.tr6 := rfl
@[simp] theorem State.setFlags_tr7 (s : State) (f : Eflags) : (s.setFlags f).tr7 = s.tr7 := rfl
@[simp] theorem State.setFlags_cpl (s : State) (f : Eflags) : (s.setFlags f).cpl = s.cpl := rfl
@[simp] theorem State.setFlags_nmiPending (s : State) (f : Eflags) : (s.setFlags f).nmiPending = s.nmiPending := rfl
@[simp] theorem State.setFlags_nmiInService (s : State) (f : Eflags) : (s.setFlags f).nmiInService = s.nmiInService := rfl
@[simp] theorem State.setFlags_shadow (s : State) (f : Eflags) : (s.setFlags f).shadow = s.shadow := rfl
@[simp] theorem State.setFlags_runState (s : State) (f : Eflags) : (s.setFlags f).runState = s.runState := rfl
@[simp] theorem State.setFlags_copOpcode (s : State) (f : Eflags) : (s.setFlags f).copOpcode = s.copOpcode := rfl
@[simp] theorem State.setFlags_copOperand (s : State) (f : Eflags) : (s.setFlags f).copOperand = s.copOperand := rfl
@[simp] theorem State.setFlags_tlb (s : State) (f : Eflags) : (s.setFlags f).tlb = s.tlb := rfl
@[simp] theorem State.setFlags_stale (s : State) (f : Eflags) : (s.setFlags f).stale = s.stale := rfl
@[simp] theorem State.setFlags_queued (s : State) (f : Eflags) : (s.setFlags f).queued = s.queued := rfl
@[simp] theorem State.setFlags_mem (s : State) (f : Eflags) : (s.setFlags f).mem = s.mem := rfl
@[simp] theorem State.setFlags_ioInputs (s : State) (f : Eflags) : (s.setFlags f).ioInputs = s.ioInputs := rfl
@[simp] theorem State.setFlags_bus (s : State) (f : Eflags) : (s.setFlags f).bus = s.bus := rfl
@[simp] theorem State.setFlags_deviceBus (s : State) (f : Eflags) : (s.setFlags f).deviceBus = s.deviceBus := rfl
@[simp] theorem State.setFlags_pins (s : State) (f : Eflags) : (s.setFlags f).pins = s.pins := rfl
@[simp] theorem State.setFlags_copRequest (s : State) (f : Eflags) : (s.setFlags f).copRequest = s.copRequest := rfl
@[simp] theorem State.setFlags_instrEip (s : State) (f : Eflags) : (s.setFlags f).instrEip = s.instrEip := rfl
@[simp] theorem State.setFlags_eipOver (s : State) (f : Eflags) : (s.setFlags f).eipOver = s.eipOver := rfl
@[simp] theorem State.setFlags_pfx (s : State) (f : Eflags) : (s.setFlags f).pfx = s.pfx := rfl
@[simp] theorem State.setFlags_pendingDb (s : State) (f : Eflags) : (s.setFlags f).pendingDb = s.pendingDb := rfl
@[simp] theorem State.setFlags_draws (s : State) (f : Eflags) : (s.setFlags f).draws = s.draws := rfl
@[simp] theorem State.setFlags_params (s : State) (f : Eflags) : (s.setFlags f).params = s.params := rfl

/-! setSeg -/

@[simp] theorem State.setSeg_regs (s : State) (sr : SReg) (c : SegReg) : (s.setSeg sr c).regs = s.regs := by cases sr <;> rfl
@[simp] theorem State.setSeg_eip (s : State) (sr : SReg) (c : SegReg) : (s.setSeg sr c).eip = s.eip := by cases sr <;> rfl
@[simp] theorem State.setSeg_eflags (s : State) (sr : SReg) (c : SegReg) : (s.setSeg sr c).eflags = s.eflags := by cases sr <;> rfl
@[simp] theorem State.setSeg_cr0 (s : State) (sr : SReg) (c : SegReg) : (s.setSeg sr c).cr0 = s.cr0 := by cases sr <;> rfl
@[simp] theorem State.setSeg_cr2 (s : State) (sr : SReg) (c : SegReg) : (s.setSeg sr c).cr2 = s.cr2 := by cases sr <;> rfl
@[simp] theorem State.setSeg_cr3 (s : State) (sr : SReg) (c : SegReg) : (s.setSeg sr c).cr3 = s.cr3 := by cases sr <;> rfl
@[simp] theorem State.setSeg_gdtr (s : State) (sr : SReg) (c : SegReg) : (s.setSeg sr c).gdtr = s.gdtr := by cases sr <;> rfl
@[simp] theorem State.setSeg_idtr (s : State) (sr : SReg) (c : SegReg) : (s.setSeg sr c).idtr = s.idtr := by cases sr <;> rfl
@[simp] theorem State.setSeg_ldtr (s : State) (sr : SReg) (c : SegReg) : (s.setSeg sr c).ldtr = s.ldtr := by cases sr <;> rfl
@[simp] theorem State.setSeg_tr (s : State) (sr : SReg) (c : SegReg) : (s.setSeg sr c).tr = s.tr := by cases sr <;> rfl
@[simp] theorem State.setSeg_dr0 (s : State) (sr : SReg) (c : SegReg) : (s.setSeg sr c).dr0 = s.dr0 := by cases sr <;> rfl
@[simp] theorem State.setSeg_dr1 (s : State) (sr : SReg) (c : SegReg) : (s.setSeg sr c).dr1 = s.dr1 := by cases sr <;> rfl
@[simp] theorem State.setSeg_dr2 (s : State) (sr : SReg) (c : SegReg) : (s.setSeg sr c).dr2 = s.dr2 := by cases sr <;> rfl
@[simp] theorem State.setSeg_dr3 (s : State) (sr : SReg) (c : SegReg) : (s.setSeg sr c).dr3 = s.dr3 := by cases sr <;> rfl
@[simp] theorem State.setSeg_dr6 (s : State) (sr : SReg) (c : SegReg) : (s.setSeg sr c).dr6 = s.dr6 := by cases sr <;> rfl
@[simp] theorem State.setSeg_dr7 (s : State) (sr : SReg) (c : SegReg) : (s.setSeg sr c).dr7 = s.dr7 := by cases sr <;> rfl
@[simp] theorem State.setSeg_tr6 (s : State) (sr : SReg) (c : SegReg) : (s.setSeg sr c).tr6 = s.tr6 := by cases sr <;> rfl
@[simp] theorem State.setSeg_tr7 (s : State) (sr : SReg) (c : SegReg) : (s.setSeg sr c).tr7 = s.tr7 := by cases sr <;> rfl
@[simp] theorem State.setSeg_cpl (s : State) (sr : SReg) (c : SegReg) : (s.setSeg sr c).cpl = s.cpl := by cases sr <;> rfl
@[simp] theorem State.setSeg_nmiPending (s : State) (sr : SReg) (c : SegReg) : (s.setSeg sr c).nmiPending = s.nmiPending := by cases sr <;> rfl
@[simp] theorem State.setSeg_nmiInService (s : State) (sr : SReg) (c : SegReg) : (s.setSeg sr c).nmiInService = s.nmiInService := by cases sr <;> rfl
@[simp] theorem State.setSeg_shadow (s : State) (sr : SReg) (c : SegReg) : (s.setSeg sr c).shadow = s.shadow := by cases sr <;> rfl
@[simp] theorem State.setSeg_runState (s : State) (sr : SReg) (c : SegReg) : (s.setSeg sr c).runState = s.runState := by cases sr <;> rfl
@[simp] theorem State.setSeg_copOpcode (s : State) (sr : SReg) (c : SegReg) : (s.setSeg sr c).copOpcode = s.copOpcode := by cases sr <;> rfl
@[simp] theorem State.setSeg_copOperand (s : State) (sr : SReg) (c : SegReg) : (s.setSeg sr c).copOperand = s.copOperand := by cases sr <;> rfl
@[simp] theorem State.setSeg_tlb (s : State) (sr : SReg) (c : SegReg) : (s.setSeg sr c).tlb = s.tlb := by cases sr <;> rfl
@[simp] theorem State.setSeg_stale (s : State) (sr : SReg) (c : SegReg) : (s.setSeg sr c).stale = s.stale := by cases sr <;> rfl
@[simp] theorem State.setSeg_queued (s : State) (sr : SReg) (c : SegReg) : (s.setSeg sr c).queued = s.queued := by cases sr <;> rfl
@[simp] theorem State.setSeg_mem (s : State) (sr : SReg) (c : SegReg) : (s.setSeg sr c).mem = s.mem := by cases sr <;> rfl
@[simp] theorem State.setSeg_ioInputs (s : State) (sr : SReg) (c : SegReg) : (s.setSeg sr c).ioInputs = s.ioInputs := by cases sr <;> rfl
@[simp] theorem State.setSeg_bus (s : State) (sr : SReg) (c : SegReg) : (s.setSeg sr c).bus = s.bus := by cases sr <;> rfl
@[simp] theorem State.setSeg_deviceBus (s : State) (sr : SReg) (c : SegReg) : (s.setSeg sr c).deviceBus = s.deviceBus := by cases sr <;> rfl
@[simp] theorem State.setSeg_pins (s : State) (sr : SReg) (c : SegReg) : (s.setSeg sr c).pins = s.pins := by cases sr <;> rfl
@[simp] theorem State.setSeg_copRequest (s : State) (sr : SReg) (c : SegReg) : (s.setSeg sr c).copRequest = s.copRequest := by cases sr <;> rfl
@[simp] theorem State.setSeg_instrEip (s : State) (sr : SReg) (c : SegReg) : (s.setSeg sr c).instrEip = s.instrEip := by cases sr <;> rfl
@[simp] theorem State.setSeg_eipOver (s : State) (sr : SReg) (c : SegReg) : (s.setSeg sr c).eipOver = s.eipOver := by cases sr <;> rfl
@[simp] theorem State.setSeg_pfx (s : State) (sr : SReg) (c : SegReg) : (s.setSeg sr c).pfx = s.pfx := by cases sr <;> rfl
@[simp] theorem State.setSeg_pendingDb (s : State) (sr : SReg) (c : SegReg) : (s.setSeg sr c).pendingDb = s.pendingDb := by cases sr <;> rfl
@[simp] theorem State.setSeg_draws (s : State) (sr : SReg) (c : SegReg) : (s.setSeg sr c).draws = s.draws := by cases sr <;> rfl
@[simp] theorem State.setSeg_params (s : State) (sr : SReg) (c : SegReg) : (s.setSeg sr c).params = s.params := by cases sr <;> rfl

@[simp] theorem State.setSeg_es_self (s : State) (c : SegReg) : (s.setSeg .es c).es = c := rfl
@[simp] theorem State.setSeg_cs_self (s : State) (c : SegReg) : (s.setSeg .cs c).cs = c := rfl
@[simp] theorem State.setSeg_ss_self (s : State) (c : SegReg) : (s.setSeg .ss c).ss = c := rfl
@[simp] theorem State.setSeg_ds_self (s : State) (c : SegReg) : (s.setSeg .ds c).ds = c := rfl
@[simp] theorem State.setSeg_fs_self (s : State) (c : SegReg) : (s.setSeg .fs c).fs = c := rfl
@[simp] theorem State.setSeg_gs_self (s : State) (c : SegReg) : (s.setSeg .gs c).gs = c := rfl

@[simp] theorem State.seg_setSeg_self (s : State) (sr : SReg) (c : SegReg) : (s.setSeg sr c).seg sr = c := by
  cases sr <;> rfl

theorem State.seg_setSeg_other (s : State) (sr sr' : SReg) (c : SegReg) (h : sr' ≠ sr) :
    (s.setSeg sr c).seg sr' = s.seg sr' := by
  cases sr <;> cases sr' <;> first | rfl | exact absurd rfl h

/-! jumpTo -/

@[simp] theorem State.jumpTo_regs (s : State) (target : Dword) : (s.jumpTo target).regs = s.regs := rfl
@[simp] theorem State.jumpTo_eip (s : State) (target : Dword) : (s.jumpTo target).eip = target := rfl
@[simp] theorem State.jumpTo_eflags (s : State) (target : Dword) : (s.jumpTo target).eflags = s.eflags := rfl
@[simp] theorem State.jumpTo_es (s : State) (target : Dword) : (s.jumpTo target).es = s.es := rfl
@[simp] theorem State.jumpTo_cs (s : State) (target : Dword) : (s.jumpTo target).cs = s.cs := rfl
@[simp] theorem State.jumpTo_ss (s : State) (target : Dword) : (s.jumpTo target).ss = s.ss := rfl
@[simp] theorem State.jumpTo_ds (s : State) (target : Dword) : (s.jumpTo target).ds = s.ds := rfl
@[simp] theorem State.jumpTo_fs (s : State) (target : Dword) : (s.jumpTo target).fs = s.fs := rfl
@[simp] theorem State.jumpTo_gs (s : State) (target : Dword) : (s.jumpTo target).gs = s.gs := rfl
@[simp] theorem State.jumpTo_cr0 (s : State) (target : Dword) : (s.jumpTo target).cr0 = s.cr0 := rfl
@[simp] theorem State.jumpTo_cr2 (s : State) (target : Dword) : (s.jumpTo target).cr2 = s.cr2 := rfl
@[simp] theorem State.jumpTo_cr3 (s : State) (target : Dword) : (s.jumpTo target).cr3 = s.cr3 := rfl
@[simp] theorem State.jumpTo_gdtr (s : State) (target : Dword) : (s.jumpTo target).gdtr = s.gdtr := rfl
@[simp] theorem State.jumpTo_idtr (s : State) (target : Dword) : (s.jumpTo target).idtr = s.idtr := rfl
@[simp] theorem State.jumpTo_ldtr (s : State) (target : Dword) : (s.jumpTo target).ldtr = s.ldtr := rfl
@[simp] theorem State.jumpTo_tr (s : State) (target : Dword) : (s.jumpTo target).tr = s.tr := rfl
@[simp] theorem State.jumpTo_dr0 (s : State) (target : Dword) : (s.jumpTo target).dr0 = s.dr0 := rfl
@[simp] theorem State.jumpTo_dr1 (s : State) (target : Dword) : (s.jumpTo target).dr1 = s.dr1 := rfl
@[simp] theorem State.jumpTo_dr2 (s : State) (target : Dword) : (s.jumpTo target).dr2 = s.dr2 := rfl
@[simp] theorem State.jumpTo_dr3 (s : State) (target : Dword) : (s.jumpTo target).dr3 = s.dr3 := rfl
@[simp] theorem State.jumpTo_dr6 (s : State) (target : Dword) : (s.jumpTo target).dr6 = s.dr6 := rfl
@[simp] theorem State.jumpTo_dr7 (s : State) (target : Dword) : (s.jumpTo target).dr7 = s.dr7 := rfl
@[simp] theorem State.jumpTo_tr6 (s : State) (target : Dword) : (s.jumpTo target).tr6 = s.tr6 := rfl
@[simp] theorem State.jumpTo_tr7 (s : State) (target : Dword) : (s.jumpTo target).tr7 = s.tr7 := rfl
@[simp] theorem State.jumpTo_cpl (s : State) (target : Dword) : (s.jumpTo target).cpl = s.cpl := rfl
@[simp] theorem State.jumpTo_nmiPending (s : State) (target : Dword) : (s.jumpTo target).nmiPending = s.nmiPending := rfl
@[simp] theorem State.jumpTo_nmiInService (s : State) (target : Dword) : (s.jumpTo target).nmiInService = s.nmiInService := rfl
@[simp] theorem State.jumpTo_shadow (s : State) (target : Dword) : (s.jumpTo target).shadow = s.shadow := rfl
@[simp] theorem State.jumpTo_runState (s : State) (target : Dword) : (s.jumpTo target).runState = s.runState := rfl
@[simp] theorem State.jumpTo_copOpcode (s : State) (target : Dword) : (s.jumpTo target).copOpcode = s.copOpcode := rfl
@[simp] theorem State.jumpTo_copOperand (s : State) (target : Dword) : (s.jumpTo target).copOperand = s.copOperand := rfl
@[simp] theorem State.jumpTo_tlb (s : State) (target : Dword) : (s.jumpTo target).tlb = s.tlb := rfl
@[simp] theorem State.jumpTo_stale (s : State) (target : Dword) : (s.jumpTo target).stale = [] := rfl
@[simp] theorem State.jumpTo_queued (s : State) (target : Dword) : (s.jumpTo target).queued = [] := rfl
@[simp] theorem State.jumpTo_mem (s : State) (target : Dword) : (s.jumpTo target).mem = s.mem := rfl
@[simp] theorem State.jumpTo_ioInputs (s : State) (target : Dword) : (s.jumpTo target).ioInputs = s.ioInputs := rfl
@[simp] theorem State.jumpTo_bus (s : State) (target : Dword) : (s.jumpTo target).bus = s.bus := rfl
@[simp] theorem State.jumpTo_deviceBus (s : State) (target : Dword) : (s.jumpTo target).deviceBus = s.deviceBus := rfl
@[simp] theorem State.jumpTo_pins (s : State) (target : Dword) : (s.jumpTo target).pins = s.pins := rfl
@[simp] theorem State.jumpTo_copRequest (s : State) (target : Dword) : (s.jumpTo target).copRequest = s.copRequest := rfl
@[simp] theorem State.jumpTo_instrEip (s : State) (target : Dword) : (s.jumpTo target).instrEip = s.instrEip := rfl
@[simp] theorem State.jumpTo_eipOver (s : State) (target : Dword) : (s.jumpTo target).eipOver = false := rfl
@[simp] theorem State.jumpTo_pfx (s : State) (target : Dword) : (s.jumpTo target).pfx = s.pfx := rfl
@[simp] theorem State.jumpTo_pendingDb (s : State) (target : Dword) : (s.jumpTo target).pendingDb = s.pendingDb := rfl
@[simp] theorem State.jumpTo_draws (s : State) (target : Dword) : (s.jumpTo target).draws = s.draws := rfl
@[simp] theorem State.jumpTo_params (s : State) (target : Dword) : (s.jumpTo target).params = s.params := rfl

/-! retire -/

@[simp] theorem State.retire_regs (s s' : State) : (s.retire s').regs = s'.regs := rfl
@[simp] theorem State.retire_eip (s s' : State) : (s.retire s').eip = s'.eip := rfl
@[simp] theorem State.retire_eflags (s s' : State) : (s.retire s').eflags = { s'.eflags with rf := false } := rfl
@[simp] theorem State.retire_es (s s' : State) : (s.retire s').es = s'.es := rfl
@[simp] theorem State.retire_cs (s s' : State) : (s.retire s').cs = s'.cs := rfl
@[simp] theorem State.retire_ss (s s' : State) : (s.retire s').ss = s'.ss := rfl
@[simp] theorem State.retire_ds (s s' : State) : (s.retire s').ds = s'.ds := rfl
@[simp] theorem State.retire_fs (s s' : State) : (s.retire s').fs = s'.fs := rfl
@[simp] theorem State.retire_gs (s s' : State) : (s.retire s').gs = s'.gs := rfl
@[simp] theorem State.retire_cr0 (s s' : State) : (s.retire s').cr0 = s'.cr0 := rfl
@[simp] theorem State.retire_cr2 (s s' : State) : (s.retire s').cr2 = s'.cr2 := rfl
@[simp] theorem State.retire_cr3 (s s' : State) : (s.retire s').cr3 = s'.cr3 := rfl
@[simp] theorem State.retire_gdtr (s s' : State) : (s.retire s').gdtr = s'.gdtr := rfl
@[simp] theorem State.retire_idtr (s s' : State) : (s.retire s').idtr = s'.idtr := rfl
@[simp] theorem State.retire_ldtr (s s' : State) : (s.retire s').ldtr = s'.ldtr := rfl
@[simp] theorem State.retire_tr (s s' : State) : (s.retire s').tr = s'.tr := rfl
@[simp] theorem State.retire_dr0 (s s' : State) : (s.retire s').dr0 = s'.dr0 := rfl
@[simp] theorem State.retire_dr1 (s s' : State) : (s.retire s').dr1 = s'.dr1 := rfl
@[simp] theorem State.retire_dr2 (s s' : State) : (s.retire s').dr2 = s'.dr2 := rfl
@[simp] theorem State.retire_dr3 (s s' : State) : (s.retire s').dr3 = s'.dr3 := rfl
@[simp] theorem State.retire_dr6 (s s' : State) : (s.retire s').dr6 = s'.dr6 := rfl
@[simp] theorem State.retire_dr7 (s s' : State) : (s.retire s').dr7 = s'.dr7 := rfl
@[simp] theorem State.retire_tr6 (s s' : State) : (s.retire s').tr6 = s'.tr6 := rfl
@[simp] theorem State.retire_tr7 (s s' : State) : (s.retire s').tr7 = s'.tr7 := rfl
@[simp] theorem State.retire_cpl (s s' : State) : (s.retire s').cpl = s'.cpl := rfl
@[simp] theorem State.retire_nmiPending (s s' : State) : (s.retire s').nmiPending = s'.nmiPending := rfl
@[simp] theorem State.retire_nmiInService (s s' : State) : (s.retire s').nmiInService = s'.nmiInService := rfl
@[simp] theorem State.retire_shadow (s s' : State) : (s.retire s').shadow = .none := rfl
@[simp] theorem State.retire_runState (s s' : State) : (s.retire s').runState = s'.runState := rfl
@[simp] theorem State.retire_copOpcode (s s' : State) : (s.retire s').copOpcode = s'.copOpcode := rfl
@[simp] theorem State.retire_copOperand (s s' : State) : (s.retire s').copOperand = s'.copOperand := rfl
@[simp] theorem State.retire_tlb (s s' : State) : (s.retire s').tlb = s'.tlb := rfl
@[simp] theorem State.retire_stale (s s' : State) : (s.retire s').stale = s'.stale := rfl
@[simp] theorem State.retire_queued (s s' : State) : (s.retire s').queued = s'.queued := rfl
@[simp] theorem State.retire_mem (s s' : State) : (s.retire s').mem = s'.mem := rfl
@[simp] theorem State.retire_ioInputs (s s' : State) : (s.retire s').ioInputs = s'.ioInputs := rfl
@[simp] theorem State.retire_bus (s s' : State) : (s.retire s').bus = s'.bus := rfl
@[simp] theorem State.retire_deviceBus (s s' : State) : (s.retire s').deviceBus = s'.deviceBus := rfl
@[simp] theorem State.retire_pins (s s' : State) : (s.retire s').pins = s'.pins := rfl
@[simp] theorem State.retire_copRequest (s s' : State) : (s.retire s').copRequest = s'.copRequest := rfl
@[simp] theorem State.retire_instrEip (s s' : State) : (s.retire s').instrEip = s'.instrEip := rfl
@[simp] theorem State.retire_eipOver (s s' : State) : (s.retire s').eipOver = s'.eipOver := rfl
@[simp] theorem State.retire_pfx (s s' : State) : (s.retire s').pfx = Prefixes.none := rfl
@[simp] theorem State.retire_pendingDb (s s' : State) : (s.retire s').pendingDb = s'.pendingDb ||| s.stepBit := rfl
@[simp] theorem State.retire_draws (s s' : State) : (s.retire s').draws = s'.draws := rfl
@[simp] theorem State.retire_params (s s' : State) : (s.retire s').params = s'.params := rfl

/-! retireKeepRf -/

@[simp] theorem State.retireKeepRf_regs (s s' : State) : (s.retireKeepRf s').regs = s'.regs := rfl
@[simp] theorem State.retireKeepRf_eip (s s' : State) : (s.retireKeepRf s').eip = s'.eip := rfl
@[simp] theorem State.retireKeepRf_eflags (s s' : State) : (s.retireKeepRf s').eflags = s'.eflags := rfl
@[simp] theorem State.retireKeepRf_es (s s' : State) : (s.retireKeepRf s').es = s'.es := rfl
@[simp] theorem State.retireKeepRf_cs (s s' : State) : (s.retireKeepRf s').cs = s'.cs := rfl
@[simp] theorem State.retireKeepRf_ss (s s' : State) : (s.retireKeepRf s').ss = s'.ss := rfl
@[simp] theorem State.retireKeepRf_ds (s s' : State) : (s.retireKeepRf s').ds = s'.ds := rfl
@[simp] theorem State.retireKeepRf_fs (s s' : State) : (s.retireKeepRf s').fs = s'.fs := rfl
@[simp] theorem State.retireKeepRf_gs (s s' : State) : (s.retireKeepRf s').gs = s'.gs := rfl
@[simp] theorem State.retireKeepRf_cr0 (s s' : State) : (s.retireKeepRf s').cr0 = s'.cr0 := rfl
@[simp] theorem State.retireKeepRf_cr2 (s s' : State) : (s.retireKeepRf s').cr2 = s'.cr2 := rfl
@[simp] theorem State.retireKeepRf_cr3 (s s' : State) : (s.retireKeepRf s').cr3 = s'.cr3 := rfl
@[simp] theorem State.retireKeepRf_gdtr (s s' : State) : (s.retireKeepRf s').gdtr = s'.gdtr := rfl
@[simp] theorem State.retireKeepRf_idtr (s s' : State) : (s.retireKeepRf s').idtr = s'.idtr := rfl
@[simp] theorem State.retireKeepRf_ldtr (s s' : State) : (s.retireKeepRf s').ldtr = s'.ldtr := rfl
@[simp] theorem State.retireKeepRf_tr (s s' : State) : (s.retireKeepRf s').tr = s'.tr := rfl
@[simp] theorem State.retireKeepRf_dr0 (s s' : State) : (s.retireKeepRf s').dr0 = s'.dr0 := rfl
@[simp] theorem State.retireKeepRf_dr1 (s s' : State) : (s.retireKeepRf s').dr1 = s'.dr1 := rfl
@[simp] theorem State.retireKeepRf_dr2 (s s' : State) : (s.retireKeepRf s').dr2 = s'.dr2 := rfl
@[simp] theorem State.retireKeepRf_dr3 (s s' : State) : (s.retireKeepRf s').dr3 = s'.dr3 := rfl
@[simp] theorem State.retireKeepRf_dr6 (s s' : State) : (s.retireKeepRf s').dr6 = s'.dr6 := rfl
@[simp] theorem State.retireKeepRf_dr7 (s s' : State) : (s.retireKeepRf s').dr7 = s'.dr7 := rfl
@[simp] theorem State.retireKeepRf_tr6 (s s' : State) : (s.retireKeepRf s').tr6 = s'.tr6 := rfl
@[simp] theorem State.retireKeepRf_tr7 (s s' : State) : (s.retireKeepRf s').tr7 = s'.tr7 := rfl
@[simp] theorem State.retireKeepRf_cpl (s s' : State) : (s.retireKeepRf s').cpl = s'.cpl := rfl
@[simp] theorem State.retireKeepRf_nmiPending (s s' : State) : (s.retireKeepRf s').nmiPending = s'.nmiPending := rfl
@[simp] theorem State.retireKeepRf_nmiInService (s s' : State) : (s.retireKeepRf s').nmiInService = s'.nmiInService := rfl
@[simp] theorem State.retireKeepRf_shadow (s s' : State) : (s.retireKeepRf s').shadow = .none := rfl
@[simp] theorem State.retireKeepRf_runState (s s' : State) : (s.retireKeepRf s').runState = s'.runState := rfl
@[simp] theorem State.retireKeepRf_copOpcode (s s' : State) : (s.retireKeepRf s').copOpcode = s'.copOpcode := rfl
@[simp] theorem State.retireKeepRf_copOperand (s s' : State) : (s.retireKeepRf s').copOperand = s'.copOperand := rfl
@[simp] theorem State.retireKeepRf_tlb (s s' : State) : (s.retireKeepRf s').tlb = s'.tlb := rfl
@[simp] theorem State.retireKeepRf_stale (s s' : State) : (s.retireKeepRf s').stale = s'.stale := rfl
@[simp] theorem State.retireKeepRf_queued (s s' : State) : (s.retireKeepRf s').queued = s'.queued := rfl
@[simp] theorem State.retireKeepRf_mem (s s' : State) : (s.retireKeepRf s').mem = s'.mem := rfl
@[simp] theorem State.retireKeepRf_ioInputs (s s' : State) : (s.retireKeepRf s').ioInputs = s'.ioInputs := rfl
@[simp] theorem State.retireKeepRf_bus (s s' : State) : (s.retireKeepRf s').bus = s'.bus := rfl
@[simp] theorem State.retireKeepRf_deviceBus (s s' : State) : (s.retireKeepRf s').deviceBus = s'.deviceBus := rfl
@[simp] theorem State.retireKeepRf_pins (s s' : State) : (s.retireKeepRf s').pins = s'.pins := rfl
@[simp] theorem State.retireKeepRf_copRequest (s s' : State) : (s.retireKeepRf s').copRequest = s'.copRequest := rfl
@[simp] theorem State.retireKeepRf_instrEip (s s' : State) : (s.retireKeepRf s').instrEip = s'.instrEip := rfl
@[simp] theorem State.retireKeepRf_eipOver (s s' : State) : (s.retireKeepRf s').eipOver = s'.eipOver := rfl
@[simp] theorem State.retireKeepRf_pfx (s s' : State) : (s.retireKeepRf s').pfx = Prefixes.none := rfl
@[simp] theorem State.retireKeepRf_pendingDb (s s' : State) : (s.retireKeepRf s').pendingDb = s'.pendingDb ||| s.stepBit := rfl
@[simp] theorem State.retireKeepRf_draws (s s' : State) : (s.retireKeepRf s').draws = s'.draws := rfl
@[simp] theorem State.retireKeepRf_params (s s' : State) : (s.retireKeepRf s').params = s'.params := rfl

/-! retireSs -/

@[simp] theorem State.retireSs_regs (s s' : State) : (s.retireSs s').regs = s'.regs := rfl
@[simp] theorem State.retireSs_eip (s s' : State) : (s.retireSs s').eip = s'.eip := rfl
@[simp] theorem State.retireSs_eflags (s s' : State) : (s.retireSs s').eflags = { s'.eflags with rf := false } := rfl
@[simp] theorem State.retireSs_es (s s' : State) : (s.retireSs s').es = s'.es := rfl
@[simp] theorem State.retireSs_cs (s s' : State) : (s.retireSs s').cs = s'.cs := rfl
@[simp] theorem State.retireSs_ss (s s' : State) : (s.retireSs s').ss = s'.ss := rfl
@[simp] theorem State.retireSs_ds (s s' : State) : (s.retireSs s').ds = s'.ds := rfl
@[simp] theorem State.retireSs_fs (s s' : State) : (s.retireSs s').fs = s'.fs := rfl
@[simp] theorem State.retireSs_gs (s s' : State) : (s.retireSs s').gs = s'.gs := rfl
@[simp] theorem State.retireSs_cr0 (s s' : State) : (s.retireSs s').cr0 = s'.cr0 := rfl
@[simp] theorem State.retireSs_cr2 (s s' : State) : (s.retireSs s').cr2 = s'.cr2 := rfl
@[simp] theorem State.retireSs_cr3 (s s' : State) : (s.retireSs s').cr3 = s'.cr3 := rfl
@[simp] theorem State.retireSs_gdtr (s s' : State) : (s.retireSs s').gdtr = s'.gdtr := rfl
@[simp] theorem State.retireSs_idtr (s s' : State) : (s.retireSs s').idtr = s'.idtr := rfl
@[simp] theorem State.retireSs_ldtr (s s' : State) : (s.retireSs s').ldtr = s'.ldtr := rfl
@[simp] theorem State.retireSs_tr (s s' : State) : (s.retireSs s').tr = s'.tr := rfl
@[simp] theorem State.retireSs_dr0 (s s' : State) : (s.retireSs s').dr0 = s'.dr0 := rfl
@[simp] theorem State.retireSs_dr1 (s s' : State) : (s.retireSs s').dr1 = s'.dr1 := rfl
@[simp] theorem State.retireSs_dr2 (s s' : State) : (s.retireSs s').dr2 = s'.dr2 := rfl
@[simp] theorem State.retireSs_dr3 (s s' : State) : (s.retireSs s').dr3 = s'.dr3 := rfl
@[simp] theorem State.retireSs_dr6 (s s' : State) : (s.retireSs s').dr6 = s'.dr6 := rfl
@[simp] theorem State.retireSs_dr7 (s s' : State) : (s.retireSs s').dr7 = s'.dr7 := rfl
@[simp] theorem State.retireSs_tr6 (s s' : State) : (s.retireSs s').tr6 = s'.tr6 := rfl
@[simp] theorem State.retireSs_tr7 (s s' : State) : (s.retireSs s').tr7 = s'.tr7 := rfl
@[simp] theorem State.retireSs_cpl (s s' : State) : (s.retireSs s').cpl = s'.cpl := rfl
@[simp] theorem State.retireSs_nmiPending (s s' : State) : (s.retireSs s').nmiPending = s'.nmiPending := rfl
@[simp] theorem State.retireSs_nmiInService (s s' : State) : (s.retireSs s').nmiInService = s'.nmiInService := rfl
@[simp] theorem State.retireSs_shadow (s s' : State) : (s.retireSs s').shadow = .ss := rfl
@[simp] theorem State.retireSs_runState (s s' : State) : (s.retireSs s').runState = s'.runState := rfl
@[simp] theorem State.retireSs_copOpcode (s s' : State) : (s.retireSs s').copOpcode = s'.copOpcode := rfl
@[simp] theorem State.retireSs_copOperand (s s' : State) : (s.retireSs s').copOperand = s'.copOperand := rfl
@[simp] theorem State.retireSs_tlb (s s' : State) : (s.retireSs s').tlb = s'.tlb := rfl
@[simp] theorem State.retireSs_stale (s s' : State) : (s.retireSs s').stale = s'.stale := rfl
@[simp] theorem State.retireSs_queued (s s' : State) : (s.retireSs s').queued = s'.queued := rfl
@[simp] theorem State.retireSs_mem (s s' : State) : (s.retireSs s').mem = s'.mem := rfl
@[simp] theorem State.retireSs_ioInputs (s s' : State) : (s.retireSs s').ioInputs = s'.ioInputs := rfl
@[simp] theorem State.retireSs_bus (s s' : State) : (s.retireSs s').bus = s'.bus := rfl
@[simp] theorem State.retireSs_deviceBus (s s' : State) : (s.retireSs s').deviceBus = s'.deviceBus := rfl
@[simp] theorem State.retireSs_pins (s s' : State) : (s.retireSs s').pins = s'.pins := rfl
@[simp] theorem State.retireSs_copRequest (s s' : State) : (s.retireSs s').copRequest = s'.copRequest := rfl
@[simp] theorem State.retireSs_instrEip (s s' : State) : (s.retireSs s').instrEip = s'.instrEip := rfl
@[simp] theorem State.retireSs_eipOver (s s' : State) : (s.retireSs s').eipOver = s'.eipOver := rfl
@[simp] theorem State.retireSs_pfx (s s' : State) : (s.retireSs s').pfx = Prefixes.none := rfl
@[simp] theorem State.retireSs_pendingDb (s s' : State) : (s.retireSs s').pendingDb = s'.pendingDb ||| s.stepBit := rfl
@[simp] theorem State.retireSs_draws (s s' : State) : (s.retireSs s').draws = s'.draws := rfl
@[simp] theorem State.retireSs_params (s s' : State) : (s.retireSs s').params = s'.params := rfl

/-! retireSti -/

@[simp] theorem State.retireSti_regs (s s' : State) : (s.retireSti s').regs = s'.regs := rfl
@[simp] theorem State.retireSti_eip (s s' : State) : (s.retireSti s').eip = s'.eip := rfl
@[simp] theorem State.retireSti_eflags (s s' : State) : (s.retireSti s').eflags = { s'.eflags with rf := false } := rfl
@[simp] theorem State.retireSti_es (s s' : State) : (s.retireSti s').es = s'.es := rfl
@[simp] theorem State.retireSti_cs (s s' : State) : (s.retireSti s').cs = s'.cs := rfl
@[simp] theorem State.retireSti_ss (s s' : State) : (s.retireSti s').ss = s'.ss := rfl
@[simp] theorem State.retireSti_ds (s s' : State) : (s.retireSti s').ds = s'.ds := rfl
@[simp] theorem State.retireSti_fs (s s' : State) : (s.retireSti s').fs = s'.fs := rfl
@[simp] theorem State.retireSti_gs (s s' : State) : (s.retireSti s').gs = s'.gs := rfl
@[simp] theorem State.retireSti_cr0 (s s' : State) : (s.retireSti s').cr0 = s'.cr0 := rfl
@[simp] theorem State.retireSti_cr2 (s s' : State) : (s.retireSti s').cr2 = s'.cr2 := rfl
@[simp] theorem State.retireSti_cr3 (s s' : State) : (s.retireSti s').cr3 = s'.cr3 := rfl
@[simp] theorem State.retireSti_gdtr (s s' : State) : (s.retireSti s').gdtr = s'.gdtr := rfl
@[simp] theorem State.retireSti_idtr (s s' : State) : (s.retireSti s').idtr = s'.idtr := rfl
@[simp] theorem State.retireSti_ldtr (s s' : State) : (s.retireSti s').ldtr = s'.ldtr := rfl
@[simp] theorem State.retireSti_tr (s s' : State) : (s.retireSti s').tr = s'.tr := rfl
@[simp] theorem State.retireSti_dr0 (s s' : State) : (s.retireSti s').dr0 = s'.dr0 := rfl
@[simp] theorem State.retireSti_dr1 (s s' : State) : (s.retireSti s').dr1 = s'.dr1 := rfl
@[simp] theorem State.retireSti_dr2 (s s' : State) : (s.retireSti s').dr2 = s'.dr2 := rfl
@[simp] theorem State.retireSti_dr3 (s s' : State) : (s.retireSti s').dr3 = s'.dr3 := rfl
@[simp] theorem State.retireSti_dr6 (s s' : State) : (s.retireSti s').dr6 = s'.dr6 := rfl
@[simp] theorem State.retireSti_dr7 (s s' : State) : (s.retireSti s').dr7 = s'.dr7 := rfl
@[simp] theorem State.retireSti_tr6 (s s' : State) : (s.retireSti s').tr6 = s'.tr6 := rfl
@[simp] theorem State.retireSti_tr7 (s s' : State) : (s.retireSti s').tr7 = s'.tr7 := rfl
@[simp] theorem State.retireSti_cpl (s s' : State) : (s.retireSti s').cpl = s'.cpl := rfl
@[simp] theorem State.retireSti_nmiPending (s s' : State) : (s.retireSti s').nmiPending = s'.nmiPending := rfl
@[simp] theorem State.retireSti_nmiInService (s s' : State) : (s.retireSti s').nmiInService = s'.nmiInService := rfl
@[simp] theorem State.retireSti_shadow (s s' : State) : (s.retireSti s').shadow = .sti := rfl
@[simp] theorem State.retireSti_runState (s s' : State) : (s.retireSti s').runState = s'.runState := rfl
@[simp] theorem State.retireSti_copOpcode (s s' : State) : (s.retireSti s').copOpcode = s'.copOpcode := rfl
@[simp] theorem State.retireSti_copOperand (s s' : State) : (s.retireSti s').copOperand = s'.copOperand := rfl
@[simp] theorem State.retireSti_tlb (s s' : State) : (s.retireSti s').tlb = s'.tlb := rfl
@[simp] theorem State.retireSti_stale (s s' : State) : (s.retireSti s').stale = s'.stale := rfl
@[simp] theorem State.retireSti_queued (s s' : State) : (s.retireSti s').queued = s'.queued := rfl
@[simp] theorem State.retireSti_mem (s s' : State) : (s.retireSti s').mem = s'.mem := rfl
@[simp] theorem State.retireSti_ioInputs (s s' : State) : (s.retireSti s').ioInputs = s'.ioInputs := rfl
@[simp] theorem State.retireSti_bus (s s' : State) : (s.retireSti s').bus = s'.bus := rfl
@[simp] theorem State.retireSti_deviceBus (s s' : State) : (s.retireSti s').deviceBus = s'.deviceBus := rfl
@[simp] theorem State.retireSti_pins (s s' : State) : (s.retireSti s').pins = s'.pins := rfl
@[simp] theorem State.retireSti_copRequest (s s' : State) : (s.retireSti s').copRequest = s'.copRequest := rfl
@[simp] theorem State.retireSti_instrEip (s s' : State) : (s.retireSti s').instrEip = s'.instrEip := rfl
@[simp] theorem State.retireSti_eipOver (s s' : State) : (s.retireSti s').eipOver = s'.eipOver := rfl
@[simp] theorem State.retireSti_pfx (s s' : State) : (s.retireSti s').pfx = Prefixes.none := rfl
@[simp] theorem State.retireSti_pendingDb (s s' : State) : (s.retireSti s').pendingDb = s'.pendingDb ||| s.stepBit := rfl
@[simp] theorem State.retireSti_draws (s s' : State) : (s.retireSti s').draws = s'.draws := rfl
@[simp] theorem State.retireSti_params (s s' : State) : (s.retireSti s').params = s'.params := rfl

/-! retireIteration -/

@[simp] theorem State.retireIteration_regs (i : Instr) (s s' : State) : (s.retireIteration i s').regs = s'.regs := rfl
@[simp] theorem State.retireIteration_eip (i : Instr) (s s' : State) : (s.retireIteration i s').eip = s.instrEip := rfl
@[simp] theorem State.retireIteration_eflags (i : Instr) (s s' : State) : (s.retireIteration i s').eflags = s'.eflags := rfl
@[simp] theorem State.retireIteration_es (i : Instr) (s s' : State) : (s.retireIteration i s').es = s'.es := rfl
@[simp] theorem State.retireIteration_cs (i : Instr) (s s' : State) : (s.retireIteration i s').cs = s'.cs := rfl
@[simp] theorem State.retireIteration_ss (i : Instr) (s s' : State) : (s.retireIteration i s').ss = s'.ss := rfl
@[simp] theorem State.retireIteration_ds (i : Instr) (s s' : State) : (s.retireIteration i s').ds = s'.ds := rfl
@[simp] theorem State.retireIteration_fs (i : Instr) (s s' : State) : (s.retireIteration i s').fs = s'.fs := rfl
@[simp] theorem State.retireIteration_gs (i : Instr) (s s' : State) : (s.retireIteration i s').gs = s'.gs := rfl
@[simp] theorem State.retireIteration_cr0 (i : Instr) (s s' : State) : (s.retireIteration i s').cr0 = s'.cr0 := rfl
@[simp] theorem State.retireIteration_cr2 (i : Instr) (s s' : State) : (s.retireIteration i s').cr2 = s'.cr2 := rfl
@[simp] theorem State.retireIteration_cr3 (i : Instr) (s s' : State) : (s.retireIteration i s').cr3 = s'.cr3 := rfl
@[simp] theorem State.retireIteration_gdtr (i : Instr) (s s' : State) : (s.retireIteration i s').gdtr = s'.gdtr := rfl
@[simp] theorem State.retireIteration_idtr (i : Instr) (s s' : State) : (s.retireIteration i s').idtr = s'.idtr := rfl
@[simp] theorem State.retireIteration_ldtr (i : Instr) (s s' : State) : (s.retireIteration i s').ldtr = s'.ldtr := rfl
@[simp] theorem State.retireIteration_tr (i : Instr) (s s' : State) : (s.retireIteration i s').tr = s'.tr := rfl
@[simp] theorem State.retireIteration_dr0 (i : Instr) (s s' : State) : (s.retireIteration i s').dr0 = s'.dr0 := rfl
@[simp] theorem State.retireIteration_dr1 (i : Instr) (s s' : State) : (s.retireIteration i s').dr1 = s'.dr1 := rfl
@[simp] theorem State.retireIteration_dr2 (i : Instr) (s s' : State) : (s.retireIteration i s').dr2 = s'.dr2 := rfl
@[simp] theorem State.retireIteration_dr3 (i : Instr) (s s' : State) : (s.retireIteration i s').dr3 = s'.dr3 := rfl
@[simp] theorem State.retireIteration_dr6 (i : Instr) (s s' : State) : (s.retireIteration i s').dr6 = s'.dr6 := rfl
@[simp] theorem State.retireIteration_dr7 (i : Instr) (s s' : State) : (s.retireIteration i s').dr7 = s'.dr7 := rfl
@[simp] theorem State.retireIteration_tr6 (i : Instr) (s s' : State) : (s.retireIteration i s').tr6 = s'.tr6 := rfl
@[simp] theorem State.retireIteration_tr7 (i : Instr) (s s' : State) : (s.retireIteration i s').tr7 = s'.tr7 := rfl
@[simp] theorem State.retireIteration_cpl (i : Instr) (s s' : State) : (s.retireIteration i s').cpl = s'.cpl := rfl
@[simp] theorem State.retireIteration_nmiPending (i : Instr) (s s' : State) : (s.retireIteration i s').nmiPending = s'.nmiPending := rfl
@[simp] theorem State.retireIteration_nmiInService (i : Instr) (s s' : State) : (s.retireIteration i s').nmiInService = s'.nmiInService := rfl
@[simp] theorem State.retireIteration_shadow (i : Instr) (s s' : State) : (s.retireIteration i s').shadow = s'.shadow := rfl
@[simp] theorem State.retireIteration_runState (i : Instr) (s s' : State) : (s.retireIteration i s').runState = s'.runState := rfl
@[simp] theorem State.retireIteration_copOpcode (i : Instr) (s s' : State) : (s.retireIteration i s').copOpcode = s'.copOpcode := rfl
@[simp] theorem State.retireIteration_copOperand (i : Instr) (s s' : State) : (s.retireIteration i s').copOperand = s'.copOperand := rfl
@[simp] theorem State.retireIteration_tlb (i : Instr) (s s' : State) : (s.retireIteration i s').tlb = s'.tlb := rfl
@[simp] theorem State.retireIteration_stale (i : Instr) (s s' : State) : (s.retireIteration i s').stale = s'.stale := rfl
@[simp] theorem State.retireIteration_queued (i : Instr) (s s' : State) : (s.retireIteration i s').queued = s'.queued := rfl
@[simp] theorem State.retireIteration_mem (i : Instr) (s s' : State) : (s.retireIteration i s').mem = s'.mem := rfl
@[simp] theorem State.retireIteration_ioInputs (i : Instr) (s s' : State) : (s.retireIteration i s').ioInputs = s'.ioInputs := rfl
@[simp] theorem State.retireIteration_bus (i : Instr) (s s' : State) : (s.retireIteration i s').bus = s'.bus := rfl
@[simp] theorem State.retireIteration_deviceBus (i : Instr) (s s' : State) : (s.retireIteration i s').deviceBus = s'.deviceBus := rfl
@[simp] theorem State.retireIteration_pins (i : Instr) (s s' : State) : (s.retireIteration i s').pins = s'.pins := rfl
@[simp] theorem State.retireIteration_copRequest (i : Instr) (s s' : State) : (s.retireIteration i s').copRequest = s'.copRequest := rfl
@[simp] theorem State.retireIteration_instrEip (i : Instr) (s s' : State) : (s.retireIteration i s').instrEip = s'.instrEip := rfl
@[simp] theorem State.retireIteration_eipOver (i : Instr) (s s' : State) : (s.retireIteration i s').eipOver = false := rfl
@[simp] theorem State.retireIteration_pfx (i : Instr) (s s' : State) : (s.retireIteration i s').pfx = { s.pfx with count := 0, again := some { instr := i, next := s.eip, nextOver := s.eipOver } } := rfl
@[simp] theorem State.retireIteration_pendingDb (i : Instr) (s s' : State) : (s.retireIteration i s').pendingDb = s'.pendingDb ||| s.stepBit := rfl
@[simp] theorem State.retireIteration_draws (i : Instr) (s s' : State) : (s.retireIteration i s').draws = s'.draws := rfl
@[simp] theorem State.retireIteration_params (i : Instr) (s s' : State) : (s.retireIteration i s').params = s'.params := rfl

/-! retireWaiting -/

@[simp] theorem State.retireWaiting_regs (s s' : State) : (s.retireWaiting s').regs = s'.regs := rfl
@[simp] theorem State.retireWaiting_eip (s s' : State) : (s.retireWaiting s').eip = s.instrEip := rfl
@[simp] theorem State.retireWaiting_eflags (s s' : State) : (s.retireWaiting s').eflags = s'.eflags := rfl
@[simp] theorem State.retireWaiting_es (s s' : State) : (s.retireWaiting s').es = s'.es := rfl
@[simp] theorem State.retireWaiting_cs (s s' : State) : (s.retireWaiting s').cs = s'.cs := rfl
@[simp] theorem State.retireWaiting_ss (s s' : State) : (s.retireWaiting s').ss = s'.ss := rfl
@[simp] theorem State.retireWaiting_ds (s s' : State) : (s.retireWaiting s').ds = s'.ds := rfl
@[simp] theorem State.retireWaiting_fs (s s' : State) : (s.retireWaiting s').fs = s'.fs := rfl
@[simp] theorem State.retireWaiting_gs (s s' : State) : (s.retireWaiting s').gs = s'.gs := rfl
@[simp] theorem State.retireWaiting_cr0 (s s' : State) : (s.retireWaiting s').cr0 = s'.cr0 := rfl
@[simp] theorem State.retireWaiting_cr2 (s s' : State) : (s.retireWaiting s').cr2 = s'.cr2 := rfl
@[simp] theorem State.retireWaiting_cr3 (s s' : State) : (s.retireWaiting s').cr3 = s'.cr3 := rfl
@[simp] theorem State.retireWaiting_gdtr (s s' : State) : (s.retireWaiting s').gdtr = s'.gdtr := rfl
@[simp] theorem State.retireWaiting_idtr (s s' : State) : (s.retireWaiting s').idtr = s'.idtr := rfl
@[simp] theorem State.retireWaiting_ldtr (s s' : State) : (s.retireWaiting s').ldtr = s'.ldtr := rfl
@[simp] theorem State.retireWaiting_tr (s s' : State) : (s.retireWaiting s').tr = s'.tr := rfl
@[simp] theorem State.retireWaiting_dr0 (s s' : State) : (s.retireWaiting s').dr0 = s'.dr0 := rfl
@[simp] theorem State.retireWaiting_dr1 (s s' : State) : (s.retireWaiting s').dr1 = s'.dr1 := rfl
@[simp] theorem State.retireWaiting_dr2 (s s' : State) : (s.retireWaiting s').dr2 = s'.dr2 := rfl
@[simp] theorem State.retireWaiting_dr3 (s s' : State) : (s.retireWaiting s').dr3 = s'.dr3 := rfl
@[simp] theorem State.retireWaiting_dr6 (s s' : State) : (s.retireWaiting s').dr6 = s'.dr6 := rfl
@[simp] theorem State.retireWaiting_dr7 (s s' : State) : (s.retireWaiting s').dr7 = s'.dr7 := rfl
@[simp] theorem State.retireWaiting_tr6 (s s' : State) : (s.retireWaiting s').tr6 = s'.tr6 := rfl
@[simp] theorem State.retireWaiting_tr7 (s s' : State) : (s.retireWaiting s').tr7 = s'.tr7 := rfl
@[simp] theorem State.retireWaiting_cpl (s s' : State) : (s.retireWaiting s').cpl = s'.cpl := rfl
@[simp] theorem State.retireWaiting_nmiPending (s s' : State) : (s.retireWaiting s').nmiPending = s'.nmiPending := rfl
@[simp] theorem State.retireWaiting_nmiInService (s s' : State) : (s.retireWaiting s').nmiInService = s'.nmiInService := rfl
@[simp] theorem State.retireWaiting_shadow (s s' : State) : (s.retireWaiting s').shadow = s'.shadow := rfl
@[simp] theorem State.retireWaiting_runState (s s' : State) : (s.retireWaiting s').runState = s'.runState := rfl
@[simp] theorem State.retireWaiting_copOpcode (s s' : State) : (s.retireWaiting s').copOpcode = s'.copOpcode := rfl
@[simp] theorem State.retireWaiting_copOperand (s s' : State) : (s.retireWaiting s').copOperand = s'.copOperand := rfl
@[simp] theorem State.retireWaiting_tlb (s s' : State) : (s.retireWaiting s').tlb = s'.tlb := rfl
@[simp] theorem State.retireWaiting_stale (s s' : State) : (s.retireWaiting s').stale = s'.stale := rfl
@[simp] theorem State.retireWaiting_queued (s s' : State) : (s.retireWaiting s').queued = s'.queued := rfl
@[simp] theorem State.retireWaiting_mem (s s' : State) : (s.retireWaiting s').mem = s'.mem := rfl
@[simp] theorem State.retireWaiting_ioInputs (s s' : State) : (s.retireWaiting s').ioInputs = s'.ioInputs := rfl
@[simp] theorem State.retireWaiting_bus (s s' : State) : (s.retireWaiting s').bus = s'.bus := rfl
@[simp] theorem State.retireWaiting_deviceBus (s s' : State) : (s.retireWaiting s').deviceBus = s'.deviceBus := rfl
@[simp] theorem State.retireWaiting_pins (s s' : State) : (s.retireWaiting s').pins = s'.pins := rfl
@[simp] theorem State.retireWaiting_copRequest (s s' : State) : (s.retireWaiting s').copRequest = s'.copRequest := rfl
@[simp] theorem State.retireWaiting_instrEip (s s' : State) : (s.retireWaiting s').instrEip = s'.instrEip := rfl
@[simp] theorem State.retireWaiting_eipOver (s s' : State) : (s.retireWaiting s').eipOver = false := rfl
@[simp] theorem State.retireWaiting_pfx (s s' : State) : (s.retireWaiting s').pfx = Prefixes.none := rfl
@[simp] theorem State.retireWaiting_pendingDb (s s' : State) : (s.retireWaiting s').pendingDb = s'.pendingDb := rfl
@[simp] theorem State.retireWaiting_draws (s s' : State) : (s.retireWaiting s').draws = s'.draws := rfl
@[simp] theorem State.retireWaiting_params (s s' : State) : (s.retireWaiting s').params = s'.params := rfl

/-! storePhys -/

@[simp] theorem State.storePhys_regs (s : State) (as : List Dword) (bs : List Byte) : (s.storePhys as bs).regs = s.regs := rfl
@[simp] theorem State.storePhys_eip (s : State) (as : List Dword) (bs : List Byte) : (s.storePhys as bs).eip = s.eip := rfl
@[simp] theorem State.storePhys_eflags (s : State) (as : List Dword) (bs : List Byte) : (s.storePhys as bs).eflags = s.eflags := rfl
@[simp] theorem State.storePhys_es (s : State) (as : List Dword) (bs : List Byte) : (s.storePhys as bs).es = s.es := rfl
@[simp] theorem State.storePhys_cs (s : State) (as : List Dword) (bs : List Byte) : (s.storePhys as bs).cs = s.cs := rfl
@[simp] theorem State.storePhys_ss (s : State) (as : List Dword) (bs : List Byte) : (s.storePhys as bs).ss = s.ss := rfl
@[simp] theorem State.storePhys_ds (s : State) (as : List Dword) (bs : List Byte) : (s.storePhys as bs).ds = s.ds := rfl
@[simp] theorem State.storePhys_fs (s : State) (as : List Dword) (bs : List Byte) : (s.storePhys as bs).fs = s.fs := rfl
@[simp] theorem State.storePhys_gs (s : State) (as : List Dword) (bs : List Byte) : (s.storePhys as bs).gs = s.gs := rfl
@[simp] theorem State.storePhys_cr0 (s : State) (as : List Dword) (bs : List Byte) : (s.storePhys as bs).cr0 = s.cr0 := rfl
@[simp] theorem State.storePhys_cr2 (s : State) (as : List Dword) (bs : List Byte) : (s.storePhys as bs).cr2 = s.cr2 := rfl
@[simp] theorem State.storePhys_cr3 (s : State) (as : List Dword) (bs : List Byte) : (s.storePhys as bs).cr3 = s.cr3 := rfl
@[simp] theorem State.storePhys_gdtr (s : State) (as : List Dword) (bs : List Byte) : (s.storePhys as bs).gdtr = s.gdtr := rfl
@[simp] theorem State.storePhys_idtr (s : State) (as : List Dword) (bs : List Byte) : (s.storePhys as bs).idtr = s.idtr := rfl
@[simp] theorem State.storePhys_ldtr (s : State) (as : List Dword) (bs : List Byte) : (s.storePhys as bs).ldtr = s.ldtr := rfl
@[simp] theorem State.storePhys_tr (s : State) (as : List Dword) (bs : List Byte) : (s.storePhys as bs).tr = s.tr := rfl
@[simp] theorem State.storePhys_dr0 (s : State) (as : List Dword) (bs : List Byte) : (s.storePhys as bs).dr0 = s.dr0 := rfl
@[simp] theorem State.storePhys_dr1 (s : State) (as : List Dword) (bs : List Byte) : (s.storePhys as bs).dr1 = s.dr1 := rfl
@[simp] theorem State.storePhys_dr2 (s : State) (as : List Dword) (bs : List Byte) : (s.storePhys as bs).dr2 = s.dr2 := rfl
@[simp] theorem State.storePhys_dr3 (s : State) (as : List Dword) (bs : List Byte) : (s.storePhys as bs).dr3 = s.dr3 := rfl
@[simp] theorem State.storePhys_dr6 (s : State) (as : List Dword) (bs : List Byte) : (s.storePhys as bs).dr6 = s.dr6 := rfl
@[simp] theorem State.storePhys_dr7 (s : State) (as : List Dword) (bs : List Byte) : (s.storePhys as bs).dr7 = s.dr7 := rfl
@[simp] theorem State.storePhys_tr6 (s : State) (as : List Dword) (bs : List Byte) : (s.storePhys as bs).tr6 = s.tr6 := rfl
@[simp] theorem State.storePhys_tr7 (s : State) (as : List Dword) (bs : List Byte) : (s.storePhys as bs).tr7 = s.tr7 := rfl
@[simp] theorem State.storePhys_cpl (s : State) (as : List Dword) (bs : List Byte) : (s.storePhys as bs).cpl = s.cpl := rfl
@[simp] theorem State.storePhys_nmiPending (s : State) (as : List Dword) (bs : List Byte) : (s.storePhys as bs).nmiPending = s.nmiPending := rfl
@[simp] theorem State.storePhys_nmiInService (s : State) (as : List Dword) (bs : List Byte) : (s.storePhys as bs).nmiInService = s.nmiInService := rfl
@[simp] theorem State.storePhys_shadow (s : State) (as : List Dword) (bs : List Byte) : (s.storePhys as bs).shadow = s.shadow := rfl
@[simp] theorem State.storePhys_runState (s : State) (as : List Dword) (bs : List Byte) : (s.storePhys as bs).runState = s.runState := rfl
@[simp] theorem State.storePhys_copOpcode (s : State) (as : List Dword) (bs : List Byte) : (s.storePhys as bs).copOpcode = s.copOpcode := rfl
@[simp] theorem State.storePhys_copOperand (s : State) (as : List Dword) (bs : List Byte) : (s.storePhys as bs).copOperand = s.copOperand := rfl
@[simp] theorem State.storePhys_tlb (s : State) (as : List Dword) (bs : List Byte) : (s.storePhys as bs).tlb = s.tlb := rfl
@[simp] theorem State.storePhys_stale (s : State) (as : List Dword) (bs : List Byte) : (s.storePhys as bs).stale = (as.filter fun a => Memory.read (writeCells s.isFixed s.mem as bs) a.toNat != s.readByte a && s.inPrefetchWindow a) ++ s.stale := rfl
@[simp] theorem State.storePhys_queued (s : State) (as : List Dword) (bs : List Byte) : (s.storePhys as bs).queued = s.queued := rfl
@[simp] theorem State.storePhys_mem (s : State) (as : List Dword) (bs : List Byte) : (s.storePhys as bs).mem = writeCells s.isFixed s.mem as bs := rfl
@[simp] theorem State.storePhys_ioInputs (s : State) (as : List Dword) (bs : List Byte) : (s.storePhys as bs).ioInputs = s.ioInputs := rfl
@[simp] theorem State.storePhys_bus (s : State) (as : List Dword) (bs : List Byte) : (s.storePhys as bs).bus = s.bus := rfl
@[simp] theorem State.storePhys_deviceBus (s : State) (as : List Dword) (bs : List Byte) : (s.storePhys as bs).deviceBus = s.deviceBus := rfl
@[simp] theorem State.storePhys_pins (s : State) (as : List Dword) (bs : List Byte) : (s.storePhys as bs).pins = s.pins := rfl
@[simp] theorem State.storePhys_copRequest (s : State) (as : List Dword) (bs : List Byte) : (s.storePhys as bs).copRequest = s.copRequest := rfl
@[simp] theorem State.storePhys_instrEip (s : State) (as : List Dword) (bs : List Byte) : (s.storePhys as bs).instrEip = s.instrEip := rfl
@[simp] theorem State.storePhys_eipOver (s : State) (as : List Dword) (bs : List Byte) : (s.storePhys as bs).eipOver = s.eipOver := rfl
@[simp] theorem State.storePhys_pfx (s : State) (as : List Dword) (bs : List Byte) : (s.storePhys as bs).pfx = s.pfx := rfl
@[simp] theorem State.storePhys_pendingDb (s : State) (as : List Dword) (bs : List Byte) : (s.storePhys as bs).pendingDb = s.pendingDb := rfl
@[simp] theorem State.storePhys_draws (s : State) (as : List Dword) (bs : List Byte) : (s.storePhys as bs).draws = s.draws := rfl
@[simp] theorem State.storePhys_params (s : State) (as : List Dword) (bs : List Byte) : (s.storePhys as bs).params = s.params := rfl

/-! setPhysDword -/

@[simp] theorem State.setPhysDword_regs (s : State) (a v : Dword) : (s.setPhysDword a v).regs = s.regs := rfl
@[simp] theorem State.setPhysDword_eip (s : State) (a v : Dword) : (s.setPhysDword a v).eip = s.eip := rfl
@[simp] theorem State.setPhysDword_eflags (s : State) (a v : Dword) : (s.setPhysDword a v).eflags = s.eflags := rfl
@[simp] theorem State.setPhysDword_es (s : State) (a v : Dword) : (s.setPhysDword a v).es = s.es := rfl
@[simp] theorem State.setPhysDword_cs (s : State) (a v : Dword) : (s.setPhysDword a v).cs = s.cs := rfl
@[simp] theorem State.setPhysDword_ss (s : State) (a v : Dword) : (s.setPhysDword a v).ss = s.ss := rfl
@[simp] theorem State.setPhysDword_ds (s : State) (a v : Dword) : (s.setPhysDword a v).ds = s.ds := rfl
@[simp] theorem State.setPhysDword_fs (s : State) (a v : Dword) : (s.setPhysDword a v).fs = s.fs := rfl
@[simp] theorem State.setPhysDword_gs (s : State) (a v : Dword) : (s.setPhysDword a v).gs = s.gs := rfl
@[simp] theorem State.setPhysDword_cr0 (s : State) (a v : Dword) : (s.setPhysDword a v).cr0 = s.cr0 := rfl
@[simp] theorem State.setPhysDword_cr2 (s : State) (a v : Dword) : (s.setPhysDword a v).cr2 = s.cr2 := rfl
@[simp] theorem State.setPhysDword_cr3 (s : State) (a v : Dword) : (s.setPhysDword a v).cr3 = s.cr3 := rfl
@[simp] theorem State.setPhysDword_gdtr (s : State) (a v : Dword) : (s.setPhysDword a v).gdtr = s.gdtr := rfl
@[simp] theorem State.setPhysDword_idtr (s : State) (a v : Dword) : (s.setPhysDword a v).idtr = s.idtr := rfl
@[simp] theorem State.setPhysDword_ldtr (s : State) (a v : Dword) : (s.setPhysDword a v).ldtr = s.ldtr := rfl
@[simp] theorem State.setPhysDword_tr (s : State) (a v : Dword) : (s.setPhysDword a v).tr = s.tr := rfl
@[simp] theorem State.setPhysDword_dr0 (s : State) (a v : Dword) : (s.setPhysDword a v).dr0 = s.dr0 := rfl
@[simp] theorem State.setPhysDword_dr1 (s : State) (a v : Dword) : (s.setPhysDword a v).dr1 = s.dr1 := rfl
@[simp] theorem State.setPhysDword_dr2 (s : State) (a v : Dword) : (s.setPhysDword a v).dr2 = s.dr2 := rfl
@[simp] theorem State.setPhysDword_dr3 (s : State) (a v : Dword) : (s.setPhysDword a v).dr3 = s.dr3 := rfl
@[simp] theorem State.setPhysDword_dr6 (s : State) (a v : Dword) : (s.setPhysDword a v).dr6 = s.dr6 := rfl
@[simp] theorem State.setPhysDword_dr7 (s : State) (a v : Dword) : (s.setPhysDword a v).dr7 = s.dr7 := rfl
@[simp] theorem State.setPhysDword_tr6 (s : State) (a v : Dword) : (s.setPhysDword a v).tr6 = s.tr6 := rfl
@[simp] theorem State.setPhysDword_tr7 (s : State) (a v : Dword) : (s.setPhysDword a v).tr7 = s.tr7 := rfl
@[simp] theorem State.setPhysDword_cpl (s : State) (a v : Dword) : (s.setPhysDword a v).cpl = s.cpl := rfl
@[simp] theorem State.setPhysDword_nmiPending (s : State) (a v : Dword) : (s.setPhysDword a v).nmiPending = s.nmiPending := rfl
@[simp] theorem State.setPhysDword_nmiInService (s : State) (a v : Dword) : (s.setPhysDword a v).nmiInService = s.nmiInService := rfl
@[simp] theorem State.setPhysDword_shadow (s : State) (a v : Dword) : (s.setPhysDword a v).shadow = s.shadow := rfl
@[simp] theorem State.setPhysDword_runState (s : State) (a v : Dword) : (s.setPhysDword a v).runState = s.runState := rfl
@[simp] theorem State.setPhysDword_copOpcode (s : State) (a v : Dword) : (s.setPhysDword a v).copOpcode = s.copOpcode := rfl
@[simp] theorem State.setPhysDword_copOperand (s : State) (a v : Dword) : (s.setPhysDword a v).copOperand = s.copOperand := rfl
@[simp] theorem State.setPhysDword_tlb (s : State) (a v : Dword) : (s.setPhysDword a v).tlb = s.tlb := rfl
@[simp] theorem State.setPhysDword_stale (s : State) (a v : Dword) : (s.setPhysDword a v).stale = s.stale := rfl
@[simp] theorem State.setPhysDword_queued (s : State) (a v : Dword) : (s.setPhysDword a v).queued = s.queued := rfl
@[simp] theorem State.setPhysDword_mem (s : State) (a v : Dword) : (s.setPhysDword a v).mem = writeCells s.isFixed s.mem [a, a + 1, a + 2, a + 3] (leBytes 4 v) := rfl
@[simp] theorem State.setPhysDword_ioInputs (s : State) (a v : Dword) : (s.setPhysDword a v).ioInputs = s.ioInputs := rfl
@[simp] theorem State.setPhysDword_bus (s : State) (a v : Dword) : (s.setPhysDword a v).bus = s.bus := rfl
@[simp] theorem State.setPhysDword_deviceBus (s : State) (a v : Dword) : (s.setPhysDword a v).deviceBus = s.deviceBus := rfl
@[simp] theorem State.setPhysDword_pins (s : State) (a v : Dword) : (s.setPhysDword a v).pins = s.pins := rfl
@[simp] theorem State.setPhysDword_copRequest (s : State) (a v : Dword) : (s.setPhysDword a v).copRequest = s.copRequest := rfl
@[simp] theorem State.setPhysDword_instrEip (s : State) (a v : Dword) : (s.setPhysDword a v).instrEip = s.instrEip := rfl
@[simp] theorem State.setPhysDword_eipOver (s : State) (a v : Dword) : (s.setPhysDword a v).eipOver = s.eipOver := rfl
@[simp] theorem State.setPhysDword_pfx (s : State) (a v : Dword) : (s.setPhysDword a v).pfx = s.pfx := rfl
@[simp] theorem State.setPhysDword_pendingDb (s : State) (a v : Dword) : (s.setPhysDword a v).pendingDb = s.pendingDb := rfl
@[simp] theorem State.setPhysDword_draws (s : State) (a v : Dword) : (s.setPhysDword a v).draws = s.draws := rfl
@[simp] theorem State.setPhysDword_params (s : State) (a v : Dword) : (s.setPhysDword a v).params = s.params := rfl

/-! skip -/

@[simp] theorem State.skip_regs (s : State) (n : Nat) : (s.skip n).regs = s.regs := rfl
@[simp] theorem State.skip_eip (s : State) (n : Nat) : (s.skip n).eip = s.eip + BitVec.ofNat 32 n := rfl
@[simp] theorem State.skip_eflags (s : State) (n : Nat) : (s.skip n).eflags = s.eflags := rfl
@[simp] theorem State.skip_es (s : State) (n : Nat) : (s.skip n).es = s.es := rfl
@[simp] theorem State.skip_cs (s : State) (n : Nat) : (s.skip n).cs = s.cs := rfl
@[simp] theorem State.skip_ss (s : State) (n : Nat) : (s.skip n).ss = s.ss := rfl
@[simp] theorem State.skip_ds (s : State) (n : Nat) : (s.skip n).ds = s.ds := rfl
@[simp] theorem State.skip_fs (s : State) (n : Nat) : (s.skip n).fs = s.fs := rfl
@[simp] theorem State.skip_gs (s : State) (n : Nat) : (s.skip n).gs = s.gs := rfl
@[simp] theorem State.skip_cr0 (s : State) (n : Nat) : (s.skip n).cr0 = s.cr0 := rfl
@[simp] theorem State.skip_cr2 (s : State) (n : Nat) : (s.skip n).cr2 = s.cr2 := rfl
@[simp] theorem State.skip_cr3 (s : State) (n : Nat) : (s.skip n).cr3 = s.cr3 := rfl
@[simp] theorem State.skip_gdtr (s : State) (n : Nat) : (s.skip n).gdtr = s.gdtr := rfl
@[simp] theorem State.skip_idtr (s : State) (n : Nat) : (s.skip n).idtr = s.idtr := rfl
@[simp] theorem State.skip_ldtr (s : State) (n : Nat) : (s.skip n).ldtr = s.ldtr := rfl
@[simp] theorem State.skip_tr (s : State) (n : Nat) : (s.skip n).tr = s.tr := rfl
@[simp] theorem State.skip_dr0 (s : State) (n : Nat) : (s.skip n).dr0 = s.dr0 := rfl
@[simp] theorem State.skip_dr1 (s : State) (n : Nat) : (s.skip n).dr1 = s.dr1 := rfl
@[simp] theorem State.skip_dr2 (s : State) (n : Nat) : (s.skip n).dr2 = s.dr2 := rfl
@[simp] theorem State.skip_dr3 (s : State) (n : Nat) : (s.skip n).dr3 = s.dr3 := rfl
@[simp] theorem State.skip_dr6 (s : State) (n : Nat) : (s.skip n).dr6 = s.dr6 := rfl
@[simp] theorem State.skip_dr7 (s : State) (n : Nat) : (s.skip n).dr7 = s.dr7 := rfl
@[simp] theorem State.skip_tr6 (s : State) (n : Nat) : (s.skip n).tr6 = s.tr6 := rfl
@[simp] theorem State.skip_tr7 (s : State) (n : Nat) : (s.skip n).tr7 = s.tr7 := rfl
@[simp] theorem State.skip_cpl (s : State) (n : Nat) : (s.skip n).cpl = s.cpl := rfl
@[simp] theorem State.skip_nmiPending (s : State) (n : Nat) : (s.skip n).nmiPending = s.nmiPending := rfl
@[simp] theorem State.skip_nmiInService (s : State) (n : Nat) : (s.skip n).nmiInService = s.nmiInService := rfl
@[simp] theorem State.skip_shadow (s : State) (n : Nat) : (s.skip n).shadow = s.shadow := rfl
@[simp] theorem State.skip_runState (s : State) (n : Nat) : (s.skip n).runState = s.runState := rfl
@[simp] theorem State.skip_copOpcode (s : State) (n : Nat) : (s.skip n).copOpcode = s.copOpcode := rfl
@[simp] theorem State.skip_copOperand (s : State) (n : Nat) : (s.skip n).copOperand = s.copOperand := rfl
@[simp] theorem State.skip_tlb (s : State) (n : Nat) : (s.skip n).tlb = s.tlb := rfl
@[simp] theorem State.skip_stale (s : State) (n : Nat) : (s.skip n).stale = s.stale := rfl
@[simp] theorem State.skip_queued (s : State) (n : Nat) : (s.skip n).queued = s.queued := rfl
@[simp] theorem State.skip_mem (s : State) (n : Nat) : (s.skip n).mem = s.mem := rfl
@[simp] theorem State.skip_ioInputs (s : State) (n : Nat) : (s.skip n).ioInputs = s.ioInputs := rfl
@[simp] theorem State.skip_bus (s : State) (n : Nat) : (s.skip n).bus = s.bus := rfl
@[simp] theorem State.skip_deviceBus (s : State) (n : Nat) : (s.skip n).deviceBus = s.deviceBus := rfl
@[simp] theorem State.skip_pins (s : State) (n : Nat) : (s.skip n).pins = s.pins := rfl
@[simp] theorem State.skip_copRequest (s : State) (n : Nat) : (s.skip n).copRequest = s.copRequest := rfl
@[simp] theorem State.skip_instrEip (s : State) (n : Nat) : (s.skip n).instrEip = s.instrEip := rfl
@[simp] theorem State.skip_eipOver (s : State) (n : Nat) : (s.skip n).eipOver = (s.eipOver || decide (2 ^ 32 ≤ s.eip.toNat + n)) := rfl
@[simp] theorem State.skip_pfx (s : State) (n : Nat) : (s.skip n).pfx = s.pfx := rfl
@[simp] theorem State.skip_pendingDb (s : State) (n : Nat) : (s.skip n).pendingDb = s.pendingDb := rfl
@[simp] theorem State.skip_draws (s : State) (n : Nat) : (s.skip n).draws = s.draws := rfl
@[simp] theorem State.skip_params (s : State) (n : Nat) : (s.skip n).params = s.params := rfl

/-! markStart -/

@[simp] theorem State.markStart_regs (s : State) : (s.markStart).regs = s.regs := by unfold State.markStart; split <;> [simp_all; (split <;> simp_all)]
@[simp] theorem State.markStart_eip (s : State) : (s.markStart).eip = s.eip := by unfold State.markStart; split <;> [simp_all; (split <;> simp_all)]
@[simp] theorem State.markStart_eflags (s : State) : (s.markStart).eflags = s.eflags := by unfold State.markStart; split <;> [simp_all; (split <;> simp_all)]
@[simp] theorem State.markStart_es (s : State) : (s.markStart).es = s.es := by unfold State.markStart; split <;> [simp_all; (split <;> simp_all)]
@[simp] theorem State.markStart_cs (s : State) : (s.markStart).cs = s.cs := by unfold State.markStart; split <;> [simp_all; (split <;> simp_all)]
@[simp] theorem State.markStart_ss (s : State) : (s.markStart).ss = s.ss := by unfold State.markStart; split <;> [simp_all; (split <;> simp_all)]
@[simp] theorem State.markStart_ds (s : State) : (s.markStart).ds = s.ds := by unfold State.markStart; split <;> [simp_all; (split <;> simp_all)]
@[simp] theorem State.markStart_fs (s : State) : (s.markStart).fs = s.fs := by unfold State.markStart; split <;> [simp_all; (split <;> simp_all)]
@[simp] theorem State.markStart_gs (s : State) : (s.markStart).gs = s.gs := by unfold State.markStart; split <;> [simp_all; (split <;> simp_all)]
@[simp] theorem State.markStart_cr0 (s : State) : (s.markStart).cr0 = s.cr0 := by unfold State.markStart; split <;> [simp_all; (split <;> simp_all)]
@[simp] theorem State.markStart_cr2 (s : State) : (s.markStart).cr2 = s.cr2 := by unfold State.markStart; split <;> [simp_all; (split <;> simp_all)]
@[simp] theorem State.markStart_cr3 (s : State) : (s.markStart).cr3 = s.cr3 := by unfold State.markStart; split <;> [simp_all; (split <;> simp_all)]
@[simp] theorem State.markStart_gdtr (s : State) : (s.markStart).gdtr = s.gdtr := by unfold State.markStart; split <;> [simp_all; (split <;> simp_all)]
@[simp] theorem State.markStart_idtr (s : State) : (s.markStart).idtr = s.idtr := by unfold State.markStart; split <;> [simp_all; (split <;> simp_all)]
@[simp] theorem State.markStart_ldtr (s : State) : (s.markStart).ldtr = s.ldtr := by unfold State.markStart; split <;> [simp_all; (split <;> simp_all)]
@[simp] theorem State.markStart_tr (s : State) : (s.markStart).tr = s.tr := by unfold State.markStart; split <;> [simp_all; (split <;> simp_all)]
@[simp] theorem State.markStart_dr0 (s : State) : (s.markStart).dr0 = s.dr0 := by unfold State.markStart; split <;> [simp_all; (split <;> simp_all)]
@[simp] theorem State.markStart_dr1 (s : State) : (s.markStart).dr1 = s.dr1 := by unfold State.markStart; split <;> [simp_all; (split <;> simp_all)]
@[simp] theorem State.markStart_dr2 (s : State) : (s.markStart).dr2 = s.dr2 := by unfold State.markStart; split <;> [simp_all; (split <;> simp_all)]
@[simp] theorem State.markStart_dr3 (s : State) : (s.markStart).dr3 = s.dr3 := by unfold State.markStart; split <;> [simp_all; (split <;> simp_all)]
@[simp] theorem State.markStart_dr6 (s : State) : (s.markStart).dr6 = s.dr6 := by unfold State.markStart; split <;> [simp_all; (split <;> simp_all)]
@[simp] theorem State.markStart_dr7 (s : State) : (s.markStart).dr7 = s.dr7 := by unfold State.markStart; split <;> [simp_all; (split <;> simp_all)]
@[simp] theorem State.markStart_tr6 (s : State) : (s.markStart).tr6 = s.tr6 := by unfold State.markStart; split <;> [simp_all; (split <;> simp_all)]
@[simp] theorem State.markStart_tr7 (s : State) : (s.markStart).tr7 = s.tr7 := by unfold State.markStart; split <;> [simp_all; (split <;> simp_all)]
@[simp] theorem State.markStart_cpl (s : State) : (s.markStart).cpl = s.cpl := by unfold State.markStart; split <;> [simp_all; (split <;> simp_all)]
@[simp] theorem State.markStart_nmiPending (s : State) : (s.markStart).nmiPending = s.nmiPending := by unfold State.markStart; split <;> [simp_all; (split <;> simp_all)]
@[simp] theorem State.markStart_nmiInService (s : State) : (s.markStart).nmiInService = s.nmiInService := by unfold State.markStart; split <;> [simp_all; (split <;> simp_all)]
@[simp] theorem State.markStart_shadow (s : State) : (s.markStart).shadow = s.shadow := by unfold State.markStart; split <;> [simp_all; (split <;> simp_all)]
@[simp] theorem State.markStart_runState (s : State) : (s.markStart).runState = s.runState := by unfold State.markStart; split <;> [simp_all; (split <;> simp_all)]
@[simp] theorem State.markStart_copOpcode (s : State) : (s.markStart).copOpcode = s.copOpcode := by unfold State.markStart; split <;> [simp_all; (split <;> simp_all)]
@[simp] theorem State.markStart_copOperand (s : State) : (s.markStart).copOperand = s.copOperand := by unfold State.markStart; split <;> [simp_all; (split <;> simp_all)]
@[simp] theorem State.markStart_tlb (s : State) : (s.markStart).tlb = s.tlb := by unfold State.markStart; split <;> [simp_all; (split <;> simp_all)]
@[simp] theorem State.markStart_stale (s : State) : (s.markStart).stale = s.stale := by unfold State.markStart; split <;> [simp_all; (split <;> simp_all)]
@[simp] theorem State.markStart_queued (s : State) : (s.markStart).queued = s.queued := by unfold State.markStart; split <;> [simp_all; (split <;> simp_all)]
@[simp] theorem State.markStart_mem (s : State) : (s.markStart).mem = s.mem := by unfold State.markStart; split <;> [simp_all; (split <;> simp_all)]
@[simp] theorem State.markStart_ioInputs (s : State) : (s.markStart).ioInputs = s.ioInputs := by unfold State.markStart; split <;> [simp_all; (split <;> simp_all)]
@[simp] theorem State.markStart_bus (s : State) : (s.markStart).bus = s.bus := by unfold State.markStart; split <;> [simp_all; (split <;> simp_all)]
@[simp] theorem State.markStart_deviceBus (s : State) : (s.markStart).deviceBus = s.deviceBus := by unfold State.markStart; split <;> [simp_all; (split <;> simp_all)]
@[simp] theorem State.markStart_pins (s : State) : (s.markStart).pins = s.pins := by unfold State.markStart; split <;> [simp_all; (split <;> simp_all)]
@[simp] theorem State.markStart_copRequest (s : State) : (s.markStart).copRequest = s.copRequest := by unfold State.markStart; split <;> [simp_all; (split <;> simp_all)]
@[simp] theorem State.markStart_instrEip (s : State) : (s.markStart).instrEip = if s.pfx.count = 0 then s.eip else s.instrEip := by unfold State.markStart; split <;> [simp_all; (split <;> simp_all)]
@[simp] theorem State.markStart_eipOver (s : State) : (s.markStart).eipOver = s.eipOver := by unfold State.markStart; split <;> [simp_all; (split <;> simp_all)]
@[simp] theorem State.markStart_pendingDb (s : State) : (s.markStart).pendingDb = s.pendingDb := by unfold State.markStart; split <;> [simp_all; (split <;> simp_all)]
@[simp] theorem State.markStart_params (s : State) : (s.markStart).params = s.params := by unfold State.markStart; split <;> [simp_all; (split <;> simp_all)]

/-- Nothing that may have been decoded before a change of mode: only the start is marked. -/
theorem State.markStart_eq {s : State} (h : s.queued = []) :
    s.markStart = { s with instrEip := if s.pfx.count = 0 then s.eip else s.instrEip } := by
  have hd : s.queuedD = none := by unfold State.queuedD; rw [h]; rfl
  unfold State.markStart
  rw [hd]
  by_cases hc : s.pfx.count = 0
  · rw [if_neg (by simp [hc]), if_pos hc]
  · rw [if_pos hc, if_neg hc]

/-! resume -/

@[simp] theorem State.resume_regs (s : State) (r : Again) : (s.resume r).regs = s.regs := rfl
@[simp] theorem State.resume_eip (s : State) (r : Again) : (s.resume r).eip = r.next := rfl
@[simp] theorem State.resume_eflags (s : State) (r : Again) : (s.resume r).eflags = s.eflags := rfl
@[simp] theorem State.resume_es (s : State) (r : Again) : (s.resume r).es = s.es := rfl
@[simp] theorem State.resume_cs (s : State) (r : Again) : (s.resume r).cs = s.cs := rfl
@[simp] theorem State.resume_ss (s : State) (r : Again) : (s.resume r).ss = s.ss := rfl
@[simp] theorem State.resume_ds (s : State) (r : Again) : (s.resume r).ds = s.ds := rfl
@[simp] theorem State.resume_fs (s : State) (r : Again) : (s.resume r).fs = s.fs := rfl
@[simp] theorem State.resume_gs (s : State) (r : Again) : (s.resume r).gs = s.gs := rfl
@[simp] theorem State.resume_cr0 (s : State) (r : Again) : (s.resume r).cr0 = s.cr0 := rfl
@[simp] theorem State.resume_cr2 (s : State) (r : Again) : (s.resume r).cr2 = s.cr2 := rfl
@[simp] theorem State.resume_cr3 (s : State) (r : Again) : (s.resume r).cr3 = s.cr3 := rfl
@[simp] theorem State.resume_gdtr (s : State) (r : Again) : (s.resume r).gdtr = s.gdtr := rfl
@[simp] theorem State.resume_idtr (s : State) (r : Again) : (s.resume r).idtr = s.idtr := rfl
@[simp] theorem State.resume_ldtr (s : State) (r : Again) : (s.resume r).ldtr = s.ldtr := rfl
@[simp] theorem State.resume_tr (s : State) (r : Again) : (s.resume r).tr = s.tr := rfl
@[simp] theorem State.resume_dr0 (s : State) (r : Again) : (s.resume r).dr0 = s.dr0 := rfl
@[simp] theorem State.resume_dr1 (s : State) (r : Again) : (s.resume r).dr1 = s.dr1 := rfl
@[simp] theorem State.resume_dr2 (s : State) (r : Again) : (s.resume r).dr2 = s.dr2 := rfl
@[simp] theorem State.resume_dr3 (s : State) (r : Again) : (s.resume r).dr3 = s.dr3 := rfl
@[simp] theorem State.resume_dr6 (s : State) (r : Again) : (s.resume r).dr6 = s.dr6 := rfl
@[simp] theorem State.resume_dr7 (s : State) (r : Again) : (s.resume r).dr7 = s.dr7 := rfl
@[simp] theorem State.resume_tr6 (s : State) (r : Again) : (s.resume r).tr6 = s.tr6 := rfl
@[simp] theorem State.resume_tr7 (s : State) (r : Again) : (s.resume r).tr7 = s.tr7 := rfl
@[simp] theorem State.resume_cpl (s : State) (r : Again) : (s.resume r).cpl = s.cpl := rfl
@[simp] theorem State.resume_nmiPending (s : State) (r : Again) : (s.resume r).nmiPending = s.nmiPending := rfl
@[simp] theorem State.resume_nmiInService (s : State) (r : Again) : (s.resume r).nmiInService = s.nmiInService := rfl
@[simp] theorem State.resume_shadow (s : State) (r : Again) : (s.resume r).shadow = s.shadow := rfl
@[simp] theorem State.resume_runState (s : State) (r : Again) : (s.resume r).runState = s.runState := rfl
@[simp] theorem State.resume_copOpcode (s : State) (r : Again) : (s.resume r).copOpcode = s.copOpcode := rfl
@[simp] theorem State.resume_copOperand (s : State) (r : Again) : (s.resume r).copOperand = s.copOperand := rfl
@[simp] theorem State.resume_tlb (s : State) (r : Again) : (s.resume r).tlb = s.tlb := rfl
@[simp] theorem State.resume_stale (s : State) (r : Again) : (s.resume r).stale = s.stale := rfl
@[simp] theorem State.resume_queued (s : State) (r : Again) : (s.resume r).queued = s.queued := rfl
@[simp] theorem State.resume_mem (s : State) (r : Again) : (s.resume r).mem = s.mem := rfl
@[simp] theorem State.resume_ioInputs (s : State) (r : Again) : (s.resume r).ioInputs = s.ioInputs := rfl
@[simp] theorem State.resume_bus (s : State) (r : Again) : (s.resume r).bus = s.bus := rfl
@[simp] theorem State.resume_deviceBus (s : State) (r : Again) : (s.resume r).deviceBus = s.deviceBus := rfl
@[simp] theorem State.resume_pins (s : State) (r : Again) : (s.resume r).pins = s.pins := rfl
@[simp] theorem State.resume_copRequest (s : State) (r : Again) : (s.resume r).copRequest = s.copRequest := rfl
@[simp] theorem State.resume_instrEip (s : State) (r : Again) : (s.resume r).instrEip = s.eip := rfl
@[simp] theorem State.resume_eipOver (s : State) (r : Again) : (s.resume r).eipOver = r.nextOver := rfl
@[simp] theorem State.resume_pfx (s : State) (r : Again) : (s.resume r).pfx = { s.pfx with again := none } := rfl
@[simp] theorem State.resume_pendingDb (s : State) (r : Again) : (s.resume r).pendingDb = s.pendingDb := rfl
@[simp] theorem State.resume_draws (s : State) (r : Again) : (s.resume r).draws = s.draws := rfl
@[simp] theorem State.resume_params (s : State) (r : Again) : (s.resume r).params = s.params := rfl

/-! noteCycles -/

@[simp] theorem State.noteCycles_regs (s : State) (k : Config.CycleKind) (as : List Dword) (c : Nat → Nat → Nat → BusCycle) : (s.noteCycles k as c).regs = s.regs := rfl
@[simp] theorem State.noteCycles_eip (s : State) (k : Config.CycleKind) (as : List Dword) (c : Nat → Nat → Nat → BusCycle) : (s.noteCycles k as c).eip = s.eip := rfl
@[simp] theorem State.noteCycles_eflags (s : State) (k : Config.CycleKind) (as : List Dword) (c : Nat → Nat → Nat → BusCycle) : (s.noteCycles k as c).eflags = s.eflags := rfl
@[simp] theorem State.noteCycles_es (s : State) (k : Config.CycleKind) (as : List Dword) (c : Nat → Nat → Nat → BusCycle) : (s.noteCycles k as c).es = s.es := rfl
@[simp] theorem State.noteCycles_cs (s : State) (k : Config.CycleKind) (as : List Dword) (c : Nat → Nat → Nat → BusCycle) : (s.noteCycles k as c).cs = s.cs := rfl
@[simp] theorem State.noteCycles_ss (s : State) (k : Config.CycleKind) (as : List Dword) (c : Nat → Nat → Nat → BusCycle) : (s.noteCycles k as c).ss = s.ss := rfl
@[simp] theorem State.noteCycles_ds (s : State) (k : Config.CycleKind) (as : List Dword) (c : Nat → Nat → Nat → BusCycle) : (s.noteCycles k as c).ds = s.ds := rfl
@[simp] theorem State.noteCycles_fs (s : State) (k : Config.CycleKind) (as : List Dword) (c : Nat → Nat → Nat → BusCycle) : (s.noteCycles k as c).fs = s.fs := rfl
@[simp] theorem State.noteCycles_gs (s : State) (k : Config.CycleKind) (as : List Dword) (c : Nat → Nat → Nat → BusCycle) : (s.noteCycles k as c).gs = s.gs := rfl
@[simp] theorem State.noteCycles_cr0 (s : State) (k : Config.CycleKind) (as : List Dword) (c : Nat → Nat → Nat → BusCycle) : (s.noteCycles k as c).cr0 = s.cr0 := rfl
@[simp] theorem State.noteCycles_cr2 (s : State) (k : Config.CycleKind) (as : List Dword) (c : Nat → Nat → Nat → BusCycle) : (s.noteCycles k as c).cr2 = s.cr2 := rfl
@[simp] theorem State.noteCycles_cr3 (s : State) (k : Config.CycleKind) (as : List Dword) (c : Nat → Nat → Nat → BusCycle) : (s.noteCycles k as c).cr3 = s.cr3 := rfl
@[simp] theorem State.noteCycles_gdtr (s : State) (k : Config.CycleKind) (as : List Dword) (c : Nat → Nat → Nat → BusCycle) : (s.noteCycles k as c).gdtr = s.gdtr := rfl
@[simp] theorem State.noteCycles_idtr (s : State) (k : Config.CycleKind) (as : List Dword) (c : Nat → Nat → Nat → BusCycle) : (s.noteCycles k as c).idtr = s.idtr := rfl
@[simp] theorem State.noteCycles_ldtr (s : State) (k : Config.CycleKind) (as : List Dword) (c : Nat → Nat → Nat → BusCycle) : (s.noteCycles k as c).ldtr = s.ldtr := rfl
@[simp] theorem State.noteCycles_tr (s : State) (k : Config.CycleKind) (as : List Dword) (c : Nat → Nat → Nat → BusCycle) : (s.noteCycles k as c).tr = s.tr := rfl
@[simp] theorem State.noteCycles_dr0 (s : State) (k : Config.CycleKind) (as : List Dword) (c : Nat → Nat → Nat → BusCycle) : (s.noteCycles k as c).dr0 = s.dr0 := rfl
@[simp] theorem State.noteCycles_dr1 (s : State) (k : Config.CycleKind) (as : List Dword) (c : Nat → Nat → Nat → BusCycle) : (s.noteCycles k as c).dr1 = s.dr1 := rfl
@[simp] theorem State.noteCycles_dr2 (s : State) (k : Config.CycleKind) (as : List Dword) (c : Nat → Nat → Nat → BusCycle) : (s.noteCycles k as c).dr2 = s.dr2 := rfl
@[simp] theorem State.noteCycles_dr3 (s : State) (k : Config.CycleKind) (as : List Dword) (c : Nat → Nat → Nat → BusCycle) : (s.noteCycles k as c).dr3 = s.dr3 := rfl
@[simp] theorem State.noteCycles_dr6 (s : State) (k : Config.CycleKind) (as : List Dword) (c : Nat → Nat → Nat → BusCycle) : (s.noteCycles k as c).dr6 = s.dr6 := rfl
@[simp] theorem State.noteCycles_dr7 (s : State) (k : Config.CycleKind) (as : List Dword) (c : Nat → Nat → Nat → BusCycle) : (s.noteCycles k as c).dr7 = s.dr7 := rfl
@[simp] theorem State.noteCycles_tr6 (s : State) (k : Config.CycleKind) (as : List Dword) (c : Nat → Nat → Nat → BusCycle) : (s.noteCycles k as c).tr6 = s.tr6 := rfl
@[simp] theorem State.noteCycles_tr7 (s : State) (k : Config.CycleKind) (as : List Dword) (c : Nat → Nat → Nat → BusCycle) : (s.noteCycles k as c).tr7 = s.tr7 := rfl
@[simp] theorem State.noteCycles_cpl (s : State) (k : Config.CycleKind) (as : List Dword) (c : Nat → Nat → Nat → BusCycle) : (s.noteCycles k as c).cpl = s.cpl := rfl
@[simp] theorem State.noteCycles_nmiPending (s : State) (k : Config.CycleKind) (as : List Dword) (c : Nat → Nat → Nat → BusCycle) : (s.noteCycles k as c).nmiPending = s.nmiPending := rfl
@[simp] theorem State.noteCycles_nmiInService (s : State) (k : Config.CycleKind) (as : List Dword) (c : Nat → Nat → Nat → BusCycle) : (s.noteCycles k as c).nmiInService = s.nmiInService := rfl
@[simp] theorem State.noteCycles_shadow (s : State) (k : Config.CycleKind) (as : List Dword) (c : Nat → Nat → Nat → BusCycle) : (s.noteCycles k as c).shadow = s.shadow := rfl
@[simp] theorem State.noteCycles_runState (s : State) (k : Config.CycleKind) (as : List Dword) (c : Nat → Nat → Nat → BusCycle) : (s.noteCycles k as c).runState = s.runState := rfl
@[simp] theorem State.noteCycles_copOpcode (s : State) (k : Config.CycleKind) (as : List Dword) (c : Nat → Nat → Nat → BusCycle) : (s.noteCycles k as c).copOpcode = s.copOpcode := rfl
@[simp] theorem State.noteCycles_copOperand (s : State) (k : Config.CycleKind) (as : List Dword) (c : Nat → Nat → Nat → BusCycle) : (s.noteCycles k as c).copOperand = s.copOperand := rfl
@[simp] theorem State.noteCycles_tlb (s : State) (k : Config.CycleKind) (as : List Dword) (c : Nat → Nat → Nat → BusCycle) : (s.noteCycles k as c).tlb = s.tlb := rfl
@[simp] theorem State.noteCycles_stale (s : State) (k : Config.CycleKind) (as : List Dword) (c : Nat → Nat → Nat → BusCycle) : (s.noteCycles k as c).stale = s.stale := rfl
@[simp] theorem State.noteCycles_queued (s : State) (k : Config.CycleKind) (as : List Dword) (c : Nat → Nat → Nat → BusCycle) : (s.noteCycles k as c).queued = s.queued := rfl
@[simp] theorem State.noteCycles_mem (s : State) (k : Config.CycleKind) (as : List Dword) (c : Nat → Nat → Nat → BusCycle) : (s.noteCycles k as c).mem = s.mem := rfl
@[simp] theorem State.noteCycles_ioInputs (s : State) (k : Config.CycleKind) (as : List Dword) (c : Nat → Nat → Nat → BusCycle) : (s.noteCycles k as c).ioInputs = s.ioInputs := rfl
@[simp] theorem State.noteCycles_bus (s : State) (k : Config.CycleKind) (as : List Dword) (c : Nat → Nat → Nat → BusCycle) : (s.noteCycles k as c).bus = s.bus := rfl
@[simp] theorem State.noteCycles_pins (s : State) (k : Config.CycleKind) (as : List Dword) (c : Nat → Nat → Nat → BusCycle) : (s.noteCycles k as c).pins = s.pins := rfl
@[simp] theorem State.noteCycles_copRequest (s : State) (k : Config.CycleKind) (as : List Dword) (c : Nat → Nat → Nat → BusCycle) : (s.noteCycles k as c).copRequest = s.copRequest := rfl
@[simp] theorem State.noteCycles_instrEip (s : State) (k : Config.CycleKind) (as : List Dword) (c : Nat → Nat → Nat → BusCycle) : (s.noteCycles k as c).instrEip = s.instrEip := rfl
@[simp] theorem State.noteCycles_eipOver (s : State) (k : Config.CycleKind) (as : List Dword) (c : Nat → Nat → Nat → BusCycle) : (s.noteCycles k as c).eipOver = s.eipOver := rfl
@[simp] theorem State.noteCycles_pfx (s : State) (k : Config.CycleKind) (as : List Dword) (c : Nat → Nat → Nat → BusCycle) : (s.noteCycles k as c).pfx = s.pfx := rfl
@[simp] theorem State.noteCycles_pendingDb (s : State) (k : Config.CycleKind) (as : List Dword) (c : Nat → Nat → Nat → BusCycle) : (s.noteCycles k as c).pendingDb = s.pendingDb := rfl
@[simp] theorem State.noteCycles_draws (s : State) (k : Config.CycleKind) (as : List Dword) (c : Nat → Nat → Nat → BusCycle) : (s.noteCycles k as c).draws = s.draws := rfl
@[simp] theorem State.noteCycles_params (s : State) (k : Config.CycleKind) (as : List Dword) (c : Nat → Nat → Nat → BusCycle) : (s.noteCycles k as c).params = s.params := rfl

/-! atBoundary -/

@[simp] theorem State.atBoundary_regs (s : State) : (s.atBoundary).regs = s.regs := rfl
@[simp] theorem State.atBoundary_eip (s : State) : (s.atBoundary).eip = s.eip := rfl
@[simp] theorem State.atBoundary_eflags (s : State) : (s.atBoundary).eflags = s.eflags := rfl
@[simp] theorem State.atBoundary_es (s : State) : (s.atBoundary).es = s.es := rfl
@[simp] theorem State.atBoundary_cs (s : State) : (s.atBoundary).cs = s.cs := rfl
@[simp] theorem State.atBoundary_ss (s : State) : (s.atBoundary).ss = s.ss := rfl
@[simp] theorem State.atBoundary_ds (s : State) : (s.atBoundary).ds = s.ds := rfl
@[simp] theorem State.atBoundary_fs (s : State) : (s.atBoundary).fs = s.fs := rfl
@[simp] theorem State.atBoundary_gs (s : State) : (s.atBoundary).gs = s.gs := rfl
@[simp] theorem State.atBoundary_cr0 (s : State) : (s.atBoundary).cr0 = s.cr0 := rfl
@[simp] theorem State.atBoundary_cr2 (s : State) : (s.atBoundary).cr2 = s.cr2 := rfl
@[simp] theorem State.atBoundary_cr3 (s : State) : (s.atBoundary).cr3 = s.cr3 := rfl
@[simp] theorem State.atBoundary_gdtr (s : State) : (s.atBoundary).gdtr = s.gdtr := rfl
@[simp] theorem State.atBoundary_idtr (s : State) : (s.atBoundary).idtr = s.idtr := rfl
@[simp] theorem State.atBoundary_ldtr (s : State) : (s.atBoundary).ldtr = s.ldtr := rfl
@[simp] theorem State.atBoundary_tr (s : State) : (s.atBoundary).tr = s.tr := rfl
@[simp] theorem State.atBoundary_dr0 (s : State) : (s.atBoundary).dr0 = s.dr0 := rfl
@[simp] theorem State.atBoundary_dr1 (s : State) : (s.atBoundary).dr1 = s.dr1 := rfl
@[simp] theorem State.atBoundary_dr2 (s : State) : (s.atBoundary).dr2 = s.dr2 := rfl
@[simp] theorem State.atBoundary_dr3 (s : State) : (s.atBoundary).dr3 = s.dr3 := rfl
@[simp] theorem State.atBoundary_dr6 (s : State) : (s.atBoundary).dr6 = s.dr6 := rfl
@[simp] theorem State.atBoundary_dr7 (s : State) : (s.atBoundary).dr7 = s.dr7 := rfl
@[simp] theorem State.atBoundary_tr6 (s : State) : (s.atBoundary).tr6 = s.tr6 := rfl
@[simp] theorem State.atBoundary_tr7 (s : State) : (s.atBoundary).tr7 = s.tr7 := rfl
@[simp] theorem State.atBoundary_cpl (s : State) : (s.atBoundary).cpl = s.cpl := rfl
@[simp] theorem State.atBoundary_nmiPending (s : State) : (s.atBoundary).nmiPending = s.nmiPending := rfl
@[simp] theorem State.atBoundary_nmiInService (s : State) : (s.atBoundary).nmiInService = s.nmiInService := rfl
@[simp] theorem State.atBoundary_shadow (s : State) : (s.atBoundary).shadow = s.shadow := rfl
@[simp] theorem State.atBoundary_runState (s : State) : (s.atBoundary).runState = s.runState := rfl
@[simp] theorem State.atBoundary_copOpcode (s : State) : (s.atBoundary).copOpcode = s.copOpcode := rfl
@[simp] theorem State.atBoundary_copOperand (s : State) : (s.atBoundary).copOperand = s.copOperand := rfl
@[simp] theorem State.atBoundary_tlb (s : State) : (s.atBoundary).tlb = s.tlb := rfl
@[simp] theorem State.atBoundary_stale (s : State) : (s.atBoundary).stale = s.stale := rfl
@[simp] theorem State.atBoundary_queued (s : State) : (s.atBoundary).queued = s.queued := rfl
@[simp] theorem State.atBoundary_mem (s : State) : (s.atBoundary).mem = s.mem := rfl
@[simp] theorem State.atBoundary_ioInputs (s : State) : (s.atBoundary).ioInputs = s.ioInputs := rfl
@[simp] theorem State.atBoundary_bus (s : State) : (s.atBoundary).bus = s.bus := rfl
@[simp] theorem State.atBoundary_deviceBus (s : State) : (s.atBoundary).deviceBus = s.deviceBus := rfl
@[simp] theorem State.atBoundary_pins (s : State) : (s.atBoundary).pins = s.pins := rfl
@[simp] theorem State.atBoundary_copRequest (s : State) : (s.atBoundary).copRequest = s.copRequest := rfl
@[simp] theorem State.atBoundary_instrEip (s : State) : (s.atBoundary).instrEip = s.eip := rfl
@[simp] theorem State.atBoundary_eipOver (s : State) : (s.atBoundary).eipOver = s.eipOver := rfl
@[simp] theorem State.atBoundary_pfx (s : State) : (s.atBoundary).pfx = s.pfx := rfl
@[simp] theorem State.atBoundary_pendingDb (s : State) : (s.atBoundary).pendingDb = s.pendingDb := rfl
@[simp] theorem State.atBoundary_draws (s : State) : (s.atBoundary).draws = s.draws := rfl
@[simp] theorem State.atBoundary_params (s : State) : (s.atBoundary).params = s.params := rfl

/-! halt -/

@[simp] theorem State.halt_regs (s : State) : (s.halt).regs = s.regs := rfl
@[simp] theorem State.halt_eip (s : State) : (s.halt).eip = s.eip := rfl
@[simp] theorem State.halt_eflags (s : State) : (s.halt).eflags = s.eflags := rfl
@[simp] theorem State.halt_es (s : State) : (s.halt).es = s.es := rfl
@[simp] theorem State.halt_cs (s : State) : (s.halt).cs = s.cs := rfl
@[simp] theorem State.halt_ss (s : State) : (s.halt).ss = s.ss := rfl
@[simp] theorem State.halt_ds (s : State) : (s.halt).ds = s.ds := rfl
@[simp] theorem State.halt_fs (s : State) : (s.halt).fs = s.fs := rfl
@[simp] theorem State.halt_gs (s : State) : (s.halt).gs = s.gs := rfl
@[simp] theorem State.halt_cr0 (s : State) : (s.halt).cr0 = s.cr0 := rfl
@[simp] theorem State.halt_cr2 (s : State) : (s.halt).cr2 = s.cr2 := rfl
@[simp] theorem State.halt_cr3 (s : State) : (s.halt).cr3 = s.cr3 := rfl
@[simp] theorem State.halt_gdtr (s : State) : (s.halt).gdtr = s.gdtr := rfl
@[simp] theorem State.halt_idtr (s : State) : (s.halt).idtr = s.idtr := rfl
@[simp] theorem State.halt_ldtr (s : State) : (s.halt).ldtr = s.ldtr := rfl
@[simp] theorem State.halt_tr (s : State) : (s.halt).tr = s.tr := rfl
@[simp] theorem State.halt_dr0 (s : State) : (s.halt).dr0 = s.dr0 := rfl
@[simp] theorem State.halt_dr1 (s : State) : (s.halt).dr1 = s.dr1 := rfl
@[simp] theorem State.halt_dr2 (s : State) : (s.halt).dr2 = s.dr2 := rfl
@[simp] theorem State.halt_dr3 (s : State) : (s.halt).dr3 = s.dr3 := rfl
@[simp] theorem State.halt_dr6 (s : State) : (s.halt).dr6 = s.dr6 := rfl
@[simp] theorem State.halt_dr7 (s : State) : (s.halt).dr7 = s.dr7 := rfl
@[simp] theorem State.halt_tr6 (s : State) : (s.halt).tr6 = s.tr6 := rfl
@[simp] theorem State.halt_tr7 (s : State) : (s.halt).tr7 = s.tr7 := rfl
@[simp] theorem State.halt_cpl (s : State) : (s.halt).cpl = s.cpl := rfl
@[simp] theorem State.halt_nmiPending (s : State) : (s.halt).nmiPending = s.nmiPending := rfl
@[simp] theorem State.halt_nmiInService (s : State) : (s.halt).nmiInService = s.nmiInService := rfl
@[simp] theorem State.halt_shadow (s : State) : (s.halt).shadow = s.shadow := rfl
@[simp] theorem State.halt_runState (s : State) : (s.halt).runState = .halted := rfl
@[simp] theorem State.halt_copOpcode (s : State) : (s.halt).copOpcode = s.copOpcode := rfl
@[simp] theorem State.halt_copOperand (s : State) : (s.halt).copOperand = s.copOperand := rfl
@[simp] theorem State.halt_tlb (s : State) : (s.halt).tlb = s.tlb := rfl
@[simp] theorem State.halt_stale (s : State) : (s.halt).stale = s.stale := rfl
@[simp] theorem State.halt_queued (s : State) : (s.halt).queued = s.queued := rfl
@[simp] theorem State.halt_mem (s : State) : (s.halt).mem = s.mem := rfl
@[simp] theorem State.halt_ioInputs (s : State) : (s.halt).ioInputs = s.ioInputs := rfl
@[simp] theorem State.halt_bus (s : State) : (s.halt).bus = .halt :: s.bus := rfl
@[simp] theorem State.halt_deviceBus (s : State) : (s.halt).deviceBus = s.deviceBus := rfl
@[simp] theorem State.halt_pins (s : State) : (s.halt).pins = s.pins := rfl
@[simp] theorem State.halt_copRequest (s : State) : (s.halt).copRequest = s.copRequest := rfl
@[simp] theorem State.halt_instrEip (s : State) : (s.halt).instrEip = s.instrEip := rfl
@[simp] theorem State.halt_eipOver (s : State) : (s.halt).eipOver = s.eipOver := rfl
@[simp] theorem State.halt_pfx (s : State) : (s.halt).pfx = s.pfx := rfl
@[simp] theorem State.halt_pendingDb (s : State) : (s.halt).pendingDb = s.pendingDb := rfl
@[simp] theorem State.halt_draws (s : State) : (s.halt).draws = s.draws := rfl
@[simp] theorem State.halt_params (s : State) : (s.halt).params = s.params := rfl

/-! setCr0 -/

@[simp] theorem State.setCr0_regs (s : State) (v : Cr0) : (s.setCr0 v).regs = s.regs := rfl
@[simp] theorem State.setCr0_eip (s : State) (v : Cr0) : (s.setCr0 v).eip = s.eip := rfl
@[simp] theorem State.setCr0_eflags (s : State) (v : Cr0) : (s.setCr0 v).eflags = s.eflags := rfl
@[simp] theorem State.setCr0_es (s : State) (v : Cr0) : (s.setCr0 v).es = s.es := rfl
@[simp] theorem State.setCr0_cs (s : State) (v : Cr0) : (s.setCr0 v).cs = s.cs := rfl
@[simp] theorem State.setCr0_ss (s : State) (v : Cr0) : (s.setCr0 v).ss = s.ss := rfl
@[simp] theorem State.setCr0_ds (s : State) (v : Cr0) : (s.setCr0 v).ds = s.ds := rfl
@[simp] theorem State.setCr0_fs (s : State) (v : Cr0) : (s.setCr0 v).fs = s.fs := rfl
@[simp] theorem State.setCr0_gs (s : State) (v : Cr0) : (s.setCr0 v).gs = s.gs := rfl
@[simp] theorem State.setCr0_cr0 (s : State) (v : Cr0) : (s.setCr0 v).cr0 = v := rfl
@[simp] theorem State.setCr0_cr2 (s : State) (v : Cr0) : (s.setCr0 v).cr2 = s.cr2 := rfl
@[simp] theorem State.setCr0_cr3 (s : State) (v : Cr0) : (s.setCr0 v).cr3 = s.cr3 := rfl
@[simp] theorem State.setCr0_gdtr (s : State) (v : Cr0) : (s.setCr0 v).gdtr = s.gdtr := rfl
@[simp] theorem State.setCr0_idtr (s : State) (v : Cr0) : (s.setCr0 v).idtr = s.idtr := rfl
@[simp] theorem State.setCr0_ldtr (s : State) (v : Cr0) : (s.setCr0 v).ldtr = s.ldtr := rfl
@[simp] theorem State.setCr0_tr (s : State) (v : Cr0) : (s.setCr0 v).tr = s.tr := rfl
@[simp] theorem State.setCr0_dr0 (s : State) (v : Cr0) : (s.setCr0 v).dr0 = s.dr0 := rfl
@[simp] theorem State.setCr0_dr1 (s : State) (v : Cr0) : (s.setCr0 v).dr1 = s.dr1 := rfl
@[simp] theorem State.setCr0_dr2 (s : State) (v : Cr0) : (s.setCr0 v).dr2 = s.dr2 := rfl
@[simp] theorem State.setCr0_dr3 (s : State) (v : Cr0) : (s.setCr0 v).dr3 = s.dr3 := rfl
@[simp] theorem State.setCr0_dr6 (s : State) (v : Cr0) : (s.setCr0 v).dr6 = s.dr6 := rfl
@[simp] theorem State.setCr0_dr7 (s : State) (v : Cr0) : (s.setCr0 v).dr7 = s.dr7 := rfl
@[simp] theorem State.setCr0_tr6 (s : State) (v : Cr0) : (s.setCr0 v).tr6 = s.tr6 := rfl
@[simp] theorem State.setCr0_tr7 (s : State) (v : Cr0) : (s.setCr0 v).tr7 = s.tr7 := rfl
@[simp] theorem State.setCr0_cpl (s : State) (v : Cr0) : (s.setCr0 v).cpl = s.cpl := rfl
@[simp] theorem State.setCr0_nmiPending (s : State) (v : Cr0) : (s.setCr0 v).nmiPending = s.nmiPending := rfl
@[simp] theorem State.setCr0_nmiInService (s : State) (v : Cr0) : (s.setCr0 v).nmiInService = s.nmiInService := rfl
@[simp] theorem State.setCr0_shadow (s : State) (v : Cr0) : (s.setCr0 v).shadow = s.shadow := rfl
@[simp] theorem State.setCr0_runState (s : State) (v : Cr0) : (s.setCr0 v).runState = s.runState := rfl
@[simp] theorem State.setCr0_copOpcode (s : State) (v : Cr0) : (s.setCr0 v).copOpcode = s.copOpcode := rfl
@[simp] theorem State.setCr0_copOperand (s : State) (v : Cr0) : (s.setCr0 v).copOperand = s.copOperand := rfl
@[simp] theorem State.setCr0_tlb (s : State) (v : Cr0) : (s.setCr0 v).tlb = s.tlb := rfl
@[simp] theorem State.setCr0_stale (s : State) (v : Cr0) : (s.setCr0 v).stale = s.stale := rfl
@[simp] theorem State.setCr0_queued (s : State) (v : Cr0) : (s.setCr0 v).queued = s.queued := rfl
@[simp] theorem State.setCr0_mem (s : State) (v : Cr0) : (s.setCr0 v).mem = s.mem := rfl
@[simp] theorem State.setCr0_ioInputs (s : State) (v : Cr0) : (s.setCr0 v).ioInputs = s.ioInputs := rfl
@[simp] theorem State.setCr0_bus (s : State) (v : Cr0) : (s.setCr0 v).bus = s.bus := rfl
@[simp] theorem State.setCr0_deviceBus (s : State) (v : Cr0) : (s.setCr0 v).deviceBus = s.deviceBus := rfl
@[simp] theorem State.setCr0_pins (s : State) (v : Cr0) : (s.setCr0 v).pins = s.pins := rfl
@[simp] theorem State.setCr0_copRequest (s : State) (v : Cr0) : (s.setCr0 v).copRequest = s.copRequest := rfl
@[simp] theorem State.setCr0_instrEip (s : State) (v : Cr0) : (s.setCr0 v).instrEip = s.instrEip := rfl
@[simp] theorem State.setCr0_eipOver (s : State) (v : Cr0) : (s.setCr0 v).eipOver = s.eipOver := rfl
@[simp] theorem State.setCr0_pfx (s : State) (v : Cr0) : (s.setCr0 v).pfx = s.pfx := rfl
@[simp] theorem State.setCr0_pendingDb (s : State) (v : Cr0) : (s.setCr0 v).pendingDb = s.pendingDb := rfl
@[simp] theorem State.setCr0_draws (s : State) (v : Cr0) : (s.setCr0 v).draws = s.draws := rfl
@[simp] theorem State.setCr0_params (s : State) (v : Cr0) : (s.setCr0 v).params = s.params := rfl

/-! setDr0 -/

@[simp] theorem State.setDr0_regs (s : State) (v : Dword) : (s.setDr0 v).regs = s.regs := rfl
@[simp] theorem State.setDr0_eip (s : State) (v : Dword) : (s.setDr0 v).eip = s.eip := rfl
@[simp] theorem State.setDr0_eflags (s : State) (v : Dword) : (s.setDr0 v).eflags = s.eflags := rfl
@[simp] theorem State.setDr0_es (s : State) (v : Dword) : (s.setDr0 v).es = s.es := rfl
@[simp] theorem State.setDr0_cs (s : State) (v : Dword) : (s.setDr0 v).cs = s.cs := rfl
@[simp] theorem State.setDr0_ss (s : State) (v : Dword) : (s.setDr0 v).ss = s.ss := rfl
@[simp] theorem State.setDr0_ds (s : State) (v : Dword) : (s.setDr0 v).ds = s.ds := rfl
@[simp] theorem State.setDr0_fs (s : State) (v : Dword) : (s.setDr0 v).fs = s.fs := rfl
@[simp] theorem State.setDr0_gs (s : State) (v : Dword) : (s.setDr0 v).gs = s.gs := rfl
@[simp] theorem State.setDr0_cr0 (s : State) (v : Dword) : (s.setDr0 v).cr0 = s.cr0 := rfl
@[simp] theorem State.setDr0_cr2 (s : State) (v : Dword) : (s.setDr0 v).cr2 = s.cr2 := rfl
@[simp] theorem State.setDr0_cr3 (s : State) (v : Dword) : (s.setDr0 v).cr3 = s.cr3 := rfl
@[simp] theorem State.setDr0_gdtr (s : State) (v : Dword) : (s.setDr0 v).gdtr = s.gdtr := rfl
@[simp] theorem State.setDr0_idtr (s : State) (v : Dword) : (s.setDr0 v).idtr = s.idtr := rfl
@[simp] theorem State.setDr0_ldtr (s : State) (v : Dword) : (s.setDr0 v).ldtr = s.ldtr := rfl
@[simp] theorem State.setDr0_tr (s : State) (v : Dword) : (s.setDr0 v).tr = s.tr := rfl
@[simp] theorem State.setDr0_dr0 (s : State) (v : Dword) : (s.setDr0 v).dr0 = v := rfl
@[simp] theorem State.setDr0_dr1 (s : State) (v : Dword) : (s.setDr0 v).dr1 = s.dr1 := rfl
@[simp] theorem State.setDr0_dr2 (s : State) (v : Dword) : (s.setDr0 v).dr2 = s.dr2 := rfl
@[simp] theorem State.setDr0_dr3 (s : State) (v : Dword) : (s.setDr0 v).dr3 = s.dr3 := rfl
@[simp] theorem State.setDr0_dr6 (s : State) (v : Dword) : (s.setDr0 v).dr6 = s.dr6 := rfl
@[simp] theorem State.setDr0_dr7 (s : State) (v : Dword) : (s.setDr0 v).dr7 = s.dr7 := rfl
@[simp] theorem State.setDr0_tr6 (s : State) (v : Dword) : (s.setDr0 v).tr6 = s.tr6 := rfl
@[simp] theorem State.setDr0_tr7 (s : State) (v : Dword) : (s.setDr0 v).tr7 = s.tr7 := rfl
@[simp] theorem State.setDr0_cpl (s : State) (v : Dword) : (s.setDr0 v).cpl = s.cpl := rfl
@[simp] theorem State.setDr0_nmiPending (s : State) (v : Dword) : (s.setDr0 v).nmiPending = s.nmiPending := rfl
@[simp] theorem State.setDr0_nmiInService (s : State) (v : Dword) : (s.setDr0 v).nmiInService = s.nmiInService := rfl
@[simp] theorem State.setDr0_shadow (s : State) (v : Dword) : (s.setDr0 v).shadow = s.shadow := rfl
@[simp] theorem State.setDr0_runState (s : State) (v : Dword) : (s.setDr0 v).runState = s.runState := rfl
@[simp] theorem State.setDr0_copOpcode (s : State) (v : Dword) : (s.setDr0 v).copOpcode = s.copOpcode := rfl
@[simp] theorem State.setDr0_copOperand (s : State) (v : Dword) : (s.setDr0 v).copOperand = s.copOperand := rfl
@[simp] theorem State.setDr0_tlb (s : State) (v : Dword) : (s.setDr0 v).tlb = s.tlb := rfl
@[simp] theorem State.setDr0_stale (s : State) (v : Dword) : (s.setDr0 v).stale = s.stale := rfl
@[simp] theorem State.setDr0_queued (s : State) (v : Dword) : (s.setDr0 v).queued = s.queued := rfl
@[simp] theorem State.setDr0_mem (s : State) (v : Dword) : (s.setDr0 v).mem = s.mem := rfl
@[simp] theorem State.setDr0_ioInputs (s : State) (v : Dword) : (s.setDr0 v).ioInputs = s.ioInputs := rfl
@[simp] theorem State.setDr0_bus (s : State) (v : Dword) : (s.setDr0 v).bus = s.bus := rfl
@[simp] theorem State.setDr0_deviceBus (s : State) (v : Dword) : (s.setDr0 v).deviceBus = s.deviceBus := rfl
@[simp] theorem State.setDr0_pins (s : State) (v : Dword) : (s.setDr0 v).pins = s.pins := rfl
@[simp] theorem State.setDr0_copRequest (s : State) (v : Dword) : (s.setDr0 v).copRequest = s.copRequest := rfl
@[simp] theorem State.setDr0_instrEip (s : State) (v : Dword) : (s.setDr0 v).instrEip = s.instrEip := rfl
@[simp] theorem State.setDr0_eipOver (s : State) (v : Dword) : (s.setDr0 v).eipOver = s.eipOver := rfl
@[simp] theorem State.setDr0_pfx (s : State) (v : Dword) : (s.setDr0 v).pfx = s.pfx := rfl
@[simp] theorem State.setDr0_pendingDb (s : State) (v : Dword) : (s.setDr0 v).pendingDb = s.pendingDb := rfl
@[simp] theorem State.setDr0_draws (s : State) (v : Dword) : (s.setDr0 v).draws = s.draws := rfl
@[simp] theorem State.setDr0_params (s : State) (v : Dword) : (s.setDr0 v).params = s.params := rfl

/-! setDr1 -/

@[simp] theorem State.setDr1_regs (s : State) (v : Dword) : (s.setDr1 v).regs = s.regs := rfl
@[simp] theorem State.setDr1_eip (s : State) (v : Dword) : (s.setDr1 v).eip = s.eip := rfl
@[simp] theorem State.setDr1_eflags (s : State) (v : Dword) : (s.setDr1 v).eflags = s.eflags := rfl
@[simp] theorem State.setDr1_es (s : State) (v : Dword) : (s.setDr1 v).es = s.es := rfl
@[simp] theorem State.setDr1_cs (s : State) (v : Dword) : (s.setDr1 v).cs = s.cs := rfl
@[simp] theorem State.setDr1_ss (s : State) (v : Dword) : (s.setDr1 v).ss = s.ss := rfl
@[simp] theorem State.setDr1_ds (s : State) (v : Dword) : (s.setDr1 v).ds = s.ds := rfl
@[simp] theorem State.setDr1_fs (s : State) (v : Dword) : (s.setDr1 v).fs = s.fs := rfl
@[simp] theorem State.setDr1_gs (s : State) (v : Dword) : (s.setDr1 v).gs = s.gs := rfl
@[simp] theorem State.setDr1_cr0 (s : State) (v : Dword) : (s.setDr1 v).cr0 = s.cr0 := rfl
@[simp] theorem State.setDr1_cr2 (s : State) (v : Dword) : (s.setDr1 v).cr2 = s.cr2 := rfl
@[simp] theorem State.setDr1_cr3 (s : State) (v : Dword) : (s.setDr1 v).cr3 = s.cr3 := rfl
@[simp] theorem State.setDr1_gdtr (s : State) (v : Dword) : (s.setDr1 v).gdtr = s.gdtr := rfl
@[simp] theorem State.setDr1_idtr (s : State) (v : Dword) : (s.setDr1 v).idtr = s.idtr := rfl
@[simp] theorem State.setDr1_ldtr (s : State) (v : Dword) : (s.setDr1 v).ldtr = s.ldtr := rfl
@[simp] theorem State.setDr1_tr (s : State) (v : Dword) : (s.setDr1 v).tr = s.tr := rfl
@[simp] theorem State.setDr1_dr0 (s : State) (v : Dword) : (s.setDr1 v).dr0 = s.dr0 := rfl
@[simp] theorem State.setDr1_dr1 (s : State) (v : Dword) : (s.setDr1 v).dr1 = v := rfl
@[simp] theorem State.setDr1_dr2 (s : State) (v : Dword) : (s.setDr1 v).dr2 = s.dr2 := rfl
@[simp] theorem State.setDr1_dr3 (s : State) (v : Dword) : (s.setDr1 v).dr3 = s.dr3 := rfl
@[simp] theorem State.setDr1_dr6 (s : State) (v : Dword) : (s.setDr1 v).dr6 = s.dr6 := rfl
@[simp] theorem State.setDr1_dr7 (s : State) (v : Dword) : (s.setDr1 v).dr7 = s.dr7 := rfl
@[simp] theorem State.setDr1_tr6 (s : State) (v : Dword) : (s.setDr1 v).tr6 = s.tr6 := rfl
@[simp] theorem State.setDr1_tr7 (s : State) (v : Dword) : (s.setDr1 v).tr7 = s.tr7 := rfl
@[simp] theorem State.setDr1_cpl (s : State) (v : Dword) : (s.setDr1 v).cpl = s.cpl := rfl
@[simp] theorem State.setDr1_nmiPending (s : State) (v : Dword) : (s.setDr1 v).nmiPending = s.nmiPending := rfl
@[simp] theorem State.setDr1_nmiInService (s : State) (v : Dword) : (s.setDr1 v).nmiInService = s.nmiInService := rfl
@[simp] theorem State.setDr1_shadow (s : State) (v : Dword) : (s.setDr1 v).shadow = s.shadow := rfl
@[simp] theorem State.setDr1_runState (s : State) (v : Dword) : (s.setDr1 v).runState = s.runState := rfl
@[simp] theorem State.setDr1_copOpcode (s : State) (v : Dword) : (s.setDr1 v).copOpcode = s.copOpcode := rfl
@[simp] theorem State.setDr1_copOperand (s : State) (v : Dword) : (s.setDr1 v).copOperand = s.copOperand := rfl
@[simp] theorem State.setDr1_tlb (s : State) (v : Dword) : (s.setDr1 v).tlb = s.tlb := rfl
@[simp] theorem State.setDr1_stale (s : State) (v : Dword) : (s.setDr1 v).stale = s.stale := rfl
@[simp] theorem State.setDr1_queued (s : State) (v : Dword) : (s.setDr1 v).queued = s.queued := rfl
@[simp] theorem State.setDr1_mem (s : State) (v : Dword) : (s.setDr1 v).mem = s.mem := rfl
@[simp] theorem State.setDr1_ioInputs (s : State) (v : Dword) : (s.setDr1 v).ioInputs = s.ioInputs := rfl
@[simp] theorem State.setDr1_bus (s : State) (v : Dword) : (s.setDr1 v).bus = s.bus := rfl
@[simp] theorem State.setDr1_deviceBus (s : State) (v : Dword) : (s.setDr1 v).deviceBus = s.deviceBus := rfl
@[simp] theorem State.setDr1_pins (s : State) (v : Dword) : (s.setDr1 v).pins = s.pins := rfl
@[simp] theorem State.setDr1_copRequest (s : State) (v : Dword) : (s.setDr1 v).copRequest = s.copRequest := rfl
@[simp] theorem State.setDr1_instrEip (s : State) (v : Dword) : (s.setDr1 v).instrEip = s.instrEip := rfl
@[simp] theorem State.setDr1_eipOver (s : State) (v : Dword) : (s.setDr1 v).eipOver = s.eipOver := rfl
@[simp] theorem State.setDr1_pfx (s : State) (v : Dword) : (s.setDr1 v).pfx = s.pfx := rfl
@[simp] theorem State.setDr1_pendingDb (s : State) (v : Dword) : (s.setDr1 v).pendingDb = s.pendingDb := rfl
@[simp] theorem State.setDr1_draws (s : State) (v : Dword) : (s.setDr1 v).draws = s.draws := rfl
@[simp] theorem State.setDr1_params (s : State) (v : Dword) : (s.setDr1 v).params = s.params := rfl

/-! setDr2 -/

@[simp] theorem State.setDr2_regs (s : State) (v : Dword) : (s.setDr2 v).regs = s.regs := rfl
@[simp] theorem State.setDr2_eip (s : State) (v : Dword) : (s.setDr2 v).eip = s.eip := rfl
@[simp] theorem State.setDr2_eflags (s : State) (v : Dword) : (s.setDr2 v).eflags = s.eflags := rfl
@[simp] theorem State.setDr2_es (s : State) (v : Dword) : (s.setDr2 v).es = s.es := rfl
@[simp] theorem State.setDr2_cs (s : State) (v : Dword) : (s.setDr2 v).cs = s.cs := rfl
@[simp] theorem State.setDr2_ss (s : State) (v : Dword) : (s.setDr2 v).ss = s.ss := rfl
@[simp] theorem State.setDr2_ds (s : State) (v : Dword) : (s.setDr2 v).ds = s.ds := rfl
@[simp] theorem State.setDr2_fs (s : State) (v : Dword) : (s.setDr2 v).fs = s.fs := rfl
@[simp] theorem State.setDr2_gs (s : State) (v : Dword) : (s.setDr2 v).gs = s.gs := rfl
@[simp] theorem State.setDr2_cr0 (s : State) (v : Dword) : (s.setDr2 v).cr0 = s.cr0 := rfl
@[simp] theorem State.setDr2_cr2 (s : State) (v : Dword) : (s.setDr2 v).cr2 = s.cr2 := rfl
@[simp] theorem State.setDr2_cr3 (s : State) (v : Dword) : (s.setDr2 v).cr3 = s.cr3 := rfl
@[simp] theorem State.setDr2_gdtr (s : State) (v : Dword) : (s.setDr2 v).gdtr = s.gdtr := rfl
@[simp] theorem State.setDr2_idtr (s : State) (v : Dword) : (s.setDr2 v).idtr = s.idtr := rfl
@[simp] theorem State.setDr2_ldtr (s : State) (v : Dword) : (s.setDr2 v).ldtr = s.ldtr := rfl
@[simp] theorem State.setDr2_tr (s : State) (v : Dword) : (s.setDr2 v).tr = s.tr := rfl
@[simp] theorem State.setDr2_dr0 (s : State) (v : Dword) : (s.setDr2 v).dr0 = s.dr0 := rfl
@[simp] theorem State.setDr2_dr1 (s : State) (v : Dword) : (s.setDr2 v).dr1 = s.dr1 := rfl
@[simp] theorem State.setDr2_dr2 (s : State) (v : Dword) : (s.setDr2 v).dr2 = v := rfl
@[simp] theorem State.setDr2_dr3 (s : State) (v : Dword) : (s.setDr2 v).dr3 = s.dr3 := rfl
@[simp] theorem State.setDr2_dr6 (s : State) (v : Dword) : (s.setDr2 v).dr6 = s.dr6 := rfl
@[simp] theorem State.setDr2_dr7 (s : State) (v : Dword) : (s.setDr2 v).dr7 = s.dr7 := rfl
@[simp] theorem State.setDr2_tr6 (s : State) (v : Dword) : (s.setDr2 v).tr6 = s.tr6 := rfl
@[simp] theorem State.setDr2_tr7 (s : State) (v : Dword) : (s.setDr2 v).tr7 = s.tr7 := rfl
@[simp] theorem State.setDr2_cpl (s : State) (v : Dword) : (s.setDr2 v).cpl = s.cpl := rfl
@[simp] theorem State.setDr2_nmiPending (s : State) (v : Dword) : (s.setDr2 v).nmiPending = s.nmiPending := rfl
@[simp] theorem State.setDr2_nmiInService (s : State) (v : Dword) : (s.setDr2 v).nmiInService = s.nmiInService := rfl
@[simp] theorem State.setDr2_shadow (s : State) (v : Dword) : (s.setDr2 v).shadow = s.shadow := rfl
@[simp] theorem State.setDr2_runState (s : State) (v : Dword) : (s.setDr2 v).runState = s.runState := rfl
@[simp] theorem State.setDr2_copOpcode (s : State) (v : Dword) : (s.setDr2 v).copOpcode = s.copOpcode := rfl
@[simp] theorem State.setDr2_copOperand (s : State) (v : Dword) : (s.setDr2 v).copOperand = s.copOperand := rfl
@[simp] theorem State.setDr2_tlb (s : State) (v : Dword) : (s.setDr2 v).tlb = s.tlb := rfl
@[simp] theorem State.setDr2_stale (s : State) (v : Dword) : (s.setDr2 v).stale = s.stale := rfl
@[simp] theorem State.setDr2_queued (s : State) (v : Dword) : (s.setDr2 v).queued = s.queued := rfl
@[simp] theorem State.setDr2_mem (s : State) (v : Dword) : (s.setDr2 v).mem = s.mem := rfl
@[simp] theorem State.setDr2_ioInputs (s : State) (v : Dword) : (s.setDr2 v).ioInputs = s.ioInputs := rfl
@[simp] theorem State.setDr2_bus (s : State) (v : Dword) : (s.setDr2 v).bus = s.bus := rfl
@[simp] theorem State.setDr2_deviceBus (s : State) (v : Dword) : (s.setDr2 v).deviceBus = s.deviceBus := rfl
@[simp] theorem State.setDr2_pins (s : State) (v : Dword) : (s.setDr2 v).pins = s.pins := rfl
@[simp] theorem State.setDr2_copRequest (s : State) (v : Dword) : (s.setDr2 v).copRequest = s.copRequest := rfl
@[simp] theorem State.setDr2_instrEip (s : State) (v : Dword) : (s.setDr2 v).instrEip = s.instrEip := rfl
@[simp] theorem State.setDr2_eipOver (s : State) (v : Dword) : (s.setDr2 v).eipOver = s.eipOver := rfl
@[simp] theorem State.setDr2_pfx (s : State) (v : Dword) : (s.setDr2 v).pfx = s.pfx := rfl
@[simp] theorem State.setDr2_pendingDb (s : State) (v : Dword) : (s.setDr2 v).pendingDb = s.pendingDb := rfl
@[simp] theorem State.setDr2_draws (s : State) (v : Dword) : (s.setDr2 v).draws = s.draws := rfl
@[simp] theorem State.setDr2_params (s : State) (v : Dword) : (s.setDr2 v).params = s.params := rfl

/-! setDr3 -/

@[simp] theorem State.setDr3_regs (s : State) (v : Dword) : (s.setDr3 v).regs = s.regs := rfl
@[simp] theorem State.setDr3_eip (s : State) (v : Dword) : (s.setDr3 v).eip = s.eip := rfl
@[simp] theorem State.setDr3_eflags (s : State) (v : Dword) : (s.setDr3 v).eflags = s.eflags := rfl
@[simp] theorem State.setDr3_es (s : State) (v : Dword) : (s.setDr3 v).es = s.es := rfl
@[simp] theorem State.setDr3_cs (s : State) (v : Dword) : (s.setDr3 v).cs = s.cs := rfl
@[simp] theorem State.setDr3_ss (s : State) (v : Dword) : (s.setDr3 v).ss = s.ss := rfl
@[simp] theorem State.setDr3_ds (s : State) (v : Dword) : (s.setDr3 v).ds = s.ds := rfl
@[simp] theorem State.setDr3_fs (s : State) (v : Dword) : (s.setDr3 v).fs = s.fs := rfl
@[simp] theorem State.setDr3_gs (s : State) (v : Dword) : (s.setDr3 v).gs = s.gs := rfl
@[simp] theorem State.setDr3_cr0 (s : State) (v : Dword) : (s.setDr3 v).cr0 = s.cr0 := rfl
@[simp] theorem State.setDr3_cr2 (s : State) (v : Dword) : (s.setDr3 v).cr2 = s.cr2 := rfl
@[simp] theorem State.setDr3_cr3 (s : State) (v : Dword) : (s.setDr3 v).cr3 = s.cr3 := rfl
@[simp] theorem State.setDr3_gdtr (s : State) (v : Dword) : (s.setDr3 v).gdtr = s.gdtr := rfl
@[simp] theorem State.setDr3_idtr (s : State) (v : Dword) : (s.setDr3 v).idtr = s.idtr := rfl
@[simp] theorem State.setDr3_ldtr (s : State) (v : Dword) : (s.setDr3 v).ldtr = s.ldtr := rfl
@[simp] theorem State.setDr3_tr (s : State) (v : Dword) : (s.setDr3 v).tr = s.tr := rfl
@[simp] theorem State.setDr3_dr0 (s : State) (v : Dword) : (s.setDr3 v).dr0 = s.dr0 := rfl
@[simp] theorem State.setDr3_dr1 (s : State) (v : Dword) : (s.setDr3 v).dr1 = s.dr1 := rfl
@[simp] theorem State.setDr3_dr2 (s : State) (v : Dword) : (s.setDr3 v).dr2 = s.dr2 := rfl
@[simp] theorem State.setDr3_dr3 (s : State) (v : Dword) : (s.setDr3 v).dr3 = v := rfl
@[simp] theorem State.setDr3_dr6 (s : State) (v : Dword) : (s.setDr3 v).dr6 = s.dr6 := rfl
@[simp] theorem State.setDr3_dr7 (s : State) (v : Dword) : (s.setDr3 v).dr7 = s.dr7 := rfl
@[simp] theorem State.setDr3_tr6 (s : State) (v : Dword) : (s.setDr3 v).tr6 = s.tr6 := rfl
@[simp] theorem State.setDr3_tr7 (s : State) (v : Dword) : (s.setDr3 v).tr7 = s.tr7 := rfl
@[simp] theorem State.setDr3_cpl (s : State) (v : Dword) : (s.setDr3 v).cpl = s.cpl := rfl
@[simp] theorem State.setDr3_nmiPending (s : State) (v : Dword) : (s.setDr3 v).nmiPending = s.nmiPending := rfl
@[simp] theorem State.setDr3_nmiInService (s : State) (v : Dword) : (s.setDr3 v).nmiInService = s.nmiInService := rfl
@[simp] theorem State.setDr3_shadow (s : State) (v : Dword) : (s.setDr3 v).shadow = s.shadow := rfl
@[simp] theorem State.setDr3_runState (s : State) (v : Dword) : (s.setDr3 v).runState = s.runState := rfl
@[simp] theorem State.setDr3_copOpcode (s : State) (v : Dword) : (s.setDr3 v).copOpcode = s.copOpcode := rfl
@[simp] theorem State.setDr3_copOperand (s : State) (v : Dword) : (s.setDr3 v).copOperand = s.copOperand := rfl
@[simp] theorem State.setDr3_tlb (s : State) (v : Dword) : (s.setDr3 v).tlb = s.tlb := rfl
@[simp] theorem State.setDr3_stale (s : State) (v : Dword) : (s.setDr3 v).stale = s.stale := rfl
@[simp] theorem State.setDr3_queued (s : State) (v : Dword) : (s.setDr3 v).queued = s.queued := rfl
@[simp] theorem State.setDr3_mem (s : State) (v : Dword) : (s.setDr3 v).mem = s.mem := rfl
@[simp] theorem State.setDr3_ioInputs (s : State) (v : Dword) : (s.setDr3 v).ioInputs = s.ioInputs := rfl
@[simp] theorem State.setDr3_bus (s : State) (v : Dword) : (s.setDr3 v).bus = s.bus := rfl
@[simp] theorem State.setDr3_deviceBus (s : State) (v : Dword) : (s.setDr3 v).deviceBus = s.deviceBus := rfl
@[simp] theorem State.setDr3_pins (s : State) (v : Dword) : (s.setDr3 v).pins = s.pins := rfl
@[simp] theorem State.setDr3_copRequest (s : State) (v : Dword) : (s.setDr3 v).copRequest = s.copRequest := rfl
@[simp] theorem State.setDr3_instrEip (s : State) (v : Dword) : (s.setDr3 v).instrEip = s.instrEip := rfl
@[simp] theorem State.setDr3_eipOver (s : State) (v : Dword) : (s.setDr3 v).eipOver = s.eipOver := rfl
@[simp] theorem State.setDr3_pfx (s : State) (v : Dword) : (s.setDr3 v).pfx = s.pfx := rfl
@[simp] theorem State.setDr3_pendingDb (s : State) (v : Dword) : (s.setDr3 v).pendingDb = s.pendingDb := rfl
@[simp] theorem State.setDr3_draws (s : State) (v : Dword) : (s.setDr3 v).draws = s.draws := rfl
@[simp] theorem State.setDr3_params (s : State) (v : Dword) : (s.setDr3 v).params = s.params := rfl

/-! setCr2 -/

@[simp] theorem State.setCr2_regs (s : State) (v : Dword) : (s.setCr2 v).regs = s.regs := rfl
@[simp] theorem State.setCr2_eip (s : State) (v : Dword) : (s.setCr2 v).eip = s.eip := rfl
@[simp] theorem State.setCr2_eflags (s : State) (v : Dword) : (s.setCr2 v).eflags = s.eflags := rfl
@[simp] theorem State.setCr2_es (s : State) (v : Dword) : (s.setCr2 v).es = s.es := rfl
@[simp] theorem State.setCr2_cs (s : State) (v : Dword) : (s.setCr2 v).cs = s.cs := rfl
@[simp] theorem State.setCr2_ss (s : State) (v : Dword) : (s.setCr2 v).ss = s.ss := rfl
@[simp] theorem State.setCr2_ds (s : State) (v : Dword) : (s.setCr2 v).ds = s.ds := rfl
@[simp] theorem State.setCr2_fs (s : State) (v : Dword) : (s.setCr2 v).fs = s.fs := rfl
@[simp] theorem State.setCr2_gs (s : State) (v : Dword) : (s.setCr2 v).gs = s.gs := rfl
@[simp] theorem State.setCr2_cr0 (s : State) (v : Dword) : (s.setCr2 v).cr0 = s.cr0 := rfl
@[simp] theorem State.setCr2_cr2 (s : State) (v : Dword) : (s.setCr2 v).cr2 = v := rfl
@[simp] theorem State.setCr2_cr3 (s : State) (v : Dword) : (s.setCr2 v).cr3 = s.cr3 := rfl
@[simp] theorem State.setCr2_gdtr (s : State) (v : Dword) : (s.setCr2 v).gdtr = s.gdtr := rfl
@[simp] theorem State.setCr2_idtr (s : State) (v : Dword) : (s.setCr2 v).idtr = s.idtr := rfl
@[simp] theorem State.setCr2_ldtr (s : State) (v : Dword) : (s.setCr2 v).ldtr = s.ldtr := rfl
@[simp] theorem State.setCr2_tr (s : State) (v : Dword) : (s.setCr2 v).tr = s.tr := rfl
@[simp] theorem State.setCr2_dr0 (s : State) (v : Dword) : (s.setCr2 v).dr0 = s.dr0 := rfl
@[simp] theorem State.setCr2_dr1 (s : State) (v : Dword) : (s.setCr2 v).dr1 = s.dr1 := rfl
@[simp] theorem State.setCr2_dr2 (s : State) (v : Dword) : (s.setCr2 v).dr2 = s.dr2 := rfl
@[simp] theorem State.setCr2_dr3 (s : State) (v : Dword) : (s.setCr2 v).dr3 = s.dr3 := rfl
@[simp] theorem State.setCr2_dr6 (s : State) (v : Dword) : (s.setCr2 v).dr6 = s.dr6 := rfl
@[simp] theorem State.setCr2_dr7 (s : State) (v : Dword) : (s.setCr2 v).dr7 = s.dr7 := rfl
@[simp] theorem State.setCr2_tr6 (s : State) (v : Dword) : (s.setCr2 v).tr6 = s.tr6 := rfl
@[simp] theorem State.setCr2_tr7 (s : State) (v : Dword) : (s.setCr2 v).tr7 = s.tr7 := rfl
@[simp] theorem State.setCr2_cpl (s : State) (v : Dword) : (s.setCr2 v).cpl = s.cpl := rfl
@[simp] theorem State.setCr2_nmiPending (s : State) (v : Dword) : (s.setCr2 v).nmiPending = s.nmiPending := rfl
@[simp] theorem State.setCr2_nmiInService (s : State) (v : Dword) : (s.setCr2 v).nmiInService = s.nmiInService := rfl
@[simp] theorem State.setCr2_shadow (s : State) (v : Dword) : (s.setCr2 v).shadow = s.shadow := rfl
@[simp] theorem State.setCr2_runState (s : State) (v : Dword) : (s.setCr2 v).runState = s.runState := rfl
@[simp] theorem State.setCr2_copOpcode (s : State) (v : Dword) : (s.setCr2 v).copOpcode = s.copOpcode := rfl
@[simp] theorem State.setCr2_copOperand (s : State) (v : Dword) : (s.setCr2 v).copOperand = s.copOperand := rfl
@[simp] theorem State.setCr2_tlb (s : State) (v : Dword) : (s.setCr2 v).tlb = s.tlb := rfl
@[simp] theorem State.setCr2_stale (s : State) (v : Dword) : (s.setCr2 v).stale = s.stale := rfl
@[simp] theorem State.setCr2_queued (s : State) (v : Dword) : (s.setCr2 v).queued = s.queued := rfl
@[simp] theorem State.setCr2_mem (s : State) (v : Dword) : (s.setCr2 v).mem = s.mem := rfl
@[simp] theorem State.setCr2_ioInputs (s : State) (v : Dword) : (s.setCr2 v).ioInputs = s.ioInputs := rfl
@[simp] theorem State.setCr2_bus (s : State) (v : Dword) : (s.setCr2 v).bus = s.bus := rfl
@[simp] theorem State.setCr2_deviceBus (s : State) (v : Dword) : (s.setCr2 v).deviceBus = s.deviceBus := rfl
@[simp] theorem State.setCr2_pins (s : State) (v : Dword) : (s.setCr2 v).pins = s.pins := rfl
@[simp] theorem State.setCr2_copRequest (s : State) (v : Dword) : (s.setCr2 v).copRequest = s.copRequest := rfl
@[simp] theorem State.setCr2_instrEip (s : State) (v : Dword) : (s.setCr2 v).instrEip = s.instrEip := rfl
@[simp] theorem State.setCr2_eipOver (s : State) (v : Dword) : (s.setCr2 v).eipOver = s.eipOver := rfl
@[simp] theorem State.setCr2_pfx (s : State) (v : Dword) : (s.setCr2 v).pfx = s.pfx := rfl
@[simp] theorem State.setCr2_pendingDb (s : State) (v : Dword) : (s.setCr2 v).pendingDb = s.pendingDb := rfl
@[simp] theorem State.setCr2_draws (s : State) (v : Dword) : (s.setCr2 v).draws = s.draws := rfl
@[simp] theorem State.setCr2_params (s : State) (v : Dword) : (s.setCr2 v).params = s.params := rfl

/-! setTr6 -/

@[simp] theorem State.setTr6_regs (s : State) (v : Dword) : (s.setTr6 v).regs = s.regs := rfl
@[simp] theorem State.setTr6_eip (s : State) (v : Dword) : (s.setTr6 v).eip = s.eip := rfl
@[simp] theorem State.setTr6_eflags (s : State) (v : Dword) : (s.setTr6 v).eflags = s.eflags := rfl
@[simp] theorem State.setTr6_es (s : State) (v : Dword) : (s.setTr6 v).es = s.es := rfl
@[simp] theorem State.setTr6_cs (s : State) (v : Dword) : (s.setTr6 v).cs = s.cs := rfl
@[simp] theorem State.setTr6_ss (s : State) (v : Dword) : (s.setTr6 v).ss = s.ss := rfl
@[simp] theorem State.setTr6_ds (s : State) (v : Dword) : (s.setTr6 v).ds = s.ds := rfl
@[simp] theorem State.setTr6_fs (s : State) (v : Dword) : (s.setTr6 v).fs = s.fs := rfl
@[simp] theorem State.setTr6_gs (s : State) (v : Dword) : (s.setTr6 v).gs = s.gs := rfl
@[simp] theorem State.setTr6_cr0 (s : State) (v : Dword) : (s.setTr6 v).cr0 = s.cr0 := rfl
@[simp] theorem State.setTr6_cr2 (s : State) (v : Dword) : (s.setTr6 v).cr2 = s.cr2 := rfl
@[simp] theorem State.setTr6_cr3 (s : State) (v : Dword) : (s.setTr6 v).cr3 = s.cr3 := rfl
@[simp] theorem State.setTr6_gdtr (s : State) (v : Dword) : (s.setTr6 v).gdtr = s.gdtr := rfl
@[simp] theorem State.setTr6_idtr (s : State) (v : Dword) : (s.setTr6 v).idtr = s.idtr := rfl
@[simp] theorem State.setTr6_ldtr (s : State) (v : Dword) : (s.setTr6 v).ldtr = s.ldtr := rfl
@[simp] theorem State.setTr6_tr (s : State) (v : Dword) : (s.setTr6 v).tr = s.tr := rfl
@[simp] theorem State.setTr6_dr0 (s : State) (v : Dword) : (s.setTr6 v).dr0 = s.dr0 := rfl
@[simp] theorem State.setTr6_dr1 (s : State) (v : Dword) : (s.setTr6 v).dr1 = s.dr1 := rfl
@[simp] theorem State.setTr6_dr2 (s : State) (v : Dword) : (s.setTr6 v).dr2 = s.dr2 := rfl
@[simp] theorem State.setTr6_dr3 (s : State) (v : Dword) : (s.setTr6 v).dr3 = s.dr3 := rfl
@[simp] theorem State.setTr6_dr6 (s : State) (v : Dword) : (s.setTr6 v).dr6 = s.dr6 := rfl
@[simp] theorem State.setTr6_dr7 (s : State) (v : Dword) : (s.setTr6 v).dr7 = s.dr7 := rfl
@[simp] theorem State.setTr6_tr6 (s : State) (v : Dword) : (s.setTr6 v).tr6 = v := rfl
@[simp] theorem State.setTr6_tr7 (s : State) (v : Dword) : (s.setTr6 v).tr7 = s.tr7 := rfl
@[simp] theorem State.setTr6_cpl (s : State) (v : Dword) : (s.setTr6 v).cpl = s.cpl := rfl
@[simp] theorem State.setTr6_nmiPending (s : State) (v : Dword) : (s.setTr6 v).nmiPending = s.nmiPending := rfl
@[simp] theorem State.setTr6_nmiInService (s : State) (v : Dword) : (s.setTr6 v).nmiInService = s.nmiInService := rfl
@[simp] theorem State.setTr6_shadow (s : State) (v : Dword) : (s.setTr6 v).shadow = s.shadow := rfl
@[simp] theorem State.setTr6_runState (s : State) (v : Dword) : (s.setTr6 v).runState = s.runState := rfl
@[simp] theorem State.setTr6_copOpcode (s : State) (v : Dword) : (s.setTr6 v).copOpcode = s.copOpcode := rfl
@[simp] theorem State.setTr6_copOperand (s : State) (v : Dword) : (s.setTr6 v).copOperand = s.copOperand := rfl
@[simp] theorem State.setTr6_tlb (s : State) (v : Dword) : (s.setTr6 v).tlb = s.tlb := rfl
@[simp] theorem State.setTr6_stale (s : State) (v : Dword) : (s.setTr6 v).stale = s.stale := rfl
@[simp] theorem State.setTr6_queued (s : State) (v : Dword) : (s.setTr6 v).queued = s.queued := rfl
@[simp] theorem State.setTr6_mem (s : State) (v : Dword) : (s.setTr6 v).mem = s.mem := rfl
@[simp] theorem State.setTr6_ioInputs (s : State) (v : Dword) : (s.setTr6 v).ioInputs = s.ioInputs := rfl
@[simp] theorem State.setTr6_bus (s : State) (v : Dword) : (s.setTr6 v).bus = s.bus := rfl
@[simp] theorem State.setTr6_deviceBus (s : State) (v : Dword) : (s.setTr6 v).deviceBus = s.deviceBus := rfl
@[simp] theorem State.setTr6_pins (s : State) (v : Dword) : (s.setTr6 v).pins = s.pins := rfl
@[simp] theorem State.setTr6_copRequest (s : State) (v : Dword) : (s.setTr6 v).copRequest = s.copRequest := rfl
@[simp] theorem State.setTr6_instrEip (s : State) (v : Dword) : (s.setTr6 v).instrEip = s.instrEip := rfl
@[simp] theorem State.setTr6_eipOver (s : State) (v : Dword) : (s.setTr6 v).eipOver = s.eipOver := rfl
@[simp] theorem State.setTr6_pfx (s : State) (v : Dword) : (s.setTr6 v).pfx = s.pfx := rfl
@[simp] theorem State.setTr6_pendingDb (s : State) (v : Dword) : (s.setTr6 v).pendingDb = s.pendingDb := rfl
@[simp] theorem State.setTr6_draws (s : State) (v : Dword) : (s.setTr6 v).draws = s.draws := rfl
@[simp] theorem State.setTr6_params (s : State) (v : Dword) : (s.setTr6 v).params = s.params := rfl

/-! setTr7 -/

@[simp] theorem State.setTr7_regs (s : State) (v : Dword) : (s.setTr7 v).regs = s.regs := rfl
@[simp] theorem State.setTr7_eip (s : State) (v : Dword) : (s.setTr7 v).eip = s.eip := rfl
@[simp] theorem State.setTr7_eflags (s : State) (v : Dword) : (s.setTr7 v).eflags = s.eflags := rfl
@[simp] theorem State.setTr7_es (s : State) (v : Dword) : (s.setTr7 v).es = s.es := rfl
@[simp] theorem State.setTr7_cs (s : State) (v : Dword) : (s.setTr7 v).cs = s.cs := rfl
@[simp] theorem State.setTr7_ss (s : State) (v : Dword) : (s.setTr7 v).ss = s.ss := rfl
@[simp] theorem State.setTr7_ds (s : State) (v : Dword) : (s.setTr7 v).ds = s.ds := rfl
@[simp] theorem State.setTr7_fs (s : State) (v : Dword) : (s.setTr7 v).fs = s.fs := rfl
@[simp] theorem State.setTr7_gs (s : State) (v : Dword) : (s.setTr7 v).gs = s.gs := rfl
@[simp] theorem State.setTr7_cr0 (s : State) (v : Dword) : (s.setTr7 v).cr0 = s.cr0 := rfl
@[simp] theorem State.setTr7_cr2 (s : State) (v : Dword) : (s.setTr7 v).cr2 = s.cr2 := rfl
@[simp] theorem State.setTr7_cr3 (s : State) (v : Dword) : (s.setTr7 v).cr3 = s.cr3 := rfl
@[simp] theorem State.setTr7_gdtr (s : State) (v : Dword) : (s.setTr7 v).gdtr = s.gdtr := rfl
@[simp] theorem State.setTr7_idtr (s : State) (v : Dword) : (s.setTr7 v).idtr = s.idtr := rfl
@[simp] theorem State.setTr7_ldtr (s : State) (v : Dword) : (s.setTr7 v).ldtr = s.ldtr := rfl
@[simp] theorem State.setTr7_tr (s : State) (v : Dword) : (s.setTr7 v).tr = s.tr := rfl
@[simp] theorem State.setTr7_dr0 (s : State) (v : Dword) : (s.setTr7 v).dr0 = s.dr0 := rfl
@[simp] theorem State.setTr7_dr1 (s : State) (v : Dword) : (s.setTr7 v).dr1 = s.dr1 := rfl
@[simp] theorem State.setTr7_dr2 (s : State) (v : Dword) : (s.setTr7 v).dr2 = s.dr2 := rfl
@[simp] theorem State.setTr7_dr3 (s : State) (v : Dword) : (s.setTr7 v).dr3 = s.dr3 := rfl
@[simp] theorem State.setTr7_dr6 (s : State) (v : Dword) : (s.setTr7 v).dr6 = s.dr6 := rfl
@[simp] theorem State.setTr7_dr7 (s : State) (v : Dword) : (s.setTr7 v).dr7 = s.dr7 := rfl
@[simp] theorem State.setTr7_tr6 (s : State) (v : Dword) : (s.setTr7 v).tr6 = s.tr6 := rfl
@[simp] theorem State.setTr7_tr7 (s : State) (v : Dword) : (s.setTr7 v).tr7 = v := rfl
@[simp] theorem State.setTr7_cpl (s : State) (v : Dword) : (s.setTr7 v).cpl = s.cpl := rfl
@[simp] theorem State.setTr7_nmiPending (s : State) (v : Dword) : (s.setTr7 v).nmiPending = s.nmiPending := rfl
@[simp] theorem State.setTr7_nmiInService (s : State) (v : Dword) : (s.setTr7 v).nmiInService = s.nmiInService := rfl
@[simp] theorem State.setTr7_shadow (s : State) (v : Dword) : (s.setTr7 v).shadow = s.shadow := rfl
@[simp] theorem State.setTr7_runState (s : State) (v : Dword) : (s.setTr7 v).runState = s.runState := rfl
@[simp] theorem State.setTr7_copOpcode (s : State) (v : Dword) : (s.setTr7 v).copOpcode = s.copOpcode := rfl
@[simp] theorem State.setTr7_copOperand (s : State) (v : Dword) : (s.setTr7 v).copOperand = s.copOperand := rfl
@[simp] theorem State.setTr7_tlb (s : State) (v : Dword) : (s.setTr7 v).tlb = s.tlb := rfl
@[simp] theorem State.setTr7_stale (s : State) (v : Dword) : (s.setTr7 v).stale = s.stale := rfl
@[simp] theorem State.setTr7_queued (s : State) (v : Dword) : (s.setTr7 v).queued = s.queued := rfl
@[simp] theorem State.setTr7_mem (s : State) (v : Dword) : (s.setTr7 v).mem = s.mem := rfl
@[simp] theorem State.setTr7_ioInputs (s : State) (v : Dword) : (s.setTr7 v).ioInputs = s.ioInputs := rfl
@[simp] theorem State.setTr7_bus (s : State) (v : Dword) : (s.setTr7 v).bus = s.bus := rfl
@[simp] theorem State.setTr7_deviceBus (s : State) (v : Dword) : (s.setTr7 v).deviceBus = s.deviceBus := rfl
@[simp] theorem State.setTr7_pins (s : State) (v : Dword) : (s.setTr7 v).pins = s.pins := rfl
@[simp] theorem State.setTr7_copRequest (s : State) (v : Dword) : (s.setTr7 v).copRequest = s.copRequest := rfl
@[simp] theorem State.setTr7_instrEip (s : State) (v : Dword) : (s.setTr7 v).instrEip = s.instrEip := rfl
@[simp] theorem State.setTr7_eipOver (s : State) (v : Dword) : (s.setTr7 v).eipOver = s.eipOver := rfl
@[simp] theorem State.setTr7_pfx (s : State) (v : Dword) : (s.setTr7 v).pfx = s.pfx := rfl
@[simp] theorem State.setTr7_pendingDb (s : State) (v : Dword) : (s.setTr7 v).pendingDb = s.pendingDb := rfl
@[simp] theorem State.setTr7_draws (s : State) (v : Dword) : (s.setTr7 v).draws = s.draws := rfl
@[simp] theorem State.setTr7_params (s : State) (v : Dword) : (s.setTr7 v).params = s.params := rfl

/-! setGdtr -/

@[simp] theorem State.setGdtr_regs (s : State) (v : TableReg) : (s.setGdtr v).regs = s.regs := rfl
@[simp] theorem State.setGdtr_eip (s : State) (v : TableReg) : (s.setGdtr v).eip = s.eip := rfl
@[simp] theorem State.setGdtr_eflags (s : State) (v : TableReg) : (s.setGdtr v).eflags = s.eflags := rfl
@[simp] theorem State.setGdtr_es (s : State) (v : TableReg) : (s.setGdtr v).es = s.es := rfl
@[simp] theorem State.setGdtr_cs (s : State) (v : TableReg) : (s.setGdtr v).cs = s.cs := rfl
@[simp] theorem State.setGdtr_ss (s : State) (v : TableReg) : (s.setGdtr v).ss = s.ss := rfl
@[simp] theorem State.setGdtr_ds (s : State) (v : TableReg) : (s.setGdtr v).ds = s.ds := rfl
@[simp] theorem State.setGdtr_fs (s : State) (v : TableReg) : (s.setGdtr v).fs = s.fs := rfl
@[simp] theorem State.setGdtr_gs (s : State) (v : TableReg) : (s.setGdtr v).gs = s.gs := rfl
@[simp] theorem State.setGdtr_cr0 (s : State) (v : TableReg) : (s.setGdtr v).cr0 = s.cr0 := rfl
@[simp] theorem State.setGdtr_cr2 (s : State) (v : TableReg) : (s.setGdtr v).cr2 = s.cr2 := rfl
@[simp] theorem State.setGdtr_cr3 (s : State) (v : TableReg) : (s.setGdtr v).cr3 = s.cr3 := rfl
@[simp] theorem State.setGdtr_gdtr (s : State) (v : TableReg) : (s.setGdtr v).gdtr = v := rfl
@[simp] theorem State.setGdtr_idtr (s : State) (v : TableReg) : (s.setGdtr v).idtr = s.idtr := rfl
@[simp] theorem State.setGdtr_ldtr (s : State) (v : TableReg) : (s.setGdtr v).ldtr = s.ldtr := rfl
@[simp] theorem State.setGdtr_tr (s : State) (v : TableReg) : (s.setGdtr v).tr = s.tr := rfl
@[simp] theorem State.setGdtr_dr0 (s : State) (v : TableReg) : (s.setGdtr v).dr0 = s.dr0 := rfl
@[simp] theorem State.setGdtr_dr1 (s : State) (v : TableReg) : (s.setGdtr v).dr1 = s.dr1 := rfl
@[simp] theorem State.setGdtr_dr2 (s : State) (v : TableReg) : (s.setGdtr v).dr2 = s.dr2 := rfl
@[simp] theorem State.setGdtr_dr3 (s : State) (v : TableReg) : (s.setGdtr v).dr3 = s.dr3 := rfl
@[simp] theorem State.setGdtr_dr6 (s : State) (v : TableReg) : (s.setGdtr v).dr6 = s.dr6 := rfl
@[simp] theorem State.setGdtr_dr7 (s : State) (v : TableReg) : (s.setGdtr v).dr7 = s.dr7 := rfl
@[simp] theorem State.setGdtr_tr6 (s : State) (v : TableReg) : (s.setGdtr v).tr6 = s.tr6 := rfl
@[simp] theorem State.setGdtr_tr7 (s : State) (v : TableReg) : (s.setGdtr v).tr7 = s.tr7 := rfl
@[simp] theorem State.setGdtr_cpl (s : State) (v : TableReg) : (s.setGdtr v).cpl = s.cpl := rfl
@[simp] theorem State.setGdtr_nmiPending (s : State) (v : TableReg) : (s.setGdtr v).nmiPending = s.nmiPending := rfl
@[simp] theorem State.setGdtr_nmiInService (s : State) (v : TableReg) : (s.setGdtr v).nmiInService = s.nmiInService := rfl
@[simp] theorem State.setGdtr_shadow (s : State) (v : TableReg) : (s.setGdtr v).shadow = s.shadow := rfl
@[simp] theorem State.setGdtr_runState (s : State) (v : TableReg) : (s.setGdtr v).runState = s.runState := rfl
@[simp] theorem State.setGdtr_copOpcode (s : State) (v : TableReg) : (s.setGdtr v).copOpcode = s.copOpcode := rfl
@[simp] theorem State.setGdtr_copOperand (s : State) (v : TableReg) : (s.setGdtr v).copOperand = s.copOperand := rfl
@[simp] theorem State.setGdtr_tlb (s : State) (v : TableReg) : (s.setGdtr v).tlb = s.tlb := rfl
@[simp] theorem State.setGdtr_stale (s : State) (v : TableReg) : (s.setGdtr v).stale = s.stale := rfl
@[simp] theorem State.setGdtr_queued (s : State) (v : TableReg) : (s.setGdtr v).queued = s.queued := rfl
@[simp] theorem State.setGdtr_mem (s : State) (v : TableReg) : (s.setGdtr v).mem = s.mem := rfl
@[simp] theorem State.setGdtr_ioInputs (s : State) (v : TableReg) : (s.setGdtr v).ioInputs = s.ioInputs := rfl
@[simp] theorem State.setGdtr_bus (s : State) (v : TableReg) : (s.setGdtr v).bus = s.bus := rfl
@[simp] theorem State.setGdtr_deviceBus (s : State) (v : TableReg) : (s.setGdtr v).deviceBus = s.deviceBus := rfl
@[simp] theorem State.setGdtr_pins (s : State) (v : TableReg) : (s.setGdtr v).pins = s.pins := rfl
@[simp] theorem State.setGdtr_copRequest (s : State) (v : TableReg) : (s.setGdtr v).copRequest = s.copRequest := rfl
@[simp] theorem State.setGdtr_instrEip (s : State) (v : TableReg) : (s.setGdtr v).instrEip = s.instrEip := rfl
@[simp] theorem State.setGdtr_eipOver (s : State) (v : TableReg) : (s.setGdtr v).eipOver = s.eipOver := rfl
@[simp] theorem State.setGdtr_pfx (s : State) (v : TableReg) : (s.setGdtr v).pfx = s.pfx := rfl
@[simp] theorem State.setGdtr_pendingDb (s : State) (v : TableReg) : (s.setGdtr v).pendingDb = s.pendingDb := rfl
@[simp] theorem State.setGdtr_draws (s : State) (v : TableReg) : (s.setGdtr v).draws = s.draws := rfl
@[simp] theorem State.setGdtr_params (s : State) (v : TableReg) : (s.setGdtr v).params = s.params := rfl

/-! setIdtr -/

@[simp] theorem State.setIdtr_regs (s : State) (v : TableReg) : (s.setIdtr v).regs = s.regs := rfl
@[simp] theorem State.setIdtr_eip (s : State) (v : TableReg) : (s.setIdtr v).eip = s.eip := rfl
@[simp] theorem State.setIdtr_eflags (s : State) (v : TableReg) : (s.setIdtr v).eflags = s.eflags := rfl
@[simp] theorem State.setIdtr_es (s : State) (v : TableReg) : (s.setIdtr v).es = s.es := rfl
@[simp] theorem State.setIdtr_cs (s : State) (v : TableReg) : (s.setIdtr v).cs = s.cs := rfl
@[simp] theorem State.setIdtr_ss (s : State) (v : TableReg) : (s.setIdtr v).ss = s.ss := rfl
@[simp] theorem State.setIdtr_ds (s : State) (v : TableReg) : (s.setIdtr v).ds = s.ds := rfl
@[simp] theorem State.setIdtr_fs (s : State) (v : TableReg) : (s.setIdtr v).fs = s.fs := rfl
@[simp] theorem State.setIdtr_gs (s : State) (v : TableReg) : (s.setIdtr v).gs = s.gs := rfl
@[simp] theorem State.setIdtr_cr0 (s : State) (v : TableReg) : (s.setIdtr v).cr0 = s.cr0 := rfl
@[simp] theorem State.setIdtr_cr2 (s : State) (v : TableReg) : (s.setIdtr v).cr2 = s.cr2 := rfl
@[simp] theorem State.setIdtr_cr3 (s : State) (v : TableReg) : (s.setIdtr v).cr3 = s.cr3 := rfl
@[simp] theorem State.setIdtr_gdtr (s : State) (v : TableReg) : (s.setIdtr v).gdtr = s.gdtr := rfl
@[simp] theorem State.setIdtr_idtr (s : State) (v : TableReg) : (s.setIdtr v).idtr = v := rfl
@[simp] theorem State.setIdtr_ldtr (s : State) (v : TableReg) : (s.setIdtr v).ldtr = s.ldtr := rfl
@[simp] theorem State.setIdtr_tr (s : State) (v : TableReg) : (s.setIdtr v).tr = s.tr := rfl
@[simp] theorem State.setIdtr_dr0 (s : State) (v : TableReg) : (s.setIdtr v).dr0 = s.dr0 := rfl
@[simp] theorem State.setIdtr_dr1 (s : State) (v : TableReg) : (s.setIdtr v).dr1 = s.dr1 := rfl
@[simp] theorem State.setIdtr_dr2 (s : State) (v : TableReg) : (s.setIdtr v).dr2 = s.dr2 := rfl
@[simp] theorem State.setIdtr_dr3 (s : State) (v : TableReg) : (s.setIdtr v).dr3 = s.dr3 := rfl
@[simp] theorem State.setIdtr_dr6 (s : State) (v : TableReg) : (s.setIdtr v).dr6 = s.dr6 := rfl
@[simp] theorem State.setIdtr_dr7 (s : State) (v : TableReg) : (s.setIdtr v).dr7 = s.dr7 := rfl
@[simp] theorem State.setIdtr_tr6 (s : State) (v : TableReg) : (s.setIdtr v).tr6 = s.tr6 := rfl
@[simp] theorem State.setIdtr_tr7 (s : State) (v : TableReg) : (s.setIdtr v).tr7 = s.tr7 := rfl
@[simp] theorem State.setIdtr_cpl (s : State) (v : TableReg) : (s.setIdtr v).cpl = s.cpl := rfl
@[simp] theorem State.setIdtr_nmiPending (s : State) (v : TableReg) : (s.setIdtr v).nmiPending = s.nmiPending := rfl
@[simp] theorem State.setIdtr_nmiInService (s : State) (v : TableReg) : (s.setIdtr v).nmiInService = s.nmiInService := rfl
@[simp] theorem State.setIdtr_shadow (s : State) (v : TableReg) : (s.setIdtr v).shadow = s.shadow := rfl
@[simp] theorem State.setIdtr_runState (s : State) (v : TableReg) : (s.setIdtr v).runState = s.runState := rfl
@[simp] theorem State.setIdtr_copOpcode (s : State) (v : TableReg) : (s.setIdtr v).copOpcode = s.copOpcode := rfl
@[simp] theorem State.setIdtr_copOperand (s : State) (v : TableReg) : (s.setIdtr v).copOperand = s.copOperand := rfl
@[simp] theorem State.setIdtr_tlb (s : State) (v : TableReg) : (s.setIdtr v).tlb = s.tlb := rfl
@[simp] theorem State.setIdtr_stale (s : State) (v : TableReg) : (s.setIdtr v).stale = s.stale := rfl
@[simp] theorem State.setIdtr_queued (s : State) (v : TableReg) : (s.setIdtr v).queued = s.queued := rfl
@[simp] theorem State.setIdtr_mem (s : State) (v : TableReg) : (s.setIdtr v).mem = s.mem := rfl
@[simp] theorem State.setIdtr_ioInputs (s : State) (v : TableReg) : (s.setIdtr v).ioInputs = s.ioInputs := rfl
@[simp] theorem State.setIdtr_bus (s : State) (v : TableReg) : (s.setIdtr v).bus = s.bus := rfl
@[simp] theorem State.setIdtr_deviceBus (s : State) (v : TableReg) : (s.setIdtr v).deviceBus = s.deviceBus := rfl
@[simp] theorem State.setIdtr_pins (s : State) (v : TableReg) : (s.setIdtr v).pins = s.pins := rfl
@[simp] theorem State.setIdtr_copRequest (s : State) (v : TableReg) : (s.setIdtr v).copRequest = s.copRequest := rfl
@[simp] theorem State.setIdtr_instrEip (s : State) (v : TableReg) : (s.setIdtr v).instrEip = s.instrEip := rfl
@[simp] theorem State.setIdtr_eipOver (s : State) (v : TableReg) : (s.setIdtr v).eipOver = s.eipOver := rfl
@[simp] theorem State.setIdtr_pfx (s : State) (v : TableReg) : (s.setIdtr v).pfx = s.pfx := rfl
@[simp] theorem State.setIdtr_pendingDb (s : State) (v : TableReg) : (s.setIdtr v).pendingDb = s.pendingDb := rfl
@[simp] theorem State.setIdtr_draws (s : State) (v : TableReg) : (s.setIdtr v).draws = s.draws := rfl
@[simp] theorem State.setIdtr_params (s : State) (v : TableReg) : (s.setIdtr v).params = s.params := rfl

/-! setLdtr -/

@[simp] theorem State.setLdtr_regs (s : State) (v : SegReg) : (s.setLdtr v).regs = s.regs := rfl
@[simp] theorem State.setLdtr_eip (s : State) (v : SegReg) : (s.setLdtr v).eip = s.eip := rfl
@[simp] theorem State.setLdtr_eflags (s : State) (v : SegReg) : (s.setLdtr v).eflags = s.eflags := rfl
@[simp] theorem State.setLdtr_es (s : State) (v : SegReg) : (s.setLdtr v).es = s.es := rfl
@[simp] theorem State.setLdtr_cs (s : State) (v : SegReg) : (s.setLdtr v).cs = s.cs := rfl
@[simp] theorem State.setLdtr_ss (s : State) (v : SegReg) : (s.setLdtr v).ss = s.ss := rfl
@[simp] theorem State.setLdtr_ds (s : State) (v : SegReg) : (s.setLdtr v).ds = s.ds := rfl
@[simp] theorem State.setLdtr_fs (s : State) (v : SegReg) : (s.setLdtr v).fs = s.fs := rfl
@[simp] theorem State.setLdtr_gs (s : State) (v : SegReg) : (s.setLdtr v).gs = s.gs := rfl
@[simp] theorem State.setLdtr_cr0 (s : State) (v : SegReg) : (s.setLdtr v).cr0 = s.cr0 := rfl
@[simp] theorem State.setLdtr_cr2 (s : State) (v : SegReg) : (s.setLdtr v).cr2 = s.cr2 := rfl
@[simp] theorem State.setLdtr_cr3 (s : State) (v : SegReg) : (s.setLdtr v).cr3 = s.cr3 := rfl
@[simp] theorem State.setLdtr_gdtr (s : State) (v : SegReg) : (s.setLdtr v).gdtr = s.gdtr := rfl
@[simp] theorem State.setLdtr_idtr (s : State) (v : SegReg) : (s.setLdtr v).idtr = s.idtr := rfl
@[simp] theorem State.setLdtr_ldtr (s : State) (v : SegReg) : (s.setLdtr v).ldtr = v := rfl
@[simp] theorem State.setLdtr_tr (s : State) (v : SegReg) : (s.setLdtr v).tr = s.tr := rfl
@[simp] theorem State.setLdtr_dr0 (s : State) (v : SegReg) : (s.setLdtr v).dr0 = s.dr0 := rfl
@[simp] theorem State.setLdtr_dr1 (s : State) (v : SegReg) : (s.setLdtr v).dr1 = s.dr1 := rfl
@[simp] theorem State.setLdtr_dr2 (s : State) (v : SegReg) : (s.setLdtr v).dr2 = s.dr2 := rfl
@[simp] theorem State.setLdtr_dr3 (s : State) (v : SegReg) : (s.setLdtr v).dr3 = s.dr3 := rfl
@[simp] theorem State.setLdtr_dr6 (s : State) (v : SegReg) : (s.setLdtr v).dr6 = s.dr6 := rfl
@[simp] theorem State.setLdtr_dr7 (s : State) (v : SegReg) : (s.setLdtr v).dr7 = s.dr7 := rfl
@[simp] theorem State.setLdtr_tr6 (s : State) (v : SegReg) : (s.setLdtr v).tr6 = s.tr6 := rfl
@[simp] theorem State.setLdtr_tr7 (s : State) (v : SegReg) : (s.setLdtr v).tr7 = s.tr7 := rfl
@[simp] theorem State.setLdtr_cpl (s : State) (v : SegReg) : (s.setLdtr v).cpl = s.cpl := rfl
@[simp] theorem State.setLdtr_nmiPending (s : State) (v : SegReg) : (s.setLdtr v).nmiPending = s.nmiPending := rfl
@[simp] theorem State.setLdtr_nmiInService (s : State) (v : SegReg) : (s.setLdtr v).nmiInService = s.nmiInService := rfl
@[simp] theorem State.setLdtr_shadow (s : State) (v : SegReg) : (s.setLdtr v).shadow = s.shadow := rfl
@[simp] theorem State.setLdtr_runState (s : State) (v : SegReg) : (s.setLdtr v).runState = s.runState := rfl
@[simp] theorem State.setLdtr_copOpcode (s : State) (v : SegReg) : (s.setLdtr v).copOpcode = s.copOpcode := rfl
@[simp] theorem State.setLdtr_copOperand (s : State) (v : SegReg) : (s.setLdtr v).copOperand = s.copOperand := rfl
@[simp] theorem State.setLdtr_tlb (s : State) (v : SegReg) : (s.setLdtr v).tlb = s.tlb := rfl
@[simp] theorem State.setLdtr_stale (s : State) (v : SegReg) : (s.setLdtr v).stale = s.stale := rfl
@[simp] theorem State.setLdtr_queued (s : State) (v : SegReg) : (s.setLdtr v).queued = s.queued := rfl
@[simp] theorem State.setLdtr_mem (s : State) (v : SegReg) : (s.setLdtr v).mem = s.mem := rfl
@[simp] theorem State.setLdtr_ioInputs (s : State) (v : SegReg) : (s.setLdtr v).ioInputs = s.ioInputs := rfl
@[simp] theorem State.setLdtr_bus (s : State) (v : SegReg) : (s.setLdtr v).bus = s.bus := rfl
@[simp] theorem State.setLdtr_deviceBus (s : State) (v : SegReg) : (s.setLdtr v).deviceBus = s.deviceBus := rfl
@[simp] theorem State.setLdtr_pins (s : State) (v : SegReg) : (s.setLdtr v).pins = s.pins := rfl
@[simp] theorem State.setLdtr_copRequest (s : State) (v : SegReg) : (s.setLdtr v).copRequest = s.copRequest := rfl
@[simp] theorem State.setLdtr_instrEip (s : State) (v : SegReg) : (s.setLdtr v).instrEip = s.instrEip := rfl
@[simp] theorem State.setLdtr_eipOver (s : State) (v : SegReg) : (s.setLdtr v).eipOver = s.eipOver := rfl
@[simp] theorem State.setLdtr_pfx (s : State) (v : SegReg) : (s.setLdtr v).pfx = s.pfx := rfl
@[simp] theorem State.setLdtr_pendingDb (s : State) (v : SegReg) : (s.setLdtr v).pendingDb = s.pendingDb := rfl
@[simp] theorem State.setLdtr_draws (s : State) (v : SegReg) : (s.setLdtr v).draws = s.draws := rfl
@[simp] theorem State.setLdtr_params (s : State) (v : SegReg) : (s.setLdtr v).params = s.params := rfl

/-! setTr -/

@[simp] theorem State.setTr_regs (s : State) (v : SegReg) : (s.setTr v).regs = s.regs := rfl
@[simp] theorem State.setTr_eip (s : State) (v : SegReg) : (s.setTr v).eip = s.eip := rfl
@[simp] theorem State.setTr_eflags (s : State) (v : SegReg) : (s.setTr v).eflags = s.eflags := rfl
@[simp] theorem State.setTr_es (s : State) (v : SegReg) : (s.setTr v).es = s.es := rfl
@[simp] theorem State.setTr_cs (s : State) (v : SegReg) : (s.setTr v).cs = s.cs := rfl
@[simp] theorem State.setTr_ss (s : State) (v : SegReg) : (s.setTr v).ss = s.ss := rfl
@[simp] theorem State.setTr_ds (s : State) (v : SegReg) : (s.setTr v).ds = s.ds := rfl
@[simp] theorem State.setTr_fs (s : State) (v : SegReg) : (s.setTr v).fs = s.fs := rfl
@[simp] theorem State.setTr_gs (s : State) (v : SegReg) : (s.setTr v).gs = s.gs := rfl
@[simp] theorem State.setTr_cr0 (s : State) (v : SegReg) : (s.setTr v).cr0 = s.cr0 := rfl
@[simp] theorem State.setTr_cr2 (s : State) (v : SegReg) : (s.setTr v).cr2 = s.cr2 := rfl
@[simp] theorem State.setTr_cr3 (s : State) (v : SegReg) : (s.setTr v).cr3 = s.cr3 := rfl
@[simp] theorem State.setTr_gdtr (s : State) (v : SegReg) : (s.setTr v).gdtr = s.gdtr := rfl
@[simp] theorem State.setTr_idtr (s : State) (v : SegReg) : (s.setTr v).idtr = s.idtr := rfl
@[simp] theorem State.setTr_ldtr (s : State) (v : SegReg) : (s.setTr v).ldtr = s.ldtr := rfl
@[simp] theorem State.setTr_tr (s : State) (v : SegReg) : (s.setTr v).tr = v := rfl
@[simp] theorem State.setTr_dr0 (s : State) (v : SegReg) : (s.setTr v).dr0 = s.dr0 := rfl
@[simp] theorem State.setTr_dr1 (s : State) (v : SegReg) : (s.setTr v).dr1 = s.dr1 := rfl
@[simp] theorem State.setTr_dr2 (s : State) (v : SegReg) : (s.setTr v).dr2 = s.dr2 := rfl
@[simp] theorem State.setTr_dr3 (s : State) (v : SegReg) : (s.setTr v).dr3 = s.dr3 := rfl
@[simp] theorem State.setTr_dr6 (s : State) (v : SegReg) : (s.setTr v).dr6 = s.dr6 := rfl
@[simp] theorem State.setTr_dr7 (s : State) (v : SegReg) : (s.setTr v).dr7 = s.dr7 := rfl
@[simp] theorem State.setTr_tr6 (s : State) (v : SegReg) : (s.setTr v).tr6 = s.tr6 := rfl
@[simp] theorem State.setTr_tr7 (s : State) (v : SegReg) : (s.setTr v).tr7 = s.tr7 := rfl
@[simp] theorem State.setTr_cpl (s : State) (v : SegReg) : (s.setTr v).cpl = s.cpl := rfl
@[simp] theorem State.setTr_nmiPending (s : State) (v : SegReg) : (s.setTr v).nmiPending = s.nmiPending := rfl
@[simp] theorem State.setTr_nmiInService (s : State) (v : SegReg) : (s.setTr v).nmiInService = s.nmiInService := rfl
@[simp] theorem State.setTr_shadow (s : State) (v : SegReg) : (s.setTr v).shadow = s.shadow := rfl
@[simp] theorem State.setTr_runState (s : State) (v : SegReg) : (s.setTr v).runState = s.runState := rfl
@[simp] theorem State.setTr_copOpcode (s : State) (v : SegReg) : (s.setTr v).copOpcode = s.copOpcode := rfl
@[simp] theorem State.setTr_copOperand (s : State) (v : SegReg) : (s.setTr v).copOperand = s.copOperand := rfl
@[simp] theorem State.setTr_tlb (s : State) (v : SegReg) : (s.setTr v).tlb = s.tlb := rfl
@[simp] theorem State.setTr_stale (s : State) (v : SegReg) : (s.setTr v).stale = s.stale := rfl
@[simp] theorem State.setTr_queued (s : State) (v : SegReg) : (s.setTr v).queued = s.queued := rfl
@[simp] theorem State.setTr_mem (s : State) (v : SegReg) : (s.setTr v).mem = s.mem := rfl
@[simp] theorem State.setTr_ioInputs (s : State) (v : SegReg) : (s.setTr v).ioInputs = s.ioInputs := rfl
@[simp] theorem State.setTr_bus (s : State) (v : SegReg) : (s.setTr v).bus = s.bus := rfl
@[simp] theorem State.setTr_deviceBus (s : State) (v : SegReg) : (s.setTr v).deviceBus = s.deviceBus := rfl
@[simp] theorem State.setTr_pins (s : State) (v : SegReg) : (s.setTr v).pins = s.pins := rfl
@[simp] theorem State.setTr_copRequest (s : State) (v : SegReg) : (s.setTr v).copRequest = s.copRequest := rfl
@[simp] theorem State.setTr_instrEip (s : State) (v : SegReg) : (s.setTr v).instrEip = s.instrEip := rfl
@[simp] theorem State.setTr_eipOver (s : State) (v : SegReg) : (s.setTr v).eipOver = s.eipOver := rfl
@[simp] theorem State.setTr_pfx (s : State) (v : SegReg) : (s.setTr v).pfx = s.pfx := rfl
@[simp] theorem State.setTr_pendingDb (s : State) (v : SegReg) : (s.setTr v).pendingDb = s.pendingDb := rfl
@[simp] theorem State.setTr_draws (s : State) (v : SegReg) : (s.setTr v).draws = s.draws := rfl
@[simp] theorem State.setTr_params (s : State) (v : SegReg) : (s.setTr v).params = s.params := rfl

/-! setDr6 -/

@[simp] theorem State.setDr6_regs (s : State) (v : Dword) : (s.setDr6 v).regs = s.regs := rfl
@[simp] theorem State.setDr6_eip (s : State) (v : Dword) : (s.setDr6 v).eip = s.eip := rfl
@[simp] theorem State.setDr6_eflags (s : State) (v : Dword) : (s.setDr6 v).eflags = s.eflags := rfl
@[simp] theorem State.setDr6_es (s : State) (v : Dword) : (s.setDr6 v).es = s.es := rfl
@[simp] theorem State.setDr6_cs (s : State) (v : Dword) : (s.setDr6 v).cs = s.cs := rfl
@[simp] theorem State.setDr6_ss (s : State) (v : Dword) : (s.setDr6 v).ss = s.ss := rfl
@[simp] theorem State.setDr6_ds (s : State) (v : Dword) : (s.setDr6 v).ds = s.ds := rfl
@[simp] theorem State.setDr6_fs (s : State) (v : Dword) : (s.setDr6 v).fs = s.fs := rfl
@[simp] theorem State.setDr6_gs (s : State) (v : Dword) : (s.setDr6 v).gs = s.gs := rfl
@[simp] theorem State.setDr6_cr0 (s : State) (v : Dword) : (s.setDr6 v).cr0 = s.cr0 := rfl
@[simp] theorem State.setDr6_cr2 (s : State) (v : Dword) : (s.setDr6 v).cr2 = s.cr2 := rfl
@[simp] theorem State.setDr6_cr3 (s : State) (v : Dword) : (s.setDr6 v).cr3 = s.cr3 := rfl
@[simp] theorem State.setDr6_gdtr (s : State) (v : Dword) : (s.setDr6 v).gdtr = s.gdtr := rfl
@[simp] theorem State.setDr6_idtr (s : State) (v : Dword) : (s.setDr6 v).idtr = s.idtr := rfl
@[simp] theorem State.setDr6_ldtr (s : State) (v : Dword) : (s.setDr6 v).ldtr = s.ldtr := rfl
@[simp] theorem State.setDr6_tr (s : State) (v : Dword) : (s.setDr6 v).tr = s.tr := rfl
@[simp] theorem State.setDr6_dr0 (s : State) (v : Dword) : (s.setDr6 v).dr0 = s.dr0 := rfl
@[simp] theorem State.setDr6_dr1 (s : State) (v : Dword) : (s.setDr6 v).dr1 = s.dr1 := rfl
@[simp] theorem State.setDr6_dr2 (s : State) (v : Dword) : (s.setDr6 v).dr2 = s.dr2 := rfl
@[simp] theorem State.setDr6_dr3 (s : State) (v : Dword) : (s.setDr6 v).dr3 = s.dr3 := rfl
@[simp] theorem State.setDr6_dr6 (s : State) (v : Dword) : (s.setDr6 v).dr6 = v &&& dr6Mask := rfl
@[simp] theorem State.setDr6_dr7 (s : State) (v : Dword) : (s.setDr6 v).dr7 = s.dr7 := rfl
@[simp] theorem State.setDr6_tr6 (s : State) (v : Dword) : (s.setDr6 v).tr6 = s.tr6 := rfl
@[simp] theorem State.setDr6_tr7 (s : State) (v : Dword) : (s.setDr6 v).tr7 = s.tr7 := rfl
@[simp] theorem State.setDr6_cpl (s : State) (v : Dword) : (s.setDr6 v).cpl = s.cpl := rfl
@[simp] theorem State.setDr6_nmiPending (s : State) (v : Dword) : (s.setDr6 v).nmiPending = s.nmiPending := rfl
@[simp] theorem State.setDr6_nmiInService (s : State) (v : Dword) : (s.setDr6 v).nmiInService = s.nmiInService := rfl
@[simp] theorem State.setDr6_shadow (s : State) (v : Dword) : (s.setDr6 v).shadow = s.shadow := rfl
@[simp] theorem State.setDr6_runState (s : State) (v : Dword) : (s.setDr6 v).runState = s.runState := rfl
@[simp] theorem State.setDr6_copOpcode (s : State) (v : Dword) : (s.setDr6 v).copOpcode = s.copOpcode := rfl
@[simp] theorem State.setDr6_copOperand (s : State) (v : Dword) : (s.setDr6 v).copOperand = s.copOperand := rfl
@[simp] theorem State.setDr6_tlb (s : State) (v : Dword) : (s.setDr6 v).tlb = s.tlb := rfl
@[simp] theorem State.setDr6_stale (s : State) (v : Dword) : (s.setDr6 v).stale = s.stale := rfl
@[simp] theorem State.setDr6_queued (s : State) (v : Dword) : (s.setDr6 v).queued = s.queued := rfl
@[simp] theorem State.setDr6_mem (s : State) (v : Dword) : (s.setDr6 v).mem = s.mem := rfl
@[simp] theorem State.setDr6_ioInputs (s : State) (v : Dword) : (s.setDr6 v).ioInputs = s.ioInputs := rfl
@[simp] theorem State.setDr6_bus (s : State) (v : Dword) : (s.setDr6 v).bus = s.bus := rfl
@[simp] theorem State.setDr6_deviceBus (s : State) (v : Dword) : (s.setDr6 v).deviceBus = s.deviceBus := rfl
@[simp] theorem State.setDr6_pins (s : State) (v : Dword) : (s.setDr6 v).pins = s.pins := rfl
@[simp] theorem State.setDr6_copRequest (s : State) (v : Dword) : (s.setDr6 v).copRequest = s.copRequest := rfl
@[simp] theorem State.setDr6_instrEip (s : State) (v : Dword) : (s.setDr6 v).instrEip = s.instrEip := rfl
@[simp] theorem State.setDr6_eipOver (s : State) (v : Dword) : (s.setDr6 v).eipOver = s.eipOver := rfl
@[simp] theorem State.setDr6_pfx (s : State) (v : Dword) : (s.setDr6 v).pfx = s.pfx := rfl
@[simp] theorem State.setDr6_pendingDb (s : State) (v : Dword) : (s.setDr6 v).pendingDb = s.pendingDb := rfl
@[simp] theorem State.setDr6_draws (s : State) (v : Dword) : (s.setDr6 v).draws = s.draws := rfl
@[simp] theorem State.setDr6_params (s : State) (v : Dword) : (s.setDr6 v).params = s.params := rfl

/-! setDr7 -/

@[simp] theorem State.setDr7_regs (s : State) (v : Dword) : (s.setDr7 v).regs = s.regs := rfl
@[simp] theorem State.setDr7_eip (s : State) (v : Dword) : (s.setDr7 v).eip = s.eip := rfl
@[simp] theorem State.setDr7_eflags (s : State) (v : Dword) : (s.setDr7 v).eflags = s.eflags := rfl
@[simp] theorem State.setDr7_es (s : State) (v : Dword) : (s.setDr7 v).es = s.es := rfl
@[simp] theorem State.setDr7_cs (s : State) (v : Dword) : (s.setDr7 v).cs = s.cs := rfl
@[simp] theorem State.setDr7_ss (s : State) (v : Dword) : (s.setDr7 v).ss = s.ss := rfl
@[simp] theorem State.setDr7_ds (s : State) (v : Dword) : (s.setDr7 v).ds = s.ds := rfl
@[simp] theorem State.setDr7_fs (s : State) (v : Dword) : (s.setDr7 v).fs = s.fs := rfl
@[simp] theorem State.setDr7_gs (s : State) (v : Dword) : (s.setDr7 v).gs = s.gs := rfl
@[simp] theorem State.setDr7_cr0 (s : State) (v : Dword) : (s.setDr7 v).cr0 = s.cr0 := rfl
@[simp] theorem State.setDr7_cr2 (s : State) (v : Dword) : (s.setDr7 v).cr2 = s.cr2 := rfl
@[simp] theorem State.setDr7_cr3 (s : State) (v : Dword) : (s.setDr7 v).cr3 = s.cr3 := rfl
@[simp] theorem State.setDr7_gdtr (s : State) (v : Dword) : (s.setDr7 v).gdtr = s.gdtr := rfl
@[simp] theorem State.setDr7_idtr (s : State) (v : Dword) : (s.setDr7 v).idtr = s.idtr := rfl
@[simp] theorem State.setDr7_ldtr (s : State) (v : Dword) : (s.setDr7 v).ldtr = s.ldtr := rfl
@[simp] theorem State.setDr7_tr (s : State) (v : Dword) : (s.setDr7 v).tr = s.tr := rfl
@[simp] theorem State.setDr7_dr0 (s : State) (v : Dword) : (s.setDr7 v).dr0 = s.dr0 := rfl
@[simp] theorem State.setDr7_dr1 (s : State) (v : Dword) : (s.setDr7 v).dr1 = s.dr1 := rfl
@[simp] theorem State.setDr7_dr2 (s : State) (v : Dword) : (s.setDr7 v).dr2 = s.dr2 := rfl
@[simp] theorem State.setDr7_dr3 (s : State) (v : Dword) : (s.setDr7 v).dr3 = s.dr3 := rfl
@[simp] theorem State.setDr7_dr6 (s : State) (v : Dword) : (s.setDr7 v).dr6 = s.dr6 := rfl
@[simp] theorem State.setDr7_dr7 (s : State) (v : Dword) : (s.setDr7 v).dr7 = v &&& dr7Mask := rfl
@[simp] theorem State.setDr7_tr6 (s : State) (v : Dword) : (s.setDr7 v).tr6 = s.tr6 := rfl
@[simp] theorem State.setDr7_tr7 (s : State) (v : Dword) : (s.setDr7 v).tr7 = s.tr7 := rfl
@[simp] theorem State.setDr7_cpl (s : State) (v : Dword) : (s.setDr7 v).cpl = s.cpl := rfl
@[simp] theorem State.setDr7_nmiPending (s : State) (v : Dword) : (s.setDr7 v).nmiPending = s.nmiPending := rfl
@[simp] theorem State.setDr7_nmiInService (s : State) (v : Dword) : (s.setDr7 v).nmiInService = s.nmiInService := rfl
@[simp] theorem State.setDr7_shadow (s : State) (v : Dword) : (s.setDr7 v).shadow = s.shadow := rfl
@[simp] theorem State.setDr7_runState (s : State) (v : Dword) : (s.setDr7 v).runState = s.runState := rfl
@[simp] theorem State.setDr7_copOpcode (s : State) (v : Dword) : (s.setDr7 v).copOpcode = s.copOpcode := rfl
@[simp] theorem State.setDr7_copOperand (s : State) (v : Dword) : (s.setDr7 v).copOperand = s.copOperand := rfl
@[simp] theorem State.setDr7_tlb (s : State) (v : Dword) : (s.setDr7 v).tlb = s.tlb := rfl
@[simp] theorem State.setDr7_stale (s : State) (v : Dword) : (s.setDr7 v).stale = s.stale := rfl
@[simp] theorem State.setDr7_queued (s : State) (v : Dword) : (s.setDr7 v).queued = s.queued := rfl
@[simp] theorem State.setDr7_mem (s : State) (v : Dword) : (s.setDr7 v).mem = s.mem := rfl
@[simp] theorem State.setDr7_ioInputs (s : State) (v : Dword) : (s.setDr7 v).ioInputs = s.ioInputs := rfl
@[simp] theorem State.setDr7_bus (s : State) (v : Dword) : (s.setDr7 v).bus = s.bus := rfl
@[simp] theorem State.setDr7_deviceBus (s : State) (v : Dword) : (s.setDr7 v).deviceBus = s.deviceBus := rfl
@[simp] theorem State.setDr7_pins (s : State) (v : Dword) : (s.setDr7 v).pins = s.pins := rfl
@[simp] theorem State.setDr7_copRequest (s : State) (v : Dword) : (s.setDr7 v).copRequest = s.copRequest := rfl
@[simp] theorem State.setDr7_instrEip (s : State) (v : Dword) : (s.setDr7 v).instrEip = s.instrEip := rfl
@[simp] theorem State.setDr7_eipOver (s : State) (v : Dword) : (s.setDr7 v).eipOver = s.eipOver := rfl
@[simp] theorem State.setDr7_pfx (s : State) (v : Dword) : (s.setDr7 v).pfx = s.pfx := rfl
@[simp] theorem State.setDr7_pendingDb (s : State) (v : Dword) : (s.setDr7 v).pendingDb = s.pendingDb := rfl
@[simp] theorem State.setDr7_draws (s : State) (v : Dword) : (s.setDr7 v).draws = s.draws := rfl
@[simp] theorem State.setDr7_params (s : State) (v : Dword) : (s.setDr7 v).params = s.params := rfl

/-! setCr3 -/

@[simp] theorem State.setCr3_regs (s : State) (v : Dword) : (s.setCr3 v).regs = s.regs := rfl
@[simp] theorem State.setCr3_eip (s : State) (v : Dword) : (s.setCr3 v).eip = s.eip := rfl
@[simp] theorem State.setCr3_eflags (s : State) (v : Dword) : (s.setCr3 v).eflags = s.eflags := rfl
@[simp] theorem State.setCr3_es (s : State) (v : Dword) : (s.setCr3 v).es = s.es := rfl
@[simp] theorem State.setCr3_cs (s : State) (v : Dword) : (s.setCr3 v).cs = s.cs := rfl
@[simp] theorem State.setCr3_ss (s : State) (v : Dword) : (s.setCr3 v).ss = s.ss := rfl
@[simp] theorem State.setCr3_ds (s : State) (v : Dword) : (s.setCr3 v).ds = s.ds := rfl
@[simp] theorem State.setCr3_fs (s : State) (v : Dword) : (s.setCr3 v).fs = s.fs := rfl
@[simp] theorem State.setCr3_gs (s : State) (v : Dword) : (s.setCr3 v).gs = s.gs := rfl
@[simp] theorem State.setCr3_cr0 (s : State) (v : Dword) : (s.setCr3 v).cr0 = s.cr0 := rfl
@[simp] theorem State.setCr3_cr2 (s : State) (v : Dword) : (s.setCr3 v).cr2 = s.cr2 := rfl
@[simp] theorem State.setCr3_cr3 (s : State) (v : Dword) : (s.setCr3 v).cr3 = v.extractLsb' 12 20 := rfl
@[simp] theorem State.setCr3_gdtr (s : State) (v : Dword) : (s.setCr3 v).gdtr = s.gdtr := rfl
@[simp] theorem State.setCr3_idtr (s : State) (v : Dword) : (s.setCr3 v).idtr = s.idtr := rfl
@[simp] theorem State.setCr3_ldtr (s : State) (v : Dword) : (s.setCr3 v).ldtr = s.ldtr := rfl
@[simp] theorem State.setCr3_tr (s : State) (v : Dword) : (s.setCr3 v).tr = s.tr := rfl
@[simp] theorem State.setCr3_dr0 (s : State) (v : Dword) : (s.setCr3 v).dr0 = s.dr0 := rfl
@[simp] theorem State.setCr3_dr1 (s : State) (v : Dword) : (s.setCr3 v).dr1 = s.dr1 := rfl
@[simp] theorem State.setCr3_dr2 (s : State) (v : Dword) : (s.setCr3 v).dr2 = s.dr2 := rfl
@[simp] theorem State.setCr3_dr3 (s : State) (v : Dword) : (s.setCr3 v).dr3 = s.dr3 := rfl
@[simp] theorem State.setCr3_dr6 (s : State) (v : Dword) : (s.setCr3 v).dr6 = s.dr6 := rfl
@[simp] theorem State.setCr3_dr7 (s : State) (v : Dword) : (s.setCr3 v).dr7 = s.dr7 := rfl
@[simp] theorem State.setCr3_tr6 (s : State) (v : Dword) : (s.setCr3 v).tr6 = s.tr6 := rfl
@[simp] theorem State.setCr3_tr7 (s : State) (v : Dword) : (s.setCr3 v).tr7 = s.tr7 := rfl
@[simp] theorem State.setCr3_cpl (s : State) (v : Dword) : (s.setCr3 v).cpl = s.cpl := rfl
@[simp] theorem State.setCr3_nmiPending (s : State) (v : Dword) : (s.setCr3 v).nmiPending = s.nmiPending := rfl
@[simp] theorem State.setCr3_nmiInService (s : State) (v : Dword) : (s.setCr3 v).nmiInService = s.nmiInService := rfl
@[simp] theorem State.setCr3_shadow (s : State) (v : Dword) : (s.setCr3 v).shadow = s.shadow := rfl
@[simp] theorem State.setCr3_runState (s : State) (v : Dword) : (s.setCr3 v).runState = s.runState := rfl
@[simp] theorem State.setCr3_copOpcode (s : State) (v : Dword) : (s.setCr3 v).copOpcode = s.copOpcode := rfl
@[simp] theorem State.setCr3_copOperand (s : State) (v : Dword) : (s.setCr3 v).copOperand = s.copOperand := rfl
@[simp] theorem State.setCr3_tlb (s : State) (v : Dword) : (s.setCr3 v).tlb = [] := rfl
@[simp] theorem State.setCr3_stale (s : State) (v : Dword) : (s.setCr3 v).stale = s.stale := rfl
@[simp] theorem State.setCr3_queued (s : State) (v : Dword) : (s.setCr3 v).queued = s.queued := rfl
@[simp] theorem State.setCr3_mem (s : State) (v : Dword) : (s.setCr3 v).mem = s.mem := rfl
@[simp] theorem State.setCr3_ioInputs (s : State) (v : Dword) : (s.setCr3 v).ioInputs = s.ioInputs := rfl
@[simp] theorem State.setCr3_bus (s : State) (v : Dword) : (s.setCr3 v).bus = s.bus := rfl
@[simp] theorem State.setCr3_deviceBus (s : State) (v : Dword) : (s.setCr3 v).deviceBus = s.deviceBus := rfl
@[simp] theorem State.setCr3_pins (s : State) (v : Dword) : (s.setCr3 v).pins = s.pins := rfl
@[simp] theorem State.setCr3_copRequest (s : State) (v : Dword) : (s.setCr3 v).copRequest = s.copRequest := rfl
@[simp] theorem State.setCr3_instrEip (s : State) (v : Dword) : (s.setCr3 v).instrEip = s.instrEip := rfl
@[simp] theorem State.setCr3_eipOver (s : State) (v : Dword) : (s.setCr3 v).eipOver = s.eipOver := rfl
@[simp] theorem State.setCr3_pfx (s : State) (v : Dword) : (s.setCr3 v).pfx = s.pfx := rfl
@[simp] theorem State.setCr3_pendingDb (s : State) (v : Dword) : (s.setCr3 v).pendingDb = s.pendingDb := rfl
@[simp] theorem State.setCr3_draws (s : State) (v : Dword) : (s.setCr3 v).draws = s.draws := rfl
@[simp] theorem State.setCr3_params (s : State) (v : Dword) : (s.setCr3 v).params = s.params := rfl

/-! enterShutdown -/

@[simp] theorem State.enterShutdown_regs (s : State) : (s.enterShutdown).regs = s.regs := rfl
@[simp] theorem State.enterShutdown_eip (s : State) : (s.enterShutdown).eip = s.eip := rfl
@[simp] theorem State.enterShutdown_eflags (s : State) : (s.enterShutdown).eflags = s.eflags := rfl
@[simp] theorem State.enterShutdown_es (s : State) : (s.enterShutdown).es = s.es := rfl
@[simp] theorem State.enterShutdown_cs (s : State) : (s.enterShutdown).cs = s.cs := rfl
@[simp] theorem State.enterShutdown_ss (s : State) : (s.enterShutdown).ss = s.ss := rfl
@[simp] theorem State.enterShutdown_ds (s : State) : (s.enterShutdown).ds = s.ds := rfl
@[simp] theorem State.enterShutdown_fs (s : State) : (s.enterShutdown).fs = s.fs := rfl
@[simp] theorem State.enterShutdown_gs (s : State) : (s.enterShutdown).gs = s.gs := rfl
@[simp] theorem State.enterShutdown_cr0 (s : State) : (s.enterShutdown).cr0 = s.cr0 := rfl
@[simp] theorem State.enterShutdown_cr2 (s : State) : (s.enterShutdown).cr2 = s.cr2 := rfl
@[simp] theorem State.enterShutdown_cr3 (s : State) : (s.enterShutdown).cr3 = s.cr3 := rfl
@[simp] theorem State.enterShutdown_gdtr (s : State) : (s.enterShutdown).gdtr = s.gdtr := rfl
@[simp] theorem State.enterShutdown_idtr (s : State) : (s.enterShutdown).idtr = s.idtr := rfl
@[simp] theorem State.enterShutdown_ldtr (s : State) : (s.enterShutdown).ldtr = s.ldtr := rfl
@[simp] theorem State.enterShutdown_tr (s : State) : (s.enterShutdown).tr = s.tr := rfl
@[simp] theorem State.enterShutdown_dr0 (s : State) : (s.enterShutdown).dr0 = s.dr0 := rfl
@[simp] theorem State.enterShutdown_dr1 (s : State) : (s.enterShutdown).dr1 = s.dr1 := rfl
@[simp] theorem State.enterShutdown_dr2 (s : State) : (s.enterShutdown).dr2 = s.dr2 := rfl
@[simp] theorem State.enterShutdown_dr3 (s : State) : (s.enterShutdown).dr3 = s.dr3 := rfl
@[simp] theorem State.enterShutdown_dr6 (s : State) : (s.enterShutdown).dr6 = s.dr6 := rfl
@[simp] theorem State.enterShutdown_dr7 (s : State) : (s.enterShutdown).dr7 = s.dr7 := rfl
@[simp] theorem State.enterShutdown_tr6 (s : State) : (s.enterShutdown).tr6 = s.tr6 := rfl
@[simp] theorem State.enterShutdown_tr7 (s : State) : (s.enterShutdown).tr7 = s.tr7 := rfl
@[simp] theorem State.enterShutdown_cpl (s : State) : (s.enterShutdown).cpl = s.cpl := rfl
@[simp] theorem State.enterShutdown_nmiPending (s : State) : (s.enterShutdown).nmiPending = s.nmiPending := rfl
@[simp] theorem State.enterShutdown_nmiInService (s : State) : (s.enterShutdown).nmiInService = s.nmiInService := rfl
@[simp] theorem State.enterShutdown_shadow (s : State) : (s.enterShutdown).shadow = .none := rfl
@[simp] theorem State.enterShutdown_runState (s : State) : (s.enterShutdown).runState = .shutdown := rfl
@[simp] theorem State.enterShutdown_copOpcode (s : State) : (s.enterShutdown).copOpcode = s.copOpcode := rfl
@[simp] theorem State.enterShutdown_copOperand (s : State) : (s.enterShutdown).copOperand = s.copOperand := rfl
@[simp] theorem State.enterShutdown_tlb (s : State) : (s.enterShutdown).tlb = s.tlb := rfl
@[simp] theorem State.enterShutdown_stale (s : State) : (s.enterShutdown).stale = s.stale := rfl
@[simp] theorem State.enterShutdown_queued (s : State) : (s.enterShutdown).queued = s.queued := rfl
@[simp] theorem State.enterShutdown_mem (s : State) : (s.enterShutdown).mem = s.mem := rfl
@[simp] theorem State.enterShutdown_ioInputs (s : State) : (s.enterShutdown).ioInputs = s.ioInputs := rfl
@[simp] theorem State.enterShutdown_bus (s : State) : (s.enterShutdown).bus = .shutdown :: s.bus := rfl
@[simp] theorem State.enterShutdown_deviceBus (s : State) : (s.enterShutdown).deviceBus = s.deviceBus := rfl
@[simp] theorem State.enterShutdown_pins (s : State) : (s.enterShutdown).pins = s.pins := rfl
@[simp] theorem State.enterShutdown_copRequest (s : State) : (s.enterShutdown).copRequest = s.copRequest := rfl
@[simp] theorem State.enterShutdown_instrEip (s : State) : (s.enterShutdown).instrEip = s.instrEip := rfl
@[simp] theorem State.enterShutdown_eipOver (s : State) : (s.enterShutdown).eipOver = s.eipOver := rfl
@[simp] theorem State.enterShutdown_pfx (s : State) : (s.enterShutdown).pfx = Prefixes.none := rfl
@[simp] theorem State.enterShutdown_pendingDb (s : State) : (s.enterShutdown).pendingDb = s.pendingDb := rfl
@[simp] theorem State.enterShutdown_draws (s : State) : (s.enterShutdown).draws = s.draws := rfl
@[simp] theorem State.enterShutdown_params (s : State) : (s.enterShutdown).params = s.params := rfl

/-! handlerEntered -/

@[simp] theorem State.handlerEntered_regs (s : State) : (s.handlerEntered).regs = s.regs := rfl
@[simp] theorem State.handlerEntered_eip (s : State) : (s.handlerEntered).eip = s.eip := rfl
@[simp] theorem State.handlerEntered_eflags (s : State) : (s.handlerEntered).eflags = s.eflags := rfl
@[simp] theorem State.handlerEntered_es (s : State) : (s.handlerEntered).es = s.es := rfl
@[simp] theorem State.handlerEntered_cs (s : State) : (s.handlerEntered).cs = s.cs := rfl
@[simp] theorem State.handlerEntered_ss (s : State) : (s.handlerEntered).ss = s.ss := rfl
@[simp] theorem State.handlerEntered_ds (s : State) : (s.handlerEntered).ds = s.ds := rfl
@[simp] theorem State.handlerEntered_fs (s : State) : (s.handlerEntered).fs = s.fs := rfl
@[simp] theorem State.handlerEntered_gs (s : State) : (s.handlerEntered).gs = s.gs := rfl
@[simp] theorem State.handlerEntered_cr0 (s : State) : (s.handlerEntered).cr0 = s.cr0 := rfl
@[simp] theorem State.handlerEntered_cr2 (s : State) : (s.handlerEntered).cr2 = s.cr2 := rfl
@[simp] theorem State.handlerEntered_cr3 (s : State) : (s.handlerEntered).cr3 = s.cr3 := rfl
@[simp] theorem State.handlerEntered_gdtr (s : State) : (s.handlerEntered).gdtr = s.gdtr := rfl
@[simp] theorem State.handlerEntered_idtr (s : State) : (s.handlerEntered).idtr = s.idtr := rfl
@[simp] theorem State.handlerEntered_ldtr (s : State) : (s.handlerEntered).ldtr = s.ldtr := rfl
@[simp] theorem State.handlerEntered_tr (s : State) : (s.handlerEntered).tr = s.tr := rfl
@[simp] theorem State.handlerEntered_dr0 (s : State) : (s.handlerEntered).dr0 = s.dr0 := rfl
@[simp] theorem State.handlerEntered_dr1 (s : State) : (s.handlerEntered).dr1 = s.dr1 := rfl
@[simp] theorem State.handlerEntered_dr2 (s : State) : (s.handlerEntered).dr2 = s.dr2 := rfl
@[simp] theorem State.handlerEntered_dr3 (s : State) : (s.handlerEntered).dr3 = s.dr3 := rfl
@[simp] theorem State.handlerEntered_dr6 (s : State) : (s.handlerEntered).dr6 = s.dr6 := rfl
@[simp] theorem State.handlerEntered_dr7 (s : State) : (s.handlerEntered).dr7 = s.dr7 := rfl
@[simp] theorem State.handlerEntered_tr6 (s : State) : (s.handlerEntered).tr6 = s.tr6 := rfl
@[simp] theorem State.handlerEntered_tr7 (s : State) : (s.handlerEntered).tr7 = s.tr7 := rfl
@[simp] theorem State.handlerEntered_cpl (s : State) : (s.handlerEntered).cpl = s.cpl := rfl
@[simp] theorem State.handlerEntered_nmiPending (s : State) : (s.handlerEntered).nmiPending = s.nmiPending := rfl
@[simp] theorem State.handlerEntered_nmiInService (s : State) : (s.handlerEntered).nmiInService = s.nmiInService := rfl
@[simp] theorem State.handlerEntered_shadow (s : State) : (s.handlerEntered).shadow = .none := rfl
@[simp] theorem State.handlerEntered_runState (s : State) : (s.handlerEntered).runState = .running := rfl
@[simp] theorem State.handlerEntered_copOpcode (s : State) : (s.handlerEntered).copOpcode = s.copOpcode := rfl
@[simp] theorem State.handlerEntered_copOperand (s : State) : (s.handlerEntered).copOperand = s.copOperand := rfl
@[simp] theorem State.handlerEntered_tlb (s : State) : (s.handlerEntered).tlb = s.tlb := rfl
@[simp] theorem State.handlerEntered_stale (s : State) : (s.handlerEntered).stale = s.stale := rfl
@[simp] theorem State.handlerEntered_queued (s : State) : (s.handlerEntered).queued = s.queued := rfl
@[simp] theorem State.handlerEntered_mem (s : State) : (s.handlerEntered).mem = s.mem := rfl
@[simp] theorem State.handlerEntered_ioInputs (s : State) : (s.handlerEntered).ioInputs = s.ioInputs := rfl
@[simp] theorem State.handlerEntered_bus (s : State) : (s.handlerEntered).bus = s.bus := rfl
@[simp] theorem State.handlerEntered_deviceBus (s : State) : (s.handlerEntered).deviceBus = s.deviceBus := rfl
@[simp] theorem State.handlerEntered_pins (s : State) : (s.handlerEntered).pins = s.pins := rfl
@[simp] theorem State.handlerEntered_copRequest (s : State) : (s.handlerEntered).copRequest = s.copRequest := rfl
@[simp] theorem State.handlerEntered_instrEip (s : State) : (s.handlerEntered).instrEip = s.instrEip := rfl
@[simp] theorem State.handlerEntered_eipOver (s : State) : (s.handlerEntered).eipOver = s.eipOver := rfl
@[simp] theorem State.handlerEntered_pfx (s : State) : (s.handlerEntered).pfx = Prefixes.none := rfl
@[simp] theorem State.handlerEntered_pendingDb (s : State) : (s.handlerEntered).pendingDb = s.pendingDb := rfl
@[simp] theorem State.handlerEntered_draws (s : State) : (s.handlerEntered).draws = s.draws := rfl
@[simp] theorem State.handlerEntered_params (s : State) : (s.handlerEntered).params = s.params := rfl

/-! logged -/

@[simp] theorem State.logged_regs (s : State) (cs : List BusCycle) : (s.logged cs).regs = s.regs := rfl
@[simp] theorem State.logged_eip (s : State) (cs : List BusCycle) : (s.logged cs).eip = s.eip := rfl
@[simp] theorem State.logged_eflags (s : State) (cs : List BusCycle) : (s.logged cs).eflags = s.eflags := rfl
@[simp] theorem State.logged_es (s : State) (cs : List BusCycle) : (s.logged cs).es = s.es := rfl
@[simp] theorem State.logged_cs (s : State) (cs : List BusCycle) : (s.logged cs).cs = s.cs := rfl
@[simp] theorem State.logged_ss (s : State) (cs : List BusCycle) : (s.logged cs).ss = s.ss := rfl
@[simp] theorem State.logged_ds (s : State) (cs : List BusCycle) : (s.logged cs).ds = s.ds := rfl
@[simp] theorem State.logged_fs (s : State) (cs : List BusCycle) : (s.logged cs).fs = s.fs := rfl
@[simp] theorem State.logged_gs (s : State) (cs : List BusCycle) : (s.logged cs).gs = s.gs := rfl
@[simp] theorem State.logged_cr0 (s : State) (cs : List BusCycle) : (s.logged cs).cr0 = s.cr0 := rfl
@[simp] theorem State.logged_cr2 (s : State) (cs : List BusCycle) : (s.logged cs).cr2 = s.cr2 := rfl
@[simp] theorem State.logged_cr3 (s : State) (cs : List BusCycle) : (s.logged cs).cr3 = s.cr3 := rfl
@[simp] theorem State.logged_gdtr (s : State) (cs : List BusCycle) : (s.logged cs).gdtr = s.gdtr := rfl
@[simp] theorem State.logged_idtr (s : State) (cs : List BusCycle) : (s.logged cs).idtr = s.idtr := rfl
@[simp] theorem State.logged_ldtr (s : State) (cs : List BusCycle) : (s.logged cs).ldtr = s.ldtr := rfl
@[simp] theorem State.logged_tr (s : State) (cs : List BusCycle) : (s.logged cs).tr = s.tr := rfl
@[simp] theorem State.logged_dr0 (s : State) (cs : List BusCycle) : (s.logged cs).dr0 = s.dr0 := rfl
@[simp] theorem State.logged_dr1 (s : State) (cs : List BusCycle) : (s.logged cs).dr1 = s.dr1 := rfl
@[simp] theorem State.logged_dr2 (s : State) (cs : List BusCycle) : (s.logged cs).dr2 = s.dr2 := rfl
@[simp] theorem State.logged_dr3 (s : State) (cs : List BusCycle) : (s.logged cs).dr3 = s.dr3 := rfl
@[simp] theorem State.logged_dr6 (s : State) (cs : List BusCycle) : (s.logged cs).dr6 = s.dr6 := rfl
@[simp] theorem State.logged_dr7 (s : State) (cs : List BusCycle) : (s.logged cs).dr7 = s.dr7 := rfl
@[simp] theorem State.logged_tr6 (s : State) (cs : List BusCycle) : (s.logged cs).tr6 = s.tr6 := rfl
@[simp] theorem State.logged_tr7 (s : State) (cs : List BusCycle) : (s.logged cs).tr7 = s.tr7 := rfl
@[simp] theorem State.logged_cpl (s : State) (cs : List BusCycle) : (s.logged cs).cpl = s.cpl := rfl
@[simp] theorem State.logged_nmiPending (s : State) (cs : List BusCycle) : (s.logged cs).nmiPending = s.nmiPending := rfl
@[simp] theorem State.logged_nmiInService (s : State) (cs : List BusCycle) : (s.logged cs).nmiInService = s.nmiInService := rfl
@[simp] theorem State.logged_shadow (s : State) (cs : List BusCycle) : (s.logged cs).shadow = s.shadow := rfl
@[simp] theorem State.logged_runState (s : State) (cs : List BusCycle) : (s.logged cs).runState = s.runState := rfl
@[simp] theorem State.logged_copOpcode (s : State) (cs : List BusCycle) : (s.logged cs).copOpcode = s.copOpcode := rfl
@[simp] theorem State.logged_copOperand (s : State) (cs : List BusCycle) : (s.logged cs).copOperand = s.copOperand := rfl
@[simp] theorem State.logged_tlb (s : State) (cs : List BusCycle) : (s.logged cs).tlb = s.tlb := rfl
@[simp] theorem State.logged_stale (s : State) (cs : List BusCycle) : (s.logged cs).stale = s.stale := rfl
@[simp] theorem State.logged_queued (s : State) (cs : List BusCycle) : (s.logged cs).queued = s.queued := rfl
@[simp] theorem State.logged_mem (s : State) (cs : List BusCycle) : (s.logged cs).mem = s.mem := rfl
@[simp] theorem State.logged_ioInputs (s : State) (cs : List BusCycle) : (s.logged cs).ioInputs = s.ioInputs := rfl
@[simp] theorem State.logged_bus (s : State) (cs : List BusCycle) : (s.logged cs).bus = cs.reverse ++ s.bus := rfl
@[simp] theorem State.logged_deviceBus (s : State) (cs : List BusCycle) : (s.logged cs).deviceBus = s.deviceBus := rfl
@[simp] theorem State.logged_pins (s : State) (cs : List BusCycle) : (s.logged cs).pins = s.pins := rfl
@[simp] theorem State.logged_copRequest (s : State) (cs : List BusCycle) : (s.logged cs).copRequest = s.copRequest := rfl
@[simp] theorem State.logged_instrEip (s : State) (cs : List BusCycle) : (s.logged cs).instrEip = s.instrEip := rfl
@[simp] theorem State.logged_eipOver (s : State) (cs : List BusCycle) : (s.logged cs).eipOver = s.eipOver := rfl
@[simp] theorem State.logged_pfx (s : State) (cs : List BusCycle) : (s.logged cs).pfx = s.pfx := rfl
@[simp] theorem State.logged_pendingDb (s : State) (cs : List BusCycle) : (s.logged cs).pendingDb = s.pendingDb := rfl
@[simp] theorem State.logged_draws (s : State) (cs : List BusCycle) : (s.logged cs).draws = s.draws := rfl
@[simp] theorem State.logged_params (s : State) (cs : List BusCycle) : (s.logged cs).params = s.params := rfl

/-! startEsc -/

@[simp] theorem State.startEsc_regs (s : State) (op : Word) (l : Loc) : (s.startEsc op l).regs = s.regs := rfl
@[simp] theorem State.startEsc_eip (s : State) (op : Word) (l : Loc) : (s.startEsc op l).eip = s.eip := rfl
@[simp] theorem State.startEsc_eflags (s : State) (op : Word) (l : Loc) : (s.startEsc op l).eflags = s.eflags := rfl
@[simp] theorem State.startEsc_es (s : State) (op : Word) (l : Loc) : (s.startEsc op l).es = s.es := rfl
@[simp] theorem State.startEsc_cs (s : State) (op : Word) (l : Loc) : (s.startEsc op l).cs = s.cs := rfl
@[simp] theorem State.startEsc_ss (s : State) (op : Word) (l : Loc) : (s.startEsc op l).ss = s.ss := rfl
@[simp] theorem State.startEsc_ds (s : State) (op : Word) (l : Loc) : (s.startEsc op l).ds = s.ds := rfl
@[simp] theorem State.startEsc_fs (s : State) (op : Word) (l : Loc) : (s.startEsc op l).fs = s.fs := rfl
@[simp] theorem State.startEsc_gs (s : State) (op : Word) (l : Loc) : (s.startEsc op l).gs = s.gs := rfl
@[simp] theorem State.startEsc_cr0 (s : State) (op : Word) (l : Loc) : (s.startEsc op l).cr0 = s.cr0 := rfl
@[simp] theorem State.startEsc_cr2 (s : State) (op : Word) (l : Loc) : (s.startEsc op l).cr2 = s.cr2 := rfl
@[simp] theorem State.startEsc_cr3 (s : State) (op : Word) (l : Loc) : (s.startEsc op l).cr3 = s.cr3 := rfl
@[simp] theorem State.startEsc_gdtr (s : State) (op : Word) (l : Loc) : (s.startEsc op l).gdtr = s.gdtr := rfl
@[simp] theorem State.startEsc_idtr (s : State) (op : Word) (l : Loc) : (s.startEsc op l).idtr = s.idtr := rfl
@[simp] theorem State.startEsc_ldtr (s : State) (op : Word) (l : Loc) : (s.startEsc op l).ldtr = s.ldtr := rfl
@[simp] theorem State.startEsc_tr (s : State) (op : Word) (l : Loc) : (s.startEsc op l).tr = s.tr := rfl
@[simp] theorem State.startEsc_dr0 (s : State) (op : Word) (l : Loc) : (s.startEsc op l).dr0 = s.dr0 := rfl
@[simp] theorem State.startEsc_dr1 (s : State) (op : Word) (l : Loc) : (s.startEsc op l).dr1 = s.dr1 := rfl
@[simp] theorem State.startEsc_dr2 (s : State) (op : Word) (l : Loc) : (s.startEsc op l).dr2 = s.dr2 := rfl
@[simp] theorem State.startEsc_dr3 (s : State) (op : Word) (l : Loc) : (s.startEsc op l).dr3 = s.dr3 := rfl
@[simp] theorem State.startEsc_dr6 (s : State) (op : Word) (l : Loc) : (s.startEsc op l).dr6 = s.dr6 := rfl
@[simp] theorem State.startEsc_dr7 (s : State) (op : Word) (l : Loc) : (s.startEsc op l).dr7 = s.dr7 := rfl
@[simp] theorem State.startEsc_tr6 (s : State) (op : Word) (l : Loc) : (s.startEsc op l).tr6 = s.tr6 := rfl
@[simp] theorem State.startEsc_tr7 (s : State) (op : Word) (l : Loc) : (s.startEsc op l).tr7 = s.tr7 := rfl
@[simp] theorem State.startEsc_cpl (s : State) (op : Word) (l : Loc) : (s.startEsc op l).cpl = s.cpl := rfl
@[simp] theorem State.startEsc_nmiPending (s : State) (op : Word) (l : Loc) : (s.startEsc op l).nmiPending = s.nmiPending := rfl
@[simp] theorem State.startEsc_nmiInService (s : State) (op : Word) (l : Loc) : (s.startEsc op l).nmiInService = s.nmiInService := rfl
@[simp] theorem State.startEsc_shadow (s : State) (op : Word) (l : Loc) : (s.startEsc op l).shadow = s.shadow := rfl
@[simp] theorem State.startEsc_runState (s : State) (op : Word) (l : Loc) : (s.startEsc op l).runState = s.runState := rfl
@[simp] theorem State.startEsc_copOpcode (s : State) (op : Word) (l : Loc) : (s.startEsc op l).copOpcode = op := rfl
@[simp] theorem State.startEsc_copOperand (s : State) (op : Word) (l : Loc) : (s.startEsc op l).copOperand = s.heldOperand l := rfl
@[simp] theorem State.startEsc_tlb (s : State) (op : Word) (l : Loc) : (s.startEsc op l).tlb = s.tlb := rfl
@[simp] theorem State.startEsc_stale (s : State) (op : Word) (l : Loc) : (s.startEsc op l).stale = s.stale := rfl
@[simp] theorem State.startEsc_queued (s : State) (op : Word) (l : Loc) : (s.startEsc op l).queued = s.queued := rfl
@[simp] theorem State.startEsc_mem (s : State) (op : Word) (l : Loc) : (s.startEsc op l).mem = s.mem := rfl
@[simp] theorem State.startEsc_ioInputs (s : State) (op : Word) (l : Loc) : (s.startEsc op l).ioInputs = s.ioInputs := rfl
@[simp] theorem State.startEsc_bus (s : State) (op : Word) (l : Loc) : (s.startEsc op l).bus = .coprocessorOpcode op s.cr0.et :: s.bus := rfl
@[simp] theorem State.startEsc_deviceBus (s : State) (op : Word) (l : Loc) : (s.startEsc op l).deviceBus = s.deviceBus := rfl
@[simp] theorem State.startEsc_pins (s : State) (op : Word) (l : Loc) : (s.startEsc op l).pins = s.pins := rfl
@[simp] theorem State.startEsc_copRequest (s : State) (op : Word) (l : Loc) : (s.startEsc op l).copRequest = s.copRequest := rfl
@[simp] theorem State.startEsc_instrEip (s : State) (op : Word) (l : Loc) : (s.startEsc op l).instrEip = s.instrEip := rfl
@[simp] theorem State.startEsc_eipOver (s : State) (op : Word) (l : Loc) : (s.startEsc op l).eipOver = s.eipOver := rfl
@[simp] theorem State.startEsc_pfx (s : State) (op : Word) (l : Loc) : (s.startEsc op l).pfx = s.pfx := rfl
@[simp] theorem State.startEsc_pendingDb (s : State) (op : Word) (l : Loc) : (s.startEsc op l).pendingDb = s.pendingDb := rfl
@[simp] theorem State.startEsc_draws (s : State) (op : Word) (l : Loc) : (s.startEsc op l).draws = s.draws := rfl
@[simp] theorem State.startEsc_params (s : State) (op : Word) (l : Loc) : (s.startEsc op l).params = s.params := rfl

/-! copMoved -/

@[simp] theorem State.copMoved_regs (s : State) (o : CopOperand) (k : Nat) : (s.copMoved o k).regs = s.regs := rfl
@[simp] theorem State.copMoved_eip (s : State) (o : CopOperand) (k : Nat) : (s.copMoved o k).eip = s.eip := rfl
@[simp] theorem State.copMoved_eflags (s : State) (o : CopOperand) (k : Nat) : (s.copMoved o k).eflags = s.eflags := rfl
@[simp] theorem State.copMoved_es (s : State) (o : CopOperand) (k : Nat) : (s.copMoved o k).es = s.es := rfl
@[simp] theorem State.copMoved_cs (s : State) (o : CopOperand) (k : Nat) : (s.copMoved o k).cs = s.cs := rfl
@[simp] theorem State.copMoved_ss (s : State) (o : CopOperand) (k : Nat) : (s.copMoved o k).ss = s.ss := rfl
@[simp] theorem State.copMoved_ds (s : State) (o : CopOperand) (k : Nat) : (s.copMoved o k).ds = s.ds := rfl
@[simp] theorem State.copMoved_fs (s : State) (o : CopOperand) (k : Nat) : (s.copMoved o k).fs = s.fs := rfl
@[simp] theorem State.copMoved_gs (s : State) (o : CopOperand) (k : Nat) : (s.copMoved o k).gs = s.gs := rfl
@[simp] theorem State.copMoved_cr0 (s : State) (o : CopOperand) (k : Nat) : (s.copMoved o k).cr0 = s.cr0 := rfl
@[simp] theorem State.copMoved_cr2 (s : State) (o : CopOperand) (k : Nat) : (s.copMoved o k).cr2 = s.cr2 := rfl
@[simp] theorem State.copMoved_cr3 (s : State) (o : CopOperand) (k : Nat) : (s.copMoved o k).cr3 = s.cr3 := rfl
@[simp] theorem State.copMoved_gdtr (s : State) (o : CopOperand) (k : Nat) : (s.copMoved o k).gdtr = s.gdtr := rfl
@[simp] theorem State.copMoved_idtr (s : State) (o : CopOperand) (k : Nat) : (s.copMoved o k).idtr = s.idtr := rfl
@[simp] theorem State.copMoved_ldtr (s : State) (o : CopOperand) (k : Nat) : (s.copMoved o k).ldtr = s.ldtr := rfl
@[simp] theorem State.copMoved_tr (s : State) (o : CopOperand) (k : Nat) : (s.copMoved o k).tr = s.tr := rfl
@[simp] theorem State.copMoved_dr0 (s : State) (o : CopOperand) (k : Nat) : (s.copMoved o k).dr0 = s.dr0 := rfl
@[simp] theorem State.copMoved_dr1 (s : State) (o : CopOperand) (k : Nat) : (s.copMoved o k).dr1 = s.dr1 := rfl
@[simp] theorem State.copMoved_dr2 (s : State) (o : CopOperand) (k : Nat) : (s.copMoved o k).dr2 = s.dr2 := rfl
@[simp] theorem State.copMoved_dr3 (s : State) (o : CopOperand) (k : Nat) : (s.copMoved o k).dr3 = s.dr3 := rfl
@[simp] theorem State.copMoved_dr6 (s : State) (o : CopOperand) (k : Nat) : (s.copMoved o k).dr6 = s.dr6 := rfl
@[simp] theorem State.copMoved_dr7 (s : State) (o : CopOperand) (k : Nat) : (s.copMoved o k).dr7 = s.dr7 := rfl
@[simp] theorem State.copMoved_tr6 (s : State) (o : CopOperand) (k : Nat) : (s.copMoved o k).tr6 = s.tr6 := rfl
@[simp] theorem State.copMoved_tr7 (s : State) (o : CopOperand) (k : Nat) : (s.copMoved o k).tr7 = s.tr7 := rfl
@[simp] theorem State.copMoved_cpl (s : State) (o : CopOperand) (k : Nat) : (s.copMoved o k).cpl = s.cpl := rfl
@[simp] theorem State.copMoved_nmiPending (s : State) (o : CopOperand) (k : Nat) : (s.copMoved o k).nmiPending = s.nmiPending := rfl
@[simp] theorem State.copMoved_nmiInService (s : State) (o : CopOperand) (k : Nat) : (s.copMoved o k).nmiInService = s.nmiInService := rfl
@[simp] theorem State.copMoved_shadow (s : State) (o : CopOperand) (k : Nat) : (s.copMoved o k).shadow = s.shadow := rfl
@[simp] theorem State.copMoved_runState (s : State) (o : CopOperand) (k : Nat) : (s.copMoved o k).runState = s.runState := rfl
@[simp] theorem State.copMoved_copOpcode (s : State) (o : CopOperand) (k : Nat) : (s.copMoved o k).copOpcode = s.copOpcode := rfl
@[simp] theorem State.copMoved_copOperand (s : State) (o : CopOperand) (k : Nat) : (s.copMoved o k).copOperand = some { o with moved := k } := rfl
@[simp] theorem State.copMoved_tlb (s : State) (o : CopOperand) (k : Nat) : (s.copMoved o k).tlb = s.tlb := rfl
@[simp] theorem State.copMoved_stale (s : State) (o : CopOperand) (k : Nat) : (s.copMoved o k).stale = s.stale := rfl
@[simp] theorem State.copMoved_queued (s : State) (o : CopOperand) (k : Nat) : (s.copMoved o k).queued = s.queued := rfl
@[simp] theorem State.copMoved_mem (s : State) (o : CopOperand) (k : Nat) : (s.copMoved o k).mem = s.mem := rfl
@[simp] theorem State.copMoved_ioInputs (s : State) (o : CopOperand) (k : Nat) : (s.copMoved o k).ioInputs = s.ioInputs := rfl
@[simp] theorem State.copMoved_bus (s : State) (o : CopOperand) (k : Nat) : (s.copMoved o k).bus = s.bus := rfl
@[simp] theorem State.copMoved_deviceBus (s : State) (o : CopOperand) (k : Nat) : (s.copMoved o k).deviceBus = s.deviceBus := rfl
@[simp] theorem State.copMoved_pins (s : State) (o : CopOperand) (k : Nat) : (s.copMoved o k).pins = s.pins := rfl
@[simp] theorem State.copMoved_copRequest (s : State) (o : CopOperand) (k : Nat) : (s.copMoved o k).copRequest = s.copRequest := rfl
@[simp] theorem State.copMoved_instrEip (s : State) (o : CopOperand) (k : Nat) : (s.copMoved o k).instrEip = s.instrEip := rfl
@[simp] theorem State.copMoved_eipOver (s : State) (o : CopOperand) (k : Nat) : (s.copMoved o k).eipOver = s.eipOver := rfl
@[simp] theorem State.copMoved_pfx (s : State) (o : CopOperand) (k : Nat) : (s.copMoved o k).pfx = s.pfx := rfl
@[simp] theorem State.copMoved_pendingDb (s : State) (o : CopOperand) (k : Nat) : (s.copMoved o k).pendingDb = s.pendingDb := rfl
@[simp] theorem State.copMoved_draws (s : State) (o : CopOperand) (k : Nat) : (s.copMoved o k).draws = s.draws := rfl
@[simp] theorem State.copMoved_params (s : State) (o : CopOperand) (k : Nat) : (s.copMoved o k).params = s.params := rfl

/-! endTransfers -/

@[simp] theorem State.endTransfers_regs (s : State) : (s.endTransfers).regs = s.regs := rfl
@[simp] theorem State.endTransfers_eip (s : State) : (s.endTransfers).eip = s.eip := rfl
@[simp] theorem State.endTransfers_eflags (s : State) : (s.endTransfers).eflags = s.eflags := rfl
@[simp] theorem State.endTransfers_es (s : State) : (s.endTransfers).es = s.es := rfl
@[simp] theorem State.endTransfers_cs (s : State) : (s.endTransfers).cs = s.cs := rfl
@[simp] theorem State.endTransfers_ss (s : State) : (s.endTransfers).ss = s.ss := rfl
@[simp] theorem State.endTransfers_ds (s : State) : (s.endTransfers).ds = s.ds := rfl
@[simp] theorem State.endTransfers_fs (s : State) : (s.endTransfers).fs = s.fs := rfl
@[simp] theorem State.endTransfers_gs (s : State) : (s.endTransfers).gs = s.gs := rfl
@[simp] theorem State.endTransfers_cr0 (s : State) : (s.endTransfers).cr0 = s.cr0 := rfl
@[simp] theorem State.endTransfers_cr2 (s : State) : (s.endTransfers).cr2 = s.cr2 := rfl
@[simp] theorem State.endTransfers_cr3 (s : State) : (s.endTransfers).cr3 = s.cr3 := rfl
@[simp] theorem State.endTransfers_gdtr (s : State) : (s.endTransfers).gdtr = s.gdtr := rfl
@[simp] theorem State.endTransfers_idtr (s : State) : (s.endTransfers).idtr = s.idtr := rfl
@[simp] theorem State.endTransfers_ldtr (s : State) : (s.endTransfers).ldtr = s.ldtr := rfl
@[simp] theorem State.endTransfers_tr (s : State) : (s.endTransfers).tr = s.tr := rfl
@[simp] theorem State.endTransfers_dr0 (s : State) : (s.endTransfers).dr0 = s.dr0 := rfl
@[simp] theorem State.endTransfers_dr1 (s : State) : (s.endTransfers).dr1 = s.dr1 := rfl
@[simp] theorem State.endTransfers_dr2 (s : State) : (s.endTransfers).dr2 = s.dr2 := rfl
@[simp] theorem State.endTransfers_dr3 (s : State) : (s.endTransfers).dr3 = s.dr3 := rfl
@[simp] theorem State.endTransfers_dr6 (s : State) : (s.endTransfers).dr6 = s.dr6 := rfl
@[simp] theorem State.endTransfers_dr7 (s : State) : (s.endTransfers).dr7 = s.dr7 := rfl
@[simp] theorem State.endTransfers_tr6 (s : State) : (s.endTransfers).tr6 = s.tr6 := rfl
@[simp] theorem State.endTransfers_tr7 (s : State) : (s.endTransfers).tr7 = s.tr7 := rfl
@[simp] theorem State.endTransfers_cpl (s : State) : (s.endTransfers).cpl = s.cpl := rfl
@[simp] theorem State.endTransfers_nmiPending (s : State) : (s.endTransfers).nmiPending = s.nmiPending := rfl
@[simp] theorem State.endTransfers_nmiInService (s : State) : (s.endTransfers).nmiInService = s.nmiInService := rfl
@[simp] theorem State.endTransfers_shadow (s : State) : (s.endTransfers).shadow = s.shadow := rfl
@[simp] theorem State.endTransfers_runState (s : State) : (s.endTransfers).runState = s.runState := rfl
@[simp] theorem State.endTransfers_copOpcode (s : State) : (s.endTransfers).copOpcode = s.copOpcode := rfl
@[simp] theorem State.endTransfers_copOperand (s : State) : (s.endTransfers).copOperand = s.copOperand.map fun o => { o with live := false } := rfl
@[simp] theorem State.endTransfers_tlb (s : State) : (s.endTransfers).tlb = s.tlb := rfl
@[simp] theorem State.endTransfers_stale (s : State) : (s.endTransfers).stale = s.stale := rfl
@[simp] theorem State.endTransfers_queued (s : State) : (s.endTransfers).queued = s.queued := rfl
@[simp] theorem State.endTransfers_mem (s : State) : (s.endTransfers).mem = s.mem := rfl
@[simp] theorem State.endTransfers_ioInputs (s : State) : (s.endTransfers).ioInputs = s.ioInputs := rfl
@[simp] theorem State.endTransfers_bus (s : State) : (s.endTransfers).bus = s.bus := rfl
@[simp] theorem State.endTransfers_deviceBus (s : State) : (s.endTransfers).deviceBus = s.deviceBus := rfl
@[simp] theorem State.endTransfers_pins (s : State) : (s.endTransfers).pins = s.pins := rfl
@[simp] theorem State.endTransfers_copRequest (s : State) : (s.endTransfers).copRequest = s.copRequest := rfl
@[simp] theorem State.endTransfers_instrEip (s : State) : (s.endTransfers).instrEip = s.instrEip := rfl
@[simp] theorem State.endTransfers_eipOver (s : State) : (s.endTransfers).eipOver = s.eipOver := rfl
@[simp] theorem State.endTransfers_pfx (s : State) : (s.endTransfers).pfx = s.pfx := rfl
@[simp] theorem State.endTransfers_pendingDb (s : State) : (s.endTransfers).pendingDb = s.pendingDb := rfl
@[simp] theorem State.endTransfers_draws (s : State) : (s.endTransfers).draws = s.draws := rfl
@[simp] theorem State.endTransfers_params (s : State) : (s.endTransfers).params = s.params := rfl

/-! The state in which a fault of the model leaves the machine. -/

@[simp] theorem Fault.reached_ioPastTop (s : State) : (Fault.ioPastTop s).reached = s := rfl
@[simp] theorem Fault.reached_noReady (s : State) : (Fault.noReady s).reached = s := rfl
@[simp] theorem Fault.reached_noPereq (s : State) : (Fault.noPereq s).reached = s := rfl

end Sys2Proof.Machine
end

