-- ==== Sys2Proof/Laws/Access.lean ====
section
/-! SUPPORT. What the access primitives and the operand operations do, said once. `Quiet s t`: from `s` to `t` nothing has
changed but the model's bookkeeping and, with paging on, the A and D bits of table entries. A read that answers is quiet;
a write that answers is a quiet part followed by the store of its bytes. -/

namespace Sys2Proof.Machine

variable {α β : Type}

/-! Bytes as before. -/

theorem SameByte.refl (s : State) (p : Dword) : SameByte s s p := .inl rfl

theorem SameByte.trans {s t u : State} {p : Dword} (hpg : t.cr0.pg = s.cr0.pg) (hpar : t.params = s.params)
    (h : SameByte s t p) (k : SameByte t u p) : SameByte s u p := by
  have hf : t.isFixed p.toNat = s.isFixed p.toNat := by unfold State.isFixed; rw [hpar]
  rcases h with h | ⟨g, g1, h⟩ <;> rcases k with k | ⟨g', g1', k⟩
  · exact .inl (k.trans h)
  · exact .inr ⟨by rw [← hpg]; exact g', by rw [← hf]; exact g1', by rw [k, h]⟩
  · exact .inr ⟨g, g1, by rw [k, h]⟩
  · exact .inr ⟨g, g1, k.trans h⟩

theorem SameByte.eq {s t : State} {p : Dword} (h : SameByte s t p) (hp : s.cr0.pg = false) : t.readByte p = s.readByte p := by
  rcases h with h | ⟨g, _⟩
  · exact h
  · rw [hp] at g; cases g

/-- A byte the platform keeps. -/
theorem SameByte.fixed {s t : State} {p : Dword} (h : SameByte s t p) (hp : s.isFixed p.toNat = true) :
    t.readByte p = s.readByte p := by
  rcases h with h | ⟨_, g, _⟩
  · exact h
  · rw [hp] at g; cases g

/-- Only memory matters to it. -/
theorem SameByte.of_mem {s t s' t' : State} {p : Dword} (hs : s'.mem = s.mem) (ht : t'.mem = t.mem)
    (hpg : s'.cr0.pg = s.cr0.pg) (hpar : s'.params = s.params) (h : SameByte s t p) : SameByte s' t' p := by
  unfold SameByte State.readByte State.isFixed at *
  rw [hs, ht, hpg, hpar]; exact h

structure Quiet (s t : State) : Prop where
  regs : t.regs = s.regs
  eflags : t.eflags = s.eflags
  rest : t.putBack s = s
  pfx : t.pfx = s.pfx
  shadow : t.shadow = s.shadow
  wf : Memory.wf s.mem = true → Memory.wf t.mem = true
  bytes : Memory.wf s.mem = true → NoStore s t

/-- A field that `State.putBack` compares. -/
theorem putBack_congr {γ : Type} {s t u : State} (h : t.putBack s = u) (f : State → γ)
    (hf : ∀ a b : State, f (a.putBack b) = f a) : f t = f u := by
  rw [← h, hf]

theorem putBack_trans {s t u v : State} (h : t.putBack s = v) (k : u.putBack t = t) : u.putBack s = v := by
  rw [← h]
  have : u.putBack s = (u.putBack t).putBack s := rfl
  rw [this, k]

theorem Quiet.refl (s : State) : Quiet s s := ⟨rfl, rfl, rfl, rfl, rfl, id, fun _ p => .refl s p⟩

theorem Quiet.pg {s t : State} (h : Quiet s t) : t.cr0.pg = s.cr0.pg :=
  putBack_congr h.rest (fun s => s.cr0.pg) fun _ _ => rfl

theorem Quiet.params {s t : State} (h : Quiet s t) : t.params = s.params := putBack_congr h.rest (·.params) fun _ _ => rfl

theorem Quiet.cr0 {s t : State} (h : Quiet s t) : t.cr0 = s.cr0 := putBack_congr h.rest (·.cr0) fun _ _ => rfl

theorem Quiet.trans {s t u : State} (h : Quiet s t) (k : Quiet t u) : Quiet s u :=
  ⟨k.regs.trans h.regs, k.eflags.trans h.eflags, putBack_trans h.rest k.rest, k.pfx.trans h.pfx,
    k.shadow.trans h.shadow, fun w => k.wf (h.wf w), fun w p => (h.bytes w p).trans h.pg h.params (k.bytes (h.wf w) p)⟩

/-- An update of nothing but bookkeeping. -/
theorem Quiet.of_eq {s t : State} (h1 : t.regs = s.regs) (h2 : t.eflags = s.eflags) (h3 : t.putBack s = s)
    (h4 : t.pfx = s.pfx) (h5 : t.shadow = s.shadow) (h6 : t.mem = s.mem) : Quiet s t :=
  ⟨h1, h2, h3, h4, h5, by rw [h6]; exact id, fun _ p => .inl (by unfold State.readByte; rw [h6])⟩

theorem quiet_draws (s : State) (n : Nat) : Quiet s { s with draws := n } := .of_eq rfl rfl rfl rfl rfl rfl

/-! Table entries. -/

theorem or_or_self (x y m : Byte) (h : y &&& ~~~m = 0) : (x ||| y) ||| m = x ||| m := by
  rw [BitVec.or_assoc]
  congr 1
  apply BitVec.eq_of_getLsbD_eq
  intro i hi
  have := congrArg (fun v => v.getLsbD i) h
  simp [hi] at this
  simp
  cases hy : y.getLsbD i
  · simp
  · have := this hy
    rw [BitVec.getLsbD_eq_getElem hi]
    simp [this]

/-- The bytes of a dword made of four bytes. -/
theorem leBytes_leDword (b0 b1 b2 b3 : Byte) : leBytes 4 (leDword [b0, b1, b2, b3]) = [b0, b1, b2, b3] := by
  have e0 := b0.isLt
  have e1 := b1.isLt
  have e2 := b2.isLt
  have e3 := b3.isLt
  have hv : (leDword [b0, b1, b2, b3]).toNat = b0.toNat + 256 * (b1.toNat + 256 * (b2.toNat + 256 * b3.toNat)) := by
    simp only [leDword, leNat, BitVec.toNat_ofNat]
    omega
  simp only [leBytes, List.cons.injEq, and_true]
  refine ⟨?_, ?_, ?_, ?_⟩ <;> apply BitVec.eq_of_toNat_eq <;>
    simp only [BitVec.toNat_setWidth, BitVec.toNat_ushiftRight, hv, Nat.shiftRight_eq_div_pow] <;> omega

theorem leBytes_or (n : Nat) (v w : Dword) : leBytes n (v ||| w) = List.zipWith (· ||| ·) (leBytes n v) (leBytes n w) := by
  induction n generalizing v w with
  | zero => rfl
  | succ n ih => simp only [leBytes, List.zipWith_cons_cons, BitVec.setWidth_or, BitVec.ushiftRight_or_distrib, ih]

/-- Four addresses in a row differ. -/
theorem quad_nodup (a : Dword) : [a, a + 1, a + 2, a + 3].Nodup := by
  have h := linearRange_nodup a 4 (by omega)
  have e : linearRange a 4 = [a, a + 1, a + 2, a + 3] := by
    simp only [linearRange, BitVec.add_assoc]
    rfl
  rwa [e] at h

/-- Writing a dword of memory back with A or D set changes only bits 5 and 6 of its first byte. -/
theorem sameByte_setPhysDword {s s1 : State} (h : Memory.wf s1.mem = true) (hpg : s.cr0.pg = true)
    (hpar : s1.params = s.params) (h1 : NoStore s s1) (a : Dword) {m : Dword} (hm : m = 0x20#32 ∨ m = 0x60#32) :
    NoStore s (s1.setPhysDword a (s.physDword a ||| m)) := by
  intro p
  have hfx : s1.isFixed p.toNat = s.isFixed p.toNat := by unfold State.isFixed; rw [hpar]
  have hl : leBytes 4 (s.physDword a ||| m) =
      [s.readByte a ||| m.setWidth 8, s.readByte (a + 1), s.readByte (a + 2), s.readByte (a + 3)] := by
    have h8 : leBytes 4 m = [m.setWidth 8, 0, 0, 0] := by
      rcases hm with rfl | rfl <;> decide
    rw [leBytes_or, State.physDword, leBytes_leDword, h8]
    simp
  by_cases hf : s.isFixed p.toNat = true
  · refine .inl ?_
    have hr : (s1.setPhysDword a (s.physDword a ||| m)).readByte p = s1.readByte p :=
      read_writeCells_fixed h _ _ (by rw [hfx]; exact hf)
    rw [hr]
    exact (h1 p).fixed hf
  have hf : s.isFixed p.toNat = false := by simpa using hf
  by_cases hp : p ∈ [a, a + 1, a + 2, a + 3]
  · refine .inr ⟨hpg, hf, ?_⟩
    obtain ⟨k, hk, rfl⟩ := List.getElem_of_mem hp
    have hk' : k < 4 := hk
    have hr : (s1.setPhysDword a (s.physDword a ||| m)).readByte [a, a + 1, a + 2, a + 3][k] =
        (leBytes 4 (s.physDword a ||| m))[k]'(by simpa using hk') := by
      refine (read_writeCells_get h _ _ (quad_nodup a) hk (by simpa using hk')).trans ?_
      rw [hfx, hf]
      rfl
    rw [hr]
    simp only [hl]
    interval_cases k
    · show s.readByte a ||| m.setWidth 8 ||| 0x60 = s.readByte a ||| 0x60
      rcases hm with rfl | rfl <;> exact or_or_self _ _ _ (by decide)
    all_goals rfl
  · have hr : (s1.setPhysDword a (s.physDword a ||| m)).readByte p = s1.readByte p :=
      read_writeCells_other h _ _ hp
    have := h1 p
    unfold SameByte at *
    rwa [hr]

/-- A walk changes no more than A and D bits. -/
theorem quiet_walk {w u : Bool} {l p : Dword} {s t : State} (h : walk w u l s = .ok p t) (hpg : s.cr0.pg = true) :
    Quiet s t := by
  unfold walk at h
  simp only at h
  split at h
  · cases h
  split at h
  · cases h
  · split at h
    · cases h
    · cases h
      refine ⟨rfl, rfl, rfl, rfl, rfl, fun k => State.setPhysDword_wf (State.setPhysDword_wf k _ _) _ _, fun k => ?_⟩
      have h1 := sameByte_setPhysDword k hpg rfl (fun p => .refl s p) (s.tableEntries l).pdeAt (m := 0x20) (.inl rfl)
      have h2 := sameByte_setPhysDword (State.setPhysDword_wf k _ _) hpg rfl h1 (s.tableEntries l).pteAt
        (m := 0x20 ||| (if w then 0x40 else 0)) (by cases w <;> decide)
      intro p
      rw [← BitVec.or_assoc] at h2
      exact h2 p

theorem quiet_useEntry {e : TlbEntry} {w u : Bool} {l p : Dword} {s t : State} (h : useEntry e w u l s = .ok p t) :
    Quiet s t := by
  unfold useEntry at h
  split at h <;> cases h
  exact .refl s

theorem quiet_translate {w u : Bool} {l p : Dword} {s t : State} (h : translate w u l s = .ok p t) : Quiet s t := by
  unfold translate at h
  split at h
  · cases h; exact .refl s
  · next hp =>
    have hp : s.cr0.pg = true := by simpa using hp
    split at h
    · exact quiet_walk h hp
    · split at h
      · exact quiet_walk h hp
      · split at h
        · exact quiet_useEntry h
        · split at h
          · exact (quiet_draws s _).trans (quiet_useEntry h)
          · exact (quiet_draws s _).trans (quiet_walk h hp)

theorem quiet_physRange {w u : Bool} {l : Dword} {n : Nat} {as : List Dword} {s t : State}
    (h : physRange w u l n s = .ok as t) : Quiet s t := by
  unfold physRange at h
  obtain ⟨p, s1, h1, h⟩ := run_bind_eq_ok.1 h
  simp only at h
  split at h
  · cases h; exact quiet_translate h1
  · obtain ⟨q, s2, h2, h⟩ := run_bind_eq_ok.1 h
    cases h
    exact (quiet_translate h1).trans (quiet_translate h2)

/-- Addresses below a page's end. -/
theorem linearRange_append (l : Dword) (n k : Nat) :
    linearRange l n ++ linearRange (l + BitVec.ofNat 32 n) k = linearRange l (n + k) := by
  induction n generalizing l with
  | zero => simp [linearRange]
  | succ n ih =>
    rw [show n + 1 + k = (n + k) + 1 by omega]
    simp only [linearRange, List.cons_append]
    rw [← ih (l + 1)]
    congr 3
    apply BitVec.eq_of_toNat_eq
    simp [BitVec.toNat_add, BitVec.toNat_ofNat]
    omega

theorem translate_unpaged {s : State} (hp : s.cr0.pg = false) (w u : Bool) (l : Dword) : translate w u l s = .ok l s := by
  unfold translate; simp [hp]

/-- With paging off the physical addresses are the linear ones and nothing happens. -/
theorem physRange_unpaged {s : State} (hp : s.cr0.pg = false) (w u : Bool) (l : Dword) (n : Nat) (hn : 1 ≤ n)
    (hn' : n ≤ 4096) : physRange w u l n s = .ok (linearRange l n) s := by
  unfold physRange
  rw [run_bind_ok (translate_unpaged hp w u l)]
  simp only
  by_cases hpage : pageOf (l + BitVec.ofNat 32 (n - 1)) = pageOf l
  · rw [if_pos hpage]; rfl
  · rw [if_neg hpage, run_bind_ok (translate_unpaged hp w u _)]
    have e1 : (offsetIn l).toNat = l.toNat % 4096 := by
      unfold offsetIn
      simp [BitVec.extractLsb'_toNat]
    have hl := l.isLt
    have e2 : l.toNat % 4096 + n > 4096 := by
      by_contra hc
      apply hpage
      apply BitVec.eq_of_toNat_eq
      simp only [pageOf, BitVec.extractLsb'_toNat, BitVec.toNat_add, BitVec.toNat_ofNat, Nat.shiftRight_eq_div_pow]
      omega
    have e3 : (l + BitVec.ofNat 32 (n - 1)) &&& 0xFFFFF000 = l + BitVec.ofNat 32 (4096 - (offsetIn l).toNat) := by
      have hm : ∀ v : Dword, v &&& 0xFFFFF000 = BitVec.ofNat 32 (v.toNat / 4096 * 4096) := by
        intro v
        have : v &&& (0xFFFFF000 : Dword) = (v >>> 12) <<< 12 := by
          apply BitVec.eq_of_getLsbD_eq
          intro i hi
          have hb : (0xFFFFF000 : Dword).getLsbD i = decide (12 ≤ i) := by
            revert i; decide
          rw [BitVec.getLsbD_and, hb, BitVec.getLsbD_shiftLeft, BitVec.getLsbD_ushiftRight]
          by_cases h12 : 12 ≤ i
          · simp [h12, hi, show 12 + (i - 12) = i by omega, show ¬ i < 12 by omega]
          · simp [h12, show i < 12 by omega]
        rw [this]
        apply BitVec.eq_of_toNat_eq
        simp [BitVec.toNat_shiftLeft, BitVec.toNat_ushiftRight, Nat.shiftRight_eq_div_pow, Nat.shiftLeft_eq]
      rw [hm, e1]
      apply BitVec.eq_of_toNat_eq
      simp only [BitVec.toNat_add, BitVec.toNat_ofNat]
      omega
    show EStateM.Result.ok (linearRange l _ ++ linearRange _ _) s = _
    rw [e3, linearRange_append, e1]
    congr 2
    omega

theorem quiet_noteAccess {w : Bool} {l : Dword} {n : Nat} {s t : State} {a : Unit} (h : noteAccess w l n s = .ok a t) :
    Quiet s t := by
  unfold noteAccess at h
  split at h
  · cases h; exact .refl s
  · cases h; exact .of_eq rfl rfl rfl rfl rfl rfl

/-! What answers at a physical address. -/

/-- No device and nothing absent. -/
theorem responder_of_allMemory {s : State} (h : s.AllMemory) (a : Dword) : s.isAbsent a = false ∧ s.isDevice a = false := by
  have hr : ∀ x, s.params.responder a.toNat = some x → x = .rom := by
    intro x hx
    unfold Config.Params.responder at hx
    rw [Option.map_eq_some_iff] at hx
    obtain ⟨r, hf, rfl⟩ := hx
    have := List.all_eq_true.1 h r (List.mem_of_find?_eq_some hf)
    simpa using this
  unfold State.isAbsent State.isDevice
  cases hx : s.params.responder a.toNat with
  | none => exact ⟨rfl, rfl⟩
  | some x => rw [hr x hx]; exact ⟨rfl, rfl⟩

/-- Where every address is memory a read of physical memory gives what it holds. -/
theorem readPhys_memory {s : State} (h : s.AllMemory) (as : List Dword) : readPhys as s = .ok (as.map s.readByte) s := by
  have h1 : as.any s.isAbsent = false := by simp [List.any_eq_false, (responder_of_allMemory h _).1]
  have h2 : as.any s.isDevice = false := by simp [List.any_eq_false, (responder_of_allMemory h _).2]
  unfold readPhys
  simp [h1, h2]

theorem writePhys_memory {s : State} (h : s.AllMemory) (as : List Dword) (bs : List Byte) :
    writePhys as bs s = .ok () (s.storePhys as bs) := by
  have h1 : as.any s.isAbsent = false := by simp [List.any_eq_false, (responder_of_allMemory h _).1]
  have h2 : as.any s.isDevice = false := by simp [List.any_eq_false, (responder_of_allMemory h _).2]
  unfold writePhys
  simp [h1, h2]

theorem quiet_noteCycles (s : State) (k : Config.CycleKind) (as : List Dword) (c : Nat → Nat → Nat → BusCycle) :
    Quiet s (s.noteCycles k as c) := .of_eq rfl rfl rfl rfl rfl rfl

/-- A read of physical memory that answers changes nothing but the cycles at devices and the free values used. -/
theorem quiet_readPhys {as : List Dword} {bs : List Byte} {s t : State} (h : readPhys as s = .ok bs t) : Quiet s t := by
  unfold readPhys at h
  split at h
  · cases h
  · split at h
    · cases h
      exact (quiet_noteCycles s _ _ _).trans (quiet_draws _ _)
    · cases h
      exact .refl s

/-- A write of physical memory that answers: its bytes are stored. -/
theorem writePhys_ok {as : List Dword} {bs : List Byte} {s t : State} {a : Unit} (h : writePhys as bs s = .ok a t) :
    ∃ v, Quiet s v ∧ t = v.storePhys as bs := by
  unfold writePhys at h
  split at h
  · cases h
  · split at h
    · cases h
      exact ⟨_, quiet_noteCycles s _ _ _, rfl⟩
    · cases h
      exact ⟨s, .refl s, rfl⟩

/-! Reads. -/

theorem quiet_readLinear {u : Bool} {l : Dword} {n : Nat} {bs : List Byte} {s t : State}
    (h : readLinear u l n s = .ok bs t) : Quiet s t := by
  unfold readLinear at h
  obtain ⟨as, s1, h1, h⟩ := run_bind_eq_ok.1 h
  obtain ⟨_, s2, h2, h⟩ := run_bind_eq_ok.1 h
  exact ((quiet_physRange h1).trans (quiet_noteAccess h2)).trans (quiet_readPhys h)

theorem quiet_sysRead {l v : Dword} {sz : Size} {s t : State} (h : sysRead l sz s = .ok v t) : Quiet s t := by
  unfold sysRead at h
  obtain ⟨_, s1, h1, h⟩ := run_bind_eq_ok.1 h
  cases h
  exact quiet_readLinear h1

theorem segCheck_eq_ok {sr : SReg} {off : Dword} {n : Nat} {w : Bool} {s t : State} {a : Unit} :
    segCheck sr off n w s = .ok a t ↔ s.segOk sr off n w = true ∧ t = s := by
  unfold segCheck
  cases s.segOk sr off n w <;> simp [eq_comm]

theorem memRead_ok {sr : SReg} {off v : Dword} {sz : Size} {s t : State} (h : memRead sr off sz s = .ok v t) :
    s.segOk sr off sz.bytes false = true ∧ Quiet s t := by
  unfold memRead at h
  obtain ⟨_, s1, h1, k⟩ := run_bind_eq_ok.1 h
  obtain ⟨hc, rfl⟩ := segCheck_eq_ok.1 h1
  obtain ⟨_, s2, h2, k⟩ := run_bind_eq_ok.1 k
  cases h2
  obtain ⟨_, s3, h3, k⟩ := run_bind_eq_ok.1 k
  cases k
  exact ⟨hc, quiet_readLinear h3⟩

theorem quiet_effectiveAddress {m : MemOp} {a : SReg × Dword} {s t : State} (h : effectiveAddress m s = .ok a t) :
    Quiet s t := by
  unfold effectiveAddress at h
  simp only at h
  split at h <;> cases h
  · exact quiet_draws s _
  · exact .refl s

theorem quiet_resolve {rm : RM} {l : Loc} {s t : State} (h : resolve rm s = .ok l t) : Quiet s t := by
  unfold resolve at h
  cases rm with
  | reg r => cases h; exact .refl s
  | mem m =>
    simp only at h
    split at h
    · next h1 => cases h; exact quiet_effectiveAddress h1
    · cases h

theorem quiet_readLoc {sz : Size} {l : Loc} {v : Dword} {s t : State} (h : readLoc sz l s = .ok v t) : Quiet s t := by
  unfold readLoc at h
  cases l with
  | reg r => cases h; exact .refl s
  | mem sr off => exact (memRead_ok h).2

theorem quiet_readRm {sz : Size} {rm : RM} {v : Dword} {s t : State} (h : readRm sz rm s = .ok v t) : Quiet s t := by
  unfold readRm at h
  obtain ⟨l, s1, h1, h⟩ := run_bind_eq_ok.1 h
  exact (quiet_resolve h1).trans (quiet_readLoc h)

/-! Writes. -/

/-- A translation keeps the offset in the page. -/
theorem translate_offset {w u : Bool} {l p : Dword} {s t : State} (h : translate w u l s = .ok p t) :
    p.toNat % 4096 = l.toNat % 4096 := by
  have hphys : ∀ e : TlbEntry, (e.physical l).toNat % 4096 = l.toNat % 4096 := by
    intro e
    have e1 : (offsetIn l).toNat = l.toNat % 4096 := by
      unfold offsetIn
      simp [BitVec.extractLsb'_toNat]
    have hlt := (offsetIn l).isLt
    unfold TlbEntry.physical
    rw [BitVec.toNat_append, ← Nat.shiftLeft_add_eq_or_of_lt hlt, Nat.shiftLeft_eq, e1]
    omega
  have huse : ∀ (e : TlbEntry) (s : State), useEntry e w u l s = .ok p t → p.toNat % 4096 = l.toNat % 4096 := by
    intro e s h
    unfold useEntry at h
    split at h <;> cases h
    exact hphys e
  have hwalk : ∀ s : State, walk w u l s = .ok p t → p.toNat % 4096 = l.toNat % 4096 := by
    intro s h
    unfold walk at h
    simp only at h
    split at h
    · cases h
    split at h
    · cases h
    · split at h <;> cases h
      exact hphys _
  unfold translate at h
  split at h
  · cases h; rfl
  · split at h
    · exact hwalk _ h
    · split at h
      · exact hwalk _ h
      · split at h
        · exact huse _ _ h
        · split at h
          · exact huse _ _ h
          · exact hwalk _ h

/-- The bytes of an operand lie at different physical addresses. -/
theorem physRange_nodup {w u : Bool} {l : Dword} {n : Nat} {as : List Dword} {s t : State} (hn : n ≤ 4096)
    (h : physRange w u l n s = .ok as t) : as.Nodup ∧ (1 ≤ n → as.length = n) := by
  unfold physRange at h
  obtain ⟨p, s1, h1, h⟩ := run_bind_eq_ok.1 h
  simp only at h
  split at h
  · cases h; exact ⟨linearRange_nodup p n (by omega), fun _ => linearRange_length p n⟩
  · next hpage =>
    obtain ⟨q, s2, h2, h⟩ := run_bind_eq_ok.1 h
    cases h
    have hp := translate_offset h1
    have hq := translate_offset h2
    have e1 : (offsetIn l).toNat = l.toNat % 4096 := by
      unfold offsetIn
      simp [BitVec.extractLsb'_toNat]
    have hq0 : q.toNat % 4096 = 0 := by
      rw [hq]
      have : ∀ v : Dword, (v &&& (0xFFFFF000 : Dword)).toNat % 4096 = 0 := by
        intro v
        rw [BitVec.toNat_and, show (0xFFFFF000 : Dword).toNat = (2 ^ 20 - 1) <<< 12 from rfl]
        have := Nat.and_mod_two_pow (a := v.toNat) (b := (2 ^ 20 - 1) <<< 12) (n := 12)
        rw [show (4096 : Nat) = 2 ^ 12 from rfl, this]
        simp
      exact this _
    have hlen : 1 ≤ n → 4096 - l.toNat % 4096 ≤ n := by
      intro h1n
      by_contra hc
      apply hpage
      apply BitVec.eq_of_toNat_eq
      have hl := l.isLt
      simp only [pageOf, BitVec.extractLsb'_toNat, BitVec.toNat_add, BitVec.toNat_ofNat, Nat.shiftRight_eq_div_pow]
      omega
    refine ⟨List.nodup_append.2 ⟨linearRange_nodup _ _ (by omega), linearRange_nodup _ _ (by omega), ?_⟩, ?_⟩
    · intro a ha b hb hab
      obtain ⟨k, hk, rfl⟩ := mem_linearRange.1 ha
      obtain ⟨k', hk', rfl⟩ := mem_linearRange.1 hb
      have := congrArg BitVec.toNat hab
      have hpl := p.isLt
      have hql := q.isLt
      simp only [BitVec.toNat_add, BitVec.toNat_ofNat] at this
      omega
    · intro h1n
      have := hlen h1n
      simp only [List.length_append, linearRange_length]
      omega

/-- From `s` to `t` the bytes `bs` have been stored at `sr:off`, and nothing else has changed but what a quiet step
changes. -/
structure Wrote (s t : State) (sr : SReg) (off : Dword) (bs : List Byte) : Prop where
  regs : t.regs = s.regs
  eflags : t.eflags = s.eflags
  rest : t.putBack s = s
  pfx : t.pfx = s.pfx
  shadow : t.shadow = s.shadow
  wf : Memory.wf s.mem = true → Memory.wf t.mem = true
  bytes : Memory.wf s.mem = true → StoresAt s s t sr off bs

/-- A store of bytes after a quiet step. -/
theorem stores_storePhys {s v : State} (h : Quiet s v) (hw : Memory.wf s.mem = true) {as : List Dword} {bs : List Byte}
    (hn : as.Nodup) (hl : as.length = bs.length) : Stores s (v.storePhys as bs) as bs := by
  have hv := h.wf hw
  have hfx : ∀ a, v.isFixed a = s.isFixed a := fun a => by unfold State.isFixed; rw [h.params]
  refine ⟨hl, ?_, ?_⟩
  · apply List.ext_getElem
    · simp [hl]
    · intro k h1 h2
      rw [List.getElem_map, List.getElem_zipWith]
      refine (read_writeCells_get hv as bs hn (by simpa using h1) (by simpa [hl] using h1)).trans ?_
      unfold State.stored
      rw [hfx]
      split
      · next hf => exact (h.bytes hw _).fixed hf
      · rfl
  · intro p hp
    have hr : (v.storePhys as bs).readByte p = v.readByte p := read_writeCells_other hv as bs hp
    have := h.bytes hw p
    unfold SameByte at *
    rwa [hr]

theorem writeLinear_ok {l : Dword} {bs : List Byte} {u : Bool} {s t : State} {a : Unit}
    (h : writeLinear u l bs s = .ok a t) :
    ∃ as s1 s2, physRange true u l bs.length s = .ok as s1 ∧ Quiet s s2 ∧ t = s2.storePhys as bs := by
  unfold writeLinear at h
  obtain ⟨as, s1, h1, h⟩ := run_bind_eq_ok.1 h
  obtain ⟨_, s2, h2, h⟩ := run_bind_eq_ok.1 h
  obtain ⟨v, hv, rfl⟩ := writePhys_ok h
  exact ⟨as, s1, v, h1, ((quiet_physRange h1).trans (quiet_noteAccess h2)).trans hv, rfl⟩

/-- A store that answers: its checks passed, its bytes are stored, nothing else has changed. -/
theorem memWrite_ok {sr : SReg} {off v : Dword} {sz : Size} {s t : State} {a : Unit}
    (h : memWrite sr off sz v s = .ok a t) :
    s.segOk sr off sz.bytes true = true ∧ Wrote s t sr off (leBytes sz.bytes v) := by
  unfold memWrite at h
  obtain ⟨_, s1, h1, k⟩ := run_bind_eq_ok.1 h
  obtain ⟨hc, rfl⟩ := segCheck_eq_ok.1 h1
  obtain ⟨_, s2, h2, k⟩ := run_bind_eq_ok.1 k
  cases h2
  obtain ⟨as, s3, s4, hr, hq, rfl⟩ := writeLinear_ok k
  refine ⟨hc, hq.regs, hq.eflags, hq.rest, hq.pfx, hq.shadow, fun w => State.storePhys_wf (hq.wf w) _ _, fun w => ?_⟩
  intro as' u' hr'
  rw [hr] at hr'
  cases hr'
  rw [leBytes_length] at hr
  have hb : sz.bytes ≤ 4 := by cases sz <;> decide
  have hb1 : 1 ≤ sz.bytes := by cases sz <;> decide
  have hnd := physRange_nodup (by omega) hr
  exact stores_storePhys hq w hnd.1 (by rw [hnd.2 hb1, leBytes_length])

/-- What a quiet step before a store adds. -/
theorem StoresAt.after {s s1 t : State} {sr : SReg} {off : Dword} {bs : List Byte} (hpg : s1.cr0.pg = s.cr0.pg)
    (hpar : s1.params = s.params) (h : NoStore s s1) (k : StoresAt s1 s1 t sr off bs) : StoresAt s s1 t sr off bs := by
  intro as u hr
  obtain ⟨hl, hb, ho⟩ := k as u hr
  refine ⟨hl, ?_, fun p hp => (h p).trans hpg hpar (ho p hp)⟩
  rw [hb]
  congr 1
  funext p b
  unfold State.stored State.isFixed
  rw [hpar]
  split
  · next hf => exact (h p).fixed hf
  · rfl

/-! With paging off. -/

theorem noteAccess_answers (w : Bool) (l : Dword) (n : Nat) (s : State) : ∃ t, noteAccess w l n s = .ok () t ∧
    t = { s with pendingDb := t.pendingDb, draws := t.draws } := by
  unfold noteAccess
  split
  · exact ⟨s, rfl, rfl⟩
  · exact ⟨_, rfl, rfl⟩

/-- A read of linear memory answers, and changes no more than what pends and how many free values are used. -/
theorem readLinear_unpaged {s : State} (hp : s.Plain) (u : Bool) (l : Dword) {n : Nat} (h1 : 1 ≤ n)
    (h2 : n ≤ 4096) : ∃ t, readLinear u l n s = .ok ((linearRange l n).map s.readByte) t ∧
      t = { s with pendingDb := t.pendingDb, draws := t.draws } := by
  unfold readLinear
  rw [run_bind_ok (physRange_unpaged hp.unpaged false u l n h1 h2)]
  obtain ⟨t, ht, he⟩ := noteAccess_answers false l n s
  refine ⟨t, ?_, he⟩
  have hm : t.AllMemory := by rw [he]; exact hp.memory
  rw [run_bind_ok ht, readPhys_memory hm]
  have : t.readByte = s.readByte := by rw [he]; rfl
  rw [this]

/-- A write of linear memory answers. -/
theorem writeLinear_unpaged {s : State} (hp : s.Plain) (u : Bool) (l : Dword) {bs : List Byte}
    (h1 : 1 ≤ bs.length) (h2 : bs.length ≤ 4096) : ∃ t, writeLinear u l bs s = .ok () t ∧
      t = { s with
        mem := writeCells s.isFixed s.mem (linearRange l bs.length) bs
        stale := t.stale, pendingDb := t.pendingDb, draws := t.draws } := by
  unfold writeLinear
  rw [run_bind_ok (physRange_unpaged hp.unpaged true u l _ h1 h2)]
  obtain ⟨t, ht, he⟩ := noteAccess_answers true l bs.length s
  have hm : t.AllMemory := by rw [he]; exact hp.memory
  refine ⟨t.storePhys (linearRange l bs.length) bs, ?_, ?_⟩
  · rw [run_bind_ok ht]; exact writePhys_memory hm _ _
  · unfold State.storePhys
    rw [he]
    rfl

theorem one_le_bytes (sz : Size) : 1 ≤ sz.bytes := by cases sz <;> decide

theorem bytes_le_four (sz : Size) : sz.bytes ≤ 4 := by cases sz <;> decide

theorem memRead_unpaged {s : State} (hp : s.Plain) {sr : SReg} {off : Dword} {sz : Size}
    (hc : s.segOk sr off sz.bytes false = true) :
    ∃ t, memRead sr off sz s = .ok (leDword (s.operandBytes sr off sz.bytes)) t ∧
      t = { s with pendingDb := t.pendingDb, draws := t.draws } := by
  unfold memRead
  rw [run_bind_ok (segCheck_eq_ok.2 ⟨hc, rfl⟩ : _ = EStateM.Result.ok () s), run_bind_ok (run_get s)]
  obtain ⟨t, ht, he⟩ := readLinear_unpaged hp s.isUser (s.linear sr off) (one_le_bytes sz) (by have := bytes_le_four sz; omega)
  exact ⟨t, by rw [run_bind_ok ht]; rfl, he⟩

theorem memWrite_unpaged {s : State} (hp : s.Plain) {sr : SReg} {off : Dword} {sz : Size} (v : Dword)
    (hc : s.segOk sr off sz.bytes true = true) :
    ∃ t, memWrite sr off sz v s = .ok () t ∧
      t = { s with
        mem := writeCells s.isFixed s.mem (linearRange (s.linear sr off) sz.bytes) (leBytes sz.bytes v)
        stale := t.stale, pendingDb := t.pendingDb, draws := t.draws } := by
  unfold memWrite
  rw [run_bind_ok (segCheck_eq_ok.2 ⟨hc, rfl⟩ : _ = EStateM.Result.ok () s), run_bind_ok (run_get s)]
  obtain ⟨t, ht, he⟩ := writeLinear_unpaged hp s.isUser (s.linear sr off) (bs := leBytes sz.bytes v)
    (by rw [leBytes_length]; exact one_le_bytes sz) (by rw [leBytes_length]; have := bytes_le_four sz; omega)
  rw [leBytes_length] at he
  exact ⟨t, ht, he⟩

theorem sysRead_unpaged {s : State} (hp : s.Plain) (l : Dword) (sz : Size) :
    ∃ t, sysRead l sz s = .ok (leDword ((linearRange l sz.bytes).map s.readByte)) t ∧
      t = { s with pendingDb := t.pendingDb, draws := t.draws } := by
  unfold sysRead
  obtain ⟨t, ht, he⟩ := readLinear_unpaged hp false l (one_le_bytes sz) (by have := bytes_le_four sz; omega)
  exact ⟨t, by rw [run_bind_ok ht]; rfl, he⟩

theorem readDescriptorAt_unpaged {s : State} (hp : s.Plain) (l : Dword) :
    ∃ t, readDescriptorAt l s = .ok (s.descriptorIn l) t ∧
      t = { s with pendingDb := t.pendingDb, draws := t.draws } := by
  unfold readDescriptorAt
  obtain ⟨t, ht, he⟩ := readLinear_unpaged hp false l (n := 8) (by omega) (by omega)
  refine ⟨t, ?_, he⟩
  rw [run_bind_ok ht]
  simp [linearRange, State.descriptorIn, State.physDword, BitVec.add_assoc]

/-! Operands and the end of an instruction. -/

/-- A write of an operand that answers. -/
theorem writeLoc_ok {sz : Size} {l : Loc} {v : Dword} {s t : State} {a : Unit} (h : writeLoc sz l v s = .ok a t) :
    t.regs = l.regs s.regs sz v ∧ t.eflags = s.eflags ∧ t.putBack s = s ∧ t.pfx = s.pfx ∧ t.shadow = s.shadow ∧
      (Memory.wf s.mem = true → Memory.wf t.mem = true) ∧ (Memory.wf s.mem = true → l.Stored s s t sz v) := by
  unfold writeLoc at h
  cases l with
  | reg r => cases h; exact ⟨rfl, rfl, rfl, rfl, rfl, id, fun _ p => .refl s p⟩
  | mem sr off =>
    have := (memWrite_ok h).2
    exact ⟨this.regs, this.eflags, this.rest, this.pfx, this.shadow, this.wf, this.bytes⟩

/-- What `Quiet` says is enough to move a write's description back to the state before. -/
theorem Loc.Stored.after {l : Loc} {s s1 t : State} {sz : Size} {v : Dword} (hq : Quiet s s1) (hw : Memory.wf s.mem = true)
    (k : l.Stored s1 s1 t sz v) : l.Stored s s1 t sz v := by
  cases l with
  | reg r => exact fun p => (hq.bytes hw p).trans hq.pg hq.params (k p)
  | mem sr off => exact StoresAt.after hq.pg hq.params (hq.bytes hw) k

/-- Memory is all that matters to what has been stored. -/
theorem Loc.Stored.of_mem {l : Loc} {s s1 t t' : State} {sz : Size} {v : Dword} (ht : t'.mem = t.mem)
    (k : l.Stored s s1 t sz v) : l.Stored s s1 t' sz v := by
  have e : ∀ p, t'.readByte p = t.readByte p := fun p => by unfold State.readByte; rw [ht]
  have e' : ∀ p, SameByte s t p → SameByte s t' p := fun p h => by unfold SameByte at *; rwa [e p]
  cases l with
  | reg r => exact fun p => e' p (k p)
  | mem sr off =>
    intro as u h
    obtain ⟨hl, hb, ho⟩ := k as u h
    refine ⟨hl, ?_, fun p hp => e' p (ho p hp)⟩
    rw [← hb]
    exact List.map_congr_left fun p _ => e p

/-- How an instruction that ends in the ordinary way looks from its start. -/
theorem ends_retire {s t : State} {g : Regs} {f : Eflags} {u : State} (hg : t.regs = g)
    (hf : ({ t.eflags with rf := false } : Eflags) = { f with rf := false }) (hu : t.putBack s = u) :
    Ends s (s.retire t) g f u := ⟨hg, hf, hu, rfl, rfl⟩

/-- An instruction that changes no memory but by quiet steps, ending with registers and flags of its own. -/
theorem gives_of {i : Instr} {m : M Unit} {s t : State} {g : Regs} {f : Eflags → Eflags} {u : State}
    (hi : exec i s = complete m s) (hm : m s = .ok () t) (hg : t.regs = g)
    (hf : ({ t.eflags with rf := false } : Eflags) = { f { t.eflags with rf := false } with rf := false })
    (hu : t.putBack s = u) (hn : NoStore s t) : Gives i s g f u :=
  ⟨s.retire t, by rw [hi, complete_ok hm], ends_retire hg hf hu, hn⟩

theorem puts_of {i : Instr} {m : M Unit} {s s1 t : State} {l : Loc} {sz : Size} {v : Dword} {f : Eflags → Eflags}
    (hi : exec i s = complete m s) (hm : m s = .ok () t) (hg : t.regs = l.regs s.regs sz v)
    (hf : ({ t.eflags with rf := false } : Eflags) = { f { t.eflags with rf := false } with rf := false })
    (hu : t.putBack s = s) (hn : l.Stored s s1 t sz v) : Puts i s s1 l sz v f :=
  ⟨s.retire t, by rw [hi, complete_ok hm], ends_retire hg hf hu, Loc.Stored.of_mem rfl hn⟩

/-- A quiet step, then an update of nothing that `State.putBack` compares. -/
theorem Quiet.putBack {s s1 t : State} (h : Quiet s s1) (k : t.putBack s1 = s1) : t.putBack s = s :=
  putBack_trans h.rest k

end Sys2Proof.Machine
end

