-- ==== Sys2Proof/Laws/Calm.lean ====
section
/-! SUPPORT. What the shared operations keep, said once: `Calm m` says that `m`, whether it answers or is cut short,
leaves PE and PG as they are, does not set VM, and keeps each other clause of `State.Inv`. -/

namespace Sys2Proof.Machine

variable {α β : Type}

/-- From `s` to `s'` nothing that `State.Inv` speaks of is lost. -/
structure CalmRel (s s' : State) : Prop where
  pe : s'.cr0.pe = s.cr0.pe
  pg : s'.cr0.pg = s.cr0.pg
  vm : s'.eflags.vm = true → s.eflags.vm = true
  mem : Memory.wf s.mem = true → Memory.wf s'.mem = true
  dr6 : s.dr6 &&& ~~~dr6Mask = 0 → s'.dr6 &&& ~~~dr6Mask = 0
  dr7 : s.dr7 &&& ~~~dr7Mask = 0 → s'.dr7 &&& ~~~dr7Mask = 0
  pending : s.pendingDb &&& ~~~dr6Mask = 0 → s'.pendingDb &&& ~~~dr6Mask = 0

@[simp] theorem CalmRel.refl (s : State) : CalmRel s s := ⟨rfl, rfl, id, id, id, id, id⟩

theorem CalmRel.trans {s t u : State} (h : CalmRel s t) (k : CalmRel t u) : CalmRel s u :=
  ⟨k.pe.trans h.pe, k.pg.trans h.pg, h.vm ∘ k.vm, k.mem ∘ h.mem, k.dr6 ∘ h.dr6, k.dr7 ∘ h.dr7, k.pending ∘ h.pending⟩

theorem CalmRel.inv {s s' : State} (h : CalmRel s s') (i : s.Inv) : s'.Inv :=
  ⟨h.mem i.mem, h.dr6 i.dr6, h.dr7 i.dr7, h.pending i.pending, fun p => by rw [h.pe]; rw [h.pg] at p; exact i.paging p,
    fun v => by rw [h.pe]; exact i.vm (h.vm v)⟩

/-- An exception sets only defined bits of DR6. -/
def Exn.ok (e : Exn) : Prop := e.dr6 &&& ~~~dr6Mask = 0

def Stop.ok : Stop → Prop
  | .exn e _ => e.ok
  | _ => True

/-- What a computation answers, cut short or not, is calm. -/
def CalmOut (s : State) : EStateM.Result Stop State α → Prop
  | .ok _ s' => CalmRel s s'
  | .error e s' => CalmRel s s' ∧ e.ok

def Calm (m : M α) : Prop := ∀ s, CalmOut s (m s)

theorem CalmOut.mono {s t : State} {r : EStateM.Result Stop State α} (h : CalmRel s t) (k : CalmOut t r) : CalmOut s r := by
  cases r with
  | ok a u => exact h.trans k
  | error e u => exact ⟨h.trans k.1, k.2⟩

@[simp] theorem calm_pure (a : α) : Calm (pure a : M α) := fun s => CalmRel.refl s

@[simp] theorem calm_get : Calm (get : M State) := fun s => CalmRel.refl s

@[simp] theorem calm_bind {x : M α} {f : α → M β} (hx : Calm x) (hf : ∀ a, Calm (f a)) : Calm (x >>= f) := by
  intro s
  rw [run_bind]
  have := hx s
  cases h : x s with
  | ok a s' => rw [h] at this; exact CalmOut.mono this (hf a s')
  | error e s' => rw [h] at this; exact this

@[simp] theorem calm_modify {f : State → State} (h : ∀ s, CalmRel s (f s)) : Calm (modify f : M PUnit) := h

@[simp] theorem calm_map {x : M α} {f : α → β} (hx : Calm x) : Calm (f <$> x) := by
  intro s
  have := hx s
  show CalmOut s (EStateM.map f x s)
  unfold EStateM.map
  cases h : x s with
  | ok a s' => rw [h] at this; exact this
  | error e s' => rw [h] at this; exact this

@[simp] theorem calm_ite {c : Prop} [Decidable c] {x y : M α} (hx : Calm x) (hy : Calm y) : Calm (if c then x else y) := by
  split <;> assumption

@[simp] theorem Exn.fault_ok (v : Byte) (c : Option Word) : (Exn.fault v c).ok := by simp [Exn.ok, Exn.fault]
@[simp] theorem Exn.de_ok : Exn.de.ok := Exn.fault_ok _ _
@[simp] theorem Exn.br_ok : Exn.br.ok := Exn.fault_ok _ _
@[simp] theorem Exn.ud_ok : Exn.ud.ok := Exn.fault_ok _ _
@[simp] theorem Exn.nm_ok : Exn.nm.ok := Exn.fault_ok _ _
@[simp] theorem Exn.dfault_ok : Exn.dfault.ok := Exn.fault_ok 8 (some 0)
@[simp] theorem Exn.ts_ok (c : Word) : (Exn.ts c).ok := Exn.fault_ok _ _
@[simp] theorem Exn.np_ok (c : Word) : (Exn.np c).ok := Exn.fault_ok _ _
@[simp] theorem Exn.ss_ok (c : Word) : (Exn.ss c).ok := Exn.fault_ok _ _
@[simp] theorem Exn.gp_ok (c : Word) : (Exn.gp c).ok := Exn.fault_ok _ _
@[simp] theorem Exn.mf_ok : Exn.mf.ok := Exn.fault_ok _ _
@[simp] theorem Exn.pf_ok (l : Dword) (p w u : Bool) : (Exn.pf l p w u).ok := by simp [Exn.ok, Exn.pf, Exn.fault]
@[simp] theorem Exn.generalDetect_ok : Exn.generalDetect.ok := by unfold Exn.ok; decide
@[simp] theorem segFault_ok (sr : SReg) : (segFault sr).ok := by unfold segFault; split <;> simp

@[simp] theorem calm_raise {e : Exn} (h : e.ok) : Calm (raise e : M α) := fun s => ⟨CalmRel.refl s, h⟩
@[simp] theorem calm_refuse (r : Refusal) : Calm (refuse r : M α) := fun s => ⟨CalmRel.refl s, trivial⟩
@[simp] theorem calm_stopFault (f : Fault) : Calm (stopFault f : M α) := fun s => ⟨CalmRel.refl s, trivial⟩

@[simp] theorem calm_raiseIf {c : Bool} {e : Exn} (h : e.ok) : Calm (raiseIf c e) := by
  intro s
  cases c
  · exact CalmRel.refl s
  · exact ⟨CalmRel.refl s, h⟩

/-- Free values are drawn without touching anything else. -/
theorem calmRel_draws (s : State) (n : Nat) : CalmRel s { s with draws := n } := ⟨rfl, rfl, id, id, id, id, id⟩

@[simp] theorem calm_freeDword : Calm freeDword := fun s => calmRel_draws s _
@[simp] theorem calm_freeBit : Calm freeBit := fun s => calmRel_draws s _
@[simp] theorem calm_freeAt (sz : Size) : Calm (freeAt sz) := fun s => calmRel_draws s _
@[simp] theorem calm_freeUpper (w : Word) : Calm (freeUpper w) := fun s => calmRel_draws s _

/-! Memory accesses. -/

@[simp] theorem calm_walk (w u : Bool) (l : Dword) : Calm (walk w u l) := by
  intro s
  unfold walk
  simp only
  split
  · exact ⟨CalmRel.refl s, trivial⟩
  split
  · exact ⟨CalmRel.refl s, by simp [Stop.ok]⟩
  · split
    · exact ⟨CalmRel.refl s, by simp [Stop.ok]⟩
    · exact ⟨rfl, rfl, id, fun h => State.setPhysDword_wf (State.setPhysDword_wf h _ _) _ _, id, id, id⟩

@[simp] theorem calm_useEntry (e : TlbEntry) (w u : Bool) (l : Dword) : Calm (useEntry e w u l) := by
  intro s
  unfold useEntry
  split
  · exact CalmRel.refl s
  · exact ⟨CalmRel.refl s, by simp [Stop.ok]⟩

@[simp] theorem calm_translate (w u : Bool) (l : Dword) : Calm (translate w u l) := by
  intro s
  unfold translate
  split
  · exact CalmRel.refl s
  · split
    · exact calm_walk w u l s
    · split
      · exact calm_walk w u l s
      · split
        · exact calm_useEntry _ w u l s
        · split
          · exact CalmOut.mono (calmRel_draws s _) (calm_useEntry _ w u l _)
          · exact CalmOut.mono (calmRel_draws s _) (calm_walk w u l _)

@[simp] theorem calm_physRange (w u : Bool) (l : Dword) (n : Nat) : Calm (physRange w u l n) := by
  unfold physRange
  refine calm_bind (calm_translate _ _ _) fun p => ?_
  exact calm_ite (calm_pure _) (calm_bind (calm_translate _ _ _) fun q => calm_pure _)

theorem bitAt_masked {b : Bool} {n : Nat} (h : n < 4) : bitAt b n &&& ~~~dr6Mask = 0 := by
  unfold bitAt dr6Mask
  cases b
  · simp
  · interval_cases n <;> decide

theorem or_masked {a b m : Dword} (ha : a &&& m = 0) (hb : b &&& m = 0) : (a ||| b) &&& m = 0 := by
  rw [BitVec.and_comm, BitVec.and_or_distrib_left, BitVec.and_comm m a, BitVec.and_comm m b, ha, hb]; rfl

@[simp] theorem calm_noteAccess (w : Bool) (l : Dword) (n : Nat) : Calm (noteAccess w l n) := by
  intro s
  unfold noteAccess
  split
  · exact CalmRel.refl s
  · refine ⟨rfl, rfl, id, id, id, id, fun h => ?_⟩
    exact or_masked (or_masked (or_masked (or_masked h (bitAt_masked (by omega))) (bitAt_masked (by omega)))
      (bitAt_masked (by omega))) (bitAt_masked (by omega))

theorem calmRel_storePhys (s : State) (as : List Dword) (bs : List Byte) : CalmRel s (s.storePhys as bs) :=
  ⟨rfl, rfl, id, fun h => State.storePhys_wf h as bs, id, id, id⟩

@[simp] theorem calm_readPhys (as : List Dword) : Calm (readPhys as) := by
  intro s
  unfold readPhys
  split
  · exact ⟨CalmRel.refl s, trivial⟩
  · split
    · exact ⟨rfl, rfl, id, id, id, id, id⟩
    · exact CalmRel.refl s

@[simp] theorem calm_writePhys (as : List Dword) (bs : List Byte) : Calm (writePhys as bs) := by
  intro s
  unfold writePhys
  split
  · exact ⟨CalmRel.refl s, trivial⟩
  · split
    · exact CalmRel.trans (t := s.noteCycles _ _ _) ⟨rfl, rfl, id, id, id, id, id⟩ (calmRel_storePhys _ as bs)
    · exact calmRel_storePhys s as bs

@[simp] theorem calm_readLinear (u : Bool) (l : Dword) (n : Nat) : Calm (readLinear u l n) :=
  calm_bind (calm_physRange _ _ _ _) fun _ => calm_bind (calm_noteAccess _ _ _) fun _ => calm_readPhys _

@[simp] theorem calm_writeLinear (u : Bool) (l : Dword) (bs : List Byte) : Calm (writeLinear u l bs) :=
  calm_bind (calm_physRange _ _ _ _) fun _ => calm_bind (calm_noteAccess _ _ _) fun _ => calm_writePhys _ _

@[simp] theorem calm_sysRead (l : Dword) (sz : Size) : Calm (sysRead l sz) :=
  calm_bind (calm_readLinear _ _ _) fun _ => calm_pure _

@[simp] theorem calm_sysWrite (l : Dword) (sz : Size) (v : Dword) : Calm (sysWrite l sz v) := calm_writeLinear _ _ _

@[simp] theorem calm_segCheck (sr : SReg) (off : Dword) (n : Nat) (w : Bool) : Calm (segCheck sr off n w) := by
  intro s
  unfold segCheck
  split
  · exact CalmRel.refl s
  · exact ⟨CalmRel.refl s, by simp [Stop.ok]⟩

@[simp] theorem calm_memRead (sr : SReg) (off : Dword) (sz : Size) : Calm (memRead sr off sz) :=
  calm_bind (calm_segCheck _ _ _ _) fun _ => calm_bind calm_get fun _ => calm_bind (calm_readLinear _ _ _) fun _ =>
    calm_pure _

@[simp] theorem calm_memWrite (sr : SReg) (off : Dword) (sz : Size) (v : Dword) : Calm (memWrite sr off sz v) :=
  calm_bind (calm_segCheck _ _ _ _) fun _ => calm_bind calm_get fun _ => calm_writeLinear _ _ _

/-! Registers, segments, the stack. The updates are chained: what is calm so far stays so. -/

@[simp] theorem calmRel_setReg {s t : State} (h : CalmRel s t) (sz : Size) (r : Reg) (v : Dword) :
    CalmRel s (t.setReg sz r v) := h.trans ⟨rfl, rfl, id, id, id, id, id⟩

@[simp] theorem calmRel_setSeg {s t : State} (h : CalmRel s t) (sr : SReg) (c : SegReg) : CalmRel s (t.setSeg sr c) :=
  h.trans (by cases sr <;> exact ⟨rfl, rfl, id, id, id, id, id⟩)

@[simp] theorem calmRel_setSp {s t : State} (h : CalmRel s t) (v : Dword) : CalmRel s (t.setSp v) := calmRel_setReg h _ _ v

@[simp] theorem calmRel_jumpTo {s t : State} (h : CalmRel s t) (v : Dword) : CalmRel s (t.jumpTo v) :=
  h.trans ⟨rfl, rfl, id, id, id, id, id⟩

/-- A change of EFLAGS that does not set VM. -/
theorem calmRel_setFlags {s t : State} (h : CalmRel s t) {f : Eflags} (hf : f.vm = true → t.eflags.vm = true) :
    CalmRel s (t.setFlags f) := h.trans ⟨rfl, rfl, hf, id, id, id, id⟩

@[simp] theorem calmRel_load8086 {s t : State} (h : CalmRel s t) (sr : SReg) (v : Word) : CalmRel s (t.load8086 sr v) := by
  unfold State.load8086
  simp only
  split <;> exact calmRel_setSeg h _ _

@[simp] theorem calmRel_loadNull {s t : State} (h : CalmRel s t) (sr : SReg) (v : Word) : CalmRel s (t.loadNull sr v) :=
  calmRel_setSeg h _ _

@[simp] theorem calm_readDescriptorAt (l : Dword) : Calm (readDescriptorAt l) :=
  calm_bind (calm_readLinear _ _ _) fun _ => calm_pure _

@[simp] theorem calm_readDescriptor {sel : Word} {e : Exn} (h : e.ok) : Calm (readDescriptor sel e) :=
  calm_bind calm_get fun _ => calm_bind (calm_raiseIf h) fun _ => calm_readDescriptorAt _

@[simp] theorem calm_setAccessed (sel : Word) (d : Descriptor) : Calm (setAccessed sel d) :=
  calm_bind calm_get fun _ => calm_ite (calm_pure _) (calm_sysWrite _ _ _)

@[simp] theorem calm_writeBusy (sel : Word) (d : Descriptor) (b : Bool) : Calm (writeBusy sel d b) :=
  calm_bind calm_get fun _ => calm_sysWrite _ _ _

@[simp] theorem calm_setSegReg (sr : SReg) (c : SegReg) : Calm (setSegReg sr c) := calm_modify fun s => calmRel_setSeg (.refl s) _ _

@[simp] theorem calm_loadStackSegment {cpl : BitVec 2} {sel : Word} {a b c : Exn} (ha : a.ok) (hb : b.ok) (hc : c.ok) :
    Calm (loadStackSegment cpl sel a b c) :=
  calm_bind (calm_raiseIf ha) fun _ => calm_bind (calm_readDescriptor hb) fun _ => calm_bind (calm_raiseIf hb) fun _ =>
    calm_bind (calm_raiseIf hc) fun _ => calm_pure _

@[simp] theorem calm_loadDataSegment {cpl : BitVec 2} {sel : Word} {b c : Exn} (hb : b.ok) (hc : c.ok) :
    Calm (loadDataSegment cpl sel b c) :=
  calm_bind (calm_readDescriptor hb) fun _ => calm_bind (calm_raiseIf hb) fun _ => calm_bind (calm_raiseIf hb) fun _ =>
    calm_bind (calm_raiseIf hc) fun _ => calm_pure _

@[simp] theorem calm_loadSegProtected (sr : SReg) (sel : Word) : Calm (loadSegProtected sr sel) := by
  unfold loadSegProtected
  refine calm_bind calm_get fun s => ?_
  refine calm_ite ?_ (calm_ite (calm_modify fun s => calmRel_loadNull (.refl s) _ _) ?_)
  · exact calm_bind (calm_loadStackSegment (by simp) (by simp) (by simp)) fun d =>
      calm_bind (calm_setAccessed _ _) fun _ => calm_setSegReg _ _
  · exact calm_bind (calm_loadDataSegment (by simp) (by simp)) fun d =>
      calm_bind (calm_setAccessed _ _) fun _ => calm_setSegReg _ _

@[simp] theorem calm_loadSeg (sr : SReg) (sel : Word) : Calm (loadSeg sr sel) :=
  calm_bind calm_get fun _ => calm_ite (calm_loadSegProtected _ _) (calm_modify fun s => calmRel_load8086 (.refl s) _ _)

@[simp] theorem calm_push (sz : Size) (v : Dword) : Calm (push sz v) :=
  calm_bind calm_get fun _ => calm_bind (calm_raiseIf (by simp)) fun _ =>
    calm_bind (calm_memWrite _ _ _ _) fun _ => calm_modify fun s => calmRel_setSp (.refl s) _

@[simp] theorem calm_pop (sz : Size) : Calm (pop sz) :=
  calm_bind calm_get fun _ => calm_bind (calm_memRead _ _ _) fun _ =>
    calm_bind (calm_modify fun s => calmRel_setSp (.refl s) _) fun _ => calm_pure _

@[simp] theorem calm_checkStackTop (n : Nat) : Calm (checkStackTop n) := calm_bind calm_get fun _ => calm_segCheck _ _ _ _

@[simp] theorem calm_stackAt (k : Nat) (sz : Size) : Calm (stackAt k sz) := calm_bind calm_get fun _ => calm_memRead _ _ _

@[simp] theorem calm_checkRoom (sz : Size) (n : Nat) : Calm (checkRoom sz n) := by
  intro s
  unfold checkRoom
  split
  · exact CalmRel.refl s
  · exact ⟨CalmRel.refl s, by simp [Stop.ok]⟩

@[simp] theorem calm_pushAll (sz : Size) (vs : List Dword) : Calm (pushAll sz vs) := by
  induction vs with
  | nil => exact calm_pure _
  | cons v vs ih => exact calm_bind (calm_push _ _) fun _ => ih

theorem calmRel_spoil (s : State) (sp : Dword) (n : Nat) : CalmRel s (s.spoil sp n) := by
  induction n generalizing s with
  | zero => exact CalmRel.refl s
  | succ n ih =>
    unfold State.spoil
    simp only
    split
    · refine CalmRel.trans ?_ (ih _)
      exact ⟨rfl, rfl, id, fun h => writeCell_wf h _ _, id, id, id⟩
    · exact ih s

@[simp] theorem calm_spoiling {n : Nat} {m : M α} (h : Calm m) : Calm (spoiling n m) := by
  intro s
  have hs := h s
  unfold spoiling
  cases he : m s with
  | ok a s' => rw [he] at hs; exact hs
  | error e s' =>
    rw [he] at hs
    split
    · next h => cases h
    · next h =>
      cases h
      split
      · exact hs
      · refine ⟨CalmRel.trans (t := { s with draws := s'.draws, deviceBus := s'.deviceBus }) ?_ (calmRel_spoil _ _ _), hs.2⟩
        exact ⟨rfl, rfl, id, id, id, id, id⟩
    · next h => cases h; exact hs

@[simp] theorem calm_nearTarget (v : Dword) : Calm (nearTarget v) :=
  calm_bind calm_get fun _ => calm_raiseIf (by simp)

@[simp] theorem calm_setCodeSegment (c : SegReg) (v : Dword) : Calm (setCodeSegment c v) :=
  calm_modify fun s => calmRel_jumpTo (calmRel_setSeg (.refl s) _ _) _

@[simp] theorem calm_setCpl (l : BitVec 2) : Calm (setCpl l) := calm_modify fun _ => ⟨rfl, rfl, id, id, id, id, id⟩

@[simp] theorem calm_tssField (off : Dword) (sz : Size) (x : Bool) : Calm (tssField off sz x) :=
  calm_bind calm_get fun _ => calm_bind (calm_raiseIf (by simp)) fun _ => calm_sysRead _ _

@[simp] theorem calm_innerStack (l : BitVec 2) (x : Bool) : Calm (innerStack l x) := by
  unfold innerStack
  refine calm_bind calm_get fun s => ?_
  simp only
  split <;> refine calm_bind (calm_tssField _ _ _) fun _ => calm_bind (calm_tssField _ _ _) fun _ => ?_ <;>
    exact calm_bind (calm_loadStackSegment (by simp) (by simp) (by simp)) fun _ => calm_pure _

@[simp] theorem calm_switchStack (sel : Word) (sp : Dword) (d : Descriptor) : Calm (switchStack sel sp d) :=
  calm_modify fun s => calmRel_setReg (calmRel_setSeg (.refl s) _ _) _ _ _

end Sys2Proof.Machine
end

