-- ==== Sys2Proof/Laws/Coprocessor.lean ====
section
/-! SUPPORT. What the transfers of a coprocessor operand can do, those of an ESC and those that are asked for while later
instructions run (47_processor_control.md R610, 70_reset_and_hazards.md R782). -/

namespace Sys2Proof.Machine

variable {α : Type}

@[simp] theorem calm_modify_copMoved (o : CopOperand) (k : Nat) : Calm (modify fun s => s.copMoved o k) :=
  calm_modify fun _ => ⟨rfl, rfl, id, id, id, id, id⟩

@[simp] theorem calm_logCycles (cs : List BusCycle) : Calm (logCycles cs) :=
  calm_modify fun _ => ⟨rfl, rfl, id, id, id, id, id⟩

@[simp] theorem calm_copBytes (data : List Byte) (k n : Nat) : Calm (copBytes data k n) := by
  induction n generalizing k with
  | zero => exact calm_pure _
  | succ n ih => exact calm_bind calm_freeDword fun _ => calm_bind (ih _) fun _ => calm_pure _

@[simp] theorem calm_readCop (data : List Byte) (k n : Nat) : Calm (readCop data k n) :=
  calm_bind calm_get fun _ => calm_bind (calm_logCycles _) fun _ => calm_copBytes _ _ _

@[simp] theorem calm_writeCop (bs : List Byte) : Calm (writeCop bs) :=
  calm_bind calm_get fun _ => calm_bind (calm_copBytes _ _ _) fun _ => calm_logCycles _

@[simp] theorem calm_transferUnit (r : CopRequest) (o : CopOperand) (k n : Nat) : Calm (transferUnit r o k n) := by
  unfold transferUnit
  refine calm_bind (calm_raiseIf (segFault_ok _)) fun _ => calm_bind (calm_physRange _ _ _ _) fun as => ?_
  split
  · exact calm_bind (calm_readCop _ _ _) fun _ => calm_bind (calm_noteAccess _ _ _) fun _ =>
      calm_bind (calm_writePhys _ _) fun _ => calm_modify_copMoved _ _
  · exact calm_bind (calm_noteAccess _ _ _) fun _ => calm_bind (calm_readPhys _) fun _ =>
      calm_bind (calm_writeCop _) fun _ => calm_modify_copMoved _ _

@[simp] theorem calm_transferRest (r : CopRequest) (o : CopOperand) (unit fuel k : Nat) :
    Calm (transferRest r o unit fuel k) := by
  induction fuel generalizing k with
  | zero => exact calm_pure _
  | succ n ih => exact calm_ite (calm_pure _) (calm_bind (calm_transferUnit _ _ _ _) fun _ => ih _)

/-- A fault part-way is exception 9 and nothing else, and the operand is then dead. -/
theorem overrunning_cases (m : M Unit) (s : State) :
    (∃ t, m s = .ok () t ∧ overrunning m s = .ok () t) ∨
    (∃ e k t, m s = .error (.exn e k) t ∧ overrunning m s = .error (.exn Exn.overrun .memory) t.endTransfers) ∨
    (∃ e t, (∀ x k, e ≠ .exn x k) ∧ m s = .error e t ∧ overrunning m s = .error e t) := by
  unfold overrunning
  cases h : m s with
  | ok a t => exact .inl ⟨t, rfl, rfl⟩
  | error e t =>
    cases e with
    | exn e k => exact .inr (.inl ⟨e, k, t, rfl, rfl⟩)
    | fault f => exact .inr (.inr ⟨_, t, by simp, rfl, rfl⟩)
    | refuse r => exact .inr (.inr ⟨_, t, by simp, rfl, rfl⟩)

@[simp] theorem calm_overrunning {m : M Unit} (h : Calm m) : Calm (overrunning m) := by
  intro s
  have hs := h s
  rcases overrunning_cases m s with ⟨t, hm, ho⟩ | ⟨e, k, t, hm, ho⟩ | ⟨e, t, -, hm, ho⟩
  · rw [hm] at hs; rw [ho]; exact hs
  · rw [hm] at hs; rw [ho]
    exact ⟨hs.1.trans ⟨rfl, rfl, id, id, id, id, id⟩, by simp [Stop.ok, Exn.ok, Exn.overrun, Exn.fault]⟩
  · rw [hm] at hs; rw [ho]; exact hs

/-- The transfers of a step between instructions. -/
@[simp] theorem calm_transferMore : Calm transferMore := by
  unfold transferMore
  refine calm_bind calm_get fun s => ?_
  split
  · exact calm_pure _
  · exact calm_overrunning (calm_transferRest _ _ _ _ _)

/-- It serves the transfers, or it stops in the state in which it waits. -/
theorem serveOrHang_cases (hangs : Bool) (op : Word) (r : CopRequest) (s : State) :
    (hangs = false ∧ serveOrHang hangs op r s = serveTransfers op r s) ∨
    (hangs = true ∧ serveOrHang hangs op r s = .error (.fault (.noPereq s)) s) := by
  cases hangs
  · exact .inl ⟨rfl, rfl⟩
  · exact .inr ⟨rfl, rfl⟩

/-- With a coprocessor no opcode waits for ever. -/
theorem State.not_hangs {s : State} (h : s.params.coprocessor ≠ .none) (ttt lll : BitVec 3) (rm : RM) :
    s.hangs ttt lll rm = false := by
  simp [State.hangs, h]

/-- An opcode without a memory operand does not wait. -/
@[simp] theorem State.hangs_reg (s : State) (ttt lll : BitVec 3) (r : Reg) : s.hangs ttt lll (.reg r) = false := by
  simp [State.hangs, RM.isMem]

/-- A transfer leaves the held operand as it was but for how much of it has been moved. -/
theorem transferUnit_moved {r : CopRequest} {o : CopOperand} {k n : Nat} {s t : State}
    (h : transferUnit r o k n s = .ok () t) : t.copOperand = some { o with moved := k + n } := by
  unfold transferUnit at h
  obtain ⟨_, s1, -, h⟩ := run_bind_eq_ok.1 h
  obtain ⟨as, s2, -, h⟩ := run_bind_eq_ok.1 h
  split at h
  · obtain ⟨_, s3, -, h⟩ := run_bind_eq_ok.1 h
    obtain ⟨_, s4, -, h⟩ := run_bind_eq_ok.1 h
    obtain ⟨_, s5, -, h⟩ := run_bind_eq_ok.1 h
    cases h
    rfl
  · obtain ⟨_, s3, -, h⟩ := run_bind_eq_ok.1 h
    obtain ⟨_, s4, -, h⟩ := run_bind_eq_ok.1 h
    obtain ⟨_, s5, -, h⟩ := run_bind_eq_ok.1 h
    cases h
    rfl

end Sys2Proof.Machine
end

