-- ==== Sys2Proof/Laws/PerInstr.lean ====
section
/-! SUPPORT. What is true of each instruction as syntax: its encoding has 1 to 12 bytes, so that with up to three prefixes
it fits the 15 bytes that the fetch reads (30_encoding.md R222). -/

set_option linter.unusedSimpArgs false

namespace Sys2Proof.Laws.Encoding

/-- The encoding of an instruction has at least 1 byte and at most 12. -/
def Statement (i : Instr) : Prop := 1 ≤ (encode i).length ∧ (encode i).length ≤ 12

@[simp] theorem encodeWord_length (v : Word) : (encodeWord v).length = 2 := rfl

@[simp] theorem encodeDword_length (v : Dword) : (encodeDword v).length = 4 := rfl

theorem imm_length (i : Imm) : i.encode.length ≤ 4 := by cases i <;> simp [Imm.encode]

theorem off_length (o : Off) : o.encode.length ≤ 4 := by cases o <;> simp [Off.encode]

theorem disp16_length (d : Disp16) : d.encode.length ≤ 2 := by cases d <;> simp [Disp16.encode]

theorem disp32_length (d : Disp32) : d.encode.length ≤ 4 := by cases d <;> simp [Disp32.encode]

theorem of_eq {i : Instr} {l : List Byte} (h : encode i = l) (k : 1 ≤ l.length ∧ l.length ≤ 12) : Statement i := by
  unfold Statement; rwa [h]

theorem mem_length (b : BitVec 3) (m : MemOp) : (m.encode b).length ≤ 6 := by
  cases m <;> simp [MemOp.encode]
  case a16 d => have := disp16_length d; omega
  case a32 d => have := disp32_length d; omega
  case sib d => have := disp32_length d; omega

theorem rm_length (b : BitVec 3) (rm : RM) : (rm.encode b).length ≤ 6 := by
  cases rm with
  | reg r => simp [RM.encode]
  | mem m => exact mem_length b m

theorem addrsize : Statement .addrsize := of_eq (l := [0x67]) rfl (by simp)
theorem lock : Statement .lock := of_eq (l := [0xF0]) rfl (by simp)
theorem opsize : Statement .opsize := of_eq (l := [0x66]) rfl (by simp)
theorem segCs : Statement .segCs := of_eq (l := [0x2E]) rfl (by simp)
theorem segDs : Statement .segDs := of_eq (l := [0x3E]) rfl (by simp)
theorem segEs : Statement .segEs := of_eq (l := [0x26]) rfl (by simp)
theorem segFs : Statement .segFs := of_eq (l := [0x64]) rfl (by simp)
theorem segGs : Statement .segGs := of_eq (l := [0x65]) rfl (by simp)
theorem segSs : Statement .segSs := of_eq (l := [0x36]) rfl (by simp)
theorem repneRep : Statement .repneRep := of_eq (l := [0xF2]) rfl (by simp)
theorem repeRep : Statement .repeRep := of_eq (l := [0xF3]) rfl (by simp)
theorem movRmReg (w : Width) (reg : Reg) (rm : RM) : Statement (.movRmReg w reg rm) :=
  of_eq (l := (0x88 ||| w.bit) :: rm.encode reg.toBits) rfl
    (by have h := rm_length reg.toBits rm; simp only [List.length_cons, List.length_append, List.length_nil, encodeWord_length, encodeDword_length]; omega)
theorem movRegRm (w : Width) (reg : Reg) (rm : RM) : Statement (.movRegRm w reg rm) :=
  of_eq (l := (0x8A ||| w.bit) :: rm.encode reg.toBits) rfl
    (by have h := rm_length reg.toBits rm; simp only [List.length_cons, List.length_append, List.length_nil, encodeWord_length, encodeDword_length]; omega)
theorem movRmImm (w : Width) (rm : RM) (imm : Imm) : Statement (.movRmImm w rm imm) :=
  of_eq (l := (0xC6 ||| w.bit) :: (rm.encode 0 ++ imm.encode)) rfl
    (by have h := rm_length 0 rm; have k := imm_length imm; simp only [List.length_cons, List.length_append, List.length_nil, encodeWord_length, encodeDword_length]; omega)
theorem movRegImm (w : Width) (reg : Reg) (imm : Imm) : Statement (.movRegImm w reg imm) :=
  of_eq (l := (0xB0 ||| (w.bit <<< 3) ||| reg.low) :: imm.encode) rfl
    (by have h := imm_length imm; simp only [List.length_cons, List.length_append, List.length_nil, encodeWord_length, encodeDword_length]; omega)
theorem movAccMem (w : Width) (off : Off) : Statement (.movAccMem w off) :=
  of_eq (l := (0xA0 ||| w.bit) :: off.encode) rfl
    (by have h := off_length off; simp only [List.length_cons, List.length_append, List.length_nil, encodeWord_length, encodeDword_length]; omega)
theorem movMemAcc (w : Width) (off : Off) : Statement (.movMemAcc w off) :=
  of_eq (l := (0xA2 ||| w.bit) :: off.encode) rfl
    (by have h := off_length off; simp only [List.length_cons, List.length_append, List.length_nil, encodeWord_length, encodeDword_length]; omega)
theorem movSregRm (sr : SReg) (rm : RM) : Statement (.movSregRm sr rm) :=
  of_eq (l := 0x8E :: rm.encode sr.toBits) rfl
    (by have h := rm_length sr.toBits rm; simp only [List.length_cons, List.length_append, List.length_nil, encodeWord_length, encodeDword_length]; omega)
theorem movRmSreg (sr : SReg) (rm : RM) : Statement (.movRmSreg sr rm) :=
  of_eq (l := 0x8C :: rm.encode sr.toBits) rfl
    (by have h := rm_length sr.toBits rm; simp only [List.length_cons, List.length_append, List.length_nil, encodeWord_length, encodeDword_length]; omega)
theorem movsx (w : Width) (reg : Reg) (rm : RM) : Statement (.movsx w reg rm) :=
  of_eq (l := 0x0F :: (0xBE ||| w.bit) :: rm.encode reg.toBits) rfl
    (by have h := rm_length reg.toBits rm; simp only [List.length_cons, List.length_append, List.length_nil, encodeWord_length, encodeDword_length]; omega)
theorem movzx (w : Width) (reg : Reg) (rm : RM) : Statement (.movzx w reg rm) :=
  of_eq (l := 0x0F :: (0xB6 ||| w.bit) :: rm.encode reg.toBits) rfl
    (by have h := rm_length reg.toBits rm; simp only [List.length_cons, List.length_append, List.length_nil, encodeWord_length, encodeDword_length]; omega)
theorem pushRm (rm : RM) : Statement (.pushRm rm) :=
  of_eq (l := 0xFF :: rm.encode 6) rfl
    (by have h := rm_length 6 rm; simp only [List.length_cons, List.length_append, List.length_nil, encodeWord_length, encodeDword_length]; omega)
theorem pushReg (reg : Reg) : Statement (.pushReg reg) := of_eq (l := [(0x50 ||| reg.low)]) rfl (by simp)
theorem pushImm (imm : Imm) : Statement (.pushImm imm) :=
  of_eq (l := (0x68 ||| imm.sBit .full) :: imm.encode) rfl
    (by have h := imm_length imm; simp only [List.length_cons, List.length_append, List.length_nil, encodeWord_length, encodeDword_length]; omega)
theorem pushEs : Statement .pushEs := of_eq (l := [0x06]) rfl (by simp)
theorem pushCs : Statement .pushCs := of_eq (l := [0x0E]) rfl (by simp)
theorem pushSs : Statement .pushSs := of_eq (l := [0x16]) rfl (by simp)
theorem pushDs : Statement .pushDs := of_eq (l := [0x1E]) rfl (by simp)
theorem pushFs : Statement .pushFs := of_eq (l := [0x0F, 0xA0]) rfl (by simp)
theorem pushGs : Statement .pushGs := of_eq (l := [0x0F, 0xA8]) rfl (by simp)
theorem pusha : Statement .pusha := of_eq (l := [0x60]) rfl (by simp)
theorem popRm (rm : RM) : Statement (.popRm rm) :=
  of_eq (l := 0x8F :: rm.encode 0) rfl
    (by have h := rm_length 0 rm; simp only [List.length_cons, List.length_append, List.length_nil, encodeWord_length, encodeDword_length]; omega)
theorem popReg (reg : Reg) : Statement (.popReg reg) := of_eq (l := [(0x58 ||| reg.low)]) rfl (by simp)
theorem popEs : Statement .popEs := of_eq (l := [0x07]) rfl (by simp)
theorem popSs : Statement .popSs := of_eq (l := [0x17]) rfl (by simp)
theorem popDs : Statement .popDs := of_eq (l := [0x1F]) rfl (by simp)
theorem popFs : Statement .popFs := of_eq (l := [0x0F, 0xA1]) rfl (by simp)
theorem popGs : Statement .popGs := of_eq (l := [0x0F, 0xA9]) rfl (by simp)
theorem popa : Statement .popa := of_eq (l := [0x61]) rfl (by simp)
theorem xchgRmReg (w : Width) (reg : Reg) (rm : RM) : Statement (.xchgRmReg w reg rm) :=
  of_eq (l := (0x86 ||| w.bit) :: rm.encode reg.toBits) rfl
    (by have h := rm_length reg.toBits rm; simp only [List.length_cons, List.length_append, List.length_nil, encodeWord_length, encodeDword_length]; omega)
theorem xchgAccReg (reg : Reg) : Statement (.xchgAccReg reg) := of_eq (l := [(0x90 ||| reg.low)]) rfl (by simp)
theorem inImm (w : Width) (port : BitVec 8) : Statement (.inImm w port) := of_eq (l := (0xE4 ||| w.bit) :: [port]) rfl (by simp)
theorem inDx (w : Width) : Statement (.inDx w) := of_eq (l := [(0xEC ||| w.bit)]) rfl (by simp)
theorem outImm (w : Width) (port : BitVec 8) : Statement (.outImm w port) := of_eq (l := (0xE6 ||| w.bit) :: [port]) rfl (by simp)
theorem outDx (w : Width) : Statement (.outDx w) := of_eq (l := [(0xEE ||| w.bit)]) rfl (by simp)
theorem lea (reg : Reg) (m : MemOp) : Statement (.lea reg m) :=
  of_eq (l := 0x8D :: m.encode reg.toBits) rfl
    (by have h := mem_length reg.toBits m; simp only [List.length_cons, List.length_append, List.length_nil, encodeWord_length, encodeDword_length]; omega)
theorem lds (reg : Reg) (m : MemOp) : Statement (.lds reg m) :=
  of_eq (l := 0xC5 :: m.encode reg.toBits) rfl
    (by have h := mem_length reg.toBits m; simp only [List.length_cons, List.length_append, List.length_nil, encodeWord_length, encodeDword_length]; omega)
theorem les (reg : Reg) (m : MemOp) : Statement (.les reg m) :=
  of_eq (l := 0xC4 :: m.encode reg.toBits) rfl
    (by have h := mem_length reg.toBits m; simp only [List.length_cons, List.length_append, List.length_nil, encodeWord_length, encodeDword_length]; omega)
theorem lfs (reg : Reg) (m : MemOp) : Statement (.lfs reg m) :=
  of_eq (l := 0x0F :: 0xB4 :: m.encode reg.toBits) rfl
    (by have h := mem_length reg.toBits m; simp only [List.length_cons, List.length_append, List.length_nil, encodeWord_length, encodeDword_length]; omega)
theorem lgs (reg : Reg) (m : MemOp) : Statement (.lgs reg m) :=
  of_eq (l := 0x0F :: 0xB5 :: m.encode reg.toBits) rfl
    (by have h := mem_length reg.toBits m; simp only [List.length_cons, List.length_append, List.length_nil, encodeWord_length, encodeDword_length]; omega)
theorem lss (reg : Reg) (m : MemOp) : Statement (.lss reg m) :=
  of_eq (l := 0x0F :: 0xB2 :: m.encode reg.toBits) rfl
    (by have h := mem_length reg.toBits m; simp only [List.length_cons, List.length_append, List.length_nil, encodeWord_length, encodeDword_length]; omega)
theorem clc : Statement .clc := of_eq (l := [0xF8]) rfl (by simp)
theorem cld : Statement .cld := of_eq (l := [0xFC]) rfl (by simp)
theorem cli : Statement .cli := of_eq (l := [0xFA]) rfl (by simp)
theorem cmc : Statement .cmc := of_eq (l := [0xF5]) rfl (by simp)
theorem lahf : Statement .lahf := of_eq (l := [0x9F]) rfl (by simp)
theorem popf : Statement .popf := of_eq (l := [0x9D]) rfl (by simp)
theorem pushf : Statement .pushf := of_eq (l := [0x9C]) rfl (by simp)
theorem sahf : Statement .sahf := of_eq (l := [0x9E]) rfl (by simp)
theorem stc : Statement .stc := of_eq (l := [0xF9]) rfl (by simp)
theorem std : Statement .std := of_eq (l := [0xFD]) rfl (by simp)
theorem sti : Statement .sti := of_eq (l := [0xFB]) rfl (by simp)
theorem clts : Statement .clts := of_eq (l := [0x0F, 0x06]) rfl (by simp)
theorem addRegRm (d : Dir) (w : Width) (reg : Reg) (rm : RM) : Statement (.addRegRm d w reg rm) :=
  of_eq (l := (0x00 ||| d.bit ||| w.bit) :: rm.encode reg.toBits) rfl
    (by have h := rm_length reg.toBits rm; simp only [List.length_cons, List.length_append, List.length_nil, encodeWord_length, encodeDword_length]; omega)
theorem addRmImm (w : Width) (rm : RM) (imm : Imm) : Statement (.addRmImm w rm imm) :=
  of_eq (l := (0x80 ||| imm.sBit w ||| w.bit) :: (rm.encode 0 ++ imm.encode)) rfl
    (by have h := rm_length 0 rm; have k := imm_length imm; simp only [List.length_cons, List.length_append, List.length_nil, encodeWord_length, encodeDword_length]; omega)
theorem addAccImm (w : Width) (imm : Imm) : Statement (.addAccImm w imm) :=
  of_eq (l := (0x04 ||| w.bit) :: imm.encode) rfl
    (by have h := imm_length imm; simp only [List.length_cons, List.length_append, List.length_nil, encodeWord_length, encodeDword_length]; omega)
theorem adcRegRm (d : Dir) (w : Width) (reg : Reg) (rm : RM) : Statement (.adcRegRm d w reg rm) :=
  of_eq (l := (0x10 ||| d.bit ||| w.bit) :: rm.encode reg.toBits) rfl
    (by have h := rm_length reg.toBits rm; simp only [List.length_cons, List.length_append, List.length_nil, encodeWord_length, encodeDword_length]; omega)
theorem adcRmImm (w : Width) (rm : RM) (imm : Imm) : Statement (.adcRmImm w rm imm) :=
  of_eq (l := (0x80 ||| imm.sBit w ||| w.bit) :: (rm.encode 2 ++ imm.encode)) rfl
    (by have h := rm_length 2 rm; have k := imm_length imm; simp only [List.length_cons, List.length_append, List.length_nil, encodeWord_length, encodeDword_length]; omega)
theorem adcAccImm (w : Width) (imm : Imm) : Statement (.adcAccImm w imm) :=
  of_eq (l := (0x14 ||| w.bit) :: imm.encode) rfl
    (by have h := imm_length imm; simp only [List.length_cons, List.length_append, List.length_nil, encodeWord_length, encodeDword_length]; omega)
theorem incRm (w : Width) (rm : RM) : Statement (.incRm w rm) :=
  of_eq (l := (0xFE ||| w.bit) :: rm.encode 0) rfl
    (by have h := rm_length 0 rm; simp only [List.length_cons, List.length_append, List.length_nil, encodeWord_length, encodeDword_length]; omega)
theorem incReg (reg : Reg) : Statement (.incReg reg) := of_eq (l := [(0x40 ||| reg.low)]) rfl (by simp)
theorem subRegRm (d : Dir) (w : Width) (reg : Reg) (rm : RM) : Statement (.subRegRm d w reg rm) :=
  of_eq (l := (0x28 ||| d.bit ||| w.bit) :: rm.encode reg.toBits) rfl
    (by have h := rm_length reg.toBits rm; simp only [List.length_cons, List.length_append, List.length_nil, encodeWord_length, encodeDword_length]; omega)
theorem subRmImm (w : Width) (rm : RM) (imm : Imm) : Statement (.subRmImm w rm imm) :=
  of_eq (l := (0x80 ||| imm.sBit w ||| w.bit) :: (rm.encode 5 ++ imm.encode)) rfl
    (by have h := rm_length 5 rm; have k := imm_length imm; simp only [List.length_cons, List.length_append, List.length_nil, encodeWord_length, encodeDword_length]; omega)
theorem subAccImm (w : Width) (imm : Imm) : Statement (.subAccImm w imm) :=
  of_eq (l := (0x2C ||| w.bit) :: imm.encode) rfl
    (by have h := imm_length imm; simp only [List.length_cons, List.length_append, List.length_nil, encodeWord_length, encodeDword_length]; omega)
theorem sbbRegRm (d : Dir) (w : Width) (reg : Reg) (rm : RM) : Statement (.sbbRegRm d w reg rm) :=
  of_eq (l := (0x18 ||| d.bit ||| w.bit) :: rm.encode reg.toBits) rfl
    (by have h := rm_length reg.toBits rm; simp only [List.length_cons, List.length_append, List.length_nil, encodeWord_length, encodeDword_length]; omega)
theorem sbbRmImm (w : Width) (rm : RM) (imm : Imm) : Statement (.sbbRmImm w rm imm) :=
  of_eq (l := (0x80 ||| imm.sBit w ||| w.bit) :: (rm.encode 3 ++ imm.encode)) rfl
    (by have h := rm_length 3 rm; have k := imm_length imm; simp only [List.length_cons, List.length_append, List.length_nil, encodeWord_length, encodeDword_length]; omega)
theorem sbbAccImm (w : Width) (imm : Imm) : Statement (.sbbAccImm w imm) :=
  of_eq (l := (0x1C ||| w.bit) :: imm.encode) rfl
    (by have h := imm_length imm; simp only [List.length_cons, List.length_append, List.length_nil, encodeWord_length, encodeDword_length]; omega)
theorem decRm (w : Width) (rm : RM) : Statement (.decRm w rm) :=
  of_eq (l := (0xFE ||| w.bit) :: rm.encode 1) rfl
    (by have h := rm_length 1 rm; simp only [List.length_cons, List.length_append, List.length_nil, encodeWord_length, encodeDword_length]; omega)
theorem decReg (reg : Reg) : Statement (.decReg reg) := of_eq (l := [(0x48 ||| reg.low)]) rfl (by simp)
theorem cmpRegRm (d : Dir) (w : Width) (reg : Reg) (rm : RM) : Statement (.cmpRegRm d w reg rm) :=
  of_eq (l := (0x38 ||| d.bit ||| w.bit) :: rm.encode reg.toBits) rfl
    (by have h := rm_length reg.toBits rm; simp only [List.length_cons, List.length_append, List.length_nil, encodeWord_length, encodeDword_length]; omega)
theorem cmpRmImm (w : Width) (rm : RM) (imm : Imm) : Statement (.cmpRmImm w rm imm) :=
  of_eq (l := (0x80 ||| imm.sBit w ||| w.bit) :: (rm.encode 7 ++ imm.encode)) rfl
    (by have h := rm_length 7 rm; have k := imm_length imm; simp only [List.length_cons, List.length_append, List.length_nil, encodeWord_length, encodeDword_length]; omega)
theorem cmpAccImm (w : Width) (imm : Imm) : Statement (.cmpAccImm w imm) :=
  of_eq (l := (0x3C ||| w.bit) :: imm.encode) rfl
    (by have h := imm_length imm; simp only [List.length_cons, List.length_append, List.length_nil, encodeWord_length, encodeDword_length]; omega)
theorem neg (w : Width) (rm : RM) : Statement (.neg w rm) :=
  of_eq (l := (0xF6 ||| w.bit) :: rm.encode 3) rfl
    (by have h := rm_length 3 rm; simp only [List.length_cons, List.length_append, List.length_nil, encodeWord_length, encodeDword_length]; omega)
theorem aaa : Statement .aaa := of_eq (l := [0x37]) rfl (by simp)
theorem aas : Statement .aas := of_eq (l := [0x3F]) rfl (by simp)
theorem daa : Statement .daa := of_eq (l := [0x27]) rfl (by simp)
theorem das : Statement .das := of_eq (l := [0x2F]) rfl (by simp)
theorem mul (w : Width) (rm : RM) : Statement (.mul w rm) :=
  of_eq (l := (0xF6 ||| w.bit) :: rm.encode 4) rfl
    (by have h := rm_length 4 rm; simp only [List.length_cons, List.length_append, List.length_nil, encodeWord_length, encodeDword_length]; omega)
theorem imulAcc (w : Width) (rm : RM) : Statement (.imulAcc w rm) :=
  of_eq (l := (0xF6 ||| w.bit) :: rm.encode 5) rfl
    (by have h := rm_length 5 rm; simp only [List.length_cons, List.length_append, List.length_nil, encodeWord_length, encodeDword_length]; omega)
theorem imulReg (reg : Reg) (rm : RM) : Statement (.imulReg reg rm) :=
  of_eq (l := 0x0F :: 0xAF :: rm.encode reg.toBits) rfl
    (by have h := rm_length reg.toBits rm; simp only [List.length_cons, List.length_append, List.length_nil, encodeWord_length, encodeDword_length]; omega)
theorem imulImm (reg : Reg) (rm : RM) (imm : Imm) : Statement (.imulImm reg rm imm) :=
  of_eq (l := (0x69 ||| imm.sBit .full) :: (rm.encode reg.toBits ++ imm.encode)) rfl
    (by have h := rm_length reg.toBits rm; have k := imm_length imm; simp only [List.length_cons, List.length_append, List.length_nil, encodeWord_length, encodeDword_length]; omega)
theorem div (w : Width) (rm : RM) : Statement (.div w rm) :=
  of_eq (l := (0xF6 ||| w.bit) :: rm.encode 6) rfl
    (by have h := rm_length 6 rm; simp only [List.length_cons, List.length_append, List.length_nil, encodeWord_length, encodeDword_length]; omega)
theorem idiv (w : Width) (rm : RM) : Statement (.idiv w rm) :=
  of_eq (l := (0xF6 ||| w.bit) :: rm.encode 7) rfl
    (by have h := rm_length 7 rm; simp only [List.length_cons, List.length_append, List.length_nil, encodeWord_length, encodeDword_length]; omega)
theorem aad (base : BitVec 8) : Statement (.aad base) := of_eq (l := [0xD5, base]) rfl (by simp)
theorem aam (base : BitVec 8) : Statement (.aam base) := of_eq (l := [0xD4, base]) rfl (by simp)
theorem cbw : Statement .cbw := of_eq (l := [0x98]) rfl (by simp)
theorem cwd : Statement .cwd := of_eq (l := [0x99]) rfl (by simp)
theorem rolBy1 (w : Width) (rm : RM) : Statement (.rolBy1 w rm) :=
  of_eq (l := (0xD0 ||| w.bit) :: rm.encode 0) rfl
    (by have h := rm_length 0 rm; simp only [List.length_cons, List.length_append, List.length_nil, encodeWord_length, encodeDword_length]; omega)
theorem rolByCl (w : Width) (rm : RM) : Statement (.rolByCl w rm) :=
  of_eq (l := (0xD2 ||| w.bit) :: rm.encode 0) rfl
    (by have h := rm_length 0 rm; simp only [List.length_cons, List.length_append, List.length_nil, encodeWord_length, encodeDword_length]; omega)
theorem rolByImm (w : Width) (rm : RM) (count : BitVec 8) : Statement (.rolByImm w rm count) :=
  of_eq (l := (0xC0 ||| w.bit) :: (rm.encode 0 ++ [count])) rfl
    (by have h := rm_length 0 rm; simp only [List.length_cons, List.length_append, List.length_nil, encodeWord_length, encodeDword_length]; omega)
theorem rorBy1 (w : Width) (rm : RM) : Statement (.rorBy1 w rm) :=
  of_eq (l := (0xD0 ||| w.bit) :: rm.encode 1) rfl
    (by have h := rm_length 1 rm; simp only [List.length_cons, List.length_append, List.length_nil, encodeWord_length, encodeDword_length]; omega)
theorem rorByCl (w : Width) (rm : RM) : Statement (.rorByCl w rm) :=
  of_eq (l := (0xD2 ||| w.bit) :: rm.encode 1) rfl
    (by have h := rm_length 1 rm; simp only [List.length_cons, List.length_append, List.length_nil, encodeWord_length, encodeDword_length]; omega)
theorem rorByImm (w : Width) (rm : RM) (count : BitVec 8) : Statement (.rorByImm w rm count) :=
  of_eq (l := (0xC0 ||| w.bit) :: (rm.encode 1 ++ [count])) rfl
    (by have h := rm_length 1 rm; simp only [List.length_cons, List.length_append, List.length_nil, encodeWord_length, encodeDword_length]; omega)
theorem rclBy1 (w : Width) (rm : RM) : Statement (.rclBy1 w rm) :=
  of_eq (l := (0xD0 ||| w.bit) :: rm.encode 2) rfl
    (by have h := rm_length 2 rm; simp only [List.length_cons, List.length_append, List.length_nil, encodeWord_length, encodeDword_length]; omega)
theorem rclByCl (w : Width) (rm : RM) : Statement (.rclByCl w rm) :=
  of_eq (l := (0xD2 ||| w.bit) :: rm.encode 2) rfl
    (by have h := rm_length 2 rm; simp only [List.length_cons, List.length_append, List.length_nil, encodeWord_length, encodeDword_length]; omega)
theorem rclByImm (w : Width) (rm : RM) (count : BitVec 8) : Statement (.rclByImm w rm count) :=
  of_eq (l := (0xC0 ||| w.bit) :: (rm.encode 2 ++ [count])) rfl
    (by have h := rm_length 2 rm; simp only [List.length_cons, List.length_append, List.length_nil, encodeWord_length, encodeDword_length]; omega)
theorem rcrBy1 (w : Width) (rm : RM) : Statement (.rcrBy1 w rm) :=
  of_eq (l := (0xD0 ||| w.bit) :: rm.encode 3) rfl
    (by have h := rm_length 3 rm; simp only [List.length_cons, List.length_append, List.length_nil, encodeWord_length, encodeDword_length]; omega)
theorem rcrByCl (w : Width) (rm : RM) : Statement (.rcrByCl w rm) :=
  of_eq (l := (0xD2 ||| w.bit) :: rm.encode 3) rfl
    (by have h := rm_length 3 rm; simp only [List.length_cons, List.length_append, List.length_nil, encodeWord_length, encodeDword_length]; omega)
theorem rcrByImm (w : Width) (rm : RM) (count : BitVec 8) : Statement (.rcrByImm w rm count) :=
  of_eq (l := (0xC0 ||| w.bit) :: (rm.encode 3 ++ [count])) rfl
    (by have h := rm_length 3 rm; simp only [List.length_cons, List.length_append, List.length_nil, encodeWord_length, encodeDword_length]; omega)
theorem shlBy1 (w : Width) (rm : RM) : Statement (.shlBy1 w rm) :=
  of_eq (l := (0xD0 ||| w.bit) :: rm.encode 4) rfl
    (by have h := rm_length 4 rm; simp only [List.length_cons, List.length_append, List.length_nil, encodeWord_length, encodeDword_length]; omega)
theorem shlByCl (w : Width) (rm : RM) : Statement (.shlByCl w rm) :=
  of_eq (l := (0xD2 ||| w.bit) :: rm.encode 4) rfl
    (by have h := rm_length 4 rm; simp only [List.length_cons, List.length_append, List.length_nil, encodeWord_length, encodeDword_length]; omega)
theorem shlByImm (w : Width) (rm : RM) (count : BitVec 8) : Statement (.shlByImm w rm count) :=
  of_eq (l := (0xC0 ||| w.bit) :: (rm.encode 4 ++ [count])) rfl
    (by have h := rm_length 4 rm; simp only [List.length_cons, List.length_append, List.length_nil, encodeWord_length, encodeDword_length]; omega)
theorem shrBy1 (w : Width) (rm : RM) : Statement (.shrBy1 w rm) :=
  of_eq (l := (0xD0 ||| w.bit) :: rm.encode 5) rfl
    (by have h := rm_length 5 rm; simp only [List.length_cons, List.length_append, List.length_nil, encodeWord_length, encodeDword_length]; omega)
theorem shrByCl (w : Width) (rm : RM) : Statement (.shrByCl w rm) :=
  of_eq (l := (0xD2 ||| w.bit) :: rm.encode 5) rfl
    (by have h := rm_length 5 rm; simp only [List.length_cons, List.length_append, List.length_nil, encodeWord_length, encodeDword_length]; omega)
theorem shrByImm (w : Width) (rm : RM) (count : BitVec 8) : Statement (.shrByImm w rm count) :=
  of_eq (l := (0xC0 ||| w.bit) :: (rm.encode 5 ++ [count])) rfl
    (by have h := rm_length 5 rm; simp only [List.length_cons, List.length_append, List.length_nil, encodeWord_length, encodeDword_length]; omega)
theorem sarBy1 (w : Width) (rm : RM) : Statement (.sarBy1 w rm) :=
  of_eq (l := (0xD0 ||| w.bit) :: rm.encode 7) rfl
    (by have h := rm_length 7 rm; simp only [List.length_cons, List.length_append, List.length_nil, encodeWord_length, encodeDword_length]; omega)
theorem sarByCl (w : Width) (rm : RM) : Statement (.sarByCl w rm) :=
  of_eq (l := (0xD2 ||| w.bit) :: rm.encode 7) rfl
    (by have h := rm_length 7 rm; simp only [List.length_cons, List.length_append, List.length_nil, encodeWord_length, encodeDword_length]; omega)
theorem sarByImm (w : Width) (rm : RM) (count : BitVec 8) : Statement (.sarByImm w rm count) :=
  of_eq (l := (0xC0 ||| w.bit) :: (rm.encode 7 ++ [count])) rfl
    (by have h := rm_length 7 rm; simp only [List.length_cons, List.length_append, List.length_nil, encodeWord_length, encodeDword_length]; omega)
theorem shldImm (reg : Reg) (rm : RM) (count : BitVec 8) : Statement (.shldImm reg rm count) :=
  of_eq (l := 0x0F :: 0xA4 :: (rm.encode reg.toBits ++ [count])) rfl
    (by have h := rm_length reg.toBits rm; simp only [List.length_cons, List.length_append, List.length_nil, encodeWord_length, encodeDword_length]; omega)
theorem shldCl (reg : Reg) (rm : RM) : Statement (.shldCl reg rm) :=
  of_eq (l := 0x0F :: 0xA5 :: rm.encode reg.toBits) rfl
    (by have h := rm_length reg.toBits rm; simp only [List.length_cons, List.length_append, List.length_nil, encodeWord_length, encodeDword_length]; omega)
theorem shrdImm (reg : Reg) (rm : RM) (count : BitVec 8) : Statement (.shrdImm reg rm count) :=
  of_eq (l := 0x0F :: 0xAC :: (rm.encode reg.toBits ++ [count])) rfl
    (by have h := rm_length reg.toBits rm; simp only [List.length_cons, List.length_append, List.length_nil, encodeWord_length, encodeDword_length]; omega)
theorem shrdCl (reg : Reg) (rm : RM) : Statement (.shrdCl reg rm) :=
  of_eq (l := 0x0F :: 0xAD :: rm.encode reg.toBits) rfl
    (by have h := rm_length reg.toBits rm; simp only [List.length_cons, List.length_append, List.length_nil, encodeWord_length, encodeDword_length]; omega)
theorem andRegRm (d : Dir) (w : Width) (reg : Reg) (rm : RM) : Statement (.andRegRm d w reg rm) :=
  of_eq (l := (0x20 ||| d.bit ||| w.bit) :: rm.encode reg.toBits) rfl
    (by have h := rm_length reg.toBits rm; simp only [List.length_cons, List.length_append, List.length_nil, encodeWord_length, encodeDword_length]; omega)
theorem andRmImm (w : Width) (rm : RM) (imm : Imm) : Statement (.andRmImm w rm imm) :=
  of_eq (l := (0x80 ||| w.bit) :: (rm.encode 4 ++ imm.encode)) rfl
    (by have h := rm_length 4 rm; have k := imm_length imm; simp only [List.length_cons, List.length_append, List.length_nil, encodeWord_length, encodeDword_length]; omega)
theorem andRmImm8 (rm : RM) (imm8 : BitVec 8) : Statement (.andRmImm8 rm imm8) :=
  of_eq (l := 0x83 :: (rm.encode 4 ++ [imm8])) rfl
    (by have h := rm_length 4 rm; simp only [List.length_cons, List.length_append, List.length_nil, encodeWord_length, encodeDword_length]; omega)
theorem andAccImm (w : Width) (imm : Imm) : Statement (.andAccImm w imm) :=
  of_eq (l := (0x24 ||| w.bit) :: imm.encode) rfl
    (by have h := imm_length imm; simp only [List.length_cons, List.length_append, List.length_nil, encodeWord_length, encodeDword_length]; omega)
theorem testRmReg (w : Width) (reg : Reg) (rm : RM) : Statement (.testRmReg w reg rm) :=
  of_eq (l := (0x84 ||| w.bit) :: rm.encode reg.toBits) rfl
    (by have h := rm_length reg.toBits rm; simp only [List.length_cons, List.length_append, List.length_nil, encodeWord_length, encodeDword_length]; omega)
theorem testRmImm (w : Width) (rm : RM) (imm : Imm) : Statement (.testRmImm w rm imm) :=
  of_eq (l := (0xF6 ||| w.bit) :: (rm.encode 0 ++ imm.encode)) rfl
    (by have h := rm_length 0 rm; have k := imm_length imm; simp only [List.length_cons, List.length_append, List.length_nil, encodeWord_length, encodeDword_length]; omega)
theorem testAccImm (w : Width) (imm : Imm) : Statement (.testAccImm w imm) :=
  of_eq (l := (0xA8 ||| w.bit) :: imm.encode) rfl
    (by have h := imm_length imm; simp only [List.length_cons, List.length_append, List.length_nil, encodeWord_length, encodeDword_length]; omega)
theorem orRegRm (d : Dir) (w : Width) (reg : Reg) (rm : RM) : Statement (.orRegRm d w reg rm) :=
  of_eq (l := (0x08 ||| d.bit ||| w.bit) :: rm.encode reg.toBits) rfl
    (by have h := rm_length reg.toBits rm; simp only [List.length_cons, List.length_append, List.length_nil, encodeWord_length, encodeDword_length]; omega)
theorem orRmImm (w : Width) (rm : RM) (imm : Imm) : Statement (.orRmImm w rm imm) :=
  of_eq (l := (0x80 ||| w.bit) :: (rm.encode 1 ++ imm.encode)) rfl
    (by have h := rm_length 1 rm; have k := imm_length imm; simp only [List.length_cons, List.length_append, List.length_nil, encodeWord_length, encodeDword_length]; omega)
theorem orRmImm8 (rm : RM) (imm8 : BitVec 8) : Statement (.orRmImm8 rm imm8) :=
  of_eq (l := 0x83 :: (rm.encode 1 ++ [imm8])) rfl
    (by have h := rm_length 1 rm; simp only [List.length_cons, List.length_append, List.length_nil, encodeWord_length, encodeDword_length]; omega)
theorem orAccImm (w : Width) (imm : Imm) : Statement (.orAccImm w imm) :=
  of_eq (l := (0x0C ||| w.bit) :: imm.encode) rfl
    (by have h := imm_length imm; simp only [List.length_cons, List.length_append, List.length_nil, encodeWord_length, encodeDword_length]; omega)
theorem xorRegRm (d : Dir) (w : Width) (reg : Reg) (rm : RM) : Statement (.xorRegRm d w reg rm) :=
  of_eq (l := (0x30 ||| d.bit ||| w.bit) :: rm.encode reg.toBits) rfl
    (by have h := rm_length reg.toBits rm; simp only [List.length_cons, List.length_append, List.length_nil, encodeWord_length, encodeDword_length]; omega)
theorem xorRmImm (w : Width) (rm : RM) (imm : Imm) : Statement (.xorRmImm w rm imm) :=
  of_eq (l := (0x80 ||| w.bit) :: (rm.encode 6 ++ imm.encode)) rfl
    (by have h := rm_length 6 rm; have k := imm_length imm; simp only [List.length_cons, List.length_append, List.length_nil, encodeWord_length, encodeDword_length]; omega)
theorem xorRmImm8 (rm : RM) (imm8 : BitVec 8) : Statement (.xorRmImm8 rm imm8) :=
  of_eq (l := 0x83 :: (rm.encode 6 ++ [imm8])) rfl
    (by have h := rm_length 6 rm; simp only [List.length_cons, List.length_append, List.length_nil, encodeWord_length, encodeDword_length]; omega)
theorem xorAccImm (w : Width) (imm : Imm) : Statement (.xorAccImm w imm) :=
  of_eq (l := (0x34 ||| w.bit) :: imm.encode) rfl
    (by have h := imm_length imm; simp only [List.length_cons, List.length_append, List.length_nil, encodeWord_length, encodeDword_length]; omega)
theorem notRm (w : Width) (rm : RM) : Statement (.notRm w rm) :=
  of_eq (l := (0xF6 ||| w.bit) :: rm.encode 2) rfl
    (by have h := rm_length 2 rm; simp only [List.length_cons, List.length_append, List.length_nil, encodeWord_length, encodeDword_length]; omega)
theorem cmps (w : Width) : Statement (.cmps w) := of_eq (l := [(0xA6 ||| w.bit)]) rfl (by simp)
theorem ins (w : Width) : Statement (.ins w) := of_eq (l := [(0x6C ||| w.bit)]) rfl (by simp)
theorem lods (w : Width) : Statement (.lods w) := of_eq (l := [(0xAC ||| w.bit)]) rfl (by simp)
theorem movs (w : Width) : Statement (.movs w) := of_eq (l := [(0xA4 ||| w.bit)]) rfl (by simp)
theorem outs (w : Width) : Statement (.outs w) := of_eq (l := [(0x6E ||| w.bit)]) rfl (by simp)
theorem scas (w : Width) : Statement (.scas w) := of_eq (l := [(0xAE ||| w.bit)]) rfl (by simp)
theorem stos (w : Width) : Statement (.stos w) := of_eq (l := [(0xAA ||| w.bit)]) rfl (by simp)
theorem xlat : Statement .xlat := of_eq (l := [0xD7]) rfl (by simp)
theorem repeCmps (w : Width) : Statement (.repeCmps w) := of_eq (l := [0xF3, (0xA6 ||| w.bit)]) rfl (by simp)
theorem repneCmps (w : Width) : Statement (.repneCmps w) := of_eq (l := [0xF2, (0xA6 ||| w.bit)]) rfl (by simp)
theorem repeScas (w : Width) : Statement (.repeScas w) := of_eq (l := [0xF3, (0xAE ||| w.bit)]) rfl (by simp)
theorem repneScas (w : Width) : Statement (.repneScas w) := of_eq (l := [0xF2, (0xAE ||| w.bit)]) rfl (by simp)
theorem repInsF2 (w : Width) : Statement (.repInsF2 w) := of_eq (l := [0xF2, (0x6C ||| w.bit)]) rfl (by simp)
theorem repInsF3 (w : Width) : Statement (.repInsF3 w) := of_eq (l := [0xF3, (0x6C ||| w.bit)]) rfl (by simp)
theorem repLodsF2 (w : Width) : Statement (.repLodsF2 w) := of_eq (l := [0xF2, (0xAC ||| w.bit)]) rfl (by simp)
theorem repLodsF3 (w : Width) : Statement (.repLodsF3 w) := of_eq (l := [0xF3, (0xAC ||| w.bit)]) rfl (by simp)
theorem repMovsF2 (w : Width) : Statement (.repMovsF2 w) := of_eq (l := [0xF2, (0xA4 ||| w.bit)]) rfl (by simp)
theorem repMovsF3 (w : Width) : Statement (.repMovsF3 w) := of_eq (l := [0xF3, (0xA4 ||| w.bit)]) rfl (by simp)
theorem repOutsF2 (w : Width) : Statement (.repOutsF2 w) := of_eq (l := [0xF2, (0x6E ||| w.bit)]) rfl (by simp)
theorem repOutsF3 (w : Width) : Statement (.repOutsF3 w) := of_eq (l := [0xF3, (0x6E ||| w.bit)]) rfl (by simp)
theorem repStosF2 (w : Width) : Statement (.repStosF2 w) := of_eq (l := [0xF2, (0xAA ||| w.bit)]) rfl (by simp)
theorem repStosF3 (w : Width) : Statement (.repStosF3 w) := of_eq (l := [0xF3, (0xAA ||| w.bit)]) rfl (by simp)
theorem bsf (reg : Reg) (rm : RM) : Statement (.bsf reg rm) :=
  of_eq (l := 0x0F :: 0xBC :: rm.encode reg.toBits) rfl
    (by have h := rm_length reg.toBits rm; simp only [List.length_cons, List.length_append, List.length_nil, encodeWord_length, encodeDword_length]; omega)
theorem bsr (reg : Reg) (rm : RM) : Statement (.bsr reg rm) :=
  of_eq (l := 0x0F :: 0xBD :: rm.encode reg.toBits) rfl
    (by have h := rm_length reg.toBits rm; simp only [List.length_cons, List.length_append, List.length_nil, encodeWord_length, encodeDword_length]; omega)
theorem btImm (rm : RM) (bit : BitVec 8) : Statement (.btImm rm bit) :=
  of_eq (l := 0x0F :: 0xBA :: (rm.encode 4 ++ [bit])) rfl
    (by have h := rm_length 4 rm; simp only [List.length_cons, List.length_append, List.length_nil, encodeWord_length, encodeDword_length]; omega)
theorem btReg (reg : Reg) (rm : RM) : Statement (.btReg reg rm) :=
  of_eq (l := 0x0F :: 0xA3 :: rm.encode reg.toBits) rfl
    (by have h := rm_length reg.toBits rm; simp only [List.length_cons, List.length_append, List.length_nil, encodeWord_length, encodeDword_length]; omega)
theorem btcImm (rm : RM) (bit : BitVec 8) : Statement (.btcImm rm bit) :=
  of_eq (l := 0x0F :: 0xBA :: (rm.encode 7 ++ [bit])) rfl
    (by have h := rm_length 7 rm; simp only [List.length_cons, List.length_append, List.length_nil, encodeWord_length, encodeDword_length]; omega)
theorem btcReg (reg : Reg) (rm : RM) : Statement (.btcReg reg rm) :=
  of_eq (l := 0x0F :: 0xBB :: rm.encode reg.toBits) rfl
    (by have h := rm_length reg.toBits rm; simp only [List.length_cons, List.length_append, List.length_nil, encodeWord_length, encodeDword_length]; omega)
theorem btrImm (rm : RM) (bit : BitVec 8) : Statement (.btrImm rm bit) :=
  of_eq (l := 0x0F :: 0xBA :: (rm.encode 6 ++ [bit])) rfl
    (by have h := rm_length 6 rm; simp only [List.length_cons, List.length_append, List.length_nil, encodeWord_length, encodeDword_length]; omega)
theorem btrReg (reg : Reg) (rm : RM) : Statement (.btrReg reg rm) :=
  of_eq (l := 0x0F :: 0xB3 :: rm.encode reg.toBits) rfl
    (by have h := rm_length reg.toBits rm; simp only [List.length_cons, List.length_append, List.length_nil, encodeWord_length, encodeDword_length]; omega)
theorem btsImm (rm : RM) (bit : BitVec 8) : Statement (.btsImm rm bit) :=
  of_eq (l := 0x0F :: 0xBA :: (rm.encode 5 ++ [bit])) rfl
    (by have h := rm_length 5 rm; simp only [List.length_cons, List.length_append, List.length_nil, encodeWord_length, encodeDword_length]; omega)
theorem btsReg (reg : Reg) (rm : RM) : Statement (.btsReg reg rm) :=
  of_eq (l := 0x0F :: 0xAB :: rm.encode reg.toBits) rfl
    (by have h := rm_length reg.toBits rm; simp only [List.length_cons, List.length_append, List.length_nil, encodeWord_length, encodeDword_length]; omega)
theorem ibts (reg : Reg) (rm : RM) : Statement (.ibts reg rm) :=
  of_eq (l := 0x0F :: 0xA7 :: rm.encode reg.toBits) rfl
    (by have h := rm_length reg.toBits rm; simp only [List.length_cons, List.length_append, List.length_nil, encodeWord_length, encodeDword_length]; omega)
theorem xbts (reg : Reg) (rm : RM) : Statement (.xbts reg rm) :=
  of_eq (l := 0x0F :: 0xA6 :: rm.encode reg.toBits) rfl
    (by have h := rm_length reg.toBits rm; simp only [List.length_cons, List.length_append, List.length_nil, encodeWord_length, encodeDword_length]; omega)
theorem callRel (off : Off) : Statement (.callRel off) :=
  of_eq (l := 0xE8 :: off.encode) rfl
    (by have h := off_length off; simp only [List.length_cons, List.length_append, List.length_nil, encodeWord_length, encodeDword_length]; omega)
theorem callRm (rm : RM) : Statement (.callRm rm) :=
  of_eq (l := 0xFF :: rm.encode 2) rfl
    (by have h := rm_length 2 rm; simp only [List.length_cons, List.length_append, List.length_nil, encodeWord_length, encodeDword_length]; omega)
theorem callPtr (off : Off) (sel : BitVec 16) : Statement (.callPtr off sel) :=
  of_eq (l := 0x9A :: (off.encode ++ encodeWord sel)) rfl
    (by have h := off_length off; simp only [List.length_cons, List.length_append, List.length_nil, encodeWord_length, encodeDword_length]; omega)
theorem callMem (m : MemOp) : Statement (.callMem m) :=
  of_eq (l := 0xFF :: m.encode 3) rfl
    (by have h := mem_length 3 m; simp only [List.length_cons, List.length_append, List.length_nil, encodeWord_length, encodeDword_length]; omega)
theorem jmpShort (disp : BitVec 8) : Statement (.jmpShort disp) := of_eq (l := 0xEB :: [disp]) rfl (by simp)
theorem jmpRel (off : Off) : Statement (.jmpRel off) :=
  of_eq (l := 0xE9 :: off.encode) rfl
    (by have h := off_length off; simp only [List.length_cons, List.length_append, List.length_nil, encodeWord_length, encodeDword_length]; omega)
theorem jmpRm (rm : RM) : Statement (.jmpRm rm) :=
  of_eq (l := 0xFF :: rm.encode 4) rfl
    (by have h := rm_length 4 rm; simp only [List.length_cons, List.length_append, List.length_nil, encodeWord_length, encodeDword_length]; omega)
theorem jmpPtr (off : Off) (sel : BitVec 16) : Statement (.jmpPtr off sel) :=
  of_eq (l := 0xEA :: (off.encode ++ encodeWord sel)) rfl
    (by have h := off_length off; simp only [List.length_cons, List.length_append, List.length_nil, encodeWord_length, encodeDword_length]; omega)
theorem jmpMem (m : MemOp) : Statement (.jmpMem m) :=
  of_eq (l := 0xFF :: m.encode 5) rfl
    (by have h := mem_length 5 m; simp only [List.length_cons, List.length_append, List.length_nil, encodeWord_length, encodeDword_length]; omega)
theorem ret : Statement .ret := of_eq (l := [0xC3]) rfl (by simp)
theorem retImm (n : BitVec 16) : Statement (.retImm n) := of_eq (l := 0xC2 :: encodeWord n) rfl (by simp)
theorem retf : Statement .retf := of_eq (l := [0xCB]) rfl (by simp)
theorem retfImm (n : BitVec 16) : Statement (.retfImm n) := of_eq (l := 0xCA :: encodeWord n) rfl (by simp)
theorem joShort (disp : BitVec 8) : Statement (.joShort disp) := of_eq (l := 0x70 :: [disp]) rfl (by simp)
theorem joNear (off : Off) : Statement (.joNear off) :=
  of_eq (l := 0x0F :: 0x80 :: off.encode) rfl
    (by have h := off_length off; simp only [List.length_cons, List.length_append, List.length_nil, encodeWord_length, encodeDword_length]; omega)
theorem jnoShort (disp : BitVec 8) : Statement (.jnoShort disp) := of_eq (l := 0x71 :: [disp]) rfl (by simp)
theorem jnoNear (off : Off) : Statement (.jnoNear off) :=
  of_eq (l := 0x0F :: 0x81 :: off.encode) rfl
    (by have h := off_length off; simp only [List.length_cons, List.length_append, List.length_nil, encodeWord_length, encodeDword_length]; omega)
theorem jbShort (disp : BitVec 8) : Statement (.jbShort disp) := of_eq (l := 0x72 :: [disp]) rfl (by simp)
theorem jbNear (off : Off) : Statement (.jbNear off) :=
  of_eq (l := 0x0F :: 0x82 :: off.encode) rfl
    (by have h := off_length off; simp only [List.length_cons, List.length_append, List.length_nil, encodeWord_length, encodeDword_length]; omega)
theorem jnbShort (disp : BitVec 8) : Statement (.jnbShort disp) := of_eq (l := 0x73 :: [disp]) rfl (by simp)
theorem jnbNear (off : Off) : Statement (.jnbNear off) :=
  of_eq (l := 0x0F :: 0x83 :: off.encode) rfl
    (by have h := off_length off; simp only [List.length_cons, List.length_append, List.length_nil, encodeWord_length, encodeDword_length]; omega)
theorem jeShort (disp : BitVec 8) : Statement (.jeShort disp) := of_eq (l := 0x74 :: [disp]) rfl (by simp)
theorem jeNear (off : Off) : Statement (.jeNear off) :=
  of_eq (l := 0x0F :: 0x84 :: off.encode) rfl
    (by have h := off_length off; simp only [List.length_cons, List.length_append, List.length_nil, encodeWord_length, encodeDword_length]; omega)
theorem jneShort (disp : BitVec 8) : Statement (.jneShort disp) := of_eq (l := 0x75 :: [disp]) rfl (by simp)
theorem jneNear (off : Off) : Statement (.jneNear off) :=
  of_eq (l := 0x0F :: 0x85 :: off.encode) rfl
    (by have h := off_length off; simp only [List.length_cons, List.length_append, List.length_nil, encodeWord_length, encodeDword_length]; omega)
theorem jbeShort (disp : BitVec 8) : Statement (.jbeShort disp) := of_eq (l := 0x76 :: [disp]) rfl (by simp)
theorem jbeNear (off : Off) : Statement (.jbeNear off) :=
  of_eq (l := 0x0F :: 0x86 :: off.encode) rfl
    (by have h := off_length off; simp only [List.length_cons, List.length_append, List.length_nil, encodeWord_length, encodeDword_length]; omega)
theorem jnbeShort (disp : BitVec 8) : Statement (.jnbeShort disp) := of_eq (l := 0x77 :: [disp]) rfl (by simp)
theorem jnbeNear (off : Off) : Statement (.jnbeNear off) :=
  of_eq (l := 0x0F :: 0x87 :: off.encode) rfl
    (by have h := off_length off; simp only [List.length_cons, List.length_append, List.length_nil, encodeWord_length, encodeDword_length]; omega)
theorem jsShort (disp : BitVec 8) : Statement (.jsShort disp) := of_eq (l := 0x78 :: [disp]) rfl (by simp)
theorem jsNear (off : Off) : Statement (.jsNear off) :=
  of_eq (l := 0x0F :: 0x88 :: off.encode) rfl
    (by have h := off_length off; simp only [List.length_cons, List.length_append, List.length_nil, encodeWord_length, encodeDword_length]; omega)
theorem jnsShort (disp : BitVec 8) : Statement (.jnsShort disp) := of_eq (l := 0x79 :: [disp]) rfl (by simp)
theorem jnsNear (off : Off) : Statement (.jnsNear off) :=
  of_eq (l := 0x0F :: 0x89 :: off.encode) rfl
    (by have h := off_length off; simp only [List.length_cons, List.length_append, List.length_nil, encodeWord_length, encodeDword_length]; omega)
theorem jpShort (disp : BitVec 8) : Statement (.jpShort disp) := of_eq (l := 0x7A :: [disp]) rfl (by simp)
theorem jpNear (off : Off) : Statement (.jpNear off) :=
  of_eq (l := 0x0F :: 0x8A :: off.encode) rfl
    (by have h := off_length off; simp only [List.length_cons, List.length_append, List.length_nil, encodeWord_length, encodeDword_length]; omega)
theorem jnpShort (disp : BitVec 8) : Statement (.jnpShort disp) := of_eq (l := 0x7B :: [disp]) rfl (by simp)
theorem jnpNear (off : Off) : Statement (.jnpNear off) :=
  of_eq (l := 0x0F :: 0x8B :: off.encode) rfl
    (by have h := off_length off; simp only [List.length_cons, List.length_append, List.length_nil, encodeWord_length, encodeDword_length]; omega)
theorem jlShort (disp : BitVec 8) : Statement (.jlShort disp) := of_eq (l := 0x7C :: [disp]) rfl (by simp)
theorem jlNear (off : Off) : Statement (.jlNear off) :=
  of_eq (l := 0x0F :: 0x8C :: off.encode) rfl
    (by have h := off_length off; simp only [List.length_cons, List.length_append, List.length_nil, encodeWord_length, encodeDword_length]; omega)
theorem jnlShort (disp : BitVec 8) : Statement (.jnlShort disp) := of_eq (l := 0x7D :: [disp]) rfl (by simp)
theorem jnlNear (off : Off) : Statement (.jnlNear off) :=
  of_eq (l := 0x0F :: 0x8D :: off.encode) rfl
    (by have h := off_length off; simp only [List.length_cons, List.length_append, List.length_nil, encodeWord_length, encodeDword_length]; omega)
theorem jleShort (disp : BitVec 8) : Statement (.jleShort disp) := of_eq (l := 0x7E :: [disp]) rfl (by simp)
theorem jleNear (off : Off) : Statement (.jleNear off) :=
  of_eq (l := 0x0F :: 0x8E :: off.encode) rfl
    (by have h := off_length off; simp only [List.length_cons, List.length_append, List.length_nil, encodeWord_length, encodeDword_length]; omega)
theorem jnleShort (disp : BitVec 8) : Statement (.jnleShort disp) := of_eq (l := 0x7F :: [disp]) rfl (by simp)
theorem jnleNear (off : Off) : Statement (.jnleNear off) :=
  of_eq (l := 0x0F :: 0x8F :: off.encode) rfl
    (by have h := off_length off; simp only [List.length_cons, List.length_append, List.length_nil, encodeWord_length, encodeDword_length]; omega)
theorem jcxz (disp : BitVec 8) : Statement (.jcxz disp) := of_eq (l := 0xE3 :: [disp]) rfl (by simp)
theorem loop (disp : BitVec 8) : Statement (.loop disp) := of_eq (l := 0xE2 :: [disp]) rfl (by simp)
theorem loopz (disp : BitVec 8) : Statement (.loopz disp) := of_eq (l := 0xE1 :: [disp]) rfl (by simp)
theorem loopnz (disp : BitVec 8) : Statement (.loopnz disp) := of_eq (l := 0xE0 :: [disp]) rfl (by simp)
theorem seto (rm : RM) : Statement (.seto rm) :=
  of_eq (l := 0x0F :: 0x90 :: rm.encode 0) rfl
    (by have h := rm_length 0 rm; simp only [List.length_cons, List.length_append, List.length_nil, encodeWord_length, encodeDword_length]; omega)
theorem setno (rm : RM) : Statement (.setno rm) :=
  of_eq (l := 0x0F :: 0x91 :: rm.encode 0) rfl
    (by have h := rm_length 0 rm; simp only [List.length_cons, List.length_append, List.length_nil, encodeWord_length, encodeDword_length]; omega)
theorem setb (rm : RM) : Statement (.setb rm) :=
  of_eq (l := 0x0F :: 0x92 :: rm.encode 0) rfl
    (by have h := rm_length 0 rm; simp only [List.length_cons, List.length_append, List.length_nil, encodeWord_length, encodeDword_length]; omega)
theorem setnb (rm : RM) : Statement (.setnb rm) :=
  of_eq (l := 0x0F :: 0x93 :: rm.encode 0) rfl
    (by have h := rm_length 0 rm; simp only [List.length_cons, List.length_append, List.length_nil, encodeWord_length, encodeDword_length]; omega)
theorem sete (rm : RM) : Statement (.sete rm) :=
  of_eq (l := 0x0F :: 0x94 :: rm.encode 0) rfl
    (by have h := rm_length 0 rm; simp only [List.length_cons, List.length_append, List.length_nil, encodeWord_length, encodeDword_length]; omega)
theorem setne (rm : RM) : Statement (.setne rm) :=
  of_eq (l := 0x0F :: 0x95 :: rm.encode 0) rfl
    (by have h := rm_length 0 rm; simp only [List.length_cons, List.length_append, List.length_nil, encodeWord_length, encodeDword_length]; omega)
theorem setbe (rm : RM) : Statement (.setbe rm) :=
  of_eq (l := 0x0F :: 0x96 :: rm.encode 0) rfl
    (by have h := rm_length 0 rm; simp only [List.length_cons, List.length_append, List.length_nil, encodeWord_length, encodeDword_length]; omega)
theorem setnbe (rm : RM) : Statement (.setnbe rm) :=
  of_eq (l := 0x0F :: 0x97 :: rm.encode 0) rfl
    (by have h := rm_length 0 rm; simp only [List.length_cons, List.length_append, List.length_nil, encodeWord_length, encodeDword_length]; omega)
theorem sets (rm : RM) : Statement (.sets rm) :=
  of_eq (l := 0x0F :: 0x98 :: rm.encode 0) rfl
    (by have h := rm_length 0 rm; simp only [List.length_cons, List.length_append, List.length_nil, encodeWord_length, encodeDword_length]; omega)
theorem setns (rm : RM) : Statement (.setns rm) :=
  of_eq (l := 0x0F :: 0x99 :: rm.encode 0) rfl
    (by have h := rm_length 0 rm; simp only [List.length_cons, List.length_append, List.length_nil, encodeWord_length, encodeDword_length]; omega)
theorem setp (rm : RM) : Statement (.setp rm) :=
  of_eq (l := 0x0F :: 0x9A :: rm.encode 0) rfl
    (by have h := rm_length 0 rm; simp only [List.length_cons, List.length_append, List.length_nil, encodeWord_length, encodeDword_length]; omega)
theorem setnp (rm : RM) : Statement (.setnp rm) :=
  of_eq (l := 0x0F :: 0x9B :: rm.encode 0) rfl
    (by have h := rm_length 0 rm; simp only [List.length_cons, List.length_append, List.length_nil, encodeWord_length, encodeDword_length]; omega)
theorem setl (rm : RM) : Statement (.setl rm) :=
  of_eq (l := 0x0F :: 0x9C :: rm.encode 0) rfl
    (by have h := rm_length 0 rm; simp only [List.length_cons, List.length_append, List.length_nil, encodeWord_length, encodeDword_length]; omega)
theorem setnl (rm : RM) : Statement (.setnl rm) :=
  of_eq (l := 0x0F :: 0x9D :: rm.encode 0) rfl
    (by have h := rm_length 0 rm; simp only [List.length_cons, List.length_append, List.length_nil, encodeWord_length, encodeDword_length]; omega)
theorem setle (rm : RM) : Statement (.setle rm) :=
  of_eq (l := 0x0F :: 0x9E :: rm.encode 0) rfl
    (by have h := rm_length 0 rm; simp only [List.length_cons, List.length_append, List.length_nil, encodeWord_length, encodeDword_length]; omega)
theorem setnle (rm : RM) : Statement (.setnle rm) :=
  of_eq (l := 0x0F :: 0x9F :: rm.encode 0) rfl
    (by have h := rm_length 0 rm; simp only [List.length_cons, List.length_append, List.length_nil, encodeWord_length, encodeDword_length]; omega)
theorem enter (size : BitVec 16) (level : BitVec 8) : Statement (.enter size level) := of_eq (l := 0xC8 :: (encodeWord size ++ [level])) rfl (by simp)
theorem leave : Statement .leave := of_eq (l := [0xC9]) rfl (by simp)
theorem intN (v : BitVec 8) : Statement (.intN v) := of_eq (l := 0xCD :: [v]) rfl (by simp)
theorem int3 : Statement .int3 := of_eq (l := [0xCC]) rfl (by simp)
theorem into : Statement .into := of_eq (l := [0xCE]) rfl (by simp)
theorem bound (reg : Reg) (m : MemOp) : Statement (.bound reg m) :=
  of_eq (l := 0x62 :: m.encode reg.toBits) rfl
    (by have h := mem_length reg.toBits m; simp only [List.length_cons, List.length_append, List.length_nil, encodeWord_length, encodeDword_length]; omega)
theorem iret : Statement .iret := of_eq (l := [0xCF]) rfl (by simp)
theorem hlt : Statement .hlt := of_eq (l := [0xF4]) rfl (by simp)
theorem movCr0Reg (reg : Reg) : Statement (.movCr0Reg reg) := of_eq (l := [0x0F, 0x22, (0xC0 ||| reg.low)]) rfl (by simp)
theorem movCr2Reg (reg : Reg) : Statement (.movCr2Reg reg) := of_eq (l := [0x0F, 0x22, (0xD0 ||| reg.low)]) rfl (by simp)
theorem movCr3Reg (reg : Reg) : Statement (.movCr3Reg reg) := of_eq (l := [0x0F, 0x22, (0xD8 ||| reg.low)]) rfl (by simp)
theorem movRegCr0 (reg : Reg) : Statement (.movRegCr0 reg) := of_eq (l := [0x0F, 0x20, (0xC0 ||| reg.low)]) rfl (by simp)
theorem movRegCr2 (reg : Reg) : Statement (.movRegCr2 reg) := of_eq (l := [0x0F, 0x20, (0xD0 ||| reg.low)]) rfl (by simp)
theorem movRegCr3 (reg : Reg) : Statement (.movRegCr3 reg) := of_eq (l := [0x0F, 0x20, (0xD8 ||| reg.low)]) rfl (by simp)
theorem movDr0Reg (reg : Reg) : Statement (.movDr0Reg reg) := of_eq (l := [0x0F, 0x23, (0xC0 ||| reg.low)]) rfl (by simp)
theorem movDr1Reg (reg : Reg) : Statement (.movDr1Reg reg) := of_eq (l := [0x0F, 0x23, (0xC8 ||| reg.low)]) rfl (by simp)
theorem movDr2Reg (reg : Reg) : Statement (.movDr2Reg reg) := of_eq (l := [0x0F, 0x23, (0xD0 ||| reg.low)]) rfl (by simp)
theorem movDr3Reg (reg : Reg) : Statement (.movDr3Reg reg) := of_eq (l := [0x0F, 0x23, (0xD8 ||| reg.low)]) rfl (by simp)
theorem movDr6Reg (reg : Reg) : Statement (.movDr6Reg reg) := of_eq (l := [0x0F, 0x23, (0xF0 ||| reg.low)]) rfl (by simp)
theorem movDr7Reg (reg : Reg) : Statement (.movDr7Reg reg) := of_eq (l := [0x0F, 0x23, (0xF8 ||| reg.low)]) rfl (by simp)
theorem movRegDr6 (reg : Reg) : Statement (.movRegDr6 reg) := of_eq (l := [0x0F, 0x21, (0xF0 ||| reg.low)]) rfl (by simp)
theorem movRegDr7 (reg : Reg) : Statement (.movRegDr7 reg) := of_eq (l := [0x0F, 0x21, (0xF8 ||| reg.low)]) rfl (by simp)
theorem movRegDr0 (reg : Reg) : Statement (.movRegDr0 reg) := of_eq (l := [0x0F, 0x21, (0xC0 ||| reg.low)]) rfl (by simp)
theorem movRegDr1 (reg : Reg) : Statement (.movRegDr1 reg) := of_eq (l := [0x0F, 0x21, (0xC8 ||| reg.low)]) rfl (by simp)
theorem movRegDr2 (reg : Reg) : Statement (.movRegDr2 reg) := of_eq (l := [0x0F, 0x21, (0xD0 ||| reg.low)]) rfl (by simp)
theorem movRegDr3 (reg : Reg) : Statement (.movRegDr3 reg) := of_eq (l := [0x0F, 0x21, (0xD8 ||| reg.low)]) rfl (by simp)
theorem movTr6Reg (reg : Reg) : Statement (.movTr6Reg reg) := of_eq (l := [0x0F, 0x26, (0xF0 ||| reg.low)]) rfl (by simp)
theorem movTr7Reg (reg : Reg) : Statement (.movTr7Reg reg) := of_eq (l := [0x0F, 0x26, (0xF8 ||| reg.low)]) rfl (by simp)
theorem movRegTr6 (reg : Reg) : Statement (.movRegTr6 reg) := of_eq (l := [0x0F, 0x24, (0xF0 ||| reg.low)]) rfl (by simp)
theorem movRegTr7 (reg : Reg) : Statement (.movRegTr7 reg) := of_eq (l := [0x0F, 0x24, (0xF8 ||| reg.low)]) rfl (by simp)
theorem nop : Statement .nop := of_eq (l := [0x90]) rfl (by simp)
theorem wait : Statement .wait := of_eq (l := [0x9B]) rfl (by simp)
theorem esc (ttt : BitVec 3) (lll : BitVec 3) (rm : RM) : Statement (.esc ttt lll rm) :=
  of_eq (l := (0xD8 ||| ttt.zeroExtend 8) :: rm.encode lll) rfl
    (by have h := rm_length lll rm; simp only [List.length_cons, List.length_append, List.length_nil, encodeWord_length, encodeDword_length]; omega)
theorem arpl (reg : Reg) (rm : RM) : Statement (.arpl reg rm) :=
  of_eq (l := 0x63 :: rm.encode reg.toBits) rfl
    (by have h := rm_length reg.toBits rm; simp only [List.length_cons, List.length_append, List.length_nil, encodeWord_length, encodeDword_length]; omega)
theorem lar (reg : Reg) (rm : RM) : Statement (.lar reg rm) :=
  of_eq (l := 0x0F :: 0x02 :: rm.encode reg.toBits) rfl
    (by have h := rm_length reg.toBits rm; simp only [List.length_cons, List.length_append, List.length_nil, encodeWord_length, encodeDword_length]; omega)
theorem lgdt (m : MemOp) : Statement (.lgdt m) :=
  of_eq (l := 0x0F :: 0x01 :: m.encode 2) rfl
    (by have h := mem_length 2 m; simp only [List.length_cons, List.length_append, List.length_nil, encodeWord_length, encodeDword_length]; omega)
theorem lidt (m : MemOp) : Statement (.lidt m) :=
  of_eq (l := 0x0F :: 0x01 :: m.encode 3) rfl
    (by have h := mem_length 3 m; simp only [List.length_cons, List.length_append, List.length_nil, encodeWord_length, encodeDword_length]; omega)
theorem lldt (rm : RM) : Statement (.lldt rm) :=
  of_eq (l := 0x0F :: 0x00 :: rm.encode 2) rfl
    (by have h := rm_length 2 rm; simp only [List.length_cons, List.length_append, List.length_nil, encodeWord_length, encodeDword_length]; omega)
theorem lmsw (rm : RM) : Statement (.lmsw rm) :=
  of_eq (l := 0x0F :: 0x01 :: rm.encode 6) rfl
    (by have h := rm_length 6 rm; simp only [List.length_cons, List.length_append, List.length_nil, encodeWord_length, encodeDword_length]; omega)
theorem lsl (reg : Reg) (rm : RM) : Statement (.lsl reg rm) :=
  of_eq (l := 0x0F :: 0x03 :: rm.encode reg.toBits) rfl
    (by have h := rm_length reg.toBits rm; simp only [List.length_cons, List.length_append, List.length_nil, encodeWord_length, encodeDword_length]; omega)
theorem ltr (rm : RM) : Statement (.ltr rm) :=
  of_eq (l := 0x0F :: 0x00 :: rm.encode 3) rfl
    (by have h := rm_length 3 rm; simp only [List.length_cons, List.length_append, List.length_nil, encodeWord_length, encodeDword_length]; omega)
theorem sgdt (m : MemOp) : Statement (.sgdt m) :=
  of_eq (l := 0x0F :: 0x01 :: m.encode 0) rfl
    (by have h := mem_length 0 m; simp only [List.length_cons, List.length_append, List.length_nil, encodeWord_length, encodeDword_length]; omega)
theorem sidt (m : MemOp) : Statement (.sidt m) :=
  of_eq (l := 0x0F :: 0x01 :: m.encode 1) rfl
    (by have h := mem_length 1 m; simp only [List.length_cons, List.length_append, List.length_nil, encodeWord_length, encodeDword_length]; omega)
theorem sldt (rm : RM) : Statement (.sldt rm) :=
  of_eq (l := 0x0F :: 0x00 :: rm.encode 0) rfl
    (by have h := rm_length 0 rm; simp only [List.length_cons, List.length_append, List.length_nil, encodeWord_length, encodeDword_length]; omega)
theorem smsw (rm : RM) : Statement (.smsw rm) :=
  of_eq (l := 0x0F :: 0x01 :: rm.encode 4) rfl
    (by have h := rm_length 4 rm; simp only [List.length_cons, List.length_append, List.length_nil, encodeWord_length, encodeDword_length]; omega)
theorem str (rm : RM) : Statement (.str rm) :=
  of_eq (l := 0x0F :: 0x00 :: rm.encode 1) rfl
    (by have h := rm_length 1 rm; simp only [List.length_cons, List.length_append, List.length_nil, encodeWord_length, encodeDword_length]; omega)
theorem verr (rm : RM) : Statement (.verr rm) :=
  of_eq (l := 0x0F :: 0x00 :: rm.encode 4) rfl
    (by have h := rm_length 4 rm; simp only [List.length_cons, List.length_append, List.length_nil, encodeWord_length, encodeDword_length]; omega)
theorem verw (rm : RM) : Statement (.verw rm) :=
  of_eq (l := 0x0F :: 0x00 :: rm.encode 5) rfl
    (by have h := rm_length 5 rm; simp only [List.length_cons, List.length_append, List.length_nil, encodeWord_length, encodeDword_length]; omega)

end Sys2Proof.Laws.Encoding
end

