-- ==== Sys2Proof/Laws/Prefetch.lean ====
section
/-! SUPPORT. What reading code does: nothing where every address is memory; else the prefetch queue, the cycles at
memory-mapped devices and the free values change, or nothing answers. -/

namespace Sys2Proof.Machine

/-- What code reads can change. -/
structure CodeRead (s t : State) : Prop where
  eq : t = { s with queued := t.queued, deviceBus := t.deviceBus, draws := t.draws }
  cycles : s.deviceBus <:+ t.deviceBus

theorem CodeRead.refl (s : State) : CodeRead s s := ⟨rfl, List.suffix_refl _⟩

theorem CodeRead.trans {s t u : State} (h : CodeRead s t) (k : CodeRead t u) : CodeRead s u :=
  ⟨by rw [k.eq, h.eq], h.cycles.trans k.cycles⟩

theorem State.codeRead_cases (s : State) (l p : Dword) : CodeRead s (s.codeRead l p) :=
  ⟨rfl, List.suffix_append _ _⟩

/-- Nothing answers at some address. -/
def State.someAbsent (s : State) : Prop := ∃ p : Dword, s.params.responder p.toNat = some .absent

theorem readCode_cases (l p : Dword) (s : State) :
    (∃ t, readCode l p s = .ok () t ∧ CodeRead s t) ∨
      ((∃ w, readCode l p s = .error (.fault (.noReady w)) s) ∧ s.someAbsent) := by
  unfold readCode
  split
  · next h =>
    obtain ⟨a, -, ha⟩ := List.any_eq_true.1 h
    exact .inr ⟨⟨_, rfl⟩, a, by simpa [State.isAbsent] using ha⟩
  · split
    · exact .inl ⟨_, rfl, s.codeRead_cases l p⟩
    · exact .inl ⟨_, rfl, .refl s⟩

theorem readAhead_cases (ds : List (Dword × Dword)) (s : State) :
    (∃ t, readAhead ds s = .ok () t ∧ CodeRead s t) ∨
      ((∃ w t, readAhead ds s = .error (.fault (.noReady w)) t) ∧ s.someAbsent) := by
  induction ds generalizing s with
  | nil => exact .inl ⟨s, rfl, .refl s⟩
  | cons d ds ih =>
    rcases readCode_cases d.1 d.2 s with ⟨t, ht, c⟩ | ⟨⟨w, ht⟩, a⟩
    · have e : readAhead (d :: ds) s = readAhead ds t := by
        show (readCode d.1 d.2 >>= fun _ => readAhead ds) s = _
        exact run_bind_ok ht
      rcases ih t with ⟨u, hu, k⟩ | ⟨⟨w, u, hu⟩, a⟩
      · exact .inl ⟨u, e.trans hu, c.trans k⟩
      · exact .inr ⟨⟨w, u, e.trans hu⟩, by rw [c.eq] at a; exact a⟩
    · exact .inr ⟨⟨w, s, run_bind_error ht⟩, a⟩

/-- All that the prefetch before a step can do. -/
theorem prefetch_cases (s : State) :
    (∃ t, prefetch s = .ok () t ∧ CodeRead s t) ∨
      ((∃ w t, prefetch s = .error (.fault (.noReady w)) t) ∧ s.someAbsent) := by
  unfold prefetch
  split
  · exact .inl ⟨s, rfl, .refl s⟩
  · dsimp only
    split
    · rcases readAhead_cases _ _ with ⟨t, ht, c⟩ | ⟨⟨w, t, ht⟩, a⟩
      · exact .inl ⟨t, ht, CodeRead.trans (t := { s with draws := s.draws + 1 }) ⟨rfl, List.suffix_refl _⟩ c⟩
      · exact .inr ⟨⟨w, t, ht⟩, a⟩
    · exact .inl ⟨s, rfl, .refl s⟩

theorem prefetch_of_allMemory {s : State} (h : s.AllMemory) : prefetch s = .ok () s := by
  unfold prefetch
  rw [if_pos (by simp [show s.params.allMemory = true from h])]

theorem readCode_of_allMemory {s : State} (h : s.AllMemory) (l p : Dword) : readCode l p s = .ok () s := by
  have h1 : (dwordOf p).any s.isAbsent = false := by simp [List.any_eq_false, (responder_of_allMemory h _).1]
  have h2 : s.unread l p = false := by
    unfold State.unread
    rw [List.any_eq_false]
    intro x _
    simp [(responder_of_allMemory h x.2).2]
  unfold readCode
  simp [h1, h2]

/-- The prefetch keeps the invariant. -/
theorem CodeRead.inv {s t : State} (h : CodeRead s t) (i : s.Inv) : t.Inv := by
  rw [h.eq]
  exact ⟨i.mem, i.dr6, i.dr7, i.pending, i.paging, i.vm⟩

/-! Fetching where nothing is in doubt. -/

/-- The next `n` bytes of code are plain memory inside the CS limit, none of them in doubt in the prefetch queue. -/
structure State.PlainCode (s : State) (n : Nat) : Prop where
  plain : s.Plain
  stale : s.stale = []
  queued : s.queued = []
  valid : s.cs.valid = true
  within : s.eipOver = false
  limit : s.eip.toNat + n ≤ s.cs.limit.toNat + 1

theorem fetchByte_plain {s : State} {n k : Nat} (h : s.PlainCode n) (hk : k < n) :
    fetchByte k s = .ok (s.readByte (s.linear .cs (s.eip + BitVec.ofNat 32 k))) s := by
  have hc : s.codeByteOk k = true := by
    have := h.limit
    simp only [State.codeByteOk, h.valid, h.within, Bool.true_and, decide_eq_true_eq, Bool.false_eq_true, if_false]
    omega
  have hm : ∀ l, fetchMemory l s = .ok (s.readByte l) s := by
    intro l
    have ht : translate false s.isUser l s = .ok l s := by unfold translate; simp [h.plain.unpaged]
    unfold fetchMemory
    simp only [run_bind, run_get, ht, h.stale, List.contains_nil, Bool.false_eq_true, if_false,
      readCode_of_allMemory h.plain.memory]
    simp [run_pure, State.heldByte, h.queued]
  unfold fetchByte
  simp only [run_bind, run_get, hc, h.queued, Bool.not_true, run_raiseIf_false, fetchQueued, hm]

/-- The bytes of an instruction, each read in the state the fetch began in. -/
theorem gather_plain {s : State} {m : Nat} (h : s.PlainCode m) : ∀ (n k : Nat), k + n ≤ m →
    gather n k s = ((List.range' k n).map fun i => (s.readByte (s.linear .cs (s.eip + BitVec.ofNat 32 i)), s), none) := by
  intro n
  induction n with
  | zero => intro k _; rfl
  | succ n ih =>
    intro k hk
    simp only [gather, fetchByte_plain h (show k < m by omega), ih (k + 1) (by omega), List.range'_succ, List.map_cons]

end Sys2Proof.Machine
end

