-- ==== Sys2Proof/Laws/Reset.lean ====
section
/-! SUPPORT. What a RESET that cuts a step short can leave in memory (70_reset_and_hazards.md R750; log 53). -/

namespace Sys2Proof.Machine

/-- What a byte on its way from `old` to `new` can be. -/
def CutTo (paging : Bool) (old new b : Byte) : Prop := b = old ∨ b = new ∨ (paging = true ∧ b = old ||| (new &&& 0x20))

theorem cutByte_cut (paging : Bool) (u : Dword) (old new : Byte) : CutTo paging old new (cutByte paging u old new) := by
  unfold cutByte
  split
  · exact .inr (.inl rfl)
  · split
    · next h => exact .inr (.inr ⟨by simp at h; exact h.1, rfl⟩)
    · exact .inl rfl

/-- A byte cut twice on the same way. -/
theorem CutTo.trans {paging : Bool} {old new b c : Byte} (h : CutTo paging old new b) (k : CutTo paging b new c) :
    CutTo paging old new c := by
  rcases k with rfl | rfl | ⟨hp, rfl⟩
  · exact h
  · exact .inr (.inl rfl)
  · rcases h with rfl | rfl | ⟨_, rfl⟩
    · exact .inr (.inr ⟨hp, rfl⟩)
    · refine .inr (.inl ?_)
      apply BitVec.eq_of_getLsbD_eq
      intro i hi
      simp only [BitVec.getLsbD_or, BitVec.getLsbD_and]
      cases b.getLsbD i <;> simp
    · refine .inr (.inr ⟨hp, ?_⟩)
      rw [BitVec.or_assoc, BitVec.or_self]

/-- A byte of memory that is partly written is on its way from what it was to what it was to become, and the form is
kept. -/
theorem Memory.partly_spec (paging : Bool) (new : List Host.Cell) (as : List Dword) (k : Nat) {m : List Host.Cell}
    (h : Memory.wf m = true) :
    Memory.wf (Memory.partly paging new as k m) = true ∧
      ∀ a : Dword, CutTo paging (Memory.read m a.toNat) (Memory.read new a.toNat)
        (Memory.read (Memory.partly paging new as k m) a.toNat) := by
  induction as generalizing k m with
  | nil => exact ⟨h, fun a => .inl rfl⟩
  | cons b as ih =>
    unfold Memory.partly
    obtain ⟨hw, hr⟩ := ih (k + 1) (Memory.wf_write h b
      (cutByte paging (Config.freeDword k) (Memory.read m b.toNat) (Memory.read new b.toNat)))
    refine ⟨hw, fun a => CutTo.trans ?_ (hr a)⟩
    by_cases hab : a = b
    · subst hab
      rw [Memory.read_write_same 0 h]
      exact cutByte_cut _ _ _ _
    · exact .inl (Memory.read_write_other 0 h (fun hn => hab (BitVec.eq_of_toNat_eq hn)) _)

theorem State.cutBy_wf {s : State} (t : State) (h : Memory.wf s.mem = true) : Memory.wf (s.cutBy t).mem = true :=
  (Memory.partly_spec _ t.mem _ _ h).1

/-- Each byte is as before the step or as after it, or, with paging on, as before with A set. -/
theorem State.cutBy_byte {s : State} (t : State) (h : Memory.wf s.mem = true) (p : Dword) :
    CutTo s.cr0.pg (s.readByte p) (t.readByte p) ((s.cutBy t).readByte p) :=
  (Memory.partly_spec _ t.mem _ _ h).2 p

/-- The bus cycles logged are some of those of the step, the oldest ones. -/
theorem State.cutBy_bus (s t : State) : (s.cutBy t).bus <:+ t.bus := List.drop_suffix _ _

theorem State.cutBy_deviceBus (s t : State) : (s.cutBy t).deviceBus <:+ t.deviceBus :=
  (List.drop_suffix _ _).trans (List.dropWhile_suffix _)

/-- Everything else is as the RESET pin leaves it. -/
theorem State.cutBy_rest (s t : State) :
    s.cutBy t = { s.resetPin with
      mem := (s.cutBy t).mem, bus := (s.cutBy t).bus, deviceBus := (s.cutBy t).deviceBus, draws := (s.cutBy t).draws } := rfl

end Sys2Proof.Machine
end

