-- ==== Sys2Proof/Laws/Stack.lean ====
section
/-! SUPPORT. The stack: what a push, a pop and a list of pushes do (10_state.md R36). -/

namespace Sys2Proof.Machine

/-! General registers. -/

theorem Regs.get_set_same (g : Regs) (r : Reg) (v : Dword) : (g.set r v).get r = v := by cases r <;> rfl

theorem Regs.get_set_other (g : Regs) {r r' : Reg} (v : Dword) (h : r' ≠ r) : (g.set r v).get r' = g.get r' := by
  cases r <;> cases r' <;> first | rfl | exact absurd rfl h

theorem Regs.set_set (g : Regs) (r : Reg) (v w : Dword) : (g.set r v).set r w = g.set r w := by cases r <;> rfl

/-- The size of the stack pointer is 16 or 32 bits. -/
theorem stackSize_cases (s : State) : s.stackSize = .b16 ∨ s.stackSize = .b32 := by
  unfold State.stackSize; split <;> simp

/-- The bits of a register after a write of its low half. -/
theorem mergeWord_bit (old : Dword) (v : Word) (i : Nat) :
    (mergeWord old v).getLsbD i = if i < 16 then v.getLsbD i else old.getLsbD i := by
  have h : (mergeWord old v).getLsbD i = if i < 16 then v.getLsbD i else (old.extractLsb' 16 16).getLsbD (i - 16) :=
    BitVec.getLsbD_append
  rw [h, BitVec.getLsbD_extractLsb']
  by_cases h1 : i < 16
  · simp [h1]
  · simp only [h1, if_false]
    rw [show 16 + (i - 16) = i by omega]
    by_cases h2 : i < 32
    · simp [show i - 16 < 16 by omega]
    · simp [show ¬ i - 16 < 16 by omega, BitVec.getLsbD_of_ge old i (by omega)]

theorem mergeWord_low (old : Dword) (v : Word) : (mergeWord old v).setWidth 16 = v := by
  apply BitVec.eq_of_getLsbD_eq
  intro i hi
  rw [BitVec.getLsbD_setWidth, mergeWord_bit]
  simp [hi]

theorem mergeWord_mergeWord (old : Dword) (v w : Word) : mergeWord (mergeWord old v) w = mergeWord old w := by
  apply BitVec.eq_of_getLsbD_eq
  intro i hi
  rw [mergeWord_bit, mergeWord_bit, mergeWord_bit]
  split <;> rfl

theorem mergeWord_self (v : Dword) : mergeWord v (v.setWidth 16) = v := by
  apply BitVec.eq_of_getLsbD_eq
  intro i hi
  rw [mergeWord_bit, BitVec.getLsbD_setWidth]
  split <;> simp_all

theorem Regs.set_get (g : Regs) (r : Reg) : g.set r (g.get r) = g := by cases r <;> rfl

/-- A register that is written with what it holds. -/
theorem Regs.write_read {sz : Size} (h : sz = .b16 ∨ sz = .b32) (g : Regs) (r : Reg) :
    g.write sz r (g.read sz r) = g := by
  rcases h with rfl | rfl
  · simp [Regs.read, Regs.write, mergeWord_self, Regs.set_get]
  · simp [Regs.read, Regs.write, Regs.set_get]

/-- A full-size register reads back what was written, cut to the size. -/
theorem Regs.read_write_same {sz : Size} (h : sz = .b16 ∨ sz = .b32) (g : Regs) (r : Reg) (v : Dword) :
    (g.write sz r v).read sz r = trunc sz v := by
  rcases h with rfl | rfl
  · simp [Regs.read, Regs.write, Regs.get_set_same, mergeWord_low, trunc]
  · simp [Regs.read, Regs.write, Regs.get_set_same, trunc]

theorem Regs.write_write {sz : Size} (h : sz = .b16 ∨ sz = .b32) (g : Regs) (r : Reg) (v w : Dword) :
    (g.write sz r v).write sz r w = g.write sz r w := by
  rcases h with rfl | rfl
  · simp [Regs.write, Regs.get_set_same, Regs.set_set, mergeWord_mergeWord]
  · simp [Regs.write, Regs.set_set]

theorem trunc_toNat16 (v : Dword) : (trunc .b16 v).toNat = v.toNat % 65536 := by
  simp [trunc]
  have := v.isLt
  omega

theorem trunc_idem (sz : Size) (v : Dword) : trunc sz (trunc sz v) = trunc sz v := by
  cases sz
  · simp [trunc]
  · simp [trunc]
  · rfl

/-- Cutting before an addition makes no difference to the cut sum. -/
theorem trunc_add {sz : Size} (h : sz = .b16 ∨ sz = .b32) (v w : Dword) : trunc sz (trunc sz v + w) = trunc sz (v + w) := by
  rcases h with rfl | rfl
  · apply BitVec.eq_of_toNat_eq
    have hv := v.isLt
    have hw := w.isLt
    rw [trunc_toNat16, trunc_toNat16, BitVec.toNat_add, BitVec.toNat_add, trunc_toNat16]
    omega
  · rfl

/-! Pushes with paging off. -/

/-- The fields that say where the stack lies. -/
structure SameStack (s t : State) : Prop where
  ss : t.ss = s.ss
  cr0 : t.cr0 = s.cr0
  vm : t.eflags.vm = s.eflags.vm

theorem SameStack.size {s t : State} (h : SameStack s t) : t.stackSize = s.stackSize := by
  unfold State.stackSize State.protectedMode
  rw [h.ss, h.cr0, h.vm]

theorem SameStack.linear {s t : State} (h : SameStack s t) (off : Dword) : t.linear .ss off = s.linear .ss off := by
  unfold State.linear State.seg
  rw [h.ss]

theorem SameStack.segOk {s t : State} (h : SameStack s t) (off : Dword) (n : Nat) (w : Bool) :
    t.segOk .ss off n w = s.segOk .ss off n w := by
  unfold State.segOk State.seg
  rw [h.ss, h.cr0]

/-- After one push the next item's slot is where the second item's was. -/
theorem slot_setSp {s t : State} (h : SameStack s t) {sz : Size} (hr : t.regs = s.regsPushed sz 1) (i : Nat) :
    t.slot sz i = s.slot sz (i + 1) := by
  have hs := stackSize_cases s
  unfold State.slot State.spPlus State.sp State.reg
  rw [h.size, hr]
  unfold State.regsPushed
  rw [Regs.read_write_same hs]
  unfold State.spPlus State.sp State.reg
  rw [trunc_idem, trunc_add hs]
  congr 1
  rw [BitVec.add_assoc]
  congr 1
  apply BitVec.eq_of_toNat_eq
  have : sz.bytes ≤ 4 := bytes_le_four sz
  simp only [BitVec.toNat_add, BitVec.toNat_neg, BitVec.toNat_ofNat]
  have e : sz.bytes * (i + 1 + 1) = sz.bytes * (i + 1) + sz.bytes := by ring
  rw [e]
  omega

/-- What is stored depends only on what stood at the bytes stored to. -/
theorem stored_congr {s u : State} {as : List Dword} (hp : u.params = s.params)
    (hq : ∀ q ∈ as, u.readByte q = s.readByte q) (bs : List Byte) :
    List.zipWith u.stored as bs = List.zipWith s.stored as bs := by
  induction as generalizing bs with
  | nil => rfl
  | cons a as ih =>
    cases bs with
    | nil => rfl
    | cons b bs =>
      rw [List.zipWith_cons_cons, List.zipWith_cons_cons, ih (fun q h => hq q (List.mem_cons_of_mem _ h))]
      unfold State.stored State.isFixed
      rw [hp, hq a List.mem_cons_self]

/-- Two items do not overlap. -/
theorem slots_disjoint (s : State) (sz : Size) {i j : Nat} (hij : i < j) (hj : j < 1000) {p : Dword}
    (hp : p ∈ s.slotBytes sz i) : p ∉ s.slotBytes sz j := by
  intro hq
  obtain ⟨a, ha, rfl⟩ := mem_linearRange.1 hp
  obtain ⟨b, hb, he⟩ := mem_linearRange.1 hq
  have hk := bytes_le_four sz
  unfold State.linear at he
  rw [BitVec.add_assoc, BitVec.add_assoc] at he
  have he : s.slot sz i + BitVec.ofNat 32 a = s.slot sz j + BitVec.ofNat 32 b := by
    have := congrArg (fun v => v - (s.seg .ss).base) he
    simpa [BitVec.add_comm _ (_ + _), BitVec.add_sub_cancel] using this
  have hn := congrArg BitVec.toNat he
  obtain ⟨d, rfl⟩ : ∃ d, j = i + 1 + d := ⟨j - (i + 1), by omega⟩
  have e1 : sz.bytes * (i + 1 + d + 1) = sz.bytes * (i + 1) + sz.bytes * (d + 1) := by ring
  have b1 : sz.bytes * (i + 1) ≤ 4 * 1000 := Nat.mul_le_mul hk (by omega)
  have b2 : sz.bytes * (d + 1) ≤ 4 * 1000 := Nat.mul_le_mul hk (by omega)
  have b3 : sz.bytes ≤ sz.bytes * (d + 1) := Nat.le_mul_of_pos_right _ (by omega)
  unfold State.slot State.spPlus at hn
  rw [e1] at hn
  have hsp := s.sp.isLt
  rcases stackSize_cases s with h | h
  · rw [h] at hn
    simp only [BitVec.toNat_add, trunc_toNat16, BitVec.toNat_neg, BitVec.toNat_ofNat] at hn
    omega
  · rw [h] at hn
    simp only [trunc, BitVec.toNat_add, BitVec.toNat_neg, BitVec.toNat_ofNat] at hn
    omega

theorem slot_zero (s : State) (sz : Size) : s.slot sz 0 = s.spPlus (-(BitVec.ofNat 32 sz.bytes)) := by
  unfold State.slot; simp

theorem SameStack.slotOk {s t : State} (h : SameStack s t) {sz : Size} {i j : Nat} (he : t.slot sz i = s.slot sz j)
    (hc : s.slotOk sz j) : t.slotOk sz i := by
  unfold State.slotOk at hc ⊢
  rw [h.segOk, he, h.cr0]
  exact hc

theorem slotOk_not_wraps {s : State} {sz : Size} {i : Nat} (hc : s.slotOk sz i) :
    s.wrapsStack (s.slot sz i) sz.bytes = false := by
  unfold State.wrapsStack
  cases h : s.cr0.pe
  · have := hc.2 h
    simpa using this
  · simp

/-- In Real Mode an item that would wrap the segment is not pushed: a stack fault that changes nothing. -/
theorem push_of_wraps {s : State} {sz : Size} (v : Dword) (h : s.wrapsStack (s.slot sz 0) sz.bytes = true) :
    push sz v s = .error (.exn (Exn.ss 0) .nothing) s := by
  unfold push
  rw [run_bind_ok (run_get s), ← slot_zero, h]
  rfl

/-- With SP = 1 no item can be pushed in Real Mode (10_state.md R36). -/
theorem wrapsStack_of_one {s : State} (hp : s.cr0.pe = false) (h1 : s.sp = 1) {sz : Size} (hz : sz = .b16 ∨ sz = .b32) :
    s.wrapsStack (s.slot sz 0) sz.bytes = true := by
  have hs : s.stackSize = .b16 := by simp [State.stackSize, State.protectedMode, hp]
  rw [slot_zero]
  unfold State.wrapsStack State.spPlus
  rw [hp, hs, h1]
  rcases hz with rfl | rfl <;> decide

/-- One push. -/
theorem push_unpaged {s : State} (hp : s.Plain) (hw : Memory.wf s.mem = true) {sz : Size} (v : Dword)
    (hk : s.slotOk sz 0) :
    ∃ t, push sz v s = .ok () t ∧ t.regs = s.regsPushed sz 1 ∧ t.eflags = s.eflags ∧ t.putBack s = s ∧ t.pfx = s.pfx ∧
      t.shadow = s.shadow ∧ t.bus = s.bus ∧ Memory.wf t.mem = true ∧ Pushed s t sz [v] := by
  have hslot := slot_zero s sz
  have hc := hk.1
  have hn := slotOk_not_wraps hk
  obtain ⟨t, ht, he⟩ := memWrite_unpaged hp v hc
  refine ⟨t.setSp (s.slot sz 0), ?_, ?_, ?_, ?_, ?_, ?_, ?_, ?_, ?_⟩
  · unfold push
    rw [run_bind_ok (run_get s), ← hslot, hn,
      run_bind_ok (show raiseIf false (Exn.ss 0) s = .ok () s from rfl), run_bind_ok ht]
    rfl
  · have : t.stackSize = s.stackSize := SameStack.size ⟨by rw [he], by rw [he], by rw [he]⟩
    unfold State.setSp State.setReg State.regsPushed
    rw [this]
    simp only [Nat.mul_one]
    rw [← hslot, he]
  · unfold State.setSp State.setReg; rw [he]
  · unfold State.setSp State.setReg; rw [he]; rfl
  · unfold State.setSp State.setReg; rw [he]
  · unfold State.setSp State.setReg; rw [he]
  · unfold State.setSp State.setReg; rw [he]
  · unfold State.setSp State.setReg; rw [he]; exact writeCells_wf hw _ _
  · have hm : ∀ p, (t.setSp (s.slot sz 0)).readByte p =
        Memory.read (writeCells s.isFixed s.mem (s.slotBytes sz 0) (leBytes sz.bytes v)) p.toNat := by
      intro p; unfold State.setSp State.setReg State.readByte; rw [he]; rfl
    constructor
    · intro i w hi
      cases i with
      | succ i => simp at hi
      | zero =>
        simp at hi
        subst hi
        apply List.ext_getElem
        · simp [State.slotBytes]
        · intro k h1 h2
          rw [List.length_map] at h1
          have hb : k < (leBytes sz.bytes v).length := by rw [List.length_zipWith] at h2; omega
          rw [List.getElem_map, hm, List.getElem_zipWith]
          exact read_writeCells_get hw _ _ (linearRange_nodup _ _ (by have := bytes_le_four sz; omega)) h1 hb
    · intro p hp'
      rw [hm]
      exact read_writeCells_other hw _ _ (hp' 0 (by simp))

/-- A list of pushes. -/
theorem pushAll_unpaged {sz : Size} {items : List Dword} {s : State} (hp : s.Plain)
    (hw : Memory.wf s.mem = true) (hl : items.length < 1000)
    (hc : ∀ i, i < items.length → s.slotOk sz i) :
    ∃ t, pushAll sz items s = .ok () t ∧ t.regs = s.regsPushed sz items.length ∧ t.eflags = s.eflags ∧ t.putBack s = s ∧
      t.pfx = s.pfx ∧ t.shadow = s.shadow ∧ t.bus = s.bus ∧ Memory.wf t.mem = true ∧ Pushed s t sz items := by
  induction items generalizing s with
  | nil =>
    refine ⟨s, rfl, ?_, rfl, rfl, rfl, rfl, rfl, hw, ⟨by simp, fun p _ => rfl⟩⟩
    have hs := stackSize_cases s
    unfold State.regsPushed State.spPlus State.sp State.reg
    simp only [List.length_nil, Nat.mul_zero, BitVec.neg_zero, BitVec.add_zero]
    rw [show trunc s.stackSize (s.regs.read s.stackSize .esp) = s.regs.read s.stackSize .esp by
      rcases hs with h | h <;> rw [h] <;> simp [Regs.read, trunc], Regs.write_read hs]
  | cons v items ih =>
    obtain ⟨s1, h1, r1, f1, b1, p1, sh1, bus1, w1, m1⟩ := push_unpaged hp hw v (hc 0 (by simp))
    have hcr : s1.cr0 = s.cr0 := putBack_congr b1 (·.cr0) fun _ _ => rfl
    have hss : s1.ss = s.ss := putBack_congr b1 (·.ss) fun _ _ => rfl
    have hpar : s1.params = s.params := putBack_congr b1 (·.params) fun _ _ => rfl
    have hst : SameStack s s1 := ⟨hss, hcr, by rw [f1]⟩
    have hslot := slot_setSp hst r1
    have hbytes : ∀ i, s1.slotBytes sz i = s.slotBytes sz (i + 1) := by
      intro i; unfold State.slotBytes; rw [hslot, hst.linear]
    simp only [List.length_cons] at hl hc
    obtain ⟨t, ht, r, f, b, p, sh, bus, w, m⟩ := ih (s := s1) ⟨by rw [hcr]; exact hp.unpaged, by unfold State.AllMemory; rw [hpar]; exact hp.memory⟩ w1 (by omega) (by
      intro i hi
      exact hst.slotOk (hslot i) (hc (i + 1) (by omega)))
    refine ⟨t, ?_, ?_, f.trans f1, putBack_trans b1 b, p.trans p1, sh.trans sh1, bus.trans bus1, w, ?_⟩
    · unfold pushAll
      rw [run_bind_ok h1]; exact ht
    · have hs := stackSize_cases s
      rw [r]
      unfold State.regsPushed
      rw [hst.size, r1]
      unfold State.regsPushed
      rw [Regs.write_write hs]
      congr 1
      have e : ∀ n, s1.spPlus (-(BitVec.ofNat 32 (sz.bytes * (n + 1)))) = s.spPlus (-(BitVec.ofNat 32 (sz.bytes * (n + 1 + 1)))) :=
        fun n => hslot n
      cases items with
      | nil =>
        unfold State.spPlus State.sp State.reg
        rw [hst.size, r1]
        unfold State.regsPushed
        rw [Regs.read_write_same hs]
        simp only [List.length_nil, Nat.mul_zero, BitVec.neg_zero, BitVec.add_zero, List.length_cons]
        unfold State.spPlus
        rw [trunc_idem, trunc_idem]
        rfl
      | cons x xs => simpa using e xs.length
    · constructor
      · intro i x hi
        cases i with
        | succ i =>
          have hx := m.1 i x (by simpa using hi)
          have hi' : i < items.length := by
            have := (List.getElem?_eq_some_iff.1 (by simpa using hi : items[i]? = some x)).1
            exact this
          rw [hbytes] at hx
          rw [hx]
          refine stored_congr hpar (fun q hq => m1.2 q (fun j hj => by
            have : j = 0 := by simpa using hj
            subst this
            intro h0
            exact slots_disjoint s sz (i := 0) (j := i + 1) (by omega) (by omega) h0 hq)) _
        | zero =>
          simp at hi
          subst hi
          rw [← m1.1 0 v rfl]
          apply List.map_congr_left
          intro q hq
          apply m.2
          intro i hi
          rw [hbytes]
          exact slots_disjoint s sz (by omega) (by omega) hq
      · intro q hq
        rw [m.2 q (fun i hi => by rw [hbytes]; exact hq (i + 1) (by simpa using hi))]
        exact m1.2 q (fun i hi => by
          have : i = 0 := by simpa using hi
          subst this
          exact hq 0 (by simp))

end Sys2Proof.Machine
end

