-- ==== Sys2Proof/Laws/SegmentLoad.lean ====
section
/-! SUPPORT. What a segment register load that answers has done, said once. -/

namespace Sys2Proof.Machine

/-- Stores change memory alone. -/
theorem State.storingAll_eq (s : State) (xs : List (Dword × List Byte)) :
    s.storingAll xs = { s with mem := (s.storingAll xs).mem } := by
  induction xs generalizing s with
  | nil => rfl
  | cons x xs ih => exact ih (s.storing x.1 x.2)

/-- The Accessed bit of a descriptor is in memory alone. -/
theorem State.markingAccessed_eq (s : State) (sel : Word) (d : Descriptor) :
    s.markingAccessed sel d = { s with mem := (s.markingAccessed sel d).mem } := s.storingAll_eq _

theorem quiet_raiseIf {c : Bool} {e : Exn} {s t : State} {a : Unit} (h : raiseIf c e s = .ok a t) : Quiet s t := by
  obtain ⟨_, rfl⟩ := run_raiseIf_eq_ok.1 h
  exact .refl _

theorem quiet_readDescriptorAt {l : Dword} {d : Descriptor} {s t : State} (h : readDescriptorAt l s = .ok d t) :
    Quiet s t := by
  unfold readDescriptorAt at h
  obtain ⟨_, s1, h1, h⟩ := run_bind_eq_ok.1 h
  cases h
  exact quiet_readLinear h1

theorem quiet_readDescriptor {sel : Word} {e : Exn} {d : Descriptor} {s t : State}
    (h : readDescriptor sel e s = .ok d t) : Quiet s t := by
  unfold readDescriptor at h
  obtain ⟨_, s1, h1, h⟩ := run_bind_eq_ok.1 h
  cases h1
  obtain ⟨_, s2, h2, h⟩ := run_bind_eq_ok.1 h
  exact (quiet_raiseIf h2).trans (quiet_readDescriptorAt h)

theorem quiet_loadStackSegment {cpl : BitVec 2} {sel : Word} {a b c : Exn} {d : Descriptor} {s t : State}
    (h : loadStackSegment cpl sel a b c s = .ok d t) : Quiet s t := by
  unfold loadStackSegment at h
  obtain ⟨_, s1, h1, h⟩ := run_bind_eq_ok.1 h
  obtain ⟨_, s2, h2, h⟩ := run_bind_eq_ok.1 h
  obtain ⟨_, s3, h3, h⟩ := run_bind_eq_ok.1 h
  obtain ⟨_, s4, h4, h⟩ := run_bind_eq_ok.1 h
  cases h
  exact (((quiet_raiseIf h1).trans (quiet_readDescriptor h2)).trans (quiet_raiseIf h3)).trans (quiet_raiseIf h4)

theorem quiet_loadDataSegment {cpl : BitVec 2} {sel : Word} {b c : Exn} {d : Descriptor} {s t : State}
    (h : loadDataSegment cpl sel b c s = .ok d t) : Quiet s t := by
  unfold loadDataSegment at h
  obtain ⟨_, s1, h1, h⟩ := run_bind_eq_ok.1 h
  obtain ⟨_, s2, h2, h⟩ := run_bind_eq_ok.1 h
  obtain ⟨_, s3, h3, h⟩ := run_bind_eq_ok.1 h
  obtain ⟨_, s4, h4, h⟩ := run_bind_eq_ok.1 h
  cases h
  exact (((quiet_readDescriptor h1).trans (quiet_raiseIf h2)).trans (quiet_raiseIf h3)).trans (quiet_raiseIf h4)

/-- Nothing has changed but bookkeeping and, with paging off, at most the byte at physical address `a`. -/
structure QuietBut (a : Dword) (s t : State) : Prop where
  regs : t.regs = s.regs
  eflags : t.eflags = s.eflags
  rest : t.putBack s = s
  pfx : t.pfx = s.pfx
  shadow : t.shadow = s.shadow
  wf : Memory.wf s.mem = true → Memory.wf t.mem = true
  bytes : Memory.wf s.mem = true → s.cr0.pg = false → ∀ p, p = a ∨ t.readByte p = s.readByte p

theorem Quiet.but {s t : State} (a : Dword) (h : Quiet s t) : QuietBut a s t :=
  ⟨h.regs, h.eflags, h.rest, h.pfx, h.shadow, h.wf, fun w g p => .inr ((h.bytes w p).eq g)⟩

theorem QuietBut.trans {a : Dword} {s t u : State} (h : QuietBut a s t) (k : QuietBut a t u) : QuietBut a s u := by
  refine ⟨k.regs.trans h.regs, k.eflags.trans h.eflags, putBack_trans h.rest k.rest, k.pfx.trans h.pfx,
    k.shadow.trans h.shadow, fun w => k.wf (h.wf w), fun w g p => ?_⟩
  have hg : t.cr0.pg = false := by rw [show t.cr0 = s.cr0 from putBack_congr h.rest (·.cr0) fun _ _ => rfl]; exact g
  rcases k.bytes (h.wf w) hg p with e | e
  · exact .inl e
  · rcases h.bytes w g p with e' | e'
    · exact .inl e'
    · exact .inr (e.trans e')

/-- The Accessed bit: one byte of the descriptor. -/
theorem setAccessed_ok {sel : Word} {d : Descriptor} {s t : State} {a : Unit} (h : setAccessed sel d s = .ok a t) :
    QuietBut (s.descriptorAt sel + 5) s t := by
  unfold setAccessed at h
  obtain ⟨_, s1, h1, h⟩ := run_bind_eq_ok.1 h
  cases h1
  split at h
  · cases h; exact (Quiet.refl _).but _
  · unfold sysWrite at h
    obtain ⟨as, s2, s3, hr, hq, rfl⟩ := writeLinear_ok h
    refine ⟨hq.regs, hq.eflags, hq.rest, hq.pfx, hq.shadow, fun w => State.storePhys_wf (hq.wf w) _ _, fun w g p => ?_⟩
    have hu := physRange_unpaged g true false (s.descriptorAt sel + 5) (leBytes Size.b8.bytes (d.hi >>> 8 ||| 1)).length
      (by simp [Size.bytes]) (by simp [Size.bytes])
    rw [hr] at hu
    cases hu
    by_cases hp : p = s.descriptorAt sel + 5
    · exact .inl hp
    · refine .inr ?_
      have e : (s3.storePhys (linearRange (s.descriptorAt sel + 5) (leBytes Size.b8.bytes (d.hi >>> 8 ||| 1)).length)
          (leBytes Size.b8.bytes (d.hi >>> 8 ||| 1))).readByte p = s3.readByte p :=
        read_writeCells_other (hq.wf w) _ _ (by simp [Size.bytes, linearRange]; exact hp)
      rw [e]
      exact (hq.bytes w p).eq g

/-- From `s` to `t` segment register `sr` has been loaded with what `sel` names, and nothing else has changed but
bookkeeping and, with paging off, at most one byte of its descriptor. -/
structure Loaded (sr : SReg) (sel : Word) (s t : State) : Prop where
  regs : t.regs = s.regs
  eflags : t.eflags = s.eflags
  rest : t.putBack s = s.setSeg sr (t.seg sr)
  pfx : t.pfx = s.pfx
  shadow : t.shadow = s.shadow
  wf : Memory.wf s.mem = true → Memory.wf t.mem = true
  bytes : Memory.wf s.mem = true → s.cr0.pg = false → ∀ p, p = s.descriptorAt sel + 5 ∨ t.readByte p = s.readByte p
  real : Memory.wf s.mem = true → s.protectedMode = false → NoStore s t

theorem Quiet.descriptorAt {s t : State} (h : Quiet s t) (sel : Word) : t.descriptorAt sel = s.descriptorAt sel :=
  putBack_congr h.rest (fun s => s.descriptorAt sel) fun _ _ => rfl

theorem setSeg_putBack (s t : State) (sr : SReg) (c : SegReg) :
    (t.setSeg sr c).putBack s = (t.putBack s).setSeg sr c := by cases sr <;> rfl

theorem seg_setSeg_same (s : State) (sr : SReg) (c : SegReg) : (s.setSeg sr c).seg sr = c := by cases sr <;> rfl

theorem setSeg_seg (s : State) (sr : SReg) : s.setSeg sr (s.seg sr) = s := by cases sr <;> rfl

theorem setSeg_setSeg (s : State) (sr : SReg) (c d : SegReg) : (s.setSeg sr c).setSeg sr d = s.setSeg sr d := by
  cases sr <;> rfl

theorem Loaded.of_but {s t : State} {sr : SReg} {sel : Word} (c : SegReg) (hm : s.protectedMode = true)
    (h : QuietBut (s.descriptorAt sel + 5) s t) : Loaded sr sel s (t.setSeg sr c) := by
  have e : ∀ {γ : Type} (f : State → γ), (∀ a, f (a.setSeg sr c) = f a) → f (t.setSeg sr c) = f t := fun f hf => hf t
  refine ⟨?_, ?_, ?_, ?_, ?_, ?_, ?_, fun _ hr => by rw [hm] at hr; cases hr⟩
  · rw [← h.regs]; cases sr <;> rfl
  · rw [← h.eflags]; cases sr <;> rfl
  · rw [setSeg_putBack, h.rest, seg_setSeg_same]
  · rw [← h.pfx]; cases sr <;> rfl
  · rw [← h.shadow]; cases sr <;> rfl
  · have : (t.setSeg sr c).mem = t.mem := by cases sr <;> rfl
    rw [this]; exact h.wf
  · intro w g p
    have : (t.setSeg sr c).readByte p = t.readByte p := by cases sr <;> rfl
    rw [this]; exact h.bytes w g p

theorem loadSegProtected_ok {sr : SReg} {sel : Word} {s t : State} {a : Unit} (hm : s.protectedMode = true)
    (h : loadSegProtected sr sel s = .ok a t) : Loaded sr sel s t := by
  unfold loadSegProtected at h
  obtain ⟨_, s0, h0, k⟩ := run_bind_eq_ok.1 h
  cases h0
  clear h
  split at k
  · next hs =>
    subst hs
    obtain ⟨d, s1, h1, k⟩ := run_bind_eq_ok.1 k
    obtain ⟨_, s2, h2, k⟩ := run_bind_eq_ok.1 k
    cases k
    have q := quiet_loadStackSegment h1
    have k := setAccessed_ok h2
    rw [q.descriptorAt] at k
    exact Loaded.of_but _ hm ((q.but _).trans k)
  · split at k
    · cases k
      exact Loaded.of_but (sr := sr) _ hm ((Quiet.refl s).but _)
    · obtain ⟨d, s1, h1, k⟩ := run_bind_eq_ok.1 k
      obtain ⟨_, s2, h2, k⟩ := run_bind_eq_ok.1 k
      cases k
      have q := quiet_loadDataSegment h1
      have k := setAccessed_ok h2
      rw [q.descriptorAt] at k
      exact Loaded.of_but _ hm ((q.but _).trans k)

/-- What a segment register load that answers has done, in any mode. -/
theorem loadSeg_ok {sr : SReg} {sel : Word} {s t : State} {a : Unit} (h : loadSeg sr sel s = .ok a t) :
    Loaded sr sel s t := by
  unfold loadSeg at h
  obtain ⟨_, s0, h0, h⟩ := run_bind_eq_ok.1 h
  cases h0
  split at h
  · next hm => exact loadSegProtected_ok hm h
  · cases h
    have hl : ∃ c, s.load8086 sr sel = s.setSeg sr c := by
      unfold State.load8086; split <;> exact ⟨_, rfl⟩
    obtain ⟨c, hc⟩ := hl
    show Loaded sr sel s (s.load8086 sr sel)
    rw [hc]
    refine ⟨?_, ?_, ?_, ?_, ?_, ?_, ?_, ?_⟩
    · cases sr <;> rfl
    · cases sr <;> rfl
    · rw [seg_setSeg_same]; cases sr <;> rfl
    · cases sr <;> rfl
    · cases sr <;> rfl
    · cases sr <;> exact id
    · intro _ _ p; right; cases sr <;> rfl
    · intro _ _ p; left; cases sr <;> rfl

end Sys2Proof.Machine
end

