-- ==== Sys2Proof/Tests/Slice0.lean ====
section
/-! SUPPORT. Tests: the checks of `WellFormed`, every row of the opcode table decoded from a word written out from its
encoding, single steps with the results that 95_test_vectors.md and the instruction files give, and a state for each
hypothesis of the statements. -/

namespace Sys2Proof.Tests

open Sys2Proof.Machine

set_option Elab.async false

/-! Each check of `WellFormed` refuses a term that fails it alone. -/

def c16 : Ctx := Ctx.reset
def c32 : Ctx := { osz32 := true, asz32 := true, rep := none }

theorem test_wf_a16_under_32 : (RM.mem (.a16 .si .none)).wf c32 = false := by decide
theorem test_wf_bp_needs_displacement : (RM.mem (.a16 .bp .none)).wf c16 = false := by decide
theorem test_wf_abs16_under_32 : (MemOp.abs16 0x10).wf c32 = false := by decide
theorem test_wf_a32_under_16 : (MemOp.a32 .eax .none).wf c16 = false := by decide
theorem test_wf_a32_esp_needs_sib : (MemOp.a32 .esp (.d8 1)).wf c32 = false := by decide
theorem test_wf_a32_ebp_needs_displacement : (MemOp.a32 .ebp .none).wf c32 = false := by decide
theorem test_wf_abs32_under_16 : (MemOp.abs32 0x10).wf c16 = false := by decide
theorem test_wf_sib_under_16 : (MemOp.sib .eax .x1 (some .ecx) .none).wf c16 = false := by decide
theorem test_wf_sib_index_esp : (MemOp.sib .eax .x1 (some .esp) .none).wf c32 = false := by decide
theorem test_wf_sib_ebp_needs_displacement : (MemOp.sib .ebp .x1 (some .ecx) .none).wf c32 = false := by decide
theorem test_wf_sibAbs_under_16 : (MemOp.sibAbs .x1 (some .ecx) 0).wf c16 = false := by decide
theorem test_wf_sibAbs_index_esp : (MemOp.sibAbs .x1 (some .esp) 0).wf c32 = false := by decide
theorem test_wf_imm_byte : (Instr.movRegImm .byte .ecx (.i16 1)).wf c16 = false := by decide
theorem test_wf_imm_full_not_8 : (Instr.movRegImm .full .ecx (.i8 1)).wf c16 = false := by decide
theorem test_wf_imm_full_16 : (Instr.movRegImm .full .ecx (.i16 1)).wf c32 = false := by decide
theorem test_wf_imm_full_32 : (Instr.movRegImm .full .ecx (.i32 1)).wf c16 = false := by decide
theorem test_wf_imm_s_byte : (Instr.addRmImm .byte (.reg .ecx) (.i16 1)).wf c16 = false := by decide
theorem test_wf_imm_s_full : (Instr.addRmImm .full (.reg .ecx) (.i32 1)).wf c16 = false := by decide
theorem test_wf_off_16 : (Instr.callRel (.o16 1)).wf c32 = false := by decide
theorem test_wf_off_32 : (Instr.movAccMem .full (.o32 1)).wf c16 = false := by decide
theorem test_wf_mov_cs : (Instr.movSregRm .cs (.reg .eax)).wf c16 = false := by decide
theorem test_wf_xchg_eax_is_nop : (Instr.xchgAccReg .eax).wf c16 = false := by decide
theorem test_wf_string_after_rep : (Instr.movs .byte).wf { c16 with rep := some .f3 } = false := by decide

/-! Decoding: for every row of opcode_table.json an instruction's bytes, written out from the row's encoding. -/

/-- Each list of bytes decodes, whole, to the instruction beside it. -/
def decodes (c : Ctx) (rows : List (List Byte × Instr)) : Bool :=
  rows.all fun p => decode c p.1 == .instr p.2 p.1.length

theorem test_decode_addrsize_to_movMemAcc : decodes Ctx.reset [
    ([0b01100111], .addrsize),
    ([0b11110000], .lock),
    ([0b01100110], .opsize),
    ([0b00101110], .segCs),
    ([0b00111110], .segDs),
    ([0b00100110], .segEs),
    ([0b01100100], .segFs),
    ([0b01100101], .segGs),
    ([0b00110110], .segSs),
    ([0b10001001, 0b00010011], .movRmReg .full .edx (.mem (.a16 .bpDi .none))),
    ([0b10001011, 0b11101101], .movRegRm .full .ebp (.reg .ebp)),
    ([0b11000110, 0b10000001, 0x34, 0x12, 0x9C], .movRmImm .byte (.mem (.a16 .bxDi (.d16 0x1234))) (.i8 0x9C)),
    ([0b10111011, 0xEF, 0xBE], .movRegImm .full .ebx (.i16 0xBEEF)),
    ([0b10100001, 0x78, 0x96], .movAccMem .full (.o16 0x9678)),
    ([0b10100011, 0x78, 0x96], .movMemAcc .full (.o16 0x9678))] = true := by decide +kernel

theorem test_decode_movSregRm_to_popRm : decodes Ctx.reset [
    ([0b10001110, 0b10011101, 0x34, 0x12], .movSregRm .ds (.mem (.a16 .di (.d16 0x1234)))),
    ([0b10001100, 0b11101011], .movRmSreg .gs (.reg .ebx)),
    ([0b00001111, 0b10111111, 0b00010011], .movsx .full .edx (.mem (.a16 .bpDi .none))),
    ([0b00001111, 0b10110111, 0b01101110, 0x85], .movzx .full .ebp (.mem (.a16 .bp (.d8 0x85)))),
    ([0b11111111, 0b11110010], .pushRm (.reg .edx)),
    ([0b01010011], .pushReg .ebx),
    ([0b01101010, 0x9C], .pushImm (.i8 0x9C)),
    ([0b00000110], .pushEs),
    ([0b00001110], .pushCs),
    ([0b00010110], .pushSs),
    ([0b00011110], .pushDs),
    ([0b00001111, 0b10100000], .pushFs),
    ([0b00001111, 0b10101000], .pushGs),
    ([0b01100000], .pusha),
    ([0b10001111, 0b00000111], .popRm (.mem (.a16 .bx .none)))] = true := by decide +kernel

theorem test_decode_popReg_to_lds : decodes Ctx.reset [
    ([0b01011001], .popReg .ecx),
    ([0b00000111], .popEs),
    ([0b00010111], .popSs),
    ([0b00011111], .popDs),
    ([0b00001111, 0b10100001], .popFs),
    ([0b00001111, 0b10101001], .popGs),
    ([0b01100001], .popa),
    ([0b10000111, 0b11110100], .xchgRmReg .full .esi (.reg .esp)),
    ([0b10010001], .xchgAccReg .ecx),
    ([0b11100100, 0xD3], .inImm .byte 0xD3),
    ([0b11101101], .inDx .full),
    ([0b11100111, 0xD3], .outImm .full 0xD3),
    ([0b11101111], .outDx .full),
    ([0b10001101, 0b10000001, 0x34, 0x12], .lea .eax (.a16 .bxDi (.d16 0x1234))),
    ([0b11000101, 0b00011110, 0xCD, 0xAB], .lds .ebx (.abs16 0xABCD))] = true := by decide +kernel

theorem test_decode_les_to_sti : decodes Ctx.reset [
    ([0b11000100, 0b00110111], .les .esi (.a16 .bx .none)),
    ([0b00001111, 0b10110100, 0b01001010, 0x85], .lfs .ecx (.a16 .bpSi (.d8 0x85))),
    ([0b00001111, 0b10110101, 0b10100101, 0x34, 0x12], .lgs .esp (.a16 .di (.d16 0x1234))),
    ([0b00001111, 0b10110010, 0b00111110, 0xCD, 0xAB], .lss .edi (.abs16 0xABCD)),
    ([0b11111000], .clc),
    ([0b11111100], .cld),
    ([0b11111010], .cli),
    ([0b11110101], .cmc),
    ([0b10011111], .lahf),
    ([0b10011101], .popf),
    ([0b10011100], .pushf),
    ([0b10011110], .sahf),
    ([0b11111001], .stc),
    ([0b11111101], .std),
    ([0b11111011], .sti)] = true := by decide +kernel

theorem test_decode_clts_to_sbbAccImm : decodes Ctx.reset [
    ([0b00001111, 0b00000110], .clts),
    ([0b00000011, 0b11110100], .addRegRm .toReg .full .esi (.reg .esp)),
    ([0b10000001, 0b01000010, 0x85, 0xEF, 0xBE], .addRmImm .full (.mem (.a16 .bpSi (.d8 0x85))) (.i16 0xBEEF)),
    ([0b00000100, 0x9C], .addAccImm .byte (.i8 0x9C)),
    ([0b00010001, 0b11111011], .adcRegRm .toRm .full .edi (.reg .ebx)),
    ([0b10000011, 0b00010011, 0x9C], .adcRmImm .full (.mem (.a16 .bpDi .none)) (.i8 0x9C)),
    ([0b00010101, 0xEF, 0xBE], .adcAccImm .full (.i16 0xBEEF)),
    ([0b11111110, 0b11000010], .incRm .byte (.reg .edx)),
    ([0b01000011], .incReg .ebx),
    ([0b00101011, 0b00110111], .subRegRm .toReg .full .esi (.mem (.a16 .bx .none))),
    ([0b10000001, 0b11101001, 0xEF, 0xBE], .subRmImm .full (.reg .ecx) (.i16 0xBEEF)),
    ([0b00101100, 0x9C], .subAccImm .byte (.i8 0x9C)),
    ([0b00011001, 0b00111110, 0xCD, 0xAB], .sbbRegRm .toRm .full .edi (.mem (.abs16 0xABCD))),
    ([0b10000011, 0b11011000, 0x9C], .sbbRmImm .full (.reg .eax) (.i8 0x9C)),
    ([0b00011101, 0xEF, 0xBE], .sbbAccImm .full (.i16 0xBEEF))] = true := by decide +kernel

theorem test_decode_decRm_to_div : decodes Ctx.reset [
    ([0b11111110, 0b10001001, 0x34, 0x12], .decRm .byte (.mem (.a16 .bxDi (.d16 0x1234)))),
    ([0b01001011], .decReg .ebx),
    ([0b00111011, 0b00110111], .cmpRegRm .toReg .full .esi (.mem (.a16 .bx .none))),
    ([0b10000001, 0b01111010, 0x85, 0xEF, 0xBE], .cmpRmImm .full (.mem (.a16 .bpSi (.d8 0x85))) (.i16 0xBEEF)),
    ([0b00111100, 0x9C], .cmpAccImm .byte (.i8 0x9C)),
    ([0b11110111, 0b00011110, 0xCD, 0xAB], .neg .full (.mem (.abs16 0xABCD))),
    ([0b00110111], .aaa),
    ([0b00111111], .aas),
    ([0b00100111], .daa),
    ([0b00101111], .das),
    ([0b11110111, 0b11100100], .mul .full (.reg .esp)),
    ([0b11110111, 0b01101010, 0x85], .imulAcc .full (.mem (.a16 .bpSi (.d8 0x85)))),
    ([0b00001111, 0b10101111, 0b10100101, 0x34, 0x12], .imulReg .esp (.mem (.a16 .di (.d16 0x1234)))),
    ([0b01101001, 0b11111011, 0xEF, 0xBE], .imulImm .edi (.reg .ebx) (.i16 0xBEEF)),
    ([0b11110111, 0b00110011], .div .full (.mem (.a16 .bpDi .none)))] = true := by decide +kernel

theorem test_decode_idiv_to_rcrBy1 : decodes Ctx.reset [
    ([0b11110111, 0b01111110, 0x85], .idiv .full (.mem (.a16 .bp (.d8 0x85)))),
    ([0b11010101, 0b00001010], .aad 10),
    ([0b11010100, 0b00001010], .aam 10),
    ([0b10011000], .cbw),
    ([0b10011001], .cwd),
    ([0b11010000, 0b10000101, 0x34, 0x12], .rolBy1 .byte (.mem (.a16 .di (.d16 0x1234)))),
    ([0b11010011, 0b00000110, 0xCD, 0xAB], .rolByCl .full (.mem (.abs16 0xABCD))),
    ([0b11000001, 0b11000000, 0xD3], .rolByImm .full (.reg .eax) 0xD3),
    ([0b11010001, 0b01001110, 0x85], .rorBy1 .full (.mem (.a16 .bp (.d8 0x85)))),
    ([0b11010010, 0b10001001, 0x34, 0x12], .rorByCl .byte (.mem (.a16 .bxDi (.d16 0x1234)))),
    ([0b11000001, 0b11001111, 0xD3], .rorByImm .full (.reg .edi) 0xD3),
    ([0b11010001, 0b00010111], .rclBy1 .full (.mem (.a16 .bx .none))),
    ([0b11010011, 0b01010010, 0x85], .rclByCl .full (.mem (.a16 .bpSi (.d8 0x85)))),
    ([0b11000000, 0b11010110, 0xD3], .rclByImm .byte (.reg .esi) 0xD3),
    ([0b11010001, 0b00011110, 0xCD, 0xAB], .rcrBy1 .full (.mem (.abs16 0xABCD)))] = true := by decide +kernel

theorem test_decode_rcrByCl_to_shrdCl : decodes Ctx.reset [
    ([0b11010011, 0b00011011], .rcrByCl .full (.mem (.a16 .bpDi .none))),
    ([0b11000001, 0b11011101, 0xD3], .rcrByImm .full (.reg .ebp) 0xD3),
    ([0b11010000, 0b10100001, 0x34, 0x12], .shlBy1 .byte (.mem (.a16 .bxDi (.d16 0x1234)))),
    ([0b11010011, 0b00100110, 0xCD, 0xAB], .shlByCl .full (.mem (.abs16 0xABCD))),
    ([0b11000001, 0b11100100, 0xD3], .shlByImm .full (.reg .esp) 0xD3),
    ([0b11010001, 0b01101010, 0x85], .shrBy1 .full (.mem (.a16 .bpSi (.d8 0x85)))),
    ([0b11010010, 0b10101101, 0x34, 0x12], .shrByCl .byte (.mem (.a16 .di (.d16 0x1234)))),
    ([0b11000001, 0b11101011, 0xD3], .shrByImm .full (.reg .ebx) 0xD3),
    ([0b11010001, 0b00111011], .sarBy1 .full (.mem (.a16 .bpDi .none))),
    ([0b11010011, 0b01111110, 0x85], .sarByCl .full (.mem (.a16 .bp (.d8 0x85)))),
    ([0b11000000, 0b11111010, 0xD3], .sarByImm .byte (.reg .edx) 0xD3),
    ([0b00001111, 0b10100100, 0b00011110, 0xCD, 0xAB, 0xD3], .shldImm .ebx (.mem (.abs16 0xABCD)) 0xD3),
    ([0b00001111, 0b10100101, 0b00110111], .shldCl .esi (.mem (.a16 .bx .none))),
    ([0b00001111, 0b10101100, 0b11001001, 0xD3], .shrdImm .ecx (.reg .ecx) 0xD3),
    ([0b00001111, 0b10101101, 0b10100101, 0x34, 0x12], .shrdCl .esp (.mem (.a16 .di (.d16 0x1234))))] = true := by decide +kernel

theorem test_decode_andRegRm_to_xorAccImm : decodes Ctx.reset [
    ([0b00100001, 0b00111110, 0xCD, 0xAB], .andRegRm .toRm .full .edi (.mem (.abs16 0xABCD))),
    ([0b10000001, 0b11100000, 0xEF, 0xBE], .andRmImm .full (.reg .eax) (.i16 0xBEEF)),
    ([0b10000011, 0b01100110, 0x85, 0xD3], .andRmImm8 (.mem (.a16 .bp (.d8 0x85))) 0xD3),
    ([0b00100100, 0x9C], .andAccImm .byte (.i8 0x9C)),
    ([0b10000101, 0b11011111], .testRmReg .full .ebx (.reg .edi)),
    ([0b11110111, 0b00000111, 0xEF, 0xBE], .testRmImm .full (.mem (.a16 .bx .none)) (.i16 0xBEEF)),
    ([0b10101001, 0xEF, 0xBE], .testAccImm .full (.i16 0xBEEF)),
    ([0b00001010, 0b11100110], .orRegRm .toReg .byte .esp (.reg .esi)),
    ([0b10000001, 0b00001110, 0xCD, 0xAB, 0xEF, 0xBE], .orRmImm .full (.mem (.abs16 0xABCD)) (.i16 0xBEEF)),
    ([0b10000011, 0b00001011, 0xD3], .orRmImm8 (.mem (.a16 .bpDi .none)) 0xD3),
    ([0b00001101, 0xEF, 0xBE], .orAccImm .full (.i16 0xBEEF)),
    ([0b00110010, 0b10000001, 0x34, 0x12], .xorRegRm .toReg .byte .eax (.mem (.a16 .bxDi (.d16 0x1234)))),
    ([0b10000001, 0b00110110, 0xCD, 0xAB, 0xEF, 0xBE], .xorRmImm .full (.mem (.abs16 0xABCD)) (.i16 0xBEEF)),
    ([0b10000011, 0b11110100, 0xD3], .xorRmImm8 (.reg .esp) 0xD3),
    ([0b00110101, 0xEF, 0xBE], .xorAccImm .full (.i16 0xBEEF))] = true := by decide +kernel

theorem test_decode_notRm_to_repInsF3 : decodes Ctx.reset [
    ([0b11110110, 0b10010101, 0x34, 0x12], .notRm .byte (.mem (.a16 .di (.d16 0x1234)))),
    ([0b10100111], .cmps .full),
    ([0b01101101], .ins .full),
    ([0b10101101], .lods .full),
    ([0b10100100], .movs .byte),
    ([0b01101111], .outs .full),
    ([0b10101111], .scas .full),
    ([0b10101011], .stos .full),
    ([0b11010111], .xlat),
    ([0b11110011, 0b10100111], .repeCmps .full),
    ([0b11110010, 0b10100111], .repneCmps .full),
    ([0b11110011, 0b10101111], .repeScas .full),
    ([0b11110010, 0b10101110], .repneScas .byte),
    ([0b11110010, 0b01101101], .repInsF2 .full),
    ([0b11110011, 0b01101101], .repInsF3 .full)] = true := by decide +kernel

theorem test_decode_repLodsF2_to_btrImm : decodes Ctx.reset [
    ([0b11110010, 0b10101101], .repLodsF2 .full),
    ([0b11110011, 0b10101100], .repLodsF3 .byte),
    ([0b11110010, 0b10100101], .repMovsF2 .full),
    ([0b11110011, 0b10100101], .repMovsF3 .full),
    ([0b11110010, 0b01101111], .repOutsF2 .full),
    ([0b11110011, 0b01101110], .repOutsF3 .byte),
    ([0b11110010, 0b10101011], .repStosF2 .full),
    ([0b11110011, 0b10101011], .repStosF3 .full),
    ([0b00001111, 0b10111100, 0b01001010, 0x85], .bsf .ecx (.mem (.a16 .bpSi (.d8 0x85)))),
    ([0b00001111, 0b10111101, 0b10100101, 0x34, 0x12], .bsr .esp (.mem (.a16 .di (.d16 0x1234)))),
    ([0b00001111, 0b10111010, 0b11100011, 0xD3], .btImm (.reg .ebx) 0xD3),
    ([0b00001111, 0b10100011, 0b00010011], .btReg .edx (.mem (.a16 .bpDi .none))),
    ([0b00001111, 0b10111010, 0b01111110, 0x85, 0xD3], .btcImm (.mem (.a16 .bp (.d8 0x85))) 0xD3),
    ([0b00001111, 0b10111011, 0b11000010], .btcReg .eax (.reg .edx)),
    ([0b00001111, 0b10111010, 0b00110110, 0xCD, 0xAB, 0xD3], .btrImm (.mem (.abs16 0xABCD)) 0xD3)] = true := by decide +kernel

theorem test_decode_btrReg_to_ret : decodes Ctx.reset [
    ([0b00001111, 0b10110011, 0b00110111], .btrReg .esi (.mem (.a16 .bx .none))),
    ([0b00001111, 0b10111010, 0b11101001, 0xD3], .btsImm (.reg .ecx) 0xD3),
    ([0b00001111, 0b10101011, 0b10100101, 0x34, 0x12], .btsReg .esp (.mem (.a16 .di (.d16 0x1234)))),
    ([0b00001111, 0b10100111, 0b00111110, 0xCD, 0xAB], .ibts .edi (.mem (.abs16 0xABCD))),
    ([0b00001111, 0b10100110, 0b11010000], .xbts .edx (.reg .eax)),
    ([0b11101000, 0x78, 0x96], .callRel (.o16 0x9678)),
    ([0b11111111, 0b10010001, 0x34, 0x12], .callRm (.mem (.a16 .bxDi (.d16 0x1234)))),
    ([0b10011010, 0x78, 0x96, 0x5A, 0xC3], .callPtr (.o16 0x9678) 0xC35A),
    ([0b11111111, 0b00011111], .callMem (.a16 .bx .none)),
    ([0b11101011, 0xD3], .jmpShort 0xD3),
    ([0b11101001, 0x78, 0x96], .jmpRel (.o16 0x9678)),
    ([0b11111111, 0b00100110, 0xCD, 0xAB], .jmpRm (.mem (.abs16 0xABCD))),
    ([0b11101010, 0x78, 0x96, 0x5A, 0xC3], .jmpPtr (.o16 0x9678) 0xC35A),
    ([0b11111111, 0b01101110, 0x85], .jmpMem (.a16 .bp (.d8 0x85))),
    ([0b11000011], .ret)] = true := by decide +kernel

theorem test_decode_retImm_to_jneNear : decodes Ctx.reset [
    ([0b11000010, 0x02, 0x81], .retImm 0x8102),
    ([0b11001011], .retf),
    ([0b11001010, 0x02, 0x81], .retfImm 0x8102),
    ([0b01110000, 0xD3], .joShort 0xD3),
    ([0b00001111, 0b10000000, 0x78, 0x96], .joNear (.o16 0x9678)),
    ([0b01110001, 0xD3], .jnoShort 0xD3),
    ([0b00001111, 0b10000001, 0x78, 0x96], .jnoNear (.o16 0x9678)),
    ([0b01110010, 0xD3], .jbShort 0xD3),
    ([0b00001111, 0b10000010, 0x78, 0x96], .jbNear (.o16 0x9678)),
    ([0b01110011, 0xD3], .jnbShort 0xD3),
    ([0b00001111, 0b10000011, 0x78, 0x96], .jnbNear (.o16 0x9678)),
    ([0b01110100, 0xD3], .jeShort 0xD3),
    ([0b00001111, 0b10000100, 0x78, 0x96], .jeNear (.o16 0x9678)),
    ([0b01110101, 0xD3], .jneShort 0xD3),
    ([0b00001111, 0b10000101, 0x78, 0x96], .jneNear (.o16 0x9678))] = true := by decide +kernel

theorem test_decode_jbeShort_to_jnlShort : decodes Ctx.reset [
    ([0b01110110, 0xD3], .jbeShort 0xD3),
    ([0b00001111, 0b10000110, 0x78, 0x96], .jbeNear (.o16 0x9678)),
    ([0b01110111, 0xD3], .jnbeShort 0xD3),
    ([0b00001111, 0b10000111, 0x78, 0x96], .jnbeNear (.o16 0x9678)),
    ([0b01111000, 0xD3], .jsShort 0xD3),
    ([0b00001111, 0b10001000, 0x78, 0x96], .jsNear (.o16 0x9678)),
    ([0b01111001, 0xD3], .jnsShort 0xD3),
    ([0b00001111, 0b10001001, 0x78, 0x96], .jnsNear (.o16 0x9678)),
    ([0b01111010, 0xD3], .jpShort 0xD3),
    ([0b00001111, 0b10001010, 0x78, 0x96], .jpNear (.o16 0x9678)),
    ([0b01111011, 0xD3], .jnpShort 0xD3),
    ([0b00001111, 0b10001011, 0x78, 0x96], .jnpNear (.o16 0x9678)),
    ([0b01111100, 0xD3], .jlShort 0xD3),
    ([0b00001111, 0b10001100, 0x78, 0x96], .jlNear (.o16 0x9678)),
    ([0b01111101, 0xD3], .jnlShort 0xD3)] = true := by decide +kernel

theorem test_decode_jnlNear_to_setne : decodes Ctx.reset [
    ([0b00001111, 0b10001101, 0x78, 0x96], .jnlNear (.o16 0x9678)),
    ([0b01111110, 0xD3], .jleShort 0xD3),
    ([0b00001111, 0b10001110, 0x78, 0x96], .jleNear (.o16 0x9678)),
    ([0b01111111, 0xD3], .jnleShort 0xD3),
    ([0b00001111, 0b10001111, 0x78, 0x96], .jnleNear (.o16 0x9678)),
    ([0b11100011, 0xD3], .jcxz 0xD3),
    ([0b11100010, 0xD3], .loop 0xD3),
    ([0b11100001, 0xD3], .loopz 0xD3),
    ([0b11100000, 0xD3], .loopnz 0xD3),
    ([0b00001111, 0b10010000, 0b10000001, 0x34, 0x12], .seto (.mem (.a16 .bxDi (.d16 0x1234)))),
    ([0b00001111, 0b10010001, 0b11000111], .setno (.reg .edi)),
    ([0b00001111, 0b10010010, 0b00000111], .setb (.mem (.a16 .bx .none))),
    ([0b00001111, 0b10010011, 0b01000010, 0x85], .setnb (.mem (.a16 .bpSi (.d8 0x85)))),
    ([0b00001111, 0b10010100, 0b11000110], .sete (.reg .esi)),
    ([0b00001111, 0b10010101, 0b00000110, 0xCD, 0xAB], .setne (.mem (.abs16 0xABCD)))] = true := by decide +kernel

theorem test_decode_setbe_to_into : decodes Ctx.reset [
    ([0b00001111, 0b10010110, 0b00000011], .setbe (.mem (.a16 .bpDi .none))),
    ([0b00001111, 0b10010111, 0b11000101], .setnbe (.reg .ebp)),
    ([0b00001111, 0b10011000, 0b10000001, 0x34, 0x12], .sets (.mem (.a16 .bxDi (.d16 0x1234)))),
    ([0b00001111, 0b10011001, 0b00000110, 0xCD, 0xAB], .setns (.mem (.abs16 0xABCD))),
    ([0b00001111, 0b10011010, 0b11000100], .setp (.reg .esp)),
    ([0b00001111, 0b10011011, 0b01000010, 0x85], .setnp (.mem (.a16 .bpSi (.d8 0x85)))),
    ([0b00001111, 0b10011100, 0b10000101, 0x34, 0x12], .setl (.mem (.a16 .di (.d16 0x1234)))),
    ([0b00001111, 0b10011101, 0b11000011], .setnl (.reg .ebx)),
    ([0b00001111, 0b10011110, 0b00000011], .setle (.mem (.a16 .bpDi .none))),
    ([0b00001111, 0b10011111, 0b01000110, 0x85], .setnle (.mem (.a16 .bp (.d8 0x85)))),
    ([0b11001000, 0x02, 0x81, 0xD3], .enter 0x8102 0xD3),
    ([0b11001001], .leave),
    ([0b11001101, 0xD3], .intN 0xD3),
    ([0b11001100], .int3),
    ([0b11001110], .into)] = true := by decide +kernel

theorem test_decode_bound_to_movDr7Reg : decodes Ctx.reset [
    ([0b01100010, 0b00111110, 0xCD, 0xAB], .bound .edi (.abs16 0xABCD)),
    ([0b11001111], .iret),
    ([0b11110100], .hlt),
    ([0b00001111, 0b00100010, 0b11000000], .movCr0Reg .eax),
    ([0b00001111, 0b00100010, 0b11010011], .movCr2Reg .ebx),
    ([0b00001111, 0b00100010, 0b11011110], .movCr3Reg .esi),
    ([0b00001111, 0b00100000, 0b11000001], .movRegCr0 .ecx),
    ([0b00001111, 0b00100000, 0b11010100], .movRegCr2 .esp),
    ([0b00001111, 0b00100000, 0b11011111], .movRegCr3 .edi),
    ([0b00001111, 0b00100011, 0b11000010], .movDr0Reg .edx),
    ([0b00001111, 0b00100011, 0b11001101], .movDr1Reg .ebp),
    ([0b00001111, 0b00100011, 0b11010000], .movDr2Reg .eax),
    ([0b00001111, 0b00100011, 0b11011011], .movDr3Reg .ebx),
    ([0b00001111, 0b00100011, 0b11110110], .movDr6Reg .esi),
    ([0b00001111, 0b00100011, 0b11111001], .movDr7Reg .ecx)] = true := by decide +kernel

theorem test_decode_movRegDr6_to_lar : decodes Ctx.reset [
    ([0b00001111, 0b00100001, 0b11110100], .movRegDr6 .esp),
    ([0b00001111, 0b00100001, 0b11111111], .movRegDr7 .edi),
    ([0b00001111, 0b00100001, 0b11000010], .movRegDr0 .edx),
    ([0b00001111, 0b00100001, 0b11001101], .movRegDr1 .ebp),
    ([0b00001111, 0b00100001, 0b11010000], .movRegDr2 .eax),
    ([0b00001111, 0b00100001, 0b11011011], .movRegDr3 .ebx),
    ([0b00001111, 0b00100110, 0b11110110], .movTr6Reg .esi),
    ([0b00001111, 0b00100110, 0b11111001], .movTr7Reg .ecx),
    ([0b00001111, 0b00100100, 0b11110100], .movRegTr6 .esp),
    ([0b00001111, 0b00100100, 0b11111111], .movRegTr7 .edi),
    ([0b10010000], .nop),
    ([0b10011011], .wait),
    ([0b11011101, 0b10110001, 0x34, 0x12], .esc 5 6 (.mem (.a16 .bxDi (.d16 0x1234)))),
    ([0b01100011, 0b11011111], .arpl .ebx (.reg .edi)),
    ([0b00001111, 0b00000010, 0b00110111], .lar .esi (.mem (.a16 .bx .none)))] = true := by decide +kernel

theorem test_decode_lgdt_to_verw : decodes Ctx.reset [
    ([0b00001111, 0b00000001, 0b01010010, 0x85], .lgdt (.a16 .bpSi (.d8 0x85))),
    ([0b00001111, 0b00000001, 0b10011101, 0x34, 0x12], .lidt (.a16 .di (.d16 0x1234))),
    ([0b00001111, 0b00000000, 0b00010110, 0xCD, 0xAB], .lldt (.mem (.abs16 0xABCD))),
    ([0b00001111, 0b00000001, 0b00110011], .lmsw (.mem (.a16 .bpDi .none))),
    ([0b00001111, 0b00000011, 0b11101101], .lsl .ebp (.reg .ebp)),
    ([0b00001111, 0b00000000, 0b10011001, 0x34, 0x12], .ltr (.mem (.a16 .bxDi (.d16 0x1234)))),
    ([0b00001111, 0b00000001, 0b00000110, 0xCD, 0xAB], .sgdt (.abs16 0xABCD)),
    ([0b00001111, 0b00000001, 0b00001111], .sidt (.a16 .bx .none)),
    ([0b00001111, 0b00000000, 0b01000010, 0x85], .sldt (.mem (.a16 .bpSi (.d8 0x85)))),
    ([0b00001111, 0b00000001, 0b10100101, 0x34, 0x12], .smsw (.mem (.a16 .di (.d16 0x1234)))),
    ([0b00001111, 0b00000000, 0b11001011], .str (.reg .ebx)),
    ([0b00001111, 0b00000000, 0b00100011], .verr (.mem (.a16 .bpDi .none))),
    ([0b00001111, 0b00000000, 0b01101110, 0x85], .verw (.mem (.a16 .bp (.d8 0x85))))] = true := by decide +kernel

/-- F2 and F3 before an opcode that is no string opcode are prefixes by themselves. -/
theorem test_decode_repeat_prefixes :
    decode c16 [0b11110010, 0b10010000] = .instr .repneRep 1 ∧ decode c16 [0b11110011, 0b10010000] = .instr .repeRep 1 := by
  decide +kernel

/-- 32-bit operand and address size: the mod r/m rows of R252, the s-i-b rows of R254, 32-bit immediates. -/
theorem test_decode_32 : decodes c32 [
    ([0b10001011, 0b01000101, 0x80], .movRegRm .full .eax (.mem (.a32 .ebp (.d8 0x80)))),
    ([0b10001011, 0b00001101, 4, 3, 2, 1], .movRegRm .full .ecx (.mem (.abs32 0x01020304))),
    ([0b10001011, 0b00010100, 0b10001011], .movRegRm .full .edx (.mem (.sib .ebx .x4 (some .ecx) .none))),
    ([0b10001011, 0b00010100, 0b00100100], .movRegRm .full .edx (.mem (.sib .esp .x1 none .none))),
    ([0b10001011, 0b01010100, 0b11110101, 0x7F], .movRegRm .full .edx (.mem (.sib .ebp .x8 (some .esi) (.d8 0x7F)))),
    ([0b10001011, 0b00010100, 0b01111101, 4, 3, 2, 1],
      .movRegRm .full .edx (.mem (.sibAbs .x2 (some .edi) 0x01020304))),
    ([0b11000111, 0b10000110, 4, 3, 2, 1, 8, 7, 6, 5],
      .movRmImm .full (.mem (.a32 .esi (.d32 0x01020304))) (.i32 0x05060708)),
    ([0b11101010, 4, 3, 2, 1, 8, 0], .jmpPtr (.o32 0x01020304) 8),
    ([0b10100001, 4, 3, 2, 1], .movAccMem .full (.o32 0x01020304)),
    ([0b10000011, 0b11000000, 0xFF], .addRmImm .full (.reg .eax) (.i8 0xFF))] = true := by decide +kernel

/-- AH is register number 4 with w = 0 (R240). -/
theorem test_decode_high_byte :
    decodes c16 [([0b10110100, 0x12], .movRegImm .byte .esp (.i8 0x12))] = true := by decide

/-- MOV to CS, an unlisted opcode, register forms of memory-only instructions and sreg3 110 are invalid (R270, R273); CR4
is undefined (U5). -/
theorem test_decode_rejects :
    [[0x8E, 0xC8], [0xD6], [0x8D, 0xC0], [0x62, 0xC0], [0x8E, 0b11110000]].all (fun bs =>
      decode c16 bs == .reject .invalid) ∧
    decode c16 [0x0F, 0x22, 0b11100000] = .reject .undefinedEncoding := by decide +kernel

/-- An opcode extension that is not listed is invalid before its displacement is read (R275). -/
theorem test_decode_rejects_extension :
    [[0xC7, 0x88], [0x8F, 0x88], [0xFE, 0x90], [0xFF, 0xB8], [0x0F, 0x00, 0xB0], [0x0F, 0x01, 0xA8], [0x0F, 0xBA, 0x80]].all
      (fun bs => decode c16 bs == .reject .invalid) = true := by decide +kernel

/-- The bytes as the opcode table numbers them: bit 0 is the lowest bit of the first byte. -/
theorem test_decode_table_word : decodeTableWord 16 0xD889 = some (.movRmReg .full .ebx (.reg .eax)) := by
  decide +kernel

/-! Single steps. A real-mode state with its segments apart, a flat 32-bit state at level 0, and what a step of the
bytes at CS:EIP answers. The expected values are those of 95_test_vectors.md or of the rule's own example. -/

/-- `s` with bytes at a linear address. -/
def put (a : Nat) (bs : List Byte) (s : State) : State :=
  { s with mem := writeCells s.isFixed s.mem (linearRange (BitVec.ofNat 32 a) bs.length) bs }

def segment (sel : Word) : SegReg := { SegReg.afterReset with selector := sel, base := sel.setWidth 32 <<< 4 }

/-- Code at 1000:0100, data at 2000H, the stack at 3000:0100, handlers of every vector v at 0F00:(16 v). -/
def real : State :=
  { State.reset with
    cs := segment 0x1000, ds := segment 0x2000, es := segment 0x2000, ss := segment 0x3000
    eip := 0x100, instrEip := 0x100, regs := { State.reset.regs with esp := 0x100 } }

/-- The same after the prefixes 66 and 67: operands and addresses of 32 bits. -/
def real32 : State := { real with pfx := { Prefixes.none with opsize := true, addrsize := true, count := 2 } }

/-- A handler for one vector, in the interrupt table of Real Mode. -/
def vector (v : Nat) (s : State) : State := put (4 * v) [BitVec.ofNat 8 (16 * v), BitVec.ofNat 8 (v / 16), 0x00, 0x0F] s

/-- That handler has been entered with `ip` saved. -/
def entered (v : Nat) (ip : Nat) (t : State) : Bool :=
  t.cs.selector == 0x0F00 && t.eip.toNat == 16 * v && (t.physDword (0x30000 + t.regs.esp)).toNat % 65536 == ip

/-- One step of the bytes at CS:EIP goes on to a state that passes `p`. -/
def steps (bs : List Byte) (s : State) (p : State → Bool) : Bool :=
  match step (put (s.cs.base + s.eip).toNat bs s) with
  | .next t => p t
  | .fault _ => false
  | .refused _ => false

/-- `s` with general registers given by `f`. -/
def withRegs (s : State) (f : Regs → Regs) : State := { s with regs := f s.regs }
def withFlags (s : State) (f : Eflags → Eflags) : State := { s with eflags := f s.eflags }

def word (s : State) (a : Dword) : Nat := (s.physDword a).toNat % 65536

/-- CF, OF, SF, ZF, AF, PF as 95_test_vectors.md lists them. -/
def six (s : State) : List Nat :=
  [s.eflags.cf, s.eflags.ofl, s.eflags.sf, s.eflags.zf, s.eflags.af, s.eflags.pf].map Bool.toNat

def dataSegment (level : BitVec 2) (sel : Word) : SegReg :=
  { selector := sel, base := 0, limit := 0xFFFFFFFF, valid := true, dpl := level, type := 3, db := true }

/-- Protected Mode, level 0, flat 32-bit segments; the GDT at 500H holds code and data of levels 0 and 3, then a 386 TSS
at 30100H (28H); the current TSS at 30000H gives level 0 the stack 0010:8000. -/
def flat : State :=
  put 0x508 [0xFF, 0xFF, 0, 0, 0, 0x9A, 0xCF, 0, 0xFF, 0xFF, 0, 0, 0, 0x92, 0xCF, 0,
      0xFF, 0xFF, 0, 0, 0, 0xFA, 0xCF, 0, 0xFF, 0xFF, 0, 0, 0, 0xF2, 0xCF, 0,
      0x67, 0, 0, 0x01, 3, 0x89, 0, 0] (
    put 0x30004 [0, 0x80, 0, 0, 0x10] (
    put 0x30148 [0x10, 0, 0, 0, 8, 0, 0, 0, 0x10, 0, 0, 0, 0x10] (
    { State.reset with
      cr0 := { State.reset.cr0 with pe := true }
      cs := { dataSegment 0 8 with type := 11 }, ss := dataSegment 0 0x10, ds := dataSegment 0 0x10
      es := dataSegment 0 0x10, fs := dataSegment 0 0x10, gs := dataSegment 0 0x10
      gdtr := { base := 0x500, limit := 0x7F }, idtr := { base := 0x10000, limit := 0x7FF }
      tr := { selector := 0x78, base := 0x30000, limit := 0x67, valid := true, dpl := 0, type := 11, db := false }
      eip := 0x1000, instrEip := 0x1000, regs := { State.reset.regs with esp := 0x9000 } })))

/-- The IDT entry of a vector: a gate with that access byte to 0008:2000. -/
def gate (v : Nat) (access : Byte) (s : State) : State := put (0x10000 + 8 * v) [0, 0x20, 8, 0, 0, access, 0, 0] s

/-- The same machine at level 3. -/
def user (s : State) : State :=
  { s with cpl := 3, cs := { s.cs with selector := 0x1B, dpl := 3 }, ss := dataSegment 3 0x23 }

/-- At level 3 with the stack at 800H; selector 30H is a call gate for two dwords to 0008:2000. -/
def callGate : State :=
  put 0x530 [0, 0x20, 8, 0, 2, 0xEC, 0, 0] (put 0x800 [0x11, 0, 0, 0, 0x22] (put 0x30004 [0, 0x10]
    (withRegs (user flat) ({ · with esp := 0x800 }))))

/-- The tables of the page walk vector of 95_test_vectors.md, and the code's page at 6000H. -/
def paged : State :=
  put 0x1000 [7, 0x30, 0, 0, 7, 0x20] (put 0x200C [7, 0x50] (put 0x3018 [7, 0x60]
    { flat with eip := 0x6000, cr3 := 1, cr0 := { flat.cr0 with pg := true } }))

/-- The machine of vector S7 with its interrupt due. -/
def v86Due : State :=
  gate 0x20 0x8E { flat with
    eflags := Eflags.ofWord 0x23202, cpl := 3, eip := 0x104
    cs := { segment 0x2000 with dpl := 3 }, ss := { segment 0x3000 with dpl := 3 }
    ds := segment 0x1111, es := segment 0x2222, fs := segment 0x3333, gs := segment 0x4444
    regs := { flat.regs with esp := 0xFFFE }, pins := { flat.pins with intr := true, intVector := 0x20 } }

theorem test_mov_keeps_upper : steps [0x89, 0xD8] (withRegs real ({ · with eax := 0xAAAA0000, ebx := 0x1234 }))
    (fun t => t.regs.eax == 0xAAAA1234 && t.eip == 0x102) = true := by decide +kernel
theorem test_mov_is_little_endian : steps [0xC7, 0x06, 0x00, 0x20, 0x34, 0x12] real
    (fun t => t.readByte 0x22000 == 0x34 && t.readByte 0x22001 == 0x12) = true := by decide +kernel
theorem test_mov_past_limit : steps [0xA1, 0xFF, 0xFF] (vector 13 real)
    (fun t => entered 13 0x100 t) = true := by decide +kernel
theorem test_mov_high_byte : steps [0x88, 0xC4] (withRegs real ({ · with eax := 0x5577 }))
    (fun t => t.regs.eax == 0x7777) = true := by decide +kernel
theorem test_mov_to_ss_inhibits : steps [0x8E, 0xD0] (withRegs real ({ · with eax := 0x1234 }))
    (fun t => t.ss.selector == 0x1234 && t.ss.base == 0x12340 && t.shadow == .ss) = true := by decide +kernel
theorem test_mov_to_cs_invalid : steps [0x8E, 0xC8] (vector 6 real)
    (fun t => entered 6 0x100 t) = true := by decide +kernel
theorem test_movsx : steps [0x0F, 0xBF, 0xC3] (withRegs real32 ({ · with ebx := 0x8000 }))
    (fun t => t.regs.eax == 0xFFFF8000) = true := by decide +kernel
theorem test_movzx_bh : steps [0x0F, 0xB6, 0xC7] (withRegs real ({ · with ebx := 0xFF00 }))
    (fun t => t.regs.eax == 0x00FF) = true := by decide +kernel
theorem test_push_sp : steps [0x54] real
    (fun t => word t 0x300FE == 0x100 && t.regs.esp == 0xFE) = true := by decide +kernel
theorem test_push_wraps : steps [0x50] (withRegs real ({ · with esp := 0, eax := 0x1234 }))
    (fun t => t.regs.esp == 0xFFFE && word t 0x3FFFE == 0x1234) = true := by decide +kernel
theorem test_push_at_1_shuts_down : steps [0x50] (withRegs real ({ · with esp := 1 }))
    (fun t => t.runState == .shutdown) = true := by decide +kernel
theorem test_pop_memory : steps [0x8F, 0x06, 0x00, 0x20]
    (put 0x300FE [0xEF, 0xBE] (withRegs real ({ · with esp := 0xFE })))
    (fun t => word t 0x22000 == 0xBEEF && t.regs.esp == 0x100) = true := by decide +kernel
theorem test_pusha_image_of_sp : steps [0x60] real
    (fun t => word t 0x300F6 == 0x100 && t.regs.esp == 0xF0) = true := by decide +kernel
theorem test_pusha_wraps : steps [0x60] (vector 13 (withRegs real ({ · with esp := 0xE })))
    (fun t => t.eip == 13 * 16 && t.regs.esp == 8) = true := by decide +kernel
theorem test_xchg : steps [0x91] (withRegs real ({ · with eax := 1, ecx := 2 }))
    (fun t => t.regs.eax == 2 && t.regs.ecx == 1) = true := by decide +kernel
theorem test_lea_wraps : steps [0x8D, 0x40, 0x01] (withRegs real ({ · with ebx := 0xFFFF, esi := 1 }))
    (fun t => t.regs.eax == 1) = true := by decide +kernel
theorem test_lea_scaled : steps [0x8D, 0x04, 0x8B] (withRegs real32 ({ · with ebx := 0x1000, ecx := 3 }))
    (fun t => t.regs.eax == 0x100C) = true := by decide +kernel
theorem test_lds : steps [0xC5, 0x1E, 0x00, 0x10] (put 0x21000 [0x34, 0x12, 0x00, 0x20] real)
    (fun t => t.regs.ebx == 0x1234 && t.ds.base == 0x20000) = true := by decide +kernel
theorem test_sahf : steps [0x9E] (withRegs real ({ · with eax := 0xFF00 }))
    (fun t => six t == [1, 0, 1, 1, 1, 1]) = true := by decide +kernel
theorem test_lahf : steps [0x9F]
    (withFlags real ({ · with sf := true, zf := true, af := true, pf := true, cf := true }))
    (fun t => t.regs.eax == 0xD700) = true := by decide +kernel
theorem test_popf_real : steps [0x9D] (put 0x300FE [0xFF, 0xFF] (withRegs real ({ · with esp := 0xFE })))
    (fun t => t.eflags.word == 0x7FD7) = true := by decide +kernel
theorem test_in : steps [0xE4, 0x60] { real with ioInputs := [(0x60, 0x1C)] }
    (fun t => t.regs.eax == 0x1C && t.bus == [.ioRead 0x60 1]) = true := by decide +kernel
theorem test_in_wraps_byte_port : steps [0xE5, 0xFF] { real with ioInputs := [(0xFF, 1), (0x100, 2)] }
    (fun t => t.regs.eax == 0x0201) = true := by decide +kernel
theorem test_out : steps [0xEF] (withRegs real32 ({ · with edx := 0xCF8, eax := 0x80000000 }))
    (fun t => t.bus == [.ioWrite 0xCF8 [0, 0, 0, 0x80]]) = true := by decide +kernel
theorem test_add_overflow : steps [0x04, 0x01] (withRegs real ({ · with eax := 0x7F }))
    (fun t => t.regs.eax == 0x80 && six t == [0, 1, 1, 0, 1, 0]) = true := by decide +kernel
theorem test_add_carry : steps [0x01, 0xD8] (withRegs real32 ({ · with eax := 0x80000000, ebx := 0x80000000 }))
    (fun t => t.regs.eax == 0 && six t == [1, 1, 0, 1, 0, 1]) = true := by decide +kernel
theorem test_add_sign_extends : steps [0x83, 0xC0, 0xFF] (withRegs real ({ · with eax := 1 }))
    (fun t => t.regs.eax == 0 && six t == [1, 0, 0, 1, 1, 1]) = true := by decide +kernel
theorem test_adc : steps [0x15, 0x00, 0x00]
    (withFlags (withRegs real ({ · with eax := 0xFFFF })) ({ · with cf := true }))
    (fun t => t.regs.eax == 0 && six t == [1, 0, 0, 1, 1, 1]) = true := by decide +kernel
theorem test_inc_keeps_carry : steps [0xFE, 0xC0] (withRegs real ({ · with eax := 0xFF }))
    (fun t => t.regs.eax == 0 && six t == [0, 0, 0, 1, 1, 1]) = true := by decide +kernel
theorem test_sub_borrow : steps [0x2C, 0x01] (withRegs real ({ · with eax := 0 }))
    (fun t => t.regs.eax == 0xFF && six t == [1, 0, 1, 0, 1, 1]) = true := by decide +kernel
theorem test_sub_overflow : steps [0x2C, 0x01] (withRegs real ({ · with eax := 0x80 }))
    (fun t => t.regs.eax == 0x7F && six t == [0, 1, 0, 0, 1, 0]) = true := by decide +kernel
theorem test_sbb : steps [0x1D, 0xFF, 0xFF] (withFlags real ({ · with cf := true }))
    (fun t => t.regs.eax == 0 && six t == [1, 0, 0, 1, 1, 1]) = true := by decide +kernel
theorem test_dec_keeps_carry : steps [0x48] real
    (fun t => t.regs.eax == 0xFFFF && six t == [0, 0, 1, 0, 1, 1]) = true := by decide +kernel
theorem test_cmp : steps [0x3D, 0x05, 0x00] (withRegs real ({ · with eax := 5 }))
    (fun t => t.regs.eax == 5 && six t == [0, 0, 0, 1, 0, 1]) = true := by decide +kernel
theorem test_neg : steps [0xF6, 0xD8] (withRegs real ({ · with eax := 0x80 }))
    (fun t => t.regs.eax == 0x80 && six t == [1, 1, 1, 0, 0, 0]) = true := by decide +kernel
theorem test_aaa : steps [0x37] (withRegs real ({ · with eax := 0x0B }))
    (fun t => t.regs.eax == 0x0101 && t.eflags.cf && t.eflags.af) = true := by decide +kernel
theorem test_daa : steps [0x27] (withRegs real ({ · with eax := 0xAE }))
    (fun t => t.regs.eax == 0x14 && t.eflags.cf && t.eflags.af) = true := by decide +kernel
theorem test_das : steps [0x2F] (withFlags (withRegs real ({ · with eax := 0xEE })) ({ · with cf := true, af := true }))
    (fun t => t.regs.eax == 0x88 && t.eflags.cf && t.eflags.af) = true := by decide +kernel
theorem test_mul : steps [0xF7, 0xE3] (withRegs real ({ · with eax := 0xFFFF, ebx := 0xFFFF }))
    (fun t => t.regs.edx == 0xFFFE && t.regs.eax == 1 && t.eflags.cf && t.eflags.ofl) = true := by decide +kernel
theorem test_mul_narrow : steps [0xF6, 0xE3] (withRegs real ({ · with eax := 0x10, ebx := 0x0F }))
    (fun t => t.regs.eax == 0xF0 && !t.eflags.cf && !t.eflags.ofl) = true := by decide +kernel
theorem test_imul : steps [0xF6, 0xEB] (withRegs real ({ · with eax := 0xFF, ebx := 2 }))
    (fun t => t.regs.eax == 0xFFFE && !t.eflags.cf) = true := by decide +kernel
theorem test_imul_truncates : steps [0x6B, 0xC3, 0x0A] (withRegs real ({ · with ebx := 0x3000 }))
    (fun t => t.regs.eax == 0xE000 && t.eflags.cf && t.eflags.ofl) = true := by decide +kernel
theorem test_div : steps [0xF7, 0xF3] (withRegs real ({ · with edx := 1, ebx := 2 }))
    (fun t => t.regs.eax == 0x8000 && t.regs.edx == 0) = true := by decide +kernel
theorem test_div_overflow : steps [0xF7, 0xF3] (vector 0 (withRegs real ({ · with edx := 2, ebx := 2 })))
    (fun t => entered 0 0x100 t && t.regs.edx == 2 && t.regs.eax == 0) = true := by decide +kernel
theorem test_idiv : steps [0xF6, 0xFB] (withRegs real ({ · with eax := 0xFFF9, ebx := 2 }))
    (fun t => t.regs.eax == 0xFFFD) = true := by decide +kernel
theorem test_idiv_overflow : steps [0xF6, 0xFB] (vector 0 (withRegs real ({ · with eax := 0xFF80, ebx := 0xFF })))
    (fun t => entered 0 0x100 t) = true := by decide +kernel
theorem test_aam : steps [0xD4, 0x0A] (withRegs real ({ · with eax := 0x35 }))
    (fun t => t.regs.eax == 0x0503) = true := by decide +kernel
theorem test_aad : steps [0xD5, 0x0A] (withRegs real ({ · with eax := 0x0503 }))
    (fun t => t.regs.eax == 0x35) = true := by decide +kernel
theorem test_cbw : steps [0x98] (withRegs real ({ · with eax := 0x80 }))
    (fun t => t.regs.eax == 0xFF80) = true := by decide +kernel
theorem test_cwd : steps [0x99] (withRegs real ({ · with eax := 0x8000 }))
    (fun t => t.regs.edx == 0xFFFF) = true := by decide +kernel
theorem test_and : steps [0x24, 0x0F] (withFlags (withRegs real ({ · with eax := 0xF0 })) ({ · with cf := true }))
    (fun t => t.regs.eax == 0 && t.eflags.zf && t.eflags.pf && !t.eflags.cf && !t.eflags.sf) = true := by decide +kernel
theorem test_test : steps [0xA8, 0x80] (withRegs real ({ · with eax := 0xFF }))
    (fun t => t.regs.eax == 0xFF && t.eflags.sf && !t.eflags.zf && !t.eflags.pf) = true := by decide +kernel
theorem test_xor : steps [0x31, 0xC0] (withRegs real ({ · with eax := 0x1234 }))
    (fun t => t.regs.eax == 0 && t.eflags.zf && t.eflags.pf && !t.eflags.cf) = true := by decide +kernel
theorem test_not : steps [0xF6, 0xD0] (withFlags (withRegs real ({ · with eax := 0x55 })) ({ · with cf := true }))
    (fun t => t.regs.eax == 0xAA && t.eflags.cf) = true := by decide +kernel
theorem test_shl : steps [0xD0, 0xE0] (withRegs real ({ · with eax := 0x81 }))
    (fun t => t.regs.eax == 2 && t.eflags.cf && t.eflags.ofl && !t.eflags.zf) = true := by decide +kernel
theorem test_shl_count_masked : steps [0xC1, 0xE0, 0x20]
    (withFlags (withRegs real ({ · with eax := 0x1234 })) ({ · with cf := true }))
    (fun t => t.regs.eax == 0x1234 && six t == [1, 0, 0, 0, 0, 0]) = true := by decide +kernel
theorem test_shr : steps [0xC1, 0xE8, 0x0F] (withRegs real ({ · with eax := 0x8000 }))
    (fun t => t.regs.eax == 1 && !t.eflags.cf) = true := by decide +kernel
theorem test_sar : steps [0xC1, 0xF8, 0x0F] (withRegs real ({ · with eax := 0x8000 }))
    (fun t => t.regs.eax == 0xFFFF && !t.eflags.cf && t.eflags.sf) = true := by decide +kernel
theorem test_rol : steps [0xC0, 0xC0, 0x08] (withRegs real ({ · with eax := 0x81 }))
    (fun t => t.regs.eax == 0x81 && t.eflags.cf) = true := by decide +kernel
theorem test_ror : steps [0xD1, 0xC8] (withRegs real32 ({ · with eax := 1 }))
    (fun t => t.regs.eax == 0x80000000 && t.eflags.cf && t.eflags.ofl) = true := by decide +kernel
theorem test_rcl : steps [0xC0, 0xD0, 0x04] (withFlags (withRegs real ({ · with eax := 0x55 })) ({ · with cf := true }))
    (fun t => t.regs.eax == 0x5A && t.eflags.cf) = true := by decide +kernel
theorem test_rcr : steps [0xD1, 0xD8] (withFlags (withRegs real ({ · with eax := 1 })) ({ · with cf := true }))
    (fun t => t.regs.eax == 0x8000 && t.eflags.cf && t.eflags.ofl) = true := by decide +kernel
theorem test_shld : steps [0x0F, 0xA4, 0xD8, 0x08] (withRegs real32 ({ · with eax := 0x12345678, ebx := 0x9ABCDEF0 }))
    (fun t => t.regs.eax == 0x3456789A && !t.eflags.cf) = true := by decide +kernel
theorem test_shrd : steps [0x0F, 0xAC, 0xD8, 0x08] (withRegs real32 ({ · with eax := 0x12345678, ebx := 0x9ABCDEF0 }))
    (fun t => t.regs.eax == 0xF0123456 && !t.eflags.cf) = true := by decide +kernel
theorem test_movs : steps [0xA4] (put 0x20200 [0x41] (withRegs real ({ · with esi := 0x200, edi := 0x300 })))
    (fun t => t.readByte 0x20300 == 0x41 && t.regs.esi == 0x201 && t.regs.edi == 0x301) = true := by decide +kernel
theorem test_movs_down : steps [0xA5]
    (withFlags (withRegs real ({ · with esi := 0x200, edi := 0x300 })) ({ · with df := true }))
    (fun t => t.regs.esi == 0x1FE && t.regs.edi == 0x2FE) = true := by decide +kernel
theorem test_rep_movs_iterates : steps [0xF3, 0xA4] (withRegs real ({ · with esi := 0x200, edi := 0x300, ecx := 4 }))
    (fun t => t.regs.ecx == 3 && t.eip == 0x100 && t.regs.esi == 0x201) = true := by decide +kernel
/-- The second iteration runs although the instruction's bytes are gone from memory. -/
theorem test_rep_movs_is_not_fetched_again : steps [0x90, 0x90]
    (withRegs { real with pfx := { Prefixes.none with again := some { instr := .repMovsF3 .byte, next := 0x102, nextOver := false } } }
      ({ · with esi := 0x201, edi := 0x301, ecx := 1 }))
    (fun t => t.regs.ecx == 0 && t.eip == 0x102 && t.regs.esi == 0x202 && t.pfx == Prefixes.none) = true := by decide +kernel
theorem test_rep_movs_of_none : steps [0xF3, 0xA4] (withRegs real ({ · with esi := 0x200, edi := 0x300 }))
    (fun t => t.regs.esi == 0x200 && t.eip == 0x102) = true := by decide +kernel
theorem test_repe_cmps_stops : steps [0xF3, 0xA6]
    (put 0x20200 [0x63] (put 0x20300 [0x64] (withRegs real ({ · with esi := 0x200, edi := 0x300, ecx := 3 }))))
    (fun t => t.regs.ecx == 2 && !t.eflags.zf && t.eflags.cf && t.eip == 0x102) = true := by decide +kernel
theorem test_repne_scas_stops : steps [0xF2, 0xAE] (withRegs real ({ · with eax := 0, edi := 0x302, ecx := 0xFFFD }))
    (fun t => t.regs.ecx == 0xFFFC && t.regs.edi == 0x303 && t.eflags.zf && t.eip == 0x102) = true := by decide +kernel
theorem test_stos : steps [0xAB] (withRegs real ({ · with eax := 0xBEEF, edi := 0x10 }))
    (fun t => word t 0x20010 == 0xBEEF && t.regs.edi == 0x12) = true := by decide +kernel
theorem test_lods : steps [0xAC] (put 0x20200 [0x7F] (withRegs real ({ · with esi := 0x200, eax := 0x5500 })))
    (fun t => t.regs.eax == 0x557F) = true := by decide +kernel
theorem test_xlat : steps [0xD7] (put 0x20402 [0x30] (withRegs real ({ · with eax := 2, ebx := 0x400 })))
    (fun t => t.regs.eax == 0x30) = true := by decide +kernel
theorem test_bt_modulo : steps [0x0F, 0xBA, 0xE0, 0x13] (withRegs real ({ · with eax := 8 }))
    (fun t => t.eflags.cf) = true := by decide +kernel
theorem test_bt_negative_offset : steps [0x0F, 0xA3, 0x1E, 0x00, 0x20]
    (put 0x21FFE [0, 0x80] (withRegs real ({ · with ebx := 0xFFFF })))
    (fun t => t.eflags.cf) = true := by decide +kernel
theorem test_bts : steps [0x0F, 0xAB, 0xD8] (withRegs real ({ · with ebx := 4 }))
    (fun t => t.regs.eax == 0x10 && !t.eflags.cf) = true := by decide +kernel
theorem test_btr : steps [0x0F, 0xB3, 0xD8] (withRegs real ({ · with eax := 0xFFFF }))
    (fun t => t.regs.eax == 0xFFFE && t.eflags.cf) = true := by decide +kernel
theorem test_btc : steps [0x0F, 0xBB, 0xD8] (withRegs real ({ · with ebx := 0xF }))
    (fun t => t.regs.eax == 0x8000 && !t.eflags.cf) = true := by decide +kernel
theorem test_bsf_of_zero : steps [0x0F, 0xBC, 0xC3] real
    (fun t => t.eflags.zf) = true := by decide +kernel
theorem test_bsr : steps [0x0F, 0xBD, 0xC3] (withRegs real32 ({ · with ebx := 0x80000000 }))
    (fun t => t.regs.eax == 0x1F && !t.eflags.zf) = true := by decide +kernel
theorem test_ibts_absent : steps [0x0F, 0xA7, 0xC3] (vector 6 real)
    (fun t => entered 6 0x100 t) = true := by decide +kernel
theorem test_jmp_short_back : steps [0xEB, 0x80] real
    (fun t => t.eip == 0x82) = true := by decide +kernel
theorem test_jmp_near_wraps : steps [0xE9, 0x00, 0xFF] { real with eip := 0x10 }
    (fun t => t.eip == 0xFF13) = true := by decide +kernel
theorem test_je : steps [0x74, 0x05] (withFlags real ({ · with zf := true }))
    (fun t => t.eip == 0x107) = true := by decide +kernel
theorem test_jl : steps [0x0F, 0x8C, 0x00, 0x01] (withFlags real ({ · with sf := true }))
    (fun t => t.eip == 0x204) = true := by decide +kernel
theorem test_jle_not_taken : steps [0x7E, 0x10] (withFlags real ({ · with sf := true, ofl := true }))
    (fun t => t.eip == 0x102) = true := by decide +kernel
theorem test_call : steps [0xE8, 0x00, 0x00] real
    (fun t => t.eip == 0x103 && word t 0x300FE == 0x103 && t.regs.esp == 0xFE) = true := by decide +kernel
theorem test_ret_releases : steps [0xC2, 0x04, 0x00] (put 0x300FE [3, 1] (withRegs real ({ · with esp := 0xFE })))
    (fun t => t.eip == 0x103 && t.regs.esp == 0x104) = true := by decide +kernel
theorem test_call_far : steps [0x9A, 0x34, 0x12, 0x00, 0x20] real
    (fun t => t.eip == 0x1234 && t.cs.base == 0x20000 && word t 0x300FE == 0x1000 &&
      word t 0x300FC == 0x105) = true := by decide +kernel
theorem test_ret_far : steps [0xCB] (put 0x300FC [5, 1, 0, 0x20] (withRegs real ({ · with esp := 0xFC })))
    (fun t => t.eip == 0x105 && t.cs.selector == 0x2000 && t.regs.esp == 0x100) = true := by decide +kernel
theorem test_jmp_far_memory : steps [0xFF, 0x2E, 0x00, 0x30] (put 0x23000 [0, 0, 0xFF, 0xFF] real)
    (fun t => t.cs.selector == 0xFFFF && t.eip == 0) = true := by decide +kernel
theorem test_loop_wraps : steps [0xE2, 0xFE] real
    (fun t => t.regs.ecx == 0xFFFF && t.eip == 0x100) = true := by decide +kernel
theorem test_loope : steps [0xE1, 0x10] (withRegs real ({ · with ecx := 2 }))
    (fun t => t.regs.ecx == 1 && t.eip == 0x102) = true := by decide +kernel
theorem test_jcxz_tests_cx : steps [0xE3, 0x10] (withRegs real ({ · with ecx := 0x10000 }))
    (fun t => t.eip == 0x112) = true := by decide +kernel
theorem test_sete : steps [0x0F, 0x94, 0xC0] (withFlags real ({ · with zf := true }))
    (fun t => t.regs.eax == 1) = true := by decide +kernel
theorem test_setge : steps [0x0F, 0x9D, 0xC0]
    (withFlags (withRegs real ({ · with eax := 0xFF })) ({ · with sf := true }))
    (fun t => t.regs.eax == 0) = true := by decide +kernel
theorem test_enter : steps [0xC8, 0x08, 0x00, 0x00] (withRegs real ({ · with ebp := 0x200 }))
    (fun t => word t 0x300FE == 0x200 && t.regs.ebp == 0xFE && t.regs.esp == 0xF6) = true := by decide +kernel
theorem test_enter_level_1 : steps [0xC8, 0x00, 0x00, 0x01] (withRegs real ({ · with ebp := 0x200 }))
    (fun t => word t 0x300FC == 0xFE && t.regs.ebp == 0xFE && t.regs.esp == 0xFC) = true := by decide +kernel
theorem test_leave : steps [0xC9] (put 0x300FE [0, 2] (withRegs real ({ · with ebp := 0xFE })))
    (fun t => t.regs.esp == 0x100 && t.regs.ebp == 0x200) = true := by decide +kernel
theorem test_int_real : steps [0xCD, 0x21] (vector 33 (withFlags real ({ · with ifl := true })))
    (fun t => entered 33 0x102 t && word t 0x300FE == 0x202 && !t.eflags.ifl) = true := by decide +kernel
theorem test_int3_real : steps [0xCC] (vector 3 (withFlags real ({ · with rf := true })))
    (fun t => entered 3 0x101 t && !t.eflags.rf) = true := by decide +kernel
theorem test_into_without_overflow : steps [0xCE] real
    (fun t => t.eip == 0x101) = true := by decide +kernel
theorem test_bound_above : steps [0x62, 0x06, 0x00, 0x20]
    (vector 5 (put 0x22000 [0, 0, 4, 0] (withRegs real ({ · with eax := 5 }))))
    (fun t => entered 5 0x100 t) = true := by decide +kernel
theorem test_bound_inside : steps [0x62, 0x06, 0x00, 0x20]
    (put 0x22000 [0, 0, 4, 0] (withRegs real ({ · with eax := 4 })))
    (fun t => t.eip == 0x104) = true := by decide +kernel
/-- R564, R121: the bounds are two operands; the second, at the offset 0 that follows FFFFFFFCH, holds 5. -/
theorem test_bound_two_operands : steps [0x62, 0x05, 0xFC, 0xFF, 0xFF, 0xFF]
    (put 0 [5] (withRegs flat ({ · with eax := 4 }))) (fun t => t.eip == 0x1006) = true := by decide +kernel
theorem test_int_past_idt : steps [0xCD, 0x20] (vector 8 { real with idtr := { base := 0, limit := 0x7F } })
    (fun t => entered 8 0x100 t) = true := by decide +kernel
theorem test_iret_real : steps [0xCF] (put 0x300FA [2, 1, 0, 0x10, 2, 2] (withRegs real ({ · with esp := 0xFA })))
    (fun t => t.eip == 0x102 && t.eflags.word == 0x202 && t.regs.esp == 0x100) = true := by decide +kernel
theorem test_single_step_pends : steps [0x40] (withFlags real ({ · with tf := true }))
    (fun t => t.regs.eax == 1 && t.pendingDb == 0x4000) = true := by decide +kernel
theorem test_single_step_trap : steps [0x40]
    (vector 1 { (withFlags real ({ · with tf := true })) with pendingDb := 0x4000 })
    (fun t => entered 1 0x100 t && t.dr6 == 0x4000 && !t.eflags.tf && t.regs.eax == 0) = true := by decide +kernel
theorem test_nmi : steps [0x90] (vector 2 { real with nmiPending := true })
    (fun t => entered 2 0x100 t && t.nmiInService && !t.nmiPending) = true := by decide +kernel
theorem test_intr : steps [0x90]
    (vector 32 { (withFlags real ({ · with ifl := true })) with pins.intr := true, pins.intVector := 32 })
    (fun t => entered 32 0x100 t && t.bus == [.intAck 0, .intAck 4]) = true := by decide +kernel
theorem test_sti_inhibits : steps [0xFB] { real with pins := { real.pins with intr := true, intVector := 32 } }
    (fun t => t.eflags.ifl && t.shadow == .sti && t.eip == 0x101) = true := by decide +kernel
theorem test_sti_again_inhibits : steps [0xFB] (withFlags real ({ · with ifl := true }))
    (fun t => t.shadow == .sti) = true := by decide +kernel
theorem test_wait_keeps_inhibit : steps [0x9B] { real with shadow := .ss, pins.busy := true }
    (fun t => t.shadow == .ss && t.eip == 0x100) = true := by decide +kernel
theorem test_hlt : steps [0xF4] real
    (fun t => t.runState == .halted && t.bus == [.halt]) = true := by decide +kernel
theorem test_wait_not_available : steps [0x9B] (vector 7 { real with cr0 := { real.cr0 with mp := true, ts := true } })
    (fun t => entered 7 0x100 t) = true := by decide +kernel
theorem test_esc_emulated : steps [0xD9, 0xE8] (vector 7 { real with cr0 := { real.cr0 with em := true } })
    (fun t => entered 7 0x100 t) = true := by decide +kernel
/-- A dword at the end of the data segment of `real`, held for the coprocessor. -/
def heldWord : CopOperand :=
  { seg := .ds, off := 0xFFFC, cache := real.ds, rights := false, user := false, moved := 0, live := true }
/-- `moved` bytes of that operand have been transferred and `count` have been asked for. -/
def holding (moved count : Nat) : State :=
  { real with
    params := { real.params with coprocessor := .i80387 }, cr0 := { real.cr0 with et := true }, pins.pereq := true
    copOperand := some { heldWord with moved := moved }
    copRequest := { toMemory := true, count := count, data := [1, 2, 3, 4] } }
theorem test_esc_transfers : steps [0xDD, 0x36, 0x00, 0x20]
    { real with
      params := { real.params with coprocessor := .i80287 }
      pins.pereq := true, copRequest := { toMemory := true, count := 3, data := [1, 2, 3] } }
    (fun t => t.readByte 0x22000 == 1 && t.readByte 0x22002 == 3 &&
      t.bus == [.coprocessorRead 2, .coprocessorRead 2, .coprocessorOpcode 0x36DD false]) = true := by decide +kernel
/-- One step of the bytes at CS:EIP waits for PEREQ, in a state that passes `p`. -/
def waitsForPereq (bs : List Byte) (s : State) (p : State → Bool) : Bool :=
  match step (put (s.cs.base + s.eip).toNat bs s) with
  | .next _ => false
  | .fault (.noPereq t) => p t
  | .fault _ => false
  | .refused _ => false

/-- With no coprocessor (U12) FLD mem, DD 06, writes its opcode and waits for ever; FSTSW mem, DD 3E, completes. -/
theorem test_esc_without_coprocessor :
    waitsForPereq [0xDD, 0x06, 0x00, 0x20] real (fun t => t.bus == [.coprocessorOpcode 0x06DD false] && t.eip == 0x104) &&
      steps [0xDD, 0x3E, 0x00, 0x20] real (fun t => t.eip == 0x104) = true := by decide +kernel
/-- Through SS the first transfer of an 80387 ends past the limit: #SS(0) before the opcode goes out (Table 8-1, note q). -/
theorem test_esc_checks_stack_operand : steps [0xDD, 0x56, 0x00]
    (vector 12 (withRegs { real with
      params := { real.params with coprocessor := .i80387 }, cr0 := { real.cr0 with et := true }
      pins.pereq := true, copRequest := { toMemory := true, count := 8, data := [] } } ({ · with esp := 0x100, ebp := 0xFFFD })))
    (fun t => entered 12 0x100 t && t.bus == []) = true := by decide +kernel
/-- 70_reset_and_hazards.md R782: two bytes more are asked for after the ESC; the NOP at EIP waits for them. -/
theorem test_transfer_later : steps [0x90] (holding 2 4) (fun t => word t 0x2FFFE == 0x0403 && t.eip == 0x100 &&
    t.copOperand == some { heldWord with moved := 4 } && t.bus == [.coprocessorRead 4]) = true := by decide +kernel
/-- The last of them lies past the limit of the segment: exception 9, with the NOP's EIP saved. -/
theorem test_later_overrun : steps [0x90] (vector 9 (holding 3 8)) (fun t => entered 9 0x100 t &&
    t.copOperand == some { heldWord with moved := 3, live := false }) = true := by decide +kernel
theorem test_smsw : steps [0x0F, 0x01, 0xE0] { real with cr0 := { real.cr0 with pe := false, et := true, ts := true } }
    (fun t => t.regs.eax == 0x18) = true := by decide +kernel
theorem test_sgdt : steps [0x0F, 0x01, 0x05, 0x00, 0x30, 0x00, 0x00] { real32 with gdtr := ⟨0x21000, 0x3FF⟩ }
    (fun t => t.physDword 0x23000 == 0x100003FF && word t 0x23004 == 2) = true := by decide +kernel
/-- R629: a device sees a cycle of 2 bytes, the limit, and then one of 4, the base. -/
theorem test_sgdt_device : steps [0x0F, 0x01, 0x05, 0x02, 0x30, 0x00, 0x00]
    { real32 with
      gdtr := ⟨0x21000, 0x3FF⟩
      params := { real32.params with memoryMap := [⟨⟨0x23000, 0x23FFF⟩, .device⟩] } }
    (fun t => t.deviceBus.map (·.cycle) ==
      [.memoryWrite 0x23004 [0, 0x10, 2, 0], .memoryWrite 0x23002 [0xFF, 3]]) = true := by decide +kernel
theorem test_lgdt : steps [0x0F, 0x01, 0x16, 0x00, 0x08] (put 0x20800 [0xFF, 3, 0, 0x10, 2, 0xAA] real)
    (fun t => t.gdtr == ⟨0x21000, 0x3FF⟩) = true := by decide +kernel
theorem test_arpl_real : steps [0x63, 0xC3] (vector 6 real)
    (fun t => entered 6 0x100 t) = true := by decide +kernel
theorem test_mov_cr0_sets_pe : steps [0x0F, 0x22, 0xC0] (withRegs real ({ · with eax := 1 }))
    (fun t => t.cr0.pe && !t.cr0.pg) = true := by decide +kernel
theorem test_mov_dr7_keeps_defined_bits : steps [0x0F, 0x23, 0xF8] (withRegs real ({ · with eax := 0xFFFFDFFF }))
    (fun t => t.dr7 == 0xFFFF03FF) = true := by decide +kernel
theorem test_lock_mov_invalid : steps [0x89, 0xD8] (vector 6 { real with pfx.lock := true, pfx.count := 1 })
    (fun t => entered 6 0x100 t) = true := by decide +kernel
theorem test_operand_size_prefix : steps [0x66] real
    (fun t => t.pfx == { Prefixes.none with opsize := true, count := 1 } && t.eip == 0x101) = true := by decide +kernel
theorem test_div_fault_protected : steps [0xF7, 0xF3] (gate 0 0x8E (withRegs flat ({ · with eax := 0x64 })))
    (fun t => t.physDword 0x8FFC == 0x10002 && t.physDword 0x8FF8 == 8 && t.physDword 0x8FF4 == 0x1000 &&
      t.regs.esp == 0x8FF4 && t.eip == 0x2000) = true := by decide +kernel
theorem test_int_interrupt_gate : steps [0xCD, 0x30] (gate 0x30 0x8E (withFlags flat ({ · with ifl := true })))
    (fun t => t.physDword 0x8FFC == 0x202 && t.physDword 0x8FF4 == 0x1002 && !t.eflags.ifl) = true := by decide +kernel
theorem test_int_trap_gate : steps [0xCD, 0x30] (gate 0x30 0x8F (withFlags flat ({ · with ifl := true })))
    (fun t => t.eflags.ifl) = true := by decide +kernel
theorem test_int_gate_dpl : steps [0xCD, 0x30] (gate 0x30 0x8E (gate 13 0x8E (user flat)))
    (fun t => t.cpl == 0 && t.regs.esp == 0x8000 - 24 && t.eip == 0x2000) = true := by decide +kernel
theorem test_mov_ds_protected : steps [0x8E, 0xD8] (withRegs flat ({ · with eax := 0x10 }))
    (fun t => t.ds.selector == 0x10 && t.ds.limit == 0xFFFFFFFF && t.readByte 0x515 == 0x93) = true := by decide +kernel
theorem test_mov_ds_past_table : steps [0x8E, 0xD8] (gate 13 0x8E (withRegs flat ({ · with eax := 0x83 })))
    (fun t => t.eip == 0x2000 && t.regs.esp == 0x8FF0 && t.ds.selector == 0x10) = true := by decide +kernel
theorem test_jmp_far_protected : steps [0xEA, 0x00, 0x20, 0x00, 0x00, 0x08, 0x00] flat
    (fun t => t.cs.selector == 8 && t.eip == 0x2000 && t.readByte 0x50D == 0x9B) = true := by decide +kernel
theorem test_iret_protected : steps [0xCF]
    (put 0x8FF4 [2, 1, 0, 0, 8, 0, 0, 0, 2, 2, 0, 0] (withRegs flat ({ · with esp := 0x8FF4 })))
    (fun t => t.eip == 0x102 && t.eflags.word == 0x202 && t.regs.esp == 0x9000) = true := by decide +kernel
/-- R176, R485: the Accessed bit of the SS descriptor at 510H is written before the pushes, which lie over it here, and that
of the CS descriptor at 508H after them. -/
theorem test_call_gate_order : steps [0x9A, 0x00, 0x00, 0x00, 0x00, 0x30, 0x00] (put 0x30004 [0x18, 5] callGate)
    (fun t => t.readByte 0x514 == 0x23 && t.readByte 0x515 == 0 && t.readByte 0x50D &&& 1 == 1) = true := by decide +kernel
theorem test_call_gate : steps [0x9A, 0x00, 0x00, 0x00, 0x00, 0x30, 0x00] callGate
    (fun t => t.cpl == 0 && t.regs.esp == 0xFE8 &&
      [0xFFC, 0xFF8, 0xFF4, 0xFF0, 0xFEC, 0xFE8].map t.physDword == [0x23, 0x800, 0x22, 0x11, 0x1B,
      0x1007]) = true := by decide +kernel
/-- 14 prefixes and two bytes are too long; an undefined opcode that ends at the sixteenth byte is undefined first. -/
theorem test_too_long : steps [0x89, 0xD8] (vector 13 { real with eip := 0x10E, pfx := { Prefixes.none with count := 14 } })
    (fun t => entered 13 0x100 t) = true := by decide +kernel
theorem test_undefined_before_too_long : steps [0x0F, 0xFF]
    (vector 6 { real with eip := 0x10E, pfx := { Prefixes.none with count := 14 } })
    (fun t => entered 6 0x100 t) = true := by decide +kernel
/-- A store to a memory-mapped device is a bus cycle there and changes no memory. -/
theorem test_store_to_device : steps [0xA3, 0x00, 0x20]
    (withRegs { real with params := { real.params with memoryMap := [⟨⟨0x22000, 0x220FF⟩, .device⟩] } } ({ · with eax := 0x1234 }))
    (fun t => t.deviceBus == [{ after := 0, cycle := .memoryWrite 0x22000 [0x34, 0x12] }] && t.readByte 0x22000 == 0) = true := by
  decide +kernel
/-- A code read of a device's dword: one cycle, of the aligned dword (R118). -/
theorem test_code_read_of_device :
    (({ real with params := { real.params with memoryMap := [⟨⟨0x10100, 0x101FF⟩, .device⟩] } } : State).codeRead 0x10103
      0x10103).deviceBus = [{ after := 0, cycle := .codeRead 0x10100 4 }] := by decide +kernel
/-- Code is read ahead dword by dword up to the CS limit. -/
theorem test_code_ahead_stops_at_limit :
    ({ real with eip := 0xFFF6 } : State).codeAhead 9 0 =
      [(0x1FFF6, 0x1FFF6), (0x1FFF8, 0x1FFF8), (0x1FFFC, 0x1FFFC)] := by decide +kernel
theorem test_hlt_user : steps [0xF4] (gate 13 0x8E (user flat))
    (fun t => t.cpl == 0 && t.eip == 0x2000 && t.runState == .running) = true := by decide +kernel
theorem test_cli_user : steps [0xFA] (gate 13 0x8E (user flat))
    (fun t => t.cpl == 0 && t.eip == 0x2000) = true := by decide +kernel
theorem test_ltr : steps [0x0F, 0x00, 0xD8] (withRegs flat ({ · with eax := 0x28 }))
    (fun t => t.tr.selector == 0x28 && t.readByte 0x52D == 0x8B) = true := by decide +kernel
theorem test_jmp_task : steps [0xEA, 0x00, 0x00, 0x00, 0x00, 0x28, 0x00] (put 0x30120 [0x34, 0x12] flat)
    (fun t => t.tr.selector == 0x28 && t.eip == 0x1234 && t.cr0.ts && t.readByte 0x52D == 0x8B &&
      t.physDword 0x30020 == 0x1007) = true := by decide +kernel
theorem test_lar : steps [0x0F, 0x02, 0xC3] (withRegs flat ({ · with ebx := 8 }))
    (fun t => t.regs.eax == 0x00CF9A00 &&& 0x00F0FF00 && t.eflags.zf) = true := by decide +kernel
theorem test_lsl : steps [0x0F, 0x03, 0xC3] (withRegs flat ({ · with ebx := 8 }))
    (fun t => t.regs.eax == 0xFFFFFFFF && t.eflags.zf) = true := by decide +kernel
theorem test_verr_null : steps [0x0F, 0x00, 0xE3] (withFlags flat ({ · with zf := true }))
    (fun t => !t.eflags.zf) = true := by decide +kernel
theorem test_arpl : steps [0x63, 0xC3] (withRegs flat ({ · with eax := 3, ebx := 8 }))
    (fun t => t.regs.ebx == 0x0B && t.eflags.zf) = true := by decide +kernel
theorem test_page_walk : steps [0xA1, 0x04, 0x30, 0x40, 0x00] (put 0x5004 [0x78, 0x56, 0x34, 0x12] paged)
    (fun t => t.regs.eax == 0x12345678 && t.physDword 0x1004 == 0x2027 &&
      t.physDword 0x200C == 0x5027) = true := by decide +kernel
theorem test_page_write_sets_dirty : steps [0xA3, 0x04, 0x30, 0x40, 0x00] paged
    (fun t => t.physDword 0x200C == 0x5067) = true := by decide +kernel
theorem test_v86_interrupt : steps [0x90] v86Due
    (fun t => t.regs.esp == 0x7FDC && t.eflags.word == 0x3002 && t.cpl == 0 && t.cs.selector == 8 && t.eip == 0x2000 &&
      t.ss.selector == 0x10 && t.ds.selector == 0 && t.gs.selector == 0) = true := by decide +kernel

/-! The hypotheses of the statements can be met: for each statement that has some, states and operands that meet them, at
the boundary of a range where a clause names one. -/

/-- A computation answers. -/
def answers {α : Type} (m : M α) (s : State) : Bool :=
  match m s with
  | .ok _ _ => true
  | .error _ _ => false

theorem ok1 {α : Type} {m : M α} {s : State} (h : answers m s = true) : ∃ a t, m s = .ok a t := by
  unfold answers at h
  split at h
  · exact ⟨_, _, by assumption⟩
  · cases h

/-- The first answer of a sequence that answers, and the rest. -/
theorem ok_first {α β : Type} {m : M α} {f : α → M β} {s : State} (h : answers (m >>= f) s = true) :
    ∃ a t, m s = .ok a t ∧ answers (f a) t = true := by
  obtain ⟨b, u, hb⟩ := ok1 h
  obtain ⟨a, t, h1, h2⟩ := run_bind_eq_ok.mp hb
  exact ⟨a, t, h1, by unfold answers; rw [h2]⟩

theorem ok2 {α β : Type} {m : M α} {f : α → M β} {s : State} (h : answers (m >>= f) s = true) :
    ∃ a t b u, m s = .ok a t ∧ f a t = .ok b u := by
  obtain ⟨a, t, h1, h2⟩ := ok_first h
  obtain ⟨b, u, h3⟩ := ok1 h2
  exact ⟨a, t, b, u, h1, h3⟩

theorem ok3 {α β γ : Type} {m : M α} {f : α → M β} {g : α → β → M γ} {s : State}
    (h : answers (m >>= fun a => f a >>= g a) s = true) :
    ∃ a t b u c v, m s = .ok a t ∧ f a t = .ok b u ∧ g a b u = .ok c v := by
  obtain ⟨a, t, h1, h2⟩ := ok_first h
  obtain ⟨b, u, c, v, h3, h4⟩ := ok2 h2
  exact ⟨a, t, b, u, c, v, h1, h3, h4⟩

/-- A computation raises exception `e` with nothing of its effects kept. -/
def raises {α : Type} (m : M α) (s : State) (e : Exn) : Bool :=
  match m s with
  | .ok _ _ => false
  | .error (.exn x k) _ => x == e && k == .nothing
  | .error _ _ => false

/-- The state in which a computation ends, cut short or not. -/
def endOf {α : Type} (m : M α) (s : State) : State :=
  match m s with
  | .ok _ t => t
  | .error _ t => t

theorem raises_endOf {α : Type} {m : M α} {s : State} {e : Exn} (h : raises m s e = true) :
    m s = .error (.exn e .nothing) (endOf m s) := by
  unfold raises at h
  split at h
  · cases h
  · next he =>
    simp only [Bool.and_eq_true, beq_iff_eq] at h
    rw [endOf, he, h.1, h.2]
  · cases h

theorem raises_of {α : Type} {m : M α} {s : State} {e : Exn} (h : raises m s e = true) :
    ∃ t, m s = .error (.exn e .nothing) t := by
  unfold raises at h
  split at h
  · cases h
  · simp only [Bool.and_eq_true, beq_iff_eq] at h
    exact ⟨_, by rw [← h.1, ← h.2]; assumption⟩
  · cases h

/-- The items pushed, and those on the stack, pass their checks. -/
theorem slots_ok {s : State} {sz : Size} {n : Nat}
    (h : (List.range n).all (fun i => s.segOk .ss (s.slot sz i) sz.bytes true &&
      (s.cr0.pe || decide ((s.slot sz i).toNat + sz.bytes ≤ 65536))) = true) : ∀ i, i < n → s.slotOk sz i := by
  intro i hi
  have h1 := List.all_eq_true.mp h i (List.mem_range.mpr hi)
  simp only [Bool.and_eq_true, Bool.or_eq_true, decide_eq_true_eq] at h1
  exact ⟨h1.1, fun hp => h1.2.resolve_left (by simp [hp])⟩

theorem items_ok {s : State} {sz : Size} {n : Nat}
    (h : (List.range n).all (fun i => s.segOk .ss (s.spPlus (BitVec.ofNat 32 (sz.bytes * i))) sz.bytes false) = true) :
    ∀ i, i < n → s.itemOk sz i := by
  intro i hi
  exact List.all_eq_true.mp h i (List.mem_range.mpr hi)

/-- The invariant, evaluated. -/
def invariant (s : State) : Bool :=
  Memory.wf s.mem && s.dr6 &&& ~~~dr6Mask == 0 && s.dr7 &&& ~~~dr7Mask == 0 && s.pendingDb &&& ~~~dr6Mask == 0 &&
    (!s.cr0.pg || s.cr0.pe) && (!s.eflags.vm || s.cr0.pe)

theorem inv_of {s : State} (h : invariant s = true) : s.Inv := by
  simp only [invariant, Bool.and_eq_true, beq_iff_eq, Bool.or_eq_true, Bool.not_eq_true'] at h
  obtain ⟨⟨⟨⟨⟨h1, h2⟩, h3⟩, h4⟩, h5⟩, h6⟩ := h
  exact ⟨h1, h2, h3, h4, fun h => by simpa [h] using h5, fun h => by simpa [h] using h6⟩

theorem inv_real : real.Inv := inv_of (by decide +kernel)
theorem inv_flat : flat.Inv := inv_of (by decide +kernel)
theorem inv_paged : paged.Inv := inv_of (by decide +kernel)
theorem inv_v86Due : v86Due.Inv := inv_of (by decide +kernel)
theorem inv_user : (user flat).Inv := inv_of (by decide +kernel)

/-- Protected Mode with a 16-bit code segment. -/
def flat16 : State := { flat with cs := { flat.cs with db := false } }

theorem inv_flat16 : flat16.Inv := inv_of (by decide +kernel)

/-- Operands at the last word and the last dword of a segment. -/
def lastWord : RM := .mem (.abs16 0xFFFE)
def lastDword : RM := .mem (.abs32 0xFFFFFFFC)

theorem witness_ResetRegisters :
    (∃ s : State, s.Inv ∧ s.pins.reset = true) ∧
      ({ Config.Params.default with selftestRequested := true } : Config.Params).selftestRequested = true ∧
      SReg.ss ≠ .cs :=
  ⟨⟨{ real with pins := { real.pins with reset := true } }, inv_of (by decide +kernel), rfl⟩, by decide +kernel⟩

theorem witness_StepKeepsInvariant : ∃ s t : State, s.Inv ∧ step s = .next t := by
  have h : steps [0x50] real (fun _ => true) = true := by decide +kernel
  unfold steps at h
  split at h
  · exact ⟨put (real.cs.base + real.eip).toNat [0x50] real, _, inv_of (by decide +kernel), by assumption⟩
  · cases h
  · cases h

theorem witness_DecodeOfEncode :
    (Instr.movRmReg .full .ecx (.mem (.sib .esp .x1 none .none))).wf c32 = true ∧
      Instr.movRmReg .full .ecx (.mem (.sib .esp .x1 none .none)) ≠ .repneRep ∧
      Instr.movRmReg .full .ecx (.mem (.sib .esp .x1 none .none)) ≠ .repeRep ∧
      Instr.repeRep.wf c16 = true ∧ isStringOp 0x90 = false := by decide +kernel

/-- Where every address is memory the prefetch leaves nothing to see. -/
theorem plainly {s : State} (h : s.AllMemory) : prefetch s = .ok () s := prefetch_of_allMemory h

/-- A state whose next step fetches plain memory. -/
abbrev Fetches (s : State) : Prop :=
  s.pins.reset = false ∧ interruption s = none ∧ s.pfx.again = none ∧ s.Plain ∧ s.stale = [] ∧ s.queued = [] ∧
    s.cs.valid = true ∧ s.eipOver = false ∧ s.eip.toNat + 14 ≤ s.cs.limit.toNat

/-- What is decoded there. -/
def decodedAt (s : State) : Decoded := decode s.ctx ((linearRange (s.linear .cs s.eip) 15).map s.readByte)

/-- An instruction that runs in the last 15 bytes of its segment; a LOCK prefix that MOV does not take; the last two bytes of
15, and one too many; a prefix after 15 others; bytes that are no instruction; a repeated instruction that goes on. -/
theorem witness_StepRunsDecoded :
    (∃ s : State, prefetch s = .ok () s ∧ Fetches s ∧ s.eip.toNat + 14 = s.cs.limit.toNat ∧
      decodedAt s = .instr (.movRmReg .full .ebx (.reg .eax)) 2 ∧ s.pfx.count + 2 ≤ 15 ∧
      lockFault (.movRmReg .full .ebx (.reg .eax)) (s.markStart.skip 2) = none) ∧
    (∃ s : State, prefetch s = .ok () s ∧ Fetches s ∧ decodedAt s = .instr (.movRmReg .full .ebx (.reg .eax)) 2 ∧ s.pfx.count + 2 ≤ 15 ∧
      lockFault (.movRmReg .full .ebx (.reg .eax)) (s.markStart.skip 2) = some Exn.ud) ∧
    (∃ s : State, prefetch s = .ok () s ∧ Fetches s ∧ decodedAt s = .instr (.movRmReg .full .ebx (.reg .eax)) 2 ∧ s.pfx.count + 2 = 15) ∧
    (∃ s : State, prefetch s = .ok () s ∧ Fetches s ∧ decodedAt s = .instr (.movRmReg .full .ebx (.reg .eax)) 2 ∧ s.pfx.count + 2 = 16) ∧
    (∃ s : State, prefetch s = .ok () s ∧ Fetches s ∧ decodedAt s = .instr .opsize 1 ∧ s.pfx.count = 15 ∧
      lockFault .opsize (s.markStart.skip 1) = none) ∧
    (∃ s : State, prefetch s = .ok () s ∧ Fetches s ∧ decodedAt s = .reject .invalid) ∧
    (∃ (s : State) (r : Again), prefetch s = .ok () s ∧ s.pins.reset = false ∧ interruption s = none ∧ s.pfx.again = some r) :=
  ⟨⟨put 0x1FFF1 [0x89, 0xD8] { real with eip := 0xFFF1 }, plainly (by decide +kernel), by decide +kernel⟩,
   ⟨put 0x10100 [0x89, 0xD8] { real with pfx := { Prefixes.none with lock := true, count := 1 } }, plainly (by decide +kernel), by decide +kernel⟩,
   ⟨put 0x10100 [0x89, 0xD8] { real with pfx := { Prefixes.none with count := 13 } }, plainly (by decide +kernel), by decide +kernel⟩,
   ⟨put 0x10100 [0x89, 0xD8] { real with pfx := { Prefixes.none with count := 14 } }, plainly (by decide +kernel), by decide +kernel⟩,
   ⟨put 0x10100 [0x66] { real with pfx := { Prefixes.none with count := 15 } }, plainly (by decide +kernel), by decide +kernel⟩,
   ⟨put 0x10100 [0x0F, 0xFF] real, plainly (by decide +kernel), by decide +kernel⟩,
   ⟨{ real with pfx := { Prefixes.none with again := some { instr := .repMovsF3 .byte, next := 0x102, nextOver := false } } },
    _, plainly (by decide +kernel), by decide +kernel, by decide +kernel, rfl⟩⟩

/-- INC of memory takes LOCK, INC of a register and NOP do not; level 3 with IOPL 0, and Real Mode. -/
theorem witness_PrefixesNoted :
    (∃ (m : MemOp) (w : Width), Instr.incRm .byte (.mem (.abs16 0)) ∈ [Instr.notRm w (.mem m), .incRm w (.mem m)]) ∧
    real.pfx.lock = false ∧ Instr.segSs ∈ [Instr.addrsize, .segSs] ∧
    (∃ s : State, s.pfx.lock = true ∧ s.protectedMode = true ∧ s.eflags.iopl < s.currentCpl ∧
      lockFault (.incRm .byte (.mem (.abs16 0))) s = some (Exn.gp 0)) ∧
    (∃ s : State, s.pfx.lock = true ∧ s.protectedMode = false ∧ lockFault (.incRm .byte (.mem (.abs16 0))) s = none ∧
      lockFault (.incRm .byte (.reg .eax)) s = some Exn.ud ∧ lockFault .nop s = some Exn.ud) :=
  ⟨⟨_, _, .tail _ (.head _)⟩, by decide +kernel, by decide +kernel,
    ⟨{ user flat with pfx := { Prefixes.none with lock := true, count := 1 } }, by decide +kernel⟩,
    ⟨{ real with pfx := { Prefixes.none with lock := true, count := 1 } }, by decide +kernel⟩⟩

theorem witness_RegisterWriteKeepsUpper :
    Reg.isHighByte .ebx = false ∧ Reg.isHighByte .esp = true ∧ Reg.edi ≠ .esp ∧ Reg.edi ≠ Reg.byteHome .edi := by decide

/-- `s` on a board where the physical addresses from `first` to `last` are answered so. -/
def answeredBy (first last : Nat) (r : Config.Responder) (s : State) : State :=
  { s with params := { s.params with memoryMap := [⟨⟨first, last⟩, r⟩] } }

/-- A dword in Real Mode, the last dword of a page, the last dword inside a limit; a word of which one byte is answered by
nothing; the last word of a dword at a device. -/
theorem witness_MemoryIsLittleEndian :
    (∃ (t u : State) (as : List Dword), real.Inv ∧ memWrite .ds 0x0FFE .b32 0x12345678 real = .ok () t ∧
      physRange true real.isUser (real.linear .ds 0x0FFE) Size.b32.bytes real = .ok as u) ∧
    (∃ (t u : State) (as : List Dword), paged.Inv ∧ memWrite .ds 0x403FFC .b32 0x12345678 paged = .ok () t ∧
      physRange true paged.isUser (paged.linear .ds 0x403FFC) Size.b32.bytes paged = .ok as u) ∧
    real.Plain ∧ real.segOk .ds 0xFFFC Size.b32.bytes false = true ∧
    (∃ s : State, s.segOk .ds 0x2000 Size.b16.bytes false = true ∧ s.segOk .ds 0x2000 Size.b16.bytes true = true ∧
      (∀ w, physRange w s.isUser (s.linear .ds 0x2000) Size.b16.bytes s = .ok [0x22000, 0x22001] s) ∧
      (0x22001 : Dword) ∈ ([0x22000, 0x22001] : List Dword) ∧
      s.params.responder (0x22001 : Dword).toNat = some .absent) ∧
    (∃ s : State, s.cr0.pg = false ∧ 0x22002 = (s.linear .ds 0x2002).toNat ∧ 0x22002 % 4 + Size.b16.bytes = 4 ∧
      (∀ k, k < Size.b16.bytes → s.params.responder (0x22002 + k) = some .device) ∧
      s.segOk .ds 0x2002 Size.b16.bytes false = true ∧ s.segOk .ds 0x2002 Size.b16.bytes true = true ∧
      s.params.asserts16 .memoryDataRead 0x22002 = false ∧ s.params.asserts16 .memoryDataWrite 0x22002 = false) := by
  refine ⟨?_, ?_, by decide +kernel, by decide +kernel,
    ⟨answeredBy 0x22001 0x22001 .absent real, by decide +kernel, by decide +kernel, fun w => rfl, by decide, by decide +kernel⟩,
    ⟨answeredBy 0x22000 0x22003 .device real, by decide +kernel⟩⟩
  · obtain ⟨_, t, h⟩ := ok1 (m := memWrite .ds 0x0FFE .b32 0x12345678) (s := real) (by decide +kernel)
    obtain ⟨as, u, k⟩ := ok1 (m := physRange true real.isUser (real.linear .ds 0x0FFE) Size.b32.bytes) (s := real)
      (by decide +kernel)
    exact ⟨t, u, as, inv_real, h, k⟩
  · obtain ⟨_, t, h⟩ := ok1 (m := memWrite .ds 0x403FFC .b32 0x12345678) (s := paged) (by decide +kernel)
    obtain ⟨as, u, k⟩ := ok1 (m := physRange true paged.isUser (paged.linear .ds 0x403FFC) Size.b32.bytes) (s := paged)
      (by decide +kernel)
    exact ⟨t, u, as, inv_paged, h, k⟩

def expandDown : SegReg := { dataSegment 0 0x10 with type := 7, limit := 0xFFF, db := false }

theorem witness_SegmentChecks :
    ((real.seg .ds).expandDown = false ∧ (real.seg .ds).limit.toNat < (0xFFFF : Dword).toNat + Size.b16.bytes - 1) ∧
    (expandDown.expandDown = true ∧ (0xFFF : Dword).toNat ≤ expandDown.limit.toNat) ∧
    (expandDown.expandDown = true ∧ 2 ^ 16 < (0xFFFF : Dword).toNat + Size.b16.bytes) ∧
    (flat.cr0.pe = true ∧ ({ dataSegment 0 0 with valid := false } : SegReg).valid = false) ∧
    (flat.seg .cs).isCode = true ∧ ({ dataSegment 0 0 with type := 1 } : SegReg).writable = false ∧
    ({ dataSegment 0 0 with type := 9 } : SegReg).isCode = true ∧
    ({ dataSegment 0 0 with type := 9 } : SegReg).readable = false := by decide +kernel

/-- The walks of 95_test_vectors.md: tables where something answers and where nothing does, an entry not present, a page of the supervisor's, a user's write to a read-only page,
and one that passes. -/
theorem witness_PageTranslation :
    paged.Inv ∧ paged.cr0.pg = true ∧ findEntry (pageOf 0x00403004) paged.tlb = none ∧
      (paged.cr3 ++ 0#12) + (((0x00403004 : Dword) >>> 22) <<< 2) = 0x1004 ∧ paged.physDword 0x1004 = 0x2007 ∧
      ((0x2007 : Dword) &&& 0xFFFFF000) + ((((0x00403004 : Dword) >>> 12) &&& 0x3FF) <<< 2) = 0x200C ∧
      paged.physDword 0x200C = 0x5007 ∧ (put 0x200C [6] paged).physDword 0x200C = 0x5006 ∧
      (0x5006 : Dword).getLsbD 0 = false ∧
      ((0x5005 : Dword).getLsbD 0 = true ∧ (0x5005 : Dword).getLsbD 1 = false) ∧
      ((0x5003 : Dword).getLsbD 0 = true ∧ (0x5003 : Dword).getLsbD 2 = false) ∧
      (put 0x200C [5] paged).physDword 0x200C = 0x5005 ∧ (put 0x200C [3] paged).physDword 0x200C = 0x5003 ∧
      paged.absentDword 0x1004 = false ∧ paged.absentDword 0x200C = false ∧
      (answeredBy 0x1007 0x1007 .absent paged).absentDword 0x1004 = true ∧
      (answeredBy 0x200C 0x200C .absent paged).absentDword 0x200C = true ∧ (0x2007 : Dword).getLsbD 0 = true :=
  ⟨inv_paged, by decide +kernel⟩

theorem witness_SixteenBitDevice : 1 ≤ 1 ∧ 1 + 3 ≤ 4 ∧ 1 ≤ 4 ∧ 4 + 0 ≤ 4 := by decide

theorem witness_MovToOperand :
    (∃ l s1 s2, real.Inv ∧ resolve lastWord real = .ok l s1 ∧
      writeLoc (real.wsz .full) l (real.reg (real.wsz .full) .esp) s1 = .ok () s2) ∧
    (∃ l s1 s2, resolve (.reg .esp) real = .ok l s1 ∧
      writeLoc (real.wsz .byte) l (immValue (real.wsz .byte) (.i8 0x80)) s1 = .ok () s2) ∧
    (∃ s1, memWrite (real.pfx.seg.getD .ds) 0xFFFE (real.wsz .full) (real.reg (real.wsz .full) .eax) real = .ok () s1) := by
  refine ⟨?_, ?_, ?_⟩
  · obtain ⟨l, s1, _, s2, h, k⟩ := ok2 (m := resolve lastWord)
      (f := fun l => writeLoc (real.wsz .full) l (real.reg (real.wsz .full) .esp)) (s := real) (by decide +kernel)
    exact ⟨l, s1, s2, inv_real, h, k⟩
  · exact ⟨_, _, _, rfl, rfl⟩
  · obtain ⟨_, s1, h⟩ := ok1 (m := memWrite (real.pfx.seg.getD .ds) 0xFFFE (real.wsz .full)
      (real.reg (real.wsz .full) .eax)) (s := real) (by decide +kernel)
    exact ⟨s1, h⟩

theorem witness_MovToRegister :
    (∃ v s1, real.Inv ∧ readRm (real.wsz .full) lastWord real = .ok v s1) ∧
    (∃ v s1, flat.Inv ∧ readRm .b16 lastDword flat = .ok v s1) ∧
    (∃ v s1, readRm .b8 (.reg .edi) real = .ok v s1) ∧
    (∃ a s1, effectiveAddress (.a16 .bp (.d8 0x80)) real = .ok a s1) ∧
    (∃ v s1, memRead (real.pfx.seg.getD .ds) 0xFFFE (real.wsz .full) real = .ok v s1) := by
  refine ⟨?_, ?_, ok1 (by decide +kernel), ok1 (by decide +kernel), ok1 (by decide +kernel)⟩
  · obtain ⟨v, s1, h⟩ := ok1 (m := readRm (real.wsz .full) lastWord) (s := real) (by decide +kernel)
    exact ⟨v, s1, inv_real, h⟩
  · obtain ⟨v, s1, h⟩ := ok1 (m := readRm .b16 lastDword) (s := flat) (by decide +kernel)
    exact ⟨v, s1, inv_flat, h⟩

/-- An s-i-b byte without an index has scale 1. -/
theorem witness_EffectiveAddress :
    (∃ scaled : Scale → Option Reg → Dword, (scaled = fun sc index => match index with
      | none => 0
      | some r => flat.regs.get r * (match sc with | .x1 => 1 | .x2 => 2 | .x4 => 4 | .x8 => 8)) ∧
      scaled .x8 (some .esp) = 0x48000) ∧
    (∃ x : Dword, x = (match Disp32.d8 0x80 with | .none => 0 | .d8 v => v.signExtend 32 | .d32 v => v)) ∧
    ((none : Option Reg) = none → Scale.x1 = .x1) ∧ ((some Reg.eax : Option Reg) = none → Scale.x8 = .x1) :=
  ⟨⟨_, rfl, by decide +kernel⟩, ⟨_, rfl⟩, fun _ => rfl, fun h => by cases h⟩

theorem witness_StoreSystemWord :
    flat.Inv ∧ flat.osz = .b32 ∧ flat.protectedMode = true ∧ flat16.Inv ∧ flat16.osz = .b16 ∧
      flat16.protectedMode = true ∧ (!(flat.params.smswPrivileged && flat.currentCpl != 0)) = true ∧
      (∃ sr' off s1 s2, resolve lastDword flat = .ok (.mem sr' off) s1 ∧
        memWrite sr' off .b16 (flat.tr.selector.setWidth 32) s1 = .ok () s2) := by
  refine ⟨inv_flat, by decide +kernel, by decide +kernel, inv_flat16, by decide +kernel, by decide +kernel,
    by decide +kernel, ?_⟩
  obtain ⟨_, s2, h⟩ := ok1 (m := memWrite .ds 0xFFFFFFFC .b16 (flat.tr.selector.setWidth 32)) (s := flat)
    (by decide +kernel)
  exact ⟨.ds, 0xFFFFFFFC, flat, s2, rfl, h⟩

theorem witness_SegmentLoad8086 : real.protectedMode = false ∧ v86Due.protectedMode = false := by decide +kernel

/-- `flat` with a descriptor of that access byte at selector 38H. -/
def withDescriptor (access : Byte) : State := put 0x538 [0xFF, 0xFF, 0, 0, 0, access, 0xCF] flat

theorem inv_withDescriptor : (withDescriptor 0x12).Inv := inv_of (by decide +kernel)

/-- The condition of the statement under which a descriptor is taken. -/
def Takes (s : State) (sr : SReg) (sel : Word) : Prop :=
  if sr = .ss then
    sel.extractLsb' 0 2 = s.currentCpl ∧ (s.descriptorIn (s.descriptorAt sel)).hi.extractLsb' 13 2 = s.currentCpl ∧
      (s.descriptorIn (s.descriptorAt sel)).isWritableData = true
  else ((s.descriptorIn (s.descriptorAt sel)).isData = true ∨ (s.descriptorIn (s.descriptorAt sel)).isReadableCode = true) ∧
    ((s.descriptorIn (s.descriptorAt sel)).isConforming = true ∨
      (sel.extractLsb' 0 2 ≤ (s.descriptorIn (s.descriptorAt sel)).hi.extractLsb' 13 2 ∧
        s.currentCpl ≤ (s.descriptorIn (s.descriptorAt sel)).hi.extractLsb' 13 2))

/-- Null selectors 0 and 3; the first selector past the table; data and readable code taken, in DS and in SS; data that is
not present; the last, empty, descriptor of the table. -/
theorem witness_SegmentLoadProtected :
    flat.Inv ∧ flat.protectedMode = true ∧ flat.Plain ∧
    (3 : Word).extractLsb' 2 14 = 0 ∧ (0x80 : Word).extractLsb' 2 14 ≠ 0 ∧ flat.inTable 0x80 = false ∧
    ((0x10 : Word).extractLsb' 2 14 ≠ 0 ∧ flat.inTable 0x10 = true ∧ Takes flat .ds 0x10 ∧ Takes flat .ss 0x10 ∧
      (flat.descriptorIn (flat.descriptorAt 0x10)).present = true) ∧
    (flat.inTable 8 = true ∧ Takes flat .es 8) ∧
    ((withDescriptor 0x12).Inv ∧ (withDescriptor 0x12).protectedMode = true ∧ (withDescriptor 0x12).Plain ∧
      (withDescriptor 0x12).inTable 0x38 = true ∧ Takes (withDescriptor 0x12) .ds 0x38 ∧
      Takes (withDescriptor 0x12) .ss 0x38 ∧
      ((withDescriptor 0x12).descriptorIn ((withDescriptor 0x12).descriptorAt 0x38)).present = false) ∧
    (flat.inTable 0x78 = true ∧ ¬Takes flat .ds 0x78 ∧ ¬Takes flat .ss 0x78 ∧ ¬Takes flat .ss 0x11) := by
  unfold Takes
  refine ⟨inv_flat, by decide +kernel, by decide +kernel, by decide, by decide, by decide +kernel, by decide +kernel,
    by decide +kernel, ⟨inv_withDescriptor, by decide +kernel⟩, by decide +kernel⟩

/-- PUSHA with the stack pointer at 10H, the lowest for eight words, at 0, and at 0EH, where the frame would wrap. -/
theorem witness_SegmentLoadsPushaPopa :
    (∃ s : State, s.Inv ∧ s.Plain ∧ s.sp = 0x10 ∧ 8 * s.osz.bytes ≤ s.sp.toNat ∧
      (∀ i, i < 8 → s.slotOk s.osz i) ∧ (∀ i, i < 8 → s.itemOk s.osz i)) ∧
    (∃ s : State, s.Inv ∧ s.Plain ∧ s.sp = 0 ∧ (∀ i, i < 8 → s.slotOk s.osz i)) ∧
    (∃ s : State, s.Inv ∧ s.Plain ∧ s.cr0.pe = false ∧ s.sp ≠ 0 ∧ s.sp.toNat < 8 * s.osz.bytes) ∧
    (flat.cr0.pe = true ∧ (∀ i, i < 8 → flat.slotOk flat.osz i)) ∧ SReg.ss ≠ .cs ∧
    (∃ v s1 s2, real.Inv ∧ readRm .b16 (.reg .eax) real = .ok v s1 ∧ loadSeg .ss (v.setWidth 16) s1 = .ok () s2) ∧
    (∃ v s1 s2, flat.Inv ∧ readRm .b16 (.reg .eax) flat = .ok v s1 ∧ loadSeg .ds (v.setWidth 16) s1 = .ok () s2) ∧
    (∃ v s1 s2, memRead .ss real.sp real.osz real = .ok v s1 ∧
      loadSeg .fs (v.setWidth 16) { s1 with regs := real.regsPopped real.osz.bytes } = .ok () s2) ∧
    (∃ off sel s1 s2, readFarPointer (.abs16 0xFFFC) real = .ok (off, sel) s1 ∧ loadSeg .gs sel s1 = .ok () s2) := by
  refine ⟨⟨withRegs real ({ · with esp := 0x10 }), inv_of (by decide +kernel), by decide +kernel, by decide +kernel,
      by decide +kernel, slots_ok (by decide +kernel), items_ok (by decide +kernel)⟩,
    ⟨withRegs real ({ · with esp := 0 }), inv_of (by decide +kernel), by decide +kernel, by decide +kernel,
      slots_ok (by decide +kernel)⟩,
    ⟨withRegs real ({ · with esp := 0xE }), inv_of (by decide +kernel), by decide +kernel⟩,
    ⟨by decide +kernel, slots_ok (by decide +kernel)⟩, by decide, ?_, ?_, ?_, ?_⟩
  · obtain ⟨v, s1, _, s2, h, k⟩ := ok2 (m := readRm .b16 (.reg .eax)) (f := fun v => loadSeg .ss (v.setWidth 16))
      (s := real) (by decide +kernel)
    exact ⟨v, s1, s2, inv_real, h, k⟩
  · obtain ⟨v, s1, _, s2, h, k⟩ := ok2 (m := readRm .b16 (.reg .eax)) (f := fun v => loadSeg .ds (v.setWidth 16))
      (s := flat) (by decide +kernel)
    exact ⟨v, s1, s2, inv_flat, h, k⟩
  · obtain ⟨v, s1, _, s2, h, k⟩ := ok2 (m := memRead .ss real.sp real.osz)
      (f := fun v s => loadSeg .fs (v.setWidth 16) { s with regs := real.regsPopped real.osz.bytes })
      (s := real) (by decide +kernel)
    exact ⟨v, s1, s2, h, k⟩
  · obtain ⟨p, s1, _, s2, h, k⟩ := ok2 (m := readFarPointer (.abs16 0xFFFC)) (f := fun p => loadSeg .gs p.2)
      (s := real) (by decide +kernel)
    exact ⟨p.1, p.2, s1, s2, h, k⟩

/-- Real Mode with SP = 1 and a limit of SS above FFFFH. -/
def oddStack : State := withRegs { real with ss := { real.ss with limit := 0xFFFFF } } ({ · with esp := 1 })

/-- 10_state.md R36: no push wraps the segment in Real Mode, whatever its limit. -/
theorem test_push_odd_stack : steps [0x50] oddStack
    (fun t => t.runState == .shutdown && t.regs.esp == 1 && t.bus == [.shutdown]) = true := by decide +kernel

/-- With the stack pointer at 2, the lowest that takes a word, with a 32-bit stack, and at 1. -/
theorem witness_PushOperand :
    (∃ s, s.Inv ∧ (s.v86 = false ∨ s.eflags.iopl = 3) ∧ s.osz = .b16 ∧ (s.slot s.osz 0).toNat + s.osz.bytes ≤ 65536 ∧
      (∃ v s1 s2, readRm s.osz lastWord s = .ok v s1 ∧ memWrite .ss (s.slot s.osz 0) s.osz v s1 = .ok () s2) ∧
      (∃ s2, memWrite .ss (s.slot s.osz 0) s.osz (s.reg s.osz .esp) s = .ok () s2) ∧
      (∃ s2, memWrite .ss (s.slot s.osz 0) s.osz (immValue s.osz (.i8 0x80)) s = .ok () s2) ∧
      (∃ s2, memWrite .ss (s.slot .b16 0) .b16 (s.cs.selector.setWidth 32) s = .ok () s2) ∧
      (∃ v s2, v = s.eflags.word &&& 0xFFFCFFFF ∧ memWrite .ss (s.slot s.osz 0) s.osz v s = .ok () s2)) ∧
    (flat.Inv ∧ flat.osz = .b32 ∧
      ∃ v s1 s2, freeUpper flat.cs.selector flat = .ok v s1 ∧ memWrite .ss (flat.slot .b32 0) .b32 v s1 = .ok () s2) ∧
    (oddStack.Inv ∧ oddStack.cr0.pe = false ∧ oddStack.sp = 1 ∧ oddStack.AllMemory ∧
      ∃ v s1, readRm oddStack.osz lastWord oddStack = .ok v s1) := by
  refine ⟨⟨withRegs real ({ · with esp := 2 }), inv_of (by decide +kernel), by decide +kernel, by decide +kernel,
    by decide +kernel, ?_, ?_, ?_, ?_, ?_⟩, ⟨inv_flat, by decide +kernel, ?_⟩, inv_of (by decide +kernel),
    by decide +kernel, by decide +kernel, by decide +kernel, ok1 (m := readRm .b16 lastWord) (s := oddStack) (by decide +kernel)⟩
  · obtain ⟨v, s1, _, s2, h, k⟩ := ok2 (m := readRm .b16 lastWord)
      (f := fun v => memWrite .ss ((withRegs real ({ · with esp := 2 })).slot .b16 0) .b16 v)
      (s := withRegs real ({ · with esp := 2 })) (by decide +kernel)
    exact ⟨v, s1, s2, h, k⟩
  · obtain ⟨_, s2, h⟩ := ok1 (m := memWrite .ss ((withRegs real ({ · with esp := 2 })).slot .b16 0) .b16
      ((withRegs real ({ · with esp := 2 })).reg .b16 .esp)) (s := withRegs real ({ · with esp := 2 })) (by decide +kernel)
    exact ⟨s2, h⟩
  · obtain ⟨_, s2, h⟩ := ok1 (m := memWrite .ss ((withRegs real ({ · with esp := 2 })).slot .b16 0) .b16
      (immValue .b16 (.i8 0x80))) (s := withRegs real ({ · with esp := 2 })) (by decide +kernel)
    exact ⟨s2, h⟩
  · obtain ⟨_, s2, h⟩ := ok1 (m := memWrite .ss ((withRegs real ({ · with esp := 2 })).slot .b16 0) .b16 0x1000)
      (s := withRegs real ({ · with esp := 2 })) (by decide +kernel)
    exact ⟨s2, h⟩
  · obtain ⟨_, s2, h⟩ := ok1 (m := memWrite .ss ((withRegs real ({ · with esp := 2 })).slot .b16 0) .b16
      ((withRegs real ({ · with esp := 2 })).eflags.word &&& 0xFFFCFFFF)) (s := withRegs real ({ · with esp := 2 }))
      (by decide +kernel)
    exact ⟨_, s2, rfl, h⟩
  · obtain ⟨v, s1, _, s2, h, k⟩ := ok2 (m := freeUpper flat.cs.selector)
      (f := fun v => memWrite .ss (flat.slot .b32 0) .b32 v) (s := flat) (by decide +kernel)
    exact ⟨v, s1, s2, h, k⟩

theorem witness_PopOperand :
    ∃ s, s.Inv ∧ (s.v86 = false ∨ s.eflags.iopl = 3) ∧ s.sp = 0xFFFE ∧ ∃ v s1 l s2 s3, memRead .ss s.sp s.osz s = .ok v s1 ∧
      resolve lastWord { s1 with regs := s.regsPopped s.osz.bytes } = .ok l s2 ∧ writeLoc s.osz l v s2 = .ok () s3 := by
  refine ⟨withRegs real ({ · with esp := 0xFFFE }), inv_of (by decide +kernel), by decide +kernel, by decide +kernel, ?_⟩
  obtain ⟨v, s1, l, s2, _, s3, h, k, m⟩ := ok3 (m := memRead .ss 0xFFFE .b16)
    (f := fun _ s => resolve lastWord { s with regs := (withRegs real ({ · with esp := 0xFFFE })).regsPopped 2 })
    (g := fun v l => writeLoc .b16 l v) (s := withRegs real ({ · with esp := 0xFFFE })) (by decide +kernel)
  exact ⟨v, s1, l, s2, s3, h, k, m⟩

theorem witness_Exchange :
    ∃ l s1 a s2 s3, real.Inv ∧ resolve lastWord real = .ok l s1 ∧ readLoc (real.wsz .full) l s1 = .ok a s2 ∧
      writeLoc (real.wsz .full) l (real.reg (real.wsz .full) .ecx) s2 = .ok () s3 := by
  obtain ⟨l, s1, a, s2, _, s3, h, k, m⟩ := ok3 (m := resolve lastWord) (f := fun l => readLoc (real.wsz .full) l)
    (g := fun l _ => writeLoc (real.wsz .full) l (real.reg (real.wsz .full) .ecx)) (s := real) (by decide +kernel)
  exact ⟨l, s1, a, s2, s3, inv_real, h, k, m⟩

/-- The I/O permission map of example S1 of 95_test_vectors.md. -/
def ioMap (limit : Dword) : State :=
  put 0x30066 [0x68] (put 0x30088 [0xFF] { user flat with tr := { flat.tr with limit := limit } })

/-- Example S1; a word at port FFFFH runs past the last bit of any map. -/
theorem witness_IoPermission :
    (real.cr0.pe = false ∧ flat.Plain ∧ flat.eflags.vm = false ∧ flat.currentCpl ≤ flat.eflags.iopl) ∧
    ((ioMap 0x66).Plain ∧ (ioMap 0x66).cr0.pe = true ∧ (ioMap 0x66).eflags.iopl < (ioMap 0x66).currentCpl ∧
      (ioMap 0x66).tr.limit.toNat < 0x67) ∧
    ((ioMap 0x88).tr.valid = true ∧ (ioMap 0x88).tr.type.getLsbD 3 = true ∧ 0x67 ≤ (ioMap 0x88).tr.limit.toNat ∧
      leNat ([0, 1].map fun k => (ioMap 0x88).readByte ((ioMap 0x88).tr.base + 0x66 + k)) = 0x68) ∧
    -- ports FEH and FFH are permitted, FFH and 100H are not; port 100H lies past the limit
    (0x68 + (0xFE : Word).toNat / 8 + 1 = (ioMap 0x88).tr.limit.toNat ∧
      ∀ k, k < 2 → ((ioMap 0x88).readByte ((ioMap 0x88).tr.base +
        BitVec.ofNat 32 (0x68 + (0xFE : Word).toNat / 8 + ((0xFE : Word).toNat % 8 + k) / 8))).getLsbD
          (((0xFE : Word).toNat % 8 + k) % 8) = false) ∧
    (0x68 + (0xFF : Word).toNat / 8 + 1 ≤ (ioMap 0x88).tr.limit.toNat ∧
      ((ioMap 0x88).readByte ((ioMap 0x88).tr.base +
        BitVec.ofNat 32 (0x68 + (0xFF : Word).toNat / 8 + ((0xFF : Word).toNat % 8 + 1) / 8))).getLsbD
          (((0xFF : Word).toNat % 8 + 1) % 8) = true) ∧
    (ioMap 0x88).tr.limit.toNat < 0x68 + (0x100 : Word).toNat / 8 + 1 ∧
    65536 < (0xFFFF : Word).toNat + Size.b16.bytes ∧
    (∃ s1, checkIo 0xFF .b16 { ioMap 0x88 with cs := { flat16.cs with dpl := 3 } } =
      .error (.exn (Exn.gp 0) .nothing) s1) := by
  refine ⟨by decide +kernel, by decide +kernel, by decide +kernel, by decide +kernel, by decide +kernel, by decide +kernel,
    by decide, raises_of (by decide +kernel)⟩

/-- Nothing answers at port FFFFH. -/
def deaf (s : State) : State := { s with params := { s.params with absentPorts := [⟨0xFFFF, 0xFFFF⟩] } }

/-- A word at port FFFEH, the last that fits, whose ports answer or do not, and at FFFFH, which runs past the top. -/
theorem witness_InputOutput :
    (∃ s port s1, s.Inv ∧ Size.b16 = s.wsz .full ∧ port = s.regs.edx.setWidth 16 ∧ checkIo port .b16 s = .ok () s1 ∧
      port.toNat + Size.b16.bytes = 65536 ∧ ∀ k, k < Size.b16.bytes → s.params.portAbsent (port.toNat + k) = false) ∧
    (∃ s port s1, s.Inv ∧ Size.b16 = s.wsz .full ∧ port = s.regs.edx.setWidth 16 ∧ checkIo port .b16 s = .ok () s1 ∧
      port.toNat + Size.b16.bytes = 65536 ∧ ∃ k, k < Size.b16.bytes ∧ s.params.portAbsent (port.toNat + k) = true) ∧
    (∃ s port s1, s.Inv ∧ Size.b16 = s.wsz .full ∧ port = s.regs.edx.setWidth 16 ∧ checkIo port .b16 s = .ok () s1 ∧
      65536 < port.toNat + Size.b16.bytes) ∧
    (∃ s1 : State, ∃ port : Word, port = (0xFF : BitVec 8).setWidth 16 ∧ checkIo port .b16 real = .ok () s1) := by
  refine ⟨⟨withRegs real ({ · with edx := 0xFFFE }), 0xFFFE, ?_⟩, ⟨deaf (withRegs real ({ · with edx := 0xFFFE })), 0xFFFE, ?_⟩,
    ⟨withRegs real ({ · with edx := 0xFFFF }), 0xFFFF, ?_⟩, ?_⟩
  · exact ⟨_, inv_of (by decide +kernel), by decide +kernel, by decide +kernel, rfl, by decide +kernel, by decide +kernel⟩
  · exact ⟨_, inv_of (by decide +kernel), by decide +kernel, by decide +kernel, rfl, by decide +kernel, 1, by decide,
      by decide +kernel⟩
  · exact ⟨_, inv_of (by decide +kernel), by decide +kernel, by decide +kernel, rfl, by decide +kernel⟩
  · exact ⟨_, _, rfl, rfl⟩

theorem witness_FlagInstructions :
    real.Inv ∧ real.currentCpl = 0 ∧ real.cr0.pe = false ∧ flat.Inv ∧ flat.currentCpl ≤ flat.eflags.iopl ∧
      (user flat).Inv ∧ (user flat).cr0.pe = true ∧ (user flat).eflags.iopl < (user flat).currentCpl :=
  ⟨inv_real, by decide +kernel, by decide +kernel, inv_flat, by decide +kernel, inv_user, by decide +kernel,
    by decide +kernel⟩

theorem witness_ArithmeticFlags :
    (0xFF : Dword).toNat < 2 ^ Size.b8.bits ∧ (0x8000 : Dword).toNat < 2 ^ Size.b16.bits ∧
      (0xFFFFFFFF : Dword).toNat < 2 ^ Size.b32.bits := by decide

/-- Read an operand, then write back `f` of what was read. -/
def rewrite (rm : RM) (sz : Size) (f : Dword → Dword) : M Unit :=
  resolve rm >>= fun l => readLoc sz l >>= fun a => writeLoc sz l (f a)

theorem rewrite_ok {rm : RM} {sz : Size} {f : Dword → Dword} {s : State} (h : answers (rewrite rm sz f) s = true) :
    ∃ l s1 a s2 s3, resolve rm s = .ok l s1 ∧ readLoc sz l s1 = .ok a s2 ∧ writeLoc sz l (f a) s2 = .ok () s3 := by
  obtain ⟨l, s1, a, s2, _, s3, h, k, m⟩ := ok3 h
  exact ⟨l, s1, a, s2, s3, h, k, m⟩

theorem witness_ArithmeticToDestination :
    real.Inv ∧ Size.b16 = real.wsz .full ∧ Dir.toRm = .toRm ∧ Dir.toReg = .toReg ∧
    (∃ l s1 a s2 s3, resolve lastWord real = .ok l s1 ∧ readLoc .b16 l s1 = .ok a s2 ∧
      writeLoc .b16 l (subResult .b16 a (real.reg .b16 .esp) real.eflags.cf) s2 = .ok () s3) ∧
    (∃ l s1 a s2 s3, resolve (.reg .esp) real = .ok l s1 ∧ readLoc .b16 l s1 = .ok a s2 ∧
      writeLoc .b16 l (addResult .b16 a (immValue .b16 (.i8 0x80)) false) s2 = .ok () s3) :=
  ⟨inv_real, by decide +kernel, rfl, rfl,
    rewrite_ok (f := fun a => subResult .b16 a (real.reg .b16 .esp) real.eflags.cf) (by decide +kernel),
    rewrite_ok (f := fun a => addResult .b16 a (immValue .b16 (.i8 0x80)) false) (by decide +kernel)⟩

theorem witness_CompareIncrementNegate :
    real.Inv ∧ Size.b8 = real.wsz .byte ∧ Size.b16 = real.osz ∧
    (∃ a s1, readRm .b8 (.mem (.abs16 0xFFFF)) real = .ok a s1) ∧
    (∃ l s1 a s2 s3, resolve (.mem (.abs16 0xFFFF)) real = .ok l s1 ∧ readLoc .b8 l s1 = .ok a s2 ∧
      writeLoc .b8 l (addResult .b8 a 1 false) s2 = .ok () s3) ∧
    (∃ l s1 a s2 s3, resolve (.mem (.abs16 0xFFFF)) real = .ok l s1 ∧ readLoc .b8 l s1 = .ok a s2 ∧
      writeLoc .b8 l (subResult .b8 a 1 false) s2 = .ok () s3) ∧
    (∃ l s1 a s2 s3, resolve (.mem (.abs16 0xFFFF)) real = .ok l s1 ∧ readLoc .b8 l s1 = .ok a s2 ∧
      writeLoc .b8 l (subResult .b8 0 a false) s2 = .ok () s3) :=
  ⟨inv_real, by decide +kernel, by decide +kernel, ok1 (by decide +kernel),
    rewrite_ok (f := fun a => addResult .b8 a 1 false) (by decide +kernel),
    rewrite_ok (f := fun a => subResult .b8 a 1 false) (by decide +kernel),
    rewrite_ok (f := fun a => subResult .b8 0 a false) (by decide +kernel)⟩

/-- AL = 9 with AF clear, AL = 9AH: the ends of the two ranges. -/
theorem witness_DecimalAdjust :
    (∃ (s : State) (al ah : Byte) (low high : Bool), s.Inv ∧ al = s.regs.eax.extractLsb' 0 8 ∧
      ah = s.regs.eax.extractLsb' 8 8 ∧ low = decide (9 < al.toNat % 16 ∨ s.eflags.af = true) ∧
      high = decide (0x99 < al.toNat ∨ s.eflags.cf = true) ∧ al = 0x99 ∧ low = false ∧ high = false) ∧
    (∃ (s : State) (al ah : Byte) (low high : Bool), s.Inv ∧ al = s.regs.eax.extractLsb' 0 8 ∧
      ah = s.regs.eax.extractLsb' 8 8 ∧ low = decide (9 < al.toNat % 16 ∨ s.eflags.af = true) ∧
      high = decide (0x99 < al.toNat ∨ s.eflags.cf = true) ∧ al = 0x9A ∧ low = true ∧ high = true) :=
  ⟨⟨withRegs real ({ · with eax := 0x99 }), 0x99, 0, false, false, inv_of (by decide +kernel), by decide +kernel⟩,
    ⟨withRegs real ({ · with eax := 0x9A }), 0x9A, 0, true, true, inv_of (by decide +kernel), by decide +kernel⟩⟩

theorem witness_Multiply :
    real.Inv ∧ Size.b8 = real.wsz .byte ∧ Size.b16 = real.osz ∧
    (∃ (m : Dword) (s1 : State) (p : Int) (wide : Bool), readRm .b8 (.mem (.abs16 0xFFFF)) real = .ok m s1 ∧
      Instr.mul .byte (.mem (.abs16 0xFFFF)) = .mul .byte (.mem (.abs16 0xFFFF)) ∧
      p = ((real.reg .b8 .eax).toNat : Int) * m.toNat ∧ wide = decide (2 ^ Size.b8.bits ≤ p)) ∧
    (∃ (m : Dword) (s1 : State) (p : Int), readRm .b16 lastWord real = .ok m s1 ∧
      Instr.imulReg .ecx lastWord = .imulReg .ecx lastWord ∧ p = signedVal .b16 (real.reg .b16 .ecx) * signedVal .b16 m) := by
  obtain ⟨m, s1, h⟩ := ok1 (m := readRm .b8 (.mem (.abs16 0xFFFF))) (s := real) (by decide +kernel)
  obtain ⟨n, s2, k⟩ := ok1 (m := readRm .b16 lastWord) (s := real) (by decide +kernel)
  exact ⟨inv_real, by decide +kernel, by decide +kernel, ⟨m, s1, _, _, h, rfl, rfl, rfl⟩, ⟨n, s2, _, k, rfl, rfl⟩⟩

/-- AX = FEFFH / FFH = FFH, the largest quotient; AX = FF00H / FFH, the smallest that does not fit; the smallest signed
quotient, -80H; the smallest positive one that does not fit, 80H; a divisor of 0. -/
theorem witness_Divide :
    (∃ s : State, s.Inv ∧ readRm .b8 (.reg .ebx) s = .ok 0xFF s ∧ ((s.reg .b16 .eax).toNat : Int) = 0xFEFF ∧
      ((0xFEFF : Int) / ((0xFF : Dword).toNat : Int) = 2 ^ Size.b8.bits - 1)) ∧
    (∃ s : State, s.Inv ∧ readRm .b8 (.reg .ebx) s = .ok 0xFF s ∧ ((s.reg .b16 .eax).toNat : Int) = 0xFF00 ∧
      ((0xFF00 : Int) / ((0xFF : Dword).toNat : Int) = 2 ^ Size.b8.bits)) ∧
    (∃ s : State, s.Inv ∧ readRm .b8 (.reg .ebx) s = .ok 0xFF s ∧ ((s.reg .b16 .eax).toNat : Int) = 0x80 ∧
      (0x80 : Int) < 2 ^ (2 * Size.b8.bits - 1) ∧ (0x80 : Int).tdiv (signedVal .b8 0xFF) = -(2 ^ (Size.b8.bits - 1))) ∧
    (∃ s : State, s.Inv ∧ readRm .b8 (.reg .ebx) s = .ok 0xFF s ∧ ((s.reg .b16 .eax).toNat : Int) = 0xFF80 ∧
      (2 : Int) ^ (2 * Size.b8.bits - 1) ≤ 0xFF80 ∧
      ((0xFF80 : Int) - 2 ^ (2 * Size.b8.bits)).tdiv (signedVal .b8 0xFF) = 2 ^ (Size.b8.bits - 1)) ∧
    (Size.b8 = real.wsz .byte ∧ readRm .b8 (.reg .ebx) real = .ok 0 real ∧ signedVal .b8 0 = 0) :=
  ⟨⟨withRegs real ({ · with eax := 0xFEFF, ebx := 0xFF }), inv_of (by decide +kernel), rfl, by decide +kernel⟩,
    ⟨withRegs real ({ · with eax := 0xFF00, ebx := 0xFF }), inv_of (by decide +kernel), rfl, by decide +kernel⟩,
    ⟨withRegs real ({ · with eax := 0x80, ebx := 0xFF }), inv_of (by decide +kernel), rfl, by decide +kernel⟩,
    ⟨withRegs real ({ · with eax := 0xFF80, ebx := 0xFF }), inv_of (by decide +kernel), rfl, by decide +kernel⟩,
    by decide +kernel, rfl, by decide +kernel⟩

theorem witness_Convert :
    (∃ al ah : Byte, real.Inv ∧ al = real.regs.eax.extractLsb' 0 8 ∧ ah = real.regs.eax.extractLsb' 8 8 ∧
      real.osz = .b16) ∧ flat.Inv ∧ flat.osz = .b32 ∧ (1 : BitVec 8) ≠ 0 ∧ (0 : BitVec 8) = 0 :=
  ⟨⟨_, _, inv_real, rfl, rfl, by decide +kernel⟩, inv_flat, by decide +kernel, by decide, rfl⟩

theorem witness_BooleanOperations :
    real.Inv ∧ Size.b16 = real.wsz .full ∧ Size.b16 = real.osz ∧ Dir.toRm = .toRm ∧ Dir.toReg = .toReg ∧
    (∃ l s1 a s2 s3, resolve lastWord real = .ok l s1 ∧ readLoc .b16 l s1 = .ok a s2 ∧
      writeLoc .b16 l (a ^^^ real.reg .b16 .esp) s2 = .ok () s3) ∧
    (∃ l s1 a s2 s3, resolve lastWord real = .ok l s1 ∧ readLoc .b16 l s1 = .ok a s2 ∧
      writeLoc .b16 l (a ||| immValue .b16 (.i16 0x8000)) s2 = .ok () s3) ∧
    (∃ l s1 a s2 s3, resolve lastWord real = .ok l s1 ∧ readLoc .b16 l s1 = .ok a s2 ∧
      writeLoc .b16 l (a &&& trunc .b16 ((0x80 : BitVec 8).signExtend 32)) s2 = .ok () s3) ∧
    (∃ l s1 a s2 s3, resolve lastWord real = .ok l s1 ∧ readLoc .b16 l s1 = .ok a s2 ∧
      writeLoc .b16 l (trunc .b16 (~~~a)) s2 = .ok () s3) ∧
    (∃ a s1, readRm .b16 lastWord real = .ok a s1) :=
  ⟨inv_real, by decide +kernel, by decide +kernel, rfl, rfl,
    rewrite_ok (f := fun a => a ^^^ real.reg .b16 .esp) (by decide +kernel),
    rewrite_ok (f := fun a => a ||| immValue .b16 (.i16 0x8000)) (by decide +kernel),
    rewrite_ok (f := fun a => a &&& trunc .b16 ((0x80 : BitVec 8).signExtend 32)) (by decide +kernel),
    rewrite_ok (f := fun a => trunc .b16 (~~~a)) (by decide +kernel), ok1 (by decide +kernel)⟩

/-- A byte shifted by 1, by its 8 bits and by 31. -/
theorem witness_ShiftResults :
    8 = Size.b8.bits ∧ (0x81 : Dword).toNat < 2 ^ 8 ∧ 1 ≤ 1 ∧ 1 ≤ 8 ∧ 8 ≤ 8 ∧ 1 ≤ 31 ∧ 31 ≤ 31 ∧ ¬31 ≤ 8 := by decide

/-- A count of 20H, which is taken as 0, and one of 1FH. -/
theorem witness_ShiftAndRotate :
    ∃ l s1 v s2 u s3 s4, real.Inv ∧ Size.b16 = real.wsz .full ∧ resolve lastWord real = .ok l s1 ∧
      readLoc .b16 l s1 = .ok v s2 ∧ freeDword s2 = .ok u s3 ∧ (0x20 : BitVec 8).toNat % 32 = 0 ∧
      (0x1F : BitVec 8).toNat % 32 ≠ 0 ∧ writeLoc .b16 l (shiftSar .b16 31 v real.eflags u).1 s3 = .ok () s4 := by
  obtain ⟨l, s1, h1, h⟩ := ok_first (m := resolve lastWord) (f := fun l => readLoc .b16 l >>= fun v => freeDword >>=
    fun u => writeLoc .b16 l (shiftSar .b16 31 v real.eflags u).1) (s := real) (by decide +kernel)
  obtain ⟨v, s2, h2, h⟩ := ok_first h
  obtain ⟨u, s3, _, s4, h3, h4⟩ := ok2 h
  exact ⟨l, s1, v, s2, u, s3, s4, inv_real, by decide +kernel, h1, h2, h3, by decide, by decide, h4⟩

/-- Counts of 0, of the operand's 16 bits, and of one more. -/
theorem witness_DoubleShift :
    ∃ s : State, s.Inv ∧ Size.b16 = s.osz ∧ 16 = Size.b16.bits ∧ resolve (.reg .eax) s = .ok (.reg .eax) s ∧
      readLoc .b16 (.reg .eax) s = .ok 0x1234 s ∧ (0x20 : BitVec 8).toNat % 32 = 0 ∧
      (∃ u s3 s4, freeDword s = .ok u s3 ∧ (0xABCD : Dword).toNat < 2 ^ 16 ∧
        (∀ j, j < 16 → (0xABCD : Dword).getLsbD j = if 16 ≤ j then (0x1234 : Dword).getLsbD (j - 16) else
          (s.reg .b16 .ebx).getLsbD (16 - 16 + j)) ∧ writeLoc .b16 (.reg .eax) 0xABCD s3 = .ok () s4) ∧
      (0x11 : BitVec 8).toNat % 32 = 17 ∧
      (∃ r s3 s4, freeAt .b16 s = .ok r s3 ∧ writeLoc .b16 (.reg .eax) r s3 = .ok () s4) :=
  ⟨withRegs real ({ · with eax := 0x1234, ebx := 0xABCD }), inv_of (by decide +kernel), by decide +kernel, by decide, rfl,
    rfl, by decide, ⟨_, _, _, rfl, by decide, by decide +kernel, rfl⟩, by decide, ⟨_, _, _, rfl, rfl⟩⟩

/-- The source in the last word of its segment, the destination in the first of its own. -/
theorem witness_StringElements :
    ∃ s : State, s.Inv ∧ Size.b16 = s.wsz .full ∧ s.reg s.asz .esi = 0xFFFE ∧ s.reg s.asz .edi = 0 ∧
      (∃ a s1 s2, memRead .ds 0xFFFE .b16 s = .ok a s1 ∧ memWrite .es 0 .b16 a s1 = .ok () s2) ∧
      (∃ a s1 b s2, memRead .ds 0xFFFE .b16 s = .ok a s1 ∧ memRead .es 0 .b16 s1 = .ok b s2) ∧
      (∃ b s1, memRead .es 0 .b16 s = .ok b s1) ∧
      (∃ s1, memWrite .es 0 .b16 (s.reg .b16 .eax) s = .ok () s1) ∧
      (∃ a s1, memRead .ds (trunc s.asz (s.reg s.asz .ebx + s.reg .b8 .eax)) .b8 s = .ok a s1) := by
  refine ⟨withRegs real ({ · with esi := 0xFFFE }), inv_of (by decide +kernel), by decide +kernel, by decide +kernel,
    by decide +kernel, ?_, ok2 (by decide +kernel), ok1 (by decide +kernel), ?_, ok1 (by decide +kernel)⟩
  · obtain ⟨a, s1, _, s2, h, k⟩ := ok2 (m := memRead .ds 0xFFFE .b16) (f := fun a => memWrite .es 0 .b16 a)
      (s := withRegs real ({ · with esi := 0xFFFE })) (by decide +kernel)
    exact ⟨a, s1, s2, h, k⟩
  · obtain ⟨_, s1, h⟩ := ok1 (m := memWrite .es 0 .b16 ((withRegs real ({ · with esi := 0xFFFE })).reg .b16 .eax))
      (s := withRegs real ({ · with esi := 0xFFFE })) (by decide +kernel)
    exact ⟨s1, h⟩

theorem witness_StringInputOutput :
    (∃ (s s1 s2 : State) (a : Dword), s.Inv ∧ Size.b16 = s.wsz .full ∧ (0xFFFE : Word) = s.regs.edx.setWidth 16 ∧
      checkIo 0xFFFE .b16 s = .ok () s1 ∧ (0xFFFE : Word).toNat + Size.b16.bytes = 65536 ∧ s.Plain ∧
      s.segOk .es (s.reg s.asz .edi) Size.b16.bytes true = true ∧
      memRead (s.pfx.seg.getD .ds) (s.reg s.asz .esi) .b16 s1 = .ok a s2 ∧
      ∀ k, k < Size.b16.bytes → s.params.portAbsent ((0xFFFE : Word).toNat + k) = false) ∧
    (∃ s s1 : State, s.Inv ∧ Size.b16 = s.wsz .full ∧ (0xFFFE : Word) = s.regs.edx.setWidth 16 ∧
      checkIo 0xFFFE .b16 s = .ok () s1 ∧ s.Plain ∧ s.segOk .es (s.reg s.asz .edi) Size.b16.bytes true = true ∧
      (∃ k, k < Size.b16.bytes ∧ s.params.portAbsent ((0xFFFE : Word).toNat + k) = true) ∧
      ∃ a s2, memRead (s.pfx.seg.getD .ds) (s.reg s.asz .esi) .b16 s1 = .ok a s2) ∧
    (∃ s s1 : State, s.Inv ∧ Size.b16 = s.wsz .full ∧ (0xFFFF : Word) = s.regs.edx.setWidth 16 ∧
      checkIo 0xFFFF .b16 s = .ok () s1 ∧ 65536 < (0xFFFF : Word).toNat + Size.b16.bytes ∧ s.Plain ∧
      s.segOk .es (s.reg s.asz .edi) Size.b16.bytes true = true ∧
      ∃ a s2, memRead (s.pfx.seg.getD .ds) (s.reg s.asz .esi) .b16 s1 = .ok a s2) := by
  refine ⟨?_, ⟨deaf (withRegs real ({ · with edx := 0xFFFE })), _, inv_of (by decide +kernel), by decide +kernel,
      by decide +kernel, rfl, by decide +kernel, by decide +kernel, ⟨1, by decide, by decide +kernel⟩, ok1 (by decide +kernel)⟩,
    ⟨withRegs real ({ · with edx := 0xFFFF }), _, inv_of (by decide +kernel), by decide +kernel,
      by decide +kernel, rfl, by decide, by decide +kernel, by decide +kernel, ok1 (by decide +kernel)⟩⟩
  obtain ⟨_, s1, a, s2, h, k⟩ := ok2 (m := checkIo 0xFFFE .b16) (f := fun _ => memRead .ds 0 .b16)
    (s := withRegs real ({ · with edx := 0xFFFE })) (by decide +kernel)
  exact ⟨_, s1, s2, a, inv_of (by decide +kernel), by decide +kernel, by decide +kernel, h, by decide, by decide +kernel,
    by decide +kernel, k, by decide +kernel⟩

/-- A count of 0, of 1 (the last element), of 2 (more to come), and a store past the limit. -/
theorem witness_RepeatedStrings :
    real.Inv ∧ real.reg real.asz .ecx = 0 ∧
    (∃ s s1 : State, s.Inv ∧ s.reg s.asz .ecx ≠ 0 ∧ movsElement (s.wsz .byte) s = .ok () s1 ∧
      (s.reg s.asz .ecx == 1 || false) = true) ∧
    (∃ s s1 : State, s.Inv ∧ s.reg s.asz .ecx ≠ 0 ∧ scasElement (s.wsz .byte) s = .ok () s1 ∧
      (s.reg s.asz .ecx == 1 || !s1.eflags.zf) = false) ∧
    (∃ s s1 : State, s.Inv ∧ s.reg s.asz .ecx ≠ 0 ∧
      stosElement (s.wsz .full) s = .error (.exn (Exn.gp 0) .nothing) s1) := by
  refine ⟨inv_real, by decide +kernel, ?_, ?_, ⟨withRegs real ({ · with ecx := 2, edi := 0xFFFF }), ?_⟩⟩
  · obtain ⟨_, s1, h⟩ := ok1 (m := movsElement .b8) (s := withRegs real ({ · with ecx := 1 })) (by decide +kernel)
    exact ⟨_, s1, inv_of (by decide +kernel), by decide +kernel, h, by decide +kernel⟩
  · obtain ⟨_, s1, _, _, h, k⟩ := ok2 (m := scasElement .b8)
      (f := fun _ => fun t => if t.eflags.zf then (.ok () t : EStateM.Result Stop State Unit) else .error (.fault (.ioPastTop t)) t)
      (s := withRegs real ({ · with ecx := 2 })) (by decide +kernel)
    refine ⟨_, s1, inv_of (by decide +kernel), by decide +kernel, h, ?_⟩
    by_cases hz : s1.eflags.zf = true
    · rw [hz]; decide +kernel
    · simp [hz] at k
  · obtain ⟨s1, h⟩ := raises_of (m := stosElement .b16) (s := withRegs real ({ · with ecx := 2, edi := 0xFFFF }))
      (e := Exn.gp 0) (by decide +kernel)
    exact ⟨s1, inv_of (by decide +kernel), by decide +kernel, h⟩

/-- Bit offset -1 of the operand at 2000H: bit 15 of the word before it. The scans: bit 31 alone, and no bit. -/
theorem witness_BitTestAndScan :
    (∃ (s : State) (v : Dword) (s2 s3 : State), s.Inv ∧ Size.b16 = s.osz ∧
      resolve (.mem (.abs16 0x2000)) s = .ok (.mem .ds 0x2000) s ∧ signedVal .b16 (s.reg .b16 .ebx) = -1 ∧
      15 = ((-1 : Int) % (Size.b16.bits : Int)).toNat ∧
      Loc.mem .ds 0x1FFE = .mem .ds (trunc s.asz (0x2000 + BitVec.ofInt 32 (Size.b16.bytes * ((-1 : Int) / Size.b16.bits)))) ∧
      readLoc .b16 (.mem .ds 0x1FFE) s = .ok v s2 ∧
      writeLoc .b16 (.mem .ds 0x1FFE) (v ||| (1#32 <<< 15)) s2 = .ok () s3) ∧
    (∃ s : State, s.Inv ∧ readRm s.osz (.reg .eax) s = .ok 0x80000000 s ∧ (0x80000000 : Dword).getLsbD 31 = true ∧
      (∀ j, j < 31 → (0x80000000 : Dword).getLsbD j = false) ∧ (∀ j, 31 < j → (0x80000000 : Dword).getLsbD j = false)) ∧
    (real.Inv ∧ readRm real.osz (.reg .eax) real = .ok 0 real) := by
  refine ⟨⟨withRegs real ({ · with ebx := 0xFFFF }), ?_⟩, ⟨withRegs flat ({ · with eax := 0x80000000 }),
    inv_of (by decide +kernel), rfl, by decide, by decide, fun j hj => BitVec.getLsbD_of_ge _ _ hj⟩, inv_real, rfl⟩
  obtain ⟨v, s2, _, s3, h, k⟩ := ok2 (m := readLoc .b16 (.mem .ds 0x1FFE))
    (f := fun v => writeLoc .b16 (.mem .ds 0x1FFE) (v ||| (1#32 <<< 15))) (s := withRegs real ({ · with ebx := 0xFFFF }))
    (by decide +kernel)
  exact ⟨v, s2, s3, inv_of (by decide +kernel), by decide +kernel, rfl, by decide +kernel, by decide, by decide +kernel, h, k⟩

/-- Without the instructions; all 16 bits of a register; 12 bits from bit 4 of the last byte but one of a segment; 17 bits,
one more than the operand size, of the first bytes of a segment. -/
theorem witness_BitStrings :
    real.params.hasIbtsXbts = false ∧
    (∃ s : State, s.Inv ∧ s.params.hasIbtsXbts = true ∧ s.regs.ecx.toNat % 256 = s.osz.bits ∧
      signedVal s.osz (s.reg s.osz .eax) = 0 ∧ ((0 : Int) % s.osz.bits).toNat + s.osz.bits ≤ s.osz.bits) ∧
    (∃ s : State, s.Inv ∧ s.params.hasIbtsXbts = true ∧ s.regs.ecx.toNat % 256 = 12 ∧ 12 ≤ s.osz.bits ∧
      signedVal s.osz (s.reg s.osz .eax) = 4 ∧ s.Plain ∧ resolve lastWord s = .ok (.mem .ds 0xFFFE) s ∧
      ∀ j : Nat, j < 12 → s.segOk .ds (trunc s.asz (0xFFFE + BitVec.ofInt 32 (((4 : Int) + (j : Int)) / 8))) 1 false = true ∧
        s.segOk .ds (trunc s.asz (0xFFFE + BitVec.ofInt 32 (((4 : Int) + (j : Int)) / 8))) 1 true = true) ∧
    (∃ s : State, s.Inv ∧ s.params.hasIbtsXbts = true ∧ s.osz.bits + 1 = s.regs.ecx.toNat % 256 ∧
      signedVal s.osz (s.reg s.osz .eax) = 0 ∧ s.Plain ∧ resolve (.mem (.abs16 0)) s = .ok (.mem .ds 0) s ∧
      ∀ j : Nat, j < 17 → s.segOk .ds (trunc s.asz (0 + BitVec.ofInt 32 (((0 : Int) + (j : Int)) / 8))) 1 false = true) :=
  ⟨by decide +kernel,
    ⟨withRegs { real with params.hasIbtsXbts := true } ({ · with ecx := 16 }), inv_of (by decide +kernel),
      by decide +kernel⟩,
    ⟨withRegs { real with params.hasIbtsXbts := true } ({ · with eax := 4, ecx := 12 }), inv_of (by decide +kernel),
      by decide +kernel, by decide +kernel, by decide +kernel, by decide +kernel, by decide +kernel, rfl,
      by decide +kernel⟩,
    ⟨withRegs { real with params.hasIbtsXbts := true } ({ · with ecx := 17 }), inv_of (by decide +kernel),
      by decide +kernel, by decide +kernel, by decide +kernel, by decide +kernel, rfl, by decide +kernel⟩⟩

theorem inv_real32 : real32.Inv := inv_of (by decide +kernel)

/-- Targets at the limit and one past it, of a displacement, of a register and on the stack. -/
theorem witness_NearTransfers :
    (∃ s2 target, real.Inv ∧ target = trunc real.osz (real.eip + (0xFEFF : BitVec 16).signExtend 32) ∧
      target.toNat = real.cs.limit.toNat ∧ (real.slot real.osz 0).toNat + real.osz.bytes ≤ 65536 ∧
      memWrite .ss (real.slot real.osz 0) real.osz real.eip real = .ok () s2) ∧
    (∃ target, real32.Inv ∧ target = trunc real32.osz (real32.eip + 0xFF00) ∧ real32.cs.limit.toNat < target.toNat) ∧
    (∃ s : State, s.Inv ∧ readRm s.osz (.reg .ecx) s = .ok 0x10000 s ∧ s.cs.limit.toNat < (0x10000 : Dword).toNat) ∧
    (∃ target, target = trunc real.osz (real.eip + (0x7F : BitVec 8).signExtend 32) ∧ target.toNat ≤ real.cs.limit.toNat) ∧
    (∃ (s : State) (target : Dword), s.Inv ∧ target = trunc s.osz (s.eip + (0x7F : BitVec 8).signExtend 32) ∧
      s.cs.limit.toNat < target.toNat) ∧
    (∃ v s1, memRead .ss real.sp real.osz real = .ok v s1 ∧ v.toNat ≤ real.cs.limit.toNat) ∧
    (∃ (s : State) (v : Dword) (s1 : State), s.Inv ∧ memRead .ss s.sp s.osz s = .ok v s1 ∧ s.cs.limit.toNat < v.toNat) := by
  refine ⟨?_, ⟨_, inv_real32, rfl, by decide +kernel⟩,
    ⟨withRegs real32 ({ · with ecx := 0x10000 }), inv_of (by decide +kernel), rfl, by decide +kernel⟩,
    ⟨_, rfl, by decide +kernel⟩, ⟨{ real32 with eip := 0xFF81 }, _, inv_of (by decide +kernel), rfl, by decide +kernel⟩,
    ?_, ?_⟩
  · obtain ⟨_, s2, h⟩ := ok1 (m := memWrite .ss (real.slot real.osz 0) real.osz real.eip) (s := real) (by decide +kernel)
    exact ⟨s2, _, inv_real, rfl, by decide +kernel, by decide +kernel, h⟩
  · obtain ⟨v, s1, _, _, h, k⟩ := ok2 (m := memRead .ss real.sp real.osz)
      (f := fun v => raiseIf (decide (real.cs.limit.toNat < v.toNat)) (Exn.gp 0)) (s := real) (by decide +kernel)
    exact ⟨v, s1, h, by simpa using (run_raiseIf_eq_ok.mp k).1⟩
  · obtain ⟨v, s1, _, _, h, k⟩ := ok2 (m := memRead .ss 0x100 .b32)
      (f := fun v => raiseIf (!decide (real32.cs.limit.toNat < v.toNat)) (Exn.gp 0)) (s := put 0x30102 [1] real32)
      (by decide +kernel)
    exact ⟨put 0x30102 [1] real32, v, s1, inv_of (by decide +kernel), h,
      by simpa [put] using (run_raiseIf_eq_ok.mp k).1⟩

theorem witness_Conditions :
    (real.Inv ∧ real.eflags.zf = false ∧ (!real.eflags.zf) = true ∧
      (trunc real.osz (real.eip + (0x80 : BitVec 8).signExtend 32)).toNat ≤ real.cs.limit.toNat) ∧
    (∃ s : State, s.Inv ∧ (!s.eflags.zf) = true ∧
      s.cs.limit.toNat < (trunc s.osz (s.eip + (0x7F : BitVec 8).signExtend 32)).toNat) ∧
    (∃ l s1 s2, resolve (.mem (.abs16 0xFFFF)) real = .ok l s1 ∧ writeLoc .b8 l 1 s1 = .ok () s2) ∧
    (∃ s : State, s.Inv ∧ trunc s.asz (s.reg s.asz .ecx - 1) = 0) ∧
    ((real.reg real.asz .ecx == 0) = true ∧ trunc real.asz (real.reg real.asz .ecx - 1) = 0xFFFF) := by
  refine ⟨⟨inv_real, by decide +kernel⟩, ⟨{ real32 with eip := 0xFF81 }, inv_of (by decide +kernel), by decide +kernel⟩,
    ?_, ⟨withRegs real ({ · with ecx := 1 }), inv_of (by decide +kernel), by decide +kernel⟩, by decide +kernel⟩
  obtain ⟨l, s1, _, s2, h, k⟩ := ok2 (m := resolve (.mem (.abs16 0xFFFF))) (f := fun l => writeLoc .b8 l 1) (s := real)
    (by decide +kernel)
  exact ⟨l, s1, s2, h, k⟩

/-- `real` with the frame pointer at 200H. -/
def framed : State := withRegs real ({ · with ebp := 0x200 })

/-- Where ENTER finds the frame pointer it copies, above the items it pushes. -/
theorem framed_copies : ∀ i, i < 2 - 1 →
    framed.segOk .ss (trunc .b16 (framed.reg .b16 .ebp - BitVec.ofNat 32 (2 * (i + 1)))) 2 false = true ∧
    ∀ j, j < 2 + 1 → ∀ p ∈ linearRange
        (framed.linear .ss (trunc .b16 (framed.reg .b16 .ebp - BitVec.ofNat 32 (2 * (i + 1))))) 2,
      p ∉ framed.slotBytes .b16 j := by
  intro i hi
  obtain rfl : i = 0 := by omega
  refine ⟨by decide +kernel, fun j hj p hp hq => ?_⟩
  have h : (List.range 3).all (fun j => (linearRange
      (framed.linear .ss (trunc .b16 (framed.reg .b16 .ebp - BitVec.ofNat 32 (2 * (0 + 1))))) 2).all fun p =>
        !(framed.slotBytes .b16 j).contains p) = true := by decide +kernel
  have h := List.all_eq_true.mp (List.all_eq_true.mp h j (List.mem_range.mpr hj)) p hp
  simp only [Bool.not_eq_true', List.contains_eq_mem, decide_eq_false_iff_not] at h
  exact h hq

/-- Levels 0, 1 and 2 (the first that copies a frame pointer). -/
theorem witness_EnterLeave :
    (∃ v s1, framed.Inv ∧ memRead .ss (framed.reg framed.stackSize .ebp) .b16
        { framed with regs := framed.regs.write framed.stackSize .esp (framed.reg framed.stackSize .ebp) } = .ok v s1) ∧
    framed.osz = .b16 ∧ 2 = Size.b16.bytes ∧ 0 = (0x20 : BitVec 8).toNat % 32 ∧ 1 = (1 : BitVec 8).toNat % 32 ∧
      2 = (2 : BitVec 8).toNat % 32 ∧ framed.Plain ∧ (∀ i, i < 3 → framed.slotOk .b16 i) := by
  refine ⟨?_, by decide +kernel, by decide, by decide, by decide, by decide, by decide +kernel,
    slots_ok (by decide +kernel)⟩
  obtain ⟨v, s1, h⟩ := ok1 (m := memRead .ss (framed.reg framed.stackSize .ebp) .b16)
    (s := { framed with regs := framed.regs.write framed.stackSize .esp (framed.reg framed.stackSize .ebp) })
    (by decide +kernel)
  exact ⟨v, s1, inv_of (by decide +kernel), h⟩

/-- An offset of FFFFH, one of 10000H, a far pointer at the end of its segment, a frame of zeros. -/
theorem witness_FarTransfers8086 :
    real.Inv ∧ real.protectedMode = false ∧ real.Plain ∧ ((0xFFFF : BitVec 16).setWidth 32 : Dword).toNat ≤ 0xFFFF ∧
    0xFFFF < (0x10000 : Dword).toNat ∧ (∀ i, i < 2 → real.slotOk real.osz i) ∧ (∀ i, i < 2 → real.itemOk real.osz i) ∧
    (real.stackItem real.osz 0).toNat ≤ 0xFFFF ∧
    (∃ off sel s1, readFarPointer (.abs16 0xFFFC) real = .ok (off, sel) s1 ∧ off.toNat ≤ 0xFFFF) := by
  refine ⟨inv_real, by decide +kernel, by decide +kernel, by decide, by decide, slots_ok (by decide +kernel),
    items_ok (by decide +kernel), by decide +kernel, ?_⟩
  obtain ⟨p, s1, _, _, h, k⟩ := ok2 (m := readFarPointer (.abs16 0xFFFC))
    (f := fun p => raiseIf (!decide (p.1.toNat ≤ 0xFFFF)) (Exn.gp 0)) (s := real) (by decide +kernel)
  exact ⟨p.1, p.2, s1, h, by simpa using (run_raiseIf_eq_ok.mp k).1⟩

/-- `flat` with an accessed code segment (of that access byte) at 38H, an accessed data segment at 10H. -/
def accessed (access : Byte) : State := put 0x515 [0x93] (withDescriptor access)

theorem inv_accessed : (accessed 0x9B).Inv := inv_of (by decide +kernel)

/-- The descriptor behind selector 38H. -/
def target (s : State) : Descriptor := s.descriptorIn (s.descriptorAt 0x38)

theorem target_code : CodeTarget (accessed 0x9B) 0x38 (target (accessed 0x9B)) 0xFFFFF := by
  constructor <;> decide +kernel

/-- `flat` with a frame that RET 6 takes to level 3, the last byte of the inner stack segment being the frame's last; IRET
finds its own in the same bytes. -/
def outward (at' : Nat) (bs : List Byte) (limit : Dword) : State :=
  put at' bs (withRegs { flat with ss := { flat.ss with limit := limit } } ({ · with esp := BitVec.ofNat 32 at' }))

/-- A non-conforming segment of level 0 for level 0, its last byte as the offset, and the frames that RET finds. -/
theorem witness_FarTransferProtected :
    (∃ s : State, s.Inv ∧ s.protectedMode = true ∧ CodeTarget s 0x38 (target s) 0xFFFFF ∧
      (if (target s).isConforming then (target s).dpl ≤ s.currentCpl
        else (target s).dpl = s.currentCpl ∧ rpl 0x38 ≤ s.currentCpl) ∧ (∀ i, i < 2 → s.slotOk s.osz i)) ∧
    (∃ s : State, s.Inv ∧ s.protectedMode = true ∧ CodeTarget s 0x38 (target s) 0xFFFFF ∧
      s.segOk .ss s.sp (2 * s.osz.bytes) false = true ∧ 0xFFFFF = leDword (s.operandBytes .ss s.sp s.osz.bytes) ∧
      0x38 = (leDword (s.operandBytes .ss (s.sp + BitVec.ofNat 32 s.osz.bytes) 2)).setWidth 16 ∧
      rpl 0x38 = s.currentCpl ∧
      (if (target s).isConforming then (target s).dpl ≤ rpl 0x38 else (target s).dpl = rpl 0x38)) ∧
    (∃ (s : State) (d sd : Descriptor) (off sp : Dword), s.Inv ∧ s.protectedMode = true ∧ CodeTarget s 0x1B d off ∧
      off = leDword (s.operandBytes .ss s.sp s.osz.bytes) ∧
      0x1B = (leDword (s.operandBytes .ss (s.sp + BitVec.ofNat 32 s.osz.bytes) 2)).setWidth 16 ∧
      (if d.isConforming then d.dpl ≤ rpl 0x1B else d.dpl = rpl 0x1B) ∧ s.currentCpl < rpl 0x1B ∧
      s.segOk .ss s.sp (4 * s.osz.bytes + 6) false = true ∧
      sp = leDword (s.operandBytes .ss (s.sp + BitVec.ofNat 32 (2 * s.osz.bytes + 6)) s.osz.bytes) ∧
      0x23 = (leDword (s.operandBytes .ss (s.sp + BitVec.ofNat 32 (3 * s.osz.bytes + 6)) 2)).setWidth 16 ∧
      StackTarget s (rpl 0x1B) 0x23 sd) :=
  ⟨⟨accessed 0x9B, inv_accessed, by decide +kernel, target_code, by decide +kernel, slots_ok (by decide +kernel)⟩,
    ⟨put 0x9000 [0xFF, 0xFF, 0xF, 0, 0x38] (accessed 0x9B), inv_of (by decide +kernel), by decide +kernel,
      by constructor <;> decide +kernel, by decide +kernel⟩,
    ⟨outward 0x9000 [0, 0x20, 0, 0, 0x1B, 0, 0, 0, 1, 2, 3, 4, 5, 6, 0, 0x70, 0, 0, 0x23] 0x9015,
      flat.descriptorIn 0x518, flat.descriptorIn 0x520, 0x2000, 0x7000, inv_of (by decide +kernel), by decide +kernel,
      by constructor <;> decide +kernel, by decide +kernel, by decide +kernel, by decide +kernel, by decide +kernel,
      by decide +kernel, by decide +kernel, by decide +kernel, by constructor <;> decide +kernel⟩⟩

/-- The descriptor behind selector 30H. -/
def gateAt30 (s : State) : Descriptor := s.descriptorIn (s.descriptorAt 0x30)

/-- A parameter of `callGate` lies on its stack, outside what is pushed. -/
theorem callGate_params {u : State} (hu : u = (callGate.onInnerStack 0 0x10 0x1000
    (callGate.descriptorIn 0x510)).markingAccessed 0x10 (callGate.descriptorIn 0x510)) :
    ∀ k, k < 2 →
      callGate.segOk .ss (callGate.sp + BitVec.ofNat 32 (4 * k)) 4 false = true ∧
      ∀ j, j < 6 → ∀ q ∈ linearRange (callGate.linear .ss (callGate.sp + BitVec.ofNat 32 (4 * k))) 4,
        q ∉ u.slotBytes .b32 j := by
  have h : ((List.range 2).all fun k =>
      callGate.segOk .ss (callGate.sp + BitVec.ofNat 32 (4 * k)) 4 false &&
        (List.range 6).all fun j => (linearRange (callGate.linear .ss (callGate.sp + BitVec.ofNat 32 (4 * k))) 4).all fun q =>
          !(((callGate.onInnerStack 0 0x10 0x1000 (callGate.descriptorIn 0x510)).markingAccessed 0x10
            (callGate.descriptorIn 0x510)).slotBytes .b32 j).contains q) = true := by
    decide +kernel
  intro k hk
  have h := List.all_eq_true.mp h k (List.mem_range.mpr hk)
  simp only [Bool.and_eq_true] at h
  refine ⟨h.1, fun j hj q hq hm => ?_⟩
  have h := List.all_eq_true.mp (List.all_eq_true.mp h.2 j (List.mem_range.mpr hj)) q hq
  simp only [Bool.not_eq_true', List.contains_eq_mem, decide_eq_false_iff_not] at h
  exact h (hu ▸ hm)

/-- `flat` with its code and data segments accessed, EIP 1234H in the TSS at 28H. -/
def tasks : State := put 0x50D [0x9B] (put 0x515 [0x93] (put 0x30120 [0x34, 0x12] flat))

/-- A gate with no parameters to a segment of the caller's level 3; the gate of `callGate`, of two dwords, to level 0.
JMP to the TSS; a null CS in it; a TSS one byte too small; CALL through a task gate; INT through one; IRET back. -/
theorem witness_CallGatesAndTaskSwitches :
    ((∃ s : State, s.Inv ∧ s.protectedMode = true ∧ CallGate s 0x33 (gateAt30 s) (s.descriptorIn (s.descriptorAt 0x1B)) ∧
       (s.descriptorIn (s.descriptorAt 0x1B)).isConforming = false ∧
       (s.descriptorIn (s.descriptorAt 0x1B)).dpl = s.currentCpl ∧ ∀ i, i < 2 → s.slotOk (gateAt30 s).gateSize i) ∧
     (∃ (u : State) (g c d : Descriptor), callGate.Inv ∧ callGate.protectedMode = true ∧ CallGate callGate 0x30 g c ∧
       c.isConforming = false ∧ c.dpl = 0 ∧ 0 < callGate.currentCpl ∧ InnerStack callGate 0 0x10 0x1000 d ∧
       u = (callGate.onInnerStack 0 0x10 0x1000 d).markingAccessed 0x10 d ∧ 2 = (g.hi.extractLsb' 0 5).toNat ∧ g.gateSize = .b32 ∧
       (∀ j, j < 2 + 4 → u.slotOk g.gateSize j) ∧
       ∀ k, k < 2 →
         callGate.segOk .ss (callGate.sp + BitVec.ofNat 32 (g.gateSize.bytes * k)) g.gateSize.bytes false = true ∧
         ∀ j, j < 2 + 4 → ∀ q ∈ linearRange (callGate.linear .ss
             (callGate.sp + BitVec.ofNat 32 (g.gateSize.bytes * k))) g.gateSize.bytes, q ∉ u.slotBytes g.gateSize j)) ∧
    ((tasks.Inv ∧ tasks.protectedMode = true ∧ tasks.Plain ∧ tasks.tr.valid = true ∧
       tasks.tr.type.getLsbD 3 = true ∧ SwitchesTo tasks (.jmpPtr (.o32 0) 0x28) .jmp 0x28 (tasks.descriptorIn 0x528) ∧
       (tasks.descriptorIn 0x528).type.getLsbD 3 = true ∧ 0x67 = (tasks.descriptorIn 0x528).limit.toNat) ∧
     (∃ (u : State) (d : Word → Descriptor), u = tasks.taskSaved .jmp 0x28 (tasks.descriptorIn 0x528) ∧
       (d = fun sel => u.descriptorIn (u.descriptorAt sel)) ∧
       isNull ((u.physDword 0x30160).setWidth 16) = true ∧ (u.physDword 0x30124).getLsbD 17 = false ∧
       (u.physDword 0x3014C).setWidth 16 = 8 ∧ CodeTarget u 8 (d 8) (u.physDword 0x30120) ∧
       (d 8).isConforming = false ∧ (d 8).dpl = rpl 8 ∧ (u.physDword 0x30150).setWidth 16 = 0x10 ∧
       StackTarget u (rpl 8) 0x10 (d 0x10) ∧ DataTarget u (rpl 8) 0x10 (d 0x10) ∧ DataTarget u (rpl 8) 0 (d 0) ∧
       (d 8).type.getLsbD 0 = true ∧ (d 0x10).type.getLsbD 0 = true) ∧
     isNull ((((put 0x3014C [3] tasks).taskSaved .jmp 0x28 (tasks.descriptorIn 0x528)).physDword 0x3014C).setWidth 16) =
       true ∧
     (SwitchesTo (put 0x528 [0x66] tasks) (.jmpPtr (.o32 0) 0x28) .jmp 0x28 ((put 0x528 [0x66] tasks).descriptorIn 0x528) ∧
       ((put 0x528 [0x66] tasks).descriptorIn 0x528).limit.toNat < 0x67) ∧
     (∃ s, SwitchesTo s (.callPtr (.o16 5) 0x38) .call 0x28 (s.descriptorIn 0x528)) ∧
     (∃ s, SwitchesTo s (.intN 0xFF) .int 0x28 (s.descriptorIn 0x528)) ∧
     (∃ s, s.Inv ∧ SwitchesTo s .iret .iret 0x28 (s.descriptorIn 0x528))) := by
  constructor
  · refine ⟨⟨put 0x530 [0, 0x20, 0x1B, 0, 0, 0xEC, 0, 0] (user flat), inv_of (by decide +kernel), by decide +kernel,
      ⟨by decide +kernel, by decide +kernel, by decide +kernel, by decide +kernel, by decide +kernel, by decide +kernel,
        by constructor <;> decide +kernel⟩, by decide +kernel, by decide +kernel, slots_ok (by decide +kernel)⟩,
      ⟨_, gateAt30 callGate, callGate.descriptorIn 0x508, callGate.descriptorIn 0x510, inv_of (by decide +kernel),
        by decide +kernel, ⟨by decide +kernel, by decide +kernel, by decide +kernel, by decide +kernel, by decide +kernel,
          by decide +kernel, by constructor <;> decide +kernel⟩, by decide +kernel, by decide +kernel, by decide +kernel,
        by constructor <;> decide +kernel, rfl, by decide +kernel, by decide +kernel, slots_ok (by decide +kernel), ?_⟩⟩
    have h : (gateAt30 callGate).gateSize = .b32 := by decide +kernel
    rw [h]
    exact callGate_params rfl
  · refine ⟨⟨inv_of (by decide +kernel), by decide +kernel, by decide +kernel, by decide +kernel, by decide +kernel,
        ⟨by decide +kernel, .inl ⟨0x28, .inl ⟨_, .inl ⟨rfl, rfl⟩⟩, .inl (by decide +kernel)⟩⟩, by decide +kernel,
        by decide +kernel⟩,
      ⟨_, _, rfl, rfl, by decide +kernel, by decide +kernel, by decide +kernel, by constructor <;> decide +kernel,
        by decide +kernel, by decide +kernel, by decide +kernel, by constructor <;> decide +kernel, .inr (by decide +kernel),
        .inl (by decide), by decide +kernel, by decide +kernel⟩, by decide +kernel,
      ⟨⟨by decide +kernel, .inl ⟨0x28, .inl ⟨_, .inl ⟨rfl, rfl⟩⟩, .inl (by decide +kernel)⟩⟩, by decide +kernel⟩,
      ⟨put 0x538 [0, 0, 0x28, 0, 0, 0x85, 0, 0] tasks, by decide +kernel,
        .inl ⟨0x38, .inl ⟨_, .inr ⟨rfl, rfl⟩⟩, .inr ⟨_, by decide +kernel, by decide +kernel, rfl, by decide +kernel⟩⟩⟩,
      ⟨put 0x107F8 [0, 0, 0x28, 0, 0, 0x85, 0, 0] tasks, by decide +kernel,
        .inr (.inl ⟨0xFF, _, rfl, rfl, by decide +kernel, rfl, by decide +kernel⟩)⟩,
      ⟨put 0x52D [0x8B] (put 0x30000 [0x28] (withFlags tasks ({ · with nt := true }))), inv_of (by decide +kernel),
        by decide +kernel, .inr (.inr (by decide +kernel))⟩⟩

/-- Vector FFH, whose entry ends at the limit of the reset IDTR. -/
theorem witness_InterruptReal :
    real.Inv ∧ real.cr0.pe = false ∧ real.eflags.ofl = false ∧ 4 * (0xFF : Byte).toNat + 3 = real.idtr.limit.toNat ∧
      (∀ i, i < 3 → real.slotOk .b16 i) ∧ Exn.gp 0 = { Exn.gp 0 with vector := 13 } ∧
      (withFlags real ({ · with ofl := true })).eflags.ofl = true :=
  ⟨inv_real, by decide +kernel, by decide +kernel, by decide +kernel, slots_ok (by decide +kernel), rfl, rfl⟩

/-- The gate of the last vector of the IDT, to the code segment of that access byte at 38H. -/
def gated (gateAccess codeAccess : Byte) : State :=
  put 0x107F8 [0, 0x20, 0x38, 0, 0, gateAccess, 0, 0] (accessed codeAccess)

def lastGate (s : State) : Descriptor := s.descriptorIn (s.idtr.base + BitVec.ofNat 32 (8 * (0xFF : Byte).toNat))

theorem lastGate_ok : IdtGate (gated 0xEE 0x9B) 0xFF (lastGate (gated 0xEE 0x9B)) (target (gated 0xEE 0x9B)) :=
  ⟨by decide +kernel, rfl, by decide +kernel, by decide +kernel, by constructor <;> decide +kernel⟩

/-- A gate of level 3; a gate of level 0 to a conforming segment, for level 3; exceptions with and without a code. -/
theorem witness_GateSameLevel :
    (∃ s : State, s.Inv ∧ s.protectedMode = true ∧ IdtGate s 0xFF (lastGate s) (target s) ∧
      (if (target s).isConforming then (target s).dpl ≤ s.currentCpl else (target s).dpl = s.currentCpl) ∧
      s.currentCpl ≤ (lastGate s).dpl ∧ (∀ j, j < 4 → s.slotOk (lastGate s).gateSize j)) ∧
    (∃ s : State, s.Inv ∧ s.protectedMode = true ∧ IdtGate s 0xFF (lastGate s) (target s) ∧
      (if (target s).isConforming then (target s).dpl ≤ s.currentCpl else (target s).dpl = s.currentCpl) ∧
      (lastGate s).dpl < s.currentCpl) ∧
    (Exn.de.errorCode = none ∧ (Exn.gp 0x10).errorCode = some 0x10 ∧
      (Exn.pf 0 true true true).vector = 14 ∧ (Exn.pf 0 true true true).errorCode = some 7 ∧ (7 : Word).toNat < 8) :=
  ⟨⟨gated 0xEE 0x9B, inv_of (by decide +kernel), by decide +kernel, lastGate_ok, by decide +kernel, by decide +kernel,
      slots_ok (by decide +kernel)⟩,
    ⟨user (gated 0x8E 0x9F), inv_of (by decide +kernel), by decide +kernel,
      ⟨by decide +kernel, rfl, by decide +kernel, by decide +kernel, by constructor <;> decide +kernel⟩,
      by decide +kernel, by decide +kernel⟩, by decide⟩

def innerStack (s : State) : Descriptor := s.descriptorIn (s.descriptorAt 0x10)

theorem inner_ok : InnerStack (user (gated 0xEE 0x9B)) 0 0x10 0x8000 (innerStack (user (gated 0xEE 0x9B))) :=
  by constructor <;> decide +kernel

theorem witness_GateInnerLevel :
    ∃ s s1 : State, s.Inv ∧ s.protectedMode = true ∧ IdtGate s 0xFF (lastGate s) (target s) ∧
      (target s).isConforming = false ∧ (target s).dpl < s.currentCpl ∧
      InnerStack s (target s).dpl 0x10 0x8000 (innerStack s) ∧
      s1 = (s.onInnerStack (target s).dpl 0x10 0x8000 (innerStack s)).markingAccessed 0x10 (innerStack s) ∧ s.currentCpl ≤ (lastGate s).dpl ∧
      (∀ j, j < 6 → s1.slotOk (lastGate s).gateSize j) ∧
    -- a 286 TSS whose limit takes in the stack of level 0 and no more
    InnerStack (put 0x30002 [0, 0x80, 0x10, 0] { user (gated 0xEE 0x9B) with
        tr := { flat.tr with type := 3, limit := 5 } }) 0 0x10 0x8000 (innerStack (gated 0xEE 0x9B)) := by
  have h : (target (user (gated 0xEE 0x9B))).dpl = 0 := by decide +kernel
  refine ⟨user (gated 0xEE 0x9B), _, inv_of (by decide +kernel), by decide +kernel,
    ⟨by decide +kernel, rfl, by decide +kernel, by decide +kernel, by constructor <;> decide +kernel⟩,
    by decide +kernel, by decide +kernel, h ▸ inner_ok, rfl, by decide +kernel, slots_ok (by decide +kernel),
    by constructor <;> decide +kernel⟩

/-- A 386 gate for vector `v` in Virtual 8086 Mode with IOPL = 3 and OF = 1, and the frame of S7 with VM = 1 for IRET. -/
def v86Gated (v : Byte) : State := withFlags (
  put (0x10000 + 8 * v.toNat) [0, 0x20, 0x38, 0, 0, 0xEE, 0, 0] (put 0x515 [0x93] (put 0x538 [0xFF, 0xFF, 0, 0, 0, 0x9B, 0xCF] v86Due)))
  ({ · with ofl := true })

/-- R680: nine items and the error code are pushed, and CR2 has the address. -/
theorem test_v86_page_fault : (match takeException (Exn.pf 0x1234 true true true) (v86Gated 14) with
    | .next t => t.regs.esp == 0x7FD8 && t.cs.selector == 0x38 && t.eip == 0x2000 && t.ss.selector == 0x10 && t.cr2 == 0x1234 && !t.eflags.vm && t.gs.selector == 0
    | .fault _ => false
    | .refused _ => false) = true := by decide +kernel

theorem witness_Virtual8086 :
    -- INT n and INT 3, INTO, a page fault
    (∀ v ∈ ([3, 4, 14] : List Byte), ∃ (s s1 : State) (g c : Descriptor), s.Inv ∧ s.v86 = true ∧ s.eflags.iopl = 3 ∧
      s.eflags.ofl = true ∧ IdtGate s v g c ∧ g.type.getLsbD 3 = true ∧ 3 ≤ g.dpl ∧ c.isConforming = false ∧ c.dpl = 0 ∧ InnerStack s 0 0x10 0x8000 (innerStack s) ∧
      s1 = { (s.onInnerStack 0 0x10 0x8000 (innerStack s)).markingAccessed 0x10 (innerStack s) with
              eflags := { s.eflags with vm := false } } ∧
      (∀ j, j < 10 → s1.slotOk .b32 j)) ∧
    (Exn.br.errorCode = none ∧ (Exn.pf 0 true true true).vector = 14 ∧ (Exn.pf 0 true true true).errorCode = some 7) ∧
    (∃ s : State, s.Inv ∧ s.protectedMode = true ∧ s.Plain ∧ s.currentCpl = 0 ∧ s.osz = .b32 ∧
      s.eflags.nt = false ∧ s.segOk .ss s.sp 36 false = true ∧
      (leDword (s.operandBytes .ss (s.sp + BitVec.ofNat 32 (4 * 2)) 4)).getLsbD 17 = true) :=
  ⟨fun v hv => ⟨v86Gated v, _, (v86Gated v).descriptorIn ((v86Gated v).idtr.base + BitVec.ofNat 32 (8 * v.toNat)),
      target (v86Gated v), inv_of (by revert v; decide +kernel), by revert v; decide +kernel, by revert v; decide +kernel,
      by revert v; decide +kernel,
      ⟨by revert v; decide +kernel, rfl, by revert v; decide +kernel, by revert v; decide +kernel,
        by constructor <;> (revert v; decide +kernel)⟩,
      by revert v; decide +kernel, by revert v; decide +kernel, by revert v; decide +kernel, by revert v; decide +kernel,
      by constructor <;> (revert v; decide +kernel), rfl, slots_ok (by revert v; decide +kernel)⟩, by decide,
    ⟨put 0x900A [2] flat, inv_of (by decide +kernel), by decide +kernel⟩⟩

/-- Bounds 0 and 0 at the end of a segment: the index 0 is inside, 1 and -1 are outside. -/
theorem witness_Bound :
    (∃ (s1 s2 s3 : State) (lo hi : Dword), real.Inv ∧ Size.b16 = real.osz ∧
      effectiveAddress (.abs16 0xFFFC) real = .ok (.ds, 0xFFFC) s1 ∧
      memRead .ds 0xFFFC .b16 s1 = .ok lo s2 ∧
      memRead .ds (0xFFFC + BitVec.ofNat 32 Size.b16.bytes) .b16 s2 = .ok hi s3 ∧
      signedVal .b16 lo = 0 ∧ signedVal .b16 hi = 0) ∧
    signedVal .b16 (real.reg .b16 .ebx) = 0 ∧ signedVal .b16 0xFFFF < 0 ∧ 0 < signedVal .b16 1 := by
  refine ⟨?_, by decide +kernel, by decide, by decide⟩
  obtain ⟨lo, s2, h1, h⟩ := ok_first (m := memRead .ds 0xFFFC .b16) (f := fun lo =>
    memRead .ds (0xFFFC + BitVec.ofNat 32 Size.b16.bytes) .b16 >>= fun hi =>
      raiseIf (!(signedVal .b16 lo == 0 && signedVal .b16 hi == 0)) (Exn.gp 0)) (s := real) (by decide +kernel)
  obtain ⟨hi, s3, _, _, h2, h⟩ := ok2 h
  have h := (run_raiseIf_eq_ok.mp h).1
  simp only [Bool.not_eq_false', Bool.and_eq_true, beq_iff_eq] at h
  exact ⟨real, s2, s3, lo, hi, inv_real, by decide +kernel, rfl, h1, h2, h.1, h.2⟩

theorem witness_InterruptReturn :
    (real.Inv ∧ real.Plain ∧ real.protectedMode = false ∧ real.v86 = false ∧ (∀ i, i < 3 → real.itemOk real.osz i) ∧
      (real.stackItem real.osz 0).toNat ≤ 0xFFFF) ∧
    (v86Due.Inv ∧ v86Due.protectedMode = false ∧ v86Due.v86 = true ∧ v86Due.eflags.iopl = 3) ∧
    (∃ (s : State) (item : Nat → Dword), s.Inv ∧ s.Plain ∧ s.protectedMode = true ∧ s.eflags.nt = false ∧
      s.segOk .ss s.sp (3 * s.osz.bytes) false = true ∧
      (∀ k, item k = leDword (s.operandBytes .ss (s.sp + BitVec.ofNat 32 (s.osz.bytes * k)) s.osz.bytes)) ∧
      ¬(s.osz = .b32 ∧ (item 2).getLsbD 17 = true ∧ s.currentCpl = 0) ∧ 0x38 = (item 1).setWidth 16 ∧
      CodeTarget s 0x38 (target s) (item 0) ∧ rpl 0x38 = s.currentCpl ∧
      (if (target s).isConforming then (target s).dpl ≤ rpl 0x38 else (target s).dpl = rpl 0x38)) ∧
    (∃ (s : State) (d sd : Descriptor) (item : Nat → Dword), s.Inv ∧ s.Plain ∧ s.protectedMode = true ∧
      s.eflags.nt = false ∧ s.segOk .ss s.sp (5 * s.osz.bytes) false = true ∧
      (∀ k, item k = leDword (s.operandBytes .ss (s.sp + BitVec.ofNat 32 (s.osz.bytes * k)) s.osz.bytes)) ∧
      (item 2).getLsbD 17 = false ∧ 0x1B = (item 1).setWidth 16 ∧ CodeTarget s 0x1B d (item 0) ∧
      (if d.isConforming then d.dpl ≤ rpl 0x1B else d.dpl = rpl 0x1B) ∧ s.currentCpl < rpl 0x1B ∧
      0x23 = (item 4).setWidth 16 ∧ StackTarget s (rpl 0x1B) 0x23 sd) := by
  refine ⟨⟨inv_real, by decide +kernel, by decide +kernel, by decide +kernel, items_ok (by decide +kernel),
    by decide +kernel⟩, ⟨inv_v86Due, by decide +kernel⟩, ?_,
    ⟨outward 0x9000 [0, 0x20, 0, 0, 0x1B, 0, 0, 0, 2, 0, 0, 0, 0, 0x70, 0, 0, 0x23] 0x9013, flat.descriptorIn 0x518,
      flat.descriptorIn 0x520, _, inv_of (by decide +kernel), by decide +kernel, by decide +kernel, by decide +kernel,
      by decide +kernel, fun k => rfl, by decide +kernel, by decide +kernel, by constructor <;> decide +kernel,
      by decide +kernel, by decide +kernel, by decide +kernel, by constructor <;> decide +kernel⟩⟩
  refine ⟨put 0x9000 [0xFF, 0xFF, 0xF, 0, 0x38] (accessed 0x9B), _, inv_of (by decide +kernel), by decide +kernel,
    by decide +kernel, by decide +kernel, by decide +kernel, fun k => rfl, by decide +kernel, by decide +kernel,
    by constructor <;> decide +kernel, by decide +kernel⟩

/-- `flat` with breakpoint 0 at a linear address, its R/W and LEN as the low digit of `how` and its enable L0. -/
def watched (at' : Dword) (how : Dword) : State := { flat with dr0 := at', dr7 := (how <<< 16) ||| 1 }

/-- What lets an instruction boundary get past the debug exceptions. -/
def Undisturbed (s : State) : Prop :=
  prefetch s = .ok () s ∧ s.pins.reset = false ∧ s.pins.hold = false ∧ s.pfx.count = 0 ∧ s.copDue = false ∧
    s.runState ≠ .shutdown ∧ s.pendingDb = 0 ∧ (s.runState = .running → (s.eflags.rf = true ∨ ∀ k, k < 4 → ¬s.Breaks k) ∧ s.dr7.getLsbD 13 = false)

/-- With no enable set no breakpoint matches. -/
theorem no_break {s : State} (h : s.dr7 &&& 0xFF = 0) : ∀ k, k < 4 → ¬s.Breaks k := by
  intro k hk hb
  have e : (s.dr7 &&& 0xFF).getLsbD (2 * k) = false ∧ (s.dr7 &&& 0xFF).getLsbD (2 * k + 1) = false := by rw [h]; simp
  have m : ∀ k, k < 4 → (0xFF : Dword).getLsbD (2 * k) = true ∧ (0xFF : Dword).getLsbD (2 * k + 1) = true := by decide
  simp only [BitVec.getLsbD_and, (m k hk).1, (m k hk).2, Bool.and_true] at e
  rcases hb.1 with h | h
  · rw [e.1] at h; cases h
  · rw [e.2] at h; cases h

theorem undisturbed {s : State} (h : s.AllMemory ∧ s.pins.reset = false ∧ s.pins.hold = false ∧ s.pfx.count = 0 ∧
    s.copDue = false ∧ s.runState ≠ .shutdown ∧ s.pendingDb = 0 ∧ s.dr7 &&& 0xFF = 0 ∧ s.dr7.getLsbD 13 = false) :
    Undisturbed s :=
  ⟨plainly h.1, h.2.1, h.2.2.1, h.2.2.2.1, h.2.2.2.2.1, h.2.2.2.2.2.1, h.2.2.2.2.2.2.1,
    fun _ => ⟨.inr (no_break h.2.2.2.2.2.2.2.1), h.2.2.2.2.2.2.2.2⟩⟩

/-- The state in which `e`, which the delivery of `ev` raises, is delivered. -/
def raisedFrom (s : State) (ev : Event) (e : Exn) : State :=
  let u := endOf (deliver ev) s
  ({ s with draws := u.draws, bus := u.bus, deviceBus := u.deviceBus } : State).noting e

/-- A dword that ends at the last byte of the segment, covered by a breakpoint of 1 byte on its last byte; a store that
only a write breakpoint sees; HOLD; an instruction breakpoint; NMI and INTR, in a running, a halted and a shut down
machine, where its delivery ends the shutdown or fails; exceptions that are raised in delivering exceptions. -/
theorem witness_Boundary :
    (∃ s : State, s.Inv ∧ s.Plain ∧ effectiveAddress (.abs32 0xFFFFFFFC) s = .ok (.ds, 0xFFFFFFFC) s ∧
      s.segOk .ds 0xFFFFFFFC 4 false = true ∧ s.segOk .ds 0xFFFFFFFC 4 true = true ∧
      s.Watches 0 false ((s.seg .ds).base + 0xFFFFFFFC) 4 ∧ s.dr7.extractLsb' 16 2 ≠ 2 ∧ s.dr7.extractLsb' 18 2 ≠ 2) ∧
    ((watched 0x2000 1).Watches 0 true 0x2000 1 ∧ ¬(watched 0x2000 1).Watches 0 false 0x2000 1) ∧
    (∃ s : State, prefetch s = .ok () s ∧ s.pins.reset = false ∧ s.pins.hold = true) ∧
    (∃ s : State, prefetch s = .ok () s ∧ s.pins.reset = false ∧ s.pins.hold = false ∧ s.pfx.count = 0 ∧ s.copDue = false ∧ s.runState ≠ .shutdown ∧
      s.pendingDb ≠ 0 ∧ s.shadow ≠ .ss) ∧
    (∃ s : State, prefetch s = .ok () s ∧ s.pins.reset = false ∧ s.pins.hold = false ∧ s.pfx.count = 0 ∧ s.copDue = false ∧ s.runState = .running ∧
      s.pendingDb = 0 ∧ s.shadow ≠ .ss ∧ s.eflags.rf = false ∧ s.Breaks 0) ∧
    (∃ s : State, Undisturbed s ∧ s.nmiPending = true ∧ s.nmiInService = false ∧ s.shadow = .sti) ∧
    (∃ s : State, Undisturbed s ∧ (s.nmiPending = false ∨ s.nmiInService = true ∨ s.shadow = .ss) ∧ s.pins.intr = true ∧
      s.eflags.ifl = true ∧ s.shadow = .none) ∧
    (∃ s : State, Undisturbed s ∧ (s.nmiPending = false ∨ s.nmiInService = true ∨ s.shadow = .ss) ∧
      (s.pins.intr = false ∨ s.eflags.ifl = false ∨ s.shadow ≠ .none) ∧ s.runState = .halted) ∧
    (∃ s : State, prefetch s = .ok () s ∧ s.pins.reset = false ∧ s.pins.hold = false ∧ s.pfx.count = 0 ∧ s.copDue = false ∧ s.runState = .shutdown ∧
      s.nmiPending = false) ∧
    (∃ s u : State, prefetch s = .ok () s ∧ s.pins.reset = false ∧ s.pins.hold = false ∧ s.pfx.count = 0 ∧ s.copDue = false ∧ s.runState = .shutdown ∧
      s.nmiPending = true ∧ s.nmiInService = false ∧ s.shadow ≠ .ss ∧
      deliver (hardwareEvent 2 s.eip) { s with instrEip := s.eip, nmiPending := false, nmiInService := true } = .ok () u) ∧
    (∃ s u : State, prefetch s = .ok () s ∧ s.pins.reset = false ∧ s.pins.hold = false ∧ s.pfx.count = 0 ∧ s.copDue = false ∧ s.runState = .shutdown ∧
      s.nmiPending = true ∧ s.nmiInService = false ∧ s.shadow ≠ .ss ∧
      deliver (hardwareEvent 2 s.eip) { s with instrEip := s.eip, nmiPending := false, nmiInService := true } =
        .error (.exn (Exn.dfault) .nothing) u) ∧
    -- #GP(0) whose gate is missing: a double fault, which is delivered, or which has no gate either
    (∃ s : State, deliver (Exn.event (Exn.gp 0) 0x1000 false) s = .error (.exn (Exn.gp 0x6A) .nothing)
        (endOf (deliver (Exn.event (Exn.gp 0) 0x1000 false)) s) ∧
      (13 : Byte) ∈ ([0, 9, 10, 11, 12, 13] : List Byte) ∧
      ∃ x t, deliver (Exn.event Exn.dfault 0x1000 false) (raisedFrom s (Exn.event (Exn.gp 0) 0x1000 false) (Exn.gp 0x6A)) =
        .ok x t) ∧
    (∃ s : State, deliver (Exn.event (Exn.gp 0) 0x1000 false) s = .error (.exn (Exn.gp 0x6A) .nothing)
        (endOf (deliver (Exn.event (Exn.gp 0) 0x1000 false)) s) ∧
      ∃ t, deliver (Exn.event Exn.dfault 0x1000 false) (raisedFrom s (Exn.event (Exn.gp 0) 0x1000 false) (Exn.gp 0x6A)) =
        .error (.exn (Exn.gp 0x42) .nothing) t) ∧
    -- the double fault itself
    (∃ s u : State, deliver (Exn.event Exn.dfault 0x1000 false) s = .error (.exn (Exn.gp 0x42) .nothing) u) ∧
    -- exception 6, of neither class, whose gate is missing: #GP is delivered in its place
    (∃ s : State, deliver (Exn.event Exn.ud 0x1000 false) s = .error (.exn (Exn.gp 0x32) .nothing)
        (endOf (deliver (Exn.event Exn.ud 0x1000 false)) s) ∧
      Exn.ud.vector ∉ ([0, 9, 10, 11, 12, 13, 14] : List Byte) ∧ (Exn.gp 0x32).vector ≠ 8 ∧
      ∃ x t, deliver (Exn.event (Exn.gp 0x32) 0x1000 false) (raisedFrom s (Exn.event Exn.ud 0x1000 false) (Exn.gp 0x32)) =
        .ok x t) := by
  refine ⟨⟨watched 0xFFFFFFFF 3, inv_of (by decide +kernel), by decide +kernel, rfl, by decide +kernel, by decide +kernel,
      ⟨by unfold State.BreakOn; decide +kernel, by decide +kernel, _, .head _, by decide +kernel, 3, 0, by decide, by decide,
        by decide +kernel⟩, by decide +kernel, by decide +kernel⟩,
    ⟨⟨by unfold State.BreakOn; decide +kernel, by decide +kernel, _, .head _, by decide +kernel, 0, 0, by decide, by decide,
        by decide +kernel⟩, fun h => by
      rcases h.2.1 with h | h
      · exact absurd h (by decide +kernel)
      · cases h.2⟩,
    ⟨{ real with pins := { real.pins with hold := true } }, plainly (by decide +kernel), by decide +kernel⟩,
    ⟨{ real with pendingDb := 0x4000 }, plainly (by decide +kernel), by decide +kernel⟩,
    ⟨watched 0x1000 0, plainly (by decide +kernel), by decide +kernel, by decide +kernel, by decide +kernel, by decide +kernel, by decide +kernel, by decide +kernel,
      by decide +kernel, by decide +kernel, by unfold State.Breaks State.BreakOn; decide +kernel⟩,
    ⟨{ real with nmiPending := true, shadow := .sti }, undisturbed (by decide +kernel), by decide +kernel⟩,
    ⟨{ v86Due with runState := .halted }, undisturbed (by decide +kernel), by decide +kernel⟩,
    ⟨{ real with runState := .halted }, undisturbed (by decide +kernel), by decide +kernel⟩,
    ⟨{ real with runState := .shutdown }, plainly (by decide +kernel), by decide +kernel⟩, ?_, ?_,
    ⟨gate 8 0x8E flat, raises_endOf (by decide +kernel), by decide, ok1 (by decide +kernel)⟩,
    ⟨flat, raises_endOf (by decide +kernel), raises_of (by decide +kernel)⟩, ⟨flat, raises_of (by decide +kernel)⟩,
    ⟨gate 13 0x8E flat, raises_endOf (by decide +kernel), by decide, by decide, ok1 (by decide +kernel)⟩⟩
  · obtain ⟨_, u, h⟩ := ok1 (m := deliver (hardwareEvent 2 real.eip))
      (s := { real with runState := .shutdown, instrEip := real.eip, nmiPending := false, nmiInService := true })
      (by decide +kernel)
    exact ⟨{ real with runState := .shutdown, nmiPending := true }, u, plainly (by decide +kernel), by decide +kernel, by decide +kernel, by decide +kernel,
      by decide +kernel, by decide +kernel, by decide +kernel, by decide +kernel, by decide +kernel, h⟩
  · obtain ⟨u, h⟩ := raises_of (m := deliver (hardwareEvent 2 real.eip)) (e := Exn.dfault)
      (s := { real with runState := .shutdown, instrEip := real.eip, nmiPending := false, nmiInService := true,
                        idtr := { base := 0, limit := 7 } }) (by decide +kernel)
    exact ⟨{ real with runState := .shutdown, nmiPending := true, idtr := { base := 0, limit := 7 } }, u, plainly (by decide +kernel), by decide +kernel, by decide +kernel,
      by decide +kernel, by decide +kernel, by decide +kernel, by decide +kernel, by decide +kernel, by decide +kernel, h⟩

theorem witness_SpecialRegisterMoves :
    (∃ v : Dword, flat.Inv ∧ v = flat.regs.get .eax ∧ flat.currentCpl = 0 ∧ v.getLsbD 31 = false ∧
      flat.dr7.getLsbD 13 = false) ∧
    (∃ s : State, s.Inv ∧ (0x80000000 : Dword) = s.regs.get .eax ∧ s.currentCpl = 0 ∧
      (0x80000000 : Dword).getLsbD 31 = true ∧ (0x80000000 : Dword).getLsbD 0 = false) ∧
    (∃ s : State, s.Inv ∧ s.currentCpl = 0 ∧ s.dr7.getLsbD 13 = true) :=
  ⟨⟨_, inv_flat, rfl, by decide +kernel⟩,
    ⟨withRegs flat ({ · with eax := 0x80000000 }), inv_of (by decide +kernel), rfl, by decide +kernel⟩,
    ⟨{ flat with dr7 := 0x2000 }, inv_of (by decide +kernel), by decide +kernel⟩⟩

theorem witness_PrivilegeChecks :
    (user flat).currentCpl ≠ 0 ∧ (user flat).dr7.getLsbD 13 = false ∧ (user flat).protectedMode = true ∧
    (∃ s : State, s.v86 = true ∧ s.eflags.iopl ≠ 3) ∧ real.protectedMode = false :=
  ⟨by decide +kernel, by decide +kernel, by decide +kernel,
    ⟨{ v86Due with eflags := { v86Due.eflags with iopl := 2 } }, by decide +kernel⟩, by decide +kernel⟩

/-- With a coprocessor that asks for `n` bytes, ERROR# asserted or not. -/
def escaping (n : Nat) (toMemory error : Bool) : State :=
  { real with
    params := { real.params with coprocessor := .i80387 }, cr0 := { real.cr0 with et := true }
    pins := { real.pins with pereq := true, error := error }
    copRequest := { toMemory := toMemory, count := n, data := [1, 2] } }

/-- The first word of ESC, as the bus carries it. -/
def escWord (ttt lll : BitVec 3) (rm : RM) : Word :=
  ((encode (.esc ttt lll rm)).getD 1 0) ++ ((encode (.esc ttt lll rm)).getD 0 0)

/-- The operand of ESC ends at the last byte of its segment; one byte more fails the check, and through SS a second transfer
past the limit is exception 9. One byte more is asked for later, each way, and two of which the second lies past the limit. -/
theorem witness_ProcessorControl :
    real.Inv ∧ real.currentCpl = 0 ∧ (real.cr0.mp = false ∨ real.cr0.ts = false) ∧ real.pins.busy = false ∧
      real.pins.error = false ∧
    (∃ s : State, s.cr0.mp = true ∧ s.cr0.ts = true ∧ s.Inv) ∧ (∃ s : State, s.cr0.em = true ∧ s.Inv) ∧
    (∃ s : State, s.Inv ∧ (s.cr0.mp = false ∨ s.cr0.ts = false) ∧ s.pins.busy = true) ∧
    (∃ s : State, s.Inv ∧ (s.cr0.mp = false ∨ s.cr0.ts = false) ∧ s.pins.busy = false ∧ s.pins.error = true) ∧
    -- transfers of 6 bytes each way, the last unit of 2 bytes; no exempt opcode; ERROR# asserted
    (∀ (b e : Bool), (escaping 6 b e).Inv ∧ (escaping 6 b e).cr0.em = false ∧ (escaping 6 b e).cr0.ts = false ∧
      (escaping 6 b e).Plain ∧ (escaping 6 b e).pins.busy = false ∧ (escaping 6 b e).pins.error = e ∧
      resolve (.mem (.abs16 0xFFFA)) (escaping 6 b e) = .ok (.mem .ds 0xFFFA) (escaping 6 b e) ∧
      (escaping 6 b e).segOk .ds 0xFFFA (max 1 6) b = true ∧
      (escaping 6 b e).segOk .ds (0xFFFA + BitVec.ofNat 32 0) (min 4 (6 - 0)) b = true ∧
      (escaping 6 b e).segOk .ds (0xFFFA + BitVec.ofNat 32 4) (min 4 (6 - 4)) b = true ∧
      (escaping 6 b e).segOk .ds 0xFFFB (max 1 6) b = false) ∧
    (∃ m, RM.mem (.abs16 0) = .mem m) ∧ ((5 : BitVec 3) = 5 ∧ (7 : BitVec 3) = 7) ∧ escWord 7 4 (.reg .eax) = 0xE0DF ∧
    escWord 3 4 (.reg .ebx) = 0xE3DB ∧ escWord 3 4 (.reg .edx) = 0xE2DB ∧
    -- no coprocessor: FSTSW AX, and FLD mem at the last byte of its segment
    (real.params.coprocessor = .none ∧ real.Plain ∧ resolve (.reg .eax) real = .ok (.reg .eax) real ∧
      resolve (.mem (.abs16 0xFFFF)) real = .ok (.mem .ds 0xFFFF) real ∧ real.segOk .ds 0xFFFF (max 1 0) false = true) ∧
    (∃ s : State, s.pins.busy = true ∧ resolve (.mem (.abs16 0)) s = .ok (.mem .ds 0) s) ∧
    -- through SS: the first unit lies inside the limit, the second does not, or the first does not
    (∃ s : State, s.Inv ∧ resolve (.mem (.a16 .bp (.d8 0))) s = .ok (.mem .ss 0xFFFC) s ∧
      s.segOk .ss 0xFFFC (max 1 (min 4 6)) true = true ∧ s.segOk .ss 0xFFFC (min 4 6) true = true ∧
      (∀ j, j < 4 → j % 4 = 0 → s.segOk .ss (0xFFFC + BitVec.ofNat 32 j) (min 4 (6 - j)) true = true) ∧
      s.segOk .ss (0xFFFC + BitVec.ofNat 32 4) (min 4 (6 - 4)) true = false ∧
      s.segOk .ss 0xFFFD (max 1 (min 4 6)) true = false) ∧
    (∀ (b : Bool) (s : State), s = { holding 3 4 with copRequest := { toMemory := b, count := 4, data := [] } } →
      s.Inv ∧ s.Plain ∧ s.pins.reset = false ∧ prefetch s = .ok () s ∧ s.pins.hold = false ∧ s.pfx.count = 0 ∧
      s.runState = .running ∧ s.params.coprocessor ≠ .none ∧ s.pins.pereq = true ∧
      s.copOperand = some { heldWord with moved := 3 } ∧ heldWord.live = true ∧ 3 + 1 = s.copRequest.count ∧
      ({ heldWord with moved := 3 } : CopOperand).fits (3 + 0) (min 4 (1 - 0)) b = true) ∧
    (∃ s : State, s = holding 0 8 ∧ s.Inv ∧ s.Plain ∧ prefetch s = .ok () s ∧ 0 + 8 = s.copRequest.count ∧
      (∀ j, j < 4 → j % 4 = 0 → heldWord.fits (0 + j) (min 4 (8 - j)) true = true) ∧
      heldWord.fits (0 + 4) (min 4 (8 - 4)) true = false) := by
  refine ⟨inv_real, by decide +kernel, by decide +kernel, by decide +kernel, by decide +kernel,
    ⟨{ real with cr0 := { real.cr0 with mp := true, ts := true } }, rfl, rfl, inv_of (by decide +kernel)⟩,
    ⟨{ real with cr0 := { real.cr0 with em := true } }, rfl, inv_of (by decide +kernel)⟩,
    ⟨{ real with pins := { real.pins with busy := true } }, inv_of (by decide +kernel), by decide +kernel⟩,
    ⟨{ real with pins := { real.pins with error := true } }, inv_of (by decide +kernel), by decide +kernel⟩,
    fun b e => ⟨?_, rfl, rfl, by revert b e; decide +kernel, rfl, rfl, rfl, ?_, ?_, ?_, ?_⟩, ⟨_, rfl⟩, by decide, by decide +kernel,
    by decide +kernel, by decide +kernel, ⟨by decide +kernel, by decide +kernel, rfl, rfl, by decide +kernel⟩,
    ⟨{ real with pins := { real.pins with busy := true } }, by decide +kernel, rfl⟩,
    ⟨withRegs (escaping 6 true false) ({ · with ebp := 0xFFFC }), inv_of (by decide +kernel), rfl, by decide +kernel,
      by decide +kernel, by decide +kernel⟩,
    fun b s h => ?_, ⟨_, rfl, inv_of (by decide +kernel), by decide +kernel, plainly (by decide +kernel), by decide +kernel⟩⟩
  · exact inv_of (by revert b e; decide +kernel)
  case refine_6 =>
    subst h
    exact ⟨inv_of (by revert b; decide +kernel), by revert b; decide +kernel, rfl, plainly (by revert b; decide +kernel),
      by revert b; decide +kernel⟩
  all_goals revert b e; decide +kernel

/-- A table register operand in the last six bytes of a segment. -/
theorem witness_TableRegisters :
    (∃ lim s2 base s3, real.Inv ∧ real.currentCpl = 0 ∧ effectiveAddress (.abs16 0xFFFA) real = .ok (.ds, 0xFFFA) real ∧
      real.segOk .ds 0xFFFA 6 false = true ∧ memRead .ds 0xFFFA .b16 real = .ok lim s2 ∧
      memRead .ds (0xFFFA + 2) .b32 s2 = .ok base s3) ∧
    (∃ u s2 s3, real.segOk .ds 0xFFFA 6 true = true ∧ freeDword real = .ok u s2 ∧
      writeLinear real.isUser (real.linear .ds 0xFFFA) (leBytes 2 (real.idtr.limit.setWidth 32) ++
        leBytes 3 real.idtr.base ++ [if real.osz = .b32 then real.idtr.base.extractLsb' 24 8 else u.extractLsb' 24 8]) s2 =
        .ok () s3) := by
  refine ⟨?_, ?_⟩
  · obtain ⟨lim, s2, base, s3, h, k⟩ := ok2 (m := memRead .ds 0xFFFA .b16) (f := fun _ => memRead .ds (0xFFFA + 2) .b32)
      (s := real) (by decide +kernel)
    exact ⟨lim, s2, base, s3, inv_real, by decide +kernel, rfl, by decide +kernel, h, k⟩
  · obtain ⟨u, s2, _, s3, h, k⟩ := ok2 (m := freeDword) (f := fun u => writeLinear real.isUser (real.linear .ds 0xFFFA)
      (leBytes 2 (real.idtr.limit.setWidth 32) ++ leBytes 3 real.idtr.base ++
        [if real.osz = .b32 then real.idtr.base.extractLsb' 24 8 else u.extractLsb' 24 8])) (s := real) (by decide +kernel)
    exact ⟨u, s2, s3, by decide +kernel, h, k⟩

/-- `flat` with an LDT (type 2) at 38H, and selectors 0 to 3, 38H, 28H (a TSS), 80H past the table. -/
theorem witness_TaskRegisters :
    (∃ s s1 : State, s.Inv ∧ s.currentCpl = 0 ∧ s.protectedMode = true ∧ s.Plain ∧
      readRm .b16 (.reg .eax) s = .ok 3 s1 ∧ isNull 3 = true) ∧
    (∃ s s1 : State, s.Inv ∧ s.currentCpl = 0 ∧ s.protectedMode = true ∧ s.Plain ∧
      readRm .b16 (.reg .eax) s = .ok 0x80 s1 ∧ isNull 0x80 = false ∧ s.inTable 0x80 = false) ∧
    (∃ s s1 : State, s.Inv ∧ s.currentCpl = 0 ∧ s.protectedMode = true ∧ s.Plain ∧
      readRm .b16 (.reg .eax) s = .ok 0x38 s1 ∧ isNull 0x38 = false ∧ inLdt 0x38 = false ∧ s.inTable 0x38 = true ∧
      (target s).present = true ∧ (target s).isSystem 2 = true) ∧
    (∃ s s1 : State, s.Inv ∧ s.currentCpl = 0 ∧ s.protectedMode = true ∧ s.Plain ∧
      readRm .b16 (.reg .eax) s = .ok 0x28 s1 ∧ isNull 0x28 = false ∧ inLdt 0x28 = false ∧ s.inTable 0x28 = true ∧
      (s.descriptorIn (s.descriptorAt 0x28)).present = true ∧ (s.descriptorIn (s.descriptorAt 0x28)).isSystem 9 = true) :=
  ⟨⟨withRegs flat ({ · with eax := 3 }), _, inv_of (by decide +kernel), by decide +kernel, by decide +kernel,
      by decide +kernel, rfl, by decide⟩,
    ⟨withRegs flat ({ · with eax := 0x80 }), _, inv_of (by decide +kernel), by decide +kernel, by decide +kernel,
      by decide +kernel, rfl, by decide, by decide +kernel⟩,
    ⟨withRegs (withDescriptor 0x82) ({ · with eax := 0x38 }), _, inv_of (by decide +kernel), by decide +kernel,
      by decide +kernel, by decide +kernel, rfl, by decide, by decide, by decide +kernel, by decide +kernel,
      by decide +kernel⟩,
    ⟨withRegs flat ({ · with eax := 0x28 }), _, inv_of (by decide +kernel), by decide +kernel, by decide +kernel,
      by decide +kernel, rfl, by decide, by decide, by decide +kernel, by decide +kernel, by decide +kernel⟩⟩

/-- ARPL raising the RPL of a word at the end of a segment, and not; a selector probed. -/
theorem witness_SelectorProbes :
    (∃ (s : State) (l : Loc) (s1 : State) (v : Dword) (s2 : State) (x : Dword) (s3 : State), s.Inv ∧
      s.protectedMode = true ∧ resolve (.mem (.abs32 0xFFFFFFFE)) s = .ok l s1 ∧ readLoc .b16 l s1 = .ok v s2 ∧
      v.extractLsb' 0 2 < (s.reg .b16 .eax).extractLsb' 0 2 ∧ x = (v &&& 0xFFFC) ||| (s.reg .b16 .eax &&& 3) ∧
      writeLoc .b16 l x s2 = .ok () s3) ∧
    (∃ s : State, s.Inv ∧ s.protectedMode = true ∧ readLoc .b16 (.reg .ebx) s = .ok 0x0B s ∧
      ¬(0x0B : Dword).extractLsb' 0 2 < (s.reg .b16 .eax).extractLsb' 0 2) ∧
    (∃ (s s1 : State) (d : Descriptor), s.Inv ∧ s.protectedMode = true ∧ s.Plain ∧
      readRm .b16 (.reg .eax) s = .ok 8 s1 ∧ true = (!isNull 8 && s.inTable 8) ∧ d = s.descriptorIn (s.descriptorAt 8) ∧
      true = (d.isConforming || (decide (s.currentCpl ≤ d.dpl) && decide (rpl 8 ≤ d.dpl)))) := by
  refine ⟨⟨withRegs flat ({ · with eax := 3 }), .mem .ds 0xFFFFFFFE, withRegs flat ({ · with eax := 3 }), ?_⟩,
    ⟨withRegs flat ({ · with eax := 3, ebx := 0x0B }), inv_of (by decide +kernel), by decide +kernel, rfl, by decide +kernel⟩,
    ⟨withRegs flat ({ · with eax := 8 }), _, _, inv_of (by decide +kernel), by decide +kernel, by decide +kernel, rfl,
      by decide +kernel, rfl, by decide +kernel⟩⟩
  obtain ⟨v, s2, h1, h⟩ := ok_first (m := readLoc .b16 (.mem .ds 0xFFFFFFFE)) (f := fun v =>
    raiseIf (!decide (v.extractLsb' 0 2 < (3 : Dword).extractLsb' 0 2)) (Exn.gp 0) >>= fun _ =>
      writeLoc .b16 (.mem .ds 0xFFFFFFFE) ((v &&& 0xFFFC) ||| (3 : Dword) &&& 3))
    (s := withRegs flat ({ · with eax := 3 })) (by decide +kernel)
  obtain ⟨_, s2', _, s3, h2, h3⟩ := ok2 h
  obtain ⟨h4, rfl⟩ := run_raiseIf_eq_ok.mp h2
  have e : (withRegs flat ({ · with eax := 3 })).reg .b16 .eax = 3 := by decide +kernel
  exact ⟨v, s2', _, s3, inv_of (by decide +kernel), by decide +kernel, rfl, h1, by rw [e]; simpa using h4, by rw [e], h3⟩

end Sys2Proof.Tests
end

section
/-! The general registers under a write of a part of one (10_state.md R31), and O8. -/

namespace Sys2Proof.Machine

/-! The parts of a dword of which the low word or the second byte is replaced. -/

theorem mergeWord_high (old : Dword) (v : Word) :
    (mergeWord old v).extractLsb' 16 16 = old.extractLsb' 16 16 := BitVec.extractLsb'_append_eq_left

/-- What a write of AH, CH, DH or BH makes of the extended register (`Regs.write_highByte`). -/
def mergeHighByte (old : Dword) (b : Byte) : Dword := old.extractLsb' 16 16 ++ b ++ old.extractLsb' 0 8

theorem mergeHighByte_high (old : Dword) (b : Byte) :
    (mergeHighByte old b).extractLsb' 16 16 = old.extractLsb' 16 16 :=
  (BitVec.extractLsb'_append_eq_of_le (by decide)).trans BitVec.extractLsb'_append_eq_left

theorem mergeHighByte_byte (old : Dword) (b : Byte) : (mergeHighByte old b).extractLsb' 8 8 = b :=
  (BitVec.extractLsb'_append_eq_of_le (by decide)).trans BitVec.extractLsb'_append_eq_right

theorem mergeHighByte_low (old : Dword) (b : Byte) : (mergeHighByte old b).setWidth 8 = old.setWidth 8 :=
  BitVec.setWidth_append_eq_right.trans (BitVec.setWidth_eq_extractLsb' (by decide)).symm

/-! What a write sets, an equation for each kind of part; `Regs.get_set_same` and `Regs.get_set_other` then say what each
register holds. -/

theorem Regs.write_word (g : Regs) (r : Reg) (v : Dword) :
    g.write .b16 r v = g.set r (mergeWord (g.get r) (v.setWidth 16)) := rfl

theorem Reg.byteHome_of_low {r : Reg} (h : Reg.isHighByte r = false) : Reg.byteHome r = r := by
  cases r with
  | eax | ecx | edx | ebx => rfl
  | esp | ebp | esi | edi => cases h

theorem Regs.write_lowByte (g : Regs) {r : Reg} (v : Dword) (h : Reg.isHighByte r = false) :
    g.write .b8 r v = g.set r ((g.get r).extractLsb' 8 24 ++ v.setWidth 8) := by
  simp [Regs.write, h, Reg.byteHome_of_low h]

theorem Regs.write_highByte (g : Regs) {r : Reg} (v : Dword) (h : Reg.isHighByte r = true) :
    g.write .b8 r v = g.set (Reg.byteHome r) (mergeHighByte (g.get (Reg.byteHome r)) (v.setWidth 8)) := by
  simp [Regs.write, h, mergeHighByte]

/-- Settles O8, by the three kinds of part: a word, a low byte, and a high byte, whose register is its `byteHome`. -/
theorem registerWriteKeepsUpper : Obligations.RegisterWriteKeepsUpper := by
  intro s v r
  simp only [State.setReg_regs]
  refine ⟨?word, fun hlow => ?lowByte, fun hhigh => ?highByte⟩
  case word =>
    rw [Regs.write_word, Regs.get_set_same]
    exact ⟨mergeWord_high _ _, mergeWord_low _ _, fun _ => Regs.get_set_other _ _⟩
  case lowByte =>
    rw [Regs.write_lowByte _ _ hlow, Regs.get_set_same]
    exact ⟨BitVec.extractLsb'_append_eq_left, BitVec.setWidth_append_eq_right, fun _ => Regs.get_set_other _ _⟩
  case highByte =>
    rw [Regs.write_highByte _ _ hhigh, Regs.get_set_same]
    exact ⟨mergeHighByte_high _ _, mergeHighByte_low _ _, mergeHighByte_byte _ _, fun _ => Regs.get_set_other _ _⟩

end Sys2Proof.Machine
end

section
/-! The bus of a 16-bit device (20_memory.md R148) and the 8086 segment load (R191): O12 and O17. -/

namespace Sys2Proof.Machine

/-! The half of the bus that `device16` names is the one that holds the lowest byte enabled. -/

theorem device16_lowHalf {be : BitVec 4} (h : (be.getLsbD 0 || be.getLsbD 1) = true) :
    device16 be = (false, !be.getLsbD 1, !be.getLsbD 0) := if_pos h

theorem device16_highHalf {be : BitVec 4} (h : (be.getLsbD 0 || be.getLsbD 1) = false) :
    device16 be = (true, !be.getLsbD 3, !be.getLsbD 2) := if_neg (ne_true_of_eq_false h)

/-- The bytes that a cycle enables are contiguous: from each place a cycle can begin at, one pattern for each length that
stays inside the dword. -/
theorem byteEnables_contiguous {n low : Nat} (hpos : 1 ≤ n) (hfit : n + low ≤ 4) :
    byteEnables n low ∈ ([0b0001, 0b0010, 0b0011, 0b0100, 0b0110, 0b0111, 0b1000, 0b1100, 0b1110, 0b1111] :
      List (BitVec 4)) := by
  obtain ⟨hlow, hn⟩ : low ≤ 3 ∧ n ≤ 4 - low := by omega
  interval_cases low
  · interval_cases n <;> decide
  · interval_cases n <;> decide
  · interval_cases n <;> decide
  · interval_cases n; decide

/-- Settles O12: the rows by the half of the bus that each is in, the patterns left out by `byteEnables_contiguous`. -/
theorem sixteenBitDevice : Obligations.SixteenBitDevice :=
  ⟨device16_lowHalf rfl, device16_lowHalf rfl, device16_lowHalf rfl, device16_highHalf rfl, device16_lowHalf rfl,
    device16_lowHalf rfl, device16_highHalf rfl, device16_highHalf rfl, device16_lowHalf rfl, device16_lowHalf rfl,
    fun _ _ => byteEnables_contiguous⟩

/-- The 8086 load writes one segment register. Virtual 8086 Mode differs from Real Mode only in the limit and rights that
it writes with the selector and the base. -/
theorem State.load8086_eq_setSeg (s : State) (sr : SReg) (v : Word) :
    ∃ c, s.load8086 sr v = s.setSeg sr c ∧ c.selector = v ∧ c.base = v.setWidth 32 <<< 4 := by
  unfold State.load8086
  split
  case isTrue virtual8086 => exact ⟨_, rfl, rfl, rfl⟩
  case isFalse realMode => exact ⟨_, rfl, rfl, rfl⟩

/-- Outside Protected Mode a segment load always answers: it has no path that raises an exception. -/
theorem loadSeg_8086 {s : State} (h : s.protectedMode = false) (sr : SReg) (v : Word) :
    loadSeg sr v s = .ok () (s.load8086 sr v) := by
  unfold loadSeg
  rw [run_bind_ok (run_get s), h]
  rfl

/-- Settles O17: the load is a write of one segment register, which writing back what the register held undoes. -/
theorem segmentLoad8086 : Obligations.SegmentLoad8086 := by
  intro s sr v hmode
  obtain ⟨c, hload, hselector, hbase⟩ := s.load8086_eq_setSeg sr v
  refine ⟨s.setSeg sr c, (loadSeg_8086 hmode sr v).trans (congrArg _ hload), ?_, ?_, ?_⟩
  · rw [State.seg_setSeg_self, hselector]
  · rw [State.seg_setSeg_self, hbase]
  · rw [setSeg_setSeg, setSeg_seg]

end Sys2Proof.Machine
end

section
/-! `Calm` for the operations of the instructions: what each keeps of `State.Inv`, one lemma per operation. -/

namespace Sys2Proof.Machine

variable {α : Type}

/-! Operands. -/

theorem calm_effectiveAddress (m : MemOp) : Calm (effectiveAddress m) := by
  intro s
  unfold effectiveAddress
  simp only
  split
  · exact calmRel_draws s _
  · exact CalmRel.refl s

theorem calm_resolve (rm : RM) : Calm (resolve rm) := by
  intro s
  cases rm with
  | reg r => exact CalmRel.refl s
  | mem m =>
    have h := calm_effectiveAddress m s
    unfold resolve
    simp only
    split
    · next he => rw [he] at h; exact h
    · next he => rw [he] at h; exact h

theorem calm_writeReg (sz : Size) (r : Reg) (v : Dword) : Calm (writeReg sz r v) := fun s =>
  calmRel_setReg (.refl s) sz r v

theorem calm_readLoc (sz : Size) (l : Loc) : Calm (readLoc sz l) := by
  intro s
  cases l with
  | reg r => exact CalmRel.refl s
  | mem sr off => exact calm_memRead sr off sz s

theorem calm_writeLoc (sz : Size) (l : Loc) (v : Dword) : Calm (writeLoc sz l v) := by
  intro s
  cases l with
  | reg r => exact calmRel_setReg (.refl s) sz r v
  | mem sr off => exact calm_memWrite sr off sz v s

theorem readToUpdate_reg (sz : Size) (r : Reg) : readToUpdate sz (.reg r) = readLoc sz (.reg r) := by
  simp [readToUpdate]

theorem readToUpdate_mem (sz : Size) (sr : SReg) (off : Dword) :
    readToUpdate sz (.mem sr off) = (do segCheck sr off sz.bytes true; readLoc sz (.mem sr off)) := by
  simp [readToUpdate]

theorem calm_readToUpdate (sz : Size) (l : Loc) : Calm (readToUpdate sz l) := by
  cases l with
  | reg r => rw [readToUpdate_reg]; exact calm_readLoc _ _
  | mem sr off => rw [readToUpdate_mem]; exact calm_bind (calm_segCheck _ _ _ _) fun _ => calm_readLoc _ _

theorem calm_readRm (sz : Size) (rm : RM) : Calm (readRm sz rm) :=
  calm_bind (calm_resolve _) fun _ => calm_readLoc _ _

theorem calm_readFarPointer (m : MemOp) : Calm (readFarPointer m) :=
  calm_bind (calm_effectiveAddress _) fun _ => calm_bind calm_get fun _ => calm_bind (calm_segCheck _ _ _ _) fun _ =>
    calm_bind (calm_memRead _ _ _) fun _ => calm_bind (calm_memRead _ _ _) fun _ => calm_pure _

/-- A change of flags after which VM is set only if it was. -/
theorem calm_modifyFlags {f : State → Eflags} (h : ∀ s, (f s).vm = true → s.eflags.vm = true) :
    Calm (modify fun s => s.setFlags (f s)) :=
  calm_modify fun s => calmRel_setFlags (.refl s) (h s)

theorem calm_changeFlags {f : Eflags → Eflags} (h : ∀ g, (f g).vm = g.vm) : Calm (changeFlags f) :=
  calm_modifyFlags fun s hv => by rwa [h] at hv

/-! I/O (20_memory.md R102, R104, R210). -/

theorem calm_inputBytes (p n : Nat) : Calm (inputBytes p n) := by
  induction n generalizing p with
  | zero => exact calm_pure _
  | succ n ih =>
    refine calm_bind (fun s => ?_) fun _ => calm_bind (ih _) fun _ => calm_pure _
    unfold inputByte
    split
    · exact CalmRel.refl s
    · exact calmRel_draws s _

theorem calm_ioCycles (port : Word) (n : Nat) (cs : List BusCycle) : Calm (ioCycles port n cs) :=
  calm_bind calm_get fun _ => calm_ite (calm_stopFault _) (calm_ite (calm_stopFault _) (calm_logCycles _))

theorem calm_ioRead (port : Word) (sz : Size) : Calm (ioRead port sz) :=
  calm_bind calm_get fun _ => calm_bind (calm_ioCycles _ _ _) fun _ => calm_bind (calm_inputBytes _ _) fun _ => calm_pure _

theorem calm_ioWrite (port : Word) (sz : Size) (v : Dword) : Calm (ioWrite port sz v) :=
  calm_bind calm_get fun _ => calm_ioCycles _ _ _

theorem calm_checkIo (port : Word) (sz : Size) : Calm (checkIo port sz) := by
  have hmap : Calm (ioPermitted port sz.bytes) :=
    calm_bind calm_get fun _ => calm_ite (calm_pure _) (calm_bind (calm_sysRead _ _) fun _ =>
      calm_ite (calm_pure _) (calm_bind (calm_sysRead _ _) fun _ => calm_pure _))
  exact calm_bind calm_get fun _ => calm_ite (calm_pure _) (calm_ite (calm_pure _)
    (calm_bind hmap fun _ => calm_raiseIf (by simp)))

theorem calm_inputTo (port : Word) (sz : Size) : Calm (inputTo port sz) :=
  calm_bind (calm_checkIo _ _) fun _ => calm_bind (calm_ioRead _ _) fun _ => calm_writeReg _ _ _

theorem calm_outputFrom (port : Word) (sz : Size) : Calm (outputFrom port sz) :=
  calm_bind (calm_checkIo _ _) fun _ => calm_bind calm_get fun _ => calm_ioWrite _ _ _

/-! Data transfer (40_data_transfer.md). -/

theorem calm_storeWord (rm : RM) (v : Word) : Calm (storeWord rm v) := by
  refine calm_bind calm_get fun s => calm_bind (calm_resolve _) fun l => ?_
  cases l with
  | mem sr off => exact calm_memWrite _ _ _ _
  | reg r => exact calm_ite (calm_bind (calm_freeUpper _) fun _ => calm_writeReg _ _ _) (calm_writeReg _ _ _)

theorem calm_pushSeg (sr : SReg) : Calm (pushSeg sr) :=
  calm_bind calm_get fun _ => calm_ite (calm_bind (calm_freeUpper _) fun _ => calm_push _ _) (calm_push _ _)

theorem calm_popSeg (sr : SReg) : Calm (popSeg sr) :=
  calm_bind calm_get fun _ => calm_bind (calm_pop _) fun _ => calm_loadSeg _ _

theorem calm_exchange (sz : Size) (l : Loc) (reg : Reg) : Calm (exchange sz l reg) :=
  calm_bind (calm_readToUpdate _ _) fun _ => calm_bind calm_get fun _ => calm_bind (calm_writeLoc _ _ _) fun _ =>
    calm_writeReg _ _ _

theorem calm_loadFarPointer (sr : SReg) (reg : Reg) (m : MemOp) : Calm (loadFarPointer sr reg m) :=
  calm_bind calm_get fun _ => calm_bind (calm_readFarPointer _) fun _ => calm_bind (calm_loadSeg _ _) fun _ =>
    calm_writeReg _ _ _

theorem calm_checkCpl0 : Calm checkCpl0 := calm_bind calm_get fun _ => calm_raiseIf (by simp)

theorem calm_checkIopl : Calm checkIopl := calm_bind calm_get fun _ => calm_raiseIf (by simp)

/-! Arithmetic (41_arithmetic.md). -/

/-- An operation that leaves VM as it finds it. -/
def AluOp.KeepsVm (op : AluOp) : Prop := ∀ sz a b f, (op sz a b f).2.vm = f.vm

theorem aluAdd_keepsVm : AluOp.KeepsVm aluAdd := fun _ _ _ _ => rfl
theorem aluAdc_keepsVm : AluOp.KeepsVm aluAdc := fun _ _ _ _ => rfl
theorem aluSub_keepsVm : AluOp.KeepsVm aluSub := fun _ _ _ _ => rfl
theorem aluSbb_keepsVm : AluOp.KeepsVm aluSbb := fun _ _ _ _ => rfl
theorem aluInc_keepsVm : AluOp.KeepsVm aluInc := fun _ _ _ _ => rfl
theorem aluDec_keepsVm : AluOp.KeepsVm aluDec := fun _ _ _ _ => rfl
theorem aluNeg_keepsVm : AluOp.KeepsVm aluNeg := fun _ _ _ _ => rfl

theorem calm_alu {op : AluOp} (h : op.KeepsVm) (sz : Size) (dst : Loc) (src : Dword) : Calm (alu op sz dst src) :=
  calm_bind (calm_readToUpdate _ _) fun _ => calm_bind calm_get fun s => calm_bind (calm_writeLoc _ _ _) fun _ =>
    calm_modifyFlags fun _ hv => by rwa [h] at hv

theorem calm_compare {op : AluOp} (h : op.KeepsVm) (sz : Size) (dst : Loc) (src : Dword) :
    Calm (compare op sz dst src) :=
  calm_bind (calm_readLoc _ _) fun _ => calm_modifyFlags fun _ hv => by rwa [h] at hv

theorem calm_byDirection (d : Dir) (sz : Size) (reg : Reg) (rm : RM) {k : Loc → Dword → M Unit}
    (h : ∀ l v, Calm (k l v)) : Calm (byDirection d sz reg rm k) := by
  refine calm_bind (calm_resolve _) fun l => ?_
  cases d with
  | toRm => exact calm_bind calm_get fun _ => h _ _
  | toReg => exact calm_bind (calm_readLoc _ _) fun _ => h _ _

theorem calm_withImm (sz : Size) (rm : RM) (imm : Imm) {k : Loc → Dword → M Unit} (h : ∀ l v, Calm (k l v)) :
    Calm (withImm sz rm imm k) := calm_bind (calm_resolve _) fun _ => h _ _

theorem calm_writeAx (ah al : Dword) : Calm (writeAx ah al) :=
  calm_bind (calm_writeReg _ _ _) fun _ => calm_writeReg _ _ _

theorem calm_asciiAdjust (x y : Dword) : Calm (asciiAdjust x y) := by
  unfold asciiAdjust
  refine calm_bind calm_get fun s => ?_
  simp only
  split
  · exact calm_bind (calm_writeAx _ _) fun _ => calm_bind calm_freeBit fun _ => calm_bind calm_freeBit fun _ =>
      calm_bind calm_freeBit fun _ => calm_bind calm_freeBit fun _ => calm_modifyFlags fun _ hv => hv
  · exact calm_bind (calm_writeReg _ _ _) fun _ => calm_bind calm_freeBit fun _ => calm_bind calm_freeBit fun _ =>
      calm_bind calm_freeBit fun _ => calm_bind calm_freeBit fun _ => calm_modifyFlags fun _ hv => hv

theorem calm_flagsFromAl (al : Dword) : Calm (flagsFromAl al) :=
  calm_bind calm_freeBit fun _ => calm_bind calm_freeBit fun _ => calm_bind calm_freeBit fun _ =>
    calm_modifyFlags fun _ hv => hv

theorem calm_multiplyFlags (wide : Bool) : Calm (multiplyFlags wide) :=
  calm_bind calm_freeBit fun _ => calm_bind calm_freeBit fun _ => calm_bind calm_freeBit fun _ =>
    calm_bind calm_freeBit fun _ => calm_modifyFlags fun _ hv => hv

theorem calm_undefinedFlags : Calm undefinedFlags :=
  calm_bind calm_freeBit fun _ => calm_bind calm_freeBit fun _ => calm_bind calm_freeBit fun _ =>
    calm_bind calm_freeBit fun _ => calm_bind calm_freeBit fun _ => calm_bind calm_freeBit fun _ =>
      calm_modifyFlags fun _ hv => hv

theorem calm_writeWide (sz : Size) (high low : Dword) : Calm (writeWide sz high low) := by
  cases sz with
  | b8 => exact calm_writeAx _ _
  | b16 | b32 => exact calm_bind (calm_writeReg _ _ _) fun _ => calm_writeReg _ _ _

theorem calm_multiplyTo (reg : Reg) (sz : Size) (a b : Dword) : Calm (multiplyTo reg sz a b) :=
  calm_bind (calm_writeReg _ _ _) fun _ => calm_multiplyFlags _

/-! Logic, shifts and rotates (42_logic.md). -/

theorem calm_readShifted (sz : Size) (l : Loc) (n : Nat) : Calm (readShifted sz l n) :=
  calm_ite (calm_readLoc _ _) (calm_readToUpdate _ _)

/-- A shift that leaves VM as it finds it. -/
def ShiftOp.KeepsVm (op : ShiftOp) : Prop := ∀ sz c v f u, (op sz c v f u).2.vm = f.vm

theorem shiftRol_keepsVm : ShiftOp.KeepsVm shiftRol := fun _ _ _ _ _ => rfl
theorem shiftRor_keepsVm : ShiftOp.KeepsVm shiftRor := fun _ _ _ _ _ => rfl
theorem shiftRcl_keepsVm : ShiftOp.KeepsVm shiftRcl := fun _ _ _ _ _ => rfl
theorem shiftRcr_keepsVm : ShiftOp.KeepsVm shiftRcr := fun _ _ _ _ _ => rfl
theorem shiftShl_keepsVm : ShiftOp.KeepsVm shiftShl := fun _ _ _ _ _ => rfl
theorem shiftShr_keepsVm : ShiftOp.KeepsVm shiftShr := fun _ _ _ _ _ => rfl
theorem shiftSar_keepsVm : ShiftOp.KeepsVm shiftSar := fun _ _ _ _ _ => rfl

theorem calm_shiftBy {op : ShiftOp} (h : op.KeepsVm) (sz : Size) (rm : RM) (n : Nat) : Calm (shiftBy op sz rm n) :=
  calm_bind (calm_resolve _) fun _ => calm_bind (calm_readShifted _ _ _) fun _ => calm_ite (calm_pure _)
    (calm_bind calm_freeDword fun _ => calm_bind calm_get fun _ => calm_bind (calm_writeLoc _ _ _) fun _ =>
      calm_modifyFlags fun _ hv => by rwa [h] at hv)

theorem calm_doubleShift (op : DoubleShiftOp) (reg : Reg) (rm : RM) (n : Nat) : Calm (doubleShift op reg rm n) :=
  calm_bind calm_get fun _ => calm_bind (calm_resolve _) fun _ => calm_bind (calm_readShifted _ _ _) fun _ =>
    calm_ite (calm_pure _) (calm_ite
      (calm_bind (calm_freeAt _) fun _ => calm_bind (calm_writeLoc _ _ _) fun _ => calm_undefinedFlags)
      (calm_bind calm_freeDword fun _ => calm_bind (calm_writeLoc _ _ _) fun _ => calm_modifyFlags fun _ hv => hv))

theorem calm_logicFlags (sz : Size) (r : Dword) : Calm (logicFlags sz r) :=
  calm_bind calm_freeBit fun _ => calm_modifyFlags fun _ hv => hv

theorem calm_logic (op : BoolOp) (sz : Size) (dst : Loc) (src : Dword) : Calm (logic op sz dst src) :=
  calm_bind (calm_readToUpdate _ _) fun _ => calm_bind (calm_writeLoc _ _ _) fun _ => calm_logicFlags _ _

theorem calm_test (sz : Size) (dst : Loc) (src : Dword) : Calm (test sz dst src) :=
  calm_bind (calm_readLoc _ _) fun _ => calm_logicFlags _ _

/-! Bits (44_bit.md). -/

theorem calm_bitFlags (cf : Bool) : Calm (bitFlags cf) :=
  calm_bind calm_undefinedFlags fun _ => calm_modifyFlags fun _ hv => hv

theorem calm_testBit (sz : Size) (l : Loc) (n : Nat) : Calm (testBit sz l n) :=
  calm_bind (calm_readLoc _ _) fun _ => calm_bitFlags _

theorem calm_changeBit (f : Bool → Bool) (sz : Size) (l : Loc) (n : Nat) : Calm (changeBit f sz l n) :=
  calm_bind (calm_readToUpdate _ _) fun _ => calm_bind (calm_writeLoc _ _ _) fun _ => calm_bitFlags _

theorem calm_bitImm (rm : RM) (bit : BitVec 8) {k : Size → Loc → Nat → M Unit} (h : ∀ sz l n, Calm (k sz l n)) :
    Calm (bitImm rm bit k) := calm_bind calm_get fun _ => calm_bind (calm_resolve _) fun _ => h _ _ _

theorem calm_bitReg (reg : Reg) (rm : RM) {k : Size → Loc → Nat → M Unit} (h : ∀ sz l n, Calm (k sz l n)) :
    Calm (bitReg reg rm k) := calm_bind calm_get fun _ => calm_bind (calm_resolve _) fun _ => h _ _ _

theorem calm_scanBits (index : Nat → Dword → Nat) (reg : Reg) (rm : RM) : Calm (scanBits index reg rm) := by
  unfold scanBits
  refine calm_bind calm_get fun s => calm_bind (calm_readRm _ _) fun v => ?_
  have hflags : Calm (do undefinedFlags; modify fun s => s.setFlags { s.eflags with zf := v == 0 }) :=
    calm_bind calm_undefinedFlags fun _ => calm_modifyFlags fun _ hv => hv
  split
  · exact calm_bind (calm_freeAt _) fun _ => calm_bind (calm_writeReg _ _ _) fun _ => hflags
  · exact calm_bind (calm_writeReg _ _ _) fun _ => hflags

theorem calm_readStringBit (sz asz : Size) (l : Loc) (o : Int) : Calm (readStringBit sz asz l o) := by
  cases l with
  | reg r => exact calm_bind (calm_readLoc _ _) fun _ => calm_bind calm_freeBit fun _ => calm_pure _
  | mem sr off => exact calm_bind (calm_memRead _ _ _) fun _ => calm_pure _

theorem calm_writeStringBit (sz asz : Size) (l : Loc) (o : Int) (b : Bool) : Calm (writeStringBit sz asz l o b) := by
  cases l with
  | reg r => exact calm_bind (calm_readLoc _ _) fun _ => calm_writeReg _ _ _
  | mem sr off => exact calm_bind (calm_readToUpdate _ _) fun _ => calm_memWrite _ _ _ _

theorem calm_extractString (sz asz : Size) (l : Loc) (o : Int) (n : Nat) : Calm (extractString sz asz l o n) := by
  induction n generalizing o with
  | zero => exact calm_pure _
  | succ n ih => exact calm_bind (calm_readStringBit _ _ _ _) fun _ => calm_bind (ih _) fun _ => calm_pure _

theorem calm_insertString (sz asz : Size) (l : Loc) (v : Dword) (i : Nat) (o : Int) (n : Nat) :
    Calm (insertString sz asz l v i o n) := by
  induction n generalizing i o with
  | zero => exact calm_pure _
  | succ n ih => exact calm_bind calm_freeBit fun _ => calm_bind (calm_writeStringBit _ _ _ _ _) fun _ => ih _ _

/-! Strings (43_string.md). -/

theorem calmRel_advance {s t : State} (h : CalmRel s t) (sz : Size) (r : Reg) : CalmRel s (t.advance sz r) :=
  calmRel_setReg h _ _ _

theorem calm_advanceBoth (sz : Size) : Calm (advanceBoth sz) :=
  calm_modify fun s => calmRel_advance (calmRel_advance (.refl s) _ _) _ _

theorem calm_cmpsElement (sz : Size) : Calm (cmpsElement sz) :=
  calm_bind calm_get fun _ => calm_bind (calm_memRead _ _ _) fun _ => calm_bind (calm_memRead _ _ _) fun _ =>
    calm_bind (calm_modifyFlags fun _ hv => hv) fun _ => calm_advanceBoth _

theorem calm_storeFrom (sr : SReg) (off : Dword) (n : Nat) {src : M (List Byte)} (h : Calm src) :
    Calm (storeFrom sr off n src) :=
  calm_bind (calm_segCheck _ _ _ _) fun _ => calm_bind calm_get fun _ => calm_bind (calm_physRange _ _ _ _) fun _ =>
    calm_bind h fun _ => calm_bind (calm_noteAccess _ _ _) fun _ => calm_writePhys _ _

theorem calm_insElement (sz : Size) : Calm (insElement sz) :=
  calm_bind calm_get fun _ => calm_bind (calm_checkIo _ _) fun _ =>
    calm_bind (calm_storeFrom _ _ _ (calm_bind (calm_ioRead _ _) fun _ => calm_pure _)) fun _ =>
      calm_modify fun s => calmRel_advance (.refl s) _ _

theorem calm_lodsElement (sz : Size) : Calm (lodsElement sz) :=
  calm_bind calm_get fun _ => calm_bind (calm_memRead _ _ _) fun _ =>
    calm_modify fun s => calmRel_advance (calmRel_setReg (.refl s) _ _ _) _ _

theorem calm_movsElement (sz : Size) : Calm (movsElement sz) :=
  calm_bind calm_get fun _ => calm_bind (calm_memRead _ _ _) fun _ => calm_bind (calm_memWrite _ _ _ _) fun _ =>
    calm_advanceBoth _

theorem calm_outsElement (sz : Size) : Calm (outsElement sz) :=
  calm_bind calm_get fun _ => calm_bind (calm_checkIo _ _) fun _ => calm_bind (calm_memRead _ _ _) fun _ =>
    calm_bind (calm_ioWrite _ _ _) fun _ => calm_modify fun s => calmRel_advance (.refl s) _ _

theorem calm_scasElement (sz : Size) : Calm (scasElement sz) :=
  calm_bind calm_get fun _ => calm_bind (calm_memRead _ _ _) fun _ =>
    calm_modify fun s => calmRel_advance (calmRel_setFlags (f := s.eflags.afterSub _ _ _ _) (.refl s) fun hv => hv) _ _

theorem calm_stosElement (sz : Size) : Calm (stosElement sz) :=
  calm_bind calm_get fun _ => calm_bind (calm_memWrite _ _ _ _) fun _ => calm_modify fun s => calmRel_advance (.refl s) _ _

theorem calm_iteration (stop : Eflags → Bool) {element : M Unit} (h : Calm element) : Calm (iteration stop element) :=
  calm_bind calm_get fun _ => calm_ite (calm_pure _) (calm_bind h fun _ => calm_bind (calm_writeReg _ _ _) fun _ =>
    calm_bind calm_get fun _ => calm_pure _)

/-! Near transfers, ENTER (45_control_transfer.md). -/

theorem calm_jumpNear (v : Dword) : Calm (jumpNear v) :=
  calm_bind (calm_nearTarget _) fun _ => calm_modify fun s => calmRel_jumpTo (.refl s) _

theorem calm_callNear (v : Dword) : Calm (callNear v) :=
  calm_bind (calm_nearTarget _) fun _ => calm_bind calm_get fun _ => calm_bind (calm_push _ _) fun _ =>
    calm_modify fun s => calmRel_jumpTo (.refl s) _

theorem calm_returnNear (n : Word) : Calm (returnNear n) :=
  calm_bind calm_get fun _ => calm_bind (calm_pop _) fun _ => calm_bind (calm_nearTarget _) fun _ =>
    calm_modify fun s => calmRel_jumpTo (calmRel_setSp (.refl s) _) _

theorem calm_jumpIf (b : Bool) (v : Dword) : Calm (jumpIf b v) := calm_ite (calm_jumpNear _) (calm_pure _)

theorem calm_loopOn (b : Bool) (v : Dword) : Calm (loopOn b v) :=
  calm_bind calm_get fun _ => calm_bind (calm_writeReg _ _ _) fun _ => calm_jumpIf _ _

theorem calm_setByte (b : Bool) (rm : RM) : Calm (setByte b rm) :=
  calm_bind (calm_resolve _) fun _ => calm_writeLoc _ _ _

theorem calm_copyFrames (sz : Size) (n : Nat) : Calm (copyFrames sz n) := by
  induction n with
  | zero => exact calm_pure _
  | succ n ih =>
    exact calm_bind calm_get fun _ => calm_bind (calm_memRead _ _ _) fun _ => calm_bind (calm_push _ _) fun _ =>
      calm_bind (calm_writeReg _ _ _) fun _ => ih

theorem calm_enterFrame (size : Word) (level : Nat) : Calm (enterFrame size level) := by
  unfold enterFrame
  refine calm_bind calm_get fun s => calm_bind (calm_push _ _) fun _ => calm_bind calm_get fun t => ?_
  have hlast : Calm (do writeReg s.osz .ebp t.sp; modify fun s => s.setSp (s.spPlus (-(size.setWidth 32)))) :=
    calm_bind (calm_writeReg _ _ _) fun _ => calm_modify fun s => calmRel_setSp (.refl s) _
  simp only
  split
  · exact hlast
  · exact calm_bind (calm_copyFrames _ _) fun _ => calm_bind (calm_push _ _) fun _ => hlast

/-! Processor and protection control (47_processor_control.md, 48_protection_control.md). -/

theorem calm_withReserved (mask v : Dword) : Calm (withReserved mask v) :=
  calm_bind calm_freeDword fun _ => calm_pure _

theorem calm_moveTo {write : State → State} (h : ∀ s, CalmRel s (write s)) : Calm (moveTo write) :=
  calm_bind calm_checkCpl0 fun _ => calm_bind (calm_modify h) fun _ => calm_undefinedFlags

theorem calm_moveFrom (reg : Reg) (mask : Dword) (value : State → Dword) : Calm (moveFrom reg mask value) :=
  calm_bind calm_checkCpl0 fun _ => calm_bind calm_get fun _ => calm_bind (calm_withReserved _ _) fun _ =>
    calm_bind (calm_writeReg _ _ _) fun _ => calm_undefinedFlags

theorem calm_checkDetect : Calm checkDetect := calm_bind calm_get fun _ => calm_raiseIf (by simp)

theorem calm_moveToDebug {write : State → State} (h : ∀ s, CalmRel s (write s)) : Calm (moveToDebug write) :=
  calm_bind calm_checkDetect fun _ => calm_moveTo h

theorem calm_moveFromDebug (reg : Reg) (mask : Dword) (value : State → Dword) : Calm (moveFromDebug reg mask value) :=
  calm_bind calm_checkDetect fun _ => calm_moveFrom _ _ _

/-- The prefetch queue is no part of the invariant. -/
theorem calmRel_queueSince {s t : State} (old : State) (h : CalmRel s t) : CalmRel s (t.queueSince old) := by
  unfold State.queueSince
  split
  · exact h
  · exact h.trans ⟨rfl, rfl, id, id, id, id, id⟩

/-- A value cut to a mask has nothing outside it. -/
theorem and_and_not_self (v m : Dword) : v &&& m &&& ~~~m = 0 := by
  rw [BitVec.and_assoc, BitVec.and_not_self]; simp

theorem and_masked {v m : Dword} (w : Dword) (h : v &&& m = 0) : v &&& w &&& m = 0 := by
  rw [BitVec.and_assoc, BitVec.and_comm w m, ← BitVec.and_assoc, h]; simp

theorem calmRel_setDr6 (s : State) (v : Dword) : CalmRel s (s.setDr6 v) :=
  ⟨rfl, rfl, id, id, fun _ => and_and_not_self _ _, id, id⟩

theorem calmRel_setDr7 (s : State) (v : Dword) : CalmRel s (s.setDr7 v) :=
  ⟨rfl, rfl, id, id, id, fun _ => and_and_not_self _ _, id⟩

theorem calm_waitReady : Calm waitReady :=
  calm_bind calm_get fun _ => calm_bind (calm_raiseIf (by simp)) fun _ => calm_ite (calm_pure _)
    (calm_bind (calm_raiseIf (by simp)) fun _ => calm_pure _)

theorem calm_checkProtected : Calm checkProtected := calm_bind calm_get fun _ => calm_raiseIf (by simp)

theorem calm_setZf (b : Bool) : Calm (setZf b) := calm_modifyFlags fun _ hv => hv

theorem calm_probe (sel : Word) : Calm (probe sel) :=
  calm_bind calm_get fun _ => calm_ite (calm_pure _) (calm_bind (calm_readDescriptorAt _) fun _ => calm_pure _)

theorem calm_examine (rm : RM) (ok : State → Word → Descriptor → Bool) {use : Descriptor → M Unit}
    (h : ∀ d, Calm (use d)) : Calm (examine rm ok use) := by
  refine calm_bind calm_checkProtected fun _ => calm_bind (calm_readRm _ _) fun v => calm_bind (calm_probe _) fun found =>
    calm_bind calm_get fun s => ?_
  cases found with
  | none => exact calm_setZf _
  | some d => exact calm_ite (calm_bind (h d) fun _ => calm_setZf _) (calm_setZf _)

theorem calm_readTableReg (m : MemOp) : Calm (readTableReg m) :=
  calm_bind (calm_effectiveAddress _) fun _ => calm_bind (calm_segCheck _ _ _ _) fun _ =>
    calm_bind (calm_memRead _ _ _) fun _ => calm_bind (calm_memRead _ _ _) fun _ => calm_bind calm_get fun _ => calm_pure _

theorem calm_storeTableReg (m : MemOp) (t : TableReg) : Calm (storeTableReg m t) :=
  calm_bind (calm_effectiveAddress _) fun _ => calm_bind (calm_segCheck _ _ _ _) fun _ =>
    calm_bind calm_freeDword fun _ => calm_bind calm_get fun _ => calm_bind (calm_physRange _ _ _ _) fun _ =>
      calm_bind (calm_noteAccess _ _ _) fun _ => calm_bind (calm_writePhys _ _) fun _ => calm_writePhys _ _

theorem calm_systemDescriptor (sel : Word) (ok : Descriptor → Bool) : Calm (systemDescriptor sel ok) :=
  calm_bind (calm_raiseIf (by simp)) fun _ => calm_bind (calm_readDescriptor (by simp)) fun _ =>
    calm_bind (calm_raiseIf (by simp)) fun _ => calm_bind (calm_raiseIf (by simp)) fun _ => calm_pure _

/-! ESC (47_processor_control.md R610). -/

theorem calm_checkEscOperand (l : Loc) (r : CopRequest) : Calm (checkEscOperand l r) := by
  cases l with
  | reg _ => exact calm_pure _
  | mem sr off => exact calm_bind calm_get fun _ => calm_segCheck _ _ _ _

theorem calm_checkEscPage (l : Loc) (r : CopRequest) : Calm (checkEscPage l r) := by
  cases l with
  | reg _ => exact calm_pure _
  | mem sr off =>
    exact calm_bind calm_get fun _ => calm_ite (calm_pure _) (calm_bind (calm_physRange _ _ _ _) fun _ => calm_pure _)

theorem calm_transferAll (r : CopRequest) (o : CopOperand) : Calm (transferAll r o) :=
  calm_bind calm_get fun _ => calm_ite (calm_pure _) (calm_bind (calm_transferUnit _ _ _ _) fun _ =>
    calm_overrunning (calm_transferRest _ _ _ _ _))

theorem calm_serveTransfers (op : Word) (r : CopRequest) : Calm (serveTransfers op r) := by
  unfold serveTransfers
  refine calm_bind calm_get fun s => ?_
  split
  · exact calm_transferAll _ _
  · exact calm_ite (calm_bind (calm_readCop _ _ _) fun _ => calm_writeReg _ _ _) (calm_pure _)

theorem calm_serveOrHang (hangs : Bool) (op : Word) (r : CopRequest) : Calm (serveOrHang hangs op r) :=
  calm_bind calm_get fun _ => calm_ite (calm_stopFault _) (calm_serveTransfers _ _)

theorem calm_escape (ttt lll : BitVec 3) (rm : RM) : Calm (escape ttt lll rm) :=
  calm_bind calm_get fun _ => calm_bind (calm_raiseIf (by simp)) fun _ => calm_bind (calm_resolve _) fun _ =>
    calm_bind (calm_checkEscOperand _ _) fun _ => calm_bind (calm_checkEscPage _ _) fun _ =>
      calm_ite (calm_pure _) (calm_bind (calm_raiseIf (by simp)) fun _ =>
        calm_bind (calm_modify fun _ => ⟨rfl, rfl, id, id, id, id, id⟩) fun _ =>
          calm_bind (calm_serveOrHang _ _ _) fun _ => calm_pure _)

end Sys2Proof.Machine
end

section
/-! What keeps an invariant where VM may be set: task switches and IRET, for which PE = 1 too is carried along. -/

namespace Sys2Proof.Machine

variable {α β : Type} {P : State → Prop}

/-- `P` holds of the state that a computation leaves, and of that in which it is cut short. -/
def KeptBy (P : State → Prop) : EStateM.Result Stop State α → Prop
  | .ok _ t => P t
  | .error e t => P t ∧ e.ok

/-- A computation begun where `P` holds keeps it. -/
def Keeps (P : State → Prop) (m : M α) : Prop := ∀ s, P s → KeptBy P (m s)

/-- What calm operations keep. -/
def Closed (P : State → Prop) : Prop := ∀ s t, CalmRel s t → P s → P t

/-- The invariant, with PE = 1, so that VM may be set. -/
def State.InvPe (s : State) : Prop := s.Inv ∧ s.cr0.pe = true

theorem closed_inv : Closed State.Inv := fun _ _ h i => h.inv i

theorem closed_invPe : Closed State.InvPe := fun _ _ h i => ⟨h.inv i.1, by rw [h.pe]; exact i.2⟩

theorem KeptBy.mono {Q : State → Prop} {r : EStateM.Result Stop State α} (h : KeptBy P r) (hpq : ∀ s, P s → Q s) :
    KeptBy Q r := by
  cases r with
  | ok a t => exact hpq t h
  | error e t => exact ⟨hpq t h.1, h.2⟩

theorem Calm.keeps {m : M α} (h : Calm m) (hP : Closed P) : Keeps P m := by
  intro s hs
  have hm := h s
  cases he : m s with
  | ok a t => rw [he] at hm; exact hP s t hm hs
  | error e t => rw [he] at hm; exact ⟨hP s t hm.1 hs, hm.2⟩

theorem Calm.pe {m : M α} (h : Calm m) : Keeps State.InvPe m := h.keeps closed_invPe

theorem Calm.inv {m : M α} (h : Calm m) : Keeps State.Inv m := h.keeps closed_inv

theorem keeps_bind {x : M α} {f : α → M β} (hx : Keeps P x) (hf : ∀ a, Keeps P (f a)) : Keeps P (x >>= f) := by
  intro s hs
  have h := hx s hs
  rw [run_bind]
  cases he : x s with
  | ok a t => rw [he] at h; exact hf a t h
  | error e t => rw [he] at h; exact h

/-- What follows `get` begins in the state that it answers. -/
theorem keeps_get_bind {f : State → M β} (h : ∀ s, P s → KeptBy P (f s s)) : Keeps P (get >>= f) := by
  intro s hs
  rw [run_bind_ok (run_get s)]
  exact h s hs

theorem keeps_pure (a : α) : Keeps P (pure a : M α) := fun _ h => h

theorem keeps_get : Keeps P (get : M State) := fun _ h => h

theorem keeps_ite {c : Prop} [Decidable c] {x y : M α} (hx : Keeps P x) (hy : Keeps P y) :
    Keeps P (if c then x else y) := by
  split <;> assumption

theorem keeps_modify {f : State → State} (h : ∀ s, P s → P (f s)) : Keeps P (modify f : M PUnit) := h

/-! Loading a task (60_exceptions.md R721). -/

theorem invPe_setFlags {s : State} (h : s.InvPe) (f : Eflags) : (s.setFlags f).InvPe :=
  ⟨⟨h.1.mem, h.1.dr6, h.1.dr7, h.1.pending, h.1.paging, fun _ => h.2⟩, h.2⟩

theorem calmRel_setCr3 (s : State) (v : Dword) : CalmRel s (s.setCr3 v) := ⟨rfl, rfl, id, id, id, id, id⟩

theorem calmRel_putLdt (s : State) (v : Word) : CalmRel s (s.putLdt v) := ⟨rfl, rfl, id, id, id, id, id⟩

theorem calmRel_putSelector {s t : State} (h : CalmRel s t) (sr : SReg) (v : Word) : CalmRel s (t.putSelector sr v) :=
  calmRel_setSeg h _ _

theorem calmRel_startTask (s : State) (ns : Word) (nd : Descriptor) : CalmRel s (s.startTask ns nd) :=
  ⟨rfl, rfl, id, id, id, id, id⟩

theorem calmRel_nestTask (s : State) (kind : TaskKind) : CalmRel s (s.nestTask kind) := by
  unfold State.nestTask
  split
  · exact calmRel_setFlags (.refl s) fun hv => hv
  · exact .refl s

theorem calmRel_loadTask8086 (s : State) : CalmRel s s.loadTask8086 :=
  CalmRel.trans (calmRel_load8086 (calmRel_load8086 (calmRel_load8086 (calmRel_load8086 (calmRel_load8086
    (calmRel_load8086 (.refl s) .es _) .cs _) .ss _) .ds _) .fs _) .gs _) ⟨rfl, rfl, id, id, id, id, id⟩

theorem calmRel_noteTask (s : State) (trap : Bool) : CalmRel s (s.noteTask trap) :=
  ⟨rfl, rfl, id, id, id, fun h => and_masked _ h, fun h => or_masked h (by cases trap <;> decide)⟩

theorem calm_writeFields (base : Dword) (fs : List (Nat × Size × Dword)) : Calm (writeFields base fs) := by
  induction fs with
  | nil => exact calm_pure _
  | cons f fs ih => exact calm_bind (calm_sysWrite _ _ _) fun _ => ih

theorem keeps_loadField (base : Dword) (off : Nat) (sz : Size) {put : State → Dword → State}
    (h : ∀ s v, P s → P (put s v)) (hP : Closed P) : Keeps P (loadField base off sz put) :=
  keeps_bind ((calm_sysRead _ _).keeps hP) fun v => keeps_modify fun s => h s v

theorem calm_loadField (base : Dword) (off : Nat) (sz : Size) {put : State → Dword → State}
    (h : ∀ s v, CalmRel s (put s v)) : Calm (loadField base off sz put) :=
  calm_bind (calm_sysRead _ _) fun v => calm_modify fun s => h s v

theorem calm_loadRegs386 (base : Dword) (rs : List (Nat × Reg)) : Calm (loadRegs386 base rs) := by
  induction rs with
  | nil => exact calm_pure _
  | cons r rs ih => exact calm_bind (calm_loadField _ _ _ fun s _ => calmRel_setReg (.refl s) _ _ _) fun _ => ih

theorem calm_loadRegs286 (base : Dword) (rs : List (Nat × Reg)) : Calm (loadRegs286 base rs) := by
  induction rs with
  | nil => exact calm_pure _
  | cons r rs ih =>
    exact calm_bind calm_freeDword fun _ =>
      calm_bind (calm_loadField _ _ _ fun s _ => calmRel_setReg (.refl s) _ _ _) fun _ => ih

theorem calm_loadSelectors (base : Dword) (rs : List (Nat × SReg)) : Calm (loadSelectors base rs) := by
  induction rs with
  | nil => exact calm_pure _
  | cons r rs ih => exact calm_bind (calm_loadField _ _ _ fun s _ => calmRel_putSelector (.refl s) _ _) fun _ => ih

/-- The care for the entry EIP changes nothing that a calm operation does not. -/
theorem keeps_beforeEntry (l : Dword) (sz : Size) {m : M Unit} (h : Keeps P m) (hP : Closed P) :
    Keeps P (beforeEntry l sz m) := by
  intro s hs
  have hm := h s hs
  rcases beforeEntry_cases l sz m s with ⟨t, he, hb⟩ | ⟨e, k, t, he, hb⟩ | ⟨e, t, -, he, hb⟩
  · rw [he] at hm; rw [hb]; exact hm
  · rw [he] at hm; rw [hb]
    exact ⟨hP t _ ⟨rfl, rfl, id, id, id, id, id⟩ hm.1, hm.2⟩
  · rw [he] at hm; rw [hb]; exact hm

theorem keeps_loadImage386 (base : Dword) : Keeps State.InvPe (loadImage386 base) := by
  have hentry : Keeps State.InvPe (do
      loadField base 0x60 .b16 fun s v => s.putLdt (v.setWidth 16)
      loadField base 0x24 .b32 fun s v => s.setFlags (Eflags.ofWord v)
      loadField base 0x20 .b32 State.jumpTo) :=
    keeps_bind (calm_loadField _ _ _ fun s _ => calmRel_putLdt s _).pe fun _ =>
      keeps_bind (keeps_loadField _ _ _ (fun _ _ h => invPe_setFlags h _) closed_invPe) fun _ =>
        (calm_loadField _ _ _ fun s _ => calmRel_jumpTo (.refl s) _).pe
  refine keeps_bind keeps_get fun s => keeps_bind (keeps_beforeEntry _ _ ?_ closed_invPe) fun _ =>
    keeps_bind (calm_loadRegs386 _ _).pe fun _ => (calm_loadSelectors _ _).pe
  split
  · exact keeps_bind (calm_loadField _ _ _ calmRel_setCr3).pe fun _ => hentry
  · exact hentry

theorem keeps_loadImage286 (base : Dword) : Keeps State.InvPe (loadImage286 base) :=
  keeps_bind (keeps_beforeEntry _ _
    (keeps_bind (calm_loadField _ _ _ fun s _ => calmRel_putLdt s _).pe fun _ =>
      keeps_bind (keeps_loadField _ _ _ (fun _ _ h => invPe_setFlags h _) closed_invPe) fun _ =>
        (calm_loadField _ _ _ fun s _ => calmRel_jumpTo (.refl s) _).pe) closed_invPe) fun _ =>
    keeps_bind (calm_loadRegs286 _ _).pe fun _ => keeps_bind (calm_loadSelectors _ _).pe fun _ =>
      (calm_modify fun s => calmRel_putSelector (calmRel_putSelector (.refl s) _ _) _ _).pe

theorem calm_loadTaskLdt (sel : Word) (ext : Bool) : Calm (loadTaskLdt sel ext) :=
  calm_ite (calm_pure _) (calm_bind (calm_raiseIf (by simp)) fun _ => calm_bind (calm_readDescriptor (by simp)) fun _ =>
    calm_bind (calm_raiseIf (by simp)) fun _ => calm_modify fun _ => ⟨rfl, rfl, id, id, id, id, id⟩)

theorem calm_loadTaskData (cpl : BitVec 2) (sr : SReg) (sel : Word) (ext : Bool) : Calm (loadTaskData cpl sr sel ext) :=
  calm_ite (calm_pure _) (calm_bind (calm_loadDataSegment (by simp) (by simp)) fun _ =>
    calm_bind (calm_setAccessed _ _) fun _ => calm_setSegReg _ _)

theorem calm_loadTaskSegments (ext : Bool) : Calm (loadTaskSegments ext) :=
  calm_bind calm_get fun _ => calm_bind (calm_raiseIf (by simp)) fun _ => calm_bind (calm_readDescriptor (by simp)) fun _ =>
    calm_bind (calm_raiseIf (by simp)) fun _ => calm_bind (calm_raiseIf (by simp)) fun _ =>
    calm_bind (calm_raiseIf (by simp)) fun _ => calm_bind (calm_setAccessed _ _) fun _ =>
    calm_bind (calm_setSegReg _ _) fun _ => calm_bind (calm_setCpl _) fun _ =>
    calm_bind (calm_loadStackSegment (by simp) (by simp) (by simp)) fun _ => calm_bind (calm_setAccessed _ _) fun _ =>
    calm_bind (calm_setSegReg _ _) fun _ => calm_bind (calm_loadTaskData _ _ _ _) fun _ =>
    calm_bind (calm_loadTaskData _ _ _ _) fun _ => calm_bind (calm_loadTaskData _ _ _ _) fun _ => calm_loadTaskData _ _ _ _

theorem calm_noteTrap (nd : Descriptor) : Calm (noteTrap nd) :=
  calm_ite (calm_loadField _ _ _ fun s _ => calmRel_noteTask s _) (calm_modify fun s => calmRel_noteTask s _)

theorem keeps_enterTask (kind : TaskKind) (ns : Word) (nd : Descriptor) (ext : Bool) :
    Keeps State.InvPe (enterTask kind ns nd ext) := by
  have hrest : Calm (do
      noteTrap nd
      let s ← get
      raiseIf (decide (s.cs.limit.toNat < s.eip.toNat)) (Exn.gp 0)) :=
    calm_bind (calm_noteTrap _) fun _ => calm_bind calm_get fun _ => calm_raiseIf (by simp)
  have hload : Keeps State.InvPe (do
      modify fun s => s.nestTask kind
      let s ← get
      loadTaskLdt s.ldtr.selector ext
      if s.eflags.vm then modify fun s => s.loadTask8086 else loadTaskSegments ext
      noteTrap nd
      let s ← get
      raiseIf (decide (s.cs.limit.toNat < s.eip.toNat)) (Exn.gp 0)) := by
    refine keeps_bind (calm_modify fun s => calmRel_nestTask s _).pe fun _ => keeps_bind keeps_get fun s =>
      keeps_bind (calm_loadTaskLdt _ _).pe fun _ => ?_
    split
    · exact keeps_bind (calm_modify calmRel_loadTask8086).pe fun _ => hrest.pe
    · exact keeps_bind (calm_loadTaskSegments _).pe fun _ => hrest.pe
  refine keeps_bind (calm_modify fun s => calmRel_startTask s _ _).pe fun _ => ?_
  split
  · exact keeps_bind (keeps_loadImage386 _) fun _ => hload
  · exact keeps_bind (keeps_loadImage286 _) fun _ => hload

theorem calm_leaveTask (kind : TaskKind) (ns : Word) (nd : Descriptor) (saveEip : Dword) (ext : Bool) :
    Calm (leaveTask kind ns nd saveEip ext) := by
  have hlast : Calm (if kind = .iret then pure () else writeBusy ns nd true) := calm_ite (calm_pure _) (calm_writeBusy _ _ _)
  have hlink (s : State) : Calm (do
      if kind.nests then sysWrite nd.base .b16 (selValue s.tr.selector) else pure ()
      if kind = .iret then pure () else writeBusy ns nd true) :=
    calm_ite (calm_bind (calm_sysWrite _ _ _) fun _ => hlast) hlast
  exact calm_bind calm_get fun s => calm_bind (calm_raiseIf (by simp)) fun _ => calm_bind (calm_raiseIf (by simp)) fun _ =>
    calm_bind (calm_writeFields _ _) fun _ => calm_ite
      (calm_bind (calm_readDescriptorAt _) fun _ => calm_bind (calm_writeBusy _ _ _) fun _ => hlink s) (hlink s)

theorem keeps_committed {m : M α} (h : Keeps P m) : Keeps P (committed m) := by
  intro s hs
  have hm := h s hs
  unfold committed
  split
  · next he => rw [he] at hm; exact hm
  · next he => rw [he] at hm; exact hm
  · next he => rw [he] at hm; exact hm

theorem keeps_taskSwitch (kind : TaskKind) (ns : Word) (nd : Descriptor) (saveEip : Dword) (ext : Bool) :
    Keeps State.InvPe (taskSwitch kind ns nd saveEip ext) :=
  keeps_bind (calm_leaveTask _ _ _ _ _).pe fun _ => keeps_committed (keeps_enterTask _ _ _ _)

/-! Far transfers (45_control_transfer.md R481 to R504). -/

theorem calm_pushReturn (kind : TaskKind) (sz : Size) : Calm (pushReturn kind sz) :=
  calm_bind calm_get fun _ => calm_ite (calm_spoiling (calm_pushAll _ _)) (calm_pure _)

theorem calm_farReal (kind : TaskKind) (sel : Word) (off : Dword) : Calm (farReal kind sel off) :=
  calm_bind calm_get fun _ => calm_bind (calm_raiseIf (by simp)) fun _ => calm_bind (calm_pushReturn _ _) fun _ =>
    calm_modify fun s => calmRel_jumpTo (calmRel_load8086 (.refl s) _ _) _

theorem calm_farCode (kind : TaskKind) (sel : Word) (d : Descriptor) (off : Dword) : Calm (farCode kind sel d off) :=
  calm_bind calm_get fun _ => calm_bind (calm_raiseIf (by simp)) fun _ => calm_bind (calm_raiseIf (by simp)) fun _ =>
    calm_bind (calm_raiseIf (by simp)) fun _ => calm_bind (calm_pushReturn _ _) fun _ =>
    calm_bind (calm_setAccessed _ _) fun _ => calm_setCodeSegment _ _

theorem calm_copyParams (old : State) (sz : Size) (n : Nat) : Calm (copyParams old sz n) := by
  induction n with
  | zero => exact calm_pure _
  | succ n ih =>
    exact calm_bind (calm_bind (calm_raiseIf (by simp)) fun _ => calm_bind (calm_readLinear _ _ _) fun _ => calm_pure _)
      fun _ => calm_bind (calm_push _ _) fun _ => ih

theorem calm_pushCallFrame (old : State) (sz : Size) (n : Nat) : Calm (pushCallFrame old sz n) :=
  calm_bind (calm_push _ _) fun _ => calm_bind (calm_push _ _) fun _ => calm_bind (calm_copyParams _ _ _) fun _ =>
    calm_bind (calm_push _ _) fun _ => calm_push _ _

theorem calm_callInner (g : Descriptor) (tsel : Word) (t : Descriptor) : Calm (callInner g tsel t) :=
  calm_bind calm_get fun _ => calm_bind (calm_innerStack _ _) fun _ => calm_bind (calm_raiseIf (by simp)) fun _ =>
    calm_bind (calm_raiseIf (by simp)) fun _ => calm_bind (calm_switchStack _ _ _) fun _ =>
    calm_bind (calm_spoiling (calm_bind (calm_setAccessed _ _) fun _ => calm_pushCallFrame _ _ _)) fun _ =>
    calm_bind (calm_setAccessed _ _) fun _ => calm_bind (calm_setCpl _) fun _ => calm_setCodeSegment _ _

theorem calm_farGate (kind : TaskKind) (sel : Word) (g : Descriptor) : Calm (farGate kind sel g) :=
  calm_bind calm_get fun _ => calm_bind (calm_raiseIf (by simp)) fun _ => calm_bind (calm_raiseIf (by simp)) fun _ =>
    calm_bind (calm_raiseIf (by simp)) fun _ => calm_bind (calm_readDescriptor (by simp)) fun _ =>
    calm_bind (calm_raiseIf (by simp)) fun _ => calm_bind (calm_raiseIf (by simp)) fun _ =>
    calm_bind (calm_raiseIf (by simp)) fun _ => calm_bind (calm_raiseIf (by simp)) fun _ =>
    calm_ite (calm_callInner _ _ _) (calm_bind (calm_raiseIf (by simp)) fun _ => calm_bind (calm_pushReturn _ _) fun _ =>
      calm_bind (calm_setAccessed _ _) fun _ => calm_setCodeSegment _ _)

theorem keeps_farTss (kind : TaskKind) (sel : Word) (d : Descriptor) : Keeps State.InvPe (farTss kind sel d) :=
  keeps_bind keeps_get fun _ => keeps_bind (calm_raiseIf (by simp)).pe fun _ =>
    keeps_bind (calm_raiseIf (by simp)).pe fun _ => keeps_taskSwitch _ _ _ _ _

theorem keeps_farTaskGate (kind : TaskKind) (sel : Word) (g : Descriptor) :
    Keeps State.InvPe (farTaskGate kind sel g) :=
  keeps_bind keeps_get fun _ => keeps_bind (calm_raiseIf (by simp)).pe fun _ =>
    keeps_bind (calm_raiseIf (by simp)).pe fun _ => keeps_bind (calm_raiseIf (by simp)).pe fun _ =>
    keeps_bind (calm_readDescriptor (by simp)).pe fun _ => keeps_bind (calm_raiseIf (by simp)).pe fun _ =>
    keeps_bind (calm_raiseIf (by simp)).pe fun _ => keeps_taskSwitch _ _ _ _ _

theorem keeps_farProtected (kind : TaskKind) (sel : Word) (off : Dword) :
    Keeps State.InvPe (farProtected kind sel off) :=
  keeps_bind (calm_raiseIf (by simp)).pe fun _ => keeps_bind (calm_readDescriptor (by simp)).pe fun _ =>
    keeps_ite (keeps_bind (calm_farCode _ _ _ _).pe fun _ => keeps_pure _)
      (keeps_ite (keeps_bind (calm_farGate _ _ _).pe fun _ => keeps_pure _)
        (keeps_ite (keeps_bind (keeps_farTaskGate _ _ _) fun _ => keeps_pure _)
          (keeps_ite (keeps_bind (keeps_farTss _ _ _) fun _ => keeps_pure _) (calm_raise (by simp)).pe)))

/-- In Protected Mode PE is 1. -/
theorem State.Inv.pe {s : State} (h : s.Inv) (hm : s.protectedMode = true) : s.InvPe := by
  unfold State.protectedMode at hm
  rw [Bool.and_eq_true] at hm
  exact ⟨h, hm.1⟩

theorem keeps_farTransfer (kind : TaskKind) (sel : Word) (off : Dword) : Keeps State.Inv (farTransfer kind sel off) := by
  refine keeps_get_bind fun s hs => ?_
  split
  case isTrue hm => exact (keeps_farProtected kind sel off s (hs.pe hm)).mono fun _ h => h.1
  case isFalse => exact (calm_bind (calm_farReal _ _ _) fun _ => calm_pure _).inv s hs

theorem calmRel_dropSeg {s t : State} (h : CalmRel s t) (cpl : BitVec 2) (sr : SReg) : CalmRel s (t.dropSeg cpl sr) := by
  unfold State.dropSeg
  split
  · exact calmRel_loadNull h _ _
  · exact h

theorem calmRel_dropInner (s : State) (cpl : BitVec 2) : CalmRel s (s.dropInner cpl) :=
  calmRel_dropSeg (calmRel_dropSeg (calmRel_dropSeg (calmRel_dropSeg (.refl s) _ _) _ _) _ _) _ _

theorem calm_returnSegment (sel : Word) : Calm (returnSegment sel) :=
  calm_bind calm_get fun _ => calm_bind (calm_raiseIf (by simp)) fun _ => calm_bind (calm_readDescriptor (by simp)) fun _ =>
    calm_bind (calm_raiseIf (by simp)) fun _ => calm_bind (calm_raiseIf (by simp)) fun _ =>
    calm_bind (calm_raiseIf (by simp)) fun _ => calm_pure _

theorem calm_returnStack (level : BitVec 2) (sel : Word) : Calm (returnStack level sel) :=
  calm_loadStackSegment (by simp) (by simp) (by simp)

theorem calm_retfReal (n : Word) : Calm (retfReal n) :=
  calm_bind calm_get fun _ => calm_bind (calm_pop _) fun _ => calm_bind (calm_pop _) fun _ =>
    calm_bind (calm_raiseIf (by simp)) fun _ =>
    calm_modify fun s => calmRel_setSp (calmRel_jumpTo (calmRel_load8086 (.refl s) _ _) _) _

theorem calm_retfProtected (n : Word) : Calm (retfProtected n) :=
  calm_bind calm_get fun _ => calm_bind (calm_checkStackTop _) fun _ => calm_bind (calm_stackAt _ _) fun _ =>
    calm_bind (calm_stackAt _ _) fun _ => calm_bind (calm_returnSegment _) fun _ => calm_ite
      (calm_bind (calm_raiseIf (by simp)) fun _ => calm_bind (calm_setAccessed _ _) fun _ =>
        calm_bind (calm_modify fun s => calmRel_setSp (.refl s) _) fun _ => calm_setCodeSegment _ _)
      (calm_bind (calm_checkStackTop _) fun _ => calm_bind (calm_stackAt _ _) fun _ => calm_bind (calm_stackAt _ _) fun _ =>
        calm_bind (calm_returnStack _ _) fun _ => calm_bind (calm_raiseIf (by simp)) fun _ =>
        calm_bind (calm_setAccessed _ _) fun _ => calm_bind (calm_setAccessed _ _) fun _ =>
        calm_bind (calm_modify fun s => calmRel_setSeg (.refl s) _ _) fun _ =>
        calm_bind (calm_modify fun s => calmRel_setSp (.refl s) _) fun _ => calm_bind (calm_setCpl _) fun _ =>
        calm_bind (calm_setCodeSegment _ _) fun _ => calm_modify fun s => calmRel_dropInner s _)

theorem calm_returnFar (n : Word) : Calm (returnFar n) :=
  calm_bind calm_get fun _ => calm_ite (calm_retfProtected _) (calm_retfReal _)

/-! Returning from an interrupt or exception (60_exceptions.md R685, R686). -/

theorem State.iretFlags_vm (s : State) (image : Dword) (f : Eflags) : (s.iretFlags image f).vm = f.vm := rfl

/-- New flags in which VM is set only if it was at the start. -/
theorem CalmRel.setFlags {s t : State} (h : CalmRel s t) {f : Eflags} (hf : f.vm = true → s.eflags.vm = true) :
    CalmRel s (t.setFlags f) := ⟨h.pe, h.pg, hf, h.mem, h.dr6, h.dr7, h.pending⟩

theorem calm_iret8086 : Calm iret8086 :=
  calm_bind calm_get fun _ => calm_bind (calm_pop _) fun _ => calm_bind (calm_pop _) fun _ => calm_bind (calm_pop _) fun _ =>
    calm_bind (calm_raiseIf (by simp)) fun _ => calm_modify fun s =>
      (calmRel_jumpTo (calmRel_load8086 (.refl s) _ _) _).setFlags fun hv => by rwa [State.iretFlags_vm] at hv

theorem keeps_iretTask : Keeps State.InvPe iretTask :=
  keeps_bind keeps_get fun _ => keeps_bind (calm_tssField _ _ _).pe fun _ => keeps_bind (calm_raiseIf (by simp)).pe fun _ =>
    keeps_bind (calm_readDescriptor (by simp)).pe fun _ => keeps_bind (calm_raiseIf (by simp)).pe fun _ =>
    keeps_bind (calm_raiseIf (by simp)).pe fun _ => keeps_taskSwitch _ _ _ _ _

theorem invPe_enterV86 {s : State} (h : s.InvPe) (f : Eflags) (cpl : BitVec 2) :
    ({ s with eflags := f, cpl := cpl } : State).InvPe :=
  ⟨⟨h.1.mem, h.1.dr6, h.1.dr7, h.1.pending, h.1.paging, fun _ => h.2⟩, h.2⟩

theorem keeps_iretToV86 (ip sel fl : Dword) : Keeps State.InvPe (iretToV86 ip sel fl) :=
  keeps_bind (calm_checkStackTop _).pe fun _ => keeps_bind (calm_stackAt _ _).pe fun _ =>
    keeps_bind (calm_stackAt _ _).pe fun _ => keeps_bind (calm_stackAt _ _).pe fun _ =>
    keeps_bind (calm_stackAt _ _).pe fun _ => keeps_bind (calm_stackAt _ _).pe fun _ =>
    keeps_bind (calm_stackAt _ _).pe fun _ => keeps_modify fun s h =>
      invPe_enterV86 (closed_invPe s _ (calmRel_setReg (calmRel_jumpTo (calmRel_load8086 (calmRel_load8086
        (calmRel_load8086 (calmRel_load8086 (calmRel_load8086 (calmRel_load8086 (.refl s) _ _) _ _) _ _) _ _) _ _) _ _) _)
        _ _ _) h) _ _

theorem calmRel_setOuterStack {s t : State} (h : CalmRel s t) (c : SegReg) (sz : Size) (sp : Dword) :
    CalmRel s (t.setOuterStack c sz sp) := by
  unfold State.setOuterStack
  simp only
  split
  · exact calmRel_setReg (calmRel_setSeg h _ _) _ _ _
  · exact calmRel_setSp (calmRel_setSeg h _ _) _

theorem calm_iretProtected (ip sel fl : Dword) : Calm (iretProtected ip sel fl) :=
  calm_bind calm_get fun _ => calm_bind (calm_returnSegment _) fun _ => calm_ite
    (calm_bind (calm_raiseIf (by simp)) fun _ => calm_bind (calm_setAccessed _ _) fun _ =>
      calm_bind (calm_modify fun s => calmRel_setFlags (calmRel_setSp (.refl s) _) fun hv => hv) fun _ =>
      calm_setCodeSegment _ _)
    (calm_bind (calm_checkStackTop _) fun _ => calm_bind (calm_stackAt _ _) fun _ => calm_bind (calm_stackAt _ _) fun _ =>
      calm_bind (calm_returnStack _ _) fun _ => calm_bind (calm_raiseIf (by simp)) fun _ =>
      calm_bind (calm_setAccessed _ _) fun _ => calm_bind (calm_setAccessed _ _) fun _ =>
      calm_bind (calm_modify fun s => ((calmRel_setOuterStack (.refl s) _ _ _).setFlags
        (f := State.iretFlags _ _ s.eflags) fun hv => by rwa [State.iretFlags_vm] at hv).trans
          ⟨rfl, rfl, id, id, id, id, id⟩) fun _ =>
      calm_bind (calm_setCodeSegment _ _) fun _ => calm_modify fun s => calmRel_dropInner s _)

theorem keeps_returnFromException : Keeps State.Inv returnFromException := by
  have hlast : Calm (modify fun s : State => { s with nmiInService := false } : M PUnit) :=
    calm_modify fun _ => ⟨rfl, rfl, id, id, id, id, id⟩
  have hprotected (s : State) : Keeps State.InvPe (do
      let k := s.osz.bytes
      checkStackTop (3 * k)
      let fl ← stackAt (2 * k) s.osz
      let ip ← stackAt 0 s.osz
      let sel ← stackAt k s.osz
      if s.osz32 && fl.getLsbD 17 && s.currentCpl == 0 then iretToV86 ip sel fl
      else iretProtected ip sel fl
      modify fun s => { s with nmiInService := false }) :=
    keeps_bind (calm_checkStackTop _).pe fun _ => keeps_bind (calm_stackAt _ _).pe fun _ =>
      keeps_bind (calm_stackAt _ _).pe fun _ => keeps_bind (calm_stackAt _ _).pe fun _ => keeps_ite
        (keeps_bind (keeps_iretToV86 _ _ _) fun _ => hlast.pe)
        (keeps_bind (calm_iretProtected _ _ _).pe fun _ => hlast.pe)
  refine keeps_get_bind fun s hs => ?_
  cases hm : s.protectedMode
  case false =>
    simp only [Bool.not_false, if_true]
    exact (calm_bind calm_iret8086 fun _ => hlast).inv s hs
  case true =>
    simp only [Bool.not_true, Bool.false_eq_true, if_false]
    exact (keeps_ite (keeps_bind keeps_iretTask fun _ => hlast.pe) (hprotected s) s (hs.pe hm)).mono fun _ h => h.1

end Sys2Proof.Machine
end

section
/-! O3: delivery, the end of an instruction, fetch and the step keep the invariant. -/

namespace Sys2Proof.Machine

variable {α : Type}

/-! Delivery (60_exceptions.md R665 to R690). -/

theorem calm_errorItem (ev : Event) : Calm (errorItem ev) := by
  unfold errorItem
  split
  · exact calm_pure _
  · exact calm_bind (calm_bind calm_freeDword fun _ => calm_pure _) fun _ => calm_pure _

theorem calm_deliverReal (ev : Event) : Calm (deliverReal ev) :=
  calm_bind calm_get fun _ => calm_bind (calm_raiseIf (by simp)) fun _ =>
    calm_bind (calm_spoiling (calm_pushAll _ _)) fun _ =>
    calm_bind (calm_modify fun _ => ⟨rfl, rfl, id, id, id, id, id⟩) fun _ => calm_bind (calm_sysRead _ _) fun _ =>
    calm_bind (calm_sysRead _ _) fun _ => calm_modify fun s => calmRel_jumpTo (calmRel_load8086 (.refl s) _ _) _

theorem calm_enterGate (g : Descriptor) (tsel : Word) (t : Descriptor) (level : BitVec 2) {loadStack : M Unit}
    (h : Calm loadStack) (items : List Dword) : Calm (enterGate g tsel t level loadStack items) :=
  calm_bind (calm_checkRoom _ _) fun _ => calm_bind (calm_raiseIf (by simp)) fun _ =>
    calm_bind (calm_spoiling (calm_bind h fun _ => calm_pushAll _ _)) fun _ => calm_bind (calm_setAccessed _ _) fun _ =>
    calm_bind (calm_setCodeSegment _ _) fun _ =>
    calm_modify fun _ => ⟨rfl, rfl, fun hv => Bool.noConfusion hv, id, id, id, id⟩

theorem calm_deliverSame (ev : Event) (g : Descriptor) (tsel : Word) (t : Descriptor) : Calm (deliverSame ev g tsel t) :=
  calm_bind calm_get fun _ => calm_bind (calm_errorItem _) fun _ => calm_enterGate _ _ _ _ (calm_pure _) _

theorem calm_deliverInner (ev : Event) (g : Descriptor) (tsel : Word) (t : Descriptor) : Calm (deliverInner ev g tsel t) :=
  calm_bind calm_get fun _ => calm_bind (calm_innerStack _ _) fun _ => calm_bind (calm_errorItem _) fun _ =>
    calm_bind (calm_switchStack _ _ _) fun _ => calm_bind (calm_setCpl _) fun _ =>
    calm_enterGate _ _ _ _ (calm_setAccessed _ _) _

theorem calmRel_dropData (s : State) : CalmRel s s.dropData :=
  calmRel_loadNull (calmRel_loadNull (calmRel_loadNull (calmRel_loadNull (.refl s) _ _) _ _) _ _) _ _

theorem calm_deliverV86 (ev : Event) (g : Descriptor) (tsel : Word) (t : Descriptor) : Calm (deliverV86 ev g tsel t) := by
  have hframe (s : State) : Calm (do
      raiseIf (t.isConforming || t.dpl != 0) (Exn.gp (selCode tsel ev.ext))
      let (sel, sp, d) ← innerStack 0 ev.ext
      let gs ← freeUpper s.gs.selector
      let fs ← freeUpper s.fs.selector
      let ds ← freeUpper s.ds.selector
      let es ← freeUpper s.es.selector
      let ss ← freeUpper s.ss.selector
      let cs ← freeUpper s.cs.selector
      let code ← errorItem ev
      modify State.leaveV86
      switchStack sel sp d
      enterGate g tsel t 0 (setAccessed sel d)
        ([gs, fs, ds, es, ss, s.regs.esp, ev.image s.eflags, cs, ev.savedEip] ++ code)
      modify State.dropData) :=
    calm_bind (calm_raiseIf (by simp)) fun _ => calm_bind (calm_innerStack _ _) fun _ => calm_bind (calm_freeUpper _) fun _ =>
      calm_bind (calm_freeUpper _) fun _ => calm_bind (calm_freeUpper _) fun _ => calm_bind (calm_freeUpper _) fun _ =>
      calm_bind (calm_freeUpper _) fun _ => calm_bind (calm_freeUpper _) fun _ => calm_bind (calm_errorItem _) fun _ =>
      calm_bind (calm_modify fun _ => ⟨rfl, rfl, fun hv => Bool.noConfusion hv, id, id, id, id⟩) fun _ =>
      calm_bind (calm_switchStack _ _ _) fun _ => calm_bind (calm_enterGate _ _ _ _ (calm_setAccessed _ _) _) fun _ =>
      calm_modify calmRel_dropData
  exact calm_bind calm_get fun s => calm_ite (calm_bind (calm_refuse _) fun _ => hframe s) (hframe s)

theorem keeps_deliverTask (ev : Event) (g : Descriptor) : Keeps State.InvPe (deliverTask ev g) := by
  refine keeps_bind (calm_raiseIf (by simp)).pe fun _ => keeps_bind (calm_readDescriptor (by simp)).pe fun nd =>
    keeps_bind (calm_raiseIf (by simp)).pe fun _ => keeps_bind (calm_raiseIf (by simp)).pe fun _ =>
    keeps_bind (keeps_taskSwitch _ _ _ _ _) fun _ => ?_
  split
  · exact keeps_pure _
  · exact keeps_bind (calm_bind calm_freeDword fun _ => calm_pure _).pe fun _ => keeps_committed (calm_push _ _).pe

theorem keeps_deliverProtected (ev : Event) : Keeps State.InvPe (deliverProtected ev) :=
  keeps_bind keeps_get fun _ => keeps_bind (calm_raiseIf (by simp)).pe fun _ =>
    keeps_bind (calm_readDescriptorAt _).pe fun _ => keeps_bind (calm_raiseIf (by simp)).pe fun _ =>
    keeps_bind (calm_raiseIf (by simp)).pe fun _ => keeps_bind (calm_raiseIf (by simp)).pe fun _ =>
    keeps_ite (keeps_deliverTask _ _) (Calm.pe (
      calm_bind (calm_raiseIf (by simp)) fun _ => calm_bind (calm_readDescriptor (by simp)) fun _ =>
      calm_bind (calm_raiseIf (by simp)) fun _ => calm_bind (calm_raiseIf (by simp)) fun _ =>
      calm_bind (calm_raiseIf (by simp)) fun _ => calm_ite (calm_deliverV86 _ _ _ _)
        (calm_ite (calm_deliverInner _ _ _ _) (calm_deliverSame _ _ _ _))))

theorem keeps_deliver (ev : Event) : Keeps State.Inv (deliver ev) := by
  refine keeps_get_bind fun s hs => ?_
  split
  case isTrue hpe => exact (keeps_deliverProtected ev s ⟨hs, hpe⟩).mono fun _ h => h.1
  case isFalse => exact (calm_deliverReal ev).inv s hs

/-! What a step answers. -/

/-- If the machine goes on, it does so in a state where the invariant holds. -/
def LeadsToInv (a : Answer) : Prop := ∀ t, a = .next t → t.Inv

theorem leadsToInv_next {t : State} (h : t.Inv) : LeadsToInv (.next t) := by
  intro u hu; cases hu; exact h

theorem leadsToInv_fault (f : Fault) : LeadsToInv (.fault f) := fun _ h => nomatch h

theorem leadsToInv_refused (r : Refusal) : LeadsToInv (.refused r) := fun _ h => nomatch h

theorem State.Inv.noteException {s : State} (h : s.Inv) {e : Exn} (he : e.ok) : (s.noteException e).Inv := by
  refine ⟨h.mem, or_masked h.dr6 he, ?_, h.pending, h.paging, h.vm⟩
  unfold State.noteException
  simp only
  split
  · exact and_masked _ h.dr7
  · exact h.dr7

/-- What an exception keeps of the instruction that raised it. -/
theorem State.Inv.keptState {s s' : State} (h : s.Inv) (h' : s'.Inv) (k : Keep) : (keptState s s' k).Inv := by
  cases k with
  | nothing => exact ⟨h.mem, h.dr6, h.dr7, h.pending, h.paging, h.vm⟩
  | memory => exact ⟨h'.mem, h.dr6, h.dr7, h.pending, h.paging, h.vm⟩
  | everything => exact ⟨h'.mem, h'.dr6, h'.dr7, h'.pending, h'.paging, h'.vm⟩

theorem State.Inv.enterShutdown {s : State} (h : s.Inv) : s.enterShutdown.Inv :=
  ⟨h.mem, h.dr6, h.dr7, h.pending, h.paging, h.vm⟩

theorem State.Inv.handlerEntered {s : State} (h : s.Inv) : s.handlerEntered.Inv :=
  ⟨h.mem, h.dr6, h.dr7, h.pending, h.paging, h.vm⟩

theorem deliverChain_inv (fuel : Nat) (ev : Event) {s : State} (hs : s.Inv) : LeadsToInv (deliverChain fuel ev s) := by
  induction fuel generalizing ev s with
  | zero => exact leadsToInv_next hs.enterShutdown
  | succ n ih =>
    have hd := keeps_deliver ev s hs
    unfold deliverChain
    split
    next he => rw [he] at hd; exact leadsToInv_next (State.Inv.handlerEntered hd)
    next e keep s' he =>
      rw [he] at hd
      have hbase : ((Machine.keptState s s' keep).noteException e).Inv := (hs.keptState hd.1 keep).noteException hd.2
      simp only
      split
      · exact leadsToInv_next hbase.enterShutdown
      · exact ih _ hbase
    next => exact leadsToInv_fault _
    next => exact leadsToInv_refused _

theorem deliverEvent_inv (ev : Event) {s : State} (hs : s.Inv) : LeadsToInv (deliverEvent ev s) :=
  deliverChain_inv _ _ hs

theorem takeException_inv {e : Exn} (he : e.ok) {s : State} (hs : s.Inv) : LeadsToInv (takeException e s) :=
  deliverEvent_inv _ (hs.noteException he)

theorem stopped_inv {s s' : State} (hs : s.Inv) (hs' : s'.Inv) {e : Stop} (he : e.ok) : LeadsToInv (stopped s s' e) := by
  cases e with
  | exn e k => exact takeException_inv he (hs.keptState hs' k)
  | fault f => exact leadsToInv_fault f
  | refuse r => exact leadsToInv_refused r

/-- An ending of an instruction keeps the invariant. -/
def EndsInv (after : α → State → State → State) : Prop := ∀ a s s', s.Inv → s'.Inv → (after a s s').Inv

theorem finish_inv {after : α → State → State → State} (ha : EndsInv after) {m : M α} (hm : Keeps State.Inv m) {s : State}
    (hs : s.Inv) : LeadsToInv (finish after m s) := by
  have h := hm s hs
  unfold finish
  split
  next he => rw [he] at h; exact leadsToInv_next (ha _ _ _ hs h)
  next he => rw [he] at h; exact stopped_inv hs h.1 h.2

/-- BS is a defined bit of DR6. -/
theorem State.Inv.pending_stepBit {s' : State} (h : s'.Inv) (s : State) :
    (s'.pendingDb ||| s.stepBit) &&& ~~~dr6Mask = 0 := by
  refine or_masked h.pending ?_
  unfold State.stepBit
  split <;> decide

theorem retire_inv : EndsInv fun (_ : α) => State.retire := fun _ s _ _ h =>
  ⟨h.mem, h.dr6, h.dr7, h.pending_stepBit s, h.paging, h.vm⟩

theorem retireKeepRf_inv : EndsInv fun (_ : α) => State.retireKeepRf := fun _ s _ _ h =>
  ⟨h.mem, h.dr6, h.dr7, h.pending_stepBit s, h.paging, h.vm⟩

theorem retireSs_inv : EndsInv fun (_ : α) => State.retireSs := fun _ s _ _ h =>
  ⟨h.mem, h.dr6, h.dr7, h.pending_stepBit s, h.paging, h.vm⟩

theorem retireSti_inv : EndsInv fun (_ : α) => State.retireSti := fun _ s _ _ h =>
  ⟨h.mem, h.dr6, h.dr7, h.pending_stepBit s, h.paging, h.vm⟩

theorem retireSegLoad_inv (sr : SReg) : EndsInv fun (_ : α) => State.retireSegLoad sr := by
  intro a s s' hs h
  unfold State.retireSegLoad
  split
  · exact retireSs_inv a s s' hs h
  · exact retire_inv a s s' hs h

theorem retireBusy_inv : EndsInv State.retireBusy := by
  intro a s s' hs h
  cases a with
  | true => exact ⟨h.mem, h.dr6, h.dr7, h.pending, h.paging, h.vm⟩
  | false => exact retire_inv () s s' hs h

theorem retireFar_inv : EndsInv State.retireFar := by
  intro a s s' hs h
  cases a with
  | true => exact retireKeepRf_inv () s s' hs h
  | false => exact retire_inv () s s' hs h

theorem retireRepeat_inv (i : Instr) : EndsInv (State.retireRepeat i) := by
  intro a s s' hs h
  cases a with
  | true => exact retire_inv () s s' hs h
  | false => exact ⟨h.mem, h.dr6, h.dr7, h.pending_stepBit s, h.paging, h.vm⟩

theorem complete_inv {m : M Unit} (hm : Calm m) {s : State} (hs : s.Inv) : LeadsToInv (complete m s) :=
  finish_inv retire_inv hm.inv hs

theorem repeated_inv (i : Instr) (stop : Eflags → Bool) {element : M Unit} (h : Calm element) {s : State} (hs : s.Inv) :
    LeadsToInv (repeated i stop element s) := finish_inv (retireRepeat_inv i) (calm_iteration stop h).inv hs

theorem notePrefix_inv {s : State} (hs : s.Inv) (f : Prefixes → Prefixes) : LeadsToInv (s.notePrefix f) :=
  leadsToInv_next ⟨hs.mem, hs.dr6, hs.dr7, hs.pending, hs.paging, hs.vm⟩

theorem softwareInterrupt_inv (v : Byte) {s : State} (hs : s.Inv) : LeadsToInv (softwareInterrupt v s) :=
  deliverEvent_inv _ hs

/-! The instructions that change PE and PG. -/

/-- At CPL 0 VM is 0 (60_exceptions.md R700). -/
theorem State.Inv.vm_of_cpl0 {s : State} (h : s.Inv) (hc : s.currentCpl = 0) : s.eflags.vm = false := by
  cases hv : s.eflags.vm with
  | false => rfl
  | true =>
    unfold State.currentCpl at hc
    rw [if_pos (h.vm hv), if_pos hv] at hc
    exact absurd hc (by decide)

/-- MOV to CR0 refuses PG = 1 with PE = 0, and at CPL 0 VM is 0, so that PE may be cleared. -/
theorem keeps_movCr0 (c : Cr0) : Keeps State.Inv (do
    checkCpl0
    raiseIf (c.pg && !c.pe) (Exn.gp 0)
    modify fun s => (s.setCr0 c).queueSince s
    undefinedFlags) := by
  intro s hs
  by_cases hc : s.currentCpl = 0
  · have hcpl : checkCpl0 s = .ok () s := by
      unfold checkCpl0
      rw [run_bind_ok (run_get s), hc]
      rfl
    rw [run_bind_ok hcpl]
    cases hp : c.pg && !c.pe
    · rw [run_bind_ok (run_raiseIf_false _ _), run_bind_ok (run_modify _ _)]
      refine calm_undefinedFlags.inv _ (closed_inv _ _ (calmRel_queueSince s (.refl _)) ?_)
      refine ⟨hs.mem, hs.dr6, hs.dr7, hs.pending, fun hg => ?_, fun hv => ?_⟩
      · have hg : c.pg = true := hg
        show c.pe = true
        simpa [hg] using hp
      · rw [show (s.setCr0 c).eflags.vm = s.eflags.vm from rfl, hs.vm_of_cpl0 hc] at hv
        cases hv
    · rw [run_bind_error (run_raiseIf_true _ _)]
      exact ⟨hs, by simp [Stop.ok]⟩
  · have hcpl : checkCpl0 s = .error (.exn (Exn.gp 0) .nothing) s := by
      unfold checkCpl0
      rw [run_bind_ok (run_get s), show (s.currentCpl != 0) = true by simpa using hc]
      rfl
    rw [run_bind_error hcpl]
    exact ⟨hs, by simp [Stop.ok]⟩

/-- LMSW cannot clear PE, and leaves PG. -/
theorem State.Inv.loadMsw {s : State} (hs : s.Inv) (v : Dword) : ((s.setCr0 (s.cr0.loadMsw v)).queueSince s).Inv := by
  have hpe : s.cr0.pe = true → (s.cr0.loadMsw v).pe = true := fun h => by simp [Cr0.loadMsw, h]
  exact closed_inv _ _ (calmRel_queueSince s (.refl _))
    ⟨hs.mem, hs.dr6, hs.dr7, hs.pending, fun hg => hpe (hs.paging hg), fun hv => hpe (hs.vm hv)⟩

theorem keeps_lmsw (rm : RM) : Keeps State.Inv (do
    checkCpl0
    let v ← readRm .b16 rm
    modify fun s => (s.setCr0 (s.cr0.loadMsw v)).queueSince s) :=
  keeps_bind calm_checkCpl0.inv fun _ => keeps_bind (calm_readRm _ _).inv fun v => keeps_modify fun _ h => h.loadMsw v

end Sys2Proof.Machine
end

section
/-! O3: every instruction keeps the invariant, and so does a step. -/

namespace Sys2Proof.Machine

variable {α : Type}

/-- Every instruction keeps the invariant: by what it is made of, one line for the instructions that share their
operations. -/
theorem exec_inv (i : Instr) {s : State} (hs : s.Inv) : LeadsToInv (exec i s) := by
  unfold exec
  cases i with
  -- data transfer
  | movRmReg w _ rm | movRmImm w rm _ =>
    refine complete_inv ?_ hs
    exact calm_bind (calm_resolve _) fun _ => calm_writeLoc _ _ _
  | movRegRm | movsx | movzx =>
    refine complete_inv ?_ hs
    exact calm_bind (calm_readRm _ _) fun _ => calm_writeReg _ _ _
  | movRegImm | lahf | cwd =>
    refine complete_inv ?_ hs
    exact calm_writeReg _ _ _
  | movAccMem | xlat =>
    refine complete_inv ?_ hs
    exact calm_bind (calm_memRead _ _ _) fun _ => calm_writeReg _ _ _
  | movMemAcc =>
    refine complete_inv ?_ hs
    exact calm_memWrite _ _ _ _
  | movSregRm sr =>
    exact finish_inv (retireSegLoad_inv sr) (calm_bind (calm_readRm _ _) fun _ => calm_loadSeg _ _).inv hs
  | movRmSreg =>
    refine complete_inv ?_ hs
    exact calm_storeWord _ _
  | pushRm =>
    refine complete_inv ?_ hs
    exact calm_bind (calm_readRm _ _) fun _ => calm_push _ _
  | pushReg | pushImm =>
    refine complete_inv ?_ hs
    exact calm_push _ _
  | pushEs | pushCs | pushSs | pushDs | pushFs | pushGs =>
    refine complete_inv ?_ hs
    exact calm_pushSeg _
  | pusha =>
    refine complete_inv ?_ hs
    exact calm_spoiling (calm_bind (calm_raiseIf (by simp)) fun _ => calm_pushAll _ _)
  | popRm =>
    refine complete_inv ?_ hs
    exact calm_bind (calm_pop _) fun _ => calm_bind (calm_resolve _) fun _ => calm_writeLoc _ _ _
  | popReg =>
    refine complete_inv ?_ hs
    exact calm_bind (calm_pop _) fun _ => calm_writeReg _ _ _
  | popEs | popDs | popFs | popGs =>
    refine complete_inv ?_ hs
    exact calm_popSeg _
  | popSs => exact finish_inv retireSs_inv (calm_popSeg _).inv hs
  | popa =>
    refine complete_inv ?_ hs
    exact calm_bind (calm_pop _) fun _ => calm_bind (calm_pop _) fun _ => calm_bind (calm_pop _) fun _ =>
      calm_bind (calm_pop _) fun _ => calm_bind (calm_pop _) fun _ => calm_bind (calm_pop _) fun _ =>
      calm_bind (calm_pop _) fun _ => calm_bind (calm_pop _) fun _ => calm_bind (calm_writeReg _ _ _) fun _ =>
      calm_bind (calm_writeReg _ _ _) fun _ => calm_bind (calm_writeReg _ _ _) fun _ =>
      calm_bind (calm_writeReg _ _ _) fun _ => calm_bind (calm_writeReg _ _ _) fun _ =>
      calm_bind (calm_writeReg _ _ _) fun _ => calm_writeReg _ _ _
  | xchgRmReg =>
    refine complete_inv ?_ hs
    exact calm_bind (calm_resolve _) fun _ => calm_exchange _ _ _
  | xchgAccReg =>
    refine complete_inv ?_ hs
    exact calm_exchange _ _ _
  | inImm | inDx =>
    refine complete_inv ?_ hs
    exact calm_inputTo _ _
  | outImm | outDx =>
    refine complete_inv ?_ hs
    exact calm_outputFrom _ _
  | lea =>
    refine complete_inv ?_ hs
    exact calm_bind (calm_effectiveAddress _) fun _ => calm_writeReg _ _ _
  | lds | les | lfs | lgs | lss =>
    refine complete_inv ?_ hs
    exact calm_loadFarPointer _ _ _
  -- flag control
  | clc | cld | cmc | stc | std | sahf =>
    refine complete_inv ?_ hs
    exact calm_changeFlags fun _ => rfl
  | cli =>
    refine complete_inv ?_ hs
    exact calm_bind calm_checkIopl fun _ => calm_changeFlags fun _ => rfl
  | sti =>
    refine finish_inv retireSti_inv (Calm.inv ?_) hs
    exact calm_bind calm_checkIopl fun _ => calm_changeFlags fun _ => rfl
  | popf =>
    refine finish_inv retireKeepRf_inv (Calm.inv ?_) hs
    exact calm_bind (calm_raiseIf (by simp)) fun _ => calm_bind (calm_pop _) fun _ => calm_changeFlags fun _ => rfl
  | pushf =>
    refine complete_inv ?_ hs
    exact calm_bind (calm_raiseIf (by simp)) fun _ => calm_push _ _
  | clts =>
    refine complete_inv ?_ hs
    exact calm_bind calm_checkCpl0 fun _ => calm_modify fun _ => ⟨rfl, rfl, id, id, id, id, id⟩
  -- arithmetic
  | addRegRm =>
    refine complete_inv ?_ hs
    exact calm_byDirection _ _ _ _ (calm_alu aluAdd_keepsVm _)
  | addRmImm | addAccImm =>
    refine complete_inv ?_ hs
    exact calm_withImm _ _ _ (calm_alu aluAdd_keepsVm _)
  | adcRegRm =>
    refine complete_inv ?_ hs
    exact calm_byDirection _ _ _ _ (calm_alu aluAdc_keepsVm _)
  | adcRmImm | adcAccImm =>
    refine complete_inv ?_ hs
    exact calm_withImm _ _ _ (calm_alu aluAdc_keepsVm _)
  | subRegRm =>
    refine complete_inv ?_ hs
    exact calm_byDirection _ _ _ _ (calm_alu aluSub_keepsVm _)
  | subRmImm | subAccImm =>
    refine complete_inv ?_ hs
    exact calm_withImm _ _ _ (calm_alu aluSub_keepsVm _)
  | sbbRegRm =>
    refine complete_inv ?_ hs
    exact calm_byDirection _ _ _ _ (calm_alu aluSbb_keepsVm _)
  | sbbRmImm | sbbAccImm =>
    refine complete_inv ?_ hs
    exact calm_withImm _ _ _ (calm_alu aluSbb_keepsVm _)
  | cmpRegRm =>
    refine complete_inv ?_ hs
    exact calm_byDirection _ _ _ _ (calm_compare aluSub_keepsVm _)
  | cmpRmImm | cmpAccImm =>
    refine complete_inv ?_ hs
    exact calm_withImm _ _ _ (calm_compare aluSub_keepsVm _)
  | incRm =>
    refine complete_inv ?_ hs
    exact calm_bind (calm_resolve _) fun _ => calm_alu aluInc_keepsVm _ _ _
  | incReg =>
    refine complete_inv ?_ hs
    exact calm_alu aluInc_keepsVm _ _ _
  | decRm =>
    refine complete_inv ?_ hs
    exact calm_bind (calm_resolve _) fun _ => calm_alu aluDec_keepsVm _ _ _
  | decReg =>
    refine complete_inv ?_ hs
    exact calm_alu aluDec_keepsVm _ _ _
  | neg =>
    refine complete_inv ?_ hs
    exact calm_bind (calm_resolve _) fun _ => calm_alu aluNeg_keepsVm _ _ _
  | aaa | aas =>
    refine complete_inv ?_ hs
    exact calm_asciiAdjust _ _
  | daa | das =>
    refine complete_inv ?_ hs
    exact calm_bind (calm_writeReg _ _ _) fun _ => calm_bind calm_freeBit fun _ =>
      calm_changeFlags fun _ => rfl
  | aad =>
    refine complete_inv ?_ hs
    exact calm_bind (calm_writeAx _ _) fun _ => calm_flagsFromAl _
  | aam =>
    refine complete_inv ?_ hs
    exact calm_bind (calm_raiseIf (by simp)) fun _ => calm_bind (calm_writeAx _ _) fun _ =>
      calm_flagsFromAl _
  | mul | imulAcc =>
    refine complete_inv ?_ hs
    exact calm_bind (calm_readRm _ _) fun _ => calm_bind (calm_writeWide _ _ _) fun _ =>
      calm_multiplyFlags _
  | imulReg | imulImm =>
    refine complete_inv ?_ hs
    exact calm_bind (calm_readRm _ _) fun _ => calm_multiplyTo _ _ _ _
  | div | idiv =>
    refine complete_inv ?_ hs
    exact calm_bind (calm_readRm _ _) fun _ => calm_bind (calm_raiseIf (by simp)) fun _ =>
      calm_bind (calm_writeWide _ _ _) fun _ => calm_undefinedFlags
  | cbw =>
    refine complete_inv ?_ hs
    exact calm_ite (calm_writeReg _ _ _) (calm_writeReg _ _ _)
  -- logic, shifts and rotates
  | rolBy1 | rolByCl | rolByImm =>
    refine complete_inv ?_ hs
    exact calm_shiftBy shiftRol_keepsVm _ _ _
  | rorBy1 | rorByCl | rorByImm =>
    refine complete_inv ?_ hs
    exact calm_shiftBy shiftRor_keepsVm _ _ _
  | rclBy1 | rclByCl | rclByImm =>
    refine complete_inv ?_ hs
    exact calm_shiftBy shiftRcl_keepsVm _ _ _
  | rcrBy1 | rcrByCl | rcrByImm =>
    refine complete_inv ?_ hs
    exact calm_shiftBy shiftRcr_keepsVm _ _ _
  | shlBy1 | shlByCl | shlByImm =>
    refine complete_inv ?_ hs
    exact calm_shiftBy shiftShl_keepsVm _ _ _
  | shrBy1 | shrByCl | shrByImm =>
    refine complete_inv ?_ hs
    exact calm_shiftBy shiftShr_keepsVm _ _ _
  | sarBy1 | sarByCl | sarByImm =>
    refine complete_inv ?_ hs
    exact calm_shiftBy shiftSar_keepsVm _ _ _
  | shldImm | shldCl | shrdImm | shrdCl =>
    refine complete_inv ?_ hs
    exact calm_doubleShift _ _ _ _
  | andRegRm | orRegRm | xorRegRm =>
    refine complete_inv ?_ hs
    exact calm_byDirection _ _ _ _ (calm_logic _ _)
  | andRmImm | andRmImm8 | andAccImm | orRmImm | orRmImm8 | orAccImm | xorRmImm | xorRmImm8 | xorAccImm =>
    refine complete_inv ?_ hs
    exact calm_withImm _ _ _ (calm_logic _ _)
  | testRmReg =>
    refine complete_inv ?_ hs
    exact calm_byDirection _ _ _ _ (calm_test _)
  | testRmImm | testAccImm =>
    refine complete_inv ?_ hs
    exact calm_withImm _ _ _ (calm_test _)
  | notRm =>
    refine complete_inv ?_ hs
    exact calm_bind (calm_resolve _) fun _ => calm_bind (calm_readToUpdate _ _) fun _ =>
      calm_writeLoc _ _ _
  -- strings
  | cmps =>
    refine complete_inv ?_ hs
    exact calm_cmpsElement _
  | ins =>
    refine complete_inv ?_ hs
    exact calm_insElement _
  | lods =>
    refine complete_inv ?_ hs
    exact calm_lodsElement _
  | movs =>
    refine complete_inv ?_ hs
    exact calm_movsElement _
  | outs =>
    refine complete_inv ?_ hs
    exact calm_outsElement _
  | scas =>
    refine complete_inv ?_ hs
    exact calm_scasElement _
  | stos =>
    refine complete_inv ?_ hs
    exact calm_stosElement _
  | repeCmps | repneCmps => exact repeated_inv _ _ (calm_cmpsElement _) hs
  | repeScas | repneScas => exact repeated_inv _ _ (calm_scasElement _) hs
  | repInsF2 | repInsF3 => exact repeated_inv _ _ (calm_insElement _) hs
  | repLodsF2 | repLodsF3 => exact repeated_inv _ _ (calm_lodsElement _) hs
  | repMovsF2 | repMovsF3 => exact repeated_inv _ _ (calm_movsElement _) hs
  | repOutsF2 | repOutsF3 => exact repeated_inv _ _ (calm_outsElement _) hs
  | repStosF2 | repStosF3 => exact repeated_inv _ _ (calm_stosElement _) hs
  -- bits
  | bsf | bsr =>
    refine complete_inv ?_ hs
    exact calm_scanBits _ _ _
  | btImm =>
    refine complete_inv ?_ hs
    exact calm_bitImm _ _ calm_testBit
  | btReg =>
    refine complete_inv ?_ hs
    exact calm_bitReg _ _ calm_testBit
  | btcImm | btrImm | btsImm =>
    refine complete_inv ?_ hs
    exact calm_bitImm _ _ (calm_changeBit _)
  | btcReg | btrReg | btsReg =>
    refine complete_inv ?_ hs
    exact calm_bitReg _ _ (calm_changeBit _)
  | ibts =>
    refine complete_inv ?_ hs
    exact calm_bind (calm_raiseIf (by simp)) fun _ => calm_bind (calm_resolve _) fun _ =>
      calm_bind (calm_insertString _ _ _ _ _ _ _) fun _ => calm_undefinedFlags
  | xbts =>
    refine complete_inv ?_ hs
    exact calm_bind (calm_raiseIf (by simp)) fun _ => calm_bind (calm_resolve _) fun _ =>
      calm_bind (calm_extractString _ _ _ _ _) fun _ => calm_bind (calm_freeAt _) fun _ =>
      calm_bind (calm_writeReg _ _ _) fun _ => calm_undefinedFlags
  -- control transfer
  | callRel =>
    refine complete_inv ?_ hs
    exact calm_callNear _
  | callRm =>
    refine complete_inv ?_ hs
    exact calm_bind (calm_readRm _ _) fun _ => calm_callNear _
  | jmpShort | jmpRel =>
    refine complete_inv ?_ hs
    exact calm_jumpNear _
  | jmpRm =>
    refine complete_inv ?_ hs
    exact calm_bind (calm_readRm _ _) fun _ => calm_jumpNear _
  | ret =>
    refine complete_inv ?_ hs
    exact calm_bind (calm_pop _) fun _ => calm_jumpNear _
  | retImm =>
    refine complete_inv ?_ hs
    exact calm_returnNear _
  | callPtr | jmpPtr => exact finish_inv retireFar_inv (keeps_farTransfer _ _ _) hs
  | callMem | jmpMem =>
    exact finish_inv retireFar_inv (keeps_bind (calm_readFarPointer _).inv fun _ => keeps_farTransfer _ _ _) hs
  | retf | retfImm =>
    refine complete_inv ?_ hs
    exact calm_returnFar _
  | joShort | jnoShort | jbShort | jnbShort | jeShort | jneShort | jbeShort | jnbeShort | jsShort | jnsShort | jpShort
  | jnpShort | jlShort | jnlShort | jleShort | jnleShort | joNear | jnoNear | jbNear | jnbNear | jeNear | jneNear | jbeNear
  | jnbeNear | jsNear | jnsNear | jpNear | jnpNear | jlNear | jnlNear | jleNear | jnleNear | jcxz =>
    refine complete_inv ?_ hs
    exact calm_jumpIf _ _
  | loop | loopz | loopnz =>
    refine complete_inv ?_ hs
    exact calm_loopOn _ _
  | seto | setno | setb | setnb | sete | setne | setbe | setnbe | sets | setns | setp | setnp | setl | setnl | setle
  | setnle =>
    refine complete_inv ?_ hs
    exact calm_setByte _ _
  | enter =>
    refine complete_inv ?_ hs
    exact calm_spoiling (calm_enterFrame _ _)
  | leave =>
    refine complete_inv ?_ hs
    exact calm_bind (calm_modify fun s => calmRel_setSp (.refl s) _) fun _ =>
      calm_bind (calm_pop _) fun _ => calm_writeReg _ _ _
  -- interrupts
  | intN v =>
    show LeadsToInv (if s.v86Sensitive then takeException (Exn.gp 0) s else softwareInterrupt v s)
    split
    · exact takeException_inv (by simp) hs
    · exact softwareInterrupt_inv _ hs
  | int3 => exact softwareInterrupt_inv _ hs
  | into =>
    show LeadsToInv (if s.eflags.ofl then softwareInterrupt 4 s else complete (pure ()) s)
    split
    · exact softwareInterrupt_inv _ hs
    · exact complete_inv (calm_pure _) hs
  | bound =>
    refine complete_inv ?_ hs
    exact calm_bind (calm_effectiveAddress _) fun _ => calm_bind (calm_memRead _ _ _) fun _ =>
      calm_bind (calm_memRead _ _ _) fun _ => calm_raiseIf (by simp)
  | iret =>
    exact finish_inv retireKeepRf_inv (keeps_bind (calm_raiseIf (by simp)).inv fun _ => keeps_returnFromException) hs
  -- processor control
  | hlt =>
    refine complete_inv ?_ hs
    exact calm_bind calm_checkCpl0 fun _ => calm_modify fun _ => ⟨rfl, rfl, id, id, id, id, id⟩
  | nop =>
    refine complete_inv ?_ hs
    exact calm_pure _
  | wait => exact finish_inv retireBusy_inv calm_waitReady.inv hs
  | esc => exact finish_inv retireBusy_inv (calm_escape _ _ _).inv hs
  | movCr0Reg => exact finish_inv retire_inv (keeps_movCr0 _) hs
  | movCr3Reg =>
    refine complete_inv ?_ hs
    exact calm_moveTo fun s => calmRel_queueSince s (calmRel_setCr3 s _)
  | movCr2Reg | movTr6Reg | movTr7Reg =>
    refine complete_inv ?_ hs
    exact calm_moveTo fun _ => ⟨rfl, rfl, id, id, id, id, id⟩
  | movRegCr0 | movRegCr2 | movRegCr3 | movRegTr6 | movRegTr7 =>
    refine complete_inv ?_ hs
    exact calm_moveFrom _ _ _
  | movDr0Reg | movDr1Reg | movDr2Reg | movDr3Reg =>
    refine complete_inv ?_ hs
    exact calm_moveToDebug fun _ => ⟨rfl, rfl, id, id, id, id, id⟩
  | movDr6Reg =>
    refine complete_inv ?_ hs
    exact calm_moveToDebug fun s => calmRel_setDr6 s _
  | movDr7Reg =>
    refine complete_inv ?_ hs
    exact calm_moveToDebug fun s => calmRel_setDr7 s _
  | movRegDr0 | movRegDr1 | movRegDr2 | movRegDr3 | movRegDr6 | movRegDr7 =>
    refine complete_inv ?_ hs
    exact calm_moveFromDebug _ _ _
  | addrsize | lock | opsize | segCs | segDs | segEs | segFs | segGs | segSs | repneRep | repeRep =>
    exact notePrefix_inv hs _
  -- protection control
  | arpl =>
    refine complete_inv ?_ hs
    exact calm_bind calm_checkProtected fun _ => calm_bind (calm_resolve _) fun _ =>
      calm_bind (calm_readLoc _ _) fun _ => calm_ite (calm_bind (calm_writeLoc _ _ _) fun _ => calm_setZf _)
        (calm_setZf _)
  | lar | lsl =>
    refine complete_inv ?_ hs
    exact calm_examine _ _ fun _ => calm_writeReg _ _ _
  | verr | verw =>
    refine complete_inv ?_ hs
    exact calm_examine _ _ fun _ => calm_pure _
  | lgdt | lidt =>
    refine complete_inv ?_ hs
    exact calm_bind calm_checkCpl0 fun _ => calm_bind (calm_readTableReg _) fun _ =>
      calm_modify fun _ => ⟨rfl, rfl, id, id, id, id, id⟩
  | sgdt | sidt =>
    refine complete_inv ?_ hs
    exact calm_storeTableReg _ _
  | lldt =>
    refine complete_inv ?_ hs
    exact calm_bind calm_checkProtected fun _ => calm_bind calm_checkCpl0 fun _ =>
      calm_bind (calm_readRm _ _) fun _ => calm_ite (calm_modify fun _ => ⟨rfl, rfl, id, id, id, id, id⟩)
        (calm_bind (calm_systemDescriptor _ _) fun _ => calm_modify fun _ => ⟨rfl, rfl, id, id, id, id, id⟩)
  | ltr =>
    refine complete_inv ?_ hs
    exact calm_bind calm_checkProtected fun _ => calm_bind calm_checkCpl0 fun _ =>
      calm_bind (calm_readRm _ _) fun _ => calm_bind (calm_raiseIf (by simp)) fun _ =>
      calm_bind (calm_systemDescriptor _ _) fun _ => calm_bind (calm_writeBusy _ _ _) fun _ =>
      calm_modify fun _ => ⟨rfl, rfl, id, id, id, id, id⟩
  | sldt | str =>
    refine complete_inv ?_ hs
    exact calm_bind calm_checkProtected fun _ => calm_storeWord _ _
  | lmsw => exact finish_inv retire_inv (keeps_lmsw _) hs
  | smsw =>
    refine complete_inv ?_ hs
    exact calm_bind (calm_raiseIf (by simp)) fun _ => calm_storeWord _ _

/-! Fetch (30_encoding.md R275). -/

theorem CodeRead.calm {s t : State} (h : CodeRead s t) : CalmRel s t := by
  rw [h.eq]
  exact ⟨rfl, rfl, id, id, id, id, id⟩

theorem calm_readCode (l p : Dword) : Calm (readCode l p) := by
  intro s
  rcases readCode_cases l p s with ⟨t, ht, h⟩ | ⟨⟨w, ht⟩, -⟩
  · rw [ht]; exact h.calm
  · rw [ht]; exact ⟨.refl s, trivial⟩

theorem calm_fetchMemory (l : Dword) : Calm (fetchMemory l) :=
  calm_bind calm_get fun _ => calm_bind (calm_translate _ _ _) fun _ => calm_ite (calm_refuse _)
    (calm_bind (calm_readCode _ _) fun _ => calm_bind calm_get fun _ => calm_pure _)

theorem calm_fetchQueued (l : Dword) (qs : List QueuedByte) : Calm (fetchQueued l qs) := by
  induction qs with
  | nil => exact calm_fetchMemory l
  | cons q qs ih =>
    have hheld (held : Bool) : Calm (do
        let s ← get
        if !held then fetchQueued l qs
        else if s.stale.contains q.physical then refuse .staleCode
        else pure q.byte) := calm_bind calm_get fun _ => calm_ite ih (calm_ite (calm_refuse _) (calm_pure _))
    exact calm_ite (calm_ite (hheld true) (calm_bind calm_freeBit hheld)) ih

theorem calm_fetchByte (k : Nat) : Calm (fetchByte k) :=
  calm_bind calm_get fun _ => calm_bind (calm_raiseIf (by simp)) fun _ => calm_fetchQueued _ _

/-- Every state that the fetch passes through, that in which it stops among them. -/
theorem gather_calm (n k : Nat) (s : State) :
    (∀ x ∈ (gather n k s).1, CalmRel s x.2) ∧ ∀ e t, (gather n k s).2 = some (e, t) → CalmRel s t ∧ e.ok := by
  induction n generalizing k s with
  | zero => exact ⟨fun _ h => (nomatch h), fun _ _ h => (nomatch h)⟩
  | succ n ih =>
    have hb := calm_fetchByte k s
    unfold gather
    cases he : fetchByte k s with
    | ok b s' =>
      rw [he] at hb
      obtain ⟨hbytes, hstop⟩ := ih (k + 1) s'
      refine ⟨fun x hx => ?_, fun e t h => ?_⟩
      · rcases List.mem_cons.1 hx with rfl | hx
        · exact hb
        · exact CalmRel.trans hb (hbytes x hx)
      · obtain ⟨hr, hok⟩ := hstop e t h
        exact ⟨CalmRel.trans hb hr, hok⟩
    | error e s' =>
      rw [he] at hb
      exact ⟨fun _ h => (nomatch h), fun _ _ h => by cases h; exact hb⟩

theorem stateAfter_calm {s t : State} {got : List (Byte × State)} (ht : CalmRel s t) (h : ∀ x ∈ got, CalmRel s x.2)
    (n : Nat) : CalmRel s (stateAfter t got n) := by
  induction got generalizing t n with
  | nil => exact ht
  | cons x got ih =>
    cases n with
    | zero => exact ht
    | succ n => exact ih (h x List.mem_cons_self) (fun y hy => h y (List.mem_cons_of_mem _ hy)) n

theorem calm_fetch : Calm fetch := by
  intro s
  obtain ⟨hbytes, hstop⟩ := gather_calm maxLength 0 s
  have hafter (n : Nat) : CalmRel s (stateAfter s (gather maxLength 0 s).1 n) := stateAfter_calm (.refl s) hbytes n
  unfold fetch
  dsimp only
  split
  · split
    · exact (hafter _).trans ⟨rfl, rfl, id, id, id, id, id⟩
    · exact ⟨hafter _, by simp [Stop.ok]⟩
  · split
    · next he => exact hstop _ _ he
    · exact ⟨hafter _, by simp [Stop.ok]⟩
  · exact ⟨hafter _, by simp [Stop.ok]⟩
  · exact ⟨.refl s, trivial⟩

theorem State.Inv.markStart {s : State} (hs : s.Inv) : s.markStart.Inv := by
  unfold State.markStart
  split
  · exact hs
  · split <;> exact ⟨hs.mem, hs.dr6, hs.dr7, hs.pending, hs.paging, hs.vm⟩

/-! The step. -/

theorem lockFault_ok {i : Instr} {s : State} {e : Exn} (h : lockFault i s = some e) : e.ok := by
  unfold lockFault at h
  split at h
  · cases h
  · split at h
    · cases h; simp
    · split at h <;> cases h
      simp

theorem runInstr_inv (i : Instr) {s : State} (hs : s.Inv) : LeadsToInv (runInstr i s) := by
  unfold runInstr
  split
  · next he => exact takeException_inv (lockFault_ok he) hs
  · exact exec_inv i hs

theorem stepInstr_inv {s : State} (hs : s.Inv) : LeadsToInv (stepInstr s) := by
  unfold stepInstr
  split
  · exact exec_inv _ ⟨hs.mem, hs.dr6, hs.dr7, hs.pending, hs.paging, hs.vm⟩
  · have hf := calm_fetch.inv _ hs.markStart
    split
    · next he => rw [he] at hf; exact runInstr_inv _ hf
    · next he => rw [he] at hf; exact stopped_inv hs.markStart hf.1 hf.2

theorem State.Inv.atBoundary {s : State} (hs : s.Inv) : s.atBoundary.Inv :=
  ⟨hs.mem, hs.dr6, hs.dr7, hs.pending, hs.paging, hs.vm⟩

theorem State.Inv.nmiTaken {s : State} (hs : s.Inv) : s.nmiTaken.Inv :=
  ⟨hs.mem, hs.dr6, hs.dr7, hs.pending, hs.paging, hs.vm⟩

theorem State.breakBits_masked (s : State) : s.breakBits &&& ~~~dr6Mask = 0 :=
  or_masked (or_masked (or_masked (bitAt_masked (by omega)) (bitAt_masked (by omega))) (bitAt_masked (by omega)))
    (bitAt_masked (by omega))

theorem stepShutdown_inv {s : State} (hs : s.Inv) : LeadsToInv (stepShutdown s) := by
  unfold stepShutdown
  split
  · have hd := keeps_deliver (hardwareEvent 2 s.eip) _ hs.nmiTaken
    split
    next he => rw [he] at hd; exact leadsToInv_next (State.Inv.handlerEntered hd)
    next he =>
      rw [he] at hd
      refine leadsToInv_next (State.Inv.noteException ?_ hd.2)
      exact ⟨hs.mem, hs.dr6, hs.dr7, hs.pending, hs.paging, hs.vm⟩
    next => exact leadsToInv_fault _
    next => exact leadsToInv_refused _
  · exact leadsToInv_next hs

/-- Whatever takes the place of the next instruction. -/
theorem boundary_inv {s : State} (hs : s.Inv) {a : Answer} (h : boundary s = some a) : LeadsToInv a := by
  unfold boundary at h
  split at h
  · cases h; exact stepShutdown_inv hs
  split at h
  · cases h; exact takeException_inv (e := Exn.dbTrap _) hs.pending ⟨hs.mem, hs.dr6, hs.dr7, by simp, hs.paging, hs.vm⟩
  split at h
  · cases h; exact takeException_inv (e := Exn.dbTrap _) s.breakBits_masked hs.atBoundary
  split at h
  · cases h
  split at h
  · cases h; exact deliverEvent_inv _ hs.nmiTaken
  split at h
  · cases h; exact deliverEvent_inv _ ⟨hs.mem, hs.dr6, hs.dr7, hs.pending, hs.paging, hs.vm⟩
  split at h
  · cases h; exact leadsToInv_next hs
  · cases h

theorem interruption_inv {s : State} (hs : s.Inv) {a : Answer} (h : interruption s = some a) : LeadsToInv a := by
  unfold interruption at h
  split at h
  · cases h; exact leadsToInv_next hs
  split at h
  · cases h
  split at h
  · cases h; exact finish_inv (fun _ _ _ _ h => h) calm_transferMore.inv hs.atBoundary
  · exact boundary_inv hs h

theorem stepOnce_inv {s : State} (hs : s.Inv) : LeadsToInv (stepOnce s) := by
  unfold stepOnce
  rcases prefetch_cases s with ⟨t, ht, hc⟩ | ⟨⟨w, t, ht⟩, -⟩
  · rw [ht]
    have hi := hc.inv hs
    show LeadsToInv (stepAfterPrefetch t)
    unfold stepAfterPrefetch
    split
    · next h => exact interruption_inv hi h
    · exact stepInstr_inv hi
  · rw [ht]; exact leadsToInv_fault _

/-- RESET leaves memory in its form, whatever it has cut short, and the other registers as after reset. -/
theorem State.Inv.cutBy {s : State} (hs : s.Inv) (t : State) : (s.cutBy t).Inv :=
  ⟨State.cutBy_wf t hs.mem, BitVec.zero_and, BitVec.zero_and, BitVec.zero_and, fun h => (nomatch h), fun h => (nomatch h)⟩

theorem State.Inv.resetPin {s : State} (hs : s.Inv) : s.resetPin.Inv :=
  ⟨hs.mem, BitVec.zero_and, BitVec.zero_and, BitVec.zero_and, fun h => (nomatch h), fun h => (nomatch h)⟩

theorem stepReset_inv {s : State} (hs : s.Inv) : LeadsToInv (stepReset s) := by
  unfold stepReset
  split
  · exact leadsToInv_next hs.resetPin
  · split
    · exact leadsToInv_next (hs.cutBy _)
    · exact leadsToInv_next (hs.cutBy _)
    · exact leadsToInv_next hs.resetPin

/-- Settles O3: each operation of the model keeps the invariant, so each instruction does, each event at a boundary and the
fetch, and RESET gives the reset values over a canonical memory. -/
theorem stepKeepsInvariant : Obligations.StepKeepsInvariant := by
  intro s t hs h
  unfold step at h
  split at h
  · exact stepReset_inv hs t h
  · exact stepOnce_inv hs t h

end Sys2Proof.Machine
end

section
/-! O1 and O2: RESET (10_state.md R80, R81; 60_exceptions.md R664; 70_reset_and_hazards.md R750). -/

namespace Sys2Proof.Machine

theorem resetWith_inv (p : Config.Params) : (State.resetWith p).Inv :=
  ⟨rfl, BitVec.zero_and, BitVec.zero_and, BitVec.zero_and, fun h => (nomatch h), fun h => (nomatch h)⟩

/-- Settles O2: the reset state has empty memory, no debug bits, and PE, PG and VM are 0. -/
theorem resetInvariant : Obligations.ResetInvariant := ⟨resetWith_inv _, resetWith_inv⟩

/-- The component identifier 3 in DH over the revision identifier in DL. -/
theorem identifier_bytes : ∀ r : BitVec 8,
    ((0x0300 ||| r.setWidth 32 : Dword).extractLsb' 8 8).setWidth 32 = (0x03 : Dword) ∧
      ((0x0300 ||| r.setWidth 32 : Dword).setWidth 8).setWidth 32 = r.setWidth 32 := by
  decide

theorem resetWith_flags (p : Config.Params) : (State.resetWith p).eflags.word = 0x00000002 := by
  simp [State.resetWith, Eflags.word, bitAt]

/-- What RESET leaves, where it cuts the way from `s` to `u` short. -/
structure ResetFrom (s u t : State) : Prop where
  rest : t = { State.resetWith s.params with
    mem := t.mem, ioInputs := s.ioInputs, bus := t.bus, deviceBus := t.deviceBus, pins := s.pins
    copRequest := s.copRequest, draws := t.draws }
  bus : t.bus <:+ u.bus
  deviceBus : t.deviceBus <:+ u.deviceBus
  byte : ∀ p, t.readByte p = s.readByte p ∨ t.readByte p = u.readByte p ∨
    (s.cr0.pg = true ∧ t.readByte p = s.readByte p ||| (u.readByte p &&& 0x20))

theorem resetFrom_cutBy {s : State} (hs : s.Inv) (u : State) : ResetFrom s u (s.cutBy u) :=
  ⟨rfl, s.cutBy_bus u, s.cutBy_deviceBus u, fun p => State.cutBy_byte u hs.mem p⟩

theorem resetFrom_resetPin (s : State) : ResetFrom s s s.resetPin :=
  ⟨rfl, List.suffix_refl _, List.suffix_refl _, fun _ => .inl rfl⟩

/-- Settles O1: the reset values are those of `State.resetWith`; a step with RESET asserted cuts the step without it where it
ends, or where it stands for ever, or, if there is none, before anything. -/
theorem resetRegisters : Obligations.ResetRegisters := by
  refine ⟨fun p => ?_, fun s hs hreset => ?_⟩
  · refine ⟨rfl, resetWith_flags p, ⟨rfl, rfl, rfl⟩, fun sr hsr => ?_, fun sr => ?_, rfl, ⟨rfl, rfl⟩, rfl,
      (identifier_bytes _).1, (identifier_bytes _).2, fun h => if_pos h, rfl, ⟨rfl, rfl⟩, rfl, rfl⟩
    · cases sr with
      | cs => exact absurd rfl hsr
      | es | ss | ds | fs | gs => exact ⟨rfl, rfl, rfl⟩
    · have hwritable : (!(3#4).getLsbD 3 && (3#4).getLsbD 1) = true := by decide
      cases sr <;> exact ⟨rfl, hwritable⟩
  · have hstep : step s = stepReset s := by unfold step; rw [if_pos hreset]
    have honce : step { s with pins := { s.pins with reset := false } } =
        stepOnce { s with pins := { s.pins with reset := false } } := by simp [step]
    rw [hstep, honce]
    unfold stepReset
    split
    · have h := resetFrom_resetPin s
      exact ⟨_, s, rfl, h.rest, .inl rfl, h.bus, h.deviceBus, h.byte⟩
    · cases stepOnce { s with pins := { s.pins with reset := false } } with
      | next u =>
        have h := resetFrom_cutBy hs u
        exact ⟨_, u, rfl, h.rest, .inr (.inl rfl), h.bus, h.deviceBus, h.byte⟩
      | fault f =>
        have h := resetFrom_cutBy hs f.reached
        exact ⟨_, f.reached, rfl, h.rest, .inr (.inr ⟨f, rfl, rfl⟩), h.bus, h.deviceBus, h.byte⟩
      | refused r =>
        have h := resetFrom_resetPin s
        exact ⟨_, s, rfl, h.rest, .inl rfl, h.bus, h.deviceBus, h.byte⟩

end Sys2Proof.Machine
end

section
/-! O7: what prefixes note, and which instructions take LOCK (47_processor_control.md R612 to R616). -/

namespace Sys2Proof.Machine

/-- The prefixes among the instructions. -/
def prefixInstrs : List Instr :=
  [.addrsize, .lock, .opsize, .segCs, .segDs, .segEs, .segFs, .segGs, .segSs, .repneRep, .repeRep]

theorem isPrefix_iff (i : Instr) : isPrefix i = true ↔ i ∈ prefixInstrs := by
  constructor
  · intro h
    unfold isPrefix at h
    split at h
    case h_12 => cases h
    all_goals decide
  · intro h
    have hall : ∀ j ∈ prefixInstrs, isPrefix j = true := by decide
    exact hall i h

/-- The instructions that take LOCK, with a memory destination `m` (20_memory.md R162). -/
def lockForms (m : MemOp) (r : Reg) (w : Width) (imm : Imm) (b : BitVec 8) : List Instr :=
  [.btImm (.mem m) b, .btReg r (.mem m), .btsImm (.mem m) b, .btsReg r (.mem m), .btrImm (.mem m) b,
    .btrReg r (.mem m), .btcImm (.mem m) b, .btcReg r (.mem m), .xchgRmReg w r (.mem m), .addRegRm .toRm w r (.mem m),
    .addRmImm w (.mem m) imm, .orRegRm .toRm w r (.mem m), .orRmImm w (.mem m) imm, .orRmImm8 (.mem m) b,
    .adcRegRm .toRm w r (.mem m), .adcRmImm w (.mem m) imm, .sbbRegRm .toRm w r (.mem m), .sbbRmImm w (.mem m) imm,
    .andRegRm .toRm w r (.mem m), .andRmImm w (.mem m) imm, .andRmImm8 (.mem m) b, .subRegRm .toRm w r (.mem m),
    .subRmImm w (.mem m) imm, .xorRegRm .toRm w r (.mem m), .xorRmImm w (.mem m) imm, .xorRmImm8 (.mem m) b,
    .notRm w (.mem m), .neg w (.mem m), .incRm w (.mem m), .decRm w (.mem m)]

theorem isMem_eq_true {rm : RM} (h : RM.isMem rm = true) : ∃ m, rm = .mem m := by
  cases rm with
  | reg r => cases h
  | mem m => exact ⟨m, rfl⟩

theorem lockableDir_eq_true {d : Dir} {rm : RM} (h : lockableDir d rm = true) : d = .toRm ∧ ∃ m, rm = .mem m := by
  cases d with
  | toReg => cases h
  | toRm => exact ⟨rfl, isMem_eq_true h⟩

theorem lockable_iff (i : Instr) : lockable i = true ↔ ∃ m r w imm b, i ∈ lockForms m r w imm b := by
  constructor
  · intro h
    -- each form that `lockable` accepts stands in the list, the parts that it does not have being of no account
    have mem {rm : RM} (hm : RM.isMem rm = true) (r : Reg) (w : Width) (imm : Imm) (b : BitVec 8)
        (hi : ∀ m, rm = .mem m → i ∈ lockForms m r w imm b) : ∃ m r w imm b, i ∈ lockForms m r w imm b := by
      obtain ⟨m, rfl⟩ := isMem_eq_true hm
      exact ⟨m, r, w, imm, b, hi m rfl⟩
    unfold lockable at h
    split at h
    case h_1 rm b | h_3 rm b | h_5 rm b | h_7 rm b | h_14 rm b | h_21 rm b | h_26 rm b =>
      exact mem h .eax .full (.i8 0) b fun m hm => by subst hm; simp [lockForms]
    case h_2 r rm | h_4 r rm | h_6 r rm | h_8 r rm =>
      exact mem h r .full (.i8 0) 0 fun m hm => by subst hm; simp [lockForms]
    case h_9 w r rm => exact mem h r w (.i8 0) 0 fun m hm => by subst hm; simp [lockForms]
    case h_11 w rm imm | h_13 w rm imm | h_16 w rm imm | h_18 w rm imm | h_20 w rm imm | h_23 w rm imm | h_25 w rm imm =>
      exact mem h .eax w imm 0 fun m hm => by subst hm; simp [lockForms]
    case h_27 w rm | h_28 w rm | h_29 w rm | h_30 w rm =>
      exact mem h .eax w (.i8 0) 0 fun m hm => by subst hm; simp [lockForms]
    case h_10 d w r rm | h_12 d w r rm | h_15 d w r rm | h_17 d w r rm | h_19 d w r rm | h_22 d w r rm | h_24 d w r rm =>
      obtain ⟨rfl, m, rfl⟩ := lockableDir_eq_true h
      exact ⟨m, r, w, .i8 0, 0, by simp [lockForms]⟩
    case h_31 => cases h
  · rintro ⟨m, r, w, imm, b, h⟩
    have hall : ∀ j ∈ lockForms m r w imm b, lockable j = true := by
      intro j hj
      simp only [lockForms, List.mem_cons, List.not_mem_nil, or_false] at hj
      rcases hj with rfl | rfl | rfl | rfl | rfl | rfl | rfl | rfl | rfl | rfl | rfl | rfl | rfl | rfl | rfl | rfl | rfl |
        rfl | rfl | rfl | rfl | rfl | rfl | rfl | rfl | rfl | rfl | rfl | rfl | rfl
      all_goals rfl
    exact hall i h

/-- What LOCK raises, by the three questions it asks. -/
theorem lockFault_eq (i : Instr) (s : State) : lockFault i s =
    if s.pfx.lock = false ∨ isPrefix i = true then none
    else if lockable i = false then some Exn.ud
    else if s.protectedMode = true ∧ s.eflags.iopl < s.currentCpl then some (Exn.gp 0)
    else none := by
  unfold lockFault
  simp only [Bool.or_eq_true, Bool.not_eq_true', Bool.and_eq_true, decide_eq_true_eq]

/-- Settles O7: `lockFault_eq` with `isPrefix_iff` and `lockable_iff`; a lone one of the prefixes is `State.notePrefix`. -/
theorem prefixesNoted : Obligations.PrefixesNoted := by
  refine ⟨fun s i takes htakes => ?_, fun s => ?_⟩
  · have htakes : takes ↔ lockable i = true := htakes.trans (lockable_iff i).symm
    rw [lockFault_eq, htakes, show (i ∈ [Instr.addrsize, .lock, .opsize, .segCs, .segDs, .segEs, .segFs, .segGs, .segSs,
      .repneRep, .repeRep] ↔ isPrefix i = true) from (isPrefix_iff i).symm]
    refine ⟨fun h => if_pos h, fun hlock hpre => ?_⟩
    rw [if_neg (by simp [hlock, hpre])]
    refine ⟨fun hn => if_pos (by simpa using hn), fun ht hp => ?_, fun ht hp => ?_⟩
    · rw [if_neg (by simp [ht]), if_pos hp]
    · rw [if_neg (by simp [ht]), if_neg]
      rintro ⟨hm, hlt⟩
      rcases hp with hp | hp
      · rw [hm] at hp; cases hp
      · exact absurd hlt (BitVec.not_lt.2 hp)
  · refine ⟨fun p hp => ?_, ⟨_, rfl, rfl, ?_, rfl⟩, ⟨_, rfl, rfl, ?_, rfl⟩, rfl, rfl, rfl⟩
    · simp only [List.mem_cons, List.not_mem_nil, or_false] at hp
      rcases hp with rfl | rfl | rfl | rfl | rfl | rfl
      all_goals exact ⟨_, rfl, rfl, fun _ => rfl, rfl⟩
    · exact Bool.xor_true _
    · exact Bool.xor_true _

end Sys2Proof.Machine
end

section
/-! O6: a step runs what the bytes at CS:EIP decode to (30_encoding.md R275; 60_exceptions.md R657). -/

namespace Sys2Proof.Machine

/-- The next 15 bytes at CS:EIP. -/
def State.codeBytes (s : State) : List Byte := (linearRange (s.linear .cs s.eip) maxLength).map s.readByte

theorem linearRange_eq_map (l : Dword) (n : Nat) :
    linearRange l n = (List.range' 0 n).map fun k => l + BitVec.ofNat 32 k := by
  apply List.ext_getElem
  · simp
  · intro k h1 h2
    rw [linearRange_get l n k (by simpa using h1)]
    simp

/-- A fetch that passes through one state alone ends in it. -/
theorem stateAfter_same {s : State} {got : List (Byte × State)} (h : ∀ x ∈ got, x.2 = s) (n : Nat) :
    stateAfter s got n = s := by
  induction got generalizing n with
  | nil => rfl
  | cons x got ih =>
    cases n with
    | zero => rfl
    | succ n =>
      have hx : x.2 = s := h x List.mem_cons_self
      show stateAfter x.2 got n = s
      rw [hx]
      exact ih (fun y hy => h y (List.mem_cons_of_mem _ hy)) n

/-- What a fetch of plain code answers, by what its bytes decode to. -/
theorem fetch_plain {s : State} (h : s.PlainCode maxLength) :
    (∀ i n, decode s.ctx s.codeBytes = .instr i n → isPrefix i = true ∨ s.pfx.count + n ≤ maxLength →
      fetch s = .ok i (s.skip n)) ∧
    (∀ i n, decode s.ctx s.codeBytes = .instr i n → isPrefix i = false → maxLength < s.pfx.count + n →
      fetch s = .error (.exn (Exn.gp 0) .nothing) s) ∧
    (decode s.ctx s.codeBytes = .reject .invalid → fetch s = .error (.exn Exn.ud .nothing) s) := by
  have hg := gather_plain h maxLength 0 (by omega)
  have hbytes : (gather maxLength 0 s).1.map Prod.fst = s.codeBytes := by
    rw [hg, State.codeBytes, linearRange_eq_map, List.map_map, List.map_map]
    apply List.map_congr_left
    intro k _
    simp [State.linear, BitVec.add_assoc]
  have hafter (n : Nat) : stateAfter s (gather maxLength 0 s).1 n = s := by
    refine stateAfter_same (fun x hx => ?_) n
    rw [hg] at hx
    obtain ⟨k, -, rfl⟩ := List.mem_map.1 hx
    rfl
  refine ⟨fun i n hd hc => ?_, fun i n hd hp hc => ?_, fun hd => ?_⟩
  · simp only [fetch, hbytes, hd, hafter]
    rw [if_pos (by simpa using hc)]
  · simp only [fetch, hbytes, hd, hafter]
    rw [if_neg (by simp [hp]; omega)]
  · simp only [fetch, hbytes, hd, hafter]

/-- Where nothing of the queue is in doubt only `instrEip` is marked. -/
theorem markStart_of_queued_nil {s : State} (hq : s.queued = []) :
    s.markStart = { s with instrEip := if s.pfx.count = 0 then s.eip else s.instrEip } := by
  have hd : s.queuedD = none := by simp [State.queuedD, hq]
  unfold State.markStart
  rw [hd]
  by_cases hc : s.pfx.count = 0 <;> simp [hc]

/-- A step with nothing else to do runs the next instruction or iteration. -/
theorem step_of_no_interruption {r s : State} (hr : r.pins.reset = false) (hp : prefetch r = .ok () s)
    (hi : interruption s = none) : step r = stepInstr s := by
  unfold step stepOnce
  rw [hr, if_neg (by decide), hp]
  simp only [stepAfterPrefetch, hi]

theorem stepInstr_fetched {s s' : State} {i : Instr} (ha : s.pfx.again = none) (hf : fetch s.markStart = .ok i s') :
    stepInstr s = runInstr i s' := by
  unfold stepInstr
  rw [ha]
  simp only [hf]

/-- A fetch that stops with an exception raises it. -/
theorem stepInstr_exn {s : State} {e : Exn} (ha : s.pfx.again = none)
    (hf : fetch s.markStart = .error (.exn e .nothing) s.markStart) : stepInstr s = takeException e s.markStart := by
  unfold stepInstr
  rw [ha]
  simp only [hf]
  rfl

theorem runInstr_of_none {i : Instr} {s : State} (h : lockFault i s = none) : runInstr i s = exec i s := by
  unfold runInstr; rw [h]

theorem runInstr_of_some {i : Instr} {s : State} {e : Exn} (h : lockFault i s = some e) :
    runInstr i s = takeException e s := by
  unfold runInstr; rw [h]

/-- Settles O6: `prefetch_cases` for what comes before, `fetch_plain` for the instruction. -/
theorem stepRunsDecoded : Obligations.StepRunsDecoded := by
  refine ⟨fun r hr => ?_, fun r => prefetch_of_allMemory, fun r s hr hp hi => ?_⟩
  · rcases prefetch_cases r with ⟨t, ht, hc⟩ | ⟨⟨w, t, ht⟩, ha⟩
    · exact .inl ⟨t, ht, hc.cycles, hc.eq⟩
    · refine .inr ⟨⟨w, ?_⟩, ha⟩
      unfold step stepOnce
      rw [hr, if_neg (by decide), ht]
      rfl
  · rw [step_of_no_interruption hr hp hi]
    refine ⟨fun a ha => ?_, fun ha hplain hstale hqueued hvalid hover hlimit => ?_⟩
    · unfold stepInstr
      rw [ha]
      rfl
    · have hm := markStart_of_queued_nil hqueued
      have hcode : s.markStart.PlainCode maxLength := by
        rw [hm]
        exact ⟨hplain, hstale, hqueued, hvalid, hover, Nat.succ_le_succ hlimit⟩
      obtain ⟨hok, hlong, hinvalid⟩ := fetch_plain hcode
      have hctx : s.markStart.ctx = s.ctx := by rw [hm]; rfl
      have hbytes : s.markStart.codeBytes = (linearRange (s.linear .cs s.eip) 15).map s.readByte := by rw [hm]; rfl
      have hcount : s.markStart.pfx.count = s.pfx.count := by rw [hm]
      rw [hctx, hbytes, hcount] at hok hlong
      rw [hctx, hbytes] at hinvalid
      have hpre (i : Instr) : i ∈ [Instr.addrsize, .lock, .opsize, .segCs, .segDs, .segEs, .segFs, .segGs, .segSs,
        .repneRep, .repeRep] ↔ isPrefix i = true := (isPrefix_iff i).symm
      refine ⟨fun hd => stepInstr_exn ha (hinvalid hd), fun i n hd => ⟨fun hc => ?_, fun hnp hc => ?_, ?_⟩⟩
      · rw [hpre] at hc
        rw [stepInstr_fetched ha (hok i n hd hc)]
        exact ⟨runInstr_of_none, fun e => runInstr_of_some⟩
      · rw [hpre, Bool.not_eq_true] at hnp
        exact stepInstr_exn ha (hlong i n hd hnp hc)
      · rw [hm]; exact ⟨rfl, rfl⟩

end Sys2Proof.Machine
end

section
/-! O9 and O10: the bytes of an operand, what answers for them, and the segment checks. -/

namespace Sys2Proof.Machine

/-! Bytes of a dword. -/

/-- Byte `k` of a value, as `leBytes` lists it. -/
theorem leBytes_getElem (n k : Nat) (v : Dword) (h : k < (leBytes n v).length) :
    (leBytes n v)[k] = v.extractLsb' (8 * k) 8 := by
  induction n generalizing k v with
  | zero => simp at h
  | succ n ih =>
    cases k with
    | zero => simp [leBytes, BitVec.setWidth_eq_extractLsb']
    | succ k =>
      simp only [leBytes, List.getElem_cons_succ]
      rw [ih]
      apply BitVec.eq_of_getLsbD_eq
      intro i hi
      simp [hi, show 8 * (k + 1) + i = 8 + (8 * k + i) by omega]

theorem leNat_lt (bs : List Byte) : leNat bs < 2 ^ (8 * bs.length) := by
  induction bs with
  | nil => simp [leNat]
  | cons b bs ih =>
    have hb := b.isLt
    simp only [leNat, List.length_cons, show 8 * (bs.length + 1) = 8 * bs.length + 8 by omega, Nat.pow_add]
    omega

/-- Byte `k` of the number that bytes make. -/
theorem leNat_byte (bs : List Byte) (k : Nat) (h : k < bs.length) : leNat bs / 2 ^ (8 * k) % 256 = bs[k].toNat := by
  induction bs generalizing k with
  | nil => simp at h
  | cons b bs ih =>
    have hb := b.isLt
    cases k with
    | zero => simp only [leNat, Nat.mul_zero, Nat.pow_zero, Nat.div_one, List.getElem_cons_zero]; omega
    | succ k =>
      simp only [leNat, List.getElem_cons_succ, show 8 * (k + 1) = 8 + 8 * k by omega, Nat.pow_add, ← Nat.div_div_eq_div_mul]
      rw [← ih k (by simpa using h)]
      congr 2
      omega

theorem leDword_toNat {bs : List Byte} (h : bs.length ≤ 4) : (leDword bs).toNat = leNat bs := by
  have := leNat_lt bs
  unfold leDword
  rw [BitVec.toNat_ofNat, Nat.mod_eq_of_lt]
  exact this.trans_le (Nat.pow_le_pow_right (by omega) (by omega))

theorem leDword_byte {bs : List Byte} (h : bs.length ≤ 4) (k : Nat) (hk : k < bs.length) :
    (leDword bs).extractLsb' (8 * k) 8 = bs[k] := by
  apply BitVec.eq_of_toNat_eq
  rw [BitVec.extractLsb'_toNat, leDword_toNat h, Nat.shiftRight_eq_div_pow, ← leNat_byte bs k hk]

theorem leDword_toNat_lt {bs : List Byte} (h : bs.length ≤ 4) : (leDword bs).toNat < 2 ^ (8 * bs.length) := by
  rw [leDword_toNat h]; exact leNat_lt bs

theorem bits_eq (sz : Size) : sz.bits = 8 * sz.bytes := by cases sz <;> rfl

/-! Where nothing answers, and where a device does. -/

theorem Quiet.isAbsent {s t : State} (h : Quiet s t) (p : Dword) : t.isAbsent p = s.isAbsent p := by
  unfold State.isAbsent; rw [h.params]

/-- A read of which one byte is where nothing answers waits forever. -/
theorem readPhys_absent {s : State} {as : List Dword} {p : Dword} (hp : p ∈ as) (ha : s.isAbsent p = true) :
    readPhys as s = .error (.fault (.noReady (s.readStuck as))) s := by
  unfold readPhys; rw [if_pos (List.any_eq_true.2 ⟨p, hp, ha⟩)]

theorem writePhys_absent {s : State} {as : List Dword} {p : Dword} (bs : List Byte) (hp : p ∈ as)
    (ha : s.isAbsent p = true) : writePhys as bs s = .error (.fault (.noReady (s.writeStuck as bs))) s := by
  unfold writePhys; rw [if_pos (List.any_eq_true.2 ⟨p, hp, ha⟩)]

theorem memRead_absent {s u : State} {sr : SReg} {off : Dword} {sz : Size} {as : List Dword} {p : Dword}
    (hc : s.segOk sr off sz.bytes false = true)
    (hr : physRange false s.isUser (s.linear sr off) sz.bytes s = .ok as u) (hp : p ∈ as) (ha : s.isAbsent p = true) :
    ∃ t u', memRead sr off sz s = .error (.fault (.noReady u')) t := by
  obtain ⟨v, hv, -⟩ := noteAccess_answers false (s.linear sr off) sz.bytes u
  have hq := (quiet_physRange hr).trans (quiet_noteAccess hv)
  refine ⟨v, v.readStuck as, ?_⟩
  unfold memRead
  rw [run_bind_ok (segCheck_eq_ok.2 ⟨hc, rfl⟩ : _ = EStateM.Result.ok () s), run_bind_ok (run_get s)]
  refine run_bind_error ?_
  unfold readLinear
  rw [run_bind_ok hr, run_bind_ok hv]
  exact readPhys_absent hp (by rw [hq.isAbsent]; exact ha)

theorem memWrite_absent {s u : State} {sr : SReg} {off v : Dword} {sz : Size} {as : List Dword} {p : Dword}
    (hc : s.segOk sr off sz.bytes true = true)
    (hr : physRange true s.isUser (s.linear sr off) sz.bytes s = .ok as u) (hp : p ∈ as) (ha : s.isAbsent p = true) :
    ∃ t u', memWrite sr off sz v s = .error (.fault (.noReady u')) t := by
  obtain ⟨t, ht, -⟩ := noteAccess_answers true (s.linear sr off) sz.bytes u
  have hq := (quiet_physRange hr).trans (quiet_noteAccess ht)
  refine ⟨t, t.writeStuck as (leBytes sz.bytes v), ?_⟩
  unfold memWrite
  rw [run_bind_ok (segCheck_eq_ok.2 ⟨hc, rfl⟩ : _ = EStateM.Result.ok () s), run_bind_ok (run_get s)]
  unfold writeLinear
  rw [leBytes_length, run_bind_ok hr, run_bind_ok ht]
  exact writePhys_absent _ hp (by rw [hq.isAbsent]; exact ha)

/-- The addresses of an operand inside one dword. -/
structure InDword (l : Dword) (n : Nat) : Prop where
  one : 1 ≤ n
  fits : l.toNat % 4 + n ≤ 4

theorem InDword.toNat {l : Dword} {n : Nat} (h : InDword l n) {k : Nat} (hk : k < n) :
    (l + BitVec.ofNat 32 k).toNat = l.toNat + k := by
  have := l.isLt
  have := h.fits
  simp only [BitVec.toNat_add, BitVec.toNat_ofNat]
  omega

/-- One cycle takes it, where BS16# is not asserted. -/
theorem InDword.cycles {l : Dword} {n : Nat} (h : InDword l n) {sixteen : Dword → Bool} (h16 : sixteen l = false) :
    accessCycles sixteen n 0 (linearRange l n) = [(0, n)] := by
  have h1 := h.one
  have h4 := h.fits
  obtain ⟨m, rfl⟩ : ∃ m, n = m + 1 := ⟨n - 1, by omega⟩
  have hm : min 4 (m + 1) = m + 1 := by omega
  have hdrop : (linearRange l (m + 1)).drop 4 = [] := List.drop_eq_nil_of_le (by rw [linearRange_length]; omega)
  have hnil : ∀ k, accessCycles sixteen m k [] = [] := fun k => by cases m <;> rfl
  have hcyc : ∀ f : Nat → Bool, f l.toNat = false → operandCycles f (m + 1) l.toNat = [(0, m + 1)] := by
    intro f hf
    unfold operandCycles dwordCycles
    rw [if_neg (by omega)]
    simp [hf]
  unfold linearRange at hdrop ⊢
  unfold accessCycles
  simp only [linearRange_length, hm, hdrop, hnil]
  rw [hcyc _ (by simpa using h16)]
  simp

/-- The cycle that a device at every byte sees. -/
theorem InDword.noteCycles {s : State} {l : Dword} {n : Nat} (h : InDword l n) {kind : Config.CycleKind}
    (hd : ∀ k, k < n → s.params.responder (l.toNat + k) = some .device) (h16 : s.params.asserts16 kind l.toNat = false)
    (cycle : Nat → Nat → Nat → BusCycle) :
    s.noteCycles kind (linearRange l n) cycle =
      { s with deviceBus := { after := s.bus.length, cycle := cycle 0 l.toNat n } :: s.deviceBus } := by
  have hdev : ∀ k, k < n → s.isDevice (l + BitVec.ofNat 32 k) = true ∧ s.isAbsent (l + BitVec.ofNat 32 k) = false := by
    intro k hk
    unfold State.isDevice State.isAbsent
    rw [h.toNat hk, hd k hk]
    exact ⟨rfl, rfl⟩
  have habs : (linearRange l n).any s.isAbsent = false := by
    rw [List.any_eq_false]
    intro p hp
    obtain ⟨k, hk, rfl⟩ := mem_linearRange.1 hp
    simp [(hdev k hk).2]
  have hany : (linearRange l n).any s.isDevice = true := by
    refine List.any_eq_true.2 ⟨l, mem_linearRange.2 ⟨0, h.one, by simp⟩, ?_⟩
    simpa using (hdev 0 h.one).1
  have htake : (linearRange l n).take n = linearRange l n := List.take_of_length_le (by simp)
  have hget : (linearRange l n)[0]? = some l := by
    rw [List.getElem?_eq_getElem (by rw [linearRange_length]; exact h.one), linearRange_get l n 0 h.one]
    simp
  unfold State.noteCycles State.cyclesRun
  rw [linearRange_length, h.cycles h16]
  simp [List.takeWhile, htake, habs, hany, -List.any_eq_true, -List.any_eq_false, hget]

theorem InDword.any_device {s : State} {l : Dword} {n : Nat} (h : InDword l n)
    (hd : ∀ k, k < n → s.params.responder (l.toNat + k) = some .device) :
    (linearRange l n).any s.isAbsent = false ∧ (linearRange l n).any s.isDevice = true := by
  constructor
  · rw [List.any_eq_false]
    intro p hp
    obtain ⟨k, hk, rfl⟩ := mem_linearRange.1 hp
    unfold State.isAbsent
    rw [h.toNat hk, hd k hk]
    simp
  · refine List.any_eq_true.2 ⟨l, mem_linearRange.2 ⟨0, h.one, by simp⟩, ?_⟩
    unfold State.isDevice
    rw [show l.toNat = l.toNat + 0 from rfl, hd 0 h.one]
    rfl

theorem memRead_device {s : State} {sr : SReg} {off : Dword} {sz : Size} (hpg : s.cr0.pg = false)
    (hc : s.segOk sr off sz.bytes false = true) (h : InDword (s.linear sr off) sz.bytes)
    (hd : ∀ k, k < sz.bytes → s.params.responder ((s.linear sr off).toNat + k) = some .device)
    (h16 : s.params.asserts16 .memoryDataRead (s.linear sr off).toNat = false) :
    ∃ x t, memRead sr off sz s = .ok x t ∧
      t.deviceBus = { after := s.bus.length, cycle := .memoryRead (s.linear sr off).toNat sz.bytes } :: s.deviceBus ∧
      t.mem = s.mem := by
  obtain ⟨u, hu, he⟩ := noteAccess_answers false (s.linear sr off) sz.bytes s
  have hd' : ∀ k, k < sz.bytes → u.params.responder ((s.linear sr off).toNat + k) = some .device := by rw [he]; exact hd
  have hany := h.any_device hd'
  have hn := h.noteCycles hd' (kind := .memoryDataRead) (by rw [he]; exact h16) fun _ a n => .memoryRead a n
  refine ⟨leDword (u.answers u.draws (linearRange (s.linear sr off) sz.bytes)),
    { u.noteCycles .memoryDataRead (linearRange (s.linear sr off) sz.bytes) (fun _ a n => .memoryRead a n) with
      draws := u.draws + (linearRange (s.linear sr off) sz.bytes).length }, ?_, ?_, ?_⟩
  · unfold memRead
    rw [run_bind_ok (segCheck_eq_ok.2 ⟨hc, rfl⟩ : _ = EStateM.Result.ok () s), run_bind_ok (run_get s)]
    unfold readLinear
    rw [run_bind_ok (a := u.answers u.draws (linearRange (s.linear sr off) sz.bytes)) (by
      rw [run_bind_ok (physRange_unpaged hpg _ _ _ _ h.one (by have := h.fits; omega)), run_bind_ok hu]
      unfold readPhys
      rw [if_neg (by simp [hany.1, -List.any_eq_true]), if_pos hany.2])]
    rfl
  · rw [hn, he]
  · rw [hn, he]

theorem writeCells_fixed {fixed : Nat → Bool} {m : List Host.Cell} {as : List Dword} (bs : List Byte)
    (h : ∀ a ∈ as, fixed a.toNat = true) : writeCells fixed m as bs = m := by
  induction as generalizing bs with
  | nil => rfl
  | cons a as ih =>
    cases bs with
    | nil => rfl
    | cons b bs =>
      have ha : writeCell fixed m a.toNat b = m := by unfold writeCell; rw [if_pos (h a List.mem_cons_self)]
      rw [writeCells, ha]
      exact ih bs fun x hx => h x (List.mem_cons_of_mem _ hx)

theorem memWrite_device {s : State} {sr : SReg} {off v : Dword} {sz : Size} (hpg : s.cr0.pg = false)
    (hc : s.segOk sr off sz.bytes true = true) (h : InDword (s.linear sr off) sz.bytes)
    (hd : ∀ k, k < sz.bytes → s.params.responder ((s.linear sr off).toNat + k) = some .device)
    (h16 : s.params.asserts16 .memoryDataWrite (s.linear sr off).toNat = false) :
    ∃ t, memWrite sr off sz v s = .ok () t ∧
      t.deviceBus = { after := s.bus.length,
                      cycle := .memoryWrite (s.linear sr off).toNat (leBytes sz.bytes v) } :: s.deviceBus ∧
      t.mem = s.mem := by
  obtain ⟨u, hu, he⟩ := noteAccess_answers true (s.linear sr off) sz.bytes s
  have hd' : ∀ k, k < sz.bytes → u.params.responder ((s.linear sr off).toNat + k) = some .device := by rw [he]; exact hd
  have hany := h.any_device hd'
  have hn := h.noteCycles hd' (kind := .memoryDataWrite) (by rw [he]; exact h16) fun k a n =>
    .memoryWrite a (((leBytes sz.bytes v).drop k).take n)
  have hfix : ∀ a ∈ linearRange (s.linear sr off) sz.bytes, s.isFixed a.toNat = true := by
    intro a ha
    obtain ⟨k, hk, rfl⟩ := mem_linearRange.1 ha
    unfold State.isFixed
    rw [h.toNat hk, hd k hk]
    rfl
  refine ⟨(u.noteCycles .memoryDataWrite (linearRange (s.linear sr off) sz.bytes) fun k a n =>
    .memoryWrite a (((leBytes sz.bytes v).drop k).take n)).storePhys (linearRange (s.linear sr off) sz.bytes)
      (leBytes sz.bytes v), ?_, ?_, ?_⟩
  · unfold memWrite
    rw [run_bind_ok (segCheck_eq_ok.2 ⟨hc, rfl⟩ : _ = EStateM.Result.ok () s), run_bind_ok (run_get s)]
    unfold writeLinear
    rw [leBytes_length, run_bind_ok (physRange_unpaged hpg _ _ _ _ h.one (by have := h.fits; omega)), run_bind_ok hu]
    unfold writePhys
    rw [if_neg (by simp [hany.1, -List.any_eq_true]), if_pos hany.2]
  · rw [hn, he]
    simp [List.take_of_length_le]
  · show writeCells _ (u.noteCycles _ _ _).mem _ _ = _
    rw [hn, he]
    exact writeCells_fixed _ hfix

/-! The obligations. -/

/-- What a store that answers has left at its physical addresses. -/
theorem memWrite_stored {s t u : State} {sr : SReg} {off v : Dword} {sz : Size} {as : List Dword} (hs : s.Inv)
    (hw : memWrite sr off sz v s = .ok () t) (hr : physRange true s.isUser (s.linear sr off) sz.bytes s = .ok as u) :
    as.length = sz.bytes ∧ as.Nodup ∧
      (∀ k p, as[k]? = some p → t.readByte p = s.stored p (v.extractLsb' (8 * k) 8)) ∧ ∀ p, p ∉ as → SameByte s t p := by
  obtain ⟨-, hwrote⟩ := memWrite_ok hw
  have hb := bytes_le_four sz
  obtain ⟨hnd, hlen⟩ := physRange_nodup (by omega) hr
  obtain ⟨hl, hbytes, hother⟩ := hwrote.bytes hs.mem as u (by rw [leBytes_length]; exact hr)
  refine ⟨hlen (one_le_bytes sz), hnd, ?_, hother⟩
  intro k p hk
  obtain ⟨hk1, rfl⟩ := List.getElem?_eq_some_iff.1 hk
  have := List.getElem_of_eq hbytes (i := k) (by simpa using hk1)
  rw [List.getElem_map, List.getElem_zipWith, leBytes_getElem] at this
  exact this

/-- An operand in memory is its bytes, the lowest the least significant. -/
theorem operand_byte (s : State) (sr : SReg) (off : Dword) (sz : Size) (k : Nat) (hk : k < sz.bytes) :
    (leDword (s.operandBytes sr off sz.bytes)).extractLsb' (8 * k) 8 =
      s.readByte ((s.seg sr).base + off + BitVec.ofNat 32 k) := by
  have hb := bytes_le_four sz
  have hl : (s.operandBytes sr off sz.bytes).length = sz.bytes := by simp [State.operandBytes]
  rw [leDword_byte (by omega) k (by omega)]
  unfold State.operandBytes
  rw [List.getElem_map, linearRange_get _ _ _ hk]
  rfl

/-- Settles O9. -/
theorem memoryIsLittleEndian : Obligations.MemoryIsLittleEndian := by
  unfold Obligations.MemoryIsLittleEndian
  refine ⟨?store, ?absent, ?device, ?load⟩
  case store =>
    intro s t u sr off v sz as hs hw hr
    obtain ⟨hl, hn, hb, ho⟩ := memWrite_stored hs hw hr
    obtain ⟨-, hwrote⟩ := memWrite_ok hw
    exact ⟨hl, hn, hb, ho, hwrote.regs, hwrote.eflags, hwrote.rest⟩
  case absent =>
    intro s sr off v sz w as u p hc hr hp ha
    have ha : s.isAbsent p = true := by unfold State.isAbsent; rw [ha]; rfl
    exact ⟨fun h => by subst h; exact memRead_absent hc hr hp ha, fun h => by subst h; exact memWrite_absent hc hr hp ha⟩
  case device =>
    rintro s sr off v sz a hpg rfl hfit hd
    have h : InDword (s.linear sr off) sz.bytes := ⟨one_le_bytes sz, hfit⟩
    exact ⟨fun hc h16 => memRead_device hpg hc h hd h16, fun hc h16 => memWrite_device hpg hc h hd h16⟩
  case load =>
    intro s sr off sz hp hc
    obtain ⟨t, ht, he⟩ := memRead_unpaged hp hc
    refine ⟨_, t, ht, he, operand_byte s sr off sz, ?_⟩
    have hl : (s.operandBytes sr off sz.bytes).length = sz.bytes := by simp [State.operandBytes]
    have hlt := leDword_toNat_lt (bs := s.operandBytes sr off sz.bytes) (by rw [hl]; exact bytes_le_four sz)
    rwa [hl, ← bits_eq] at hlt

/-! Segment checks. -/

theorem segCheck_error {s : State} {sr : SReg} {off : Dword} {n : Nat} {w : Bool} (h : s.segOk sr off n w = false) :
    segCheck sr off n w s = .error (.exn (segFault sr) .nothing) s := by
  unfold segCheck; rw [h]; rfl

theorem memRead_segFault {s : State} {sr : SReg} {off : Dword} {sz : Size} (h : s.segOk sr off sz.bytes false = false) :
    memRead sr off sz s = .error (.exn (segFault sr) .nothing) s := by
  unfold memRead; exact run_bind_error (segCheck_error h)

theorem memWrite_segFault {s : State} {sr : SReg} {off v : Dword} {sz : Size} (h : s.segOk sr off sz.bytes true = false) :
    memWrite sr off sz v s = .error (.exn (segFault sr) .nothing) s := by
  unfold memWrite; exact run_bind_error (segCheck_error h)

/-- Beyond the limit, or outside an expand-down segment. -/
theorem limitOk_eq_false {c : SegReg} {off : Dword} {n : Nat}
    (h : (c.expandDown = false ∧ c.limit.toNat < off.toNat + n - 1) ∨
      (c.expandDown = true ∧ (off.toNat ≤ c.limit.toNat ∨ (if c.db then 2 ^ 32 else 2 ^ 16) < off.toNat + n))) :
    c.limitOk off n = false := by
  unfold SegReg.limitOk
  rcases h with ⟨he, h⟩ | ⟨he, h⟩
  · rw [he]; simp; omega
  · rw [he]
    rcases h with h | h
    · simp [h]
    · simp only [if_true, Bool.and_eq_false_iff, decide_eq_false_iff_not]
      exact .inr (by omega)

theorem segOk_of_limit {s : State} {sr : SReg} {off : Dword} {n : Nat} (w : Bool)
    (h : (s.seg sr).limitOk off n = false) : s.segOk sr off n w = false := by
  unfold State.segOk; rw [h]; rfl

theorem segOk_of_rights {s : State} {sr : SReg} {off : Dword} {n : Nat} {w : Bool} (hp : s.cr0.pe = true)
    (h : (s.seg sr).rightsOk w = false) : s.segOk sr off n w = false := by
  unfold State.segOk; rw [h, hp]; simp

/-- Settles O10. -/
theorem segmentChecks : Obligations.SegmentChecks := by
  unfold Obligations.SegmentChecks
  rintro s sr off v sz c rfl
  refine ⟨?both, ?store, ?load⟩
  case both =>
    intro h
    have hc : ∀ w, s.segOk sr off sz.bytes w = false := by
      intro w
      rcases h with h | h | ⟨hp, hv⟩
      · exact segOk_of_limit w (limitOk_eq_false (.inl h))
      · exact segOk_of_limit w (limitOk_eq_false (.inr h))
      · exact segOk_of_rights hp (by unfold SegReg.rightsOk; rw [hv]; rfl)
    exact ⟨memRead_segFault (hc false), memWrite_segFault (hc true)⟩
  case store =>
    intro hp h
    have hw : (s.seg sr).writable = false := by
      rcases h with h | h
      · unfold SegReg.isCode at h; unfold SegReg.writable; rw [h]; rfl
      · exact h
    exact memWrite_segFault (segOk_of_rights hp (by unfold SegReg.rightsOk; simp [hw]))
  case load =>
    intro hp _ hr
    exact memRead_segFault (segOk_of_rights hp (by unfold SegReg.rightsOk; simp [hr]))

end Sys2Proof.Machine
end

section
/-! O11: what a page walk gives, what it sets and when it raises a page fault. -/

namespace Sys2Proof.Machine

/-- Where the TLB does not hold the page, translation is the walk. -/
theorem translate_walk {s : State} {l : Dword} (hpg : s.cr0.pg = true) (hf : findEntry (pageOf l) s.tlb = none)
    (w u : Bool) : translate w u l s = walk w u l s := by
  unfold translate
  rw [hpg]
  simp [hf]

/-- A low bit of a dword in memory is a bit of its first byte. -/
theorem physDword_bit (s : State) (a : Dword) {i : Nat} (hi : i < 8) :
    (s.physDword a).getLsbD i = (s.readByte a).getLsbD i := by
  have h := leDword_byte (bs := [s.readByte a, s.readByte (a + 1), s.readByte (a + 2), s.readByte (a + 3)])
    (by simp) 0 (by simp)
  have h := congrArg (fun v => v.getLsbD i) h
  simp only [BitVec.getLsbD_extractLsb', hi, decide_true, Bool.true_and, Nat.mul_zero, Nat.zero_add,
    List.getElem_cons_zero] at h
  exact h

/-- The first byte of a table entry that is written. -/
theorem setPhysDword_first {s : State} (h : Memory.wf s.mem = true) (a v : Dword) (hf : s.isFixed a.toNat = false)
    {i : Nat} (hi : i < 8) : ((s.setPhysDword a v).physDword a).getLsbD i = v.getLsbD i := by
  have hb : (s.setPhysDword a v).readByte a = v.extractLsb' 0 8 := by
    refine (read_writeCells_get h [a, a + 1, a + 2, a + 3] (leBytes 4 v) (quad_nodup a) (k := 0) (by simp) (by simp)).trans ?_
    rw [leBytes_getElem]
    simp [hf]
  rw [physDword_bit _ _ hi, hb]
  simp [hi]

theorem setPhysDword_other {s : State} (h : Memory.wf s.mem = true) {a b : Dword} (v : Dword)
    (hb : b ∉ [a, a + 1, a + 2, a + 3]) {i : Nat} (hi : i < 8) :
    ((s.setPhysDword a v).physDword b).getLsbD i = (s.physDword b).getLsbD i := by
  rw [physDword_bit _ _ hi, physDword_bit _ _ hi]
  congr 1
  exact read_writeCells_other h _ _ hb

/-- Two dwords at aligned addresses are the same or apart. -/
theorem aligned_apart {a b : Dword} (ha : a.toNat % 4 = 0) (hb : b.toNat % 4 = 0) (hne : a ≠ b) :
    a ∉ [b, b + 1, b + 2, b + 3] := by
  have hlt := a.isLt
  have hlt' := b.isLt
  have hx : ∀ k : Nat, k < 4 → 1 ≤ k → a ≠ b + BitVec.ofNat 32 k := by
    intro k hk hk1 he
    have := congrArg BitVec.toNat he
    simp only [BitVec.toNat_add, BitVec.toNat_ofNat] at this
    omega
  have h1 := hx 1 (by omega) (by omega)
  have h2 := hx 2 (by omega) (by omega)
  have h3 := hx 3 (by omega) (by omega)
  simp only [List.mem_cons, List.not_mem_nil, or_false, not_or]
  exact ⟨hne, h1, h2, h3⟩

/-- Table entries lie at multiples of 4. -/
theorem table_aligned (f : BitVec 20) (x : Dword) : ((f ++ 0#12) + (x <<< 2)).toNat % 4 = 0 := by
  have e1 : (f ++ 0#12 : Dword).toNat = f.toNat * 4096 := by
    rw [BitVec.toNat_append]
    simp [Nat.shiftLeft_eq]
  have := x.isLt
  rw [BitVec.toNat_add, BitVec.toNat_shiftLeft, e1, Nat.shiftLeft_eq]
  omega

theorem and_page (v : Dword) : v &&& 0xFFFFF000 = pageOf v ++ 0#12 := by
  apply BitVec.eq_of_getLsbD_eq
  intro i hi
  have hb : (0xFFFFF000 : Dword).getLsbD i = decide (12 ≤ i) := by revert i; decide
  rw [BitVec.getLsbD_and, hb, BitVec.getLsbD_append, pageOf, BitVec.getLsbD_extractLsb']
  by_cases h : i < 12
  · simp [h]
  · simp [h, show 12 ≤ i by omega, show i - 12 < 20 by omega, show 12 + (i - 12) = i by omega]

/-- Frame and offset. -/
theorem physical_eq (e : TlbEntry) (l pte : Dword) (h : e.frame = pageOf pte) :
    e.physical l = (pte &&& 0xFFFFF000) + (l &&& 0xFFF) := by
  have hoff : l &&& 0xFFF = (0#20 ++ offsetIn l : Dword) := by
    apply BitVec.eq_of_getLsbD_eq
    intro i hi
    have hb : (0xFFF : Dword).getLsbD i = decide (i < 12) := by revert i; decide
    rw [BitVec.getLsbD_and, hb, BitVec.getLsbD_append, offsetIn, BitVec.getLsbD_extractLsb']
    by_cases h : i < 12 <;> simp [h]
  rw [hoff, and_page, ← h]
  apply BitVec.eq_of_toNat_eq
  have h1 := e.frame.isLt
  have h2 := (offsetIn l).isLt
  unfold TlbEntry.physical
  rw [BitVec.toNat_add]
  simp only [BitVec.toNat_append, ← Nat.shiftLeft_add_eq_or_of_lt h2, BitVec.toNat_ofNat]
  simp [Nat.shiftLeft_eq]
  omega

/-- The entries of a walk, by the names the statement gives them. -/
structure WalkOf (s : State) (l : Dword) (e : TableEntries) : Prop where
  entries : s.tableEntries l = e
  pdeAligned : e.pdeAt.toNat % 4 = 0
  pteAligned : e.pteAt.toNat % 4 = 0

theorem walkOf_tableEntries (s : State) (l : Dword) : WalkOf s l (s.tableEntries l) := by
  refine ⟨rfl, table_aligned _ _, ?_⟩
  have h := table_aligned (pageOf (s.tableEntries l).pde) ((l >>> 12) &&& 0x3FF)
  rw [← and_page] at h
  exact h

/-- A walk at whose tables nothing answers. -/
theorem walk_absent {s : State} {l : Dword} (w u : Bool)
    (h : s.absentDword (s.tableEntries l).pdeAt = true ∨
      ((s.tableEntries l).pde.getLsbD 0 = true ∧ s.absentDword (s.tableEntries l).pteAt = true)) :
    walk w u l s = .error (.fault (.noReady s)) s := by
  unfold walk entryPresent
  simp only
  rw [if_pos (by rcases h with h | ⟨h, h'⟩ <;> simp [*])]

/-- The tables answer: whatever the directory entry is, no access of the walk waits. -/
theorem walk_answers {s : State} {l : Dword}
    (h1 : s.absentDword (s.tableEntries l).pdeAt = false)
    (h2 : (s.tableEntries l).pde.getLsbD 0 = false ∨ s.absentDword (s.tableEntries l).pteAt = false) :
    (s.absentDword (s.tableEntries l).pdeAt ||
      (entryPresent (s.tableEntries l).pde && s.absentDword (s.tableEntries l).pteAt)) = false := by
  unfold entryPresent
  rcases h2 with h | h <;> simp [h1, h, -BitVec.getLsbD_eq_getElem]

theorem walk_notPresent {s : State} {l : Dword} (w u : Bool)
    (h1 : s.absentDword (s.tableEntries l).pdeAt = false)
    (h2 : (s.tableEntries l).pde.getLsbD 0 = false ∨
      (s.absentDword (s.tableEntries l).pteAt = false ∧ (s.tableEntries l).pte.getLsbD 0 = false)) :
    walk w u l s = .error (.exn (Exn.pf l false w u) .nothing) s := by
  have hok := walk_answers h1 (h2.imp id And.left)
  unfold walk
  simp only
  rw [hok]
  have : (!entryPresent (s.tableEntries l).pde || !entryPresent (s.tableEntries l).pte) = true := by
    unfold entryPresent
    rcases h2 with h | ⟨-, h⟩ <;> simp [h, -BitVec.getLsbD_eq_getElem]
  simp [this]

/-- A walk through two entries that are present. -/
theorem walk_present {s : State} {l : Dword} (w u : Bool)
    (h1 : s.absentDword (s.tableEntries l).pdeAt = false) (h2 : s.absentDword (s.tableEntries l).pteAt = false)
    (p1 : (s.tableEntries l).pde.getLsbD 0 = true) (p2 : (s.tableEntries l).pte.getLsbD 0 = true) :
    (((s.tableEntries l).translation l).permits w u = false →
      walk w u l s = .error (.exn (Exn.pf l true w u) .nothing) s) ∧
    (((s.tableEntries l).translation l).permits w u = true →
      ∃ t, walk w u l s = .ok (((s.tableEntries l).translation l).physical l) t ∧
        t.mem = ((s.setPhysDword (s.tableEntries l).pdeAt ((s.tableEntries l).pde ||| 0x20)).setPhysDword
          (s.tableEntries l).pteAt ((s.tableEntries l).pte ||| 0x20 ||| (if w then 0x40 else 0))).mem) := by
  have hok := walk_answers h1 (.inr h2)
  have hp : (!entryPresent (s.tableEntries l).pde || !entryPresent (s.tableEntries l).pte) = false := by
    unfold entryPresent; simp [p1, p2]
  constructor
  · intro hn
    unfold walk
    simp only
    rw [hok, hp, hn]
    rfl
  · intro hy
    unfold walk
    simp only
    rw [hok, hp, hy]
    exact ⟨_, rfl, rfl⟩

/-- What the protection check of a walk comes to. -/
theorem permits_eq_false {e : TableEntries} {l : Dword} {w u : Bool}
    (h : u = true ∧ (e.pde.getLsbD 2 = false ∨ e.pte.getLsbD 2 = false ∨
      (w = true ∧ (e.pde.getLsbD 1 = false ∨ e.pte.getLsbD 1 = false)))) :
    (e.translation l).permits w u = false := by
  unfold TlbEntry.permits TableEntries.translation
  obtain ⟨rfl, h | h | ⟨rfl, h | h⟩⟩ := h <;> simp [h, -BitVec.getLsbD_eq_getElem]

theorem permits_eq_true {e : TableEntries} {l : Dword} {w u : Bool}
    (h : u = false ∨ (e.pde.getLsbD 2 = true ∧ e.pte.getLsbD 2 = true ∧
      (w = true → e.pde.getLsbD 1 = true ∧ e.pte.getLsbD 1 = true))) : (e.translation l).permits w u = true := by
  unfold TlbEntry.permits TableEntries.translation
  rcases h with rfl | ⟨h2, h2', hw⟩
  · rfl
  · cases w
    · simp [h2, h2']
    · obtain ⟨h1, h1'⟩ := hw rfl
      simp [h1, h1', h2, h2']

/-- The A and D bits that a walk leaves. -/
theorem walk_sets {s t : State} {l : Dword} {w : Bool} (hs : Memory.wf s.mem = true)
    (hm : t.mem = ((s.setPhysDword (s.tableEntries l).pdeAt ((s.tableEntries l).pde ||| 0x20)).setPhysDword
          (s.tableEntries l).pteAt ((s.tableEntries l).pte ||| 0x20 ||| (if w then 0x40 else 0))).mem) :
    (s.isFixed (s.tableEntries l).pteAt.toNat = false →
      (t.physDword (s.tableEntries l).pteAt).getLsbD 5 = true ∧
      (w = true → (t.physDword (s.tableEntries l).pteAt).getLsbD 6 = true)) ∧
    (s.isFixed (s.tableEntries l).pdeAt.toNat = false → (t.physDword (s.tableEntries l).pdeAt).getLsbD 5 = true) := by
  obtain ⟨-, ha, hb⟩ := walkOf_tableEntries s l
  generalize s.tableEntries l = e at *
  have hread : ∀ a, t.physDword a = ((s.setPhysDword e.pdeAt (e.pde ||| 0x20)).setPhysDword
      e.pteAt (e.pte ||| 0x20 ||| (if w then 0x40 else 0))).physDword a := by
    intro a; unfold State.physDword State.readByte; rw [hm]
  have hwf := State.setPhysDword_wf hs e.pdeAt (e.pde ||| 0x20)
  have hpte : s.isFixed e.pteAt.toNat = false → ∀ i, i < 8 →
      (t.physDword e.pteAt).getLsbD i = (e.pte ||| 0x20 ||| (if w then 0x40 else 0)).getLsbD i := by
    intro hf i hi
    rw [hread]
    exact setPhysDword_first hwf _ _ hf hi
  refine ⟨fun hf => ⟨?_, ?_⟩, fun hf => ?_⟩
  · rw [hpte hf 5 (by omega)]; simp
  · rintro rfl; rw [hpte hf 6 (by omega)]; simp
  · by_cases he : e.pdeAt = e.pteAt
    · rw [he] at hf ⊢
      rw [hpte hf 5 (by omega)]; simp
    · rw [hread, setPhysDword_other hwf _ (aligned_apart ha hb he) (by omega), setPhysDword_first hs _ _ hf (by omega)]
      simp

/-- Settles O11. -/
theorem pageTranslation : Obligations.PageTranslation := by
  unfold Obligations.PageTranslation
  rintro s w u l pdeAt pde pteAt pte hs hpg hf rfl rfl rfl rfl
  have hw := translate_walk hpg hf w u
  refine ⟨?absent, ?missing, ?present, rfl, rfl, fun p => rfl⟩
  case absent => exact fun h => hw.trans (walk_absent w u h)
  case missing => exact fun h1 h2 => hw.trans (walk_notPresent w u h1 h2)
  case present =>
    intro h1 h2 p1 p2
    obtain ⟨hno, hyes⟩ := walk_present w u h1 h2 p1 p2
    refine ⟨fun h => hw.trans (hno (permits_eq_false h)), fun h => ?_⟩
    obtain ⟨t, ht, hm⟩ := hyes (permits_eq_true h)
    have hq := quiet_walk ht hpg
    obtain ⟨hpte, hpde⟩ := walk_sets hs.mem hm
    refine ⟨t, ?_, hpte, hpde, hq.regs, hq.eflags, hq.rest, hq.bytes hs.mem⟩
    rw [hw, ht, physical_eq _ l (s.tableEntries l).pte rfl]
    rfl

end Sys2Proof.Machine
end

section
/-! How an instruction that reads, computes and writes an operand looks from its start, said once for the obligations of
the data transfer, arithmetic, logic and bit families. -/

namespace Sys2Proof.Machine

/-- An instruction that completes after quiet steps and changes of registers and flags. -/
theorem gives_of_quiet {i : Instr} {m : M Unit} {s s1 t : State} {g : Regs} {f : Eflags → Eflags}
    (hi : exec i s = complete m s) (hs : s.Inv) (hm : m s = .ok () t) (hq : Quiet s s1) (ht : t.putBack s1 = s1)
    (hmem : t.mem = s1.mem) (hg : t.regs = g)
    (hf : ({ t.eflags with rf := false } : Eflags) = { f { t.eflags with rf := false } with rf := false }) :
    Gives i s g f s :=
  gives_of hi hm hg hf (hq.putBack ht) fun p => (hq.bytes hs.mem p).of_mem rfl hmem rfl rfl

/-- An instruction that writes an operand after quiet steps, and then flags. -/
theorem puts_of_write {i : Instr} {m : M Unit} {s s1 s2 t : State} {l : Loc} {sz : Size} {v : Dword}
    {f : Eflags → Eflags} (hi : exec i s = complete m s) (hs : s.Inv) (hm : m s = .ok () t) (hq : Quiet s s1)
    (hw : writeLoc sz l v s1 = .ok () s2) (ht : t.putBack s2 = s2) (hmem : t.mem = s2.mem) (hg : t.regs = s2.regs)
    (hf : ({ t.eflags with rf := false } : Eflags) = { f { t.eflags with rf := false } with rf := false }) :
    Puts i s s1 l sz v f := by
  obtain ⟨hregs, -, hrest, -, -, -, hstored⟩ := writeLoc_ok hw
  refine puts_of hi hm ?_ hf ?_ ?_
  · rw [hg, hregs, hq.regs]
  · exact putBack_trans (hq.putBack hrest) ht
  · exact Loc.Stored.after hq hs.mem (Loc.Stored.of_mem hmem (hstored (hq.wf hs.mem)))

/-- The flags are those of the state before. -/
theorem writeLoc_flags {sz : Size} {l : Loc} {v : Dword} {s t : State} {a : Unit} (h : writeLoc sz l v s = .ok a t) :
    t.eflags = s.eflags := (writeLoc_ok h).2.1

theorem Quiet.seg {s t : State} (h : Quiet s t) (sr : SReg) : t.seg sr = s.seg sr :=
  putBack_congr h.rest (fun s => s.seg sr) fun _ _ => by cases sr <;> rfl

theorem Quiet.segOk {s t : State} (h : Quiet s t) (sr : SReg) (off : Dword) (n : Nat) (w : Bool) :
    t.segOk sr off n w = s.segOk sr off n w := by
  unfold State.segOk; rw [h.seg, h.cr0]

/-- An operand that can be read and then written is read to be updated. -/
theorem readToUpdate_ok {sz : Size} {l : Loc} {a v : Dword} {s1 s2 s3 : State} (hr : readLoc sz l s1 = .ok a s2)
    (hw : writeLoc sz l v s2 = .ok () s3) : readToUpdate sz l s1 = .ok a s2 := by
  cases l with
  | reg r => exact hr
  | mem sr off =>
    have hc : s1.segOk sr off sz.bytes true = true := by
      rw [← (quiet_readLoc hr).segOk]; exact (memWrite_ok hw).1
    exact (run_bind_ok (a := ()) (segCheck_eq_ok.2 ⟨hc, rfl⟩)).trans hr

end Sys2Proof.Machine
end

section
/-! O13 to O16: MOV, MOVZX, MOVSX, LEA, effective addresses and the system words that are stored. -/

namespace Sys2Proof.Machine

/-- An instruction that computes a value with a quiet read and writes it to a register. -/
theorem gives_readReg {i : Instr} {s s1 : State} {sz : Size} {r : Reg} {α : Type} {m : M α} {a : α} {k : α → Dword}
    (hi : exec i s = complete (m >>= fun a => writeReg sz r (k a)) s) (hs : s.Inv) (hm : m s = .ok a s1)
    (hq : Quiet s s1) : Gives i s (s.regs.write sz r (k a)) (fun _ => s.eflags) s := by
  refine gives_of_quiet (t := s1.setReg sz r (k a)) hi hs ((run_bind_ok hm).trans rfl) hq rfl rfl ?_ ?_
  · rw [State.setReg_regs, hq.regs]
  · simp [hq.eflags]

/-- Settles O13. -/
theorem movToOperand : Obligations.MovToOperand := by
  unfold Obligations.MovToOperand
  rintro s s1 s2 w rm l reg imm off a hs
  refine ⟨fun hr => ?rm, ?acc⟩
  case rm =>
    have hq := quiet_resolve hr
    exact ⟨fun hw => puts_of_write rfl hs ((run_bind_ok hr).trans hw) hq hw rfl rfl rfl
        (by simp [writeLoc_flags hw, hq.eflags]),
      fun hw => puts_of_write rfl hs ((run_bind_ok hr).trans hw) hq hw rfl rfl rfl
        (by simp [writeLoc_flags hw, hq.eflags])⟩
  case acc =>
    rintro rfl hw
    have hw' : writeLoc (s.wsz w) (.mem (s.pfx.seg.getD .ds) (absOffset off)) (s.reg (s.wsz w) .eax) s = .ok () s1 := hw
    exact puts_of_write rfl hs hw' (Quiet.refl s) hw' rfl rfl rfl (by simp [writeLoc_flags hw'])

/-- Settles O14. -/
theorem movToRegister : Obligations.MovToRegister := by
  unfold Obligations.MovToRegister
  intro s s1 w rm reg v hs
  refine ⟨?rm, ?imm, ?extend, ?lea, ?acc⟩
  case rm => exact fun hr => gives_readReg (k := fun v => v) rfl hs hr (quiet_readRm hr)
  case imm =>
    exact fun imm => gives_readReg (m := pure ()) (a := ()) (k := fun _ => immValue (s.wsz w) imm) rfl hs rfl (Quiet.refl s)
  case extend =>
    have hsz : (if w = .byte then Size.b8 else .b16) = extendSize w := by cases w <;> rfl
    rw [hsz]
    intro hr
    refine ⟨gives_readReg (k := fun v => v) rfl hs hr (quiet_readRm hr), ?_⟩
    have hv : (if w = .byte then (v.setWidth 8).signExtend 32 else (v.setWidth 16).signExtend 32) =
        signExtend (extendSize w) v := by cases w <;> rfl
    rw [hv]
    exact gives_readReg (k := fun v => signExtend (extendSize w) v) rfl hs hr (quiet_readRm hr)
  case lea => exact fun m a hr => gives_readReg (k := fun a => a.2) rfl hs hr (quiet_effectiveAddress hr)
  case acc =>
    rintro off a rfl hr
    have hr' : memRead (s.pfx.seg.getD .ds) (absOffset off) (s.wsz w) s = .ok v s1 := hr
    exact gives_readReg (k := fun v => v) rfl hs hr' (memRead_ok hr).2

/-! Effective addresses. -/

/-- An address that the spec defines is the offset of its form, in the default segment or the override. -/
theorem effectiveAddress_defined {m : MemOp} (h : MemOp.undefinedAddress m = false) (s : State) :
    effectiveAddress m s = .ok (s.pfx.seg.getD (MemOp.defaultSeg m), s.regs.offset m) s := by
  unfold effectiveAddress
  simp [h, State.overridden]

theorem undefined_sib {sc : Scale} {index : Option Reg} (h : index = none → sc = .x1) (base : Reg) (d : Disp32)
    (d' : Dword) : MemOp.undefinedAddress (.sib base sc index d) = false ∧
      MemOp.undefinedAddress (.sibAbs sc index d') = false := by
  cases index with
  | none => rw [h rfl]; exact ⟨rfl, rfl⟩
  | some r => exact ⟨rfl, rfl⟩

/-- A 16-bit sum is the low half of the 32-bit one. -/
theorem trunc16_add3 (a b : Dword) (c : Word) (c' : Dword) (h : c'.setWidth 16 = c) :
    trunc .b16 (a + b + c') = (a.setWidth 16 + b.setWidth 16 + c).setWidth 32 := by
  subst h
  apply BitVec.eq_of_toNat_eq
  simp [trunc]

theorem trunc16_add2 (a : Dword) (c : Word) (c' : Dword) (h : c'.setWidth 16 = c) :
    trunc .b16 (a + c') = (a.setWidth 16 + c).setWidth 32 := by
  subst h
  apply BitVec.eq_of_toNat_eq
  simp [trunc]

/-- The low half of a 16-bit form's displacement. -/
theorem dispValue16_low (d : Disp16) :
    (dispValue16 d).setWidth 16 = (match d with | .none => 0 | .d8 v => v.signExtend 16 | .d16 v => v : Word) := by
  cases d with
  | none => rfl
  | d8 v =>
    apply BitVec.eq_of_getLsbD_eq
    intro i hi
    simp [dispValue16, BitVec.getLsbD_signExtend, hi, show i < 32 by omega, -BitVec.getLsbD_eq_getElem]
  | d16 v =>
    apply BitVec.eq_of_getLsbD_eq
    intro i hi
    simp [dispValue16, BitVec.getLsbD_signExtend, hi, show i < 32 by omega, -BitVec.getLsbD_eq_getElem]

theorem scaledIndex_eq (g : Regs) (sc : Scale) (index : Option Reg) :
    g.scaledIndex sc index = match index with
      | none => 0
      | some r => g.get r * (match sc with | .x1 => 1 | .x2 => 2 | .x4 => 4 | .x8 => 8) := by
  cases index with
  | none => rfl
  | some r =>
    have h : ∀ n, g.get r <<< n = g.get r * BitVec.twoPow 32 n := fun n => (BitVec.mul_twoPow_eq_shiftLeft _ n).symm
    cases sc <;> exact h _

/-- Settles O15. -/
theorem effectiveAddress_forms : Obligations.EffectiveAddress := by
  unfold Obligations.EffectiveAddress
  rintro s scaled rfl
  refine ⟨?a16, fun d => rfl, fun d => rfl, ?base, ?sibAbs⟩
  case a16 =>
    intro b d
    have hd := dispValue16_low d
    rw [effectiveAddress_defined rfl]
    congr 2
    · cases b <;> rfl
    · cases b
      case bxSi | bxDi | bpSi | bpDi => exact trunc16_add3 _ _ _ _ hd
      case si | di | bp | bx => exact trunc16_add2 _ _ _ hd
  case base =>
    rintro base d x rfl
    refine ⟨?_, fun sc index hi => ?_⟩
    · rw [effectiveAddress_defined rfl]
      congr 2
      · cases base <;> rfl
    · rw [effectiveAddress_defined (undefined_sib hi base d 0).1]
      congr 2
      · cases base <;> rfl
      · exact congrArg (fun x => s.regs.get base + x + dispValue32 d) (scaledIndex_eq s.regs sc index)
  case sibAbs =>
    intro sc index d hi
    rw [effectiveAddress_defined (undefined_sib hi .eax .none d).2]
    congr 2
    exact congrArg (fun x => x + d) (scaledIndex_eq s.regs sc index)

end Sys2Proof.Machine
end

section
/-! O16: the instructions that store a 16-bit system value. -/

namespace Sys2Proof.Machine

theorem osz_b16 {s : State} : s.osz = .b16 ↔ s.osz32 = false := by
  unfold State.osz; cases s.osz32 <;> simp

theorem osz_b32 {s : State} : s.osz = .b32 ↔ s.osz32 = true := by
  unfold State.osz; cases s.osz32 <;> simp

theorem storeWord_reg16 {s : State} (r : Reg) (v : Word) (h : s.osz = .b16) :
    storeWord (.reg r) v s = .ok () (s.setReg .b16 r (v.setWidth 32)) := by
  show (if s.osz32 then freeUpper v >>= writeReg .b32 r else writeReg .b16 r (v.setWidth 32)) s = _
  rw [osz_b16.1 h]
  rfl

theorem storeWord_reg32 {s : State} (r : Reg) (v : Word) (h : s.osz = .b32) :
    storeWord (.reg r) v s =
      .ok () (({ s with draws := s.draws + 1 } : State).setReg .b32 r (mergeWord (Config.freeDword s.draws) v)) := by
  show (if s.osz32 then freeUpper v >>= writeReg .b32 r else writeReg .b16 r (v.setWidth 32)) s = _
  rw [osz_b32.1 h]
  rfl

theorem storeWord_mem {s s1 : State} {m : MemOp} {sr : SReg} {off : Dword} (v : Word)
    (h : resolve (.mem m) s = .ok (.mem sr off) s1) :
    storeWord (.mem m) v s = memWrite sr off .b16 (v.setWidth 32) s1 := by
  unfold storeWord
  rw [run_bind_ok (run_get s), run_bind_ok h]

/-- What an instruction does that stores the system word `v`. -/
def StoresWord (s : State) (rm : RM) (i : Instr) (v : Word) : Prop :=
  (∀ r, rm = .reg r →
    (s.osz = .b16 → Gives i s (s.regs.write .b16 r (v.setWidth 32)) (fun _ => s.eflags) s) ∧
    (s.osz = .b32 → ∃ t, exec i s = .next t ∧ Ends s t (s.regs.set r (t.regs.get r)) s.eflags s ∧
      (t.regs.get r).setWidth 16 = v ∧ NoStore s t)) ∧
  (∀ m sr' off s1 s2, rm = .mem m → resolve rm s = .ok (.mem sr' off) s1 →
    memWrite sr' off .b16 (v.setWidth 32) s1 = .ok () s2 →
    Puts i s s1 (.mem sr' off) .b16 (v.setWidth 32) fun _ => s.eflags)

theorem storesWord_of {s : State} (hs : s.Inv) {rm : RM} {i : Instr} {v : Word} {m : M Unit}
    (hi : exec i s = complete m s) (hm : m s = storeWord rm v s) : StoresWord s rm i v := by
  refine ⟨?reg, ?mem⟩
  case reg =>
    rintro r rfl
    refine ⟨fun h => ?_, fun h => ?_⟩
    · exact gives_of_quiet hi hs (hm.trans (storeWord_reg16 r v h)) (Quiet.refl s) rfl rfl rfl rfl
    · refine ⟨_, hi.trans (complete_ok (hm.trans (storeWord_reg32 r v h))), ends_retire ?_ rfl rfl, ?_, fun p => .inl rfl⟩
      · simp [Regs.write, State.setReg, Regs.get_set_same]
      · simp [Regs.write, State.setReg, State.retire, Regs.get_set_same, mergeWord_low]
  case mem =>
    rintro m' sr off s1 s2 rfl hr hw
    have hq := quiet_resolve hr
    have hw' : writeLoc .b16 (.mem sr off) (v.setWidth 32) s1 = .ok () s2 := hw
    exact puts_of_write hi hs (hm.trans ((storeWord_mem v hr).trans hw)) hq hw' rfl rfl rfl
      (by simp [writeLoc_flags hw', hq.eflags])

/-- In Protected Mode the check of the mode passes. -/
theorem checkProtected_ok {s : State} (h : s.protectedMode = true) : checkProtected s = .ok () s := by
  unfold checkProtected
  rw [run_bind_ok (run_get s), h]
  rfl

/-- The machine status word. -/
theorem msw_eq (c : Cr0) : c.word.setWidth 16 =
    (0#11 ++ BitVec.ofBool c.et ++ BitVec.ofBool c.ts ++ BitVec.ofBool c.em ++ BitVec.ofBool c.mp ++
      BitVec.ofBool c.pe : Word) := by
  obtain ⟨pe, mp, em, ts, et, pg⟩ := c
  revert pe mp em ts et pg
  decide

/-- Settles O16. -/
theorem storeSystemWord : Obligations.StoreSystemWord := by
  unfold Obligations.StoreSystemWord
  intro s rm sr hs p hp
  simp only [List.mem_cons, List.not_mem_nil, or_false] at hp
  show p.2.1 = true → StoresWord s rm p.1 p.2.2
  rcases hp with rfl | rfl | rfl | rfl
  case inl => exact fun _ => storesWord_of hs rfl rfl
  case inr.inl => exact fun h => storesWord_of hs rfl (run_bind_ok (checkProtected_ok h))
  case inr.inr.inl => exact fun h => storesWord_of hs rfl (run_bind_ok (checkProtected_ok h))
  case inr.inr.inr =>
    intro h
    refine storesWord_of hs rfl ?_
    have hc : (s.params.smswPrivileged && s.currentCpl != 0) = false := by
      rw [← Bool.not_eq_true']; exact h
    rw [hc, ← msw_eq]
    rfl

end Sys2Proof.Machine
end

section
/-! Descriptors, segment register loads and the Accessed bit with paging off, evaluated forward: what each operation
answers from a state whose memory is plain. -/

namespace Sys2Proof.Machine

/-- Nothing has changed but what pends and how many free values are used: what a read with paging off leaves. -/
def Noted (s t : State) : Prop := t = { s with pendingDb := t.pendingDb, draws := t.draws }

theorem Noted.refl (s : State) : Noted s s := rfl

theorem Noted.trans {s t u : State} (h : Noted s t) (k : Noted t u) : Noted s u := by
  unfold Noted at *
  rw [k, h]

theorem Noted.quiet {s t : State} (h : Noted s t) : Quiet s t := by
  rw [h]; exact .of_eq rfl rfl rfl rfl rfl rfl

theorem Noted.mem {s t : State} (h : Noted s t) : t.mem = s.mem := by rw [h]

theorem Noted.plain {s t : State} (h : Noted s t) (hp : s.Plain) : t.Plain := by rw [h]; exact hp

theorem Noted.descriptorIn {s t : State} (h : Noted s t) (l : Dword) : t.descriptorIn l = s.descriptorIn l := by
  rw [h]; rfl

theorem Noted.descriptorAt {s t : State} (h : Noted s t) (sel : Word) : t.descriptorAt sel = s.descriptorAt sel := by
  rw [h]; rfl

theorem Noted.inTable {s t : State} (h : Noted s t) (sel : Word) : t.inTable sel = s.inTable sel := by
  rw [h]; rfl

/-! Descriptors. -/

theorem selCode_false (sel : Word) : selCode sel false = sel &&& 0xFFFC := by unfold selCode; simp

theorem isNull_iff {sel : Word} : isNull sel = true ↔ sel.extractLsb' 2 14 = 0 := by unfold isNull; simp

theorem isNull_eq_false {sel : Word} : isNull sel = false ↔ sel.extractLsb' 2 14 ≠ 0 := by
  rw [← Bool.not_eq_true, isNull_iff]

theorem raiseIf_of_false {c : Bool} {e : Exn} (s : State) (h : c = false) : raiseIf c e s = .ok () s := by
  rw [h]; rfl

theorem raiseIf_of_true {c : Bool} {e : Exn} (s : State) (h : c = true) :
    raiseIf c e s = .error (.exn e .nothing) s := by
  rw [h]; rfl

theorem readDescriptor_unpaged {s : State} (hp : s.Plain) {sel : Word} (hin : s.inTable sel = true) (e : Exn) :
    ∃ t, readDescriptor sel e s = .ok (s.descriptorIn (s.descriptorAt sel)) t ∧ Noted s t := by
  obtain ⟨t, ht, he⟩ := readDescriptorAt_unpaged hp (s.descriptorAt sel)
  refine ⟨t, ?_, he⟩
  unfold readDescriptor
  rw [run_bind_ok (run_get s), run_bind_ok (raiseIf_of_false s (by simp [hin]))]
  exact ht

theorem readDescriptor_outside {s : State} {sel : Word} (hin : s.inTable sel = false) (e : Exn) :
    readDescriptor sel e s = .error (.exn e .nothing) s := by
  unfold readDescriptor
  rw [run_bind_ok (run_get s)]
  exact run_bind_error (raiseIf_of_true s (by simp [hin]))

/-! What the two halves of a segment register load in Protected Mode answer. -/

/-- The conditions on a stack segment but for its presence. -/
def Descriptor.stackOk (d : Descriptor) (cpl : BitVec 2) (sel : Word) : Prop :=
  rpl sel = cpl ∧ d.dpl = cpl ∧ d.isWritableData = true

/-- The conditions on a data segment but for its presence. -/
def Descriptor.dataOk (d : Descriptor) (cpl : BitVec 2) (sel : Word) : Prop :=
  (d.isData = true ∨ d.isReadableCode = true) ∧ (d.isConforming = true ∨ (rpl sel ≤ d.dpl ∧ cpl ≤ d.dpl))

theorem stackOk_iff {d : Descriptor} {cpl : BitVec 2} {sel : Word} :
    (rpl sel != cpl || d.dpl != cpl || !d.isWritableData) = false ↔ d.stackOk cpl sel := by
  unfold Descriptor.stackOk
  simp only [Bool.or_eq_false_iff, bne_eq_false_iff_eq, Bool.not_eq_false']
  exact and_assoc

theorem dataOk_iff {d : Descriptor} {cpl : BitVec 2} {sel : Word} :
    ((!d.isData && !d.isReadableCode) = false ∧
      (!d.isConforming && (decide (d.dpl < rpl sel) || decide (d.dpl < cpl))) = false) ↔ d.dataOk cpl sel := by
  unfold Descriptor.dataOk
  simp only [Bool.and_eq_false_iff, Bool.not_eq_false', Bool.or_eq_false_iff, decide_eq_false_iff_not, BitVec.not_lt]

/-- A stack segment that may be used. -/
theorem loadStackSegment_unpaged {s : State} (hp : s.Plain) {cpl : BitVec 2} {sel : Word} {d : Descriptor} (n b m : Exn)
    (hn : isNull sel = false) (hin : s.inTable sel = true) (hd : d = s.descriptorIn (s.descriptorAt sel))
    (hok : d.stackOk cpl sel) (hpr : d.present = true) :
    ∃ t, loadStackSegment cpl sel n b m s = .ok d t ∧ Noted s t := by
  obtain ⟨t, ht, he⟩ := readDescriptor_unpaged hp hin b
  rw [← hd] at ht
  refine ⟨t, ?_, he⟩
  unfold loadStackSegment
  rw [run_bind_ok (raiseIf_of_false s hn), run_bind_ok ht, run_bind_ok (raiseIf_of_false t (stackOk_iff.2 hok)),
    run_bind_ok (raiseIf_of_false t (by simp [hpr]))]
  rfl

/-- What a stack segment load that fails raises. -/
theorem loadStackSegment_bad {s : State} (hp : s.Plain) {cpl : BitVec 2} {sel : Word} {d : Descriptor} (n b m : Exn)
    (hn : isNull sel = false) (hin : s.inTable sel = true) (hd : d = s.descriptorIn (s.descriptorAt sel))
    (hok : ¬ d.stackOk cpl sel) :
    ∃ t, loadStackSegment cpl sel n b m s = .error (.exn b .nothing) t ∧ Noted s t := by
  obtain ⟨t, ht, he⟩ := readDescriptor_unpaged hp hin b
  rw [← hd] at ht
  refine ⟨t, ?_, he⟩
  unfold loadStackSegment
  rw [run_bind_ok (raiseIf_of_false s hn), run_bind_ok ht]
  exact run_bind_error (raiseIf_of_true t (by
    rw [← Bool.not_eq_false]
    exact fun h => hok (stackOk_iff.1 h)))

theorem loadStackSegment_missing {s : State} (hp : s.Plain) {cpl : BitVec 2} {sel : Word} {d : Descriptor}
    (n b m : Exn) (hn : isNull sel = false) (hin : s.inTable sel = true)
    (hd : d = s.descriptorIn (s.descriptorAt sel)) (hok : d.stackOk cpl sel) (hpr : d.present = false) :
    ∃ t, loadStackSegment cpl sel n b m s = .error (.exn m .nothing) t ∧ Noted s t := by
  obtain ⟨t, ht, he⟩ := readDescriptor_unpaged hp hin b
  rw [← hd] at ht
  refine ⟨t, ?_, he⟩
  unfold loadStackSegment
  rw [run_bind_ok (raiseIf_of_false s hn), run_bind_ok ht, run_bind_ok (raiseIf_of_false t (stackOk_iff.2 hok))]
  exact run_bind_error (raiseIf_of_true t (by simp [hpr]))

/-- A data segment that may be used. -/
theorem loadDataSegment_unpaged {s : State} (hp : s.Plain) {cpl : BitVec 2} {sel : Word} {d : Descriptor} (b m : Exn)
    (hin : s.inTable sel = true) (hd : d = s.descriptorIn (s.descriptorAt sel))
    (hok : d.dataOk cpl sel) (hpr : d.present = true) :
    ∃ t, loadDataSegment cpl sel b m s = .ok d t ∧ Noted s t := by
  obtain ⟨t, ht, he⟩ := readDescriptor_unpaged hp hin b
  rw [← hd] at ht
  obtain ⟨h1, h2⟩ := dataOk_iff.2 hok
  refine ⟨t, ?_, he⟩
  unfold loadDataSegment
  rw [run_bind_ok ht, run_bind_ok (raiseIf_of_false t h1), run_bind_ok (raiseIf_of_false t h2),
    run_bind_ok (raiseIf_of_false t (by simp [hpr]))]
  rfl

theorem loadDataSegment_bad {s : State} (hp : s.Plain) {cpl : BitVec 2} {sel : Word} {d : Descriptor} (b m : Exn)
    (hin : s.inTable sel = true) (hd : d = s.descriptorIn (s.descriptorAt sel)) (hok : ¬ d.dataOk cpl sel) :
    ∃ t, loadDataSegment cpl sel b m s = .error (.exn b .nothing) t ∧ Noted s t := by
  obtain ⟨t, ht, he⟩ := readDescriptor_unpaged hp hin b
  rw [← hd] at ht
  refine ⟨t, ?_, he⟩
  unfold loadDataSegment
  rw [run_bind_ok ht]
  cases h1 : (!d.isData && !d.isReadableCode)
  · rw [run_bind_ok (raiseIf_of_false t rfl)]
    refine run_bind_error (raiseIf_of_true t ?_)
    rw [← Bool.not_eq_false]
    exact fun h2 => hok (dataOk_iff.1 ⟨h1, h2⟩)
  · exact run_bind_error (raiseIf_of_true t rfl)

theorem loadDataSegment_missing {s : State} (hp : s.Plain) {cpl : BitVec 2} {sel : Word} {d : Descriptor} (b m : Exn)
    (hin : s.inTable sel = true) (hd : d = s.descriptorIn (s.descriptorAt sel)) (hok : d.dataOk cpl sel)
    (hpr : d.present = false) : ∃ t, loadDataSegment cpl sel b m s = .error (.exn m .nothing) t ∧ Noted s t := by
  obtain ⟨t, ht, he⟩ := readDescriptor_unpaged hp hin b
  rw [← hd] at ht
  obtain ⟨h1, h2⟩ := dataOk_iff.2 hok
  refine ⟨t, ?_, he⟩
  unfold loadDataSegment
  rw [run_bind_ok ht, run_bind_ok (raiseIf_of_false t h1), run_bind_ok (raiseIf_of_false t h2)]
  exact run_bind_error (raiseIf_of_true t (by simp [hpr]))

/-! The Accessed bit. -/

/-- Memory with the Accessed bit of `d` set in the byte at `p`. -/
def accessedMem (s : State) (p : Dword) (d : Descriptor) : List Host.Cell :=
  if d.type.getLsbD 0 then s.mem else writeCells s.isFixed s.mem [p] [((d.hi >>> 8) ||| 1).setWidth 8]

theorem setAccessed_unpaged {s : State} (hp : s.Plain) (sel : Word) (d : Descriptor) :
    ∃ t, setAccessed sel d s = .ok () t ∧
      t = { s with
        mem := accessedMem s (s.descriptorAt sel + 5) d
        stale := t.stale, pendingDb := t.pendingDb, draws := t.draws } := by
  unfold setAccessed accessedMem
  rw [run_bind_ok (run_get s)]
  cases d.type.getLsbD 0
  · obtain ⟨t, ht, he⟩ := writeLinear_unpaged hp false (s.descriptorAt sel + 5) (bs := leBytes 1 ((d.hi >>> 8) ||| 1))
      (by simp) (by simp)
    exact ⟨t, ht, he⟩
  · exact ⟨s, rfl, rfl⟩

/-- The byte that holds a descriptor's type. -/
theorem typeByte (s : State) (l : Dword) :
    ((s.descriptorIn l).hi >>> 8).setWidth 8 = s.readByte (l + 5) := by
  have h := leDword_byte (bs := [s.readByte (l + 4), s.readByte (l + 4 + 1), s.readByte (l + 4 + 2), s.readByte (l + 4 + 3)])
    (by simp) 1 (by simp)
  rw [BitVec.setWidth_ushiftRight_eq_extractLsb]
  have e : l + 5 = l + 4 + 1 := by rw [BitVec.add_assoc]; rfl
  rw [e]
  exact h

theorem typeByte_accessed (s : State) (l : Dword) :
    (((s.descriptorIn l).hi >>> 8) ||| 1).setWidth 8 = s.readByte (l + 5) ||| 1 := by
  rw [BitVec.setWidth_or, typeByte]; rfl

/-- The Accessed bit of a descriptor is the low bit of its type byte. -/
theorem accessed_bit (s : State) (l : Dword) :
    (s.descriptorIn l).type.getLsbD 0 = (s.readByte (l + 5)).getLsbD 0 := by
  rw [← typeByte]
  simp [Descriptor.type]

/-- What memory holds once the bit is set. -/
theorem read_accessedMem {s : State} (hw : Memory.wf s.mem = true) {l p : Dword} (d : Descriptor)
    (hd : d = s.descriptorIn l) (hpl : p = l + 5) :
    Memory.read (accessedMem s p d) p.toNat = s.stored p (s.readByte p ||| 1) ∧
      ∀ q, q ≠ p → Memory.read (accessedMem s p d) q.toNat = s.readByte q := by
  subst hd hpl
  unfold accessedMem
  rw [accessed_bit, typeByte_accessed]
  cases hb : (s.readByte (l + 5)).getLsbD 0
  · constructor
    · exact read_writeCells_get hw [l + 5] [s.readByte (l + 5) ||| 1] (by simp) (k := 0) (by simp) (by simp)
    · intro q hq
      exact read_writeCells_other hw _ _ (by simpa using hq)
  · refine ⟨?_, fun q _ => rfl⟩
    have hor : s.readByte (l + 5) ||| 1 = s.readByte (l + 5) := by
      apply BitVec.eq_of_getLsbD_eq
      intro i hi
      rw [BitVec.getLsbD_or]
      by_cases h0 : i = 0
      · subst h0; rw [hb]; rfl
      · have : (1 : Byte).getLsbD i = false := by simp [h0]
        rw [this, Bool.or_false]
    rw [hor, if_pos rfl]
    unfold State.stored
    split <;> rfl

end Sys2Proof.Machine
end

section
/-! O18: a data segment register load in Protected Mode. -/

namespace Sys2Proof.Machine

theorem loadSeg_protected {s : State} (h : s.protectedMode = true) (sr : SReg) (sel : Word) :
    loadSeg sr sel s = loadSegProtected sr sel s := by
  unfold loadSeg
  rw [run_bind_ok (run_get s), h]
  rfl

theorem loadSegProtected_null {sr : SReg} (hsr : sr ≠ .ss) {sel : Word} (hn : isNull sel = true) (s : State) :
    loadSegProtected sr sel s = .ok () (s.loadNull sr sel) := by
  unfold loadSegProtected
  rw [run_bind_ok (run_get s)]
  simp [hsr, hn]

/-- The descriptor may be used: which of the two halves of the load says so. -/
def Descriptor.loadOk (d : Descriptor) (sr : SReg) (cpl : BitVec 2) (sel : Word) : Prop :=
  if sr = .ss then d.stackOk cpl sel else d.dataOk cpl sel

/-- The step after the checks: the Accessed bit, then the segment register. -/
def loadCache (sr : SReg) (sel : Word) (d : Descriptor) : M Unit := do
  setAccessed sel d
  setSegReg sr (d.cache sel)

/-- What a load raises for a descriptor that may not be used. -/
def loadMissing (sr : SReg) (sel : Word) : Exn :=
  if sr = .ss then Exn.ss (selCode sel false) else Exn.np (selCode sel false)

/-- The checks of a load, for a selector that is not null. -/
def loadChecks (cpl : BitVec 2) (sr : SReg) (sel : Word) : M Descriptor :=
  if sr = .ss then
    loadStackSegment cpl sel (Exn.gp 0) (Exn.gp (selCode sel false)) (Exn.ss (selCode sel false))
  else loadDataSegment cpl sel (Exn.gp (selCode sel false)) (Exn.np (selCode sel false))

theorem loadSegProtected_eq {sr : SReg} {sel : Word} (hn : sr = .ss ∨ isNull sel = false) (s : State) :
    loadSegProtected sr sel s = (loadChecks s.currentCpl sr sel >>= loadCache sr sel) s := by
  unfold loadSegProtected loadChecks
  rw [run_bind_ok (run_get s)]
  by_cases h : sr = .ss
  · subst h; rfl
  · simp only [h, false_or] at hn
    simp only [h, hn, if_false]
    rfl

section
variable {s : State} (hp : s.Plain) {sr : SReg} {cpl : BitVec 2} {sel : Word} {d : Descriptor}
  (hn : isNull sel = false) (hin : s.inTable sel = true) (hd : d = s.descriptorIn (s.descriptorAt sel))
include hp hn hin hd

theorem loadChecks_ok (hok : d.loadOk sr cpl sel) (hpr : d.present = true) :
    ∃ t, loadChecks cpl sr sel s = .ok d t ∧ Noted s t := by
  unfold loadChecks
  unfold Descriptor.loadOk at hok
  split <;> rename_i h <;> simp only [h, if_true, if_false] at hok
  · exact loadStackSegment_unpaged hp _ _ _ hn hin hd hok hpr
  · exact loadDataSegment_unpaged hp _ _ hin hd hok hpr

theorem loadChecks_bad (hok : ¬ d.loadOk sr cpl sel) :
    ∃ t, loadChecks cpl sr sel s = .error (.exn (Exn.gp (selCode sel false)) .nothing) t ∧ Noted s t := by
  unfold loadChecks
  unfold Descriptor.loadOk at hok
  split <;> rename_i h <;> simp only [h, if_true, if_false] at hok
  · exact loadStackSegment_bad hp _ _ _ hn hin hd hok
  · exact loadDataSegment_bad hp _ _ hin hd hok

theorem loadChecks_missing (hok : d.loadOk sr cpl sel) (hpr : d.present = false) :
    ∃ t, loadChecks cpl sr sel s = .error (.exn (loadMissing sr sel) .nothing) t ∧ Noted s t := by
  unfold loadChecks loadMissing
  unfold Descriptor.loadOk at hok
  split <;> rename_i h <;> simp only [h, if_true, if_false] at hok
  · exact loadStackSegment_missing hp _ _ _ hn hin hd hok hpr
  · exact loadDataSegment_missing hp _ _ hin hd hok hpr

end

theorem loadChecks_outside {s : State} {cpl : BitVec 2} {sr : SReg} {sel : Word} (hn : isNull sel = false)
    (hin : s.inTable sel = false) :
    loadChecks cpl sr sel s = .error (.exn (Exn.gp (selCode sel false)) .nothing) s := by
  unfold loadChecks
  split
  · unfold loadStackSegment
    rw [run_bind_ok (raiseIf_of_false s hn)]
    exact run_bind_error (readDescriptor_outside hin _)
  · unfold loadDataSegment
    exact run_bind_error (readDescriptor_outside hin _)

theorem loadChecks_null {s : State} {cpl : BitVec 2} {sel : Word} (hn : isNull sel = true) :
    loadChecks cpl .ss sel s = .error (.exn (Exn.gp 0) .nothing) s := by
  unfold loadChecks loadStackSegment
  exact run_bind_error (raiseIf_of_true s hn)

/-- What a state is after the Accessed bit of `d` is set and `sr` is loaded from it. -/
structure CacheLoaded (s t : State) (sr : SReg) (sel : Word) (d : Descriptor) : Prop where
  seg : t.seg sr = d.cache sel
  regs : t.regs = s.regs
  eflags : t.eflags = s.eflags
  rest : (t.setSeg sr (s.seg sr)).putBack s = s
  mem : t.mem = accessedMem s (s.descriptorAt sel + 5) d

theorem loadCache_unpaged {s : State} (hp : s.Plain) (sr : SReg) (sel : Word) (d : Descriptor) :
    ∃ t, loadCache sr sel d s = .ok () t ∧ CacheLoaded s t sr sel d := by
  obtain ⟨t, ht, he⟩ := setAccessed_unpaged hp sel d
  refine ⟨t.setSeg sr (d.cache sel), (run_bind_ok ht).trans rfl, ?_, ?_, ?_, ?_, ?_⟩
  · exact seg_setSeg_same _ _ _
  · rw [he]; cases sr <;> rfl
  · rw [he]; cases sr <;> rfl
  · rw [he]; cases sr <;> rfl
  · rw [he]; cases sr <;> rfl

/-- A load that succeeds. -/
theorem loadSegProtected_loads {s : State} (hp : s.Plain) {sr : SReg} {sel : Word}
    {d : Descriptor} (hn : isNull sel = false) (hin : s.inTable sel = true)
    (hd : d = s.descriptorIn (s.descriptorAt sel)) (hok : d.loadOk sr s.currentCpl sel) (hpr : d.present = true) :
    ∃ t, loadSegProtected sr sel s = .ok () t ∧ CacheLoaded s t sr sel d := by
  obtain ⟨s1, h1, he⟩ := loadChecks_ok hp hn hin hd hok hpr
  obtain ⟨t, ht, hc⟩ := loadCache_unpaged (he.plain hp) sr sel d
  refine ⟨t, (loadSegProtected_eq (.inr hn) s).trans ((run_bind_ok h1).trans ht), hc.seg, ?_, ?_, ?_, ?_⟩
  · rw [hc.regs, he.quiet.regs]
  · rw [hc.eflags, he.quiet.eflags]
  · have := putBack_trans (s := s) (t := s1) he.quiet.rest hc.rest
    rwa [he.quiet.seg] at this
  · rw [hc.mem, he.descriptorAt]
    unfold accessedMem
    rw [he]
    rfl

/-- A load that fails, by what its checks answer. -/
theorem loadSegProtected_fails {s t : State} {sr : SReg} {sel : Word} {e : Exn} (hn : sr = .ss ∨ isNull sel = false)
    (h : loadChecks s.currentCpl sr sel s = .error (.exn e .nothing) t) :
    loadSegProtected sr sel s = .error (.exn e .nothing) t :=
  (loadSegProtected_eq hn s).trans (run_bind_error h)

/-- Settles O18. -/
theorem segmentLoadProtected : Obligations.SegmentLoadProtected := by
  unfold Obligations.SegmentLoadProtected
  rintro s sr sel d dpl rpl code hs hm hp hcs hd rfl rfl rfl
  rw [loadSeg_protected hm, ← selCode_false]
  refine ⟨fun hsr h0 => ?null, fun hsr h0 => ?nullSs, fun h0 hin => ?outside, fun h0 hin => ?inside⟩
  case null => exact loadSegProtected_null hsr (isNull_iff.2 h0) s
  case nullSs =>
    subst hsr
    exact ⟨s, loadSegProtected_fails (.inl rfl) (loadChecks_null (isNull_iff.2 h0)), rfl⟩
  case outside =>
    have hn := isNull_eq_false.2 h0
    exact ⟨s, loadSegProtected_fails (.inr hn) (loadChecks_outside hn hin), rfl⟩
  case inside =>
    have hn := isNull_eq_false.2 h0
    refine ⟨fun hok => ⟨fun hpr => ?_, fun hpr => ?_⟩, fun hok => ?_⟩
    · obtain ⟨t, ht, hc⟩ := loadSegProtected_loads hp hn hin hd (show d.loadOk sr s.currentCpl sel from hok) hpr
      obtain ⟨hb, ho⟩ := read_accessedMem hs.mem d hd rfl
      refine ⟨t, ht, hc.seg, hc.regs, hc.eflags, hc.rest, ?_, fun p hne => ?_⟩
      · rw [← hb, ← hc.mem]; rfl
      · rw [← ho p hne, ← hc.mem]; rfl
    · obtain ⟨t, ht, he⟩ := loadChecks_missing hp hn hin hd (show d.loadOk sr s.currentCpl sel from hok) hpr
      exact ⟨t, loadSegProtected_fails (.inr hn) ht, he.quiet.regs, he.quiet.rest⟩
    · obtain ⟨t, ht, he⟩ := loadChecks_bad hp hn hin hd (show ¬ d.loadOk sr s.currentCpl sel from hok)
      exact ⟨t, loadSegProtected_fails (.inr hn) ht, he.quiet.regs, he.quiet.rest⟩

end Sys2Proof.Machine
end

section
/-! The stack pointer after pops, and pops with and without paging. -/

namespace Sys2Proof.Machine

/-! The stack pointer. -/

theorem Quiet.stackSize {s t : State} (h : Quiet s t) : t.stackSize = s.stackSize :=
  SameStack.size ⟨putBack_congr h.rest (·.ss) fun _ _ => rfl, h.cr0, by rw [h.eflags]⟩

theorem Quiet.sp {s t : State} (h : Quiet s t) : t.sp = s.sp := by
  unfold State.sp State.reg; rw [h.stackSize, h.regs]

theorem Quiet.spPlus {s t : State} (h : Quiet s t) (k : Dword) : t.spPlus k = s.spPlus k := by
  unfold State.spPlus; rw [h.stackSize, h.sp]

theorem sp_trunc (s : State) : trunc s.stackSize s.sp = s.sp := by
  unfold State.sp State.reg
  rcases stackSize_cases s with h | h <;> rw [h] <;> simp [Regs.read, trunc]

theorem spPlus_zero (s : State) : s.spPlus 0#32 = s.sp := by
  unfold State.spPlus; rw [BitVec.add_zero, sp_trunc]

theorem regsPopped_zero (s : State) : s.regsPopped 0 = s.regs := by
  have hs := stackSize_cases s
  unfold State.regsPopped
  show s.regs.write s.stackSize .esp (s.spPlus 0#32) = s.regs
  rw [spPlus_zero]
  exact Regs.write_read hs s.regs .esp

/-- With `n` bytes off the stack the stack pointer is `n` further. -/
theorem sp_of_popped {s t : State} (h : SameStack s t) {n : Nat} (hr : t.regs = s.regsPopped n) (k : Dword) :
    t.spPlus k = s.spPlus (BitVec.ofNat 32 n + k) := by
  have hs := stackSize_cases s
  unfold State.spPlus State.sp State.reg
  rw [h.size, hr]
  unfold State.regsPopped
  rw [Regs.read_write_same hs]
  unfold State.spPlus State.sp State.reg
  rw [trunc_idem, trunc_add hs, BitVec.add_assoc]

theorem sp_eq_spPlus_of_popped {s t : State} (h : SameStack s t) {n : Nat} (hr : t.regs = s.regsPopped n) :
    t.sp = s.spPlus (BitVec.ofNat 32 n) := by
  rw [← spPlus_zero, sp_of_popped h hr, BitVec.add_zero]

theorem regsPopped_add {s t : State} (h : SameStack s t) {n : Nat} (hr : t.regs = s.regsPopped n) (k : Nat) :
    t.regsPopped k = s.regsPopped (n + k) := by
  have hs := stackSize_cases s
  have hk : t.regsPopped k = t.regs.write s.stackSize .esp (t.spPlus (BitVec.ofNat 32 k)) := by
    unfold State.regsPopped; rw [h.size]
  rw [hk, sp_of_popped h hr, hr]
  unfold State.regsPopped
  rw [Regs.write_write hs, BitVec.ofNat_add]

/-! Pops. -/

/-- A pop whose read answers. -/
theorem pop_ok {sz : Size} {v : Dword} {s s1 : State} (h : memRead .ss s.sp sz s = .ok v s1) :
    pop sz s = .ok v { s1 with regs := s.regsPopped sz.bytes } := by
  have hq := (memRead_ok h).2
  unfold pop
  rw [run_bind_ok (run_get s), run_bind_ok h]
  show EStateM.Result.ok v (s1.setSp (s1.spPlus (BitVec.ofNat 32 sz.bytes))) = _
  unfold State.setSp State.setReg State.regsPopped
  rw [hq.stackSize, hq.spPlus, hq.regs]

/-- From `s` to `t` nothing has changed but that `n` bytes are off the stack. -/
def Popped (s t : State) (n : Nat) : Prop :=
  t = { s with regs := s.regsPopped n, pendingDb := t.pendingDb, draws := t.draws }

theorem Popped.zero (s : State) : Popped s s 0 := by
  unfold Popped; rw [regsPopped_zero]

theorem Popped.same {s t : State} {n : Nat} (h : Popped s t n) : SameStack s t := by
  rw [h]; exact ⟨rfl, rfl, rfl⟩

theorem Popped.regs {s t : State} {n : Nat} (h : Popped s t n) : t.regs = s.regsPopped n := by rw [h]

theorem Popped.plain {s t : State} {n : Nat} (h : Popped s t n) (hp : s.Plain) : t.Plain := by rw [h]; exact hp

theorem Popped.osz {s t : State} {n : Nat} (h : Popped s t n) : t.osz = s.osz := by rw [h]; rfl

/-- The next item off the stack, with paging off. -/
theorem pop_unpaged {s t : State} {sz : Size} {i : Nat} (hp : s.Plain) (h : Popped s t (sz.bytes * i))
    (hi : s.itemOk sz i) : ∃ u, pop sz t = .ok (s.stackItem sz i) u ∧ Popped s u (sz.bytes * (i + 1)) := by
  have hsp : t.sp = s.spPlus (BitVec.ofNat 32 (sz.bytes * i)) := sp_eq_spPlus_of_popped h.same h.regs
  obtain ⟨u, hu, he⟩ := memRead_unpaged (sr := .ss) (off := t.sp) (sz := sz) (h.plain hp) (by
    rw [h.same.segOk, hsp]; exact hi)
  have hv : leDword (t.operandBytes .ss t.sp sz.bytes) = s.stackItem sz i := by
    unfold State.stackItem State.operandBytes
    rw [h.same.linear, hsp]
    have : t.readByte = s.readByte := by rw [h]; rfl
    rw [this]
  rw [hv] at hu
  refine ⟨_, pop_ok hu, ?_⟩
  rw [regsPopped_add h.same h.regs]
  unfold Popped
  rw [he, Nat.mul_add, Nat.mul_one]
  dsimp only
  conv_lhs => rw [h]

/-- What pushes that answer have done, run where a fault would spoil the stack. -/
theorem spoiling_ok {α : Type} {n : Nat} {m : M α} {s t : State} {a : α} (h : m s = .ok a t) :
    spoiling n m s = .ok a t := by
  unfold spoiling; rw [h]

/-- A fault that comes before the stack pointer has moved spoils nothing. -/
theorem spoiling_exn {α : Type} {n : Nat} {m : M α} {s t : State} {e : Exn} (h : m s = .error (.exn e .nothing) t)
    (he : t.regs.esp = s.regs.esp) : spoiling n m s = .error (.exn e .nothing) t := by
  unfold spoiling; rw [h]; simp [he]

end Sys2Proof.Machine
end

section
/-! O19: loads of segment registers by MOV, POP and the far pointer loads; PUSHA and POPA. -/

namespace Sys2Proof.Machine

/-! PUSHA and POPA. -/

/-- An instruction that raises an exception before it has changed anything. -/
theorem exec_exn {i : Instr} {m : M Unit} {s : State} {e : Exn} (hi : exec i s = complete m s)
    (hm : m s = .error (.exn e .nothing) s) : exec i s = takeException e s := by
  rw [hi, complete_exn hm]; rfl

theorem pushaWraps_eq_false {s : State} (h : s.cr0.pe = true ∨ s.sp = 0 ∨ 8 * s.osz.bytes ≤ s.sp.toNat) :
    (!s.cr0.pe && s.pushaWraps) = false := by
  unfold State.pushaWraps
  rcases h with h | h | h
  · simp [h]
  · simp [h]
  · have : decide (s.sp.toNat < 8 * s.osz.bytes) = false := by simpa using h
    rw [this]; simp

/-- PUSHA of a frame that fits. -/
theorem pusha_pushes {s : State} (hs : s.Inv) (hp : s.Plain)
    (hw : s.cr0.pe = true ∨ s.sp = 0 ∨ 8 * s.osz.bytes ≤ s.sp.toNat) (hk : ∀ i, i < 8 → s.slotOk s.osz i) :
    ∃ t, exec .pusha s = .next t ∧ Ends s t (s.regsPushed s.osz 8) s.eflags s ∧
      Pushed s t s.osz [s.regs.eax, s.regs.ecx, s.regs.edx, s.regs.ebx, s.regs.esp, s.regs.ebp, s.regs.esi, s.regs.edi] := by
  obtain ⟨t, ht, hr, hf, hb, -, -, -, -, hm⟩ := pushAll_unpaged (sz := s.osz) (items := s.regs.pushOrder) hp hs.mem
    (by simp [Regs.pushOrder]) (by simpa [Regs.pushOrder] using hk)
  refine ⟨s.retire t, complete_ok (spoiling_ok ?_), ends_retire hr (by rw [hf]) hb, hm⟩
  rw [run_bind_ok (raiseIf_of_false s (pushaWraps_eq_false hw))]
  exact ht

theorem pusha_wraps {s : State} (hp : s.cr0.pe = false) (h0 : s.sp ≠ 0) (h : s.sp.toNat < 8 * s.osz.bytes) :
    exec .pusha s = takeException (Exn.gp 0) s := by
  refine exec_exn rfl (spoiling_exn ?_ rfl)
  exact run_bind_error (raiseIf_of_true s (by
    unfold State.pushaWraps
    rw [hp, bne_iff_ne.2 h0, decide_eq_true h]
    rfl))

/-- POPA takes the eight items off and writes seven registers. -/
theorem popa_pops {s : State} (hs : s.Inv) (hp : s.Plain) (hk : ∀ i, i < 8 → s.itemOk s.osz i) :
    Gives .popa s
        ((((((((s.regsPopped (8 * s.osz.bytes)).write s.osz .edi (s.stackItem s.osz 0)).write s.osz .esi
          (s.stackItem s.osz 1)).write s.osz .ebp (s.stackItem s.osz 2)).write s.osz .ebx (s.stackItem s.osz 4)).write
          s.osz .edx (s.stackItem s.osz 5)).write s.osz .ecx (s.stackItem s.osz 6)).write s.osz .eax
          (s.stackItem s.osz 7)) (fun _ => s.eflags) s := by
  obtain ⟨s1, h1, p1⟩ := pop_unpaged (i := 0) hp (Popped.zero s) (hk 0 (by omega))
  obtain ⟨s2, h2, p2⟩ := pop_unpaged hp p1 (hk 1 (by omega))
  obtain ⟨s3, h3, p3⟩ := pop_unpaged hp p2 (hk 2 (by omega))
  obtain ⟨s4, h4, p4⟩ := pop_unpaged hp p3 (hk 3 (by omega))
  obtain ⟨s5, h5, p5⟩ := pop_unpaged hp p4 (hk 4 (by omega))
  obtain ⟨s6, h6, p6⟩ := pop_unpaged hp p5 (hk 5 (by omega))
  obtain ⟨s7, h7, p7⟩ := pop_unpaged hp p6 (hk 6 (by omega))
  obtain ⟨s8, h8, p8⟩ := pop_unpaged hp p7 (hk 7 (by omega))
  refine gives_of_quiet (s1 := s)
    (t := (((((((s8.setReg s.osz .edi (s.stackItem s.osz 0)).setReg s.osz .esi (s.stackItem s.osz 1)).setReg s.osz .ebp
      (s.stackItem s.osz 2)).setReg s.osz .ebx (s.stackItem s.osz 4)).setReg s.osz .edx (s.stackItem s.osz 5)).setReg s.osz
      .ecx (s.stackItem s.osz 6)).setReg s.osz .eax (s.stackItem s.osz 7))) rfl hs ?run (Quiet.refl s) ?rest ?mem ?regs ?flags
  case run =>
    rw [run_bind_ok h1, run_bind_ok h2, run_bind_ok h3, run_bind_ok h4, run_bind_ok h5, run_bind_ok h6, run_bind_ok h7,
      run_bind_ok h8]
    rfl
  case rest => rw [p8]; rfl
  case mem => rw [p8]; rfl
  case regs => rw [p8, Nat.mul_comm s.osz.bytes]; rfl
  case flags => rw [p8]; rfl

/-! Segment register loads. -/

/-- A load after steps that have changed registers but nothing else. -/
theorem Loaded.since {s s1 s2 : State} {sr : SReg} {sel : Word} (hl : Loaded sr sel s1 s2)
    (hw1 : Memory.wf s1.mem = true) (hrest : s1.putBack s = s) (hf : s1.eflags = s.eflags) (hb : NoStore s s1) :
    s2.putBack s = s.setSeg sr (s2.seg sr) ∧ OnlyAccessed s s2 sel := by
  have hcr : s1.cr0 = s.cr0 := putBack_congr hrest (·.cr0) fun _ _ => rfl
  have hpar : s1.params = s.params := putBack_congr hrest (·.params) fun _ _ => rfl
  have hat : s1.descriptorAt sel = s.descriptorAt sel := putBack_congr hrest (·.descriptorAt sel) fun _ _ => rfl
  refine ⟨?_, fun hpm p => ?_, fun hpg p => ?_⟩
  · calc s2.putBack s = (s2.putBack s1).putBack s := rfl
      _ = (s1.setSeg sr (s2.seg sr)).putBack s := by rw [hl.rest]
      _ = s.setSeg sr (s2.seg sr) := by rw [setSeg_putBack, hrest]
  · have hpm1 : s1.protectedMode = false := by unfold State.protectedMode at *; rw [hcr, hf]; exact hpm
    exact (hb p).trans (by rw [hcr]) hpar (hl.real hw1 hpm1 p)
  · rcases hl.bytes hw1 (by rw [hcr]; exact hpg) p with h | h
    · exact .inl (by rw [h, hat])
    · exact .inr (h.trans ((hb p).eq hpg))

theorem OnlyAccessed.of_mem {s t t' : State} {sel : Word} (hm : t'.mem = t.mem) (h : OnlyAccessed s t sel) :
    OnlyAccessed s t' sel := by
  have e : ∀ p, t'.readByte p = t.readByte p := fun p => by unfold State.readByte; rw [hm]
  obtain ⟨h1, h2⟩ := h
  refine ⟨fun hp p => ?_, fun hp p => ?_⟩
  · have := h1 hp p
    unfold SameByte at *
    rwa [e]
  · rw [e]; exact h2 hp p

/-- What an instruction that loads a segment register and then ends leaves. -/
theorem loads_segment {s s1 s2 : State} {sr : SReg} {sel : Word} {i : Instr} {m : M Unit}
    (hw1 : Memory.wf s1.mem = true) (hrest : s1.putBack s = s) (hf : s1.eflags = s.eflags) (hb : NoStore s s1)
    (hi : exec i s = finish (fun _ => State.retireSegLoad sr) m s) (hm : m s = .ok () s2)
    (hl : loadSeg sr sel s1 = .ok () s2) :
    ∃ t, exec i s = .next t ∧ t.putBack s = s.setSeg sr (s2.seg sr) ∧ t.regs = s1.regs ∧
        t.eflags = { s.eflags with rf := false } ∧ t.pfx = Prefixes.none ∧
        t.shadow = (if sr = .ss then .ss else .none) ∧ OnlyAccessed s t sel := by
  have hld := loadSeg_ok hl
  obtain ⟨hr, ho⟩ := hld.since hw1 hrest hf hb
  refine ⟨State.retireSegLoad sr s s2, hi.trans (finish_ok hm), ?_, ?_, ?_, ?_, ?_, ho.of_mem ?_⟩
  all_goals unfold State.retireSegLoad
  · rw [← hr]; split <;> rfl
  · rw [← hld.regs]; split <;> rfl
  · rw [← hf, ← hld.eflags]; split <;> rfl
  · split <;> rfl
  · split <;> rfl
  · split <;> rfl

theorem popSeg_ok {s s1 s2 : State} {sr : SReg} {v : Dword} (hr : memRead .ss s.sp s.osz s = .ok v s1)
    (hl : loadSeg sr (v.setWidth 16) { s1 with regs := s.regsPopped s.osz.bytes } = .ok () s2) :
    popSeg sr s = .ok () s2 := by
  unfold popSeg
  rw [run_bind_ok (run_get s), run_bind_ok (pop_ok hr)]
  exact hl

theorem quiet_readFarPointer {m : MemOp} {a : Dword × Word} {s t : State} (h : readFarPointer m s = .ok a t) :
    Quiet s t := by
  unfold readFarPointer at h
  obtain ⟨⟨sr, off⟩, s1, h1, h⟩ := run_bind_eq_ok.1 h
  obtain ⟨_, s2, h2, h⟩ := run_bind_eq_ok.1 h
  cases h2
  obtain ⟨_, s3, h3, h⟩ := run_bind_eq_ok.1 h
  obtain ⟨-, rfl⟩ := segCheck_eq_ok.1 h3
  obtain ⟨_, s4, h4, h⟩ := run_bind_eq_ok.1 h
  obtain ⟨_, s5, h5, h⟩ := run_bind_eq_ok.1 h
  cases h
  exact ((quiet_effectiveAddress h1).trans (memRead_ok h4).2).trans (memRead_ok h5).2

/-- LDS and the others. -/
theorem loadFarPointer_loads {s s1 s2 : State} {sr : SReg} {reg : Reg} {m : MemOp} {off : Dword} {sel : Word} {i : Instr}
    (hs : s.Inv) (hi : exec i s = complete (loadFarPointer sr reg m) s) (hr : readFarPointer m s = .ok (off, sel) s1)
    (hl : loadSeg sr sel s1 = .ok () s2) :
    ∃ t, exec i s = .next t ∧ Ends s t (s.regs.write s.osz reg off) s.eflags (s.setSeg sr (s2.seg sr)) ∧
      OnlyAccessed s t sel := by
  have hq := quiet_readFarPointer hr
  have hld := loadSeg_ok hl
  obtain ⟨hrest, ho⟩ := hld.since (hq.wf hs.mem) hq.rest hq.eflags (hq.bytes hs.mem)
  have hm : loadFarPointer sr reg m s = .ok () (s2.setReg s.osz reg off) := by
    unfold loadFarPointer
    rw [run_bind_ok (run_get s), run_bind_ok hr, run_bind_ok hl]
    rfl
  refine ⟨s.retire (s2.setReg s.osz reg off), hi.trans (complete_ok hm), ends_retire ?_ ?_ ?_, ho.of_mem rfl⟩
  · rw [State.setReg_regs, hld.regs, hq.regs]
  · show ({ s2.eflags with rf := false } : Eflags) = _
    rw [hld.eflags, hq.eflags]
  · exact hrest

/-- Settles O19. -/
theorem segmentLoadsPushaPopa : Obligations.SegmentLoadsPushaPopa := by
  unfold Obligations.SegmentLoadsPushaPopa
  refine ⟨fun s hs hp => ⟨pusha_pushes hs hp, pusha_wraps, popa_pops hs hp⟩, ?_⟩
  intro s s1 s2 v rm sr hs
  refine ⟨?mov, ?pop, ?far⟩
  case mov =>
    intro _ hr hl
    have hq := quiet_readRm hr
    obtain ⟨t, h⟩ := loads_segment (hq.wf hs.mem) hq.rest hq.eflags (hq.bytes hs.mem) (i := .movSregRm sr rm) rfl
      ((run_bind_ok hr).trans hl) hl
    rw [hq.regs] at h
    exact ⟨t, h⟩
  case pop =>
    intro p hp hr hl
    have hq := (memRead_ok hr).2
    have key : ∀ (sr : SReg) (i : Instr), (sr, i) = (p.2, p.1) →
        exec i s = finish (fun _ => State.retireSegLoad sr) (popSeg sr) s → _ :=
      fun sr i he hi => loads_segment (sel := v.setWidth 16) (s1 := { s1 with regs := s.regsPopped s.osz.bytes })
        (hq.wf hs.mem) hq.rest hq.eflags
        (fun a => (hq.bytes hs.mem a).of_mem rfl rfl rfl rfl) hi (popSeg_ok hr (by cases he; exact hl)) (by cases he; exact hl)
    simp only [List.mem_cons, List.not_mem_nil, or_false] at hp
    rcases hp with rfl | rfl | rfl | rfl | rfl <;> exact key _ _ rfl rfl
  case far =>
    intro reg m off sel p hp hr hl
    simp only [List.mem_cons, List.not_mem_nil, or_false] at hp
    rcases hp with rfl | rfl | rfl | rfl | rfl <;> exact loadFarPointer_loads hs rfl hr hl

end Sys2Proof.Machine
end

section
/-! O20 to O22: PUSH, POP, PUSHF, POPF and XCHG. -/

namespace Sys2Proof.Machine

/-! Pushes. -/

/-- A push whose store answers. -/
theorem push_ok {s s2 : State} {sz : Size} {v : Dword} (hn : s.wrapsStack (s.slot sz 0) sz.bytes = false)
    (h : memWrite .ss (s.slot sz 0) sz v s = .ok () s2) : push sz v s = .ok () (s2.setSp (s.slot sz 0)) := by
  unfold push
  rw [run_bind_ok (run_get s), ← slot_zero, run_bind_ok (raiseIf_of_false s hn), run_bind_ok h]
  rfl

theorem Quiet.slot {s t : State} (h : Quiet s t) (sz : Size) (i : Nat) : t.slot sz i = s.slot sz i := h.spPlus _

theorem Quiet.wrapsStack {s t : State} (h : Quiet s t) (p : Dword) (n : Nat) : t.wrapsStack p n = s.wrapsStack p n := by
  unfold State.wrapsStack; rw [h.cr0]

theorem wrapsStack_eq_false {s : State} {sz : Size}
    (h : s.cr0.pe = false → (s.slot sz 0).toNat + sz.bytes ≤ 65536) :
    s.wrapsStack (s.slot sz 0) sz.bytes = false := by
  unfold State.wrapsStack
  cases hp : s.cr0.pe
  · simpa using h hp
  · rfl

theorem regsPushed_one (s : State) (sz : Size) : s.regsPushed sz 1 = s.regs.write s.stackSize .esp (s.slot sz 0) := by
  unfold State.regsPushed; rw [Nat.mul_one, ← slot_zero]

/-- An instruction that pushes what a quiet part has given. -/
theorem pushes_of {i : Instr} {m : M Unit} {s s1 s2 : State} {sz : Size} {v : Dword} (hs : s.Inv)
    (hi : exec i s = complete m s) (hm : m s = push sz v s1) (hq : Quiet s s1)
    (hn : s.cr0.pe = false → (s.slot sz 0).toNat + sz.bytes ≤ 65536)
    (hw : memWrite .ss (s.slot sz 0) sz v s1 = .ok () s2) : Pushes i s s1 sz v := by
  obtain ⟨-, hwr⟩ := memWrite_ok hw
  have hnw : s1.wrapsStack (s1.slot sz 0) sz.bytes = false := by
    rw [hq.wrapsStack, hq.slot]; exact wrapsStack_eq_false hn
  have hpush := push_ok hnw (by rw [hq.slot]; exact hw)
  have hss : SameStack s1 s2 :=
    ⟨putBack_congr hwr.rest (·.ss) fun _ _ => rfl, putBack_congr hwr.rest (·.cr0) fun _ _ => rfl, by rw [hwr.eflags]⟩
  refine ⟨_, hi.trans (complete_ok (hm.trans hpush)), ends_retire ?_ ?_ ?_, ?_⟩
  · rw [regsPushed_one, hq.slot]
    unfold State.setSp State.setReg
    rw [hss.size, hq.stackSize, hwr.regs, hq.regs]
  · show ({ s2.eflags with rf := false } : Eflags) = _
    rw [hwr.eflags, hq.eflags]
  · exact putBack_trans (hq.putBack hwr.rest) rfl
  · have hst : Loc.Stored (.mem .ss (s.slot sz 0)) s s1 s2 sz v :=
      Loc.Stored.after hq hs.mem (hwr.bytes (hq.wf hs.mem))
    exact Loc.Stored.of_mem rfl hst

/-! The flags image of PUSHF. -/

theorem bitAt_bit (b : Bool) (n i : Nat) : (bitAt b n).getLsbD i = (b && decide (i = n) && decide (i < 32)) := by
  unfold bitAt
  cases b
  · simp
  · have h : BitVec.ofNat 32 (2 ^ n) = BitVec.twoPow 32 n := BitVec.eq_of_toNat_eq (by simp [BitVec.toNat_twoPow])
    simp only [if_true, h, BitVec.getLsbD_twoPow, Bool.true_and, eq_comm (a := n)]
    by_cases h1 : i = n <;> simp [h1]

/-- The image without RF and VM. -/
theorem word_without_rf_vm (f : Eflags) : ({ f with vm := false, rf := false } : Eflags).word = f.word &&& 0xFFFCFFFF := by
  have hsplit : ∀ g : Eflags,
      g.word = ({ g with vm := false, rf := false } : Eflags).word ||| bitAt g.rf 16 ||| bitAt g.vm 17 := by
    intro g
    have h0 : bitAt false 16 = 0#32 ∧ bitAt false 17 = 0#32 := ⟨rfl, rfl⟩
    unfold Eflags.word
    rw [h0.1, h0.2, BitVec.or_zero, BitVec.or_zero]
  rw [hsplit f]
  apply BitVec.eq_of_getLsbD_eq
  intro i hi
  have hmask : (0xFFFCFFFF : Dword).getLsbD i = decide (i ≠ 16 ∧ i ≠ 17) := by revert i; decide
  rw [BitVec.getLsbD_and, BitVec.getLsbD_or, BitVec.getLsbD_or, bitAt_bit, bitAt_bit, hmask]
  by_cases h : i = 16 ∨ i = 17
  · have : ({ f with vm := false, rf := false } : Eflags).word.getLsbD i = false := by
      unfold Eflags.word
      rcases h with rfl | rfl <;> simp [bitAt_bit, -BitVec.getLsbD_eq_getElem]
    rw [this]
    rcases h with rfl | rfl <;> simp
  · obtain ⟨h1, h2⟩ := not_or.1 h
    simp [h1, h2]

/-! Shutdown for want of a stack in Real Mode. -/

theorem noteException_quiet (s : State) {e : Exn} (h1 : e.cr2 = none) (h2 : e.dr6 = 0#32) : s.noteException e = s := by
  unfold State.noteException
  rw [h1, h2]
  simp

/-- With SP = 1 no frame can be pushed: whatever is to be delivered raises a double fault or a stack fault. -/
theorem deliver_one {s : State} (hp : s.cr0.pe = false) (h1 : s.sp = 1) (ev : Event) :
    ∃ e, (e = Exn.dfault ∨ e = Exn.ss 0) ∧ deliver ev s = .error (.exn e .nothing) s := by
  have hdel : deliver ev s = deliverReal ev s := by
    unfold deliver
    rw [run_bind_ok (run_get s), hp]
    rfl
  rw [hdel]
  unfold deliverReal
  rw [run_bind_ok (run_get s)]
  cases hlim : decide (s.idtr.limit.toNat < 4 * ev.vector.toNat + 3)
  · refine ⟨Exn.ss 0, .inr rfl, ?_⟩
    rw [run_bind_ok (raiseIf_of_false s rfl)]
    refine run_bind_error (spoiling_exn ?_ rfl)
    unfold pushAll
    exact run_bind_error (push_of_wraps _ (wrapsStack_of_one hp h1 (.inl rfl)))
  · exact ⟨Exn.dfault, .inl rfl, run_bind_error (raiseIf_of_true s rfl)⟩

/-- A stack fault there ends in shutdown. -/
theorem takeException_stackFault {s : State} (hp : s.cr0.pe = false) (h1 : s.sp = 1) :
    takeException (Exn.ss 0) s = .next s.enterShutdown := by
  have hq : ∀ e, e = Exn.dfault ∨ e = Exn.ss 0 → (keptState s s .nothing).noteException e = s := by
    intro e he
    rcases he with rfl | rfl <;> exact noteException_quiet s rfl rfl
  have hdf : ∀ n, deliverChain (n + 1) (Exn.dfault.event s.instrEip false) s = .next s.enterShutdown := by
    intro n
    obtain ⟨e, he, hd⟩ := deliver_one hp h1 (Exn.dfault.event s.instrEip false)
    unfold deliverChain
    rw [hd]
    simp only
    rw [hq e he]
    rfl
  have hesc : ∀ e, e = Exn.dfault ∨ e = Exn.ss 0 →
      ((Exn.ss 0).event s.instrEip false).escalate e = some Exn.dfault := by
    intro e he
    rcases he with rfl | rfl <;> rfl
  obtain ⟨e, he, hd⟩ := deliver_one hp h1 ((Exn.ss 0).event s.instrEip false)
  unfold takeException deliverEvent
  rw [noteException_quiet s rfl rfl]
  unfold deliverChain
  rw [hd]
  simp only
  rw [hesc e he, hq e he]
  exact hdf 4

/-- What an instruction leaves whose push shuts the processor down. -/
theorem push_shutsDown {i : Instr} {m : M Unit} {s s1 : State} {sz : Size} {v : Dword} (hi : exec i s = complete m s)
    (hm : m s = push sz v s1) (hsz : sz = .b16 ∨ sz = .b32) (hq : Quiet s s1) (hp : s.cr0.pe = false) (h1 : s.sp = 1) :
    ∃ t, exec i s = .next t ∧ t.runState = .shutdown ∧ t.bus = .shutdown :: s.bus ∧ t.regs = s.regs ∧
      t.eflags = s.eflags ∧ t.pfx = Prefixes.none ∧ t.shadow = .none ∧ NoStore s t ∧
      ({ t with runState := s.runState, bus := s.bus } : State).putBack s = s := by
  have hwrap : s1.wrapsStack (s1.slot sz 0) sz.bytes = true :=
    wrapsStack_of_one (by rw [hq.cr0]; exact hp) (by rw [hq.sp]; exact h1) hsz
  have hbus : s1.bus = s.bus := putBack_congr hq.rest (·.bus) fun _ _ => rfl
  refine ⟨(keptState s s1 .nothing).enterShutdown, ?_, rfl, ?_, rfl, rfl, rfl, rfl, fun p => .inl rfl, rfl⟩
  · rw [hi, complete_exn (hm.trans (push_of_wraps v hwrap))]
    exact takeException_stackFault hp h1
  · show BusCycle.shutdown :: s1.bus = _
    rw [hbus]

theorem osz_cases (s : State) : s.osz = .b16 ∨ s.osz = .b32 := by
  unfold State.osz; split <;> simp

/-- PUSH of a segment register pushes a word, or a dword whose upper half is free. -/
theorem pushSeg_b16 {s : State} (h : s.osz = .b16) (sr : SReg) :
    pushSeg sr s = push .b16 ((s.seg sr).selector.setWidth 32) s := by
  show (if s.osz32 then freeUpper (s.seg sr).selector >>= push .b32 else push .b16 (selValue (s.seg sr).selector)) s = _
  rw [osz_b16.1 h]
  rfl

theorem pushSeg_b32 {s s1 : State} {v : Dword} (h : s.osz = .b32) (sr : SReg)
    (hv : freeUpper (s.seg sr).selector s = .ok v s1) : pushSeg sr s = push .b32 v s1 := by
  show (if s.osz32 then freeUpper (s.seg sr).selector >>= push .b32 else push .b16 (selValue (s.seg sr).selector)) s = _
  rw [osz_b32.1 h]
  exact run_bind_ok hv

theorem pushSeg_shutsDown {i : Instr} {s : State} {sr : SReg} (hi : exec i s = complete (pushSeg sr) s)
    (hp : s.cr0.pe = false) (h1 : s.sp = 1) :
    ∃ t, exec i s = .next t ∧ t.runState = .shutdown ∧ t.bus = .shutdown :: s.bus ∧ t.regs = s.regs ∧
      t.eflags = s.eflags ∧ t.pfx = Prefixes.none ∧ t.shadow = .none ∧ NoStore s t ∧
      ({ t with runState := s.runState, bus := s.bus } : State).putBack s = s := by
  rcases osz_cases s with h | h
  · exact push_shutsDown hi (pushSeg_b16 h sr) (.inl rfl) (Quiet.refl s) hp h1
  · exact push_shutsDown hi (pushSeg_b32 h sr (run_freeUpper _ s)) (.inr rfl) (quiet_draws s _) hp h1

theorem pushf_eq {s : State} (h : s.v86 = false ∨ s.eflags.iopl = 3) {v : Dword}
    (hv : v = s.eflags.word &&& 0xFFFCFFFF) :
    (raiseIf s.v86Sensitive (Exn.gp 0) >>= fun _ => push s.osz { s.eflags with vm := false, rf := false }.word) s =
      push s.osz v s := by
  have hc : s.v86Sensitive = false := by
    unfold State.v86Sensitive
    rcases h with h | h <;> simp [h]
  rw [run_bind_ok (raiseIf_of_false s hc), word_without_rf_vm, ← hv]

/-- Settles O20. -/
theorem pushOperand : Obligations.PushOperand := by
  unfold Obligations.PushOperand
  intro s s1 s2 v hs
  refine ⟨fun hn => ⟨?rm, ?reg, ?imm, ?seg, ?flags⟩, ?shut⟩
  case rm =>
    intro rm hr hw
    exact pushes_of hs rfl (run_bind_ok hr) (quiet_readRm hr) hn hw
  case reg => exact fun r hw => pushes_of hs rfl rfl (Quiet.refl s) hn hw
  case imm => exact fun imm hw => pushes_of hs rfl rfl (Quiet.refl s) hn hw
  case seg =>
    intro p hp
    have hi : exec p.1 s = complete (pushSeg p.2) s := by
      simp only [List.mem_cons, List.not_mem_nil, or_false] at hp
      rcases hp with rfl | rfl | rfl | rfl | rfl | rfl <;> rfl
    refine ⟨fun h hw => ?_, fun h hv hw => ?_⟩
    · rw [h] at hn
      exact pushes_of hs hi (pushSeg_b16 h p.2) (Quiet.refl s) hn hw
    · rw [h] at hn
      refine ⟨?_, pushes_of hs hi (pushSeg_b32 h p.2 hv) ?_ hn hw⟩
      · cases hv; exact mergeWord_low _ _
      · cases hv; exact quiet_draws s _
  case flags =>
    intro h hv hw
    exact pushes_of hs rfl (pushf_eq h hv) (Quiet.refl s) hn hw
  case shut =>
    intro hp h1 _ i r imm hi
    have hosz := osz_cases s
    have hseg := fun sr (hx : exec i s = complete (pushSeg sr) s) => pushSeg_shutsDown hx hp h1
    rcases hi with ⟨rm, rfl, hr⟩ | hi
    · exact push_shutsDown rfl (run_bind_ok hr) hosz (quiet_readRm hr) hp h1
    · simp only [List.mem_cons, List.not_mem_nil, or_false] at hi
      rcases hi with rfl | rfl | rfl | rfl | rfl | rfl | rfl | rfl | rfl
      · exact push_shutsDown rfl rfl hosz (Quiet.refl s) hp h1
      · exact push_shutsDown rfl rfl hosz (Quiet.refl s) hp h1
      · exact hseg .es rfl
      · exact hseg .cs rfl
      · exact hseg .ss rfl
      · exact hseg .ds rfl
      · exact hseg .fs rfl
      · exact hseg .gs rfl
      · exact push_shutsDown rfl (pushf_eq (.inl (by unfold State.v86; rw [hp]; rfl)) rfl) hosz (Quiet.refl s) hp h1

/-! Pops. -/

/-- The flags POPF loads. -/
theorem flagsFrom_eq (s : State) (v : Dword) (rf : Bool) :
    ({ s.eflags.load s.currentCpl v with rf := rf } : Eflags) = s.flagsFrom v rf := rfl

/-- Settles O21. -/
theorem popOperand : Obligations.PopOperand := by
  unfold Obligations.PopOperand
  intro s s1 s2 s3 v rm l r hs hr
  have hq := (memRead_ok hr).2
  have hpop := pop_ok hr
  have hw1 := hq.wf hs.mem
  have hb : ∀ p, SameByte s { s1 with regs := s.regsPopped s.osz.bytes } p :=
    fun p => (hq.bytes hs.mem p).of_mem rfl rfl rfl rfl
  refine ⟨?rm, ?reg, ?flags⟩
  case rm =>
    intro hl hw
    have hql := quiet_resolve hl
    obtain ⟨hregs, hfl, hrest, -, -, -, hst⟩ := writeLoc_ok hw
    have hbl : NoStore s s2 := fun p => (hb p).trans hq.pg hq.params (hql.bytes hw1 p)
    have hcr : s2.cr0 = s.cr0 := by rw [hql.cr0]; exact hq.cr0
    have hpar : s2.params = s.params := by rw [hql.params]; exact hq.params
    refine ⟨_, complete_ok ((run_bind_ok hpop).trans ((run_bind_ok hl).trans hw)), ends_retire ?_ ?_ ?_, ?_⟩
    · rw [hregs, hql.regs]
    · rw [hfl, hql.eflags]
      show ({ s1.eflags with rf := false } : Eflags) = _
      rw [hq.eflags]
    · have hrest1 : ({ s1 with regs := s.regsPopped s.osz.bytes } : State).putBack s = s := hq.rest
      exact putBack_trans (putBack_trans hrest1 hql.rest) hrest
    · have hw2 : Memory.wf s2.mem = true := hql.wf hw1
      refine Loc.Stored.of_mem (t := s3) rfl ?_
      cases l with
      | reg r => exact fun p => (hbl p).trans (by rw [hcr]) hpar (hst hw2 p)
      | mem sr off => exact StoresAt.after (by rw [hcr]) hpar hbl (hst hw2)
  case reg =>
    refine gives_of (t := ({ s1 with regs := s.regsPopped s.osz.bytes } : State).setReg s.osz r v) rfl
      ((run_bind_ok hpop).trans rfl) rfl ?_ hq.rest hb
    show ({ s1.eflags with rf := false } : Eflags) = _
    rw [hq.eflags]
  case flags =>
    intro h
    have hc : s.v86Sensitive = false := by
      unfold State.v86Sensitive
      rcases h with h | h <;> simp [h]
    refine ⟨_, finish_ok ((run_bind_ok (raiseIf_of_false s hc)).trans ((run_bind_ok hpop).trans rfl)), ?_, ?_, ?_, ?_, ?_, ?_⟩
    · rfl
    · exact hq.rest
    · rfl
    · rfl
    · exact hb
    · show ({ s1.eflags.load s.currentCpl v with rf := s1.eflags.rf && !s.osz32 } : Eflags) = _
      rw [hq.eflags, flagsFrom_eq]
      congr 1
      rcases osz_cases s with h | h
      · rw [h, osz_b16.1 h]; simp
      · rw [h, osz_b32.1 h]; simp

/-! XCHG. -/

/-- Settles O22. -/
theorem exchange_obligation : Obligations.Exchange := by
  unfold Obligations.Exchange
  intro s s1 s2 s3 w reg rm l a hs
  refine ⟨fun hl hr hw => ?_, ?_⟩
  · have hq := (quiet_resolve hl).trans (quiet_readLoc hr)
    obtain ⟨hregs, hfl, hrest, -, -, -, hst⟩ := writeLoc_ok hw
    have hm : exchange (s.wsz w) l reg s1 = .ok () (s3.setReg (s.wsz w) reg a) := by
      unfold exchange
      rw [run_bind_ok (readToUpdate_ok hr hw), run_bind_ok (run_get s2)]
      unfold State.reg
      rw [hq.regs]
      exact (run_bind_ok hw).trans rfl
    refine ⟨_, complete_ok ((run_bind_ok hl).trans hm), ends_retire ?_ ?_ ?_, ?_⟩
    · rw [State.setReg_regs, hregs, hq.regs]
    · show ({ s3.eflags with rf := false } : Eflags) = _
      rw [hfl, hq.eflags]
    · exact putBack_trans (hq.putBack hrest) rfl
    · exact Loc.Stored.of_mem (t := s3) rfl (Loc.Stored.after hq hs.mem (hst (hq.wf hs.mem)))
  · exact gives_of_quiet (m := exchange s.osz (.reg reg) .eax)
      (t := (s.setReg s.osz reg (s.reg s.osz .eax)).setReg s.osz .eax (s.reg s.osz reg)) rfl hs rfl
      (Quiet.refl s) rfl rfl rfl rfl

end Sys2Proof.Machine
end

section
/-! O23 to O25: IN, OUT, I/O permission and the flag instructions. -/

namespace Sys2Proof.Machine

/-! I/O permission. -/

theorem quiet_ioPermitted {port : Word} {n : Nat} {b : Bool} {s t : State} (h : ioPermitted port n s = .ok b t) :
    Quiet s t := by
  unfold ioPermitted at h
  obtain ⟨_, s1, h1, h⟩ := run_bind_eq_ok.1 h
  cases h1
  split at h
  · cases h; exact .refl _
  · obtain ⟨_, s2, h2, h⟩ := run_bind_eq_ok.1 h
    simp only at h
    split at h
    · cases h; exact quiet_sysRead h2
    · obtain ⟨_, s3, h3, h⟩ := run_bind_eq_ok.1 h
      cases h
      exact (quiet_sysRead h2).trans (quiet_sysRead h3)

theorem quiet_checkIo {port : Word} {sz : Size} {s t : State} {a : Unit} (h : checkIo port sz s = .ok a t) : Quiet s t := by
  unfold checkIo at h
  obtain ⟨_, s1, h1, h⟩ := run_bind_eq_ok.1 h
  cases h1
  split at h
  · cases h; exact .refl _
  · split at h
    · cases h; exact .refl _
    · obtain ⟨_, s2, h2, h⟩ := run_bind_eq_ok.1 h
      obtain ⟨-, rfl⟩ := run_raiseIf_eq_ok.1 h
      exact quiet_ioPermitted h2

/-! The cycles of an I/O operand. -/

theorem portsAbsent_iff {p : Config.Params} {port n : Nat} :
    portsAbsent p port n = true ↔ ∃ k, k < n ∧ p.portAbsent (port + k) = true := by
  induction n generalizing port with
  | zero => simp [portsAbsent]
  | succ n ih =>
    rw [portsAbsent, Bool.or_eq_true, ih]
    constructor
    · rintro (h | ⟨k, hk, h⟩)
      · exact ⟨0, by omega, h⟩
      · exact ⟨k + 1, by omega, by rw [← h]; congr 1; omega⟩
    · rintro ⟨k, hk, h⟩
      cases k with
      | zero => exact .inl h
      | succ k => exact .inr ⟨k, by omega, by rw [← h]; congr 1; omega⟩

theorem portsAbsent_eq_false {p : Config.Params} {port n : Nat} (h : ∀ k, k < n → p.portAbsent (port + k) = false) :
    portsAbsent p port n = false := by
  rw [← Bool.not_eq_true, portsAbsent_iff]
  rintro ⟨k, hk, hp⟩
  rw [h k hk] at hp
  cases hp

theorem ioCycles_ok {s : State} {port : Word} {n : Nat} (cs : List BusCycle) (h : port.toNat + n ≤ 65536)
    (ha : ∀ k, k < n → s.params.portAbsent (port.toNat + k) = false) : ioCycles port n cs s = .ok () (s.logged cs) := by
  unfold ioCycles
  rw [run_bind_ok (run_get s)]
  rw [if_neg (by omega), portsAbsent_eq_false ha]
  rfl

/-- An operand past port FFFFH. -/
theorem ioCycles_pastTop {s : State} {port : Word} {n : Nat} (cs : List BusCycle) (h : 65536 < port.toNat + n) :
    ioCycles port n cs s = .error (.fault (.ioPastTop s)) s := by
  unfold ioCycles
  rw [run_bind_ok (run_get s), if_pos h]
  rfl

/-- An operand with a port where nothing answers. -/
theorem ioCycles_absent {s : State} {port : Word} {n : Nat} (cs : List BusCycle) (h : port.toNat + n ≤ 65536)
    (ha : ∃ k, k < n ∧ s.params.portAbsent (port.toNat + k) = true) :
    ∃ u, ioCycles port n cs s = .error (.fault (.noReady u)) s := by
  unfold ioCycles
  rw [run_bind_ok (run_get s), if_neg (by omega), portsAbsent_iff.2 ha]
  exact ⟨_, rfl⟩

/-- What the ports answer. -/
theorem inputBytes_ok (p n : Nat) (s : State) : ∃ bs t, inputBytes p n s = .ok bs t ∧ bs.length = n ∧
    t = { s with draws := t.draws } ∧
    ∀ k b, k < n → portInput (p + k) s.ioInputs = some b → bs[k]? = some b := by
  induction n generalizing p s with
  | zero => exact ⟨[], s, rfl, rfl, rfl, fun k b hk => absurd hk (by omega)⟩
  | succ n ih =>
    obtain ⟨b0, s1, h1, e1, hb0⟩ : ∃ b0 s1, inputByte p s = .ok b0 s1 ∧ s1 = { s with draws := s1.draws } ∧
        ∀ b, portInput p s.ioInputs = some b → b0 = b := by
      unfold inputByte
      cases hp : portInput p s.ioInputs with
      | none => exact ⟨_, _, rfl, rfl, fun b hb => by cases hb⟩
      | some v => exact ⟨_, _, rfl, rfl, fun b hb => by cases hb; rfl⟩
    obtain ⟨bs, t, h2, hl, e2, hb⟩ := ih (p + 1) s1
    have hin : s1.ioInputs = s.ioInputs := by rw [e1]
    refine ⟨b0 :: bs, t, ?_, by simp [hl], by rw [e2, e1], ?_⟩
    · unfold inputBytes
      rw [run_bind_ok h1, run_bind_ok h2]
      rfl
    · intro k b hk hpk
      cases k with
      | zero => rw [hb0 b hpk]; rfl
      | succ k =>
        have := hb k b (by omega) (by rw [hin]; rw [← hpk]; congr 1; omega)
        simpa using this

/-- The cycles of a read of an I/O operand. -/
def State.readCycles (s : State) (port : Word) (sz : Size) : List BusCycle :=
  (operandCycles (s.params.asserts16 .ioDataRead) sz.bytes port.toNat).map fun c => .ioRead (port.toNat + c.1) c.2

/-- The cycles of a write of an I/O operand. -/
def State.writeCycles (s : State) (port : Word) (sz : Size) (v : Dword) : List BusCycle :=
  (operandCycles (s.params.asserts16 .ioDataWrite) sz.bytes port.toNat).map fun c =>
    .ioWrite (port.toNat + c.1) (((leBytes sz.bytes v).drop c.1).take c.2)

theorem ioRead_ok {s : State} {port : Word} {sz : Size} (h : port.toNat + sz.bytes ≤ 65536)
    (ha : ∀ k, k < sz.bytes → s.params.portAbsent (port.toNat + k) = false) :
    ∃ v t, ioRead port sz s = .ok v t ∧ t = { s.logged (s.readCycles port sz) with draws := t.draws } ∧
      ∀ k b, k < sz.bytes → portInput (port.toNat + k) s.ioInputs = some b → v.extractLsb' (8 * k) 8 = b := by
  obtain ⟨bs, t, h2, hl, he, hb⟩ := inputBytes_ok port.toNat sz.bytes (s.logged (s.readCycles port sz))
  refine ⟨leDword bs, t, ?_, he, fun k b hk hp => ?_⟩
  · unfold ioRead
    rw [run_bind_ok (run_get s)]
    exact (run_bind_ok (ioCycles_ok (s.readCycles port sz) h ha)).trans ((run_bind_ok h2).trans rfl)
  · have hlen : bs.length ≤ 4 := by rw [hl]; exact bytes_le_four sz
    have hget := hb k b hk hp
    obtain ⟨hk', rfl⟩ := List.getElem?_eq_some_iff.1 hget
    exact leDword_byte hlen k hk'

theorem ioWrite_ok {s : State} {port : Word} {sz : Size} (v : Dword) (h : port.toNat + sz.bytes ≤ 65536)
    (ha : ∀ k, k < sz.bytes → s.params.portAbsent (port.toNat + k) = false) :
    ioWrite port sz v s = .ok () (s.logged (s.writeCycles port sz v)) := by
  unfold ioWrite
  rw [run_bind_ok (run_get s)]
  exact ioCycles_ok (s.writeCycles port sz v) h ha

/-- An instruction that stops with a fault of the model. -/
theorem exec_fault {i : Instr} {m : M Unit} {s t : State} {f : Fault} (hi : exec i s = complete m s)
    (hm : m s = .error (.fault f) t) : exec i s = .fault f := by
  rw [hi]; unfold complete finish; rw [hm]; rfl

/-- How an instruction that does I/O stops where its cycles do, `io` being IN's read or OUT's write. -/
theorem io_stops {α : Type} {s s1 : State} {port : Word} {sz : Size} {i : Instr} {m : M Unit} {io : M α}
    {cs : List BusCycle} {k1 : M α} {k : α → M Unit} (hi : exec i s = complete m s)
    (hm : m s = (io >>= k) s1) (hio : io s1 = (ioCycles port sz.bytes cs >>= fun _ => k1) s1) (hq : Quiet s s1) :
    (port.toNat + sz.bytes ≤ 65536 → (∃ k, k < sz.bytes ∧ s.params.portAbsent (port.toNat + k) = true) →
      ∃ u, exec i s = .fault (.noReady u)) ∧
    (65536 < port.toNat + sz.bytes → ∃ u, exec i s = .fault (.ioPastTop u)) := by
  refine ⟨fun h ha => ?_, fun h => ?_⟩
  · rw [← hq.params] at ha
    obtain ⟨u, hu⟩ := ioCycles_absent cs h ha
    exact ⟨u, exec_fault hi (hm.trans (run_bind_error (hio.trans (run_bind_error hu))))⟩
  · exact ⟨s1, exec_fault hi (hm.trans (run_bind_error (hio.trans (run_bind_error (ioCycles_pastTop cs h)))))⟩

/-- IN stops. -/
theorem in_stops {s s1 : State} {port : Word} {sz : Size} {i : Instr} (hi : exec i s = complete (inputTo port sz) s)
    (hc : checkIo port sz s = .ok () s1) :
    (port.toNat + sz.bytes ≤ 65536 → (∃ k, k < sz.bytes ∧ s.params.portAbsent (port.toNat + k) = true) →
      ∃ u, exec i s = .fault (.noReady u)) ∧
    (65536 < port.toNat + sz.bytes → ∃ u, exec i s = .fault (.ioPastTop u)) :=
  io_stops hi (run_bind_ok hc) (run_bind_ok (run_get s1)) (quiet_checkIo hc)

/-- OUT stops. -/
theorem out_stops {s s1 : State} {port : Word} {sz : Size} {i : Instr} (hi : exec i s = complete (outputFrom port sz) s)
    (hc : checkIo port sz s = .ok () s1) :
    (port.toNat + sz.bytes ≤ 65536 → (∃ k, k < sz.bytes ∧ s.params.portAbsent (port.toNat + k) = true) →
      ∃ u, exec i s = .fault (.noReady u)) ∧
    (65536 < port.toNat + sz.bytes → ∃ u, exec i s = .fault (.ioPastTop u)) := by
  have hm : outputFrom port sz s = ioWrite port sz (s1.reg sz .eax) s1 := by
    unfold outputFrom
    rw [run_bind_ok hc]
    rfl
  have hb : ∀ (m : M Unit) (u : State), m u = (m >>= fun _ => pure ()) u := fun m u => by
    rw [run_bind]; cases m u <;> rfl
  exact io_stops (k := fun _ => pure ()) hi (hm.trans (hb _ s1))
    ((show ioWrite port sz (s1.reg sz .eax) s1 =
      ioCycles port sz.bytes (s1.writeCycles port sz (s1.reg sz .eax)) s1 from rfl).trans (hb _ s1)) (quiet_checkIo hc)

theorem in_reads {s s1 : State} (hs : s.Inv) {port : Word} {sz : Size} {i : Instr}
    (hi : exec i s = complete (inputTo port sz) s) (hc : checkIo port sz s = .ok () s1)
    (h : port.toNat + sz.bytes ≤ 65536) (ha : ∀ k, k < sz.bytes → s.params.portAbsent (port.toNat + k) = false) :
    ∃ t v, exec i s = .next t ∧
      Ends s t (s.regs.write sz .eax v) s.eflags { s with bus := (s.readCycles port sz).reverse ++ s.bus } ∧
      NoStore s t ∧
      ∀ k b, k < sz.bytes → portInput (port.toNat + k) s.ioInputs = some b → v.extractLsb' (8 * k) 8 = b := by
  have hq := quiet_checkIo hc
  have hin : s1.ioInputs = s.ioInputs := putBack_congr hq.rest (·.ioInputs) fun _ _ => rfl
  have hcy : s1.readCycles port sz = s.readCycles port sz := by unfold State.readCycles; rw [hq.params]
  obtain ⟨v, t, ht, he, hv⟩ := ioRead_ok (s := s1) h (by rw [hq.params]; exact ha)
  rw [hin] at hv
  rw [hcy] at he
  have hm : inputTo port sz s = .ok () (t.setReg sz .eax v) := by
    unfold inputTo
    rw [run_bind_ok hc, run_bind_ok ht]
    rfl
  have hbus : s1.bus = s.bus := putBack_congr hq.rest (·.bus) fun _ _ => rfl
  refine ⟨_, v, hi.trans (complete_ok hm), ends_retire ?_ ?_ ?_, fun p => ?_, hv⟩
  · rw [State.setReg_regs, he]
    show s1.regs.write sz .eax v = _
    rw [hq.regs]
  · rw [he]
    show ({ s1.eflags with rf := false } : Eflags) = _
    rw [hq.eflags]
  · rw [he]
    show ({ s1.putBack s with bus := (s.readCycles port sz).reverse ++ s1.bus } : State) = _
    rw [hq.rest, hbus]
  · rw [he]
    exact (hq.bytes hs.mem p).of_mem rfl rfl rfl rfl

theorem out_writes {s s1 : State} (hs : s.Inv) {port : Word} {sz : Size} {i : Instr}
    (hi : exec i s = complete (outputFrom port sz) s) (hc : checkIo port sz s = .ok () s1)
    (h : port.toNat + sz.bytes ≤ 65536) (ha : ∀ k, k < sz.bytes → s.params.portAbsent (port.toNat + k) = false) :
    Gives i s s.regs (fun _ => s.eflags)
      { s with bus := (s.writeCycles port sz (s.reg sz .eax)).reverse ++ s.bus } := by
  have hq := quiet_checkIo hc
  have hcy : s1.writeCycles port sz (s1.reg sz .eax) = s.writeCycles port sz (s.reg sz .eax) := by
    unfold State.writeCycles State.reg; rw [hq.params, hq.regs]
  have hm : outputFrom port sz s = .ok () (s1.logged (s.writeCycles port sz (s.reg sz .eax))) := by
    unfold outputFrom
    rw [run_bind_ok hc, run_bind_ok (run_get s1), ioWrite_ok (s := s1) _ h (by rw [hq.params]; exact ha), hcy]
  have hbus : s1.bus = s.bus := putBack_congr hq.rest (·.bus) fun _ _ => rfl
  refine gives_of hi hm hq.regs ?_ ?_ (fun p => (hq.bytes hs.mem p).of_mem rfl rfl rfl rfl)
  · show ({ s1.eflags with rf := false } : Eflags) = _
    rw [hq.eflags]
  · show ({ s1.putBack s with bus := (s.writeCycles port sz (s.reg sz .eax)).reverse ++ s1.bus } : State) = _
    rw [hq.rest, hbus]

/-- Settles O23. -/
theorem inputOutput : Obligations.InputOutput := by
  unfold Obligations.InputOutput
  rintro s s1 w n port sz hs rfl hc
  have hin : ∀ i : Instr, (i = .inImm w n ∧ port = n.setWidth 16) ∨ (i = .inDx w ∧ port = s.regs.edx.setWidth 16) →
      exec i s = complete (inputTo port (s.wsz w)) s := by
    rintro i (⟨rfl, rfl⟩ | ⟨rfl, rfl⟩) <;> rfl
  have hout : ∀ i : Instr, (i = .outImm w n ∧ port = n.setWidth 16) ∨ (i = .outDx w ∧ port = s.regs.edx.setWidth 16) →
      exec i s = complete (outputFrom port (s.wsz w)) s := by
    rintro i (⟨rfl, rfl⟩ | ⟨rfl, rfl⟩) <;> rfl
  refine ⟨fun i hi => ?waits, fun i hi => ?reads, fun i hi => ?writes⟩
  case waits =>
    rcases hi with hi | hi | hi | hi
    · exact (in_stops (hin i (.inl hi)) hc).1
    · exact (in_stops (hin i (.inr hi)) hc).1
    · exact (out_stops (hout i (.inl hi)) hc).1
    · exact (out_stops (hout i (.inr hi)) hc).1
  case reads => exact ⟨in_reads hs (hin i hi) hc, (in_stops (hin i hi) hc).2⟩
  case writes => exact ⟨out_writes hs (hout i hi) hc, (out_stops (hout i hi) hc).2⟩

end Sys2Proof.Machine
end

section
/-! O24 and O25: when I/O is permitted, and the flag instructions. -/

namespace Sys2Proof.Machine

/-! The I/O permission map. -/

/-- A bit of the number that bytes make. -/
theorem leDword_bit {bs : List Byte} (h : bs.length ≤ 4) {j : Nat} (hj : j / 8 < bs.length) :
    (leDword bs).getLsbD j = (bs[j / 8]).getLsbD (j % 8) := by
  have hb := congrArg (fun v => v.getLsbD (j % 8)) (leDword_byte h (j / 8) hj)
  simp only [BitVec.getLsbD_extractLsb', show j % 8 < 8 by omega, decide_true, Bool.true_and,
    show 8 * (j / 8) + j % 8 = j by omega] at hb
  exact hb

/-- The mask of `n` ports that begin at bit `m` of a word of the map. -/
theorem ioMask_bit {m n j : Nat} (hj : j < 32) :
    (BitVec.ofNat 32 ((2 ^ n - 1) * 2 ^ m) : Dword).getLsbD j = decide (m ≤ j ∧ j < m + n) := by
  rw [BitVec.getLsbD_ofNat, Nat.testBit_mul_two_pow, Nat.testBit_two_pow_sub_one]
  by_cases h1 : m ≤ j
  · simp [hj, h1]
    omega
  · simp [h1]

/-- The bit of the map for the `k`-th port of an operand, the word of the map being at `a`. -/
theorem mapWord_bit (s : State) (a : Dword) {j : Nat} (hj : j < 16) :
    (leDword ((linearRange a 2).map s.readByte)).getLsbD j =
      (s.readByte (a + BitVec.ofNat 32 (j / 8))).getLsbD (j % 8) := by
  rw [leDword_bit (by simp) (by simp; omega), List.getElem_map, linearRange_get _ _ _ (by omega)]

/-- A word of the map permits an operand where all its bits are 0. -/
theorem ioMask_zero (s : State) (a : Dword) {m n : Nat} (hm : m < 8) (hn : n ≤ 4) :
    leDword ((linearRange a 2).map s.readByte) &&& BitVec.ofNat 32 ((2 ^ n - 1) * 2 ^ m) = 0#32 ↔
      ∀ k, k < n → (s.readByte (a + BitVec.ofNat 32 ((m + k) / 8))).getLsbD ((m + k) % 8) = false := by
  constructor
  · intro h k hk
    have hb := congrArg (fun v => v.getLsbD (m + k)) h
    simp only [BitVec.getLsbD_and, ioMask_bit (show m + k < 32 by omega), BitVec.getLsbD_zero] at hb
    rw [← mapWord_bit s a (by omega)]
    simpa [hk, -BitVec.getLsbD_eq_getElem] using hb
  · intro h
    apply BitVec.eq_of_getLsbD_eq
    intro i hi
    rw [BitVec.getLsbD_and, ioMask_bit hi, BitVec.getLsbD_zero]
    by_cases hin : m ≤ i ∧ i < m + n
    · have := h (i - m) (by omega)
      rw [show m + (i - m) = i by omega, ← mapWord_bit s a (by omega)] at this
      rw [this]; rfl
    · simp [hin]

/-- Where the offset of the map lies in a 386 TSS. -/
def State.mapOffset (s : State) : Nat := leNat ([0, 1].map fun k => s.readByte (s.tr.base + 0x66 + k))

theorem mapOffset_eq (s : State) :
    (leDword ((linearRange (s.tr.base + 0x66) 2).map s.readByte)).toNat = s.mapOffset := by
  rw [leDword_toNat (by simp)]
  simp [State.mapOffset, linearRange]

/-- A TSS that holds no map. -/
theorem ioPermitted_noMap {s : State} (port : Word) (n : Nat)
    (h : s.tr.valid = false ∨ s.tr.type.getLsbD 3 = false ∨ s.tr.limit.toNat < 0x67) :
    ioPermitted port n s = .ok false s := by
  unfold ioPermitted
  rw [run_bind_ok (run_get s), if_pos]
  · rfl
  · rcases h with h | h | h
    · rw [h]; rfl
    · rw [h]; simp
    · rw [decide_eq_true h]; simp

section
variable {s : State} (hp : s.Plain) (port : Word) {n : Nat} (h1 : s.tr.valid = true)
  (h2 : s.tr.type.getLsbD 3 = true) (h3 : 0x67 ≤ s.tr.limit.toNat)
include hp h1 h2 h3

/-- A map that ends before the operand's word. -/
theorem ioPermitted_beyond (hlim : s.tr.limit.toNat < s.mapOffset + port.toNat / 8 + 1) :
    ∃ t, ioPermitted port n s = .ok false t ∧ Noted s t := by
  obtain ⟨s1, hs1, he⟩ := sysRead_unpaged hp (s.tr.base + 0x66) .b16
  refine ⟨s1, ?_, he⟩
  unfold ioPermitted
  rw [run_bind_ok (run_get s), if_neg (by simp [h1, h2, h3, -BitVec.getLsbD_eq_getElem])]
  refine (run_bind_ok hs1).trans ?_
  show (if s.tr.limit.toNat < (leDword ((linearRange (s.tr.base + 0x66) 2).map s.readByte)).toNat + port.toNat / 8 + 1 then
    _ else _ : M Bool) s1 = _
  rw [mapOffset_eq, if_pos hlim]
  rfl

/-- A map that holds the operand's word. -/
theorem ioPermitted_word (hn : n ≤ 4) (hlim : s.mapOffset + port.toNat / 8 + 1 ≤ s.tr.limit.toNat) :
    ∃ b t, ioPermitted port n s = .ok b t ∧ Noted s t ∧
      (b = true ↔ (∀ k, k < n → (s.readByte (s.tr.base + BitVec.ofNat 32
          (s.mapOffset + port.toNat / 8 + (port.toNat % 8 + k) / 8))).getLsbD ((port.toNat % 8 + k) % 8) = false) ∧
        port.toNat + n ≤ 65536) := by
  obtain ⟨s1, hs1, he1⟩ := sysRead_unpaged hp (s.tr.base + 0x66) .b16
  have hp1 : s1.Plain := Noted.plain he1 hp
  obtain ⟨s2, hs2, he2⟩ := sysRead_unpaged hp1 (s.tr.base + BitVec.ofNat 32 (s.mapOffset + port.toNat / 8)) .b16
  have hbytes : s1.readByte = s.readByte := by rw [he1]; rfl
  rw [hbytes] at hs2
  refine ⟨(leDword ((linearRange (s.tr.base + BitVec.ofNat 32 (s.mapOffset + port.toNat / 8)) 2).map s.readByte) &&&
      BitVec.ofNat 32 ((2 ^ n - 1) * 2 ^ (port.toNat % 8)) == 0#32) && decide (port.toNat + n ≤ 65536), s2, ?_,
    Noted.trans he1 he2, ?_⟩
  · unfold ioPermitted
    rw [run_bind_ok (run_get s), if_neg (by simp [h1, h2, h3, -BitVec.getLsbD_eq_getElem])]
    refine (run_bind_ok hs1).trans ?_
    show (if s.tr.limit.toNat < (leDword ((linearRange (s.tr.base + 0x66) 2).map s.readByte)).toNat + port.toNat / 8 + 1 then
      _ else sysRead (s.tr.base + BitVec.ofNat 32
        ((leDword ((linearRange (s.tr.base + 0x66) 2).map s.readByte)).toNat + port.toNat / 8)) .b16 >>= _ : M Bool) s1 = _
    rw [mapOffset_eq, if_neg (by omega)]
    exact (run_bind_ok hs2).trans rfl
  · rw [Bool.and_eq_true, beq_iff_eq, decide_eq_true_eq, ioMask_zero s _ (by omega) hn]
    simp only [BitVec.add_assoc, ← BitVec.ofNat_add]

end

/-- Outside Protected and Virtual 8086 Mode, or with CPL ≤ IOPL, I/O is permitted. -/
theorem checkIo_free {s : State} {port : Word} {sz : Size}
    (h : s.cr0.pe = false ∨ (s.eflags.vm = false ∧ s.currentCpl ≤ s.eflags.iopl)) : checkIo port sz s = .ok () s := by
  unfold checkIo
  rw [run_bind_ok (run_get s)]
  rcases h with h | ⟨h1, h2⟩
  · rw [h]; rfl
  · rw [h1, decide_eq_true h2]
    cases s.cr0.pe <;> rfl

/-- Else the map says. -/
theorem checkIo_map {s : State} {port : Word} {sz : Size} (hp : s.cr0.pe = true)
    (h : s.eflags.vm = true ∨ s.eflags.iopl < s.currentCpl) :
    checkIo port sz s = (ioPermitted port sz.bytes >>= fun ok => raiseIf (!ok) (Exn.gp 0)) s := by
  unfold checkIo
  rw [run_bind_ok (run_get s), hp]
  have : (!s.eflags.vm && decide (s.currentCpl ≤ s.eflags.iopl)) = false := by
    rcases h with h | h
    · rw [h]; rfl
    · rw [decide_eq_false (by simpa using h)]; simp
  rw [this]
  rfl

/-- An exception from an instruction that a quiet part has preceded. -/
theorem exec_exn_after {i : Instr} {m : M Unit} {s s1 : State} {e : Exn} (hi : exec i s = complete m s)
    (hm : m s = .error (.exn e .nothing) s1) :
    exec i s = takeException e { s with draws := s1.draws, bus := s1.bus, deviceBus := s1.deviceBus } := by
  rw [hi, complete_exn hm]; rfl

/-- Settles O24. -/
theorem ioPermission : Obligations.IoPermission := by
  unfold Obligations.IoPermission
  refine ⟨?_, ?_⟩
  · rintro s port sz map hp rfl
    have hmap : leNat ([0, 1].map fun k => s.readByte (s.tr.base + 0x66 + k)) = s.mapOffset := rfl
    rw [hmap]
    refine ⟨checkIo_free, fun hpe hcpl => ⟨fun h => ?none, fun h1 h2 h3 => ⟨fun hlim htop hbits => ?yes, fun h => ?no⟩⟩⟩
    case none =>
      rw [checkIo_map hpe hcpl, run_bind_ok (ioPermitted_noMap port sz.bytes h)]
      rfl
    case yes =>
      obtain ⟨b, t, ht, he, hb⟩ := ioPermitted_word hp port h1 h2 h3 (bytes_le_four sz) hlim
      refine ⟨t, ?_, he⟩
      rw [checkIo_map hpe hcpl, run_bind_ok ht, hb.2 ⟨hbits, htop⟩]
      rfl
    case no =>
      by_cases hlim : s.tr.limit.toNat < s.mapOffset + port.toNat / 8 + 1
      · obtain ⟨t, ht, he⟩ := ioPermitted_beyond (n := sz.bytes) hp port h1 h2 h3 hlim
        refine ⟨t, ?_, he⟩
        rw [checkIo_map hpe hcpl, run_bind_ok ht]
        rfl
      · obtain ⟨b, t, ht, he, hb⟩ := ioPermitted_word hp port h1 h2 h3 (bytes_le_four sz) (by omega)
        refine ⟨t, ?_, he⟩
        have hbf : b = false := by
          rw [← Bool.not_eq_true, hb]
          rintro ⟨hbits, htop⟩
          rcases h with h | h | ⟨k, hk, h⟩
          · exact hlim h
          · omega
          · rw [hbits k hk] at h; cases h
        rw [checkIo_map hpe hcpl, run_bind_ok ht, hbf]
        rfl
  · intro s s1 w n i port e hmem hc
    simp only [List.mem_cons, List.not_mem_nil, or_false, Prod.mk.injEq] at hmem
    rcases hmem with ⟨rfl, rfl⟩ | ⟨rfl, rfl⟩ | ⟨rfl, rfl⟩ | ⟨rfl, rfl⟩ | ⟨rfl, rfl⟩ | ⟨rfl, rfl⟩
    case inl => exact exec_exn_after rfl (run_bind_error hc)
    case inr.inl => exact exec_exn_after rfl (run_bind_error hc)
    case inr.inr.inl => exact exec_exn_after rfl (run_bind_error hc)
    case inr.inr.inr.inl => exact exec_exn_after rfl (run_bind_error hc)
    case inr.inr.inr.inr.inl =>
      exact exec_exn_after rfl ((run_bind_ok (run_get s)).trans (run_bind_error hc))
    case inr.inr.inr.inr.inr =>
      exact exec_exn_after rfl ((run_bind_ok (run_get s)).trans (run_bind_error hc))

/-! The flag instructions. -/

/-- SF, ZF, AF, PF and CF as LAHF lays them out. -/
def flagsByte (sf zf af pf cf : Bool) : Byte :=
  BitVec.ofBool sf ++ BitVec.ofBool zf ++ 0#1 ++ BitVec.ofBool af ++ 0#1 ++ BitVec.ofBool pf ++ 1#1 ++ BitVec.ofBool cf

theorem flagsByte_bits (sf zf af pf cf : Bool) : (List.range 8).map (flagsByte sf zf af pf cf).getLsbD =
    [cf, true, pf, false, af, false, zf, sf] := by
  revert sf zf af pf cf
  decide

/-- The low byte of EFLAGS. -/
theorem word_lowByte (f : Eflags) : f.word.setWidth 8 = flagsByte f.sf f.zf f.af f.pf f.cf := by
  have hbits := flagsByte_bits f.sf f.zf f.af f.pf f.cf
  simp only [List.range, List.range.loop, List.map_cons, List.map_nil, List.cons.injEq, and_true] at hbits
  obtain ⟨b0, b1, b2, b3, b4, b5, b6, b7⟩ := hbits
  apply BitVec.eq_of_getLsbD_eq
  intro i hi
  unfold Eflags.word
  interval_cases i <;> simp [bitAt_bit, -BitVec.getLsbD_eq_getElem, *]

/-- The bits of AH. -/
theorem ah_bit (s : State) {k : Nat} (hk : k < 8) : (s.reg .b8 .esp).getLsbD k = s.regs.eax.getLsbD (8 + k) := by
  show ((s.regs.eax.extractLsb' 8 8).setWidth 32 : Dword).getLsbD k = _
  simp [hk, show k < 32 by omega, -BitVec.getLsbD_eq_getElem]

theorem checkIopl_ok {s : State} (h : s.cr0.pe = false ∨ s.currentCpl ≤ s.eflags.iopl) : checkIopl s = .ok () s := by
  unfold checkIopl
  rw [run_bind_ok (run_get s)]
  refine raiseIf_of_false s ?_
  rcases h with h | h
  · rw [h]; rfl
  · rw [decide_eq_false (by simpa using h)]; simp

theorem checkIopl_exn {s : State} (hp : s.cr0.pe = true) (h : s.eflags.iopl < s.currentCpl) :
    checkIopl s = .error (.exn (Exn.gp 0) .nothing) s := by
  unfold checkIopl
  rw [run_bind_ok (run_get s)]
  exact raiseIf_of_true s (by rw [hp, decide_eq_true h]; rfl)

theorem checkCpl0_ok {s : State} (h : s.currentCpl = 0) : checkCpl0 s = .ok () s := by
  unfold checkCpl0
  rw [run_bind_ok (run_get s), h]
  rfl

/-- An instruction that changes flags alone. -/
theorem gives_changeFlags {i : Instr} {s : State} {f : Eflags → Eflags} (hs : s.Inv)
    (hi : exec i s = complete (changeFlags f) s) : Gives i s s.regs (fun _ => f s.eflags) s :=
  gives_of_quiet (t := s.setFlags (f s.eflags)) hi hs rfl (Quiet.refl s) rfl rfl rfl rfl

theorem lahf_gives {s : State} (hs : s.Inv) : Gives .lahf s
      { s.regs with eax := s.regs.eax.extractLsb' 16 16 ++ (BitVec.ofBool s.eflags.sf ++ BitVec.ofBool s.eflags.zf ++ 0#1 ++
          BitVec.ofBool s.eflags.af ++ 0#1 ++ BitVec.ofBool s.eflags.pf ++ 1#1 ++ BitVec.ofBool s.eflags.cf : Byte) ++
            s.regs.eax.extractLsb' 0 8 } (fun _ => s.eflags) s := by
  have h : Gives .lahf s { s.regs with
        eax := (s.regs.eax.extractLsb' 16 16 ++ (s.eflags.word.setWidth 8 : Byte) ++ s.regs.eax.extractLsb' 0 8) }
      (fun _ => s.eflags) s :=
    gives_of_quiet (m := writeReg .b8 .esp s.eflags.word) (t := s.setReg .b8 .esp s.eflags.word) rfl hs rfl
      (Quiet.refl s) rfl rfl rfl rfl
  rw [word_lowByte] at h
  exact h

/-- Settles O25. -/
theorem flagInstructions : Obligations.FlagInstructions := by
  unfold Obligations.FlagInstructions
  refine ⟨fun s hs => ⟨?clc, ?stc, ?cmc, ?cld, ?std, ?sahf, lahf_gives hs, ?clts⟩, fun s hs => ⟨fun h => ⟨?cli, ?sti⟩, ?denied⟩⟩
  case clc => exact gives_changeFlags (f := fun f => { f with cf := false }) hs rfl
  case stc => exact gives_changeFlags (f := fun f => { f with cf := true }) hs rfl
  case cmc => exact gives_changeFlags (f := fun f => { f with cf := !f.cf }) hs rfl
  case cld => exact gives_changeFlags (f := fun f => { f with df := false }) hs rfl
  case std => exact gives_changeFlags (f := fun f => { f with df := true }) hs rfl
  case sahf =>
    have hbit := fun k hk => ah_bit s (k := k) hk
    have h15 := hbit 7 (by omega)
    have h14 := hbit 6 (by omega)
    have h12 := hbit 4 (by omega)
    have h10 := hbit 2 (by omega)
    have h8 := hbit 0 (by omega)
    rw [← h15, ← h14, ← h12, ← h10, ← h8]
    exact gives_changeFlags (f := fun f => { f with
      sf := (Eflags.ofWord (s.reg .b8 .esp)).sf, zf := (Eflags.ofWord (s.reg .b8 .esp)).zf,
      af := (Eflags.ofWord (s.reg .b8 .esp)).af, pf := (Eflags.ofWord (s.reg .b8 .esp)).pf,
      cf := (Eflags.ofWord (s.reg .b8 .esp)).cf }) hs rfl
  case clts =>
    intro h
    exact gives_of (t := { s with cr0 := { s.cr0 with ts := false } }) rfl ((run_bind_ok (checkCpl0_ok h)).trans rfl)
      rfl rfl rfl fun p => .inl rfl
  case cli =>
    exact gives_of_quiet (t := s.setFlags { s.eflags with ifl := false }) rfl hs
      ((run_bind_ok (checkIopl_ok h)).trans rfl) (Quiet.refl s) rfl rfl rfl rfl
  case sti =>
    exact ⟨_, finish_ok ((run_bind_ok (checkIopl_ok h)).trans rfl), rfl, rfl, rfl, rfl, rfl, fun p => .inl rfl⟩
  case denied =>
    intro hp hc
    exact ⟨exec_exn rfl (run_bind_error (checkIopl_exn hp hc)), (finish_exn (run_bind_error (checkIopl_exn hp hc))).trans rfl⟩

end Sys2Proof.Machine
end

section
/-! O26: the results and flags of addition and subtraction, from unsigned and signed values. -/

namespace Sys2Proof.Machine

/-! Values at a size. -/

theorem trunc_toNat (sz : Size) (v : Dword) : (trunc sz v).toNat = v.toNat % 2 ^ sz.bits := by
  have hv := v.isLt
  cases sz <;> simp only [trunc, Size.bits, BitVec.toNat_setWidth] <;> omega

theorem trunc_toNat_lt (sz : Size) (v : Dword) : (trunc sz v).toNat < 2 ^ sz.bits := by
  rw [trunc_toNat]; exact Nat.mod_lt _ (by positivity)

theorem trunc_of_lt {sz : Size} {v : Dword} (h : v.toNat < 2 ^ sz.bits) : trunc sz v = v :=
  BitVec.eq_of_toNat_eq (by rw [trunc_toNat, Nat.mod_eq_of_lt h])

theorem bits_pos (sz : Size) : 1 ≤ sz.bits := by cases sz <;> decide

theorem bits_le (sz : Size) : sz.bits ≤ 32 := by cases sz <;> decide

theorem pow_bits (sz : Size) : 2 ^ sz.bits = 2 * 2 ^ (sz.bits - 1) := by cases sz <;> rfl

/-- What the top bit of a value says of it: as an unsigned and as a signed number. -/
theorem signBit_cases {sz : Size} {v : Dword} (h : v.toNat < 2 ^ sz.bits) :
    (signBit sz v = false ∧ v.toNat < 2 ^ (sz.bits - 1) ∧ signedVal sz v = v.toNat) ∨
    (signBit sz v = true ∧ 2 ^ (sz.bits - 1) ≤ v.toNat ∧ signedVal sz v = (v.toNat : Int) - 2 ^ sz.bits) := by
  have hbit : signBit sz v = decide (2 ^ (sz.bits - 1) ≤ v.toNat) := by
    have hp := pow_bits sz
    unfold signBit
    rw [BitVec.getLsbD, Nat.testBit_eq_decide_div_mod_eq, decide_eq_decide]
    constructor
    · intro h1
      by_contra hc
      rw [Nat.div_eq_of_lt (by omega)] at h1
      omega
    · intro h1
      have : v.toNat / 2 ^ (sz.bits - 1) = 1 := Nat.div_eq_of_lt_le (by omega) (by omega)
      rw [this]
  have hval : signedVal sz v = if v.toNat < 2 ^ (sz.bits - 1) then (v.toNat : Int) else (v.toNat : Int) - 2 ^ sz.bits := by
    cases sz <;> simp only [signedVal, Size.bits, BitVec.toInt_eq_toNat_cond, BitVec.toNat_setWidth] at h ⊢ <;>
      split_ifs <;> omega
  by_cases hc : v.toNat < 2 ^ (sz.bits - 1)
  · exact .inl ⟨by rw [hbit, decide_eq_false (by omega)], hc, by rw [hval, if_pos hc]⟩
  · exact .inr ⟨by rw [hbit, decide_eq_true (by omega)], by omega, by rw [hval, if_neg hc]⟩

/-! The results. -/

theorem addResult_toNat (sz : Size) (a b : Dword) (c : Bool) :
    (addResult sz a b c).toNat = (a.toNat + b.toNat + c.toNat) % 2 ^ sz.bits := by
  unfold addResult
  rw [trunc_toNat, BitVec.toNat_ofNat]
  exact Nat.mod_mod_of_dvd _ (Nat.pow_dvd_pow 2 (bits_le sz))

theorem subResult_toNat (sz : Size) (a b : Dword) (c : Bool) :
    ((subResult sz a b c).toNat : Int) = ((a.toNat : Int) - b.toNat - c.toNat) % 2 ^ sz.bits := by
  have ha := a.isLt
  have hb := b.isLt
  have hc : c.toNat ≤ 1 := by cases c <;> decide
  unfold subResult
  rw [trunc_toNat, BitVec.toNat_sub, BitVec.toNat_sub, BitVec.toNat_ofNat]
  cases sz <;> simp only [Size.bits] <;> omega

/-- A sum at a size is the sum, or less by the carry. -/
theorem addResult_cases {sz : Size} {a b : Dword} {c : Bool} (ha : a.toNat < 2 ^ sz.bits) (hb : b.toNat < 2 ^ sz.bits) :
    (a.toNat + b.toNat + c.toNat < 2 ^ sz.bits ∧ (addResult sz a b c).toNat = a.toNat + b.toNat + c.toNat) ∨
    (2 ^ sz.bits ≤ a.toNat + b.toNat + c.toNat ∧
      (addResult sz a b c).toNat + 2 ^ sz.bits = a.toNat + b.toNat + c.toNat) := by
  have hc : c.toNat ≤ 1 := by cases c <;> decide
  have hpos : 0 < 2 ^ sz.bits := by positivity
  rw [addResult_toNat]
  by_cases h : a.toNat + b.toNat + c.toNat < 2 ^ sz.bits
  · exact .inl ⟨h, Nat.mod_eq_of_lt h⟩
  · refine .inr ⟨by omega, ?_⟩
    rw [Nat.mod_eq_sub_mod (by omega), Nat.mod_eq_of_lt (by omega)]
    omega

/-- A difference at a size is the difference, or more by the borrow. -/
theorem subResult_cases {sz : Size} {a b : Dword} {c : Bool} (ha : a.toNat < 2 ^ sz.bits) (hb : b.toNat < 2 ^ sz.bits) :
    (b.toNat + c.toNat ≤ a.toNat ∧ (subResult sz a b c).toNat + b.toNat + c.toNat = a.toNat) ∨
    (a.toNat < b.toNat + c.toNat ∧ (subResult sz a b c).toNat + b.toNat + c.toNat = a.toNat + 2 ^ sz.bits) := by
  have hc : c.toNat ≤ 1 := by cases c <;> decide
  have h := subResult_toNat sz a b c
  have hpow : ((2 ^ sz.bits : Nat) : Int) = (2 : Int) ^ sz.bits := by push_cast; rfl
  by_cases hle : b.toNat + c.toNat ≤ a.toNat
  · rw [Int.emod_eq_of_lt (by omega) (by omega)] at h
    exact .inl ⟨hle, by omega⟩
  · rw [← Int.add_emod_right, Int.emod_eq_of_lt (by omega) (by omega)] at h
    exact .inr ⟨by omega, by omega⟩

theorem addResult_lt (sz : Size) (a b : Dword) (c : Bool) : (addResult sz a b c).toNat < 2 ^ sz.bits := trunc_toNat_lt _ _

theorem subResult_lt (sz : Size) (a b : Dword) (c : Bool) : (subResult sz a b c).toNat < 2 ^ sz.bits := trunc_toNat_lt _ _

/-! The flags. -/

/-- PF counts the ones of the low byte. -/
theorem parityEven_eq (v : Dword) : parityEven v = (((List.range 8).countP fun k => v.getLsbD k) % 2 == 0) := by
  have h : ∀ b0 b1 b2 b3 b4 b5 b6 b7 : Bool, (!(b0 ^^ b1 ^^ b2 ^^ b3 ^^ b4 ^^ b5 ^^ b6 ^^ b7)) =
      (([b0, b1, b2, b3, b4, b5, b6, b7].countP id) % 2 == 0) := by decide
  have hm : ([0, 1, 2, 3, 4, 5, 6, 7] : List Nat).countP (fun k => v.getLsbD k) =
      ([v.getLsbD 0, v.getLsbD 1, v.getLsbD 2, v.getLsbD 3, v.getLsbD 4, v.getLsbD 5, v.getLsbD 6, v.getLsbD 7] :
        List Bool).countP id := rfl
  show _ = (([0, 1, 2, 3, 4, 5, 6, 7] : List Nat).countP (fun k => v.getLsbD k) % 2 == 0)
  rw [hm, ← h]
  rfl

theorem withSZP_eq {sz : Size} {v : Dword} (f : Eflags) (h : v.toNat < 2 ^ sz.bits) :
    f.withSZP sz v = { f with
      pf := ((List.range 8).countP fun k => v.getLsbD k) % 2 == 0
      zf := v == 0
      sf := v.getLsbD (sz.bits - 1) } := by
  rw [← parityEven_eq]
  unfold Eflags.withSZP
  rw [trunc_of_lt h]
  rfl

/-- OF of an addition: the signed sum does not fit. -/
theorem add_overflow {sz : Size} {a b : Dword} (c : Bool) (ha : a.toNat < 2 ^ sz.bits) (hb : b.toNat < 2 ^ sz.bits) :
    (signBit sz a == signBit sz b && signBit sz (addResult sz a b c) != signBit sz a) =
      decide (signedVal sz a + signedVal sz b + c.toNat < -(2 ^ (sz.bits - 1)) ∨
        2 ^ (sz.bits - 1) ≤ signedVal sz a + signedVal sz b + c.toNat) := by
  have hp := pow_bits sz
  have hc : c.toNat ≤ 1 := by cases c <;> decide
  have hpi : (2 : Int) ^ (sz.bits - 1) = ((2 ^ (sz.bits - 1) : Nat) : Int) := by push_cast; rfl
  have hpi' : (2 : Int) ^ sz.bits = ((2 ^ sz.bits : Nat) : Int) := by push_cast; rfl
  have hr := addResult_cases (c := c) ha hb
  rcases signBit_cases ha with ⟨sa, la, va⟩ | ⟨sa, la, va⟩ <;>
    rcases signBit_cases hb with ⟨sb, lb, vb⟩ | ⟨sb, lb, vb⟩ <;>
    rcases signBit_cases (addResult_lt sz a b c) with ⟨sr, lr, -⟩ | ⟨sr, lr, -⟩ <;>
    rw [sa, sb, sr, va, vb, eq_comm, hpi] <;>
    simp <;> omega

/-- OF of a subtraction: the signed difference does not fit. -/
theorem sub_overflow {sz : Size} {a b : Dword} (c : Bool) (ha : a.toNat < 2 ^ sz.bits) (hb : b.toNat < 2 ^ sz.bits) :
    (signBit sz a != signBit sz b && signBit sz (subResult sz a b c) != signBit sz a) =
      decide (signedVal sz a - signedVal sz b - c.toNat < -(2 ^ (sz.bits - 1)) ∨
        2 ^ (sz.bits - 1) ≤ signedVal sz a - signedVal sz b - c.toNat) := by
  have hp := pow_bits sz
  have hc : c.toNat ≤ 1 := by cases c <;> decide
  have hpi : (2 : Int) ^ (sz.bits - 1) = ((2 ^ (sz.bits - 1) : Nat) : Int) := by push_cast; rfl
  have hpi' : (2 : Int) ^ sz.bits = ((2 ^ sz.bits : Nat) : Int) := by push_cast; rfl
  have hr := subResult_cases (c := c) ha hb
  rcases signBit_cases ha with ⟨sa, la, va⟩ | ⟨sa, la, va⟩ <;>
    rcases signBit_cases hb with ⟨sb, lb, vb⟩ | ⟨sb, lb, vb⟩ <;>
    rcases signBit_cases (subResult_lt sz a b c) with ⟨sr, lr, -⟩ | ⟨sr, lr, -⟩ <;>
    rw [sa, sb, sr, va, vb, eq_comm, hpi] <;>
    simp <;> omega

/-- Settles O26. -/
theorem arithmeticFlags : Obligations.ArithmeticFlags := by
  unfold Obligations.ArithmeticFlags
  intro f sz a b c ha hb
  refine ⟨addResult_toNat sz a b c, ?add, subResult_toNat sz a b c, ?sub, withSZP_eq f ha⟩
  case add =>
    unfold Eflags.afterAdd
    simp only
    rw [withSZP_eq f (addResult_lt sz a b c), add_overflow c ha hb]
  case sub =>
    unfold Eflags.afterSub
    simp only
    rw [withSZP_eq f (subResult_lt sz a b c), sub_overflow c ha hb]

end Sys2Proof.Machine
end

section
/-! O27, O28 and O33: the two-operand instructions, which read a destination, compute, and write it back with flags. -/

namespace Sys2Proof.Machine

/-- `k` combines a destination and a source: where the destination can be read and written, it takes `res` of the flags
before and the two values, and the flags become `fl` of these and of the flags left. -/
def DestOp (k : Loc → Dword → M Unit) (sz : Size) (res : Eflags → Dword → Dword → Dword)
    (fl : Eflags → Dword → Dword → Eflags → Eflags) : Prop :=
  ∀ (l : Loc) (src a : Dword) (s1 s2 s3 : State), readLoc sz l s1 = .ok a s2 →
    writeLoc sz l (res s1.eflags a src) s2 = .ok () s3 →
    ∃ t, k l src s1 = .ok () t ∧ t.putBack s3 = s3 ∧ t.mem = s3.mem ∧ t.regs = s3.regs ∧
      ({ t.eflags with rf := false } : Eflags) =
        { fl s1.eflags a src { t.eflags with rf := false } with rf := false }

/-- The same of a destination that is found and only read. -/
def ReadOp (k : Loc → Dword → M Unit) (sz : Size) (fl : Eflags → Dword → Dword → Eflags → Eflags) : Prop :=
  ∀ (l : Loc) (src a : Dword) (s1 s2 : State), readLoc sz l s1 = .ok a s2 →
    ∃ t, k l src s1 = .ok () t ∧ t.putBack s2 = s2 ∧ t.mem = s2.mem ∧ t.regs = s2.regs ∧
      ({ t.eflags with rf := false } : Eflags) =
        { fl s1.eflags a src { t.eflags with rf := false } with rf := false }

theorem destOp_alu (op : AluOp) (sz : Size) :
    DestOp (alu op sz) sz (fun f a b => (op sz a b f).1) (fun f a b _ => (op sz a b f).2) := by
  intro l src a s1 s2 s3 hr hw
  have hf : s2.eflags = s1.eflags := (quiet_readLoc hr).eflags
  have hf3 : s3.eflags = s1.eflags := (writeLoc_flags hw).trans hf
  refine ⟨s3.setFlags (op sz a src s3.eflags).2, ?_, rfl, rfl, rfl, ?_⟩
  · unfold alu
    rw [run_bind_ok (readToUpdate_ok hr hw), run_bind_ok (run_get s2), hf]
    exact (run_bind_ok hw).trans rfl
  · rw [State.setFlags_eflags, hf3]

theorem destOp_logic (op : BoolOp) (sz : Size) :
    DestOp (logic op sz) sz (fun _ a b => op a b)
      (fun f a b u => { f.withSZP sz (op a b) with cf := false, ofl := false, af := u.af }) := by
  intro l src a s1 s2 s3 hr hw
  have hf3 : s3.eflags = s1.eflags := (writeLoc_flags hw).trans (quiet_readLoc hr).eflags
  refine ⟨({ s3 with draws := s3.draws + 1 } : State).setFlags
    (s3.eflags.afterLogic sz (op a src) ((Config.freeDword s3.draws).getLsbD 0)), ?_, rfl, rfl, rfl, ?_⟩
  · unfold logic
    rw [run_bind_ok (readToUpdate_ok hr hw), run_bind_ok hw]
    rfl
  · rw [State.setFlags_eflags, hf3]
    rfl

theorem readOp_compare (op : AluOp) (sz : Size) : ReadOp (compare op sz) sz (fun f a b _ => (op sz a b f).2) := by
  intro l src a s1 s2 hr
  have hf : s2.eflags = s1.eflags := (quiet_readLoc hr).eflags
  refine ⟨s2.setFlags (op sz a src s2.eflags).2, (run_bind_ok hr).trans rfl, rfl, rfl, rfl, ?_⟩
  rw [State.setFlags_eflags, hf]

theorem readOp_test (sz : Size) : ReadOp (test sz) sz
    (fun f a b u => { f.withSZP sz (a &&& b) with cf := false, ofl := false, af := u.af }) := by
  intro l src a s1 s2 hr
  have hf : s2.eflags = s1.eflags := (quiet_readLoc hr).eflags
  refine ⟨({ s2 with draws := s2.draws + 1 } : State).setFlags
    (s2.eflags.afterLogic sz (a &&& src) ((Config.freeDword s2.draws).getLsbD 0)), (run_bind_ok hr).trans rfl, rfl, rfl,
    rfl, ?_⟩
  rw [State.setFlags_eflags, hf]
  rfl

section
variable {k : Loc → Dword → M Unit} {sz : Size} {res : Eflags → Dword → Dword → Dword}
  {fl : Eflags → Dword → Dword → Eflags → Eflags}

/-- A destination that is found, read and written. -/
theorem DestOp.puts (h : DestOp k sz res fl) {i : Instr} {m : M Unit} {s s1 s2 s3 : State} {l : Loc} {src a : Dword}
    (hs : s.Inv) (hi : exec i s = complete m s) (hm : m s = k l src s1) (hq : Quiet s s1)
    (hr : readLoc sz l s1 = .ok a s2) (hw : writeLoc sz l (res s.eflags a src) s2 = .ok () s3) :
    Puts i s s2 l sz (res s.eflags a src) (fl s.eflags a src) := by
  have hw' : writeLoc sz l (res s1.eflags a src) s2 = .ok () s3 := by rw [hq.eflags]; exact hw
  obtain ⟨t, ht, hb, hmem, hregs, hfl⟩ := h l src a s1 s2 s3 hr hw'
  rw [hq.eflags] at hfl
  exact puts_of_write hi hs (hm.trans ht) (hq.trans (quiet_readLoc hr)) hw hb hmem hregs hfl

/-- A register as the destination. -/
theorem DestOp.gives (h : DestOp k sz res fl) {i : Instr} {m : M Unit} {s s1 : State} {r : Reg} {src : Dword}
    (hs : s.Inv) (hi : exec i s = complete m s) (hm : m s = k (.reg r) src s1) (hq : Quiet s s1) :
    Gives i s (s.regs.write sz r (res s.eflags (s.reg sz r) src)) (fl s.eflags (s.reg sz r) src) s := by
  obtain ⟨t, ht, hb, hmem, hregs, hfl⟩ := h (.reg r) src (s1.reg sz r) s1 s1
    (s1.setReg sz r (res s1.eflags (s1.reg sz r) src)) rfl rfl
  have hreg : s1.reg sz r = s.reg sz r := by unfold State.reg; rw [hq.regs]
  rw [hq.eflags, hreg] at hb hmem hregs hfl
  refine gives_of_quiet hi hs (hm.trans ht) hq ?_ hmem ?_ hfl
  · have hset : (s1.setReg sz r (res s.eflags (s.reg sz r) src)).putBack s1 = s1 := rfl
    exact putBack_trans hset hb
  · rw [hregs, State.setReg_regs, hq.regs]

theorem ReadOp.gives (h : ReadOp k sz fl) {i : Instr} {m : M Unit} {s s1 s2 : State} {l : Loc} {src a : Dword}
    (hs : s.Inv) (hi : exec i s = complete m s) (hm : m s = k l src s1) (hq : Quiet s s1)
    (hr : readLoc sz l s1 = .ok a s2) : Gives i s s.regs (fl s.eflags a src) s := by
  obtain ⟨t, ht, hb, hmem, hregs, hfl⟩ := h l src a s1 s2 hr
  have hq2 := hq.trans (quiet_readLoc hr)
  rw [hq.eflags] at hfl
  exact gives_of_quiet hi hs (hm.trans ht) hq2 hb hmem (hregs.trans hq2.regs) hfl

end

/-! The forms. -/

theorem byDirection_toRm {sz : Size} {reg : Reg} {rm : RM} {k : Loc → Dword → M Unit} {s s1 : State} {l : Loc}
    (hl : resolve rm s = .ok l s1) : byDirection .toRm sz reg rm k s = k l (s.reg sz reg) s1 := by
  have hreg : s.reg sz reg = s1.reg sz reg := by unfold State.reg; rw [(quiet_resolve hl).regs]
  unfold byDirection
  rw [run_bind_ok hl, hreg]
  rfl

theorem byDirection_toReg {sz : Size} {reg : Reg} {rm : RM} {k : Loc → Dword → M Unit} {s s1 s2 : State} {l : Loc}
    {a : Dword} (hl : resolve rm s = .ok l s1) (hr : readLoc sz l s1 = .ok a s2) :
    byDirection .toReg sz reg rm k s = k (.reg reg) a s2 := by
  unfold byDirection
  rw [run_bind_ok hl]
  exact run_bind_ok hr

theorem withImm_ok {sz : Size} {rm : RM} {imm : Imm} {k : Loc → Dword → M Unit} {s s1 : State} {l : Loc}
    (hl : resolve rm s = .ok l s1) : withImm sz rm imm k s = k l (immValue sz imm) s1 := by
  unfold withImm
  exact run_bind_ok hl

/-- The forms of an instruction with a destination: register and r/m, r/m and immediate, accumulator and immediate. -/
structure DestForms (s : State) (w : Width) (k : Loc → Dword → M Unit) (regRm : Dir → Width → Reg → RM → Instr)
    (rmImm : Width → RM → Imm → Instr) (accImm : Width → Imm → Instr) : Prop where
  regRm : ∀ d reg rm, exec (regRm d w reg rm) s = complete (byDirection d (s.wsz w) reg rm k) s
  rmImm : ∀ rm imm, exec (rmImm w rm imm) s = complete (withImm (s.wsz w) rm imm k) s
  accImm : ∀ imm, exec (accImm w imm) s = complete (withImm (s.wsz w) (.reg .eax) imm k) s

/-- What they do. -/
theorem DestForms.settle {s : State} {w : Width} {k : Loc → Dword → M Unit} {i1 : Dir → Width → Reg → RM → Instr}
    {i2 : Width → RM → Imm → Instr} {i3 : Width → Imm → Instr} {res : Eflags → Dword → Dword → Dword}
    {fl : Eflags → Dword → Dword → Eflags → Eflags} (hf : DestForms s w k i1 i2 i3) (hk : DestOp k (s.wsz w) res fl)
    (hs : s.Inv) (s1 s2 s3 : State) (d : Dir) (reg : Reg) (rm : RM) (imm : Imm) (l : Loc) (a : Dword) :
    (resolve rm s = .ok l s1 → readLoc (s.wsz w) l s1 = .ok a s2 →
      (d = .toRm → writeLoc (s.wsz w) l (res s.eflags a (s.reg (s.wsz w) reg)) s2 = .ok () s3 →
        Puts (i1 d w reg rm) s s2 l (s.wsz w) (res s.eflags a (s.reg (s.wsz w) reg))
          (fl s.eflags a (s.reg (s.wsz w) reg))) ∧
      (d = .toReg →
        Gives (i1 d w reg rm) s (s.regs.write (s.wsz w) reg (res s.eflags (s.reg (s.wsz w) reg) a))
          (fl s.eflags (s.reg (s.wsz w) reg) a) s) ∧
      (writeLoc (s.wsz w) l (res s.eflags a (immValue (s.wsz w) imm)) s2 = .ok () s3 →
        Puts (i2 w rm imm) s s2 l (s.wsz w) (res s.eflags a (immValue (s.wsz w) imm))
          (fl s.eflags a (immValue (s.wsz w) imm)))) ∧
    Gives (i3 w imm) s (s.regs.write (s.wsz w) .eax (res s.eflags (s.reg (s.wsz w) .eax) (immValue (s.wsz w) imm)))
      (fl s.eflags (s.reg (s.wsz w) .eax) (immValue (s.wsz w) imm)) s := by
  refine ⟨fun hl hr => ⟨fun hd hw => ?_, fun hd => ?_, fun hw => ?_⟩, ?_⟩
  · subst hd
    exact hk.puts hs (hf.regRm .toRm reg rm) (byDirection_toRm hl) (quiet_resolve hl) hr hw
  · subst hd
    exact hk.gives hs (hf.regRm .toReg reg rm) (byDirection_toReg hl hr) ((quiet_resolve hl).trans (quiet_readLoc hr))
  · exact hk.puts hs (hf.rmImm rm imm) (withImm_ok hl) (quiet_resolve hl) hr hw
  · exact hk.gives hs (hf.accImm imm) (withImm_ok rfl) (Quiet.refl s)

/-- Settles O27. -/
theorem arithmeticToDestination : Obligations.ArithmeticToDestination := by
  unfold Obligations.ArithmeticToDestination
  rintro s s1 s2 s3 d w reg rm imm l a sz hs rfl p hp
  simp only [List.mem_cons, List.not_mem_nil, or_false] at hp
  rcases hp with rfl | rfl | rfl | rfl
  case inl =>
    exact DestForms.settle (k := alu aluAdd (s.wsz w)) ⟨fun _ _ _ => rfl, fun _ _ => rfl, fun _ => rfl⟩ (destOp_alu _ _) hs
      s1 s2 s3 d reg rm imm l a
  case inr.inl =>
    exact DestForms.settle (k := alu aluAdc (s.wsz w)) ⟨fun _ _ _ => rfl, fun _ _ => rfl, fun _ => rfl⟩ (destOp_alu _ _) hs
      s1 s2 s3 d reg rm imm l a
  case inr.inr.inl =>
    exact DestForms.settle (k := alu aluSub (s.wsz w)) ⟨fun _ _ _ => rfl, fun _ _ => rfl, fun _ => rfl⟩ (destOp_alu _ _) hs
      s1 s2 s3 d reg rm imm l a
  case inr.inr.inr =>
    exact DestForms.settle (k := alu aluSbb (s.wsz w)) ⟨fun _ _ _ => rfl, fun _ _ => rfl, fun _ => rfl⟩ (destOp_alu _ _) hs
      s1 s2 s3 d reg rm imm l a

/-- An r/m operand that can be read has been found. -/
theorem readRm_found {sz : Size} {rm : RM} {a : Dword} {s s1 : State} (h : readRm sz rm s = .ok a s1) :
    ∃ l s0, resolve rm s = .ok l s0 ∧ readLoc sz l s0 = .ok a s1 := by
  unfold readRm at h
  exact run_bind_eq_ok.1 h

/-- Settles O28. -/
theorem compareIncrementNegate : Obligations.CompareIncrementNegate := by
  unfold Obligations.CompareIncrementNegate
  refine ⟨?compare, ?update⟩
  case compare =>
    rintro s s1 d w reg rm imm a sz hs rfl
    have hk := readOp_compare aluSub (s.wsz w)
    refine ⟨fun hr => ?_, hk.gives (l := .reg .eax) hs rfl (withImm_ok (rm := .reg .eax) rfl) (Quiet.refl s) rfl⟩
    obtain ⟨l, s0, hl, hr⟩ := readRm_found hr
    have hq := quiet_resolve hl
    refine ⟨fun hd => ?_, fun hd => ?_, ?_⟩
    · subst hd; exact hk.gives hs rfl (byDirection_toRm hl) hq hr
    · subst hd
      have hq2 := hq.trans (quiet_readLoc hr)
      have h := hk.gives (l := .reg reg) (a := s.reg (s.wsz w) reg) hs (i := .cmpRegRm .toReg w reg rm) rfl
        (byDirection_toReg hl hr) hq2 (by unfold readLoc State.reg; rw [hq2.regs])
      exact h
    · exact hk.gives hs rfl (withImm_ok hl) hq hr
  case update =>
    intro s s1 s2 s3 w reg rm l a hs
    refine ⟨?_, ?_⟩
    · rintro sz rfl hl hr
      have hq := quiet_resolve hl
      exact ⟨fun hw => (destOp_alu aluInc (s.wsz w)).puts hs rfl (run_bind_ok hl) hq hr hw,
        fun hw => (destOp_alu aluDec (s.wsz w)).puts hs rfl (run_bind_ok hl) hq hr hw,
        fun hw => (destOp_alu aluNeg (s.wsz w)).puts hs rfl (run_bind_ok hl) hq hr hw⟩
    · rintro sz rfl
      exact ⟨(destOp_alu aluInc s.osz).gives hs rfl rfl (Quiet.refl s),
        (destOp_alu aluDec s.osz).gives hs rfl rfl (Quiet.refl s)⟩

/-- Settles O33. -/
theorem booleanOperations : Obligations.BooleanOperations := by
  unfold Obligations.BooleanOperations
  rintro s s1 s2 s3 d w reg rm imm b8 l a sz fl hs rfl
  refine ⟨?forms, ?imm8, ?testAcc, ?test, ?not⟩
  case forms =>
    rintro rfl p hp
    simp only [List.mem_cons, List.not_mem_nil, or_false] at hp
    rcases hp with rfl | rfl | rfl
    case inl =>
      exact DestForms.settle (k := logic boolAnd (s.wsz w)) ⟨fun _ _ _ => rfl, fun _ _ => rfl, fun _ => rfl⟩
        (destOp_logic _ _) hs s1 s2 s3 d reg rm imm l a
    case inr.inl =>
      exact DestForms.settle (k := logic boolOr (s.wsz w)) ⟨fun _ _ _ => rfl, fun _ _ => rfl, fun _ => rfl⟩
        (destOp_logic _ _) hs s1 s2 s3 d reg rm imm l a
    case inr.inr =>
      exact DestForms.settle (k := logic boolXor (s.wsz w)) ⟨fun _ _ _ => rfl, fun _ _ => rfl, fun _ => rfl⟩
        (destOp_logic _ _) hs s1 s2 s3 d reg rm imm l a
  case imm8 =>
    rintro rfl hl hr p hp
    have hq := quiet_resolve hl
    simp only [List.mem_cons, List.not_mem_nil, or_false] at hp
    rcases hp with rfl | rfl | rfl
    case inl => exact fun hw => (destOp_logic boolAnd s.osz).puts hs rfl (withImm_ok hl) hq hr hw
    case inr.inl => exact fun hw => (destOp_logic boolOr s.osz).puts hs rfl (withImm_ok hl) hq hr hw
    case inr.inr => exact fun hw => (destOp_logic boolXor s.osz).puts hs rfl (withImm_ok hl) hq hr hw
  case testAcc =>
    rintro rfl
    exact (readOp_test (s.wsz w)).gives (l := .reg .eax) hs rfl (withImm_ok (rm := .reg .eax) rfl) (Quiet.refl s) rfl
  case test =>
    rintro rfl hr
    obtain ⟨l, s0, hl, hr⟩ := readRm_found hr
    have hq := quiet_resolve hl
    exact ⟨(readOp_test (s.wsz w)).gives hs rfl (byDirection_toRm hl) hq hr,
      (readOp_test (s.wsz w)).gives hs rfl (withImm_ok hl) hq hr⟩
  case not =>
    rintro rfl hl hr hw
    have hq := (quiet_resolve hl).trans (quiet_readLoc hr)
    exact puts_of_write rfl hs ((run_bind_ok hl).trans ((run_bind_ok (readToUpdate_ok hr hw)).trans hw)) hq hw rfl rfl rfl
      (by simp [writeLoc_flags hw, hq.eflags])

end Sys2Proof.Machine
end

section
/-! O29 and O32: the decimal adjustments and the conversions. -/

namespace Sys2Proof.Machine

/-! AX written by halves. -/

theorem append_bit8 (a b : Byte) (i : Nat) :
    (a ++ b : Word).getLsbD i = if i < 8 then b.getLsbD i else a.getLsbD (i - 8) := BitVec.getLsbD_append

theorem word_of_wide (w : Word) : (w.setWidth 32).setWidth 16 = w := BitVec.setWidth_setWidth_of_le w (by decide)

/-- A dword of which the low byte is replaced. -/
def mergeLowByte (v : Dword) (b : Byte) : Dword := v.extractLsb' 8 24 ++ b

theorem mergeLowByte_bit (v : Dword) (b : Byte) {i : Nat} (hi : i < 32) :
    (mergeLowByte v b).getLsbD i = if i < 8 then b.getLsbD i else v.getLsbD i := by
  have e : (mergeLowByte v b).getLsbD i = if i < 8 then b.getLsbD i else (v.extractLsb' 8 24).getLsbD (i - 8) :=
    BitVec.getLsbD_append
  rw [e, BitVec.getLsbD_extractLsb']
  by_cases h8 : i < 8
  · simp [h8]
  · simp [h8, show i - 8 < 24 by omega, show 8 + (i - 8) = i by omega]

theorem mergeHighByte_bit (v : Dword) (b : Byte) {i : Nat} (hi : i < 32) :
    (mergeHighByte v b).getLsbD i = if i < 8 then v.getLsbD i else if i < 16 then b.getLsbD (i - 8) else v.getLsbD i := by
  have e : (mergeHighByte v b).getLsbD i = if i < 8 then (v.extractLsb' 0 8).getLsbD i
      else (v.extractLsb' 16 16 ++ b).getLsbD (i - 8) := BitVec.getLsbD_append
  rw [e, BitVec.getLsbD_append, BitVec.getLsbD_extractLsb', BitVec.getLsbD_extractLsb']
  by_cases h8 : i < 8
  · simp [h8]
  · by_cases h16 : i < 16
    · simp [h8, h16, show i - 8 < 8 by omega]
    · simp [h8, h16, show ¬ i - 8 < 8 by omega, show i - 8 - 8 < 16 by omega, show 16 + (i - 8 - 8) = i by omega]

/-- AH and AL together are AX. -/
theorem Regs.write_halves (g : Regs) (ah al : Dword) :
    (g.write .b8 .eax al).write .b8 .esp ah =
      g.write .b16 .eax ((ah.setWidth 8 ++ al.setWidth 8 : Word).setWidth 32) := by
  have hl : g.write .b8 .eax al = g.set .eax (mergeLowByte (g.get .eax) (al.setWidth 8)) := Regs.write_lowByte _ _ rfl
  have hh : ∀ g : Regs, g.write .b8 .esp ah = g.set .eax (mergeHighByte (g.get .eax) (ah.setWidth 8)) :=
    fun g => Regs.write_highByte _ _ rfl
  rw [hh, hl, Regs.write_word, Regs.get_set_same, Regs.set_set]
  congr 1
  apply BitVec.eq_of_getLsbD_eq
  intro i hi
  rw [mergeHighByte_bit _ _ hi, mergeLowByte_bit _ _ hi, mergeWord_bit, word_of_wide, append_bit8]
  by_cases h8 : i < 8
  · simp [h8, show i < 16 by omega]
  · simp [h8]

/-- AL alone: AH keeps what it holds. -/
theorem Regs.write_al (g : Regs) (al : Dword) :
    g.write .b8 .eax al = g.write .b16 .eax (((g.get .eax).extractLsb' 8 8 ++ al.setWidth 8 : Word).setWidth 32) := by
  have hl : g.write .b8 .eax al = g.set .eax (mergeLowByte (g.get .eax) (al.setWidth 8)) := Regs.write_lowByte _ _ rfl
  rw [hl, Regs.write_word]
  congr 1
  apply BitVec.eq_of_getLsbD_eq
  intro i hi
  rw [mergeLowByte_bit _ _ hi, mergeWord_bit, word_of_wide, append_bit8, BitVec.getLsbD_extractLsb']
  by_cases h8 : i < 8
  · simp [h8, show i < 16 by omega]
  · by_cases h16 : i < 16
    · simp [h8, h16, show i - 8 < 8 by omega, show 8 + (i - 8) = i by omega]
    · simp [h8, h16]

/-! AL and AH as bytes. -/

theorem al_eq (s : State) : s.al = (s.regs.eax.extractLsb' 0 8).setWidth 32 := by
  show ((s.regs.eax.setWidth 8).setWidth 32 : Dword) = _
  rw [BitVec.setWidth_eq_extractLsb' (by decide : 8 ≤ 32)]

theorem ah_eq (s : State) : s.ah = (s.regs.eax.extractLsb' 8 8).setWidth 32 := rfl

theorem setWidth_low_add (a : Byte) (v : Dword) : ((a.setWidth 32 + v) : Dword).setWidth 8 = a + v.setWidth 8 := by
  apply BitVec.eq_of_toNat_eq
  simp

theorem setWidth_low_and (v w : Dword) : (v &&& w).setWidth 8 = v.setWidth 8 &&& w.setWidth 8 := BitVec.setWidth_and

theorem dword_and_15 (a : Byte) : ((a.setWidth 32 : Dword) &&& 0xF).toNat = a.toNat % 16 := by
  have ha := a.isLt
  rw [BitVec.toNat_and, BitVec.toNat_setWidth, Nat.mod_eq_of_lt (by omega)]
  exact Nat.and_two_pow_sub_one_eq_mod a.toNat 4

theorem trunc8_of_byte (v : Dword) : trunc .b8 v = (v.setWidth 8).setWidth 32 := rfl

/-! AAA and AAS. -/

/-- What AAA and AAS leave in the registers. -/
def State.asciiRegs (s : State) (dAl dAh : Dword) : Regs :=
  if s.asciiAdjusts then (s.regs.write .b8 .eax ((s.al + dAl) &&& 0xF)).write .b8 .esp (s.ah + dAh)
  else s.regs.write .b8 .eax (s.al &&& 0xF)

theorem asciiAdjust_ok (s : State) (dAl dAh : Dword) :
    ∃ t, asciiAdjust dAl dAh s = .ok () t ∧ t.putBack s = s ∧ t.mem = s.mem ∧ t.regs = s.asciiRegs dAl dAh ∧
      ({ t.eflags with rf := false } : Eflags) =
        { { s.eflags.arithmeticOf t.eflags with af := s.asciiAdjusts, cf := s.asciiAdjusts } with rf := false } := by
  unfold asciiAdjust State.asciiRegs
  rw [run_bind_ok (run_get s)]
  simp only
  cases s.asciiAdjusts
  · exact ⟨_, rfl, rfl, rfl, rfl, rfl⟩
  · exact ⟨_, rfl, rfl, rfl, rfl, rfl⟩

/-- The adjustment is taken where the low digit of AL is above 9 or AF is set. -/
theorem asciiAdjusts_eq {s : State} {al : Byte} (h : al = s.regs.eax.extractLsb' 0 8) :
    s.asciiAdjusts = decide (9 < al.toNat % 16 ∨ s.eflags.af = true) := by
  unfold State.asciiAdjusts
  rw [al_eq, ← h, dword_and_15]
  simp [Bool.decide_or]

theorem asciiRegs_eq {s : State} {al ah : Byte} (hal : al = s.regs.eax.extractLsb' 0 8)
    (hah : ah = s.regs.eax.extractLsb' 8 8) (dAl dAh : Dword) :
    s.asciiRegs dAl dAh = s.regs.write .b16 .eax (if s.asciiAdjusts then
        ((ah + dAh.setWidth 8) ++ ((al + dAl.setWidth 8) &&& 0xF) : Word).setWidth 32
      else (ah ++ (al &&& 0xF) : Word).setWidth 32) := by
  unfold State.asciiRegs
  rw [al_eq, ah_eq, ← hal, ← hah]
  cases s.asciiAdjusts
  · show s.regs.write .b8 .eax _ = s.regs.write .b16 .eax ((ah ++ (al &&& 0xF) : Word).setWidth 32)
    rw [Regs.write_al, setWidth_low_and, show (s.regs.get .eax).extractLsb' 8 8 = ah from hah.symm]
    congr 3
    simp
  · show (s.regs.write .b8 .eax _).write .b8 .esp _ = s.regs.write .b16 .eax
      (((ah + dAh.setWidth 8) ++ ((al + dAl.setWidth 8) &&& 0xF) : Word).setWidth 32)
    rw [Regs.write_halves, setWidth_low_add, setWidth_low_and, setWidth_low_add]
    rfl

theorem ascii_gives {i : Instr} {s : State} {al ah : Byte} {dAl dAh : Dword} (hs : s.Inv)
    (hi : exec i s = complete (asciiAdjust dAl dAh) s) (hal : al = s.regs.eax.extractLsb' 0 8)
    (hah : ah = s.regs.eax.extractLsb' 8 8) {low : Bool} (hlow : low = decide (9 < al.toNat % 16 ∨ s.eflags.af = true)) :
    Gives i s (s.regs.write .b16 .eax (if low then
        ((ah + dAh.setWidth 8) ++ ((al + dAl.setWidth 8) &&& 0xF) : Word).setWidth 32
      else (ah ++ (al &&& 0xF) : Word).setWidth 32)) (fun u => { s.eflags.arithmeticOf u with af := low, cf := low }) s := by
  have hadj : s.asciiAdjusts = low := (asciiAdjusts_eq hal).trans hlow.symm
  obtain ⟨t, ht, hb, hmem, hregs, hfl⟩ := asciiAdjust_ok s dAl dAh
  rw [asciiRegs_eq hal hah, hadj] at hregs
  rw [hadj] at hfl
  exact gives_of_quiet hi hs ht (Quiet.refl s) hb hmem hregs hfl

/-! DAA and DAS. -/

theorem decimal_low {s : State} {al : Byte} (h : al = s.regs.eax.extractLsb' 0 8) :
    (decide (9 < (s.al &&& 0xF).toNat) || s.eflags.af) = decide (9 < al.toNat % 16 ∨ s.eflags.af = true) :=
  asciiAdjusts_eq h

theorem decimal_high {s : State} {al : Byte} (h : al = s.regs.eax.extractLsb' 0 8) :
    (decide (0x99 < s.al.toNat) || s.eflags.cf) = decide (0x99 < al.toNat ∨ s.eflags.cf = true) := by
  have ha := al.isLt
  rw [al_eq, ← h, BitVec.toNat_setWidth, Nat.mod_eq_of_lt (by omega)]
  simp [Bool.decide_or]

theorem al_toNat {s : State} {al : Byte} (h : al = s.regs.eax.extractLsb' 0 8) : s.al.toNat = al.toNat := by
  have ha := al.isLt
  rw [al_eq, ← h, BitVec.toNat_setWidth, Nat.mod_eq_of_lt (by omega)]

theorem daa_result {s : State} {al : Byte} (h : al = s.regs.eax.extractLsb' 0 8) (low high : Bool) :
    trunc .b8 (s.al + (if low then 6 else 0) + (if high then 0x60 else 0)) =
      (al + (if low then 6 else 0) + (if high then 0x60 else 0)).setWidth 32 := by
  rw [al_eq, ← h, trunc8_of_byte]
  congr 1
  apply BitVec.eq_of_toNat_eq
  cases low <;> cases high <;> simp

theorem das_result {s : State} {al : Byte} (h : al = s.regs.eax.extractLsb' 0 8) (low high : Bool) :
    trunc .b8 (s.al - (if low then 6 else 0) - (if high then 0x60 else 0)) =
      (al - (if low then 6 else 0) - (if high then 0x60 else 0)).setWidth 32 := by
  have ha := al.isLt
  rw [al_eq, ← h, trunc8_of_byte]
  congr 1
  apply BitVec.eq_of_toNat_eq
  cases low <;> cases high <;> simp [BitVec.toNat_sub] <;> omega

/-- Settles O29. -/
theorem decimalAdjust : Obligations.DecimalAdjust := by
  unfold Obligations.DecimalAdjust
  intro s al ah low high hs hal hah hlow hhigh
  have hl := (decimal_low hal).trans hlow.symm
  have hh := (decimal_high hal).trans hhigh.symm
  refine ⟨ascii_gives (dAl := 6) (dAh := 1) hs rfl hal hah hlow, ?aas, ?daa, ?das⟩
  case aas =>
    have h := ascii_gives (i := .aas) (dAl := -6) (dAh := -1) hs rfl hal hah hlow
    have e1 : ah - 1 = ah + (-1 : Dword).setWidth 8 := BitVec.sub_eq_add_neg ah 1
    have e2 : al - 6 = al + (-6 : Dword).setWidth 8 := BitVec.sub_eq_add_neg al 6
    rw [e1, e2]
    exact h
  case daa =>
    rw [← daa_result hal]
    rw [← hl, ← hh]
    exact ⟨_, rfl, ends_retire rfl rfl rfl, fun p => .inl rfl⟩
  case das =>
    rw [← das_result hal, ← al_toNat hal]
    rw [← hl, ← hh]
    exact ⟨_, rfl, ends_retire rfl rfl rfl, fun p => .inl rfl⟩

end Sys2Proof.Machine
end

section
/-! O30, O31 and O32: multiplication, division and the conversions. -/

namespace Sys2Proof.Machine

/-! What a read gives is no wider than the operand. -/

theorem readPhys_length {as : List Dword} {bs : List Byte} {s t : State} (h : readPhys as s = .ok bs t) :
    bs.length = as.length := by
  have hans : ∀ k, (s.answers k as).length = as.length := by
    induction as with
    | nil => exact fun _ => rfl
    | cons a as ih => exact fun k => congrArg (· + 1) (by
        clear h ih
        induction as generalizing k with
        | nil => rfl
        | cons b bs ih => exact congrArg (· + 1) (ih (k + 1)))
  unfold readPhys at h
  split at h
  · cases h
  · split at h
    · cases h; exact hans _
    · cases h; simp

theorem readLinear_length {u : Bool} {l : Dword} {n : Nat} {bs : List Byte} {s t : State} (h1 : 1 ≤ n) (h2 : n ≤ 4096)
    (h : readLinear u l n s = .ok bs t) : bs.length = n := by
  unfold readLinear at h
  obtain ⟨as, s1, hr, h⟩ := run_bind_eq_ok.1 h
  obtain ⟨_, s2, -, h⟩ := run_bind_eq_ok.1 h
  rw [readPhys_length h, (physRange_nodup h2 hr).2 h1]

theorem memRead_lt {sr : SReg} {off v : Dword} {sz : Size} {s t : State} (h : memRead sr off sz s = .ok v t) :
    v.toNat < 2 ^ sz.bits := by
  have hb := bytes_le_four sz
  unfold memRead at h
  obtain ⟨_, s1, -, h⟩ := run_bind_eq_ok.1 h
  obtain ⟨_, s2, h2, h⟩ := run_bind_eq_ok.1 h
  cases h2
  obtain ⟨bs, s3, h3, h⟩ := run_bind_eq_ok.1 h
  cases h
  have hl := readLinear_length (one_le_bytes sz) (by omega) h3
  have hlt := leDword_toNat_lt (bs := bs) (by omega)
  rwa [hl, ← bits_eq] at hlt

theorem reg_lt (s : State) (sz : Size) (r : Reg) : (s.reg sz r).toNat < 2 ^ sz.bits := by
  cases sz
  · show (Regs.read s.regs .b8 r).toNat < 256
    unfold Regs.read
    simp only
    split <;> simp only [BitVec.toNat_setWidth] <;> omega
  · show (((s.regs.get r).setWidth 16).setWidth 32 : Dword).toNat < 65536
    simp only [BitVec.toNat_setWidth]
    omega
  · exact (s.regs.get r).isLt

theorem readLoc_lt {sz : Size} {l : Loc} {v : Dword} {s t : State} (h : readLoc sz l s = .ok v t) :
    v.toNat < 2 ^ sz.bits := by
  cases l with
  | reg r => cases h; exact reg_lt s sz r
  | mem sr off => exact memRead_lt h

theorem readRm_lt {sz : Size} {rm : RM} {v : Dword} {s t : State} (h : readRm sz rm s = .ok v t) :
    v.toNat < 2 ^ sz.bits := by
  obtain ⟨l, s0, -, hr⟩ := readRm_found h
  exact readLoc_lt hr

/-! Halves of a wide result. -/

theorem ofInt_toNat (v : Int) : ((BitVec.ofInt 32 v).toNat : Int) = v % 2 ^ 32 := by
  rw [BitVec.toNat_ofInt]
  have : (0 : Int) ≤ v % ((2 ^ 32 : Nat) : Int) := Int.emod_nonneg _ (by decide)
  rw [Int.toNat_of_nonneg this]
  rfl

theorem lowHalf_toNat (sz : Size) (v : Int) : ((lowHalf sz v).toNat : Int) = v % 2 ^ sz.bits := by
  have h := ofInt_toNat v
  unfold lowHalf
  rw [trunc_toNat]
  cases sz <;> simp only [Size.bits] <;> omega

theorem lowHalf_lt (sz : Size) (v : Int) : (lowHalf sz v).toNat < 2 ^ sz.bits := trunc_toNat_lt _ _

theorem Regs.write_congr16 (g : Regs) (r : Reg) {v w : Dword} (h : v.setWidth 16 = w.setWidth 16) :
    g.write .b16 r v = g.write .b16 r w := by
  rw [Regs.write_word, Regs.write_word, h]

/-- Only the low bits of what is written matter. -/
theorem Regs.write_trunc {sz : Size} (h : sz = .b16 ∨ sz = .b32) (g : Regs) (r : Reg) (v : Dword) :
    g.write sz r (trunc sz v) = g.write sz r v := by
  rcases h with rfl | rfl
  · exact Regs.write_congr16 g r (by simp [trunc])
  · rfl

/-- The general registers with the double-width accumulator written. -/
def Regs.writeWide (g : Regs) (sz : Size) (high low : Dword) : Regs :=
  match sz with
  | .b8 => (g.write .b8 .eax low).write .b8 .esp high
  | .b16 => (g.write .b16 .eax low).write .b16 .edx high
  | .b32 => (g.write .b32 .eax low).write .b32 .edx high

theorem writeWide_ok (sz : Size) (high low : Dword) (s : State) :
    writeWide sz high low s = .ok () { s with regs := s.regs.writeWide sz high low } := by
  cases sz <;> rfl

theorem Regs.writeWide_wide {sz : Size} (h : sz ≠ .b8) (g : Regs) (high low : Dword) :
    g.writeWide sz high low = (g.write sz .eax low).write sz .edx high := by
  cases sz
  · exact absurd rfl h
  · rfl
  · rfl

theorem size_wide {sz : Size} (h : sz ≠ .b8) : sz = .b16 ∨ sz = .b32 := by
  cases sz <;> simp at h ⊢

/-- The low byte of `v` and a byte above it, as AX. -/
theorem halves_ofInt (v : Int) :
    ((BitVec.ofInt 32 (v / 256)).setWidth 8 ++ (BitVec.ofInt 32 v).setWidth 8 : Word) = (BitVec.ofInt 32 v).setWidth 16 := by
  have h1 := ofInt_toNat v
  have h2 := ofInt_toNat (v / 256)
  have hl := ((BitVec.ofInt 32 v).setWidth 8 : Byte).isLt
  apply BitVec.eq_of_toNat_eq
  rw [BitVec.toNat_append, ← Nat.shiftLeft_add_eq_or_of_lt hl, Nat.shiftLeft_eq]
  simp only [BitVec.toNat_setWidth]
  omega

theorem setWidth8_trunc (v : Dword) : (trunc .b8 v).setWidth 8 = v.setWidth 8 := by simp [trunc]

/-- A product in the accumulator. -/
theorem writeWide_halves (g : Regs) (sz : Size) (p : Int) :
    g.writeWide sz (highHalf sz p) (lowHalf sz p) =
      if sz = .b8 then g.write .b16 .eax (BitVec.ofInt 32 p)
      else (g.write sz .eax (BitVec.ofInt 32 p)).write sz .edx (BitVec.ofInt 32 (p / 2 ^ sz.bits)) := by
  unfold highHalf lowHalf
  by_cases h : sz = .b8
  · subst h
    rw [if_pos rfl]
    show (g.write .b8 .eax _).write .b8 .esp _ = _
    rw [Regs.write_halves, setWidth8_trunc, setWidth8_trunc]
    refine Regs.write_congr16 g .eax ?_
    rw [word_of_wide]
    exact halves_ofInt p
  · rw [if_neg h, Regs.writeWide_wide h, Regs.write_trunc (size_wide h), Regs.write_trunc (size_wide h)]

/-! Flags that are free. -/

theorem multiplyFlags_ok (wide : Bool) (s : State) :
    ∃ t, multiplyFlags wide s = .ok () t ∧ t.putBack s = s ∧ t.mem = s.mem ∧ t.regs = s.regs ∧
      t.eflags = { s.eflags.arithmeticOf t.eflags with cf := wide, ofl := wide } := ⟨_, rfl, rfl, rfl, rfl, rfl⟩

theorem undefinedFlags_ok (s : State) :
    ∃ t, undefinedFlags s = .ok () t ∧ t.putBack s = s ∧ t.mem = s.mem ∧ t.regs = s.regs ∧
      t.eflags = s.eflags.arithmeticOf t.eflags := ⟨_, rfl, rfl, rfl, rfl, rfl⟩

/-- RF apart, `f` follows flags that are free. -/
theorem arithmeticOf_rf (f u : Eflags) : f.arithmeticOf { u with rf := false } = f.arithmeticOf u := rfl

/-! MUL and IMUL. -/

/-- What MUL and IMUL do with a product. -/
def productWide (sz : Size) (p : Int) (wide : Bool) : M Unit := do
  writeWide sz (highHalf sz p) (lowHalf sz p)
  multiplyFlags wide

theorem product_gives {i : Instr} {m : M Unit} {s s1 : State} {sz : Size} {p : Int} {wide : Bool} (hs : s.Inv)
    (hi : exec i s = complete m s) (hm : m s = productWide sz p wide s1) (hq : Quiet s s1) :
    Gives i s (if sz = .b8 then s.regs.write .b16 .eax (BitVec.ofInt 32 p)
        else (s.regs.write sz .eax (BitVec.ofInt 32 p)).write sz .edx (BitVec.ofInt 32 (p / 2 ^ sz.bits)))
      (fun u => { s.eflags.arithmeticOf u with cf := wide, ofl := wide }) s := by
  obtain ⟨t, ht, hb, hmem, hregs, hfl⟩ := multiplyFlags_ok wide
    { s1 with regs := s1.regs.writeWide sz (highHalf sz p) (lowHalf sz p) }
  rw [← writeWide_halves]
  have hset : ({ s1 with regs := s1.regs.writeWide sz (highHalf sz p) (lowHalf sz p) } : State).putBack s1 = s1 := rfl
  refine gives_of_quiet (t := t) hi hs (hm.trans ((run_bind_ok (writeWide_ok sz _ _ s1)).trans ht)) hq
    (putBack_trans hset hb) hmem ?_ ?_
  · rw [hregs, hq.regs]
  · show ({ t.eflags with rf := false } : Eflags) = { s.eflags.arithmeticOf t.eflags with cf := wide, ofl := wide, rf := false }
    conv_lhs => rw [hfl]
    rw [← hq.eflags]

/-- The product of two unsigned values needs its upper half. -/
theorem highHalf_ne_zero {sz : Size} {a b : Nat} (ha : a < 2 ^ sz.bits) (hb : b < 2 ^ sz.bits) :
    (highHalf sz ((a : Int) * b) != 0) = decide ((2 : Int) ^ sz.bits ≤ (a : Int) * b) := by
  have hab : a * b < 2 ^ sz.bits * 2 ^ sz.bits := Nat.mul_lt_mul'' ha hb
  have hpos : 0 < 2 ^ sz.bits := by positivity
  have hdiv : a * b / 2 ^ sz.bits < 2 ^ sz.bits := Nat.div_lt_of_lt_mul hab
  have hh : ((highHalf sz ((a : Int) * b)).toNat : Int) = ((a * b / 2 ^ sz.bits : Nat) : Int) := by
    unfold highHalf
    rw [lowHalf_toNat]
    have e : (a : Int) * b / 2 ^ sz.bits = ((a * b / 2 ^ sz.bits : Nat) : Int) := by push_cast; rfl
    have e2 : ((2 : Int) ^ sz.bits) = ((2 ^ sz.bits : Nat) : Int) := by push_cast; rfl
    rw [e, e2, ← Int.natCast_emod, Nat.mod_eq_of_lt hdiv]
  have hh' : (highHalf sz ((a : Int) * b)).toNat = a * b / 2 ^ sz.bits := by exact_mod_cast hh
  have hz : highHalf sz ((a : Int) * b) = 0 ↔ a * b < 2 ^ sz.bits := by
    rw [← Nat.div_eq_zero_iff_lt hpos, ← hh']
    exact ⟨fun h => by rw [h]; rfl, fun h => BitVec.eq_of_toNat_eq h⟩
  have hle : ((2 : Int) ^ sz.bits ≤ (a : Int) * b) ↔ 2 ^ sz.bits ≤ a * b := by exact_mod_cast Iff.rfl
  rw [Bool.eq_iff_iff, bne_iff_ne, decide_eq_true_eq, hle, ne_eq, hz, not_lt]

/-- A signed product overflows where it is out of range. -/
theorem signedOverflow_eq (sz : Size) (p : Int) :
    signedOverflow sz p = decide (p < -(2 ^ (sz.bits - 1)) ∨ 2 ^ (sz.bits - 1) ≤ p) := by
  have hl := lowHalf_toNat sz p
  have hc := signBit_cases (lowHalf_lt sz p)
  unfold signedOverflow
  rw [Bool.eq_iff_iff, bne_iff_ne, decide_eq_true_eq]
  rcases hc with ⟨-, hlt, hv⟩ | ⟨-, hge, hv⟩ <;> rw [hv, hl] <;> cases sz <;> simp only [Size.bits] at * <;> omega

theorem multiplyTo_gives {i : Instr} {m : M Unit} {s s1 : State} {sz : Size} {reg : Reg} {a b : Dword} {p : Int}
    (hs : s.Inv) (hsz : sz = .b16 ∨ sz = .b32) (hi : exec i s = complete m s) (hm : m s = multiplyTo reg sz a b s1)
    (hq : Quiet s s1) (hp : p = signedVal sz a * signedVal sz b) :
    Gives i s (s.regs.write sz reg (BitVec.ofInt 32 p))
      (fun u => { s.eflags.arithmeticOf u with
        cf := decide (p < -(2 ^ (sz.bits - 1)) ∨ 2 ^ (sz.bits - 1) ≤ p)
        ofl := decide (p < -(2 ^ (sz.bits - 1)) ∨ 2 ^ (sz.bits - 1) ≤ p) }) s := by
  obtain ⟨t, ht, hb, hmem, hregs, hfl⟩ := multiplyFlags_ok (signedOverflow sz p) (s1.setReg sz reg (lowHalf sz p))
  have hset : (s1.setReg sz reg (lowHalf sz p)).putBack s1 = s1 := rfl
  rw [← signedOverflow_eq]
  refine gives_of_quiet (t := t) hi hs (hm.trans ?_) hq (putBack_trans hset hb) hmem ?_ ?_
  · unfold multiplyTo
    rw [← hp]
    exact ht
  · rw [hregs, State.setReg_regs, hq.regs]
    exact Regs.write_trunc hsz _ _ _
  · show ({ t.eflags with rf := false } : Eflags) =
      { s.eflags.arithmeticOf t.eflags with cf := signedOverflow sz p, ofl := signedOverflow sz p, rf := false }
    conv_lhs => rw [hfl]
    rw [← hq.eflags]
    rfl

/-- Settles O30. -/
theorem multiply : Obligations.Multiply := by
  unfold Obligations.Multiply
  intro s s1 w reg rm imm m hs
  refine ⟨?wide, ?single⟩
  case wide =>
    rintro sz i p wide rfl hr (⟨rfl, rfl, rfl⟩ | ⟨rfl, rfl, rfl⟩)
    · rw [← highHalf_ne_zero (reg_lt s (s.wsz w) .eax) (readRm_lt hr)]
      exact product_gives hs rfl (run_bind_ok hr) (quiet_readRm hr)
    · rw [← signedOverflow_eq]
      exact product_gives hs rfl (run_bind_ok hr) (quiet_readRm hr)
  case single =>
    rintro sz i p rfl hr (⟨rfl, hp⟩ | ⟨rfl, hp⟩)
    · exact multiplyTo_gives hs (osz_cases s) rfl (run_bind_ok hr) (quiet_readRm hr) hp
    · exact multiplyTo_gives hs (osz_cases s) rfl (run_bind_ok hr) (quiet_readRm hr) hp

end Sys2Proof.Machine
end

section
/-! O31 and O32: division and the conversions. -/

namespace Sys2Proof.Machine

/-! DIV and IDIV. -/

/-- The low byte of an integer is the same from a dword as from a byte. -/
theorem setWidth8_ofInt (v : Int) : ((BitVec.ofInt 32 v).setWidth 8 : Byte) = BitVec.ofInt 8 v := by
  apply BitVec.eq_of_toNat_eq
  rw [BitVec.toNat_setWidth, BitVec.toNat_ofInt, BitVec.toNat_ofInt]
  omega

theorem writeWide_signed (g : Regs) (sz : Size) (r q : Int) :
    g.writeWide sz (lowHalf sz r) (lowHalf sz q) =
      if sz = .b8 then g.write .b16 .eax ((BitVec.ofInt 8 r ++ BitVec.ofInt 8 q : Word).setWidth 32)
      else (g.write sz .eax (BitVec.ofInt 32 q)).write sz .edx (BitVec.ofInt 32 r) := by
  unfold lowHalf
  by_cases h : sz = .b8
  · subst h
    rw [if_pos rfl]
    show (g.write .b8 .eax _).write .b8 .esp _ = _
    rw [Regs.write_halves, setWidth8_trunc, setWidth8_trunc, setWidth8_ofInt, setWidth8_ofInt]
  · rw [if_neg h, Regs.writeWide_wide h, Regs.write_trunc (size_wide h), Regs.write_trunc (size_wide h)]

theorem writeWide_unsigned (g : Regs) (sz : Size) (r q : Nat) (hq : q < 2 ^ sz.bits) :
    g.writeWide sz (BitVec.ofNat 32 r) (BitVec.ofNat 32 q) =
      if sz = .b8 then g.write .b16 .eax (BitVec.ofInt 32 ((r : Int) * 256 + q))
      else (g.write sz .eax (BitVec.ofInt 32 (q : Int))).write sz .edx (BitVec.ofInt 32 (r : Int)) := by
  by_cases h : sz = .b8
  · subst h
    have hb : q < 256 := hq
    have hdiv : ((r : Int) * 256 + q) / 256 = r := by omega
    have hlow : BitVec.ofInt 8 ((r : Int) * 256 + q) = BitVec.ofInt 8 (q : Int) := by
      apply BitVec.eq_of_toNat_eq
      rw [BitVec.toNat_ofInt, BitVec.toNat_ofInt]
      omega
    rw [if_pos rfl]
    show (g.write .b8 .eax _).write .b8 .esp _ = _
    rw [Regs.write_halves, ← BitVec.ofInt_natCast 32 r, ← BitVec.ofInt_natCast 32 q]
    refine Regs.write_congr16 g .eax ?_
    rw [word_of_wide, ← halves_ofInt, hdiv, setWidth8_ofInt, setWidth8_ofInt, setWidth8_ofInt, hlow]
  · rw [if_neg h, Regs.writeWide_wide h, BitVec.ofInt_natCast, BitVec.ofInt_natCast]

theorem wideAcc_eq (s : State) (sz : Size) :
    (if sz = .b8 then ((s.reg .b16 .eax).toNat : Int)
      else (s.reg sz .edx).toNat * 2 ^ sz.bits + (s.reg sz .eax).toNat) = (s.wideAcc sz : Int) := by
  cases sz
  · rfl
  · simp [State.wideAcc]
  · simp [State.wideAcc]

theorem divideError_eq (sz : Size) (n d : Nat) :
    divideError sz n d = decide ((d : Int) = 0 ∨ (2 : Int) ^ sz.bits ≤ (n : Int) / d) := by
  have h1 : ((d : Int) = 0) ↔ d = 0 := by omega
  have h2 : ((2 : Int) ^ sz.bits ≤ (n : Int) / d) ↔ 2 ^ sz.bits ≤ n / d := by exact_mod_cast Iff.rfl
  unfold divideError
  rw [Bool.eq_iff_iff, decide_eq_true_eq, h1, h2, Bool.or_eq_true, beq_iff_eq, decide_eq_true_eq]

theorem signedDivideError_eq (sz : Size) (n d : Int) :
    signedDivideError sz n d = decide (d = 0 ∨ n.tdiv d < -(2 ^ (sz.bits - 1)) ∨ 2 ^ (sz.bits - 1) ≤ n.tdiv d) := by
  unfold signedDivideError
  rw [Bool.eq_iff_iff, decide_eq_true_eq, Bool.or_eq_true, Bool.or_eq_true, beq_iff_eq, decide_eq_true_eq,
    decide_eq_true_eq, or_assoc]

theorem signedWideAcc_eq (s : State) (sz : Size) {n : Int} (h : n = (s.wideAcc sz : Int)) :
    (if n < 2 ^ (2 * sz.bits - 1) then n else n - 2 ^ (2 * sz.bits)) = s.signedWideAcc sz := by
  have e : ((s.wideAcc sz : Int) < 2 ^ (2 * sz.bits - 1)) ↔ s.wideAcc sz < 2 ^ (2 * sz.bits - 1) := by
    exact_mod_cast Iff.rfl
  show _ = (if s.wideAcc sz < 2 ^ (2 * sz.bits - 1) then (s.wideAcc sz : Int) else (s.wideAcc sz : Int) - 2 ^ (2 * sz.bits))
  rw [h]
  exact if_congr e rfl rfl

/-- What DIV and IDIV do once the operand is read. -/
def divideTo (sz : Size) (error : Bool) (r q : Dword) : M Unit := do
  raiseIf error Exn.de
  writeWide sz r q
  undefinedFlags

theorem divide_gives {i : Instr} {m : M Unit} {s s1 : State} {sz : Size} {r q : Dword} (hs : s.Inv)
    (hi : exec i s = complete m s) (hm : m s = divideTo sz false r q s1) (hq : Quiet s s1) :
    Gives i s (s.regs.writeWide sz r q) (fun u => s.eflags.arithmeticOf u) s := by
  obtain ⟨t, ht, hb, hmem, hregs, hfl⟩ := undefinedFlags_ok { s1 with regs := s1.regs.writeWide sz r q }
  have hset : ({ s1 with regs := s1.regs.writeWide sz r q } : State).putBack s1 = s1 := rfl
  refine gives_of_quiet (t := t) hi hs (hm.trans ?_) hq (putBack_trans hset hb) hmem ?_ ?_
  · exact (run_bind_ok (raiseIf_of_false s1 rfl)).trans ((run_bind_ok (writeWide_ok sz r q s1)).trans ht)
  · rw [hregs, hq.regs]
  · show ({ t.eflags with rf := false } : Eflags) = { s.eflags.arithmeticOf t.eflags with rf := false }
    conv_lhs => rw [hfl]
    rw [← hq.eflags]

theorem divide_raises {i : Instr} {m : M Unit} {s s1 : State} {sz : Size} {r q : Dword}
    (hi : exec i s = complete m s) (hm : m s = divideTo sz true r q s1) (hq : Quiet s s1) :
    exec i s = takeException Exn.de { s with draws := s1.draws, deviceBus := s1.deviceBus } := by
  have hbus : s1.bus = s.bus := putBack_congr hq.rest (·.bus) fun _ _ => rfl
  rw [exec_exn_after hi (hm.trans (run_bind_error (raiseIf_of_true s1 rfl))), hbus]

/-- Settles O31. -/
theorem divide : Obligations.Divide := by
  unfold Obligations.Divide
  intro s s1 w rm d sz i n v q r hs hsz hr hn
  have hQ := quiet_readRm hr
  subst hsz
  rw [wideAcc_eq] at hn
  refine ⟨?unsigned, ?signed⟩
  case unsigned =>
    rintro ⟨rfl, rfl, rfl, rfl⟩
    have herr := divideError_eq (s.wsz w) (s.wideAcc (s.wsz w)) d.toNat
    have hm : ∀ b, divideError (s.wsz w) (s.wideAcc (s.wsz w)) d.toNat = b →
        (do let d ← readRm (s.wsz w) rm
            divideTo (s.wsz w) (divideError (s.wsz w) (s.wideAcc (s.wsz w)) d.toNat)
              (BitVec.ofNat 32 (s.wideAcc (s.wsz w) % d.toNat)) (BitVec.ofNat 32 (s.wideAcc (s.wsz w) / d.toNat)) : M Unit) s =
        divideTo (s.wsz w) b
        (BitVec.ofNat 32 (s.wideAcc (s.wsz w) % d.toNat)) (BitVec.ofNat 32 (s.wideAcc (s.wsz w) / d.toNat)) s1 :=
      fun b hb => (run_bind_ok hr).trans (by rw [← hb])
    subst hn
    refine ⟨fun ⟨h0, h1⟩ => ?_, fun h => ?_⟩
    · have hlt : s.wideAcc (s.wsz w) / d.toNat < 2 ^ (s.wsz w).bits := by exact_mod_cast h1
      have hg := writeWide_unsigned s.regs (s.wsz w) (s.wideAcc (s.wsz w) % d.toNat) _ hlt
      rw [Int.natCast_emod, Int.natCast_ediv] at hg
      rw [← hg]
      refine divide_gives hs rfl (hm false ?_) hQ
      rw [herr, decide_eq_false_iff_not, not_or, not_le]
      exact ⟨h0, h1⟩
    · exact divide_raises rfl (hm true (by rw [herr]; exact decide_eq_true h)) hQ
  case signed =>
    rintro ⟨rfl, rfl, rfl, rfl⟩
    rw [signedWideAcc_eq s _ hn]
    have herr := signedDivideError_eq (s.wsz w) (s.signedWideAcc (s.wsz w)) (signedVal (s.wsz w) d)
    have hm : ∀ b, signedDivideError (s.wsz w) (s.signedWideAcc (s.wsz w)) (signedVal (s.wsz w) d) = b →
        (do let d ← readRm (s.wsz w) rm
            divideTo (s.wsz w) (signedDivideError (s.wsz w) (s.signedWideAcc (s.wsz w)) (signedVal (s.wsz w) d))
              (lowHalf (s.wsz w) ((s.signedWideAcc (s.wsz w)).tmod (signedVal (s.wsz w) d)))
              (lowHalf (s.wsz w) ((s.signedWideAcc (s.wsz w)).tdiv (signedVal (s.wsz w) d))) : M Unit) s =
        divideTo (s.wsz w) b (lowHalf (s.wsz w) ((s.signedWideAcc (s.wsz w)).tmod (signedVal (s.wsz w) d)))
          (lowHalf (s.wsz w) ((s.signedWideAcc (s.wsz w)).tdiv (signedVal (s.wsz w) d))) s1 :=
      fun b hb => (run_bind_ok hr).trans (by rw [← hb])
    refine ⟨fun ⟨h0, h1, h2⟩ => ?_, fun h => ?_⟩
    · rw [← writeWide_signed]
      refine divide_gives hs rfl (hm false ?_) hQ
      rw [herr, decide_eq_false_iff_not, not_or, not_or, not_le, not_lt]
      exact ⟨h0, h1, h2⟩
    · exact divide_raises rfl (hm true (by rw [herr]; exact decide_eq_true h)) hQ

/-! CBW, CWD, AAD and AAM. -/

theorem flagsFromAl_ok (r : Dword) (s : State) :
    ∃ t, flagsFromAl r s = .ok () t ∧ t.putBack s = s ∧ t.mem = s.mem ∧ t.regs = s.regs ∧
      t.eflags = (s.eflags.arithmeticOf t.eflags).withSZP .b8 r := ⟨_, rfl, rfl, rfl, rfl, rfl⟩

/-- AAD and AAM: AX takes two bytes, and SF, ZF and PF follow AL. -/
theorem writeAx_gives {i : Instr} {m : M Unit} {s : State} {ah al : Dword} (hs : s.Inv)
    (hi : exec i s = complete m s) (hm : m s = (do writeAx ah al; flagsFromAl al : M Unit) s) :
    Gives i s (s.regs.write .b16 .eax ((ah.setWidth 8 ++ al.setWidth 8 : Word).setWidth 32))
      (fun u => (s.eflags.arithmeticOf u).withSZP .b8 al) s := by
  obtain ⟨t, ht, hb, hmem, hregs, hfl⟩ := flagsFromAl_ok al ((s.setReg .b8 .eax al).setReg .b8 .esp ah)
  rw [← Regs.write_halves]
  have hset : ((s.setReg .b8 .eax al).setReg .b8 .esp ah).putBack s = s := rfl
  refine gives_of_quiet (t := t) hi hs (hm.trans ht) (Quiet.refl s) (putBack_trans hset hb) hmem hregs ?_
  conv_lhs => rw [hfl]
  rfl

theorem byte_div (a b : Byte) : ((a.setWidth 32 : Dword) / b.setWidth 32).setWidth 8 = a / b := by
  have ha := a.isLt
  have hb := b.isLt
  have hle := Nat.div_le_self a.toNat b.toNat
  apply BitVec.eq_of_toNat_eq
  rw [BitVec.toNat_setWidth, BitVec.toNat_udiv, BitVec.toNat_udiv, BitVec.toNat_setWidth, BitVec.toNat_setWidth,
    Nat.mod_eq_of_lt (by omega : a.toNat < 2 ^ 32), Nat.mod_eq_of_lt (by omega : b.toNat < 2 ^ 32),
    Nat.mod_eq_of_lt (by omega)]

theorem byte_mod (a b : Byte) : ((a.setWidth 32 : Dword) % b.setWidth 32) = (a % b).setWidth 32 := by
  have ha := a.isLt
  have hb := b.isLt
  have hle := Nat.mod_le a.toNat b.toNat
  apply BitVec.eq_of_toNat_eq
  rw [BitVec.toNat_setWidth, BitVec.toNat_umod, BitVec.toNat_umod, BitVec.toNat_setWidth, BitVec.toNat_setWidth,
    Nat.mod_eq_of_lt (by omega : a.toNat < 2 ^ 32), Nat.mod_eq_of_lt (by omega : b.toNat < 2 ^ 32),
    Nat.mod_eq_of_lt (by omega : a.toNat % b.toNat < 2 ^ 32)]

theorem byte_muladd (a b c : Byte) :
    trunc .b8 ((a.setWidth 32 : Dword) * b.setWidth 32 + c.setWidth 32) = (a * b + c).setWidth 32 := by
  have ha := a.isLt
  have hb := b.isLt
  have hab : a.toNat * b.toNat < 256 * 256 := Nat.mul_lt_mul'' ha hb
  apply BitVec.eq_of_toNat_eq
  rw [trunc_toNat]
  simp only [BitVec.toNat_add, BitVec.toNat_mul, BitVec.toNat_setWidth, Size.bits,
    Nat.mod_eq_of_lt (by omega : a.toNat < 2 ^ 32), Nat.mod_eq_of_lt (by omega : b.toNat < 2 ^ 32)]
  generalize a.toNat * b.toNat = p at hab ⊢
  omega

theorem zero_append_byte (b : Byte) : ((0 : Dword).setWidth 8 ++ b : Word) = (b.setWidth 32 : Dword).setWidth 16 := by
  apply BitVec.eq_of_toNat_eq
  rw [BitVec.toNat_append]
  have hb := b.isLt
  simp
  omega

theorem byte_wide_low (b : Byte) : ((b.setWidth 32 : Dword)).setWidth 8 = b := BitVec.setWidth_setWidth_of_le b (by decide)

/-- An instruction that writes one register. -/
theorem gives_writeReg {i : Instr} {s : State} {sz : Size} {r : Reg} {v : Dword} {g : Regs} (hs : s.Inv)
    (hi : exec i s = complete (writeReg sz r v) s) (hg : s.regs.write sz r v = g) : Gives i s g (fun _ => s.eflags) s :=
  gives_of_quiet (t := s.setReg sz r v) hi hs rfl (Quiet.refl s) rfl rfl hg rfl

/-- Settles O32. -/
theorem convert : Obligations.Convert := by
  unfold Obligations.Convert
  rintro s b al ah hs hal hah
  have hAl : s.al = al.setWidth 32 := by rw [hal]; exact al_eq s
  have hAh : s.ah = ah.setWidth 32 := by rw [hah]; exact ah_eq s
  refine ⟨fun hz => ⟨?cbw, ?cwd⟩, fun hz => ⟨?cwde, ?cdq⟩, ?aad, fun hb => ?aam, fun hb => ?zero⟩
  case cbw =>
    have h32 : s.osz32 = false := osz_b16.1 hz
    refine gives_writeReg (sz := .b16) (r := .eax) (v := signExtend .b8 s.regs.eax) hs ?_ ?_
    · show complete (if s.osz32 then _ else _) s = _
      rw [h32]; rfl
    · rw [hal]
      refine Regs.write_congr16 _ _ ?_
      unfold signExtend
      congr 2
  case cwd =>
    refine gives_writeReg (sz := .b16) hs (by rw [← hz]; rfl) ?_
    rw [hz]
    refine Regs.write_congr16 _ _ ?_
    show (BitVec.setWidth 16 (if s.regs.eax.getLsbD 15 then _ else _) : Word) = _
    split <;> rfl
  case cwde =>
    have h32 : s.osz32 = true := osz_b32.1 hz
    refine gives_writeReg (sz := .b32) (r := .eax) (v := signExtend .b16 s.regs.eax) hs ?_ ?_
    · show complete (if s.osz32 then _ else _) s = _
      rw [h32]; rfl
    · show ({ s.regs with eax := signExtend .b16 s.regs.eax } : Regs) = _
      unfold signExtend
      congr 2
  case cdq =>
    exact gives_writeReg (sz := .b32) hs (by rw [← hz]; rfl) (by rw [hz]; rfl)
  case aad =>
    have hr := byte_muladd ah b al
    have h := writeAx_gives (i := .aad b) (ah := 0) (al := trunc .b8 (s.ah * b.setWidth 32 + s.al)) hs rfl rfl
    rw [hAl, hAh, hr, byte_wide_low] at h
    refine (?_ : s.regs.write .b16 .eax _ = s.regs.write .b16 .eax _) ▸ h
    refine Regs.write_congr16 _ _ ?_
    rw [word_of_wide]
    exact zero_append_byte _
  case aam =>
    have hm := run_bind_ok (f := fun _ => (do writeAx (s.al / b.setWidth 32) (s.al % b.setWidth 32)
                                              flagsFromAl (s.al % b.setWidth 32) : M Unit))
      (raiseIf_of_false (e := Exn.de) s (beq_eq_false_iff_ne.2 hb))
    have h := writeAx_gives (i := .aam b) hs rfl hm
    rw [hAl, byte_div, byte_mod, byte_wide_low] at h
    exact h
  case zero =>
    exact exec_exn_after rfl (run_bind_error (raiseIf_of_true s (beq_iff_eq.2 hb)))

end Sys2Proof.Machine
end

section
/-! O34: the shifts and rotates, bit by bit. -/

namespace Sys2Proof.Machine

theorem bits_le_32 (sz : Size) : sz.bits ≤ 32 := by cases sz <;> decide

theorem eight_le_bits (sz : Size) : 8 ≤ sz.bits := by cases sz <;> decide

theorem trunc_bit (sz : Size) (v : Dword) (j : Nat) : (trunc sz v).getLsbD j = (decide (j < sz.bits) && v.getLsbD j) := by
  show (trunc sz v).toNat.testBit j = _
  rw [trunc_toNat, Nat.testBit_mod_two_pow]
  rfl

theorem bit_of_lt {n j : Nat} {v : Dword} (h : v.toNat < 2 ^ n) (hj : n ≤ j) : v.getLsbD j = false :=
  Nat.testBit_lt_two_pow (h.trans_le (Nat.pow_le_pow_right (by decide) hj))

theorem or_lt {n : Nat} {v w : Dword} (hv : v.toNat < 2 ^ n) (hw : w.toNat < 2 ^ n) : (v ||| w).toNat < 2 ^ n := by
  rw [BitVec.toNat_or]; exact Nat.or_lt_two_pow hv hw

theorem bitAt_lt {b : Bool} {i n : Nat} (hi : i < n) : (bitAt b i).toNat < 2 ^ n := by
  unfold bitAt
  cases b
  · simp
  · show 2 ^ i % 2 ^ 32 < 2 ^ n
    exact (Nat.mod_le _ _).trans_lt (Nat.pow_lt_pow_right (by decide) hi)

theorem shr_lt {n c : Nat} {v : Dword} (h : v.toNat < 2 ^ n) : (v >>> c).toNat < 2 ^ n := by
  rw [BitVec.toNat_ushiftRight, Nat.shiftRight_eq_div_pow]
  exact (Nat.div_le_self _ _).trans_lt h

/-- `(j + c) % n` where `j` is below `n`. -/
theorem add_mod_cases {j c n : Nat} (hj : j < n) :
    (j + c % n < n ∧ (j + c) % n = j + c % n) ∨ (n ≤ j + c % n ∧ (j + c) % n = j + c % n - n) := by
  have hk := Nat.mod_lt c (by omega : 0 < n)
  rw [← Nat.add_mod_mod]
  rcases Nat.lt_or_ge (j + c % n) n with h | h
  · exact .inl ⟨h, Nat.mod_eq_of_lt h⟩
  · exact .inr ⟨h, by rw [Nat.mod_eq_sub_mod h, Nat.mod_eq_of_lt (by omega)]⟩

/-! Rotates. -/

theorem rol_bit {sz : Size} {v u : Dword} {f : Eflags} {c j : Nat} (hv : v.toNat < 2 ^ sz.bits) (hj : j < sz.bits) :
    (shiftRol sz c v f u).1.getLsbD ((j + c) % sz.bits) = v.getLsbD j := by
  have hn := bits_le_32 sz
  have hk := Nat.mod_lt c (by omega : 0 < sz.bits)
  show (trunc sz ((v <<< (c % sz.bits)) ||| (v >>> (sz.bits - c % sz.bits)))).getLsbD _ = _
  rw [trunc_bit, BitVec.getLsbD_or, BitVec.getLsbD_shiftLeft, BitVec.getLsbD_ushiftRight]
  rcases add_mod_cases (c := c) hj with ⟨hlt, he⟩ | ⟨hge, he⟩
  · have h1 : j + c % sz.bits < 32 := by omega
    rw [he, bit_of_lt hv (by omega : sz.bits ≤ sz.bits - c % sz.bits + (j + c % sz.bits)), Nat.add_sub_cancel]
    simp [hlt, h1, -BitVec.getLsbD_eq_getElem]
  · have h1 : sz.bits - c % sz.bits + (j + c % sz.bits - sz.bits) = j := by omega
    have h2 : j + c % sz.bits - sz.bits < c % sz.bits := by omega
    have h3 : j + c % sz.bits - sz.bits < sz.bits := by omega
    rw [he, h1]
    simp [h2, h3, -BitVec.getLsbD_eq_getElem]

theorem ror_bit {sz : Size} {v u : Dword} {f : Eflags} {c j : Nat} (hv : v.toNat < 2 ^ sz.bits) (hj : j < sz.bits) :
    (shiftRor sz c v f u).1.getLsbD j = v.getLsbD ((j + c) % sz.bits) := by
  have hn := bits_le_32 sz
  have hk := Nat.mod_lt c (by omega : 0 < sz.bits)
  show (trunc sz ((v >>> (c % sz.bits)) ||| (v <<< (sz.bits - c % sz.bits)))).getLsbD _ = _
  rw [trunc_bit, BitVec.getLsbD_or, BitVec.getLsbD_shiftLeft, BitVec.getLsbD_ushiftRight, Nat.add_comm (c % sz.bits) j]
  have h0 : j < 32 := by omega
  rcases add_mod_cases (c := c) hj with ⟨hlt, he⟩ | ⟨hge, he⟩
  · have h1 : j < sz.bits - c % sz.bits := by omega
    rw [he]
    simp [h1, hj, -BitVec.getLsbD_eq_getElem]
  · have h1 : j - (sz.bits - c % sz.bits) = j + c % sz.bits - sz.bits := by omega
    have h2 : ¬ j < sz.bits - c % sz.bits := by omega
    rw [he, bit_of_lt hv hge, h1]
    simp [h0, h2, hj, -BitVec.getLsbD_eq_getElem]

/-! Rotates through CF. -/

/-- Bit `j` of a value of `n` bits with CF on top. -/
def bitWithCarry (n : Nat) (p : Dword × Bool) (j : Nat) : Bool := if j = n then p.2 else p.1.getLsbD j

theorem rotateCarryLeft_lt {sz : Size} (k : Nat) (p : Dword × Bool) (h : p.1.toNat < 2 ^ sz.bits) :
    (rotateCarryLeft sz k p).1.toNat < 2 ^ sz.bits := by
  induction k generalizing p with
  | zero => exact h
  | succ k ih => exact ih _ (or_lt (trunc_toNat_lt _ _) (bitAt_lt (bits_pos sz)))

theorem rotateCarryRight_lt {sz : Size} (k : Nat) (p : Dword × Bool) (h : p.1.toNat < 2 ^ sz.bits) :
    (rotateCarryRight sz k p).1.toNat < 2 ^ sz.bits := by
  induction k generalizing p with
  | zero => exact h
  | succ k ih => exact ih _ (or_lt (shr_lt h) (bitAt_lt (by have := bits_pos sz; omega)))

/-- One rotate left through CF takes bit `j` one place up. -/
theorem carryLeft_step {sz : Size} (p : Dword × Bool) {j : Nat} (hj : j ≤ sz.bits) :
    bitWithCarry sz.bits (trunc sz (p.1 <<< 1) ||| bitAt p.2 0, signBit sz p.1) ((j + 1) % (sz.bits + 1)) =
      bitWithCarry sz.bits p j := by
  have hn := bits_le_32 sz
  have h8 := eight_le_bits sz
  unfold bitWithCarry
  by_cases htop : j = sz.bits
  · rw [if_pos htop, htop, Nat.mod_self, if_neg (by omega), BitVec.getLsbD_or, trunc_bit, bitAt_bit]
    simp [-BitVec.getLsbD_eq_getElem]
  · rw [if_neg htop, Nat.mod_eq_of_lt (by omega)]
    by_cases hlast : j + 1 = sz.bits
    · rw [if_pos hlast]
      unfold signBit
      rw [← hlast, Nat.add_sub_cancel]
    · have h1 : j + 1 < sz.bits := by omega
      have h2 : j + 1 < 32 := by omega
      rw [if_neg hlast, BitVec.getLsbD_or, trunc_bit, bitAt_bit, BitVec.getLsbD_shiftLeft]
      simp [h1, h2, -BitVec.getLsbD_eq_getElem]

theorem carryRight_step {sz : Size} (p : Dword × Bool) (hp : p.1.toNat < 2 ^ sz.bits) {j : Nat} (hj : j ≤ sz.bits) :
    bitWithCarry sz.bits ((p.1 >>> 1) ||| bitAt p.2 (sz.bits - 1), p.1.getLsbD 0) j =
      bitWithCarry sz.bits p ((j + 1) % (sz.bits + 1)) := by
  have hn := bits_le_32 sz
  have h8 := eight_le_bits sz
  unfold bitWithCarry
  by_cases htop : j = sz.bits
  · rw [if_pos htop, htop, Nat.mod_self, if_neg (by omega)]
  · rw [if_neg htop, Nat.mod_eq_of_lt (by omega), BitVec.getLsbD_or, BitVec.getLsbD_ushiftRight, bitAt_bit,
      Nat.add_comm 1 j]
    have h1 : j < 32 := by omega
    by_cases hlast : j + 1 = sz.bits
    · have h2 : j = sz.bits - 1 := by omega
      rw [if_pos hlast, bit_of_lt hp (by omega)]
      simp [← h2, h1]
    · have h2 : j ≠ sz.bits - 1 := by omega
      rw [if_neg hlast]
      simp [h2, -BitVec.getLsbD_eq_getElem]

theorem rotateCarryLeft_bit {sz : Size} (k : Nat) (p : Dword × Bool) {j : Nat} (hj : j ≤ sz.bits) :
    bitWithCarry sz.bits (rotateCarryLeft sz k p) ((j + k) % (sz.bits + 1)) = bitWithCarry sz.bits p j := by
  induction k generalizing p j with
  | zero => rw [Nat.add_zero, Nat.mod_eq_of_lt (by omega)]; rfl
  | succ k ih =>
    have h1 : (j + 1) % (sz.bits + 1) ≤ sz.bits := Nat.lt_succ_iff.1 (Nat.mod_lt _ (by omega))
    have h2 : (j + (k + 1)) % (sz.bits + 1) = ((j + 1) % (sz.bits + 1) + k) % (sz.bits + 1) := by
      rw [Nat.mod_add_mod, Nat.add_right_comm, Nat.add_assoc]
    rw [h2, ← carryLeft_step p hj]
    exact ih _ h1

theorem rotateCarryRight_bit {sz : Size} (k : Nat) (p : Dword × Bool) (hp : p.1.toNat < 2 ^ sz.bits) {j : Nat}
    (hj : j ≤ sz.bits) :
    bitWithCarry sz.bits (rotateCarryRight sz k p) j = bitWithCarry sz.bits p ((j + k) % (sz.bits + 1)) := by
  induction k generalizing p with
  | zero => rw [Nat.add_zero, Nat.mod_eq_of_lt (by omega)]; rfl
  | succ k ih =>
    have h1 : (j + k) % (sz.bits + 1) ≤ sz.bits := Nat.lt_succ_iff.1 (Nat.mod_lt _ (by omega))
    have h2 : (j + (k + 1)) % (sz.bits + 1) = ((j + k) % (sz.bits + 1) + 1) % (sz.bits + 1) := by
      rw [Nat.mod_add_mod, Nat.add_assoc]
    rw [h2, ← carryRight_step p hp h1]
    exact ih _ (or_lt (shr_lt hp) (bitAt_lt (by have := bits_pos sz; omega)))

/-! Shifts. -/

theorem shl_bit {sz : Size} {v u : Dword} {f : Eflags} {c j : Nat} (hj : j < sz.bits) :
    (shiftShl sz c v f u).1.getLsbD j = (decide (c ≤ j) && v.getLsbD (j - c)) := by
  have hn := bits_le_32 sz
  have h0 : j < 32 := by omega
  show (trunc sz (v <<< c)).getLsbD j = _
  rw [trunc_bit, BitVec.getLsbD_shiftLeft]
  by_cases h : j < c
  · simp [h, Nat.not_le.2 h]
  · simp [hj, h0, h, Nat.not_lt.1 h, -BitVec.getLsbD_eq_getElem]

theorem signExtend_bit (sz : Size) (v : Dword) {j : Nat} (hj : j < 32) :
    (signExtend sz v).getLsbD j = v.getLsbD (min j (sz.bits - 1)) := by
  have hmsb : ∀ n, 0 < n → n ≤ 32 → ((v.setWidth n).signExtend 32).getLsbD j = v.getLsbD (min j (n - 1)) := by
    intro n h0 h1
    rw [BitVec.getLsbD_signExtend, BitVec.msb_eq_getLsbD_last, BitVec.getLsbD_setWidth, BitVec.getLsbD_setWidth]
    rcases Nat.lt_or_ge j n with h | h
    · rw [Nat.min_eq_left (by omega)]
      simp [hj, h, -BitVec.getLsbD_eq_getElem]
    · rw [Nat.min_eq_right (by omega)]
      simp [hj, Nat.not_lt.2 h, h0, -BitVec.getLsbD_eq_getElem]
  cases sz with
  | b8 => exact hmsb 8 (by decide) (by decide)
  | b16 => exact hmsb 16 (by decide) (by decide)
  | b32 => rw [Nat.min_eq_left (by simp only [Size.bits]; omega)]; rfl

theorem sar_bit {sz : Size} {v u : Dword} {f : Eflags} {c j : Nat} (hj : j < sz.bits) :
    (shiftSar sz c v f u).1.getLsbD j = v.getLsbD (min (j + c) (sz.bits - 1)) := by
  have hn := bits_le_32 sz
  have h0 : j < 32 := by omega
  have hsign : (signExtend sz v).msb = v.getLsbD (sz.bits - 1) := by
    rw [BitVec.msb_eq_getLsbD_last, signExtend_bit sz v (by decide), Nat.min_eq_right (by omega)]
  show (trunc sz ((signExtend sz v).sshiftRight c)).getLsbD j = _
  rw [trunc_bit, BitVec.getLsbD_sshiftRight, hsign, Nat.add_comm c j]
  rcases Nat.lt_or_ge (j + c) 32 with h | h
  · rw [signExtend_bit sz v h]
    simp [hj, h0, h, -BitVec.getLsbD_eq_getElem]
  · rw [Nat.min_eq_right (by omega)]
    simp [hj, h0, Nat.not_lt.2 h, -BitVec.getLsbD_eq_getElem]

/-- Settles O34. -/
theorem shiftResults : Obligations.ShiftResults := by
  unfold Obligations.ShiftResults
  rintro sz c n v u f x rfl hc hc31 hv rfl
  refine ⟨?rotates, ?shifts, ?rol, ?ror, ?rcl, ?rcr, ?shl, ?shr, ?sar⟩
  case rotates =>
    simp only [List.forall_mem_cons]
    exact ⟨⟨trunc_toNat_lt _ _, rfl⟩, ⟨trunc_toNat_lt _ _, rfl⟩, ⟨rotateCarryLeft_lt _ _ hv, rfl⟩,
      ⟨rotateCarryRight_lt _ _ hv, rfl⟩, by simp⟩
  case shifts =>
    simp only [List.forall_mem_cons]
    exact ⟨⟨trunc_toNat_lt _ _, rfl⟩, ⟨shr_lt hv, rfl⟩, ⟨trunc_toNat_lt _ _, rfl⟩, by simp⟩
  case rol =>
    rintro p rfl
    exact ⟨fun j hj => rol_bit hv hj, rfl, by rintro rfl; rfl⟩
  case ror =>
    rintro p rfl
    exact ⟨fun j hj => ror_bit hv hj, rfl, by rintro rfl; rfl⟩
  case rcl =>
    rintro p rfl
    refine ⟨fun j hj => ?_, by rintro rfl; rfl⟩
    have h := rotateCarryLeft_bit (c % (sz.bits + 1)) (v, f.cf) hj
    rw [Nat.add_mod_mod] at h
    exact h
  case rcr =>
    rintro p rfl
    refine ⟨fun j hj => ?_, by rintro rfl; rfl⟩
    have h := rotateCarryRight_bit (c % (sz.bits + 1)) (v, f.cf) hv hj
    rw [Nat.add_mod_mod] at h
    exact h
  case shl =>
    rintro p rfl
    exact ⟨fun j hj => shl_bit hj, fun h => if_pos h, by rintro rfl; rfl⟩
  case shr =>
    rintro p rfl
    exact ⟨fun j hj => by rw [Nat.add_comm]; exact BitVec.getLsbD_ushiftRight .., fun h => if_pos h, by rintro rfl; rfl⟩
  case sar =>
    rintro p rfl
    refine ⟨fun j hj => sar_bit hj, ?_, by rintro rfl; rfl⟩
    show v.getLsbD (min c sz.bits - 1) = _
    congr 1
    omega

end Sys2Proof.Machine
end

section
/-! O35 and O36: the shift and rotate instructions. -/

namespace Sys2Proof.Machine

/-- An operand that is read to be updated, and written after quiet steps. -/
theorem readToUpdate_later {sz : Size} {l : Loc} {a v : Dword} {s1 s2 s3 s4 : State} (hr : readLoc sz l s1 = .ok a s2)
    (hq : Quiet s2 s3) (hw : writeLoc sz l v s3 = .ok () s4) : readToUpdate sz l s1 = .ok a s2 := by
  cases l with
  | reg r => exact hr
  | mem sr off =>
    have hc : s1.segOk sr off sz.bytes true = true := by
      rw [← ((quiet_readLoc hr).trans hq).segOk]; exact (memWrite_ok hw).1
    exact (run_bind_ok (a := ()) (segCheck_eq_ok.2 ⟨hc, rfl⟩)).trans hr

theorem readShifted_zero (sz : Size) (l : Loc) : readShifted sz l 0 = readLoc sz l := if_pos rfl

theorem readShifted_later {sz : Size} {l : Loc} {a v : Dword} {c : Nat} {s1 s2 s3 s4 : State} (hc : c ≠ 0)
    (hr : readLoc sz l s1 = .ok a s2) (hq : Quiet s2 s3) (hw : writeLoc sz l v s3 = .ok () s4) :
    readShifted sz l c s1 = .ok a s2 := by
  unfold readShifted
  rw [if_neg hc]
  exact readToUpdate_later hr hq hw

theorem freeDword_eq {u : Dword} {s t : State} (h : freeDword s = .ok u t) :
    u = Config.freeDword s.draws ∧ t = { s with draws := s.draws + 1 } := by
  cases h; exact ⟨rfl, rfl⟩

theorem quiet_freeDword {u : Dword} {s t : State} (h : freeDword s = .ok u t) : Quiet s t := by
  obtain ⟨-, rfl⟩ := freeDword_eq h
  exact quiet_draws s _

theorem quiet_freeAt {sz : Size} {u : Dword} {s t : State} (h : freeAt sz s = .ok u t) : Quiet s t := by
  cases h; exact quiet_draws s _

theorem cl_eq (s : State) : s.cl % 32 = s.regs.ecx.toNat % 32 := by
  show ((s.regs.ecx.setWidth 8).setWidth 32 : Dword).toNat % 32 = _
  simp only [BitVec.toNat_setWidth]
  omega

/-! Shifts and rotates. -/

section
variable {i : Instr} {op : ShiftOp} {rm : RM} {count : Nat} {s s1 s2 s3 s4 : State} {l : Loc} {v u : Dword} {sz : Size}

theorem shiftBy_zero (hs : s.Inv) (hi : exec i s = complete (shiftBy op sz rm count) s) (hc : count % 32 = 0)
    (hl : resolve rm s = .ok l s1) (hr : readLoc sz l s1 = .ok v s2) : Gives i s s.regs (fun _ => s.eflags) s := by
  have hq := (quiet_resolve hl).trans (quiet_readLoc hr)
  refine gives_of_quiet hi hs (t := s2) ?_ hq rfl rfl hq.regs (by rw [hq.eflags])
  unfold shiftBy
  rw [run_bind_ok hl, hc]
  exact run_bind_ok (by rw [readShifted_zero]; exact hr)

theorem shiftBy_puts (hs : s.Inv) (hi : exec i s = complete (shiftBy op sz rm count) s) (hc : count % 32 ≠ 0)
    (hl : resolve rm s = .ok l s1) (hr : readLoc sz l s1 = .ok v s2) (hu : freeDword s2 = .ok u s3)
    (hw : writeLoc sz l (op sz (count % 32) v s.eflags u).1 s3 = .ok () s4) :
    Puts i s s3 l sz (op sz (count % 32) v s.eflags u).1 fun _ => (op sz (count % 32) v s.eflags u).2 := by
  have hq := ((quiet_resolve hl).trans (quiet_readLoc hr)).trans (quiet_freeDword hu)
  have hf : s3.eflags = s.eflags := hq.eflags
  have hf4 : s4.eflags = s.eflags := (writeLoc_flags hw).trans hf
  refine puts_of_write (t := s4.setFlags (op sz (count % 32) v s4.eflags u).2) hi hs ?_ hq hw rfl rfl rfl ?_
  · unfold shiftBy
    rw [run_bind_ok hl, run_bind_ok (readShifted_later hc hr (quiet_freeDword hu) hw), if_neg hc, run_bind_ok hu,
      run_bind_ok (run_get s3), hf]
    exact (run_bind_ok hw).trans rfl
  · rw [State.setFlags_eflags, hf4]

end

/-- A shift by 1, by CL and by an immediate. -/
structure ShiftForms (op : ShiftOp) (by1 byCl : Width → RM → Instr) (byImm : Width → RM → BitVec 8 → Instr) : Prop where
  by1 : ∀ w rm s, exec (by1 w rm) s = complete (shiftBy op (s.wsz w) rm 1) s
  byCl : ∀ w rm s, exec (byCl w rm) s = complete (shiftBy op (s.wsz w) rm s.cl) s
  byImm : ∀ w rm c s, exec (byImm w rm c) s = complete (shiftBy op (s.wsz w) rm (BitVec.toNat c)) s

/-- What its three forms share. -/
theorem ShiftForms.count {op : ShiftOp} {by1 byCl : Width → RM → Instr} {byImm : Width → RM → BitVec 8 → Instr}
    (h : ShiftForms op by1 byCl byImm) {w : Width} {rm : RM} {imm : BitVec 8} {s : State} {i : Instr} {c : Nat}
    (hi : (i, c) ∈ [(by1 w rm, 1), (byCl w rm, s.regs.ecx.toNat % 32), (byImm w rm imm, imm.toNat % 32)]) :
    ∃ count, count % 32 = c ∧ exec i s = complete (shiftBy op (s.wsz w) rm count) s := by
  simp only [List.mem_cons, Prod.mk.injEq, List.not_mem_nil, or_false] at hi
  rcases hi with ⟨rfl, rfl⟩ | ⟨rfl, rfl⟩ | ⟨rfl, rfl⟩
  · exact ⟨1, rfl, h.by1 w rm s⟩
  · exact ⟨s.cl, cl_eq s, h.byCl w rm s⟩
  · exact ⟨imm.toNat, rfl, h.byImm w rm imm s⟩

theorem ShiftForms.settle {op : ShiftOp} {by1 byCl : Width → RM → Instr} {byImm : Width → RM → BitVec 8 → Instr}
    (h : ShiftForms op by1 byCl byImm) {s s1 s2 s3 s4 : State} {w : Width} {rm : RM} {imm : BitVec 8} {l : Loc}
    {v u : Dword} {i : Instr} {c : Nat} (hs : s.Inv) (hl : resolve rm s = .ok l s1)
    (hr : readLoc (s.wsz w) l s1 = .ok v s2) (hu : freeDword s2 = .ok u s3)
    (hi : (i, c) ∈ [(by1 w rm, 1), (byCl w rm, s.regs.ecx.toNat % 32), (byImm w rm imm, imm.toNat % 32)]) :
    (c = 0 → Gives i s s.regs (fun _ => s.eflags) s) ∧
      (c ≠ 0 → writeLoc (s.wsz w) l (op (s.wsz w) c v s.eflags u).1 s3 = .ok () s4 →
        Puts i s s3 l (s.wsz w) (op (s.wsz w) c v s.eflags u).1 fun _ => (op (s.wsz w) c v s.eflags u).2) := by
  obtain ⟨count, rfl, hexec⟩ := h.count hi
  exact ⟨fun h0 => shiftBy_zero hs hexec h0 hl hr, fun h0 hw => shiftBy_puts hs hexec h0 hl hr hu hw⟩

/-- Settles O35. -/
theorem shiftAndRotate : Obligations.ShiftAndRotate := by
  unfold Obligations.ShiftAndRotate
  rintro s s1 s2 s3 s4 w rm imm l v u sz hs rfl hl hr hu
  simp only [List.forall_mem_cons]
  have rol : ShiftForms shiftRol .rolBy1 .rolByCl .rolByImm := ⟨fun _ _ _ => rfl, fun _ _ _ => rfl, fun _ _ _ _ => rfl⟩
  have ror : ShiftForms shiftRor .rorBy1 .rorByCl .rorByImm := ⟨fun _ _ _ => rfl, fun _ _ _ => rfl, fun _ _ _ _ => rfl⟩
  have rcl : ShiftForms shiftRcl .rclBy1 .rclByCl .rclByImm := ⟨fun _ _ _ => rfl, fun _ _ _ => rfl, fun _ _ _ _ => rfl⟩
  have rcr : ShiftForms shiftRcr .rcrBy1 .rcrByCl .rcrByImm := ⟨fun _ _ _ => rfl, fun _ _ _ => rfl, fun _ _ _ _ => rfl⟩
  have shl : ShiftForms shiftShl .shlBy1 .shlByCl .shlByImm := ⟨fun _ _ _ => rfl, fun _ _ _ => rfl, fun _ _ _ _ => rfl⟩
  have shr : ShiftForms shiftShr .shrBy1 .shrByCl .shrByImm := ⟨fun _ _ _ => rfl, fun _ _ _ => rfl, fun _ _ _ _ => rfl⟩
  have sar : ShiftForms shiftSar .sarBy1 .sarByCl .sarByImm := ⟨fun _ _ _ => rfl, fun _ _ _ => rfl, fun _ _ _ _ => rfl⟩
  exact ⟨fun _ _ hi => rol.settle hs hl hr hu hi, fun _ _ hi => ror.settle hs hl hr hu hi,
    fun _ _ hi => rcl.settle hs hl hr hu hi, fun _ _ hi => rcr.settle hs hl hr hu hi,
    fun _ _ hi => shl.settle hs hl hr hu hi, fun _ _ hi => shr.settle hs hl hr hu hi,
    fun _ _ hi => sar.settle hs hl hr hu hi, fun _ h => nomatch h⟩

/-! Double shifts. -/

/-- The double shift to the left or to the right. -/
def doubleOp (left : Bool) : DoubleShiftOp := if left then doubleShl else doubleShr

theorem doubleShl_bit {sz : Size} {c j : Nat} {v w : Dword} (hc : c ≤ sz.bits) (hj : j < sz.bits)
    (hw : w.toNat < 2 ^ sz.bits) :
    (doubleShl sz c v w).1.getLsbD j = if c ≤ j then v.getLsbD (j - c) else w.getLsbD (sz.bits - c + j) := by
  have h0 : j < 32 := lt_of_lt_of_le hj (bits_le_32 sz)
  show (trunc sz ((v <<< c) ||| (w >>> (sz.bits - c)))).getLsbD j = _
  rw [trunc_bit, BitVec.getLsbD_or, BitVec.getLsbD_shiftLeft, BitVec.getLsbD_ushiftRight]
  by_cases h : c ≤ j
  · rw [if_pos h, bit_of_lt hw (by omega : sz.bits ≤ sz.bits - c + j)]
    simp [hj, h0, Nat.not_lt.2 h, -BitVec.getLsbD_eq_getElem]
  · rw [if_neg h]
    simp [hj, h0, Nat.not_le.1 h, -BitVec.getLsbD_eq_getElem]

theorem doubleShr_bit {sz : Size} {c j : Nat} {v w : Dword} (hc : c ≤ sz.bits) (hj : j < sz.bits)
    (hv : v.toNat < 2 ^ sz.bits) :
    (doubleShr sz c v w).1.getLsbD j = if j + c < sz.bits then v.getLsbD (j + c) else w.getLsbD (j + c - sz.bits) := by
  have h0 : j < 32 := lt_of_lt_of_le hj (bits_le_32 sz)
  show (trunc sz ((v >>> c) ||| (w <<< (sz.bits - c)))).getLsbD j = _
  rw [trunc_bit, BitVec.getLsbD_or, BitVec.getLsbD_shiftLeft, BitVec.getLsbD_ushiftRight, Nat.add_comm c j]
  by_cases h : j + c < sz.bits
  · have h1 : j < sz.bits - c := by omega
    rw [if_pos h]
    simp [hj, h1, -BitVec.getLsbD_eq_getElem]
  · have h1 : ¬ j < sz.bits - c := by omega
    have h2 : j - (sz.bits - c) = j + c - sz.bits := by omega
    rw [if_neg h, bit_of_lt hv (Nat.not_lt.1 h), h2]
    simp [hj, h0, h1, -BitVec.getLsbD_eq_getElem]

/-- The result is the one that has these bits. -/
theorem doubleOp_eq {sz : Size} {c : Nat} {v w r : Dword} {left : Bool} (hc : c ≤ sz.bits)
    (hv : v.toNat < 2 ^ sz.bits) (hw : w.toNat < 2 ^ sz.bits) (hr : r.toNat < 2 ^ sz.bits)
    (hbits : ∀ j, j < sz.bits → r.getLsbD j =
      (if left then (if c ≤ j then v.getLsbD (j - c) else w.getLsbD (sz.bits - c + j))
        else (if j + c < sz.bits then v.getLsbD (j + c) else w.getLsbD (j + c - sz.bits)))) :
    doubleOp left sz c v w = (r, v.getLsbD (if left then sz.bits - c else c - 1)) := by
  refine Prod.ext (BitVec.eq_of_getLsbD_eq fun j _ => ?_) (by cases left <;> rfl)
  rcases Nat.lt_or_ge j sz.bits with hj | hj
  · rw [hbits j hj]
    cases left
    · exact doubleShr_bit hc hj hv
    · exact doubleShl_bit hc hj hw
  · have hlt : (doubleOp left sz c v w).1.toNat < 2 ^ sz.bits := by cases left <;> exact trunc_toNat_lt _ _
    rw [bit_of_lt hlt hj, bit_of_lt hr hj]

section
variable {i : Instr} {op : DoubleShiftOp} {reg : Reg} {rm : RM} {count : Nat} {s s1 s2 s3 s4 : State} {l : Loc}
  {v u r : Dword}

theorem doubleShift_zero (hs : s.Inv) (hi : exec i s = complete (doubleShift op reg rm count) s) (hc : count % 32 = 0)
    (hl : resolve rm s = .ok l s1) (hr : readLoc s.osz l s1 = .ok v s2) : Gives i s s.regs (fun _ => s.eflags) s := by
  have hq := (quiet_resolve hl).trans (quiet_readLoc hr)
  refine gives_of_quiet hi hs (t := s2) ?_ hq rfl rfl hq.regs (by rw [hq.eflags])
  unfold doubleShift
  rw [run_bind_ok (run_get s), hc]
  refine (run_bind_ok hl).trans ((run_bind_ok (a := v) (s' := s2) ?_).trans rfl)
  rw [readShifted_zero]
  exact hr

/-- The flags of a double shift, those that are undefined being as they are found. -/
theorem afterDoubleShift_eq (f : Eflags) (sz : Size) (c : Nat) (v r : Dword) (cf : Bool) (u : Dword) :
    f.afterDoubleShift sz c v r cf u = { f.withSZP sz r with
      cf := cf
      af := (f.afterDoubleShift sz c v r cf u).af
      ofl := if c = 1 then v.getLsbD (sz.bits - 1) ^^ r.getLsbD (sz.bits - 1)
        else (f.afterDoubleShift sz c v r cf u).ofl } := by
  unfold Eflags.afterDoubleShift oneOr
  by_cases h : c = 1
  · simp only [if_pos h]; rfl
  · simp only [if_neg h]

theorem doubleShift_puts {cf : Bool} (hs : s.Inv) (hi : exec i s = complete (doubleShift op reg rm count) s)
    (hc : count % 32 ≠ 0) (hn : count % 32 ≤ s.osz.bits) (hl : resolve rm s = .ok l s1)
    (hr : readLoc s.osz l s1 = .ok v s2) (hu : freeDword s2 = .ok u s3)
    (hop : op s.osz (count % 32) v (s.reg s.osz reg) = (r, cf)) (hw : writeLoc s.osz l r s3 = .ok () s4) :
    Puts i s s3 l s.osz r fun g => { s.eflags.withSZP s.osz r with
      cf := cf
      af := g.af
      ofl := if count % 32 = 1 then v.getLsbD (s.osz.bits - 1) ^^ r.getLsbD (s.osz.bits - 1) else g.ofl } := by
  have hq := ((quiet_resolve hl).trans (quiet_readLoc hr)).trans (quiet_freeDword hu)
  have hf4 : s4.eflags = s.eflags := (writeLoc_flags hw).trans hq.eflags
  refine puts_of_write (t := s4.setFlags (s4.eflags.afterDoubleShift s.osz (count % 32) v r cf u))
    hi hs ?_ hq hw rfl rfl rfl ?_
  · unfold doubleShift
    rw [run_bind_ok (run_get s)]
    refine (run_bind_ok hl).trans ((run_bind_ok (readShifted_later hc hr (quiet_freeDword hu) hw)).trans ?_)
    rw [if_neg hc, if_neg (Nat.not_lt.2 hn), hop]
    exact (run_bind_ok hu).trans ((run_bind_ok hw).trans rfl)
  · rw [State.setFlags_eflags, hf4]
    conv_lhs => rw [afterDoubleShift_eq]

theorem doubleShift_undefined (hs : s.Inv) (hi : exec i s = complete (doubleShift op reg rm count) s)
    (hn : s.osz.bits < count % 32) (hl : resolve rm s = .ok l s1) (hr : readLoc s.osz l s1 = .ok v s2)
    (hu : freeAt s.osz s2 = .ok r s3) (hw : writeLoc s.osz l r s3 = .ok () s4) :
    Puts i s s3 l s.osz r fun g => s.eflags.arithmeticOf g := by
  have hc : count % 32 ≠ 0 := by omega
  have hq := ((quiet_resolve hl).trans (quiet_readLoc hr)).trans (quiet_freeAt hu)
  have hf4 : s4.eflags = s.eflags := (writeLoc_flags hw).trans hq.eflags
  obtain ⟨t, ht, hb, hmem, hregs, hfl⟩ := undefinedFlags_ok s4
  refine puts_of_write (t := t) hi hs ?_ hq hw hb hmem hregs ?_
  · unfold doubleShift
    rw [run_bind_ok (run_get s)]
    refine (run_bind_ok hl).trans ((run_bind_ok (readShifted_later hc hr (quiet_freeAt hu) hw)).trans ?_)
    rw [if_neg hc, if_pos hn]
    exact (run_bind_ok hu).trans ((run_bind_ok hw).trans ht)
  · rw [arithmeticOf_rf]
    conv_lhs => rw [hfl, hf4]

end

/-- The instructions of a double shift, with their counts. -/
theorem doubleShift_count {s : State} {reg : Reg} {rm : RM} {imm : BitVec 8} {i : Instr} {c : Nat} {left : Bool}
    (h : (i, c, left) ∈ [(Instr.shldImm reg rm imm, imm.toNat % 32, true),
      (.shldCl reg rm, s.regs.ecx.toNat % 32, true), (.shrdImm reg rm imm, imm.toNat % 32, false),
      (.shrdCl reg rm, s.regs.ecx.toNat % 32, false)]) :
    ∃ count, count % 32 = c ∧ exec i s = complete (doubleShift (doubleOp left) reg rm count) s := by
  simp only [List.mem_cons, Prod.mk.injEq, List.not_mem_nil, or_false] at h
  rcases h with ⟨rfl, rfl, rfl⟩ | ⟨rfl, rfl, rfl⟩ | ⟨rfl, rfl, rfl⟩ | ⟨rfl, rfl, rfl⟩
  · exact ⟨imm.toNat, rfl, rfl⟩
  · exact ⟨s.cl, cl_eq s, rfl⟩
  · exact ⟨imm.toNat, rfl, rfl⟩
  · exact ⟨s.cl, cl_eq s, rfl⟩

/-- Settles O36. -/
theorem doubleShift_obligation : Obligations.DoubleShift := by
  unfold Obligations.DoubleShift
  rintro s s1 s2 s3 s4 rm reg imm l v u r sz n c left hs rfl rfl hl hr i hi
  obtain ⟨count, rfl, hexec⟩ := doubleShift_count hi
  refine ⟨fun h0 => doubleShift_zero hs hexec h0 hl hr, fun h1 hn hu hlt hbits hw => ?_,
    fun hn hu hw => doubleShift_undefined hs hexec hn hl hr hu hw⟩
  have he := doubleOp_eq hn (readLoc_lt hr) (reg_lt s s.osz reg) hlt hbits
  exact doubleShift_puts hs hexec (by omega) hn hl hr hu he hw

end Sys2Proof.Machine
end

section
/-! O37, O38 and O39: the string instructions, those that do I/O, and the repeated forms. -/

namespace Sys2Proof.Machine

/-! The pointers. -/

theorem asz_of_rest {s t : State} (h : t.putBack s = s) (hp : t.pfx = s.pfx) (hv : t.eflags.vm = s.eflags.vm) :
    t.asz = s.asz := by
  have hcs : t.csD = s.csD := by
    have h1 : t.cs = s.cs := putBack_congr h (·.cs) fun _ _ => rfl
    have h2 : t.cr0 = s.cr0 := putBack_congr h (·.cr0) fun _ _ => rfl
    unfold State.csD State.protectedMode
    rw [h1, h2, hv]
  unfold State.asz State.asz32 State.codeD
  rw [hp, hcs]

theorem Quiet.asz {s t : State} (h : Quiet s t) : t.asz = s.asz := asz_of_rest h.rest h.pfx (congrArg (·.vm) h.eflags)

theorem asz_wide (s : State) : s.asz = .b16 ∨ s.asz = .b32 := by
  unfold State.asz
  cases s.asz32
  · exact .inl rfl
  · exact .inr rfl

/-- Another register is as it was. -/
theorem Regs.read_write_other {sz : Size} (h : sz = .b16 ∨ sz = .b32) (g : Regs) {r r' : Reg} (hr : r' ≠ r) (v : Dword) :
    (g.write sz r v).read sz r' = g.read sz r' := by
  rcases h with rfl | rfl <;> simp [Regs.read, Regs.write, Regs.get_set_other _ _ hr]

/-- The accumulator is not the source pointer. -/
theorem Regs.read_write_eax {sz : Size} (h : sz = .b16 ∨ sz = .b32) (g : Regs) (sz' : Size) (v : Dword) :
    (g.write sz' .eax v).read sz .esi = g.read sz .esi := by
  rcases h with rfl | rfl <;> cases sz' <;> rfl

theorem advance_regs {s t : State} (ha : t.asz = s.asz) (hd : t.eflags.df = s.eflags.df) (sz : Size) (r : Reg) :
    (t.advance sz r).regs = t.regs.write s.asz r (t.regs.read s.asz r + s.stringStep sz) := by
  have hstep : t.stringStep sz = s.stringStep sz := by unfold State.stringStep; rw [hd]
  unfold State.advance State.reg
  rw [State.setReg_regs, ha, hstep]

/-- Both pointers, from registers as they were. -/
theorem advanceBoth_regs {s t : State} (ha : t.asz = s.asz) (hd : t.eflags.df = s.eflags.df) (hr : t.regs = s.regs)
    (sz : Size) : ((t.advance sz .esi).advance sz .edi).regs =
      (s.regs.write s.asz .esi (s.srcOffset + s.stringStep sz)).write s.asz .edi (s.dstOffset + s.stringStep sz) := by
  have ha' : (t.advance sz .esi).asz = s.asz := ha
  have hd' : (t.advance sz .esi).eflags.df = s.eflags.df := hd
  rw [advance_regs ha' hd', advance_regs ha hd, hr, Regs.read_write_other (asz_wide s) _ (by decide)]
  rfl

/-! What a store leaves, seen from the start of the instruction. -/

theorem stored_mem {s s1 s2 t : State} {sr : SReg} {off v : Dword} {sz : Size} (hs : s.Inv) (hq : Quiet s s1)
    (hw : memWrite sr off sz v s1 = .ok () s2) (hm : t.mem = s2.mem) : StoresAt s s1 t sr off (leBytes sz.bytes v) :=
  Loc.Stored.after (l := .mem sr off) hq hs.mem (Loc.Stored.of_mem hm ((memWrite_ok hw).2.bytes (hq.wf hs.mem)))

theorem Stores.of_mem {s t t' : State} {as : List Dword} {bs : List Byte} (ht : t'.mem = t.mem) (h : Stores s t as bs) :
    Stores s t' as bs := by
  have e : ∀ p, t'.readByte p = t.readByte p := fun p => by unfold State.readByte; rw [ht]
  obtain ⟨hl, hb, ho⟩ := h
  refine ⟨hl, by rw [← hb]; exact List.map_congr_left fun p _ => e p, fun p hp => ?_⟩
  have := ho p hp
  unfold SameByte at *
  rwa [e p]

/-! MOVS, CMPS, SCAS, LODS, STOS and XLAT. -/

theorem movs_ends {s s1 s2 : State} {w : Width} {a : Dword} (hs : s.Inv)
    (hr : memRead s.srcSeg s.srcOffset (s.wsz w) s = .ok a s1) (hw : memWrite .es s.dstOffset (s.wsz w) a s1 = .ok () s2) :
    ∃ t, exec (.movs w) s = .next t ∧
      Ends s t ((s.regs.write s.asz .esi (s.srcOffset + s.stringStep (s.wsz w))).write s.asz .edi
        (s.dstOffset + s.stringStep (s.wsz w))) s.eflags s ∧
      StoresAt s s1 t .es s.dstOffset (leBytes (s.wsz w).bytes a) := by
  have hq := (memRead_ok hr).2
  obtain ⟨-, hW⟩ := memWrite_ok hw
  have hrest : s2.putBack s = s := putBack_trans hq.rest hW.rest
  have hfl : s2.eflags = s.eflags := hW.eflags.trans hq.eflags
  have hm : movsElement (s.wsz w) s = .ok () ((s2.advance (s.wsz w) .esi).advance (s.wsz w) .edi) :=
    (run_bind_ok hr).trans ((run_bind_ok hw).trans rfl)
  refine ⟨_, complete_ok hm, ends_retire ?_ ?_ ?_, stored_mem hs hq hw rfl⟩
  · exact advanceBoth_regs (asz_of_rest hrest (hW.pfx.trans hq.pfx) (by rw [hfl])) (by rw [hfl]) (hW.regs.trans hq.regs) _
  · show ({ s2.eflags with rf := false } : Eflags) = _
    rw [hfl]
  · exact hrest

theorem cmps_gives {s s1 s2 : State} {w : Width} {a b : Dword} (hs : s.Inv)
    (hr : memRead s.srcSeg s.srcOffset (s.wsz w) s = .ok a s1) (hr2 : memRead .es s.dstOffset (s.wsz w) s1 = .ok b s2) :
    Gives (.cmps w) s ((s.regs.write s.asz .esi (s.srcOffset + s.stringStep (s.wsz w))).write s.asz .edi
        (s.dstOffset + s.stringStep (s.wsz w))) (fun _ => s.eflags.afterSub (s.wsz w) a b false) s := by
  have hq := (memRead_ok hr).2.trans (memRead_ok hr2).2
  have hm : cmpsElement (s.wsz w) s = .ok () (((s2.setFlags (s2.eflags.afterSub (s.wsz w) a b false)).advance (s.wsz w)
      .esi).advance (s.wsz w) .edi) := (run_bind_ok hr).trans ((run_bind_ok hr2).trans rfl)
  refine gives_of_quiet rfl hs hm hq rfl rfl ?_ ?_
  · refine advanceBoth_regs (t := s2.setFlags (s2.eflags.afterSub (s.wsz w) a b false)) ?_ ?_ hq.regs _
    · refine asz_of_rest (t := s2.setFlags (s2.eflags.afterSub (s.wsz w) a b false)) hq.rest hq.pfx ?_
      show (s2.eflags.afterSub (s.wsz w) a b false).vm = _
      rw [hq.eflags]; rfl
    · show (s2.eflags.afterSub (s.wsz w) a b false).df = _
      rw [hq.eflags]; rfl
  · show ({ s2.eflags.afterSub (s.wsz w) a b false with rf := false } : Eflags) = _
    rw [hq.eflags]

theorem scas_gives {s s1 : State} {w : Width} {b : Dword} (hs : s.Inv)
    (hr : memRead .es s.dstOffset (s.wsz w) s = .ok b s1) :
    Gives (.scas w) s (s.regs.write s.asz .edi (s.dstOffset + s.stringStep (s.wsz w)))
      (fun _ => s.eflags.afterSub (s.wsz w) (s.reg (s.wsz w) .eax) b false) s := by
  have hq := (memRead_ok hr).2
  have hm : scasElement (s.wsz w) s = .ok ()
      ((s1.setFlags (s1.eflags.afterSub (s.wsz w) (s.reg (s.wsz w) .eax) b false)).advance (s.wsz w) .edi) :=
    (run_bind_ok hr).trans rfl
  refine gives_of_quiet rfl hs hm hq rfl rfl ?_ ?_
  · refine (advance_regs (s := s) (t := s1.setFlags (s1.eflags.afterSub (s.wsz w) (s.reg (s.wsz w) .eax) b false))
      (asz_of_rest hq.rest hq.pfx ?_) ?_ _ _).trans ?_
    · show (s1.eflags.afterSub (s.wsz w) (s.reg (s.wsz w) .eax) b false).vm = _
      rw [hq.eflags]; rfl
    · show (s1.eflags.afterSub (s.wsz w) (s.reg (s.wsz w) .eax) b false).df = _
      rw [hq.eflags]; rfl
    · show s1.regs.write s.asz .edi (s1.regs.read s.asz .edi + _) = _
      rw [hq.regs]; rfl
  · show ({ s1.eflags.afterSub (s.wsz w) (s.reg (s.wsz w) .eax) b false with rf := false } : Eflags) = _
    rw [hq.eflags]

theorem lods_gives {s s1 : State} {w : Width} {a : Dword} (hs : s.Inv)
    (hr : memRead s.srcSeg s.srcOffset (s.wsz w) s = .ok a s1) :
    Gives (.lods w) s ((s.regs.write (s.wsz w) .eax a).write s.asz .esi (s.srcOffset + s.stringStep (s.wsz w)))
      (fun _ => s.eflags) s := by
  have hq := (memRead_ok hr).2
  have hm : lodsElement (s.wsz w) s = .ok () ((s1.setReg (s.wsz w) .eax a).advance (s.wsz w) .esi) :=
    (run_bind_ok hr).trans rfl
  refine gives_of_quiet rfl hs hm hq rfl rfl ?_ ?_
  · refine (advance_regs (s := s) (t := s1.setReg (s.wsz w) .eax a)
      hq.asz (congrArg (·.df) hq.eflags) _ _).trans ?_
    rw [State.setReg_regs, hq.regs, Regs.read_write_eax (asz_wide s)]
    rfl
  · show ({ s1.eflags with rf := false } : Eflags) = _
    rw [hq.eflags]

theorem stos_ends {s s1 : State} {w : Width} (hs : s.Inv)
    (hw : memWrite .es s.dstOffset (s.wsz w) (s.reg (s.wsz w) .eax) s = .ok () s1) :
    ∃ t, exec (.stos w) s = .next t ∧
      Ends s t (s.regs.write s.asz .edi (s.dstOffset + s.stringStep (s.wsz w))) s.eflags s ∧
      StoresAt s s t .es s.dstOffset (leBytes (s.wsz w).bytes (s.reg (s.wsz w) .eax)) := by
  obtain ⟨-, hW⟩ := memWrite_ok hw
  have hm : stosElement (s.wsz w) s = .ok () (s1.advance (s.wsz w) .edi) := (run_bind_ok hw).trans rfl
  refine ⟨_, complete_ok hm, ends_retire ?_ ?_ hW.rest, stored_mem hs (Quiet.refl s) hw rfl⟩
  · rw [advance_regs (s := s) (asz_of_rest hW.rest hW.pfx (by rw [hW.eflags])) (by rw [hW.eflags]), hW.regs]; rfl
  · show ({ s1.eflags with rf := false } : Eflags) = _
    rw [hW.eflags]

theorem xlat_gives {s s1 : State} {a : Dword} (hs : s.Inv)
    (hr : memRead s.srcSeg (trunc s.asz (s.reg s.asz .ebx + s.al)) .b8 s = .ok a s1) :
    Gives .xlat s (s.regs.write .b8 .eax a) (fun _ => s.eflags) s := by
  have hq := (memRead_ok hr).2
  have hm : _ = EStateM.Result.ok () (s1.setReg .b8 .eax a) := (run_bind_ok (f := writeReg .b8 .eax) hr).trans rfl
  refine gives_of_quiet rfl hs hm hq rfl rfl ?_ ?_
  · rw [State.setReg_regs, hq.regs]
  · show ({ s1.eflags with rf := false } : Eflags) = _
    rw [hq.eflags]

/-- Settles O37. -/
theorem stringElements : Obligations.StringElements := by
  unfold Obligations.StringElements
  rintro s s1 s2 w sz sr src dst step a b hs rfl rfl rfl rfl rfl
  exact ⟨movs_ends hs, cmps_gives hs, scas_gives hs, lods_gives hs, stos_ends hs, xlat_gives hs⟩

/-! INS and OUTS. -/

/-- A store of what a source gives, with paging off; the source runs bus cycles and uses free values. -/
theorem storeFrom_unpaged {s t : State} {sr : SReg} {off : Dword} {n : Nat} {source : M (List Byte)} {bs : List Byte}
    (hp : s.Plain) (hc : s.segOk sr off n true = true) (h1 : 1 ≤ n) (h2 : n ≤ 4096) (hsrc : source s = .ok bs t)
    (ht : t = { s with bus := t.bus, draws := t.draws }) :
    ∃ u, storeFrom sr off n source s = .ok () u ∧
      u = { s with
        bus := t.bus
        mem := writeCells s.isFixed s.mem (linearRange (s.linear sr off) n) bs
        stale := u.stale, pendingDb := u.pendingDb, draws := u.draws } := by
  obtain ⟨u, hu, he⟩ := noteAccess_answers true (s.linear sr off) n t
  have hm : u.AllMemory := by rw [he, ht]; exact hp.memory
  refine ⟨u.storePhys (linearRange (s.linear sr off) n) bs, ?_, ?_⟩
  · unfold storeFrom
    rw [run_bind_ok (segCheck_eq_ok.2 ⟨hc, rfl⟩ : _ = EStateM.Result.ok () s), run_bind_ok (run_get s)]
    exact (run_bind_ok (physRange_unpaged hp.unpaged true s.isUser (s.linear sr off) n h1 h2)).trans
      ((run_bind_ok hsrc).trans ((run_bind_ok hu).trans (writePhys_memory hm _ _)))
  · rw [he, ht]
    rfl

theorem storeFrom_error {s t : State} {sr : SReg} {off : Dword} {n : Nat} {source : M (List Byte)} {e : Stop}
    (hp : s.Plain) (hc : s.segOk sr off n true = true) (h1 : 1 ≤ n) (h2 : n ≤ 4096) (hsrc : source s = .error e t) :
    storeFrom sr off n source s = .error e t := by
  unfold storeFrom
  rw [run_bind_ok (segCheck_eq_ok.2 ⟨hc, rfl⟩ : _ = EStateM.Result.ok () s), run_bind_ok (run_get s)]
  exact (run_bind_ok (physRange_unpaged hp.unpaged true s.isUser (s.linear sr off) n h1 h2)).trans (run_bind_error hsrc)

theorem Quiet.linear {s t : State} (h : Quiet s t) (sr : SReg) (off : Dword) : t.linear sr off = s.linear sr off := by
  unfold State.linear; rw [h.seg]

theorem Quiet.plain {s t : State} (h : Quiet s t) (hp : s.Plain) : t.Plain :=
  ⟨by rw [h.cr0]; exact hp.unpaged, by unfold State.AllMemory; rw [h.params]; exact hp.memory⟩

section
variable {s s1 s2 : State} {w : Width}

/-- INS once its port is permitted and its operand has passed its checks. -/
theorem ins_reads (hs : s.Inv) (hc : checkIo s.portDx (s.wsz w) s = .ok () s1)
    (h : s.portDx.toNat + (s.wsz w).bytes ≤ 65536)
    (ha : ∀ k, k < (s.wsz w).bytes → s.params.portAbsent (s.portDx.toNat + k) = false) (hp : s.Plain)
    (hseg : s.segOk .es s.dstOffset (s.wsz w).bytes true = true) :
    ∃ t v, exec (.ins w) s = .next t ∧
      Ends s t (s.regs.write s.asz .edi (s.dstOffset + s.stringStep (s.wsz w))) s.eflags
        { s with bus := (s.readCycles s.portDx (s.wsz w)).reverse ++ s.bus } ∧
      Stores s t (linearRange (s.linear .es s.dstOffset) (s.wsz w).bytes) (leBytes (s.wsz w).bytes v) ∧
      ∀ k b, k < (s.wsz w).bytes → portInput (s.portDx.toNat + k) s.ioInputs = some b → v.extractLsb' (8 * k) 8 = b := by
  have hq := quiet_checkIo hc
  have hb4 := bytes_le_four (s.wsz w)
  have hb1 := one_le_bytes (s.wsz w)
  obtain ⟨v, t, ht, he, hv⟩ := ioRead_ok (s := s1) h (by rw [hq.params]; exact ha)
  have hin : s1.ioInputs = s.ioInputs := putBack_congr hq.rest (·.ioInputs) fun _ _ => rfl
  have hcy : s1.readCycles s.portDx (s.wsz w) = s.readCycles s.portDx (s.wsz w) := by
    unfold State.readCycles; rw [hq.params]
  have hbus : t.bus = (s.readCycles s.portDx (s.wsz w)).reverse ++ s.bus := by
    have : s1.bus = s.bus := putBack_congr hq.rest (·.bus) fun _ _ => rfl
    rw [he, hcy, ← this]; rfl
  rw [hin] at hv
  have ht' : t = { s1 with bus := t.bus, draws := t.draws } := by rw [he]; rfl
  obtain ⟨u, hu, hue⟩ := storeFrom_unpaged (source := ioRead s.portDx (s.wsz w) >>= fun v =>
      pure (leBytes (s.wsz w).bytes v))
    (hq.plain hp) (by rw [hq.segOk]; exact hseg) hb1 (by omega) ((run_bind_ok ht).trans rfl) ht'
  have hm : insElement (s.wsz w) s = .ok () (u.advance (s.wsz w) .edi) :=
    (run_bind_ok hc).trans ((run_bind_ok hu).trans rfl)
  refine ⟨_, v, complete_ok hm, ends_retire ?_ ?_ ?_, ?_, hv⟩
  · have hasz : u.asz = s.asz := by rw [hue]; exact hq.asz
    have hdf : u.eflags.df = s.eflags.df := by rw [hue]; exact congrArg (·.df) hq.eflags
    rw [advance_regs hasz hdf, hue]
    show s1.regs.write s.asz .edi (s1.regs.read s.asz .edi + _) = _
    rw [hq.regs]; rfl
  · rw [hue]
    show ({ s1.eflags with rf := false } : Eflags) = _
    rw [hq.eflags]
  · rw [hue]
    show ({ s1.putBack s with bus := t.bus } : State) = _
    rw [hq.rest, hbus]
  · rw [← hq.linear]
    refine Stores.of_mem ?_ (stores_storePhys hq hs.mem (linearRange_nodup _ _ (by omega))
      (by rw [linearRange_length, leBytes_length]))
    rw [hue]
    rfl

theorem ins_stops (hc : checkIo s.portDx (s.wsz w) s = .ok () s1) (hp : s.Plain)
    (hseg : s.segOk .es s.dstOffset (s.wsz w).bytes true = true) :
    (s.portDx.toNat + (s.wsz w).bytes ≤ 65536 →
      (∃ k, k < (s.wsz w).bytes ∧ s.params.portAbsent (s.portDx.toNat + k) = true) →
      ∃ u, exec (.ins w) s = .fault (.noReady u)) ∧
    (65536 < s.portDx.toNat + (s.wsz w).bytes → ∃ u, exec (.ins w) s = .fault (.ioPastTop u)) := by
  have hq := quiet_checkIo hc
  have hb4 := bytes_le_four (s.wsz w)
  have stop : ∀ f : Fault, ioCycles s.portDx (s.wsz w).bytes (s1.readCycles s.portDx (s.wsz w)) s1 =
      .error (.fault f) s1 → exec (.ins w) s = .fault f := by
    intro f hf
    have hr : ioRead s.portDx (s.wsz w) s1 = .error (.fault f) s1 :=
      (run_bind_ok (run_get s1)).trans (run_bind_error hf)
    have hst := storeFrom_error (hq.plain hp) (by rw [hq.segOk]; exact hseg) (one_le_bytes (s.wsz w)) (by omega)
      (run_bind_error (f := fun v => (pure (leBytes (s.wsz w).bytes v) : M (List Byte))) hr)
    exact exec_fault (m := insElement (s.wsz w)) rfl ((run_bind_ok hc).trans (run_bind_error hst))
  refine ⟨fun h ha => ?_, fun h => ⟨s1, stop _ (ioCycles_pastTop _ h)⟩⟩
  rw [← hq.params] at ha
  obtain ⟨u, hu⟩ := ioCycles_absent (s1.readCycles s.portDx (s.wsz w)) h ha
  exact ⟨u, stop _ hu⟩

theorem outs_stops {a : Dword} (hc : checkIo s.portDx (s.wsz w) s = .ok () s1)
    (hr : memRead s.srcSeg s.srcOffset (s.wsz w) s1 = .ok a s2) :
    (s.portDx.toNat + (s.wsz w).bytes ≤ 65536 →
      (∃ k, k < (s.wsz w).bytes ∧ s.params.portAbsent (s.portDx.toNat + k) = true) →
      ∃ u, exec (.outs w) s = .fault (.noReady u)) ∧
    (65536 < s.portDx.toNat + (s.wsz w).bytes → ∃ u, exec (.outs w) s = .fault (.ioPastTop u)) := by
  have hq := (quiet_checkIo hc).trans (memRead_ok hr).2
  have stop : ∀ f : Fault, ioCycles s.portDx (s.wsz w).bytes (s2.writeCycles s.portDx (s.wsz w) a) s2 =
      .error (.fault f) s2 → exec (.outs w) s = .fault f := by
    intro f hf
    have hw : ioWrite s.portDx (s.wsz w) a s2 = .error (.fault f) s2 := (run_bind_ok (run_get s2)).trans hf
    exact exec_fault (m := outsElement (s.wsz w)) rfl
      ((run_bind_ok hc).trans ((run_bind_ok hr).trans (run_bind_error hw)))
  refine ⟨fun h ha => ?_, fun h => ⟨s2, stop _ (ioCycles_pastTop _ h)⟩⟩
  rw [← hq.params] at ha
  obtain ⟨u, hu⟩ := ioCycles_absent (s2.writeCycles s.portDx (s.wsz w) a) h ha
  exact ⟨u, stop _ hu⟩

theorem outs_writes {a : Dword} (hs : s.Inv) (hc : checkIo s.portDx (s.wsz w) s = .ok () s1)
    (h : s.portDx.toNat + (s.wsz w).bytes ≤ 65536)
    (ha : ∀ k, k < (s.wsz w).bytes → s.params.portAbsent (s.portDx.toNat + k) = false)
    (hr : memRead s.srcSeg s.srcOffset (s.wsz w) s1 = .ok a s2) :
    Gives (.outs w) s (s.regs.write s.asz .esi (s.srcOffset + s.stringStep (s.wsz w))) (fun _ => s.eflags)
      { s with bus := (s.writeCycles s.portDx (s.wsz w) a).reverse ++ s.bus } := by
  have hq := (quiet_checkIo hc).trans (memRead_ok hr).2
  have hcy : s2.writeCycles s.portDx (s.wsz w) a = s.writeCycles s.portDx (s.wsz w) a := by
    unfold State.writeCycles; rw [hq.params]
  have hbus : s2.bus = s.bus := putBack_congr hq.rest (·.bus) fun _ _ => rfl
  have hw := ioWrite_ok (s := s2) (port := s.portDx) (sz := s.wsz w) a h (by rw [hq.params]; exact ha)
  rw [hcy] at hw
  have hm : outsElement (s.wsz w) s = .ok () ((s2.logged (s.writeCycles s.portDx (s.wsz w) a)).advance (s.wsz w) .esi) :=
    (run_bind_ok hc).trans ((run_bind_ok hr).trans ((run_bind_ok hw).trans rfl))
  refine gives_of rfl hm ?_ ?_ ?_ (fun p => (hq.bytes hs.mem p).of_mem rfl rfl rfl rfl)
  · refine (advance_regs (s := s) (t := s2.logged (s.writeCycles s.portDx (s.wsz w) a))
      hq.asz (congrArg (·.df) hq.eflags) _ _).trans ?_
    show s2.regs.write s.asz .esi (s2.regs.read s.asz .esi + _) = _
    rw [hq.regs]; rfl
  · show ({ s2.eflags with rf := false } : Eflags) = _
    rw [hq.eflags]
  · show ({ s2.putBack s with bus := (s.writeCycles s.portDx (s.wsz w) a).reverse ++ s2.bus } : State) = _
    rw [hq.rest, hbus]

end

/-- Settles O38. -/
theorem stringInputOutput : Obligations.StringInputOutput := by
  unfold Obligations.StringInputOutput
  rintro s s1 s2 w sz port src dst step a hs rfl rfl rfl rfl rfl hc
  exact ⟨fun h ha => ⟨fun hp hseg => (ins_stops hc hp hseg).1 h ha, fun hr => (outs_stops hc hr).1 h ha⟩,
    fun h ha hp hseg => ins_reads hs hc h ha hp hseg, fun h ha hr => outs_writes hs hc h ha hr,
    fun h => ⟨fun hp hseg => (ins_stops hc hp hseg).2 h, fun hr => (outs_stops hc hr).2 h⟩⟩

/-! The repeated forms. -/

/-- RF and the interrupt inhibit are as they were. -/
def SameInhibit (s t : State) : Prop := t.eflags.rf = s.eflags.rf ∧ t.shadow = s.shadow

theorem SameInhibit.trans {s t u : State} (h : SameInhibit s t) (k : SameInhibit t u) : SameInhibit s u :=
  ⟨k.1.trans h.1, k.2.trans h.2⟩

theorem Quiet.inhibit {s t : State} (h : Quiet s t) : SameInhibit s t := ⟨congrArg (·.rf) h.eflags, h.shadow⟩

theorem Wrote.inhibit {s t : State} {sr : SReg} {off : Dword} {bs : List Byte} (h : Wrote s t sr off bs) :
    SameInhibit s t := ⟨congrArg (·.rf) h.eflags, h.shadow⟩

theorem ioCycles_eq_ok {s t : State} {port : Word} {n : Nat} {cs : List BusCycle} {a : Unit}
    (h : ioCycles port n cs s = .ok a t) : t = s.logged cs := by
  unfold ioCycles at h
  obtain ⟨_, s1, h1, h⟩ := run_bind_eq_ok.1 h
  cases h1
  split at h
  · cases h
  · split at h
    · cases h
    · cases h; rfl

theorem inhibit_ioRead {s t : State} {port : Word} {sz : Size} {v : Dword} (h : ioRead port sz s = .ok v t) :
    SameInhibit s t := by
  unfold ioRead at h
  obtain ⟨_, s1, h1, h⟩ := run_bind_eq_ok.1 h
  cases h1
  obtain ⟨_, s2, h2, h⟩ := run_bind_eq_ok.1 h
  obtain ⟨bs, s3, h3, h⟩ := run_bind_eq_ok.1 h
  cases h
  obtain ⟨bs', t', h4, -, he, -⟩ := inputBytes_ok port.toNat sz.bytes s2
  rw [h3] at h4
  cases h4
  rw [he, ioCycles_eq_ok h2]
  exact ⟨rfl, rfl⟩

theorem inhibit_storeFrom {s1 t : State} {sr : SReg} {off : Dword} {n : Nat} {source : M (List Byte)}
    (hsrc : ∀ s t bs, source s = .ok bs t → SameInhibit s t) {a : Unit} (h : storeFrom sr off n source s1 = .ok a t) :
    SameInhibit s1 t := by
  unfold storeFrom at h
  obtain ⟨_, s0, h1, k⟩ := run_bind_eq_ok.1 h
  obtain ⟨-, rfl⟩ := segCheck_eq_ok.1 h1
  obtain ⟨_, s2, h2, k⟩ := run_bind_eq_ok.1 k
  cases h2
  obtain ⟨as, s3, h3, k⟩ := run_bind_eq_ok.1 k
  obtain ⟨bs, s4, h4, k⟩ := run_bind_eq_ok.1 k
  obtain ⟨_, s5, h5, k⟩ := run_bind_eq_ok.1 k
  obtain ⟨v, hv, rfl⟩ := writePhys_ok k
  exact (quiet_physRange h3).inhibit.trans ((hsrc _ _ _ h4).trans ((quiet_noteAccess h5).trans hv).inhibit)

/-- An element leaves RF and the interrupt inhibit alone. -/
def KeepsInhibit (element : Size → M Unit) : Prop :=
  ∀ sz s t, element sz s = .ok () t → SameInhibit s t

theorem inhibit_movs : KeepsInhibit movsElement := by
  intro sz s t h
  unfold movsElement at h
  obtain ⟨_, s1, h1, h⟩ := run_bind_eq_ok.1 h
  cases h1
  obtain ⟨_, s2, h2, h⟩ := run_bind_eq_ok.1 h
  obtain ⟨_, s3, h3, h⟩ := run_bind_eq_ok.1 h
  cases h
  exact (memRead_ok h2).2.inhibit.trans (memWrite_ok h3).2.inhibit

theorem inhibit_stos : KeepsInhibit stosElement := by
  intro sz s t h
  unfold stosElement at h
  obtain ⟨_, s1, h1, h⟩ := run_bind_eq_ok.1 h
  cases h1
  obtain ⟨_, s2, h2, h⟩ := run_bind_eq_ok.1 h
  cases h
  exact (memWrite_ok h2).2.inhibit

theorem inhibit_lods : KeepsInhibit lodsElement := by
  intro sz s t h
  unfold lodsElement at h
  obtain ⟨_, s1, h1, h⟩ := run_bind_eq_ok.1 h
  cases h1
  obtain ⟨_, s2, h2, h⟩ := run_bind_eq_ok.1 h
  cases h
  exact (memRead_ok h2).2.inhibit

theorem inhibit_ins : KeepsInhibit insElement := by
  intro sz s t h
  unfold insElement at h
  obtain ⟨_, s1, h1, h⟩ := run_bind_eq_ok.1 h
  cases h1
  obtain ⟨_, s2, h2, h⟩ := run_bind_eq_ok.1 h
  obtain ⟨_, s3, h3, h⟩ := run_bind_eq_ok.1 h
  cases h
  refine (quiet_checkIo h2).inhibit.trans (SameInhibit.trans (t := s3) (inhibit_storeFrom (fun s t bs k => ?_) h3) ⟨rfl, rfl⟩)
  obtain ⟨v, u, k1, k⟩ := run_bind_eq_ok.1 k
  cases k
  exact inhibit_ioRead k1

theorem inhibit_outs : KeepsInhibit outsElement := by
  intro sz s t h
  unfold outsElement at h
  obtain ⟨_, s1, h1, h⟩ := run_bind_eq_ok.1 h
  cases h1
  obtain ⟨_, s2, h2, h⟩ := run_bind_eq_ok.1 h
  obtain ⟨_, s3, h3, h⟩ := run_bind_eq_ok.1 h
  obtain ⟨_, s4, h4, h⟩ := run_bind_eq_ok.1 h
  cases h
  have h5 : SameInhibit s3 s4 := by
    unfold ioWrite at h4
    obtain ⟨_, s5, h5, h4⟩ := run_bind_eq_ok.1 h4
    cases h5
    rw [ioCycles_eq_ok h4]
    exact ⟨rfl, rfl⟩
  exact ((quiet_checkIo h2).trans (memRead_ok h3).2).inhibit.trans h5

theorem inhibit_cmps : KeepsInhibit cmpsElement := by
  intro sz s t h
  unfold cmpsElement at h
  obtain ⟨_, s1, h1, h⟩ := run_bind_eq_ok.1 h
  cases h1
  obtain ⟨_, s2, h2, h⟩ := run_bind_eq_ok.1 h
  obtain ⟨_, s3, h3, h⟩ := run_bind_eq_ok.1 h
  cases h
  exact ((memRead_ok h2).2.trans (memRead_ok h3).2).inhibit

theorem inhibit_scas : KeepsInhibit scasElement := by
  intro sz s t h
  unfold scasElement at h
  obtain ⟨_, s1, h1, h⟩ := run_bind_eq_ok.1 h
  cases h1
  obtain ⟨_, s2, h2, h⟩ := run_bind_eq_ok.1 h
  cases h
  exact (memRead_ok h2).2.inhibit

theorem iteration_over {s : State} {stop : Eflags → Bool} {element : M Unit} (h : s.repCount = 0) :
    iteration stop element s = .ok true s := by
  unfold iteration
  rw [run_bind_ok (run_get s), if_pos h]
  rfl

theorem iteration_ok {s s1 : State} {stop : Eflags → Bool} {element : M Unit} (h : s.repCount ≠ 0)
    (he : element s = .ok () s1) :
    iteration stop element s =
      .ok (s.repCount == 1 || stop s1.eflags) (s1.setReg s.asz .ecx (s.repCount - 1)) := by
  unfold iteration
  rw [run_bind_ok (run_get s), if_neg h]
  exact (run_bind_ok he).trans rfl

theorem iteration_error {s s1 : State} {stop : Eflags → Bool} {element : M Unit} {e : Stop} (h : s.repCount ≠ 0)
    (he : element s = .error e s1) : iteration stop element s = .error e s1 := by
  unfold iteration
  rw [run_bind_ok (run_get s), if_neg h]
  exact run_bind_error he

/-- A repeated instruction, the unrepeated one, the element of both and when it stops. -/
structure RepForm (rep once : Width → Instr) (element : Size → M Unit) (stop : Eflags → Bool) : Prop where
  rep : ∀ w s, exec (rep w) s = repeated (rep w) stop (element (s.wsz w)) s
  once : ∀ w s, exec (once w) s = complete (element (s.wsz w)) s
  keeps : KeepsInhibit element

/-- The state that an iteration leaves, `t` being what the unrepeated instruction leaves. -/
def State.afterIteration (s t : State) (i : Instr) (done : Bool) : State :=
  if done then { t with regs := t.regs.write s.asz .ecx (s.reg s.asz .ecx - 1) }
  else { t with
    regs := t.regs.write s.asz .ecx (s.reg s.asz .ecx - 1)
    eip := s.instrEip
    eipOver := false
    eflags := { t.eflags with rf := s.eflags.rf }
    shadow := s.shadow
    pfx := { s.pfx with count := 0, again := some { instr := i, next := s.eip, nextOver := s.eipOver } } }

theorem retireRepeat_eq {s s1 : State} (i : Instr) (done : Bool) (h : SameInhibit s s1) :
    State.retireRepeat i done s (s1.setReg s.asz .ecx (s.repCount - 1)) =
      s.afterIteration (s.retire s1) i done := by
  cases done
  · obtain ⟨hrf, hsh⟩ := h
    show s.retireIteration i _ = _
    unfold State.afterIteration
    rw [← hrf, ← hsh]
    rfl
  · rfl

theorem RepForm.settle {rep once : Width → Instr} {element : Size → M Unit} {stop : Eflags → Bool}
    (f : RepForm rep once element stop) {s s1 : State} {w : Width} {e : Exn} {k : Keep} {done : Bool} :
    (s.reg s.asz .ecx = 0 → Gives (rep w) s s.regs (fun _ => s.eflags) s) ∧
      (s.reg s.asz .ecx ≠ 0 → element (s.wsz w) s = .ok () s1 →
        done = (s.reg s.asz .ecx == 1 || stop s1.eflags) →
        ∃ t u, exec (once w) s = .next t ∧ exec (rep w) s = .next u ∧
          (done = true → u = { t with regs := t.regs.write s.asz .ecx (s.reg s.asz .ecx - 1) }) ∧
          (done = false → u = { t with
            regs := t.regs.write s.asz .ecx (s.reg s.asz .ecx - 1)
            eip := s.instrEip
            eipOver := false
            eflags := { t.eflags with rf := s.eflags.rf }
            shadow := s.shadow
            pfx := { s.pfx with count := 0, again := some { instr := rep w, next := s.eip, nextOver := s.eipOver } } })) ∧
      (s.reg s.asz .ecx ≠ 0 → element (s.wsz w) s = .error (.exn e k) s1 → exec (rep w) s = exec (once w) s) := by
  refine ⟨fun h0 => ?zero, fun h0 he hd => ?ok, fun h0 he => ?error⟩
  case zero =>
    refine ⟨s.retire s, ?_, ends_retire rfl rfl rfl, fun p => .inl rfl⟩
    rw [f.rep]
    exact finish_ok (iteration_over h0)
  case ok =>
    have hrep : exec (rep w) s = .next (s.afterIteration (s.retire s1) (rep w) done) := by
      rw [f.rep, ← retireRepeat_eq (rep w) done (f.keeps _ _ _ he), hd]
      exact finish_ok (iteration_ok h0 he)
    refine ⟨_, _, by rw [f.once]; exact complete_ok he, hrep, ?_, ?_⟩
    · rintro rfl; rfl
    · rintro rfl; rfl
  case error =>
    rw [f.rep, f.once, complete_exn he]
    exact finish_exn (iteration_error h0 he)

/-- Settles O39. -/
theorem repeatedStrings : Obligations.RepeatedStrings := by
  unfold Obligations.RepeatedStrings
  intro s s1 w e k done _
  simp only [List.forall_mem_cons]
  have repMovsF2 : RepForm .repMovsF2 .movs movsElement never := ⟨fun _ _ => rfl, fun _ _ => rfl, inhibit_movs⟩
  have repMovsF3 : RepForm .repMovsF3 .movs movsElement never := ⟨fun _ _ => rfl, fun _ _ => rfl, inhibit_movs⟩
  have repStosF2 : RepForm .repStosF2 .stos stosElement never := ⟨fun _ _ => rfl, fun _ _ => rfl, inhibit_stos⟩
  have repStosF3 : RepForm .repStosF3 .stos stosElement never := ⟨fun _ _ => rfl, fun _ _ => rfl, inhibit_stos⟩
  have repLodsF2 : RepForm .repLodsF2 .lods lodsElement never := ⟨fun _ _ => rfl, fun _ _ => rfl, inhibit_lods⟩
  have repLodsF3 : RepForm .repLodsF3 .lods lodsElement never := ⟨fun _ _ => rfl, fun _ _ => rfl, inhibit_lods⟩
  have repInsF2 : RepForm .repInsF2 .ins insElement never := ⟨fun _ _ => rfl, fun _ _ => rfl, inhibit_ins⟩
  have repInsF3 : RepForm .repInsF3 .ins insElement never := ⟨fun _ _ => rfl, fun _ _ => rfl, inhibit_ins⟩
  have repOutsF2 : RepForm .repOutsF2 .outs outsElement never := ⟨fun _ _ => rfl, fun _ _ => rfl, inhibit_outs⟩
  have repOutsF3 : RepForm .repOutsF3 .outs outsElement never := ⟨fun _ _ => rfl, fun _ _ => rfl, inhibit_outs⟩
  have repeCmps : RepForm .repeCmps .cmps cmpsElement untilUnequal := ⟨fun _ _ => rfl, fun _ _ => rfl, inhibit_cmps⟩
  have repneCmps : RepForm .repneCmps .cmps cmpsElement untilEqual := ⟨fun _ _ => rfl, fun _ _ => rfl, inhibit_cmps⟩
  have repeScas : RepForm .repeScas .scas scasElement untilUnequal := ⟨fun _ _ => rfl, fun _ _ => rfl, inhibit_scas⟩
  have repneScas : RepForm .repneScas .scas scasElement untilEqual := ⟨fun _ _ => rfl, fun _ _ => rfl, inhibit_scas⟩
  exact ⟨repMovsF2.settle, repMovsF3.settle, repStosF2.settle, repStosF3.settle, repLodsF2.settle, repLodsF3.settle,
    repInsF2.settle, repInsF3.settle, repOutsF2.settle, repOutsF3.settle, repeCmps.settle, repneCmps.settle,
    repeScas.settle, repneScas.settle, fun _ h => nomatch h⟩

end Sys2Proof.Machine
end

section
/-! O40 and O41: the bit instructions. -/

namespace Sys2Proof.Machine

/-! BT, BTS, BTR and BTC. -/

theorem bitFlags_ok (cf : Bool) (s : State) :
    ∃ t, bitFlags cf s = .ok () t ∧ t.putBack s = s ∧ t.mem = s.mem ∧ t.regs = s.regs ∧
      t.eflags = { s.eflags.arithmeticOf t.eflags with cf := cf } := ⟨_, rfl, rfl, rfl, rfl, rfl⟩

theorem setBit_set (v : Dword) (n : Nat) : setBit v n true = v ||| (1#32 <<< n) := rfl

theorem setBit_clear (v : Dword) (n : Nat) : setBit v n false = v &&& ~~~(1#32 <<< n) := rfl

theorem one_shl_bit (n i : Nat) : (1#32 <<< n).getLsbD i = (decide (i < 32) && decide (i = n)) := by
  rw [BitVec.getLsbD_shiftLeft, BitVec.getLsbD_one]
  by_cases h : i = n
  · simp [h]
  · by_cases h1 : i < n
    · simp [h, h1]
    · have : i - n ≠ 0 := by omega
      simp [h, this]

theorem setBit_bit (v : Dword) (n i : Nat) (b : Bool) :
    (setBit v n b).getLsbD i = if i = n ∧ i < 32 then b else v.getLsbD i := by
  have hout : ¬ i < 32 → v.getLsbD i = false := fun h => BitVec.getLsbD_of_ge v i (Nat.not_lt.1 h)
  by_cases h : i < 32
  · by_cases hn : i = n
    · rw [if_pos ⟨hn, h⟩]
      cases b
      · rw [setBit_clear, BitVec.getLsbD_and, BitVec.getLsbD_not, one_shl_bit]
        simp [hn]
      · rw [setBit_set, BitVec.getLsbD_or, one_shl_bit]
        simp [← hn, h]
    · rw [if_neg fun hc => hn hc.1]
      cases b
      · rw [setBit_clear, BitVec.getLsbD_and, BitVec.getLsbD_not, one_shl_bit]
        simp [h, hn, -BitVec.getLsbD_eq_getElem]
      · rw [setBit_set, BitVec.getLsbD_or, one_shl_bit]
        simp [hn]
  · rw [if_neg fun hc => h hc.2, hout h]
    exact BitVec.getLsbD_of_ge _ i (Nat.not_lt.1 h)

theorem setBit_complement (v : Dword) (n : Nat) : setBit v n (!v.getLsbD n) = v ^^^ (1#32 <<< n) := by
  apply BitVec.eq_of_getLsbD_eq
  intro i hi
  rw [setBit_bit, BitVec.getLsbD_xor, one_shl_bit]
  by_cases h : i = n
  · subst h; simp [hi, -BitVec.getLsbD_eq_getElem]
  · simp [h]

section
variable {i : Instr} {m : M Unit} {s s1 s2 s3 : State} {sz : Size} {l : Loc} {n : Nat} {v : Dword}

theorem testBit_gives (hs : s.Inv) (hi : exec i s = complete m s) (hm : m s = testBit sz l n s1) (hq : Quiet s s1)
    (hr : readLoc sz l s1 = .ok v s2) :
    Gives i s s.regs (fun u => { s.eflags.arithmeticOf u with cf := v.getLsbD n }) s := by
  obtain ⟨t, ht, hb, hmem, hregs, hfl⟩ := bitFlags_ok (v.getLsbD n) s2
  have hq2 := hq.trans (quiet_readLoc hr)
  refine gives_of_quiet hi hs (hm.trans ((run_bind_ok hr).trans ht)) hq2 hb hmem (hregs.trans hq2.regs) ?_
  conv_lhs => rw [hfl, hq2.eflags]
  rfl

theorem changeBit_puts {f : Bool → Bool} {r : Dword} (hs : s.Inv) (hi : exec i s = complete m s)
    (hm : m s = changeBit f sz l n s1) (hq : Quiet s s1) (hr : readLoc sz l s1 = .ok v s2)
    (hf : setBit v n (f (v.getLsbD n)) = r) (hw : writeLoc sz l r s2 = .ok () s3) :
    Puts i s s2 l sz r fun u => { s.eflags.arithmeticOf u with cf := v.getLsbD n } := by
  obtain ⟨t, ht, hb, hmem, hregs, hfl⟩ := bitFlags_ok (v.getLsbD n) s3
  have hq2 := hq.trans (quiet_readLoc hr)
  subst hf
  refine puts_of_write (t := t) hi hs
    (hm.trans ((run_bind_ok (readToUpdate_ok hr hw)).trans ((run_bind_ok hw).trans ht))) hq2 hw hb hmem hregs ?_
  conv_lhs => rw [hfl, writeLoc_flags hw, hq2.eflags]
  rfl

end

/-- Four instructions that test a bit, and change it. -/
structure BitForms (s s1 : State) (sz : Size) (l : Loc) (n : Nat) (bt bts btr btc : Instr)
    (form : (Size → Loc → Nat → M Unit) → M Unit) : Prop where
  bt : exec bt s = complete (form testBit) s
  bts : exec bts s = complete (form (changeBit fun _ => true)) s
  btr : exec btr s = complete (form (changeBit fun _ => false)) s
  btc : exec btc s = complete (form (changeBit not)) s
  found : ∀ k, form k s = k sz l n s1

theorem BitForms.settle {s s1 s2 s3 : State} {sz : Size} {l : Loc} {n : Nat} {bt bts btr btc : Instr}
    {form : (Size → Loc → Nat → M Unit) → M Unit} {v : Dword} (h : BitForms s s1 sz l n bt bts btr btc form)
    (hs : s.Inv) (hq : Quiet s s1) (hr : readLoc sz l s1 = .ok v s2) :
    Gives bt s s.regs (fun u => { s.eflags.arithmeticOf u with cf := v.getLsbD n }) s ∧
      (writeLoc sz l (v ||| (1#32 <<< n)) s2 = .ok () s3 →
        Puts bts s s2 l sz (v ||| (1#32 <<< n)) fun u => { s.eflags.arithmeticOf u with cf := v.getLsbD n }) ∧
      (writeLoc sz l (v &&& ~~~(1#32 <<< n)) s2 = .ok () s3 →
        Puts btr s s2 l sz (v &&& ~~~(1#32 <<< n)) fun u => { s.eflags.arithmeticOf u with cf := v.getLsbD n }) ∧
      (writeLoc sz l (v ^^^ (1#32 <<< n)) s2 = .ok () s3 →
        Puts btc s s2 l sz (v ^^^ (1#32 <<< n)) fun u => { s.eflags.arithmeticOf u with cf := v.getLsbD n }) :=
  ⟨testBit_gives hs h.bt (h.found _) hq hr, changeBit_puts hs h.bts (h.found _) hq hr (setBit_set v n),
    changeBit_puts hs h.btr (h.found _) hq hr (setBit_clear v n),
    changeBit_puts hs h.btc (h.found _) hq hr (setBit_complement v n)⟩

theorem imm_place (b : BitVec 8) (n : Nat) : ((b.toNat : Int) % (n : Int)).toNat = b.toNat % n := by
  rw [← Int.natCast_emod, Int.toNat_natCast]

/-! BSF and BSR. -/

theorem lowestBit_eq {m n : Nat} {v : Dword} (hn : n < m) (h1 : v.getLsbD n = true)
    (h0 : ∀ j, j < n → v.getLsbD j = false) : lowestBit m v = n := by
  induction m generalizing n v with
  | zero => omega
  | succ m ih =>
    rw [lowestBit]
    cases n with
    | zero => rw [if_pos h1]
    | succ n =>
      rw [if_neg (by rw [h0 0 (by omega)]; simp)]
      congr 1
      refine ih (by omega) ?_ fun j hj => ?_
      · rw [BitVec.getLsbD_ushiftRight, Nat.add_comm]; exact h1
      · rw [BitVec.getLsbD_ushiftRight, Nat.add_comm]; exact h0 _ (by omega)

theorem highestBit_eq {m n : Nat} {v : Dword} (hn : n < m) (h1 : v.getLsbD n = true)
    (h0 : ∀ j, n < j → v.getLsbD j = false) : highestBit m v = n := by
  induction m with
  | zero => omega
  | succ m ih =>
    rw [highestBit]
    by_cases h : n = m
    · rw [← h, if_pos h1]
    · rw [if_neg (by rw [h0 m (by omega)]; simp)]
      exact ih (by omega)

/-- The flags of a scan. -/
def scanFlags (zf : Bool) : M Unit := do
  undefinedFlags
  modify fun s => s.setFlags { s.eflags with zf := zf }

theorem scanFlags_ok (zf : Bool) (s : State) :
    ∃ t, scanFlags zf s = .ok () t ∧ t.putBack s = s ∧ t.mem = s.mem ∧ t.regs = s.regs ∧
      t.eflags = { s.eflags.arithmeticOf t.eflags with zf := zf } := ⟨_, rfl, rfl, rfl, rfl, rfl⟩

theorem scanBits_found {index : Nat → Dword → Nat} {reg : Reg} {rm : RM} {s s1 : State} {v : Dword}
    (hr : readRm s.osz rm s = .ok v s1) (h0 : v ≠ 0) :
    scanBits index reg rm s =
      scanFlags false (s1.setReg s.osz reg (BitVec.ofNat 32 (index s.osz.bits v))) := by
  have hz : (v == 0) = false := beq_eq_false_iff_ne.2 h0
  unfold scanBits
  rw [run_bind_ok (run_get s)]
  refine (run_bind_ok hr).trans ?_
  rw [if_neg h0, hz]
  rfl

theorem scanBits_gives {i : Instr} {index : Nat → Dword → Nat} {reg : Reg} {rm : RM} {s s1 : State} {v : Dword} {n : Nat}
    (hs : s.Inv) (hi : exec i s = complete (scanBits index reg rm) s) (hr : readRm s.osz rm s = .ok v s1) (h0 : v ≠ 0)
    (hn : index s.osz.bits v = n) :
    Gives i s (s.regs.write s.osz reg (BitVec.ofNat 32 n)) (fun u => { s.eflags.arithmeticOf u with zf := false }) s := by
  have hq := quiet_readRm hr
  obtain ⟨t, ht, hb, hmem, hregs, hfl⟩ := scanFlags_ok false (s1.setReg s.osz reg (BitVec.ofNat 32 n))
  have hset : (s1.setReg s.osz reg (BitVec.ofNat 32 n)).putBack s1 = s1 := rfl
  subst hn
  refine gives_of_quiet hi hs ((scanBits_found hr h0).trans ht) hq (putBack_trans hset hb) hmem ?_ ?_
  · rw [hregs, State.setReg_regs, hq.regs]
  · conv_lhs => rw [hfl, State.setReg_eflags, hq.eflags]
    rfl

theorem scanBits_zero {i : Instr} {index : Nat → Dword → Nat} {reg : Reg} {rm : RM} {s s1 : State}
    (hs : s.Inv) (hi : exec i s = complete (scanBits index reg rm) s) (hr : readRm s.osz rm s = .ok 0 s1) :
    ∃ t, exec i s = .next t ∧
      Ends s t (s.regs.write s.osz reg (t.reg s.osz reg)) { s.eflags.arithmeticOf t.eflags with zf := true } s ∧
      NoStore s t := by
  have hq := quiet_readRm hr
  obtain ⟨t, ht, hb, hmem, hregs, hfl⟩ := scanFlags_ok true
    (({ s1 with draws := s1.draws + 1 } : State).setReg s.osz reg (trunc s.osz (Config.freeDword s1.draws)))
  have hset : (({ s1 with draws := s1.draws + 1 } : State).setReg s.osz reg
    (trunc s.osz (Config.freeDword s1.draws))).putBack s1 = s1 := rfl
  have hm : scanBits index reg rm s = .ok () t := by
    unfold scanBits
    rw [run_bind_ok (run_get s)]
    exact (run_bind_ok hr).trans ht
  have hreg : t.regs = s.regs.write s.osz reg (trunc s.osz (Config.freeDword s1.draws)) := by
    rw [hregs, State.setReg_regs]
    show s1.regs.write _ _ _ = _
    rw [hq.regs]
  refine ⟨_, hi.trans (complete_ok hm), ends_retire ?_ ?_ (hq.putBack (putBack_trans hset hb)),
    fun p => (hq.bytes hs.mem p).of_mem rfl hmem rfl rfl⟩
  · show t.regs = s.regs.write s.osz reg (t.regs.read s.osz reg)
    rw [hreg, Regs.read_write_same (osz_cases s), trunc_idem]
  · conv_lhs => rw [hfl, State.setReg_eflags]
    show _ = ({ s.eflags.arithmeticOf t.eflags with zf := true, rf := false } : Eflags)
    rw [← hq.eflags]

/-- A bit that is 1 lies below the size. -/
theorem bit_place_lt {n m : Nat} {v : Dword} (hv : v.toNat < 2 ^ m) (h : v.getLsbD n = true) : n < m := by
  by_contra hn
  rw [bit_of_lt hv (Nat.not_lt.1 hn)] at h
  cases h

/-- Settles O40. -/
theorem bitTestAndScan : Obligations.BitTestAndScan := by
  unfold Obligations.BitTestAndScan
  refine ⟨?test, ?scan⟩
  case test =>
    rintro s s1 s2 s3 rm reg imm l l' v sz n o hs rfl hl
    simp only [List.forall_mem_cons]
    refine ⟨fun ho hn hl' hr => ?_, fun ho hn hl' hr => ?_, fun _ h => nomatch h⟩
    · have forms : BitForms s s1 s.osz l (imm.toNat % s.osz.bits) (.btImm rm imm) (.btsImm rm imm) (.btrImm rm imm)
          (.btcImm rm imm) (bitImm rm imm) := ⟨rfl, rfl, rfl, rfl, fun k => run_bind_ok hl⟩
      have he : l' = l := hl'
      subst he ho
      rw [imm_place] at hn
      subst hn
      exact forms.settle hs (quiet_resolve hl) hr
    · have forms : BitForms s s1 s.osz (bitUnit s.osz s.asz l (signedVal s.osz (s.reg s.osz reg)))
          (bitPlace s.osz (signedVal s.osz (s.reg s.osz reg))) (.btReg reg rm) (.btsReg reg rm) (.btrReg reg rm)
          (.btcReg reg rm) (bitReg reg rm) := ⟨rfl, rfl, rfl, rfl, fun k => run_bind_ok hl⟩
      have hu : l' = bitUnit s.osz s.asz l o := by
        rw [hl']
        cases l <;> rfl
      subst hu ho hn
      exact forms.settle hs (quiet_resolve hl) hr
  case scan =>
    intro s s1 rm reg v n hs hr
    refine ⟨fun h0 h1 => ?_, ?_⟩
    · have hlt := bit_place_lt (readRm_lt hr) h1
      exact ⟨fun hlow => scanBits_gives hs rfl hr h0 (lowestBit_eq hlt h1 hlow),
        fun hhigh => scanBits_gives hs rfl hr h0 (highestBit_eq hlt h1 hhigh)⟩
    · rintro rfl i (rfl | rfl)
      · exact scanBits_zero hs rfl hr
      · exact scanBits_zero hs rfl hr

end Sys2Proof.Machine
end

section
/-! O41: the bit strings of IBTS and XBTS. -/

namespace Sys2Proof.Machine

/-! Bits of a string. -/

theorem leDword_one (b : Byte) : leDword [b] = b.setWidth 32 := by
  apply BitVec.eq_of_toNat_eq
  simp [leDword, leNat]

theorem wide_byte_bit (b : Byte) {k : Nat} (hk : k < 8) : (b.setWidth 32 : Dword).getLsbD k = b.getLsbD k := by
  have : k < 32 := by omega
  rw [BitVec.getLsbD_setWidth]
  simp [this, -BitVec.getLsbD_eq_getElem]

theorem place_lt (o : Int) : (o % 8).toNat < 8 := by omega

theorem mask_bit (n j : Nat) : (BitVec.ofNat 32 (2 ^ n - 1)).getLsbD j = (decide (j < 32) && decide (j < n)) := by
  rw [BitVec.getLsbD_ofNat, Nat.testBit_two_pow_sub_one]

theorem shl_one_or_bit (v : Dword) (b : Bool) {j : Nat} (hj : j < 32) :
    ((v <<< 1) ||| bitAt b 0).getLsbD j = if j = 0 then b else v.getLsbD (j - 1) := by
  rw [BitVec.getLsbD_or, BitVec.getLsbD_shiftLeft, bitAt_bit]
  cases j with
  | zero => simp
  | succ j => simp [hj, -BitVec.getLsbD_eq_getElem]

/-- A string that is read bit by bit, where each read gives the bit that `bit` says. -/
theorem extractString_ok {sz asz : Size} {l : Loc} {s : State} {bit : Int → Bool} {n : Nat} :
    ∀ {o : Int} {t : State}, Quiet s t →
    (∀ j, j < n → ∀ t, Quiet s t → ∃ u, readStringBit sz asz l (o + j) t = .ok (bit (o + j)) u ∧ Quiet s u) →
    ∃ v u, extractString sz asz l o n t = .ok v u ∧ Quiet s u ∧
      ∀ j, j < 32 → v.getLsbD j = (decide (j < n) && bit (o + j)) := by
  induction n with
  | zero => exact fun {o t} h _ => ⟨0, t, rfl, h, fun j _ => by simp⟩
  | succ n ih =>
    intro o t h hbits
    obtain ⟨u, hu, hq⟩ := hbits 0 (by omega) t h
    rw [Int.natCast_zero, Int.add_zero] at hu
    have hnext : ∀ j : Nat, o + 1 + (j : Int) = o + ((j + 1 : Nat) : Int) := fun j => by push_cast; omega
    obtain ⟨rest, u2, hu2, hq2, hrest⟩ := ih (o := o + 1) hq fun j hj => by rw [hnext]; exact hbits (j + 1) (by omega)
    refine ⟨_, u2, (run_bind_ok hu).trans ((run_bind_ok hu2).trans rfl), hq2, fun j hj => ?_⟩
    rw [shl_one_or_bit _ _ hj]
    cases j with
    | zero => simp
    | succ j =>
      rw [if_neg (by omega), Nat.add_sub_cancel, hrest j (by omega), hnext]
      simp

/-- A bit in memory, with paging off. -/
theorem readStringBit_mem {sz asz : Size} {sr : SReg} {off : Dword} {o : Int} {s t : State} (hw : Memory.wf s.mem = true)
    (hp : s.Plain) (h : Quiet s t) (hc : s.segOk sr (stringByte asz off o) 1 false = true) :
    ∃ u, readStringBit sz asz (.mem sr off) o t =
      .ok ((s.readByte (s.linear sr (stringByte asz off o))).getLsbD (o % 8).toNat) u ∧ Quiet s u := by
  obtain ⟨u, hu, -⟩ := memRead_unpaged (h.plain hp) (sz := .b8) (by rw [h.segOk]; exact hc)
  refine ⟨u, (run_bind_ok hu).trans ?_, h.trans (memRead_ok hu).2⟩
  have hb : t.readByte (s.linear sr (stringByte asz off o)) = s.readByte (s.linear sr (stringByte asz off o)) :=
    (h.bytes hw _).eq hp.unpaged
  show EStateM.Result.ok ((leDword [t.readByte (t.linear sr (stringByte asz off o))]).getLsbD (o % 8).toNat) u = _
  rw [leDword_one, wide_byte_bit _ (place_lt o), h.linear, hb]

/-- A bit in a register. -/
theorem readStringBit_reg {sz asz : Size} {r : Reg} {o : Nat} {s t : State} (h : Quiet s t) (ho : o < sz.bits) :
    ∃ u, readStringBit sz asz (.reg r) o t = .ok ((s.reg sz r).getLsbD o) u ∧ Quiet s u := by
  have hreg : t.reg sz r = s.reg sz r := by unfold State.reg; rw [h.regs]
  have hlt : ((o : Int) < (sz.bits : Int)) := by exact_mod_cast ho
  refine ⟨{ t with draws := t.draws + 1 }, ?_, h.trans (quiet_draws t _)⟩
  show EStateM.Result.ok (if (o : Int) < (sz.bits : Int) then (t.reg sz r).getLsbD (o : Int).toNat else _) _ = _
  rw [if_pos hlt, hreg, Int.toNat_natCast]

/-! XBTS. -/

theorem xbts_gives {s s1 s2 : State} {reg : Reg} {rm : RM} {l : Loc} {v : Dword} (hs : s.Inv)
    (hp : s.params.hasIbtsXbts = true) (hl : resolve rm s = .ok l s1)
    (hv : extractString s.osz s.asz l (s.stringStart l) s.cl s1 = .ok v s2) (hq : Quiet s s2) :
    Gives (.xbts reg rm) s (s.regs.write s.osz reg
        (if s.osz.bits < s.cl then trunc s.osz (Config.freeDword s2.draws) else v)) (fun u => s.eflags.arithmeticOf u) s := by
  let w : Dword := if s.osz.bits < s.cl then trunc s.osz (Config.freeDword s2.draws) else v
  obtain ⟨t, ht, hb, hmem, hregs, hfl⟩ := undefinedFlags_ok (({ s2 with draws := s2.draws + 1 } : State).setReg s.osz reg w)
  have hset : (({ s2 with draws := s2.draws + 1 } : State).setReg s.osz reg w).putBack s2 = s2 := rfl
  refine gives_of_quiet (t := t) rfl hs ?_ hq (putBack_trans hset hb) hmem ?_ ?_
  · refine (run_bind_ok (raiseIf_of_false s (by rw [hp]; rfl))).trans ?_
    exact (run_bind_ok hl).trans ((run_bind_ok hv).trans ht)
  · rw [hregs, State.setReg_regs]
    show s2.regs.write _ _ w = _
    rw [hq.regs]
  · conv_lhs => rw [hfl, State.setReg_eflags]
    show ({ s2.eflags.arithmeticOf t.eflags with rf := false } : Eflags) = _
    rw [hq.eflags]
    rfl

/-! IBTS. -/

/-- Bit `o` of a string in memory: where it lies. -/
def State.stringPlace (s : State) (asz : Size) (sr : SReg) (off : Dword) (o : Int) : Dword × Nat :=
  (s.linear sr (stringByte asz off o), (o % 8).toNat)

/-- Bits of a string that are less than 33 apart lie at different places. -/
theorem stringPlace_ne (s : State) {asz : Size} (ha : asz = .b16 ∨ asz = .b32) (sr : SReg) (off : Dword) (o : Int) {d : Nat}
    (h1 : 1 ≤ d) (h2 : d ≤ 32) : s.stringPlace asz sr off (o + d) ≠ s.stringPlace asz sr off o := by
  intro he
  obtain ⟨hlin, hplace⟩ := Prod.mk.inj he
  have hmod : (o + d) % 8 = o % 8 := by omega
  have hdiv : ∃ e : Nat, 1 ≤ e ∧ e ≤ 4 ∧ (o + d) / 8 = o / 8 + e := ⟨d / 8, by omega, by omega, by omega⟩
  obtain ⟨e, he1, he4, hdiv⟩ := hdiv
  have hbyte : stringByte asz off (o + d) = stringByte asz off o := by
    unfold State.linear at hlin
    exact (BitVec.add_right_inj _).1 hlin
  unfold stringByte at hbyte
  rw [hdiv] at hbyte
  have hint := ofInt_toNat (o / 8)
  have hint2 := ofInt_toNat (o / 8 + e)
  have hnat := congrArg BitVec.toNat hbyte
  rw [trunc_toNat, trunc_toNat, BitVec.toNat_add, BitVec.toNat_add] at hnat
  rcases ha with rfl | rfl <;> simp only [Size.bits] at hnat <;> omega

/-- What the bits written one by one to memory may change. -/
structure Restrung (s t : State) : Prop where
  rest : t = { s with mem := t.mem, stale := t.stale, pendingDb := t.pendingDb, draws := t.draws }
  wf : Memory.wf t.mem = true

theorem Restrung.trans {s t u : State} (h : Restrung s t) (k : Restrung t u) : Restrung s u :=
  ⟨by rw [k.rest, h.rest], k.wf⟩

theorem Restrung.seg {s t : State} (h : Restrung s t) (sr : SReg) : t.seg sr = s.seg sr := by
  rw [h.rest]; cases sr <;> rfl

theorem Restrung.segOk {s t : State} (h : Restrung s t) (sr : SReg) (off : Dword) (n : Nat) (w : Bool) :
    t.segOk sr off n w = s.segOk sr off n w := by
  have hcr : t.cr0 = s.cr0 := by rw [h.rest]
  unfold State.segOk; rw [h.seg, hcr]

theorem Restrung.plain {s t : State} (h : Restrung s t) (hp : s.Plain) : t.Plain := by rw [h.rest]; exact hp

theorem Restrung.isFixed {s t : State} (h : Restrung s t) (a : Nat) : t.isFixed a = s.isFixed a := by rw [h.rest]; rfl

theorem Restrung.place {s t : State} (h : Restrung s t) (asz : Size) (sr : SReg) (off : Dword) (o : Int) :
    t.stringPlace asz sr off o = s.stringPlace asz sr off o := by
  unfold State.stringPlace State.linear; rw [h.seg]

/-- Bit `k` of physical byte `p`. -/
def State.memBit (s : State) (q : Dword × Nat) : Bool := (s.readByte q.1).getLsbD q.2

/-- A byte is stored with paging off. -/
theorem memWrite_byte {s : State} (hw : Memory.wf s.mem = true) (hp : s.Plain) {sr : SReg} {off : Dword} (v : Dword)
    (hc : s.segOk sr off 1 true = true) :
    ∃ t, memWrite sr off .b8 v s = .ok () t ∧ Restrung s t ∧
      t.readByte (s.linear sr off) = s.stored (s.linear sr off) (v.setWidth 8) ∧
      ∀ p, p ≠ s.linear sr off → t.readByte p = s.readByte p := by
  obtain ⟨t, ht, he⟩ := memWrite_unpaged hp (sz := .b8) v hc
  have hW := (memWrite_ok ht).2
  obtain ⟨-, hb, ho⟩ := hW.bytes hw [s.linear sr off] s
    (physRange_unpaged hp.unpaged true s.isUser (s.linear sr off) 1 (by decide) (by decide))
  refine ⟨t, ht, ⟨by rw [he], hW.wf hw⟩, (List.cons.inj hb).1, fun p hpne => ?_⟩
  exact (ho p (by simpa using hpne)).eq hp.unpaged

/-- One bit is written. -/
theorem writeStringBit_mem {sz asz : Size} {sr : SReg} {off : Dword} {o : Int} {b : Bool} {s : State}
    (hw : Memory.wf s.mem = true) (hp : s.Plain) (hr : s.segOk sr (stringByte asz off o) 1 false = true)
    (hwr : s.segOk sr (stringByte asz off o) 1 true = true) :
    ∃ t, writeStringBit sz asz (.mem sr off) o b s = .ok () t ∧ Restrung s t ∧
      t.memBit (s.stringPlace asz sr off o) = (if s.isFixed (s.stringPlace asz sr off o).1.toNat then
        s.memBit (s.stringPlace asz sr off o) else b) ∧
      ∀ q, q ≠ s.stringPlace asz sr off o → t.memBit q = s.memBit q := by
  obtain ⟨s1, h1, he⟩ := memRead_unpaged hp (sz := .b8) hr
  have hR : Restrung s s1 := ⟨by rw [he], by rw [he]; exact hw⟩
  have hm1 : s1.readByte = s.readByte := by rw [he]; rfl
  have hlin : s1.linear sr (stringByte asz off o) = s.linear sr (stringByte asz off o) := by
    unfold State.linear; rw [hR.seg]
  let a := s.linear sr (stringByte asz off o)
  have hval : leDword (s.operandBytes sr (stringByte asz off o) 1) = (s.readByte a).setWidth 32 := leDword_one _
  obtain ⟨t, ht, hT, hsame, hother⟩ := memWrite_byte hR.wf (hR.plain hp) (sr := sr) (off := stringByte asz off o)
    (setBit ((s.readByte a).setWidth 32) (o % 8).toNat b) (by rw [hR.segOk]; exact hwr)
  have hbit : ∀ k, ((setBit ((s.readByte a).setWidth 32) (o % 8).toNat b).setWidth 8 : Byte).getLsbD k =
      if k = (o % 8).toNat then b else (s.readByte a).getLsbD k := by
    intro k
    have hplace := place_lt o
    rw [BitVec.getLsbD_setWidth, setBit_bit]
    by_cases hk : k < 8
    · by_cases hko : k = (o % 8).toNat
      · have h32 : k < 32 := by omega
        rw [if_pos ⟨hko, h32⟩, if_pos hko]
        simp [hk]
      · rw [if_neg fun h => hko h.1, if_neg hko, wide_byte_bit _ hk]
        simp [hk]
    · rw [if_neg (by omega : ¬ k = (o % 8).toNat), BitVec.getLsbD_of_ge (s.readByte a) k (by omega)]
      simp [hk]
  rw [hlin, hm1] at hother
  have hstored : t.readByte a = if s.isFixed a.toNat then s.readByte a
      else (setBit ((s.readByte a).setWidth 32) (o % 8).toNat b).setWidth 8 := by
    rw [hlin] at hsame
    rw [hsame]
    unfold State.stored
    rw [hR.isFixed, hm1]
  refine ⟨t, ?_, hR.trans hT, ?_, ?_⟩
  · show (readToUpdate .b8 (.mem sr (stringByte asz off o)) >>= _) s = _
    have hu : readToUpdate .b8 (.mem sr (stringByte asz off o)) s = .ok ((s.readByte a).setWidth 32) s1 := by
      rw [← hval]
      exact (run_bind_ok (a := ()) (segCheck_eq_ok.2 ⟨hwr, rfl⟩)).trans h1
    exact (run_bind_ok hu).trans ht
  · show (t.readByte a).getLsbD (o % 8).toNat = if s.isFixed a.toNat then (s.readByte a).getLsbD (o % 8).toNat else b
    rw [hstored]
    split
    · rfl
    · rw [hbit, if_pos rfl]
  · rintro ⟨p, k⟩ hne
    show (t.readByte p).getLsbD k = (s.readByte p).getLsbD k
    by_cases hpa : p = a
    · have hk : k ≠ (o % 8).toNat := fun hk => hne (by rw [hpa, hk]; rfl)
      rw [hpa, hstored]
      split
      · rfl
      · rw [hbit, if_neg hk]
    · rw [hother p hpa]

/-- `n` bits are written, one after the other. -/
theorem insertString_mem {sz asz : Size} (ha : asz = .b16 ∨ asz = .b32) {sr : SReg} {off v : Dword} {n : Nat} :
    ∀ {i : Nat} {o : Int} {s : State}, Memory.wf s.mem = true → s.Plain → i + n ≤ sz.bits →
    (∀ j, j < n → s.segOk sr (stringByte asz off (o + j)) 1 false = true ∧
      s.segOk sr (stringByte asz off (o + j)) 1 true = true) →
    ∃ t, insertString sz asz (.mem sr off) v i o n s = .ok () t ∧ Restrung s t ∧
      (∀ j, j < n → t.memBit (s.stringPlace asz sr off (o + j)) =
        if s.isFixed (s.stringPlace asz sr off (o + j)).1.toNat then s.memBit (s.stringPlace asz sr off (o + j))
        else v.getLsbD (i + j)) ∧
      ∀ q, (∀ j, j < n → q ≠ s.stringPlace asz sr off (o + j)) → t.memBit q = s.memBit q := by
  induction n with
  | zero => exact fun {i o s} hw _ _ _ => ⟨s, rfl, ⟨rfl, hw⟩, fun j hj => absurd hj (by omega), fun _ _ => rfl⟩
  | succ n ih =>
    intro i o s hw hp hi hc
    have hb := bits_le_32 sz
    have hnext : ∀ j : Nat, o + 1 + (j : Int) = o + ((j + 1 : Nat) : Int) := fun j => by push_cast; omega
    have hR0 : Restrung s { s with draws := s.draws + 1 } := ⟨rfl, hw⟩
    have hc0 := hc 0 (by omega)
    rw [Int.natCast_zero, Int.add_zero] at hc0
    obtain ⟨s1, h1, hR1, hbit1, hoth1⟩ := writeStringBit_mem (sz := sz) (b := v.getLsbD i) hR0.wf (hR0.plain hp) (sr := sr)
      (off := off) (asz := asz) (o := o) hc0.1 hc0.2
    have hR := hR0.trans hR1
    obtain ⟨t, ht, hT, hbits, hoth⟩ := ih (i := i + 1) (o := o + 1) hR.wf (hR.plain hp) (by omega) fun j hj => by
      rw [hnext, hR.segOk, hR.segOk]; exact hc (j + 1) (by omega)
    simp only [hR.place, hR.isFixed, hnext] at hbits hoth
    refine ⟨t, ?_, hR.trans hT, fun j hj => ?_, fun q hq => ?_⟩
    · unfold insertString
      have hfree : freeBit s = .ok ((Config.freeDword s.draws).getLsbD 0) { s with draws := s.draws + 1 } := rfl
      rw [run_bind_ok hfree, if_pos (by omega)]
      exact (run_bind_ok h1).trans ht
    · cases j with
      | zero =>
        rw [Int.natCast_zero, Int.add_zero, Nat.add_zero]
        rw [hoth _ fun j hj => (stringPlace_ne s ha sr off o (by omega) (by omega)).symm]
        exact hbit1
      | succ j =>
        rw [hbits j (by omega), Nat.add_right_comm, Nat.add_assoc]
        have hkeep : s1.memBit (s.stringPlace asz sr off (o + ((j + 1 : Nat) : Int))) = _ :=
          hoth1 _ (stringPlace_ne s ha sr off o (by omega) (by omega))
        rw [hkeep]
        rfl
    · have h0 := hq 0 (by omega)
      rw [Int.natCast_zero, Int.add_zero] at h0
      rw [hoth q fun j hj => hq (j + 1) (by omega)]
      exact hoth1 q h0

/-- `n` bits are written to a register. -/
theorem insertString_reg {sz asz : Size} (hsz : sz = .b16 ∨ sz = .b32) {r : Reg} {v : Dword} {n : Nat} :
    ∀ {i o : Nat} {s : State}, i + n ≤ sz.bits → o + n ≤ sz.bits →
    ∃ w t, insertString sz asz (.reg r) v i o n s = .ok () t ∧
      t = { s with regs := s.regs.write sz r w, draws := t.draws } ∧ w.toNat < 2 ^ sz.bits ∧
      ∀ k, k < sz.bits → w.getLsbD k = if o ≤ k ∧ k < o + n then v.getLsbD (i + (k - o)) else (s.reg sz r).getLsbD k := by
  induction n with
  | zero =>
    intro i o s _ _
    refine ⟨s.reg sz r, s, rfl, ?_, reg_lt s sz r, fun k _ => by rw [if_neg (by omega)]⟩
    unfold State.reg
    rw [Regs.write_read hsz]
  | succ n ih =>
    intro i o s hi ho
    have hb := bits_le_32 sz
    let x := setBit (s.reg sz r) o (v.getLsbD i)
    obtain ⟨w, t, ht, he, hlt, hbits⟩ := ih (i := i + 1) (o := o + 1)
      (s := ({ s with draws := s.draws + 1 } : State).setReg sz r x) (by omega) (by omega)
    refine ⟨w, t, ?_, ?_, hlt, fun k hk => ?_⟩
    · unfold insertString
      have hfree : freeBit s = .ok ((Config.freeDword s.draws).getLsbD 0) { s with draws := s.draws + 1 } := rfl
      have hwr : writeStringBit sz asz (.reg r) (o : Int) (v.getLsbD i) { s with draws := s.draws + 1 } =
          .ok () (({ s with draws := s.draws + 1 } : State).setReg sz r x) := by
        show EStateM.Result.ok () (State.setReg _ sz r (if (o : Int) < (sz.bits : Int) then _ else _)) = _
        rw [if_pos (by exact_mod_cast (by omega : o < sz.bits))]
        rfl
      rw [run_bind_ok hfree, if_pos (by omega)]
      exact (run_bind_ok hwr).trans ht
    · rw [he]
      show ({ s with regs := (s.regs.write sz r x).write sz r w, draws := t.draws } : State) = _
      rw [Regs.write_write hsz]
    · rw [hbits k hk]
      have hreg : (({ s with draws := s.draws + 1 } : State).setReg sz r x).reg sz r = trunc sz x :=
        Regs.read_write_same hsz _ _ _
      rw [hreg, trunc_bit, setBit_bit]
      by_cases h1 : k = o
      · subst h1
        rw [if_neg (by omega), if_pos ⟨rfl, by omega⟩, if_pos (by omega), Nat.sub_self]
        simp [hk]
      · by_cases h2 : o ≤ k ∧ k < o + (n + 1)
        · rw [if_pos (by omega : o + 1 ≤ k ∧ k < o + 1 + n), if_pos h2]
          congr 1
          omega
        · rw [if_neg (by omega : ¬(o + 1 ≤ k ∧ k < o + 1 + n)), if_neg (fun h : k = o ∧ k < 32 => h1 h.1), if_neg h2]
          simp [hk, -BitVec.getLsbD_eq_getElem]

theorem ibts_run {s s1 s2 : State} {reg : Reg} {rm : RM} {l : Loc} (hp : s.params.hasIbtsXbts = true)
    (hl : resolve rm s = .ok l s1)
    (hv : insertString s.osz s.asz l (s.reg s.osz reg) 0 (s.stringStart l) s.cl s1 = .ok () s2) :
    ∃ t, exec (.ibts reg rm) s = .next (s.retire t) ∧ t.putBack s2 = s2 ∧ t.mem = s2.mem ∧ t.regs = s2.regs ∧
      t.eflags = s2.eflags.arithmeticOf t.eflags := by
  obtain ⟨t, ht, hrest⟩ := undefinedFlags_ok s2
  refine ⟨t, complete_ok ((run_bind_ok (raiseIf_of_false s (by rw [hp]; rfl))).trans ?_), hrest⟩
  exact (run_bind_ok hl).trans ((run_bind_ok hv).trans ht)

theorem cl_toNat (s : State) : s.regs.ecx.toNat % 256 = s.cl := by
  show _ = ((s.regs.ecx.setWidth 8).setWidth 32 : Dword).toNat
  simp only [BitVec.toNat_setWidth]
  omega

/-- Where a string in a register operand starts. -/
theorem stringStart_reg (s : State) (r : Reg) :
    s.stringStart (.reg r) = (((signedVal s.osz (s.reg s.osz .eax) % s.osz.bits).toNat : Nat) : Int) := by
  have hpos : ((s.osz.bits : Nat) : Int) ≠ 0 := by have := bits_pos s.osz; omega
  exact (Int.toNat_of_nonneg (Int.emod_nonneg _ hpos)).symm

/-- The bits of a register operand that XBTS reads. -/
theorem extractString_reg {s : State} {r : Reg} {o n : Nat} (h : o + n ≤ s.osz.bits) :
    ∃ u, extractString s.osz s.asz (.reg r) o n s =
      .ok ((s.reg s.osz r >>> o) &&& BitVec.ofNat 32 (2 ^ n - 1)) u ∧ Quiet s u := by
  obtain ⟨v, u, hv, hq, hbits⟩ := extractString_ok (sz := s.osz) (asz := s.asz) (l := .reg r) (n := n) (o := o)
    (bit := fun z => (s.reg s.osz r).getLsbD z.toNat) (Quiet.refl s) fun j hj t ht => by
      have hcast : (o : Int) + (j : Int) = ((o + j : Nat) : Int) := by push_cast; rfl
      rw [hcast, Int.toNat_natCast]
      exact readStringBit_reg ht (by omega)
  have hval : v = (s.reg s.osz r >>> o) &&& BitVec.ofNat 32 (2 ^ n - 1) := by
    apply BitVec.eq_of_getLsbD_eq
    intro j hj
    have hcast : ((o : Int) + (j : Int)).toNat = o + j := by omega
    rw [hbits j hj, hcast, BitVec.getLsbD_and, BitVec.getLsbD_ushiftRight, mask_bit, decide_eq_true hj, Bool.true_and,
      Bool.and_comm]
  exact ⟨u, by rw [hv, hval], hq⟩

/-- What IBTS writes to a register operand. -/
theorem insertString_value {n o m : Nat} {w v x : Dword} (ho : o + n ≤ m) (hw : w.toNat < 2 ^ m) (hx : x.toNat < 2 ^ m)
    (hbits : ∀ k, k < m → w.getLsbD k = if o ≤ k ∧ k < o + n then v.getLsbD (0 + (k - o)) else x.getLsbD k) :
    w = (x &&& ~~~(BitVec.ofNat 32 (2 ^ n - 1) <<< o)) ||| ((v &&& BitVec.ofNat 32 (2 ^ n - 1)) <<< o) := by
  apply BitVec.eq_of_getLsbD_eq
  intro k hk
  have hko : k - o < 32 := by omega
  rw [BitVec.getLsbD_or, BitVec.getLsbD_and, BitVec.getLsbD_not, BitVec.getLsbD_shiftLeft, BitVec.getLsbD_shiftLeft,
    BitVec.getLsbD_and, mask_bit]
  have hl : w.getLsbD k = if o ≤ k ∧ k < o + n then v.getLsbD (k - o) else x.getLsbD k := by
    rcases Nat.lt_or_ge k m with h | h
    · rw [hbits k h, Nat.zero_add]
    · rw [bit_of_lt hw h, bit_of_lt hx h, if_neg (by omega)]
  rw [hl]
  by_cases h : o ≤ k ∧ k < o + n
  · have h1 : k - o < n := by omega
    rw [if_pos h]
    simp [hk, hko, h1, Nat.not_lt.2 h.1, -BitVec.getLsbD_eq_getElem]
  · rw [if_neg h]
    by_cases h1 : k < o
    · simp [hk, h1, -BitVec.getLsbD_eq_getElem]
    · have h2 : ¬ k - o < n := by omega
      simp [hk, h2, -BitVec.getLsbD_eq_getElem]

/-- The bits of a string in memory that XBTS reads. -/
theorem extractString_mem {s s1 : State} {sr : SReg} {off : Dword} {o : Int} {n : Nat} (hw : Memory.wf s.mem = true)
    (hp : s.Plain) (h : Quiet s s1)
    (hc : ∀ j, j < n → s.segOk sr (stringByte s.asz off (o + ((j : Nat) : Int))) 1 false = true) :
    ∃ v u, extractString s.osz s.asz (.mem sr off) o n s1 = .ok v u ∧ Quiet s u ∧
      ∀ j, j < 32 → v.getLsbD j = (decide (j < n) && s.memBit (s.stringPlace s.asz sr off (o + j))) :=
  extractString_ok (bit := fun z => s.memBit (s.stringPlace s.asz sr off z)) h
    fun j hj _ ht => readStringBit_mem hw hp ht (hc j hj)

/-- Settles O41. -/
theorem bitStrings : Obligations.BitStrings := by
  unfold Obligations.BitStrings
  rintro s s1 rm reg r n o i sr off byteAt hs rfl rfl rfl rfl
  simp only [cl_toNat]
  have hb := bits_le_32 s.osz
  refine ⟨fun hno => ⟨?_, ?_⟩, fun hyes hn => ⟨fun hrm ho => ⟨?xreg, ?ireg⟩, fun hp hl => ⟨fun hc => ?xmem, fun hc => ?imem⟩⟩,
    fun hyes hn hp hl hc => ?long⟩
  · exact exec_exn_after rfl (run_bind_error (raiseIf_of_true s (by rw [hno]; rfl)))
  · exact exec_exn_after rfl (run_bind_error (raiseIf_of_true s (by rw [hno]; rfl)))
  case xreg =>
    subst hrm
    obtain ⟨u, hv, hq⟩ := extractString_reg (r := r) ho
    have h := xbts_gives (reg := reg) (rm := .reg r) hs hyes rfl (by rw [stringStart_reg]; exact hv) hq
    rwa [if_neg (Nat.not_lt.2 hn)] at h
  case ireg =>
    subst hrm
    obtain ⟨w, u, hv, he, hlt, hbits⟩ := insertString_reg (asz := s.asz) (osz_cases s) (r := r) (v := s.reg s.osz reg)
      (i := 0) (s := s) (by omega) ho
    have hval := insertString_value ho hlt (reg_lt s s.osz r) hbits
    obtain ⟨t, ht, hrest, hmem, hregs, hfl⟩ := ibts_run (reg := reg) (rm := .reg r) hyes rfl
      (by rw [stringStart_reg]; exact hv)
    rw [← hval]
    refine ⟨_, ht, ends_retire ?_ ?_ ?_, fun p => .inl ?_⟩
    · rw [hregs, he]
    · show _ = ({ s.eflags.arithmeticOf t.eflags with rf := false } : Eflags)
      conv_lhs => rw [hfl, he]
    · refine putBack_trans (t := u) ?_ hrest
      rw [he]; rfl
    · show t.readByte p = _
      unfold State.readByte
      rw [hmem, he]
  case xmem =>
    obtain ⟨v, u, hv, hq, hbits⟩ := extractString_mem hs.mem hp (quiet_resolve hl) hc
    have h := xbts_gives (reg := reg) hs hyes hl hv hq
    rw [if_neg (Nat.not_lt.2 hn)] at h
    obtain ⟨t, ht, hends, hno⟩ := h
    refine ⟨t, v, ht, hends, hno, fun j => ?_⟩
    rcases Nat.lt_or_ge j 32 with h32 | h32
    · exact hbits j h32
    · rw [BitVec.getLsbD_of_ge v j h32, decide_eq_false (by omega), Bool.false_and]
  case imem =>
    have hq := quiet_resolve hl
    have hR : ∀ j : Nat, s1.stringPlace s.asz sr off (signedVal s.osz (s.reg s.osz .eax) + j) =
        s.stringPlace s.asz sr off (signedVal s.osz (s.reg s.osz .eax) + j) := fun j => by
      unfold State.stringPlace; rw [hq.linear]
    have hfix : ∀ a, s1.isFixed a = s.isFixed a := fun a => by unfold State.isFixed; rw [hq.params]
    have hbit : ∀ q, s1.memBit q = s.memBit q := fun q => by
      unfold State.memBit; rw [(hq.bytes hs.mem q.1).eq hp.unpaged]
    obtain ⟨u, hv, hRs, hbits, hoth⟩ := insertString_mem (sz := s.osz) (asz_wide s) (sr := sr) (off := off)
      (v := s.reg s.osz reg) (i := 0) (o := signedVal s.osz (s.reg s.osz .eax)) (n := s.cl) (s := s1) (hq.wf hs.mem)
      (hq.plain hp) (by omega) fun j hj => by rw [hq.segOk, hq.segOk]; exact hc j hj
    simp only [hR, hfix, hbit, Nat.zero_add] at hbits hoth
    obtain ⟨t, ht, hrest, hmem, hregs, hfl⟩ := ibts_run (reg := reg) hyes hl hv
    have hback : u.putBack s1 = s1 := by rw [hRs.rest]; rfl
    have hread : ∀ p, (s.retire t).readByte p = u.readByte p := fun p => by
      show t.readByte p = _
      unfold State.readByte
      rw [hmem]
    refine ⟨_, ht, ends_retire ?_ ?_ (hq.putBack (putBack_trans hback hrest)), fun j hj => ?_, fun p k hpk => ?_⟩
    · rw [hregs, hRs.rest]; exact hq.regs
    · show _ = ({ s.eflags.arithmeticOf t.eflags with rf := false } : Eflags)
      conv_lhs => rw [hfl, hRs.rest]
      show ({ s1.eflags.arithmeticOf t.eflags with rf := false } : Eflags) = _
      rw [hq.eflags]
    · rw [hread]
      exact hbits j hj
    · rw [hread]
      exact hoth (p, k) fun j hj he => hpk j hj ⟨congrArg Prod.fst he, congrArg Prod.snd he⟩
  case long =>
    obtain ⟨v, u, hv, hq, -⟩ := extractString_mem hs.mem hp (quiet_resolve hl) hc
    obtain ⟨t, ht, hends, hno⟩ := xbts_gives (reg := reg) hs hyes hl hv hq
    exact ⟨t, _, ht, hends, hno⟩

end Sys2Proof.Machine
end

section
/-! O42 and O43: near transfers and the conditions. -/

namespace Sys2Proof.Machine

theorem osz_of_rest {s t : State} (h : t.putBack s = s) (hp : t.pfx = s.pfx) (hv : t.eflags.vm = s.eflags.vm) :
    t.osz = s.osz := by
  have hcs : t.csD = s.csD := by
    have h1 : t.cs = s.cs := putBack_congr h (·.cs) fun _ _ => rfl
    have h2 : t.cr0 = s.cr0 := putBack_congr h (·.cr0) fun _ _ => rfl
    unfold State.csD State.protectedMode
    rw [h1, h2, hv]
  unfold State.osz State.osz32 State.codeD
  rw [hp, hcs]

theorem Quiet.osz {s t : State} (h : Quiet s t) : t.osz = s.osz := osz_of_rest h.rest h.pfx (congrArg (·.vm) h.eflags)

theorem Quiet.eip {s t : State} (h : Quiet s t) : t.eip = s.eip := putBack_congr h.rest (·.eip) fun _ _ => rfl

theorem Quiet.cs {s t : State} (h : Quiet s t) : t.cs = s.cs := putBack_congr h.rest (·.cs) fun _ _ => rfl

theorem Quiet.bus {s t : State} (h : Quiet s t) : t.bus = s.bus := putBack_congr h.rest (·.bus) fun _ _ => rfl

/-! The limit check and the jump. -/

theorem nearTarget_ok {s : State} {target : Dword} (h : target.toNat ≤ s.cs.limit.toNat) :
    nearTarget target s = .ok () s := by
  unfold nearTarget
  rw [run_bind_ok (run_get s)]
  exact raiseIf_of_false s (decide_eq_false (Nat.not_lt.2 h))

theorem nearTarget_beyond {s : State} {target : Dword} (h : s.cs.limit.toNat < target.toNat) :
    nearTarget target s = .error (.exn (Exn.gp 0) .nothing) s := by
  unfold nearTarget
  rw [run_bind_ok (run_get s)]
  exact raiseIf_of_true s (decide_eq_true h)

/-- An instruction that ends in a jump, after quiet steps and with registers of its own. -/
theorem jumps_of {i : Instr} {s s1 : State} {g : Regs} {target : Dword} (hs : s.Inv) (hq : Quiet s s1)
    (hi : exec i s = .next (s.retire (({ s1 with regs := g } : State).jumpTo target))) : Jumps i s g s target := by
  refine ⟨_, hi, ends_retire rfl ?_ ?_, fun p => (hq.bytes hs.mem p).of_mem rfl rfl rfl rfl⟩
  · show ({ s1.eflags with rf := false } : Eflags) = _
    rw [hq.eflags]
  · show ({ s1.putBack s with eip := target, eipOver := false } : State) = _
    rw [hq.rest]

section
variable {i : Instr} {m : M Unit} {k : Unit → M Unit} {s s1 : State} {g : Regs} {target : Dword}

/-- The limit check comes before anything else has been done. -/
theorem near_raises (hi : exec i s = complete m s) (hq : Quiet s s1)
    (hm : m s = (nearTarget target >>= k) { s1 with regs := g }) (h : s.cs.limit.toNat < target.toNat) :
    exec i s = takeException (Exn.gp 0) { s with draws := s1.draws, deviceBus := s1.deviceBus } := by
  have hb := run_bind_error (f := k) (nearTarget_beyond (s := { s1 with regs := g }) (by
    show s1.cs.limit.toNat < _
    rw [hq.cs]; exact h))
  rw [exec_exn_after hi (hm.trans hb)]
  show takeException _ { s with draws := s1.draws, bus := s1.bus, deviceBus := s1.deviceBus } = _
  rw [hq.bus]

theorem near_ok (hq : Quiet s s1) (h : target.toNat ≤ s.cs.limit.toNat) :
    nearTarget target { s1 with regs := g } = .ok () { s1 with regs := g } :=
  nearTarget_ok (by
    show _ ≤ s1.cs.limit.toNat
    rw [hq.cs]; exact h)

/-- A near jump after quiet steps and a change of registers. -/
theorem jumpNear_settle (hs : s.Inv) (hi : exec i s = complete m s) (hq : Quiet s s1)
    (hm : m s = jumpNear target { s1 with regs := g }) :
    (target.toNat ≤ s.cs.limit.toNat → Jumps i s g s target) ∧
    (s.cs.limit.toNat < target.toNat →
      exec i s = takeException (Exn.gp 0) { s with draws := s1.draws, deviceBus := s1.deviceBus }) :=
  ⟨fun h => jumps_of hs hq (hi.trans (complete_ok (hm.trans ((run_bind_ok (near_ok hq h)).trans rfl)))),
    near_raises hi hq hm⟩

/-- A near call. -/
theorem callNear_settle (hs : s.Inv) (hi : exec i s = complete m s) (hq : Quiet s s1) (hm : m s = callNear target s1) :
    (∀ s2, target.toNat ≤ s.cs.limit.toNat → (s.cr0.pe = false → (s.slot s.osz 0).toNat + s.osz.bytes ≤ 65536) →
      memWrite .ss (s.slot s.osz 0) s.osz s.eip s1 = .ok () s2 →
      ∃ t, exec i s = .next t ∧
        Ends s t (s.regsPushed s.osz 1) s.eflags { s with eip := target, eipOver := false } ∧
        StoresAt s s1 t .ss (s.slot s.osz 0) (leBytes s.osz.bytes s.eip)) ∧
    (s.cs.limit.toNat < target.toNat →
      exec i s = takeException (Exn.gp 0) { s with draws := s1.draws, deviceBus := s1.deviceBus }) := by
  refine ⟨fun s2 h hn hw => ?_, near_raises (g := s1.regs) hi hq hm⟩
  obtain ⟨-, hW⟩ := memWrite_ok hw
  have hnw : s1.wrapsStack (s1.slot s.osz 0) s.osz.bytes = false := by
    rw [hq.wrapsStack, hq.slot]; exact wrapsStack_eq_false hn
  have hpush : push s1.osz s1.eip s1 = .ok () (s2.setSp (s.slot s.osz 0)) := by
    rw [hq.osz, hq.eip, ← hq.slot]
    exact push_ok hnw (by rw [hq.slot]; exact hw)
  have hss : SameStack s1 s2 :=
    ⟨putBack_congr hW.rest (·.ss) fun _ _ => rfl, putBack_congr hW.rest (·.cr0) fun _ _ => rfl, by rw [hW.eflags]⟩
  have hrun : m s = .ok () ((s2.setSp (s.slot s.osz 0)).jumpTo target) := by
    refine hm.trans ((run_bind_ok (near_ok (g := s1.regs) hq h)).trans ?_)
    rw [run_bind_ok (run_get _)]
    exact (run_bind_ok hpush).trans rfl
  refine ⟨_, hi.trans (complete_ok hrun), ends_retire ?_ ?_ ?_, stored_mem hs hq hw rfl⟩
  · rw [regsPushed_one]
    show (s2.setSp (s.slot s.osz 0)).regs = _
    unfold State.setSp State.setReg
    rw [hss.size, hq.stackSize, hW.regs, hq.regs]
  · show ({ s2.eflags with rf := false } : Eflags) = _
    rw [hW.eflags, hq.eflags]
  · show ({ s2.putBack s with eip := target, eipOver := false } : State) = _
    rw [hq.putBack hW.rest]

end

theorem setWidth32_ofNat (n : BitVec 16) : (n.setWidth 32 : Dword) = BitVec.ofNat 32 n.toNat :=
  BitVec.eq_of_toNat_eq (by simp)

/-- RET that releases some bytes. -/
theorem ret_settle {s s1 : State} {v : Dword} (hs : s.Inv) (n : BitVec 16) (hr : memRead .ss s.sp s.osz s = .ok v s1) :
    (v.toNat ≤ s.cs.limit.toNat → Jumps (.retImm n) s (s.regsPopped (s.osz.bytes + n.toNat)) s v) ∧
    (s.cs.limit.toNat < v.toNat →
      exec (.retImm n) s = takeException (Exn.gp 0) { s with draws := s1.draws, deviceBus := s1.deviceBus }) := by
  have hq := (memRead_ok hr).2
  have hss : SameStack s { s1 with regs := s.regsPopped s.osz.bytes } := ⟨putBack_congr hq.rest (·.ss) fun _ _ => rfl,
    hq.cr0, congrArg (·.vm) hq.eflags⟩
  refine ⟨fun h => jumps_of hs hq ?_, near_raises (g := s.regsPopped s.osz.bytes) (m := returnNear n) rfl hq
    (run_bind_ok (pop_ok hr))⟩
  have hrun : returnNear n s = .ok () ((({ s1 with regs := s.regsPopped s.osz.bytes } : State).setSp
      (({ s1 with regs := s.regsPopped s.osz.bytes } : State).spPlus (n.setWidth 32))).jumpTo v) :=
    (run_bind_ok (pop_ok hr)).trans ((run_bind_ok (near_ok hq h)).trans rfl)
  rw [← regsPopped_add hss rfl n.toNat]
  rw [setWidth32_ofNat] at hrun
  exact complete_ok hrun

/-- Settles O42. -/
theorem nearTransfers : Obligations.NearTransfers := by
  unfold Obligations.NearTransfers
  intro s s1 s2 off d8 rm v target n hs
  refine ⟨fun call jmp from' hform => ?callJmp, fun ht => ?short, fun hr => ?ret⟩
  case callJmp =>
    have hforms : ∃ mc mj : M Unit, exec call s = complete mc s ∧ exec jmp s = complete mj s ∧ Quiet s from' ∧
        mc s = callNear target from' ∧ mj s = jumpNear target from' := by
      rcases hform with ⟨rfl, rfl, rfl, rfl⟩ | ⟨rfl, rfl, hr⟩
      · exact ⟨_, _, rfl, rfl, Quiet.refl _, by cases off <;> rfl, by cases off <;> rfl⟩
      · exact ⟨_, _, rfl, rfl, quiet_readRm hr, run_bind_ok hr, run_bind_ok hr⟩
    obtain ⟨mc, mj, hcall, hjmp, hq, hmc, hmj⟩ := hforms
    obtain ⟨hcok, hcbad⟩ := callNear_settle hs hcall hq hmc
    obtain ⟨hjok, hjbad⟩ := jumpNear_settle (g := from'.regs) hs hjmp hq hmj
    rw [hq.regs] at hjok
    exact ⟨fun h => ⟨hjok h, fun hn hw => hcok s2 h hn hw⟩, fun h => ⟨hjbad h, hcbad h⟩⟩
  case short =>
    subst ht
    exact jumpNear_settle (m := jumpNear _) (g := s.regs) hs rfl (Quiet.refl s) rfl
  case ret =>
    have hq := (memRead_ok hr).2
    obtain ⟨hok, hbad⟩ := jumpNear_settle (i := .ret) (g := s.regsPopped s.osz.bytes) hs rfl hq (run_bind_ok (pop_ok hr))
    obtain ⟨hiok, hibad⟩ := ret_settle hs n hr
    exact ⟨fun h => ⟨hok h, hiok h⟩, fun h => ⟨hbad h, hibad h⟩⟩

/-! Conditions. -/

/-- A jump on a condition, after a change of registers. -/
theorem jumpIf_settle {i : Instr} {m : M Unit} {s : State} {g : Regs} {target : Dword} {b : Bool} (hs : s.Inv)
    (hi : exec i s = complete m s) (hm : m s = jumpIf b target { s with regs := g }) :
    (b = true → target.toNat ≤ s.cs.limit.toNat → Jumps i s g s target) ∧
    (b = true → s.cs.limit.toNat < target.toNat → exec i s = takeException (Exn.gp 0) s) ∧
    (b = false → Gives i s g (fun _ => s.eflags) s) := by
  refine ⟨?_, ?_, ?_⟩
  · rintro rfl
    exact (jumpNear_settle hs hi (Quiet.refl s) hm).1
  · rintro rfl
    exact (jumpNear_settle hs hi (Quiet.refl s) hm).2
  · rintro rfl
    exact gives_of_quiet (t := { s with regs := g }) hi hs hm (Quiet.refl s) rfl rfl rfl rfl

theorem holds_nbe (f : Eflags) : f.holds .nbe = !(f.cf || f.zf) := (Bool.not_or _ _).symm

theorem holds_l (f : Eflags) : f.holds .l = (f.sf ^^ f.ofl) := rfl

theorem holds_nl (f : Eflags) : f.holds .nl = !(f.sf ^^ f.ofl) := by
  show (f.sf == f.ofl) = _
  cases f.sf <;> cases f.ofl <;> rfl

theorem holds_le (f : Eflags) : f.holds .le = (f.zf || (f.sf ^^ f.ofl)) := rfl

theorem holds_nle (f : Eflags) : f.holds .nle = !(f.zf || (f.sf ^^ f.ofl)) := by
  rw [Bool.not_or, ← holds_nl]
  rfl

/-- The short and the near form of a conditional jump. -/
structure CondForms (c : Cond) (short : BitVec 8 → Instr) (near : Off → Instr) : Prop where
  short : ∀ d s, exec (short d) s = complete (jumpIf (s.eflags.holds c) (s.relTarget (d.signExtend 32))) s
  near : ∀ o s, exec (near o) s = complete (jumpIf (s.eflags.holds c) (s.relTarget (relDisp o))) s

theorem CondForms.settle {c : Cond} {s : State} {short : BitVec 8 → Instr} {near : Off → Instr} {b : Bool}
    (h : CondForms c short near) (hb : s.eflags.holds c = b) (hs : s.Inv) {d8 : BitVec 8} {off : Off} {i : Instr}
    {target : Dword}
    (hi : (i = short d8 ∧ target = trunc s.osz (s.eip + d8.signExtend 32)) ∨
      (i = near off ∧ target = trunc s.osz (s.eip + (match off with | .o16 d => d.signExtend 32 | .o32 d => d)))) :
    (b = true → target.toNat ≤ s.cs.limit.toNat → Jumps i s s.regs s target) ∧
    (b = true → s.cs.limit.toNat < target.toNat → exec i s = takeException (Exn.gp 0) s) ∧
    (b = false → Gives i s s.regs (fun _ => s.eflags) s) := by
  subst hb
  rcases hi with ⟨rfl, rfl⟩ | ⟨rfl, rfl⟩
  · exact jumpIf_settle hs (h.short d8 s) rfl
  · refine jumpIf_settle hs (h.near off s) ?_
    cases off <;> rfl

theorem set_puts {c : Cond} {i : Instr} {s s1 s2 : State} {rm : RM} {l : Loc} {b : Bool} {v : Dword}
    (hi : exec i s = complete (setByte (s.eflags.holds c) rm) s) (hb : s.eflags.holds c = b) (hs : s.Inv)
    (hl : resolve rm s = .ok l s1) (hv : v = if b then 1 else 0)
    (hw : writeLoc .b8 l v s1 = .ok () s2) : Puts i s s1 l .b8 v fun _ => s.eflags := by
  have hbit : bitAt (s.eflags.holds c) 0 = v := by rw [hb, hv]; cases b <;> rfl
  have hq := quiet_resolve hl
  have hf : s2.eflags = s.eflags := (writeLoc_flags hw).trans hq.eflags
  refine puts_of_write (t := s2) hi hs ((run_bind_ok hl).trans ?_) hq hw rfl rfl rfl (by rw [hf])
  rw [hbit]
  exact hw

/-- Settles O43. -/
theorem conditions : Obligations.Conditions := by
  unfold Obligations.Conditions
  refine ⟨?jumps, ?sets, ?loops⟩
  case jumps =>
    rintro s d8 off f i target hs rfl
    simp only [List.forall_mem_cons]
    have jo : CondForms .o .joShort .joNear := ⟨fun _ _ => rfl, fun _ _ => rfl⟩
    have jno : CondForms .no .jnoShort .jnoNear := ⟨fun _ _ => rfl, fun _ _ => rfl⟩
    have jb : CondForms .b .jbShort .jbNear := ⟨fun _ _ => rfl, fun _ _ => rfl⟩
    have jnb : CondForms .nb .jnbShort .jnbNear := ⟨fun _ _ => rfl, fun _ _ => rfl⟩
    have je : CondForms .e .jeShort .jeNear := ⟨fun _ _ => rfl, fun _ _ => rfl⟩
    have jne : CondForms .ne .jneShort .jneNear := ⟨fun _ _ => rfl, fun _ _ => rfl⟩
    have jbe : CondForms .be .jbeShort .jbeNear := ⟨fun _ _ => rfl, fun _ _ => rfl⟩
    have jnbe : CondForms .nbe .jnbeShort .jnbeNear := ⟨fun _ _ => rfl, fun _ _ => rfl⟩
    have js : CondForms .s .jsShort .jsNear := ⟨fun _ _ => rfl, fun _ _ => rfl⟩
    have jns : CondForms .ns .jnsShort .jnsNear := ⟨fun _ _ => rfl, fun _ _ => rfl⟩
    have jp : CondForms .p .jpShort .jpNear := ⟨fun _ _ => rfl, fun _ _ => rfl⟩
    have jnp : CondForms .np .jnpShort .jnpNear := ⟨fun _ _ => rfl, fun _ _ => rfl⟩
    have jl : CondForms .l .jlShort .jlNear := ⟨fun _ _ => rfl, fun _ _ => rfl⟩
    have jnl : CondForms .nl .jnlShort .jnlNear := ⟨fun _ _ => rfl, fun _ _ => rfl⟩
    have jle : CondForms .le .jleShort .jleNear := ⟨fun _ _ => rfl, fun _ _ => rfl⟩
    have jnle : CondForms .nle .jnleShort .jnleNear := ⟨fun _ _ => rfl, fun _ _ => rfl⟩
    exact ⟨jo.settle rfl hs, jno.settle rfl hs, jb.settle rfl hs, jnb.settle rfl hs, je.settle rfl hs,
      jne.settle rfl hs, jbe.settle rfl hs, jnbe.settle (holds_nbe s.eflags) hs, js.settle rfl hs, jns.settle rfl hs,
      jp.settle rfl hs, jnp.settle rfl hs, jl.settle (holds_l s.eflags) hs, jnl.settle (holds_nl s.eflags) hs,
      jle.settle (holds_le s.eflags) hs, jnle.settle (holds_nle s.eflags) hs, fun _ h => nomatch h⟩
  case sets =>
    rintro s s1 s2 rm l f v hs rfl hl
    simp only [List.forall_mem_cons]
    exact ⟨set_puts (c := .o) rfl rfl hs hl, set_puts (c := .no) rfl rfl hs hl, set_puts (c := .b) rfl rfl hs hl,
      set_puts (c := .nb) rfl rfl hs hl, set_puts (c := .e) rfl rfl hs hl, set_puts (c := .ne) rfl rfl hs hl,
      set_puts (c := .be) rfl rfl hs hl, set_puts (c := .nbe) rfl (holds_nbe s.eflags) hs hl,
      set_puts (c := .s) rfl rfl hs hl, set_puts (c := .ns) rfl rfl hs hl, set_puts (c := .p) rfl rfl hs hl,
      set_puts (c := .np) rfl rfl hs hl, set_puts (c := .l) rfl (holds_l s.eflags) hs hl,
      set_puts (c := .nl) rfl (holds_nl s.eflags) hs hl, set_puts (c := .le) rfl (holds_le s.eflags) hs hl,
      set_puts (c := .nle) rfl (holds_nle s.eflags) hs hl, fun _ h => nomatch h⟩
  case loops =>
    rintro s d8 target count hs rfl rfl
    simp only [List.forall_mem_cons]
    refine ⟨?jcxz, ?loop, ?loopz, ?loopnz, fun _ h => nomatch h⟩
    case jcxz =>
      have hsz : s.jcxzSize = if s.params.jcxzSizeAttr = .address then s.asz else s.osz := by
        unfold State.jcxzSize
        cases s.params.jcxzSizeAttr <;> rfl
      rw [← hsz]
      exact jumpIf_settle (m := jumpIf _ _) hs rfl rfl
    case loop =>
      refine jumpIf_settle (m := loopOn true _) (b := _) hs rfl ?_
      show jumpIf (s.loopCount != 0 && true) _ _ = _
      rw [Bool.and_true]
      rfl
    case loopz => exact jumpIf_settle (m := loopOn _ _) hs rfl rfl
    case loopnz => exact jumpIf_settle (m := loopOn _ _) hs rfl rfl

end Sys2Proof.Machine
end

section
/-! O44: ENTER and LEAVE. -/

namespace Sys2Proof.Machine

/-! Two registers at a time. -/

theorem Regs.set_comm (g : Regs) {r r' : Reg} (h : r' ≠ r) (v w : Dword) : (g.set r v).set r' w = (g.set r' w).set r v := by
  cases r <;> cases r' <;> simp [Regs.set] at h ⊢

/-- Writes of different registers, of a full size each, can be exchanged. -/
theorem Regs.write_comm {sz sz' : Size} (h : sz = .b16 ∨ sz = .b32) (h' : sz' = .b16 ∨ sz' = .b32) (g : Regs) {r r' : Reg}
    (hr : r' ≠ r) (v w : Dword) : (g.write sz r v).write sz' r' w = (g.write sz' r' w).write sz r v := by
  rcases h with rfl | rfl <;> rcases h' with rfl | rfl <;>
    simp only [Regs.write, Regs.get_set_other _ _ hr, Regs.get_set_other _ _ hr.symm] <;> exact Regs.set_comm g hr _ _

/-- A register reads the same after another one is written. -/
theorem Regs.read_write_ne {sz sz' : Size} (h : sz = .b16 ∨ sz = .b32) (h' : sz' = .b16 ∨ sz' = .b32) (g : Regs)
    {r r' : Reg} (hr : r' ≠ r) (v : Dword) : (g.write sz r v).read sz' r' = g.read sz' r' := by
  rcases h with rfl | rfl <;> rcases h' with rfl | rfl <;> simp [Regs.read, Regs.write, Regs.get_set_other _ _ hr]

/-! Pushes one after the other. -/

/-- One more item. -/
theorem Pushed.snoc {s t u : State} {sz : Size} {items : List Dword} {v : Dword} (hst : SameStack s t)
    (hpar : t.params = s.params) (hl : items.length < 999) (hslot : t.slot sz 0 = s.slot sz items.length)
    (h : Pushed s t sz items) (k : Pushed t u sz [v]) : Pushed s u sz (items ++ [v]) := by
  have hbytes : t.slotBytes sz 0 = s.slotBytes sz items.length := by
    unfold State.slotBytes; rw [hslot, hst.linear]
  have hone : ∀ p, p ∉ s.slotBytes sz items.length → u.readByte p = t.readByte p := fun p hp =>
    k.2 p fun i hi => by
      have : i = 0 := by simpa using hi
      subst this
      rwa [hbytes]
  refine ⟨fun i w hi => ?_, fun p hp => ?_⟩
  · rcases Nat.lt_or_ge i items.length with hlt | hge
    · rw [List.getElem?_append_left hlt] at hi
      rw [← h.1 i w hi]
      exact List.map_congr_left fun p hp => hone p (slots_disjoint s sz hlt (by omega) hp)
    · rw [List.getElem?_append_right hge] at hi
      have hi0 : i - items.length = 0 := by
        have := (List.getElem?_eq_some_iff.1 hi).1
        simpa using this
      have hieq : i = items.length := by omega
      have hw : w = v := by rw [hi0] at hi; simpa using hi.symm
      subst hieq hw
      have h0 := k.1 0 w rfl
      rw [hbytes] at h0
      rw [h0]
      exact stored_congr hpar (fun q hq => h.2 q fun j hj hqj => slots_disjoint s sz hj (by omega) hqj hq) _
  · rw [hone p (hp items.length (by simp)), h.2 p fun i hi => hp i (by simp; omega)]

/-- With paging off: `items` have been pushed and (E)BP is `bp`; nothing else has changed. -/
structure Framed (s t : State) (sz : Size) (items : List Dword) (bp : Dword) : Prop where
  regs : t.regs = (s.regs.write sz .ebp bp).write s.stackSize .esp (s.spPlus (-(BitVec.ofNat 32 (sz.bytes * items.length))))
  eflags : t.eflags = s.eflags
  rest : t.putBack s = s
  wf : Memory.wf t.mem = true
  pushed : Pushed s t sz items

section
variable {s t : State} {sz : Size} {items : List Dword} {bp : Dword}

theorem Framed.same (h : Framed s t sz items bp) : SameStack s t :=
  ⟨putBack_congr h.rest (·.ss) fun _ _ => rfl, putBack_congr h.rest (·.cr0) fun _ _ => rfl, by rw [h.eflags]⟩

theorem Framed.params (h : Framed s t sz items bp) : t.params = s.params := putBack_congr h.rest (·.params) fun _ _ => rfl

theorem Framed.plain (h : Framed s t sz items bp) (hp : s.Plain) : t.Plain :=
  ⟨by rw [h.same.cr0]; exact hp.unpaged, by unfold State.AllMemory; rw [h.params]; exact hp.memory⟩

theorem Framed.zero (hsz : sz = .b16 ∨ sz = .b32) (hw : Memory.wf s.mem = true) : Framed s s sz [] (s.reg sz .ebp) := by
  refine ⟨?_, rfl, rfl, hw, ⟨by simp, fun p _ => rfl⟩⟩
  have hebp : s.regs.write sz .ebp (s.reg sz .ebp) = s.regs := Regs.write_read hsz _ _
  have hesp : s.regs.write s.stackSize .esp s.sp = s.regs := Regs.write_read (stackSize_cases s) _ _
  rw [hebp, List.length_nil, Nat.mul_zero, show -(BitVec.ofNat 32 0) = 0#32 from rfl, spPlus_zero, hesp]

theorem Framed.ebp (h : Framed s t sz items bp) (hsz : sz = .b16 ∨ sz = .b32) : t.reg sz .ebp = trunc sz bp := by
  unfold State.reg
  rw [h.regs, Regs.read_write_ne (stackSize_cases s) hsz _ (by decide), Regs.read_write_same hsz]

theorem Framed.sp (h : Framed s t sz items bp) : t.sp = s.spPlus (-(BitVec.ofNat 32 (sz.bytes * items.length))) := by
  have hs := stackSize_cases s
  unfold State.sp State.reg
  rw [h.same.size, h.regs, Regs.read_write_same hs]
  unfold State.spPlus
  rw [trunc_idem]

theorem Framed.spPlus (h : Framed s t sz items bp) (k : Dword) :
    t.spPlus k = s.spPlus (-(BitVec.ofNat 32 (sz.bytes * items.length)) + k) := by
  have hs := stackSize_cases s
  have hsp := h.sp
  unfold State.spPlus at hsp ⊢
  rw [hsp, h.same.size, trunc_add hs, BitVec.add_assoc]

theorem neg_items (b n : Nat) :
    -(BitVec.ofNat 32 (b * n)) + -(BitVec.ofNat 32 b) = -(BitVec.ofNat 32 (b * (n + 1))) := by
  rw [Nat.mul_add, Nat.mul_one, BitVec.ofNat_add, BitVec.neg_add, BitVec.sub_eq_add_neg]

theorem Framed.slot (h : Framed s t sz items bp) : t.slot sz 0 = s.slot sz items.length := by
  rw [slot_zero, h.spPlus, neg_items]
  rfl

/-- A push. -/
theorem Framed.push (h : Framed s t sz items bp) (hp : s.Plain) (hl : items.length < 999) (hc : s.slotOk sz items.length)
    (v : Dword) : ∃ u, Machine.push sz v t = .ok () u ∧ Framed s u sz (items ++ [v]) bp := by
  have hs := stackSize_cases s
  obtain ⟨u, hu, hr, hf, hb, -, -, -, hw, hP⟩ := push_unpaged (h.plain hp) h.wf v (h.same.slotOk h.slot hc)
  refine ⟨u, hu, ?_, hf.trans h.eflags, putBack_trans h.rest hb, hw, h.pushed.snoc h.same h.params hl h.slot hP⟩
  rw [hr, regsPushed_one, h.slot, h.same.size, h.regs, Regs.write_write hs, List.length_append]
  rfl

/-- A read that no item overlaps. -/
theorem Framed.read (h : Framed s t sz items bp) (hp : s.Plain) {off : Dword}
    (hc : s.segOk .ss off sz.bytes false = true)
    (hout : ∀ j, j < items.length → ∀ p ∈ linearRange (s.linear .ss off) sz.bytes, p ∉ s.slotBytes sz j) :
    ∃ u, memRead .ss off sz t = .ok (leDword (s.operandBytes .ss off sz.bytes)) u ∧ Framed s u sz items bp := by
  obtain ⟨u, hu, he⟩ := memRead_unpaged (h.plain hp) (sr := .ss) (off := off) (sz := sz) (by rw [h.same.segOk]; exact hc)
  have hbytes : t.operandBytes .ss off sz.bytes = s.operandBytes .ss off sz.bytes := by
    unfold State.operandBytes
    rw [h.same.linear]
    exact List.map_congr_left fun p hp' => h.pushed.2 p fun j hj => hout j hj p hp'
  rw [hbytes] at hu
  refine ⟨u, hu, by rw [he]; exact h.regs, by rw [he]; exact h.eflags, by rw [he]; exact h.rest, by rw [he]; exact h.wf, ?_⟩
  rw [he]
  exact h.pushed

/-- A write of (E)BP. -/
theorem Framed.setBp (h : Framed s t sz items bp) (hsz : sz = .b16 ∨ sz = .b32) (bp' : Dword) :
    Framed s (t.setReg sz .ebp bp') sz items bp' := by
  refine ⟨?_, h.eflags, h.rest, h.wf, h.pushed⟩
  rw [State.setReg_regs, h.regs, Regs.write_comm (stackSize_cases s) hsz _ (by decide), Regs.write_write hsz]

end

/-! Frame pointers. -/

/-- (E)BP after `i` frame pointers have been copied. -/
def State.frameAt (s : State) (sz : Size) (i : Nat) : Dword := trunc sz (s.reg sz .ebp - BitVec.ofNat 32 (sz.bytes * i))

/-- The frame pointer that is copied then. -/
def State.oldFrame (s : State) (sz : Size) (i : Nat) : Dword :=
  leDword (s.operandBytes .ss (s.frameAt sz (i + 1)) sz.bytes)

theorem frameAt_succ (s : State) {sz : Size} (hsz : sz = .b16 ∨ sz = .b32) (i : Nat) :
    trunc sz (s.frameAt sz i - BitVec.ofNat 32 sz.bytes) = s.frameAt sz (i + 1) := by
  unfold State.frameAt
  rw [BitVec.sub_eq_add_neg, trunc_add hsz, BitVec.sub_eq_add_neg, BitVec.add_assoc, neg_items, ← BitVec.sub_eq_add_neg]

/-- `n` frame pointers are copied, `i` having been. -/
theorem copyFrames_ok {s : State} {sz : Size} (hp : s.Plain) (hsz : sz = .b16 ∨ sz = .b32) {n : Nat} :
    ∀ {i m : Nat} {t : State} {items : List Dword}, items.length = i + 1 → i + n < m → m < 900 →
    (∀ j, j < m → s.slotOk sz j) →
    (∀ j, j < i + n → s.segOk .ss (s.frameAt sz (j + 1)) sz.bytes false = true ∧
      ∀ l, l < m → ∀ p ∈ linearRange (s.linear .ss (s.frameAt sz (j + 1))) sz.bytes, p ∉ s.slotBytes sz l) →
    Framed s t sz items (s.frameAt sz i) →
    ∃ u, copyFrames sz n t = .ok () u ∧
      Framed s u sz (items ++ (List.range' i n).map (s.oldFrame sz)) (s.frameAt sz (i + n)) := by
  induction n with
  | zero =>
    intro i m t items _ _ _ _ _ h
    exact ⟨t, rfl, by simpa using h⟩
  | succ n ih =>
    intro i m t items hlen hm h900 hslot hread h
    obtain ⟨hc, hout⟩ := hread i (by omega)
    obtain ⟨u1, h1, F1⟩ := h.read hp hc fun j hj => hout j (by omega)
    obtain ⟨u2, h2, F2⟩ := F1.push hp (by omega) (hslot _ (by omega)) (s.oldFrame sz i)
    have F3 := F2.setBp hsz (s.frameAt sz (i + 1))
    obtain ⟨u, hu, F⟩ := ih (i := i + 1) (m := m) (by rw [List.length_append, hlen]; rfl) (by omega) h900 hslot
      (fun j hj => hread j (by omega)) F3
    have hbp : trunc sz (t.reg sz .ebp - BitVec.ofNat 32 sz.bytes) = s.frameAt sz (i + 1) := by
      rw [h.ebp hsz, ← frameAt_succ s hsz]
      unfold State.frameAt
      rw [trunc_idem]
    refine ⟨u, ?_, ?_⟩
    · unfold copyFrames
      rw [run_bind_ok (run_get t), hbp]
      exact (run_bind_ok h1).trans ((run_bind_ok h2).trans hu)
    · rw [List.append_assoc] at F
      rw [List.range'_succ, List.map_cons, ← List.singleton_append, ← Nat.add_assoc, Nat.add_right_comm]
      exact F

/-- The end of ENTER: (E)BP takes the frame pointer and the stack pointer gives way for the locals. -/
theorem enter_ends {s t : State} {i : Instr} {m : M Unit} {items : List Dword} {bp : Dword} {n : Nat} {size : BitVec 16}
    (hi : exec i s = complete m s)
    (hm : m s = .ok () ((t.setReg s.osz .ebp (s.slot s.osz 0)).setSp
      ((t.setReg s.osz .ebp (s.slot s.osz 0)).spPlus (-(size.setWidth 32)))))
    (h : Framed s t s.osz items bp) (hn : items.length = n + 1) :
    ∃ t, exec i s = .next t ∧
      Ends s t ((s.regs.write s.stackSize .esp (s.slot s.osz n - size.setWidth 32)).write s.osz .ebp (s.slot s.osz 0))
        s.eflags s ∧ Pushed s t s.osz items := by
  have hs := stackSize_cases s
  have hz := osz_cases s
  have F := h.setBp hz (s.slot s.osz 0)
  refine ⟨_, hi.trans (complete_ok hm), ends_retire ?_ ?_ F.rest, F.pushed⟩
  · unfold State.setSp
    rw [State.setReg_regs, F.same.size, F.regs, Regs.write_write hs, F.spPlus, Regs.write_comm hz hs _ (by decide), hn]
    unfold State.spPlus State.slot State.spPlus
    rw [Regs.write_trunc hs, BitVec.sub_eq_add_neg, ← BitVec.add_assoc]
    congr 1
    rw [← Regs.write_trunc hs, ← trunc_add hs, Regs.write_trunc hs]
  · show ({ (t.setReg s.osz .ebp (s.slot s.osz 0)).eflags with rf := false } : Eflags) = _
    rw [F.eflags]

theorem leave_gives {s s1 : State} {v : Dword} (hs : s.Inv)
    (hr : memRead .ss (s.reg s.stackSize .ebp) s.osz
        { s with regs := s.regs.write s.stackSize .esp (s.reg s.stackSize .ebp) } = .ok v s1) :
    Gives .leave s
      ((s.regs.write s.stackSize .esp (s.reg s.stackSize .ebp + BitVec.ofNat 32 s.osz.bytes)).write s.osz .ebp v)
      (fun _ => s.eflags) s := by
  have hss := stackSize_cases s
  let t : State := { s with regs := s.regs.write s.stackSize .esp (s.reg s.stackSize .ebp) }
  have hebp : trunc s.stackSize (s.reg s.stackSize .ebp) = s.reg s.stackSize .ebp := trunc_of_lt (reg_lt s _ _)
  have hsp : t.sp = s.reg s.stackSize .ebp := (Regs.read_write_same hss _ _ _).trans hebp
  have hq := (memRead_ok hr).2
  have hpop := pop_ok (s := t) (sz := s.osz) (by rw [hsp]; exact hr)
  have hm : _ = EStateM.Result.ok () (({ s1 with regs := t.regsPopped s.osz.bytes } : State).setReg s.osz .ebp v) :=
    (run_bind_ok (f := fun w => writeReg s.osz .ebp w) hpop).trans rfl
  refine ⟨_, complete_ok hm, ends_retire ?_ ?_ ?_, fun p => (hq.bytes hs.mem p).of_mem rfl rfl rfl rfl⟩
  · rw [State.setReg_regs]
    show (t.regs.write s.stackSize .esp (t.spPlus (BitVec.ofNat 32 s.osz.bytes))).write s.osz .ebp v = _
    show (t.regs.write s.stackSize .esp (trunc s.stackSize (t.sp + _))).write s.osz .ebp v = _
    rw [Regs.write_trunc hss, hsp, Regs.write_write hss]
  · show ({ s1.eflags with rf := false } : Eflags) = _
    rw [hq.eflags]
  · exact (putBack_congr hq.rest (fun u => u.putBack s) fun _ _ => rfl).trans rfl

/-- Settles O44. -/
theorem enterLeave : Obligations.EnterLeave := by
  unfold Obligations.EnterLeave
  rintro s s1 size level v k n old hs rfl
  refine ⟨leave_gives hs, ?_⟩
  rintro rfl hp
  have hz := osz_cases s
  have push1 : s.slotOk s.osz 0 → ∃ t, Machine.push s.osz (s.reg s.osz .ebp) s = .ok () t ∧
      Framed s t s.osz [s.reg s.osz .ebp] (s.reg s.osz .ebp) :=
    fun h => (Framed.zero hz hs.mem).push hp (by simp) h _
  refine ⟨fun hn h0 => ?_, fun hn hslot hread hold => ?_⟩
  · obtain ⟨t, ht, F⟩ := push1 h0
    have hsp : t.sp = s.slot s.osz 0 := F.sp
    refine enter_ends (size := size) (n := 0) (m := spoiling _ (enterFrame size (level.toNat % 32))) rfl ?_ F rfl
    refine spoiling_ok ?_
    rw [hn, ← hsp]
    exact (run_bind_ok ht).trans rfl
  · obtain ⟨t, ht, F⟩ := push1 (hslot 0 (by omega))
    have hsp : t.sp = s.slot s.osz 0 := F.sp
    have h32 := Nat.mod_lt level.toNat (by decide : 0 < 32)
    have F0 : Framed s t s.osz [s.reg s.osz .ebp] (s.frameAt s.osz 0) := by
      have : s.frameAt s.osz 0 = s.reg s.osz .ebp := by
        unfold State.frameAt
        rw [Nat.mul_zero, BitVec.sub_zero, trunc_of_lt (reg_lt s _ _)]
      rw [this]; exact F
    obtain ⟨u, hu, F1⟩ := copyFrames_ok hp hz (n := level.toNat % 32 - 1) (i := 0) (m := level.toNat % 32 + 1) rfl
      (by omega) (by omega) hslot (fun j hj => hread j (by omega)) F0
    obtain ⟨w, hw, F2⟩ := F1.push hp (by simp; omega) (hslot _ (by simp; omega)) (s.slot s.osz 0)
    have holds : (List.range' 0 (level.toNat % 32 - 1)).map (s.oldFrame s.osz) = old := by
      rw [hold, List.range_eq_range']; rfl
    rw [holds] at F2
    refine enter_ends (size := size) (n := level.toNat % 32) (m := spoiling _ (enterFrame size (level.toNat % 32))) rfl ?_
      F2 (by rw [← holds]; simp; omega)
    refine spoiling_ok ((run_bind_ok ht).trans ?_)
    rw [run_bind_ok (run_get t), if_neg (by omega), hsp]
    exact (run_bind_ok hu).trans ((run_bind_ok hw).trans rfl)

end Sys2Proof.Machine
end

section
/-! Stores with paging off: what is pushed, and the Accessed bits that are set after. -/

namespace Sys2Proof.Machine

/-! Reads with paging off change nothing but bookkeeping. -/

theorem noted_draws (s : State) (n : Nat) : Noted s { s with draws := n } := rfl

theorem noted_effectiveAddress {m : MemOp} {a : SReg × Dword} {s t : State} (h : effectiveAddress m s = .ok a t) :
    Noted s t := by
  unfold effectiveAddress at h
  simp only at h
  split at h <;> cases h
  · exact noted_draws s _
  · exact .refl s

theorem noted_memRead {sr : SReg} {off v : Dword} {sz : Size} {s t : State} (hp : s.Plain)
    (h : memRead sr off sz s = .ok v t) : Noted s t := by
  obtain ⟨u, hu, he⟩ := memRead_unpaged hp (memRead_ok h).1
  rw [h] at hu
  cases hu
  exact he

theorem noted_readFarPointer {m : MemOp} {a : Dword × Word} {s t : State} (hp : s.Plain)
    (h : readFarPointer m s = .ok a t) : Noted s t := by
  unfold readFarPointer at h
  obtain ⟨⟨sr, off⟩, s1, h1, k⟩ := run_bind_eq_ok.1 h
  obtain ⟨_, s2, h2, k⟩ := run_bind_eq_ok.1 k
  cases h2
  obtain ⟨_, s3, h3, k⟩ := run_bind_eq_ok.1 k
  obtain ⟨-, rfl⟩ := segCheck_eq_ok.1 h3
  obtain ⟨_, s4, h4, k⟩ := run_bind_eq_ok.1 k
  obtain ⟨_, s5, h5, k⟩ := run_bind_eq_ok.1 k
  cases k
  have n1 := noted_effectiveAddress h1
  have n4 := n1.trans (noted_memRead (n1.plain hp) h4)
  exact n4.trans (noted_memRead (n4.plain hp) h5)

/-! Items and marks. -/

theorem PushedMarking.of_pushed {s t : State} {sz : Size} {items : List Dword} (h : Pushed s t sz items) :
    PushedMarking s t sz items [] := by
  refine ⟨fun p hp => (nomatch hp), fun i k v p b hi hk hb _ => ?_, fun p _ hp => h.2 p hp⟩
  have hget := congrArg (fun l => l[k]?) (h.1 i v hi)
  simpa [List.getElem?_zipWith, hk, hb] using hget

/-- A byte that cannot be written is as it was. -/
theorem PushedMarking.fixed {s t : State} {sz : Size} {items marks : List Dword} (h : PushedMarking s t sz items marks)
    {p : Dword} (hf : s.isFixed p.toNat = true) : t.readByte p = s.readByte p := by
  have hst : ∀ b, s.stored p b = s.readByte p := fun b => if_pos hf
  by_cases hm : p ∈ marks
  · rw [h.1 p hm, hst]
  · by_cases hs : ∀ i, i < items.length → p ∉ s.slotBytes sz i
    · exact h.2.2 p hm hs
    · simp only [not_forall, not_not] at hs
      obtain ⟨i, hi, hp⟩ := hs
      obtain ⟨k, hk, hget⟩ := List.getElem_of_mem hp
      have hk' : k < sz.bytes := by simpa [State.slotBytes] using hk
      rw [h.2.1 i k items[i] p _ (List.getElem?_eq_getElem hi) (List.getElem?_eq_some_iff.2 ⟨hk, hget⟩)
        (List.getElem?_eq_getElem (by simpa using hk')) hm, hst]

/-- One more Accessed bit. -/
theorem PushedMarking.mark {s t u : State} {sz : Size} {items marks : List Dword} {p : Dword}
    (h : PushedMarking s t sz items marks) (hp : u.readByte p = s.stored p (s.readByte p ||| 1))
    (ho : ∀ q, q ≠ p → u.readByte q = t.readByte q) : PushedMarking s u sz items (marks ++ [p]) := by
  refine ⟨fun q hq => ?_, fun i k v q b hi hk hb hq => ?_, fun q hq hs => ?_⟩
  · by_cases hqp : q = p
    · rw [hqp, hp]
    · have hm : q ∈ marks := by simpa [hqp] using hq
      rw [ho q hqp, h.1 q hm]
  · have hqp : q ≠ p := fun e => hq (by simp [e])
    rw [ho q hqp, h.2.1 i k v q b hi hk hb fun hm => hq (by simp [hm])]
  · have hqp : q ≠ p := fun e => hq (by simp [e])
    rw [ho q hqp, h.2.2 q (fun hm => hq (by simp [hm])) hs]

theorem PushedMarking.of_mem {s t t' : State} {sz : Size} {items marks : List Dword} (ht : t'.mem = t.mem)
    (h : PushedMarking s t sz items marks) : PushedMarking s t' sz items marks := by
  have e : t'.readByte = t.readByte := by funext p; unfold State.readByte; rw [ht]
  unfold PushedMarking at *
  rwa [e]

/-- With paging off: from `s` to `t` the items have been pushed, the Accessed bits at `marks` have been set, and the
general registers have become `g`. -/
structure Built (s t : State) (g : Regs) (sz : Size) (items marks : List Dword) : Prop where
  regs : t.regs = g
  eflags : t.eflags = s.eflags
  rest : t.putBack s = s
  wf : Memory.wf t.mem = true
  stored : PushedMarking s t sz items marks

section
variable {s t : State} {g : Regs} {sz : Size} {items marks : List Dword}

/-- A field that `State.putBack` compares is as it was. -/
theorem Built.field {γ : Type} (h : Built s t g sz items marks) (f : State → γ) (hf : ∀ a b : State, f (a.putBack b) = f a) :
    f t = f s := putBack_congr h.rest f hf

theorem Built.plain (h : Built s t g sz items marks) (hp : s.Plain) : t.Plain := by
  have hc : t.cr0 = s.cr0 := h.field (·.cr0) fun _ _ => rfl
  have hq : t.params = s.params := h.field (·.params) fun _ _ => rfl
  exact ⟨by rw [hc]; exact hp.unpaged, by unfold State.AllMemory; rw [hq]; exact hp.memory⟩

theorem Built.same (h : Built s t g sz items marks) : SameStack s t :=
  ⟨h.field (·.ss) fun _ _ => rfl, h.field (·.cr0) fun _ _ => rfl, by rw [h.eflags]⟩

theorem Built.currentCpl (h : Built s t g sz items marks) : t.currentCpl = s.currentCpl := by
  unfold State.currentCpl
  rw [h.field (·.cr0) fun _ _ => rfl, h.field (·.cpl) fun _ _ => rfl, h.eflags]

theorem Built.descriptorAt (h : Built s t g sz items marks) (sel : Word) : t.descriptorAt sel = s.descriptorAt sel :=
  h.field (fun s => s.descriptorAt sel) fun _ _ => rfl

theorem Built.of_noted (hw : Memory.wf s.mem = true) (h : Noted s t) (sz : Size) : Built s t s.regs sz [] [] := by
  refine ⟨by rw [h], by rw [h], by rw [h]; rfl, by rw [h]; exact hw, ⟨fun p hp => (nomatch hp), fun i k v p b hi => ?_,
    fun p _ _ => ?_⟩⟩
  · simp at hi
  · rw [h]; rfl

theorem Built.noted {u : State} (h : Built s t g sz items marks) (k : Noted t u) : Built s u g sz items marks := by
  refine ⟨by rw [k]; exact h.regs, by rw [k]; exact h.eflags, by rw [k]; exact h.rest, by rw [k]; exact h.wf, ?_⟩
  exact h.stored.of_mem k.mem

/-- A change of registers. -/
theorem Built.setRegs (h : Built s t g sz items marks) (g' : Regs) : Built s { t with regs := g' } g' sz items marks :=
  ⟨rfl, h.eflags, h.rest, h.wf, h.stored.of_mem rfl⟩

/-- A list of pushes, from a state where nothing has been stored. -/
theorem Built.pushAll (h : Built s t s.regs sz [] []) (hp : s.Plain) (items : List Dword) (hl : items.length < 1000)
    (hc : ∀ i, i < items.length → s.slotOk sz i) :
    ∃ u, Machine.pushAll sz items t = .ok () u ∧ Built s u (s.regsPushed sz items.length) sz items [] := by
  have hread : ∀ p, t.readByte p = s.readByte p := fun p => h.stored.2.2 p (by simp) (by simp)
  have hsp : ∀ k, t.spPlus k = s.spPlus k := fun k => by
    unfold State.spPlus State.sp State.reg; rw [h.same.size, h.regs]
  have hslot : ∀ i, t.slot sz i = s.slot sz i := fun i => hsp _
  have hbytes : ∀ i, t.slotBytes sz i = s.slotBytes sz i := fun i => by
    unfold State.slotBytes; rw [hslot, h.same.linear]
  have hpar : t.params = s.params := h.field (·.params) fun _ _ => rfl
  obtain ⟨u, hu, hr, hf, hb, -, -, -, hw, hP⟩ := pushAll_unpaged (h.plain hp) h.wf hl fun i hi =>
    h.same.slotOk (hslot i) (hc i hi)
  refine ⟨u, hu, ?_, hf.trans h.eflags, putBack_trans h.rest hb, hw, PushedMarking.of_pushed ⟨fun i v hi => ?_, fun p hp => ?_⟩⟩
  · rw [hr]
    unfold State.regsPushed
    rw [h.regs, h.same.size, hsp]
  · have := hP.1 i v hi
    rw [hbytes] at this
    rw [this]
    exact stored_congr hpar (fun q _ => hread q) _
  · rw [hP.2 p fun i hi => by rw [hbytes]; exact hp i hi, hread]

/-- The Accessed bit of `d` is set, the rest of the access byte being as at the start. -/
theorem Built.setAccessed_of_byte (h : Built s t g sz items marks) (hp : s.Plain) {sel : Word} {d : Descriptor}
    (hd : ((d.hi >>> 8) ||| 1).setWidth 8 = s.readByte (s.descriptorAt sel + 5) ||| 1) :
    ∃ u, Machine.setAccessed sel d t = .ok () u ∧ Built s u g sz items (marks ++ s.marks [(sel, d)]) := by
  obtain ⟨u, hu, he⟩ := setAccessed_unpaged (h.plain hp) sel d
  have hfix : ∀ a, t.isFixed a = s.isFixed a := fun a => by
    unfold State.isFixed; rw [h.field (·.params) fun _ _ => rfl]
  rw [h.descriptorAt] at he
  refine ⟨u, hu, by rw [he]; exact h.regs, by rw [he]; exact h.eflags, by rw [he]; exact h.rest, ?_, ?_⟩
  · rw [he]
    show Memory.wf (accessedMem t _ d) = true
    unfold accessedMem
    split
    · exact h.wf
    · exact writeCells_wf h.wf _ _
  · cases hb : d.type.getLsbD 0
    · have hmarks : s.marks [(sel, d)] = [s.descriptorAt sel + 5] := by
        simp [State.marks, hb, -BitVec.getLsbD_eq_getElem]
      have hmem : u.mem = writeCells t.isFixed t.mem [s.descriptorAt sel + 5]
          [s.readByte (s.descriptorAt sel + 5) ||| 1] := by
        rw [he]
        show accessedMem t _ d = _
        unfold accessedMem
        rw [hb, hd]
        rfl
      rw [hmarks]
      refine h.stored.mark ?_ fun q hq => ?_
      · have hget := read_writeCells_get (fixed := t.isFixed) h.wf [s.descriptorAt sel + 5]
          [s.readByte (s.descriptorAt sel + 5) ||| 1] (by simp) (k := 0) (by simp) (by simp)
        unfold State.readByte
        rw [hmem]
        refine hget.trans ?_
        unfold State.stored
        simp only [List.getElem_cons_zero]
        rw [hfix]
        split
        · next hf => exact h.stored.fixed hf
        · rfl
      · unfold State.readByte
        rw [hmem]
        exact read_writeCells_other h.wf _ _ (by simpa using hq)
    · have hmarks : s.marks [(sel, d)] = [] := by
        simp [State.marks, hb, -BitVec.getLsbD_eq_getElem]
      rw [hmarks, List.append_nil]
      refine h.stored.of_mem ?_
      rw [he]
      show accessedMem t _ d = t.mem
      unfold accessedMem
      rw [hb]
      rfl

/-- The Accessed bit of `d` is set, `d` being what `sel` names at the start. -/
theorem Built.setAccessed (h : Built s t g sz items marks) (hp : s.Plain) {sel : Word} {d : Descriptor}
    (hd : d = s.descriptorIn (s.descriptorAt sel)) :
    ∃ u, Machine.setAccessed sel d t = .ok () u ∧ Built s u g sz items (marks ++ s.marks [(sel, d)]) :=
  h.setAccessed_of_byte hp (by rw [hd, typeByte_accessed])

end

theorem marks_two (s : State) (x y : Word × Descriptor) : s.marks [x, y] = s.marks [x] ++ s.marks [y] := by
  unfold State.marks
  rw [← List.map_append, ← List.filter_append]
  rfl

/-- What ends in a state with the same bytes. -/
theorem Built.ends {s t u v : State} {g : Regs} {sz : Size} {items marks : List Dword} (h : Built s t g sz items marks)
    (hr : u.regs = g) (hf : u.eflags = t.eflags) (hm : u.mem = t.mem) (hb : u.putBack s = v) :
    Ends s (s.retire u) g s.eflags v ∧ PushedMarking s (s.retire u) sz items marks :=
  ⟨ends_retire hr (by rw [hf, h.eflags]) hb, h.stored.of_mem hm⟩

end Sys2Proof.Machine
end

section
/-! O45: far transfers outside Protected Mode, and what far transfers in every mode share. -/

namespace Sys2Proof.Machine

/-! The 8086 load of a segment register leaves the rest. -/

theorem load8086_regs (s : State) (sr : SReg) (v : Word) : (s.load8086 sr v).regs = s.regs := by
  obtain ⟨c, h, -⟩ := s.load8086_eq_setSeg sr v
  rw [h]; simp

theorem load8086_eflags (s : State) (sr : SReg) (v : Word) : (s.load8086 sr v).eflags = s.eflags := by
  obtain ⟨c, h, -⟩ := s.load8086_eq_setSeg sr v
  rw [h]; simp

theorem load8086_mem (s : State) (sr : SReg) (v : Word) : (s.load8086 sr v).mem = s.mem := by
  obtain ⟨c, h, -⟩ := s.load8086_eq_setSeg sr v
  rw [h]; simp

theorem load8086_putBack (t s : State) (sr : SReg) (v : Word) :
    (t.load8086 sr v).putBack s = (t.putBack s).load8086 sr v := by
  unfold State.load8086
  show _ = if t.cr0.pe = true then _ else _
  split
  · cases sr <;> rfl
  · cases sr <;> rfl

/-! Nothing pushed, nothing marked. -/

theorem regsPushed_zero (s : State) (sz : Size) : s.regsPushed sz 0 = s.regs := by
  have h : s.regs.write s.stackSize .esp (s.spPlus 0#32) = s.regs := regsPopped_zero s
  unfold State.regsPushed
  rw [Nat.mul_zero]
  exact h

/-- With no items their size does not matter. -/
theorem PushedMarking.marked {s t : State} {sz : Size} {marks : List Dword} (h : PushedMarking s t sz [] marks) :
    Marked s t marks :=
  ⟨h.1, fun i k v p b hi => by simp at hi, fun p hm _ => h.2.2 p hm fun i hi => by simp at hi⟩

theorem PushedMarking.noStore {s t : State} {sz : Size} (h : PushedMarking s t sz [] []) : NoStore s t :=
  fun p => .inl (h.2.2 p (by simp) (by simp))

theorem PushedMarking.pushed {s t : State} {sz : Size} {items : List Dword} (h : PushedMarking s t sz items []) :
    Pushed s t sz items := by
  have hl : ∀ i, (s.slotBytes sz i).length = sz.bytes := fun i => by simp [State.slotBytes]
  refine ⟨fun i v hi => List.ext_getElem (by simp [hl]) fun k hk _ => ?_, fun p hp => h.2.2 p (by simp) hp⟩
  have hk : k < sz.bytes := by simpa [hl] using hk
  have hb : k < (s.slotBytes sz i).length := by rwa [hl]
  have hv : k < (leBytes sz.bytes v).length := by simpa using hk
  simpa using h.2.1 i k v _ _ hi (List.getElem?_eq_getElem hb) (List.getElem?_eq_getElem hv) (by simp)

/-! Far forms: a pointer in the instruction or in memory. -/

/-- `i` is a far transfer of kind `kind` to `sel:off`, from the state `s1` in which its pointer has been read. -/
structure FarForm (i : Instr) (kind : TaskKind) (s s1 : State) (sel : Word) (off : Dword) : Prop where
  noted : Noted s s1
  run : ∃ m : M Bool, exec i s = finish State.retireFar m s ∧ m s = farTransfer kind sel off s1

section
variable {i : Instr} {kind : TaskKind} {s s1 : State} {sel : Word} {off : Dword}

theorem FarForm.next (h : FarForm i kind s s1 sel off) {t : State} (ht : farTransfer kind sel off s1 = .ok false t) :
    exec i s = .next (s.retire t) := by
  obtain ⟨m, hi, hm⟩ := h.run
  rw [hi, finish_ok (hm.trans ht)]
  rfl

theorem FarForm.raises (h : FarForm i kind s s1 sel off) {e : Exn}
    (ht : farTransfer kind sel off s1 = .error (.exn e .nothing) s1) :
    exec i s = takeException e { s with draws := s1.draws } := by
  obtain ⟨m, hi, hm⟩ := h.run
  rw [hi, finish_exn (hm.trans ht), h.noted]
  rfl

end

theorem farForm_ptr (o : Off) (sel : Word) (s : State) :
    FarForm (.callPtr o sel) .call s s sel (absOffset o) ∧ FarForm (.jmpPtr o sel) .jmp s s sel (absOffset o) :=
  ⟨⟨.refl s, _, rfl, rfl⟩, ⟨.refl s, _, rfl, rfl⟩⟩

theorem farForm_mem {s s1 : State} (hp : s.Plain) {m : MemOp} {off : Dword} {sel : Word}
    (h : readFarPointer m s = .ok (off, sel) s1) :
    FarForm (.callMem m) .call s s1 sel off ∧ FarForm (.jmpMem m) .jmp s s1 sel off :=
  ⟨⟨noted_readFarPointer hp h, _, rfl, run_bind_ok h⟩, ⟨noted_readFarPointer hp h, _, rfl, run_bind_ok h⟩⟩

/-! The return address. -/

/-- What a far transfer pushes. -/
def State.returnItems (s : State) (kind : TaskKind) : List Dword :=
  if kind.isCall then [s.cs.selector.setWidth 32, s.eip] else []

theorem returnItems_call (s : State) : s.returnItems .call = [s.cs.selector.setWidth 32, s.eip] := rfl

theorem pushReturn_built {s t : State} {sz : Size} (kind : TaskKind) (h : Built s t s.regs sz [] []) (hp : s.Plain)
    (hc : kind.isCall = true → s.slotOk sz 0 ∧ s.slotOk sz 1) :
    ∃ u, pushReturn kind sz t = .ok () u ∧
      Built s u (s.regsPushed sz (s.returnItems kind).length) sz (s.returnItems kind) [] := by
  have hcs : t.cs = s.cs := h.field (·.cs) fun _ _ => rfl
  have heip : t.eip = s.eip := h.field (·.eip) fun _ _ => rfl
  unfold pushReturn State.returnItems
  rw [run_bind_ok (run_get t), hcs, heip]
  cases hk : kind.isCall
  · exact ⟨t, rfl, by rw [if_neg (by simp), List.length_nil, regsPushed_zero]; exact h⟩
  · obtain ⟨u, hu, hb⟩ := h.pushAll hp [s.cs.selector.setWidth 32, s.eip] (by simp) fun i hi => by
      obtain ⟨h0, h1⟩ := hc hk
      match i, hi with
      | 0, _ => exact h0
      | 1, _ => exact h1
    exact ⟨u, spoiling_ok hu, hb⟩

/-! Real and Virtual 8086 Mode. -/

theorem Noted.protectedMode {s t : State} (h : Noted s t) : t.protectedMode = s.protectedMode := by rw [h]; rfl

theorem farTransfer_8086 {s : State} (h : s.protectedMode = false) (kind : TaskKind) (sel : Word) (off : Dword) :
    farTransfer kind sel off s = (do farReal kind sel off; pure false : M Bool) s := by
  unfold farTransfer
  rw [run_bind_ok (run_get s), h]
  rfl

/-- The jump at the end of a far transfer outside Protected Mode. -/
theorem Built.farEnds {s t : State} {g : Regs} {sz : Size} {items : List Dword} (h : Built s t g sz items [])
    (sel : Word) (off : Dword) :
    Ends s (s.retire ((t.load8086 .cs sel).jumpTo off)) g s.eflags
        { s.load8086 .cs sel with eip := off, eipOver := false } ∧
      PushedMarking s (s.retire ((t.load8086 .cs sel).jumpTo off)) sz items [] := by
  refine h.ends (u := (t.load8086 .cs sel).jumpTo off) ?_ ?_ ?_ ?_
  · exact (load8086_regs t .cs sel).trans h.regs
  · exact load8086_eflags t .cs sel
  · exact load8086_mem t .cs sel
  · show ({ (t.load8086 .cs sel).putBack s with eip := off, eipOver := false } : State) = _
    rw [load8086_putBack, h.rest]

/-- A far JMP or CALL whose offset is inside. -/
theorem far8086_ok {i : Instr} {kind : TaskKind} {s s1 : State} {sel : Word} {off : Dword} (hs : s.Inv) (hp : s.Plain)
    (hm : s.protectedMode = false) (hi : FarForm i kind s s1 sel off) (ho : off.toNat ≤ 0xFFFF)
    (hc : kind.isCall = true → s.slotOk s.osz 0 ∧ s.slotOk s.osz 1) :
    ∃ t, exec i s = .next t ∧
      Ends s t (s.regsPushed s.osz (s.returnItems kind).length) s.eflags
        { s.load8086 .cs sel with eip := off, eipOver := false } ∧
      PushedMarking s t s.osz (s.returnItems kind) [] := by
  obtain ⟨u, hu, hb⟩ := pushReturn_built kind (.of_noted hs.mem hi.noted s.osz) hp hc
  have hrun : farTransfer kind sel off s1 = .ok false ((u.load8086 .cs sel).jumpTo off) := by
    rw [farTransfer_8086 (hi.noted.protectedMode.trans hm)]
    refine run_bind_ok (s' := (u.load8086 .cs sel).jumpTo off) (a := ()) ?_
    unfold farReal
    rw [run_bind_ok (run_get s1), run_bind_ok (raiseIf_of_false s1 (decide_eq_false (by omega))), hi.noted.quiet.osz,
      run_bind_ok hu]
    rfl
  exact ⟨_, hi.next hrun, hb.farEnds sel off⟩

theorem far8086_beyond {i : Instr} {kind : TaskKind} {s s1 : State} {sel : Word} {off : Dword}
    (hm : s.protectedMode = false) (hi : FarForm i kind s s1 sel off) (ho : 0xFFFF < off.toNat) :
    exec i s = takeException (Exn.gp 0) { s with draws := s1.draws } := by
  refine hi.raises ?_
  rw [farTransfer_8086 (hi.noted.protectedMode.trans hm)]
  refine run_bind_error ?_
  unfold farReal
  rw [run_bind_ok (run_get s1)]
  exact run_bind_error (raiseIf_of_true s1 (decide_eq_true ho))

theorem Popped.built {s t : State} {n : Nat} (hw : Memory.wf s.mem = true) (h : Popped s t n) (sz : Size) :
    Built s t (s.regsPopped n) sz [] [] := by
  have hb := (Built.of_noted hw (show Noted s { t with regs := s.regs } by
    unfold Noted; conv_lhs => rw [h]) sz).setRegs t.regs
  rw [h.regs] at hb
  rw [show t = ({ t with regs := s.regsPopped n } : State) by rw [← h.regs]]
  exact hb

theorem jump_setSp (t : State) (v : Word) (target x : Dword) :
    ((t.load8086 .cs v).jumpTo target).setSp x =
      (({ t with regs := t.regs.write t.stackSize .esp x } : State).load8086 .cs v).jumpTo target := by
  unfold State.load8086
  show State.setSp (State.jumpTo (if _ then _ else _) target) x = State.jumpTo (if t.cr0.pe = true then _ else _) target
  split
  · rfl
  · rfl

/-- RET outside Protected Mode. -/
theorem retf8086_ok {i : Instr} {s : State} {n : Word} (hs : s.Inv) (hp : s.Plain) (hm : s.protectedMode = false)
    (hi : exec i s = complete (returnFar n) s) (h0 : s.itemOk s.osz 0) (h1 : s.itemOk s.osz 1)
    (ho : (s.stackItem s.osz 0).toNat ≤ 0xFFFF) :
    Jumps i s (s.regsPopped (2 * s.osz.bytes + n.toNat)) (s.load8086 .cs ((s.stackItem s.osz 1).setWidth 16))
      (s.stackItem s.osz 0) := by
  obtain ⟨u, hu, hu'⟩ := pop_unpaged (i := 0) hp (.zero s) h0
  obtain ⟨t, ht, ht'⟩ := pop_unpaged (i := 1) hp hu' h1
  have hk : t.regsPopped n.toNat = s.regsPopped (2 * s.osz.bytes + n.toNat) := by
    rw [regsPopped_add ht'.same ht'.regs, show s.osz.bytes * (1 + 1) = 2 * s.osz.bytes from Nat.mul_comm _ _]
  have hrun : returnFar n s =
      .ok () ((({ t with regs := t.regsPopped n.toNat } : State).load8086 .cs
        ((s.stackItem s.osz 1).setWidth 16)).jumpTo (s.stackItem s.osz 0)) := by
    unfold returnFar
    rw [run_bind_ok (run_get s), hm]
    show retfReal n s = _
    unfold retfReal
    rw [run_bind_ok (run_get s), run_bind_ok hu, run_bind_ok ht,
      run_bind_ok (raiseIf_of_false t (decide_eq_false (by omega)))]
    refine congrArg (EStateM.Result.ok ()) ((jump_setSp t _ _ _).trans ?_)
    rw [setWidth32_ofNat]
    rfl
  have hb := (ht'.built hs.mem s.osz).setRegs (t.regsPopped n.toNat)
  obtain ⟨hends, hst⟩ := hb.farEnds ((s.stackItem s.osz 1).setWidth 16) (s.stackItem s.osz 0)
  rw [← hk]
  exact ⟨_, hi.trans (complete_ok hrun), hends, hst.noStore⟩

/-- Settles O45. -/
theorem farTransfers8086 : Obligations.FarTransfers8086 := by
  unfold Obligations.FarTransfers8086
  intro s s1 sel off o m n hs hm hp
  refine ⟨fun call jmp hform => ?_, fun h0 h1 hsel ho => ?_⟩
  · obtain ⟨hcall, hjmp⟩ : FarForm call .call s s1 sel off ∧ FarForm jmp .jmp s s1 sel off := by
      rcases hform with ⟨rfl, rfl, hoff, rfl⟩ | ⟨rfl, rfl, hr⟩
      · have : off = absOffset o := by rw [hoff]; cases o <;> rfl
        rw [this]
        exact farForm_ptr o sel s1
      · exact farForm_mem hp hr
    refine ⟨fun ho => ⟨?_, fun h0 h1 => ?_⟩, fun ho => ⟨far8086_beyond hm hjmp ho, far8086_beyond hm hcall ho⟩⟩
    · obtain ⟨t, ht, he, hst⟩ := far8086_ok hs hp hm hjmp ho (by simp [TaskKind.isCall])
      have hg : s.regsPushed s.osz (s.returnItems .jmp).length = s.regs := regsPushed_zero s s.osz
      rw [hg] at he
      exact ⟨t, ht, he, hst.noStore⟩
    · obtain ⟨t, ht, he, hst⟩ := far8086_ok hs hp hm hcall ho fun _ => ⟨h0, h1⟩
      exact ⟨t, ht, he, hst.pushed⟩
  · subst hsel
    exact ⟨retf8086_ok (n := 0) hs hp hm rfl h0 h1 ho, retf8086_ok hs hp hm rfl h0 h1 ho⟩

end Sys2Proof.Machine
end

section
/-! O46: far transfers in Protected Mode to a code segment. -/

namespace Sys2Proof.Machine

/-! The stack of a return, read in place. -/

/-- A part of an operand that passes its segment check passes it too. -/
theorem segOk_inside {s : State} {sr : SReg} {off : Dword} {n k m : Nat} {w : Bool} (h : s.segOk sr off n w = true)
    (hm : 0 < m) (hk : k + m ≤ n) : s.segOk sr (off + BitVec.ofNat 32 k) m w = true := by
  unfold State.segOk at h ⊢
  obtain ⟨hl, hr⟩ := Bool.and_eq_true_iff.1 h
  rw [Bool.and_eq_true_iff]
  refine ⟨?_, hr⟩
  have hlim := (s.seg sr).limit.isLt
  unfold SegReg.limitOk at hl ⊢
  cases he : (s.seg sr).expandDown
  · simp only [he, Bool.false_eq_true, if_false, decide_eq_true_eq] at hl ⊢
    rw [BitVec.toNat_add, BitVec.toNat_ofNat]
    omega
  · simp only [he, if_true, Bool.and_eq_true_iff, decide_eq_true_eq] at hl ⊢
    rw [BitVec.toNat_add, BitVec.toNat_ofNat]
    cases hdb : (s.seg sr).db
    · simp only [hdb, Bool.false_eq_true, if_false] at hl ⊢
      omega
    · simp only [hdb, if_true] at hl ⊢
      omega

theorem segOk_start {s : State} {sr : SReg} {off : Dword} {n m : Nat} {w : Bool} (h : s.segOk sr off n w = true)
    (hm : 0 < m) (hk : m ≤ n) : s.segOk sr off m w = true := by
  have := segOk_inside (k := 0) h hm (by omega)
  rwa [show off + BitVec.ofNat 32 0 = off from BitVec.add_zero _] at this

theorem Noted.segOk {s t : State} (h : Noted s t) (sr : SReg) (off : Dword) (n : Nat) (w : Bool) :
    t.segOk sr off n w = s.segOk sr off n w := h.quiet.segOk sr off n w

theorem checkStackTop_ok {s t : State} (h : Noted s t) {n : Nat} (hc : s.segOk .ss s.sp n false = true) :
    checkStackTop n t = .ok () t := by
  unfold checkStackTop
  rw [run_bind_ok (run_get t)]
  exact segCheck_eq_ok.2 ⟨by rw [h.segOk, h.quiet.sp]; exact hc, rfl⟩

theorem Noted.operandBytes {s t : State} (h : Noted s t) (sr : SReg) (off : Dword) (n : Nat) :
    t.operandBytes sr off n = s.operandBytes sr off n := by
  rw [h]; cases sr <;> rfl

theorem stackAt_ok {s t : State} (hp : s.Plain) (h : Noted s t) {n k : Nat} {sz : Size}
    (hc : s.segOk .ss s.sp n false = true) (hk : k + sz.bytes ≤ n) :
    ∃ u, stackAt k sz t = .ok (leDword (s.operandBytes .ss (s.sp + BitVec.ofNat 32 k) sz.bytes)) u ∧ Noted s u := by
  have hin := segOk_inside hc (one_le_bytes sz) hk
  obtain ⟨u, hu, he⟩ := memRead_unpaged (h.plain hp) (sr := .ss) (off := s.sp + BitVec.ofNat 32 k) (sz := sz)
    (by rw [h.segOk]; exact hin)
  rw [h.operandBytes] at hu
  refine ⟨u, ?_, h.trans he⟩
  unfold stackAt
  rw [run_bind_ok (run_get t), h.quiet.sp]
  exact hu

/-! The segments of a return. -/

theorem Noted.currentCpl {s t : State} (h : Noted s t) : t.currentCpl = s.currentCpl := by rw [h]; rfl

/-- A descriptor that is found in plain memory. -/
theorem readDescriptor_noted {s t : State} (hp : s.Plain) (h : Noted s t) {sel : Word} (hin : s.inTable sel = true)
    (e : Exn) : ∃ u, readDescriptor sel e t = .ok (s.descriptorIn (s.descriptorAt sel)) u ∧ Noted s u := by
  obtain ⟨u, hu, he⟩ := readDescriptor_unpaged (h.plain hp) ((h.inTable sel).trans hin) e
  rw [h.descriptorAt, h.descriptorIn] at hu
  exact ⟨u, hu, h.trans he⟩

theorem bne_false_of_eq {α : Type} [BEq α] [LawfulBEq α] {a b : α} (h : a = b) : (a != b) = false := by simp [h]

theorem returnSegment_ok {s t : State} (h : Noted s t) {sel : Word} {d : Descriptor} {off : Dword}
    (hc : CodeTarget s sel d off) (hlevel : s.currentCpl ≤ rpl sel)
    (hconf : if d.isConforming then d.dpl ≤ rpl sel else d.dpl = rpl sel) :
    ∃ u, returnSegment sel t = .ok d u ∧ Noted s u := by
  obtain ⟨u, hu, he⟩ := readDescriptor_noted hc.plain h hc.inside (Exn.gp (selCode sel false))
  rw [← hc.found] at hu
  refine ⟨u, ?_, he⟩
  have hbad : (!d.isCode || decide (rpl sel < t.currentCpl)) = false := by
    rw [hc.code, h.currentCpl]
    simpa using hlevel
  have hdpl : (if d.isConforming then decide (rpl sel < d.dpl) else d.dpl != rpl sel) = false := by
    split at hconf
    · next hf => rw [if_pos hf]; simpa using hconf
    · next hf => rw [if_neg hf]; exact bne_false_of_eq hconf
  unfold returnSegment
  rw [run_bind_ok (run_get t), run_bind_ok (raiseIf_of_false t hc.notNull), run_bind_ok hu,
    run_bind_ok (raiseIf_of_false u hbad), run_bind_ok (raiseIf_of_false u hdpl),
    run_bind_ok (raiseIf_of_false u (by rw [hc.present]; rfl))]
  rfl

theorem returnStack_ok {s t : State} (hp : s.Plain) (h : Noted s t) {level : BitVec 2} {sel : Word} {d : Descriptor}
    (hc : StackTarget s level sel d) : ∃ u, returnStack level sel t = .ok d u ∧ Noted s u := by
  obtain ⟨u, hu, he⟩ := loadStackSegment_unpaged (h.plain hp) (Exn.gp 0) (Exn.gp (selCode sel false))
    (Exn.ss (selCode sel false)) hc.notNull ((h.inTable sel).trans hc.inside)
    (show d = t.descriptorIn (t.descriptorAt sel) by rw [h.descriptorAt, h.descriptorIn]; exact hc.found)
    ⟨hc.level.1, hc.level.2, hc.data.1⟩ hc.data.2
  exact ⟨u, hu, h.trans he⟩

/-! Segments that an outer level may not use. -/

theorem dropSeg_eq (s : State) (level : BitVec 2) (sr : SReg) :
    s.dropSeg level sr = s.setSeg sr ((s.seg sr).outside level) := by
  unfold State.dropSeg SegReg.outside
  by_cases h : (s.seg sr).valid = true ∧ (s.seg sr).isConforming = false ∧ (s.seg sr).dpl < level
  · rw [if_pos h, if_pos (by simpa [and_assoc] using h)]
    rfl
  · rw [if_neg h, if_neg (by simpa [and_assoc] using h), setSeg_seg]

theorem dropInner_eq (s : State) (level : BitVec 2) :
    s.dropInner level = { s with
      es := s.es.outside level, ds := s.ds.outside level, fs := s.fs.outside level, gs := s.gs.outside level } := by
  unfold State.dropInner
  rw [dropSeg_eq, dropSeg_eq, dropSeg_eq, dropSeg_eq]
  rfl

/-! The end of a transfer to a code segment. -/

section
variable {s t : State} {g : Regs} {sz : Size} {items marks : List Dword}

theorem Built.codeEnds (h : Built s t g sz items marks) (sel : Word) (d : Descriptor) (off : Dword) :
    Ends s (s.retire ((t.setSeg .cs (d.cache sel)).jumpTo off)) g s.eflags (s.inCode sel d off) ∧
      PushedMarking s (s.retire ((t.setSeg .cs (d.cache sel)).jumpTo off)) sz items marks := by
  refine h.ends (u := (t.setSeg .cs (d.cache sel)).jumpTo off) h.regs rfl rfl ?_
  show ({ (t.putBack s).setSeg .cs (d.cache sel) with eip := off, eipOver := false } : State) = _
  rw [h.rest]
  rfl

/-- The size of the stack that a return to an outer level takes. -/
theorem Built.outer_stackSize (h : Built s t g sz items marks) (sel : Word) (d : Descriptor) (off : Dword) (ss : Word)
    (sd : Descriptor) : (t.setSeg .ss (sd.cache ss)).stackSize = (s.outside sel d off ss sd).stackSize := by
  show (if (t.cr0.pe && !t.eflags.vm) && sd.db then Size.b32 else .b16) = _
  rw [h.same.cr0, h.eflags]
  rfl

/-- Bytes released from a stack that is where it was. -/
theorem Built.release (h : Built s t s.regs sz items marks) (n : Nat) :
    Built s (t.setSp (t.spPlus (BitVec.ofNat 32 n))) (s.regsPopped n) sz items marks := by
  have hsp : t.spPlus (BitVec.ofNat 32 n) = s.spPlus (BitVec.ofNat 32 n) := by
    unfold State.spPlus State.sp State.reg; rw [h.same.size, h.regs]
  have hr : t.regs.write t.stackSize .esp (t.spPlus (BitVec.ofNat 32 n)) = s.regsPopped n := by
    rw [hsp, h.same.size, h.regs]; rfl
  have hb := h.setRegs (t.regs.write t.stackSize .esp (t.spPlus (BitVec.ofNat 32 n)))
  rw [hr] at hb
  unfold State.setSp State.setReg
  rw [hr]
  exact hb

end

/-! JMP and CALL. -/

theorem farTransfer_protected {s : State} (h : s.protectedMode = true) (kind : TaskKind) (sel : Word) (off : Dword) :
    farTransfer kind sel off s = farProtected kind sel off s := by
  unfold farTransfer
  rw [run_bind_ok (run_get s), h]
  rfl

theorem farProtected_code {i : Instr} {kind : TaskKind} {s s1 : State} {sel : Word} {d : Descriptor} {off : Dword}
    (hs : s.Inv) (hm : s.protectedMode = true) (hc : CodeTarget s sel d off) (hi : FarForm i kind s s1 sel off)
    (hconf : if d.isConforming then d.dpl ≤ s.currentCpl else d.dpl = s.currentCpl ∧ rpl sel ≤ s.currentCpl)
    (hslot : kind.isCall = true → s.slotOk s.osz 0 ∧ s.slotOk s.osz 1) :
    ∃ t, exec i s = .next t ∧
      Ends s t (s.regsPushed s.osz (s.returnItems kind).length) s.eflags
        (s.inCode (withRpl sel s.currentCpl) d off) ∧
      PushedMarking s t s.osz (s.returnItems kind) (s.marks [(sel, d)]) := by
  obtain ⟨s2, h2, n2⟩ := readDescriptor_noted hc.plain hi.noted hc.inside (Exn.gp (selCode sel false))
  rw [← hc.found] at h2
  obtain ⟨u, hu, hb⟩ := pushReturn_built kind (.of_noted hs.mem n2 s.osz) hc.plain hslot
  obtain ⟨t, ht, hb'⟩ := hb.setAccessed hc.plain hc.found
  have hlevel : (if d.isConforming then decide (s.currentCpl < d.dpl)
      else decide (s.currentCpl < rpl sel) || d.dpl != s.currentCpl) = false := by
    split at hconf
    · next hf => rw [if_pos hf]; simpa using hconf
    · next hf =>
      rw [if_neg hf, bne_false_of_eq hconf.1, Bool.or_false, decide_eq_false_iff_not]
      exact BitVec.not_lt.2 hconf.2
  have hcode : farCode kind sel d off s2 =
      .ok () ((t.setSeg .cs (d.cache (withRpl sel s.currentCpl))).jumpTo off) := by
    unfold farCode
    rw [run_bind_ok (run_get s2), n2.currentCpl, n2.quiet.osz, run_bind_ok (raiseIf_of_false s2 hlevel),
      run_bind_ok (raiseIf_of_false s2 (by rw [hc.present]; rfl)),
      run_bind_ok (raiseIf_of_false s2 (decide_eq_false (Nat.not_lt.2 hc.limit))), run_bind_ok hu, run_bind_ok ht]
    rfl
  have hrun : farTransfer kind sel off s1 =
      .ok false ((t.setSeg .cs (d.cache (withRpl sel s.currentCpl))).jumpTo off) := by
    rw [farTransfer_protected (hi.noted.protectedMode.trans hm)]
    unfold farProtected
    rw [run_bind_ok (raiseIf_of_false s1 hc.notNull), run_bind_ok h2, if_pos hc.code, run_bind_ok hcode]
    rfl
  exact ⟨_, hi.next hrun, hb'.codeEnds _ _ _⟩

/-! RET. -/

/-- What RET finds first, and what it checks before the levels part. -/
structure FarReturn (s : State) (sel : Word) (d : Descriptor) (off : Dword) : Prop where
  target : CodeTarget s sel d off
  eip : off = leDword (s.operandBytes .ss s.sp s.osz.bytes)
  selector : sel = (leDword (s.operandBytes .ss (s.sp + BitVec.ofNat 32 s.osz.bytes) 2)).setWidth 16
  conforming : if d.isConforming then d.dpl ≤ rpl sel else d.dpl = rpl sel

theorem two_le_osz (s : State) : 2 ≤ s.osz.bytes := by
  rcases osz_cases s with h | h <;> rw [h] <;> decide

/-- The rest of a far return to the same level. -/
def retfSame (n : Word) (sel : Word) (d : Descriptor) (ip : Dword) (k : Nat) : M Unit := do
  raiseIf (decide (d.limit.toNat < ip.toNat)) (Exn.gp 0)
  setAccessed sel d
  modify fun s => s.setSp (s.spPlus (BitVec.ofNat 32 (2 * k + n.toNat)))
  setCodeSegment (d.cache sel) ip

/-- The rest of a far return to an outer level. -/
def retfOuter (n : Word) (sel : Word) (d : Descriptor) (ip : Dword) (sz : Size) : M Unit := do
  checkStackTop (4 * sz.bytes + n.toNat)
  let sp ← stackAt (2 * sz.bytes + n.toNat) sz
  let ss ← stackAt (3 * sz.bytes + n.toNat) .b16
  let ss : Word := ss.setWidth 16
  let sd ← returnStack (rpl sel) ss
  raiseIf (decide (d.limit.toNat < ip.toNat)) (Exn.gp 0)
  setAccessed sel d
  setAccessed ss sd
  modify fun s => s.setSeg .ss (sd.cache ss)
  modify fun s => s.setSp (sp + n.setWidth 32)
  setCpl (rpl sel)
  setCodeSegment (d.cache sel) ip
  modify fun s => s.dropInner (rpl sel)

/-- The part of a far return that both levels share. -/
theorem retf_start {s : State} {sel : Word} {d : Descriptor} {off : Dword} (n : Word) (hm : s.protectedMode = true)
    (h : FarReturn s sel d off) (hlevel : s.currentCpl ≤ rpl sel)
    (hseg : s.segOk .ss s.sp (2 * s.osz.bytes) false = true) :
    ∃ t, Noted s t ∧ returnFar n s =
      (if rpl sel = s.currentCpl then retfSame n sel d off s.osz.bytes else retfOuter n sel d off s.osz) t := by
  have h2 := two_le_osz s
  obtain ⟨s1, h1, n1⟩ := stackAt_ok (k := s.osz.bytes) (sz := .b16) h.target.plain (.refl s) hseg
    (show s.osz.bytes + 2 ≤ _ by omega)
  obtain ⟨s2, h2, n2⟩ := stackAt_ok (k := 0) (sz := s.osz) h.target.plain n1 hseg (by omega)
  rw [show s.sp + BitVec.ofNat 32 0 = s.sp from BitVec.add_zero _, ← h.eip] at h2
  obtain ⟨s3, h3, n3⟩ := returnSegment_ok n2 h.target hlevel h.conforming
  refine ⟨s3, n3, ?_⟩
  unfold returnFar
  rw [run_bind_ok (run_get s), if_pos hm]
  unfold retfProtected
  rw [run_bind_ok (run_get s), run_bind_ok (checkStackTop_ok (.refl s) hseg), run_bind_ok h1, run_bind_ok h2,
    show (leDword (s.operandBytes .ss (s.sp + BitVec.ofNat 32 s.osz.bytes) Size.b16.bytes)).setWidth 16 = sel from
      h.selector.symm, run_bind_ok h3]
  rfl

/-- A far return to the same level. -/
theorem retf_same {i : Instr} {s : State} {sel : Word} {d : Descriptor} {off : Dword} {n : Word} (hs : s.Inv)
    (hm : s.protectedMode = true) (hi : exec i s = complete (returnFar n) s) (h : FarReturn s sel d off)
    (hlevel : rpl sel = s.currentCpl) (hseg : s.segOk .ss s.sp (2 * s.osz.bytes) false = true) :
    ∃ t, exec i s = .next t ∧ Ends s t (s.regsPopped (2 * s.osz.bytes + n.toNat)) s.eflags (s.inCode sel d off) ∧
      Marked s t (s.marks [(sel, d)]) := by
  obtain ⟨t, hn, hrun⟩ := retf_start n hm h (BitVec.le_of_eq hlevel.symm) hseg
  obtain ⟨u, hu, hb⟩ := (Built.of_noted hs.mem hn .b8).setAccessed h.target.plain h.target.found
  rw [if_pos hlevel] at hrun
  have hend : returnFar n s = .ok ()
      (((u.setSp (u.spPlus (BitVec.ofNat 32 (2 * s.osz.bytes + n.toNat)))).setSeg .cs (d.cache sel)).jumpTo off) := by
    rw [hrun]
    unfold retfSame
    rw [run_bind_ok (raiseIf_of_false t (decide_eq_false (Nat.not_lt.2 h.target.limit))), run_bind_ok hu]
    rfl
  exact ⟨_, hi.trans (complete_ok hend), (hb.release _).codeEnds _ _ _⟩

/-- A far return to an outer level. -/
theorem retf_outer {i : Instr} {s : State} {sel ss : Word} {d sd : Descriptor} {off sp : Dword} {n : Word} (hs : s.Inv)
    (hm : s.protectedMode = true) (hi : exec i s = complete (returnFar n) s) (h : FarReturn s sel d off)
    (hlevel : s.currentCpl < rpl sel) (hseg : s.segOk .ss s.sp (4 * s.osz.bytes + n.toNat) false = true)
    (hsp : sp = leDword (s.operandBytes .ss (s.sp + BitVec.ofNat 32 (2 * s.osz.bytes + n.toNat)) s.osz.bytes))
    (hss : ss = (leDword (s.operandBytes .ss (s.sp + BitVec.ofNat 32 (3 * s.osz.bytes + n.toNat)) 2)).setWidth 16)
    (hst : StackTarget s (rpl sel) ss sd) :
    ∃ t, exec i s = .next t ∧
      Ends s t (s.regs.write (s.outside sel d off ss sd).stackSize .esp (sp + BitVec.ofNat 32 n.toNat)) s.eflags
        (s.outside sel d off ss sd) ∧
      Marked s t (s.marks [(sel, d), (ss, sd)]) := by
  have hp := h.target.plain
  have h2 := two_le_osz s
  obtain ⟨t, n0, hrun⟩ := retf_start n hm h (BitVec.le_of_lt hlevel) (segOk_start hseg (by omega) (by omega))
  obtain ⟨s1, h1, n1⟩ := stackAt_ok (k := 2 * s.osz.bytes + n.toNat) (sz := s.osz) hp n0 hseg (by omega)
  obtain ⟨s2, h2, n2⟩ := stackAt_ok (k := 3 * s.osz.bytes + n.toNat) (sz := .b16) hp n1 hseg
    (show 3 * s.osz.bytes + n.toNat + 2 ≤ _ by omega)
  obtain ⟨s3, h3, n3⟩ := returnStack_ok hp n2 hst
  obtain ⟨s4, h4, b4⟩ := (Built.of_noted hs.mem n3 .b8).setAccessed hp h.target.found
  obtain ⟨u, h5, b5⟩ := b4.setAccessed hp hst.found
  rw [List.nil_append, ← marks_two] at b5
  rw [← hsp] at h1
  rw [if_neg (fun e => BitVec.ne_of_lt hlevel e.symm)] at hrun
  have hend : returnFar n s = .ok () (State.dropInner
      ((({ (u.setSeg .ss (sd.cache ss)).setSp (sp + n.setWidth 32) with cpl := rpl sel } : State).setSeg .cs
        (d.cache sel)).jumpTo off) (rpl sel)) := by
    rw [hrun]
    unfold retfOuter
    rw [run_bind_ok (checkStackTop_ok n0 hseg), run_bind_ok h1, run_bind_ok h2,
      show (leDword (s.operandBytes .ss (s.sp + BitVec.ofNat 32 (3 * s.osz.bytes + n.toNat)) Size.b16.bytes)).setWidth 16
        = ss from hss.symm, run_bind_ok h3,
      run_bind_ok (raiseIf_of_false s3 (decide_eq_false (Nat.not_lt.2 h.target.limit))), run_bind_ok h4, run_bind_ok h5]
    rfl
  rw [dropInner_eq] at hend
  refine ⟨_, hi.trans (complete_ok hend), (b5.setRegs (s.regs.write _ .esp _)).ends ?_ ?_ ?_ ?_⟩
  · show u.regs.write (u.setSeg .ss (sd.cache ss)).stackSize .esp (sp + n.setWidth 32) = _
    rw [b5.outer_stackSize, b5.regs, setWidth32_ofNat]
  · rfl
  · rfl
  · show ((u.putBack s).outside sel d off ss sd) = _
    rw [b5.rest]

/-- Settles O46. -/
theorem farTransferProtected : Obligations.FarTransferProtected := by
  unfold Obligations.FarTransferProtected
  intro s s1 sel d off o m n hs hm hc
  refine ⟨fun call jmp hform hconf => ?_, fun back r hback hoff hsel hconf => ?_⟩
  · obtain ⟨s', hcall, hjmp⟩ : ∃ s', FarForm call .call s s' sel off ∧ FarForm jmp .jmp s s' sel off := by
      rcases hform with ⟨rfl, rfl, hoff⟩ | ⟨rfl, rfl, hr⟩
      · have : off = absOffset o := by rw [hoff]; cases o <;> rfl
        rw [this]
        exact ⟨s, farForm_ptr o sel s⟩
      · exact ⟨s1, farForm_mem hc.plain hr⟩
    constructor
    · obtain ⟨t, ht, he, hst⟩ := farProtected_code hs hm hc hjmp hconf (by simp [TaskKind.isCall])
      have hg : s.regsPushed s.osz (s.returnItems .jmp).length = s.regs := regsPushed_zero s s.osz
      rw [hg] at he
      exact ⟨t, ht, he, hst.marked⟩
    · intro h0 h1
      obtain ⟨t, ht, he, hst⟩ := farProtected_code hs hm hc hcall hconf fun _ => ⟨h0, h1⟩
      rw [returnItems_call] at he hst
      exact ⟨t, ht, he, hst⟩
  · have hr : FarReturn s sel d off := ⟨hc, hoff, hsel, hconf⟩
    obtain ⟨n', hi, rfl⟩ : ∃ n' : Word, exec back s = complete (returnFar n') s ∧ r = n'.toNat := by
      rcases hback with ⟨rfl, rfl⟩ | ⟨rfl, rfl⟩
      · exact ⟨0, rfl, rfl⟩
      · exact ⟨n, rfl, rfl⟩
    exact ⟨fun hl hseg => retf_same hs hm hi hr hl hseg,
      fun hl hseg ss sd sp hsp hss hst => retf_outer hs hm hi hr hl hseg hsp hss hst⟩

end Sys2Proof.Machine
end

section
/-! O52 and O53: BOUND and IRET. -/

namespace Sys2Proof.Machine

/-! BOUND. -/

theorem outOfBounds_iff {sz : Size} {i lo hi : Dword} :
    outOfBounds sz i lo hi = true ↔ signedVal sz i < signedVal sz lo ∨ signedVal sz hi < signedVal sz i := by
  unfold outOfBounds; simp

/-- Settles O52. -/
theorem bound_obligation : Obligations.Bound := by
  unfold Obligations.Bound
  rintro s s1 s2 s3 reg m sr off lo hi sz hs rfl h1 h2 h3
  have hq : Quiet s s3 := ((quiet_effectiveAddress h1).trans (memRead_ok h2).2).trans (memRead_ok h3).2
  refine ⟨fun hin => ?_, fun hout => ?_⟩
  · have hb : outOfBounds s.osz (s.reg s.osz reg) lo hi = false := by
      rw [← Bool.not_eq_true, outOfBounds_iff]; omega
    exact gives_of_quiet rfl hs
      ((run_bind_ok h1).trans ((run_bind_ok h2).trans ((run_bind_ok h3).trans (raiseIf_of_false s3 hb)))) hq rfl rfl
      hq.regs (by rw [hq.eflags])
  · have hb : outOfBounds s.osz (s.reg s.osz reg) lo hi = true := outOfBounds_iff.2 hout
    refine (exec_exn_after (i := .bound reg m) rfl
      ((run_bind_ok h1).trans ((run_bind_ok h2).trans ((run_bind_ok h3).trans (raiseIf_of_true s3 hb))))).trans ?_
    rw [hq.bus]

/-! IRET. -/

theorem iretFlags_eq (s : State) (v : Dword) :
    s.iretFlags v s.eflags = s.flagsFrom v (if s.osz = .b32 then v.getLsbD 16 else s.eflags.rf) := by
  unfold State.iretFlags
  rcases osz_cases s with h | h
  · rw [h, osz_b16.1 h, if_neg (by decide), if_neg (by decide)]; rfl
  · rw [h, osz_b32.1 h, if_pos rfl, if_pos rfl]; rfl

/-- From `s` to `t`, with paging off: registers `g`, flags `f`, Accessed bits at `marks`, and everything else as in `u`. -/
structure Settled (s t : State) (g : Regs) (f : Eflags) (u : State) (marks : List Dword) : Prop where
  regs : t.regs = g
  eflags : t.eflags = f
  rest : t.putBack s = u
  stored : Marked s t marks

/-- What IRET does last: NMI is no longer in service. -/
theorem Settled.iret {s t : State} {g : Regs} {f : Eflags} {u : State} {marks : List Dword}
    (h : Settled s t g f u marks) :
    Settled s (s.retireKeepRf { t with nmiInService := false }) g f { u with nmiInService := false } marks := by
  refine ⟨h.regs, h.eflags, ?_, h.stored.of_mem rfl⟩
  show ({ t.putBack s with nmiInService := false } : State) = _
  rw [h.rest]

theorem iret_next {s t : State} (hv : s.v86Sensitive = false) (h : returnFromException s = .ok () t) :
    exec .iret s = .next (s.retireKeepRf t) :=
  finish_ok ((run_bind_ok (raiseIf_of_false s hv)).trans h)

/-- IRET outside Protected Mode. -/
theorem iret8086_ok {s : State} (hs : s.Inv) (hp : s.Plain) (hi : ∀ i, i < 3 → s.itemOk s.osz i)
    (ho : (s.stackItem s.osz 0).toNat ≤ 0xFFFF) :
    ∃ t, iret8086 s = .ok () t ∧
      Settled s t (s.regsPopped (3 * s.osz.bytes)) (s.iretFlags (s.stackItem s.osz 2) s.eflags)
        { s.load8086 .cs ((s.stackItem s.osz 1).setWidth 16) with eip := s.stackItem s.osz 0, eipOver := false } [] := by
  obtain ⟨s1, h1, p1⟩ := pop_unpaged (i := 0) hp (.zero s) (hi 0 (by decide))
  obtain ⟨s2, h2, p2⟩ := pop_unpaged (i := 1) hp p1 (hi 1 (by decide))
  obtain ⟨t, h3, p3⟩ := pop_unpaged (i := 2) hp p2 (hi 2 (by decide))
  have hb := p3.built hs.mem .b8
  rw [show s.osz.bytes * (2 + 1) = 3 * s.osz.bytes from Nat.mul_comm _ _] at hb
  have hrun : iret8086 s = .ok () ((((t.load8086 .cs ((s.stackItem s.osz 1).setWidth 16)).jumpTo
      (s.stackItem s.osz 0))).setFlags (s.iretFlags (s.stackItem s.osz 2) t.eflags)) := by
    unfold iret8086
    rw [run_bind_ok (run_get s), run_bind_ok h1, run_bind_ok h2, run_bind_ok h3,
      run_bind_ok (raiseIf_of_false t (decide_eq_false (by omega)))]
    rfl
  refine ⟨_, hrun, (load8086_regs t .cs _).trans hb.regs, ?_, ?_, hb.stored.of_mem (load8086_mem t .cs _)⟩
  · show s.iretFlags _ t.eflags = _
    rw [hb.eflags]
  · show ({ (t.load8086 .cs ((s.stackItem s.osz 1).setWidth 16)).putBack s with
      eip := s.stackItem s.osz 0, eipOver := false } : State) = _
    rw [load8086_putBack, hb.rest]

section
variable {s t : State} {sel ss : Word} {d sd : Descriptor} {off fl sp : Dword}

/-- IRET within the task, to the same level. -/
theorem iretProtected_same (hs : s.Inv) (h : Noted s t) (hc : CodeTarget s sel d off) (hlevel : rpl sel = s.currentCpl)
    (hconf : if d.isConforming then d.dpl ≤ rpl sel else d.dpl = rpl sel) {w : Dword} (hw : w.setWidth 16 = sel) :
    ∃ u, iretProtected off w fl t = .ok () u ∧
      Settled s u (s.regsPopped (3 * s.osz.bytes)) (s.iretFlags fl s.eflags) (s.inCode sel d off)
        (s.marks [(sel, d)]) := by
  obtain ⟨s1, h1, n1⟩ := returnSegment_ok h hc (BitVec.le_of_eq hlevel.symm) hconf
  obtain ⟨s2, h2, b2⟩ := (Built.of_noted hs.mem n1 .b8).setAccessed hc.plain hc.found
  have hf : t.iretFlags fl s2.eflags = s.iretFlags fl s.eflags := by rw [b2.eflags, h]; rfl
  have b3 := b2.release (3 * s.osz.bytes)
  have hrun : iretProtected off w fl t =
      .ok () ((((s2.setSp (s2.spPlus (BitVec.ofNat 32 (3 * s.osz.bytes)))).setFlags (s.iretFlags fl s.eflags)).setSeg .cs
        (d.cache sel)).jumpTo off) := by
    unfold iretProtected
    rw [run_bind_ok (run_get t), hw, run_bind_ok h1, if_pos (by rw [h.currentCpl]; exact hlevel),
      run_bind_ok (raiseIf_of_false s1 (decide_eq_false (Nat.not_lt.2 hc.limit))), run_bind_ok h2, ← hf, ← h.quiet.osz]
    rfl
  refine ⟨_, hrun, b3.regs, rfl, ?_, b3.stored.of_mem rfl⟩
  show State.inCode ((s2.setSp (s2.spPlus (BitVec.ofNat 32 (3 * s.osz.bytes)))).putBack s) sel d off = _
  rw [b3.rest]

/-- The outer stack of an IRET. -/
theorem setOuterStack_eq (s : State) (c : SegReg) (sz : Size) (sp : Dword) :
    s.setOuterStack c sz sp =
      { s.setSeg .ss c with
        regs := s.regs.write (if sz = .b32 then .b32 else (s.setSeg .ss c).stackSize) .esp sp } := by
  unfold State.setOuterStack
  split <;> rfl

/-- IRET within the task, to an outer level. -/
theorem iretProtected_outer (hs : s.Inv) (h : Noted s t) (hc : CodeTarget s sel d off) (hlevel : s.currentCpl < rpl sel)
    (hconf : if d.isConforming then d.dpl ≤ rpl sel else d.dpl = rpl sel) {w : Dword} (hw : w.setWidth 16 = sel)
    (hseg : s.segOk .ss s.sp (5 * s.osz.bytes) false = true)
    (hsp : sp = leDword (s.operandBytes .ss (s.sp + BitVec.ofNat 32 (3 * s.osz.bytes)) s.osz.bytes))
    (hss : ss = (leDword (s.operandBytes .ss (s.sp + BitVec.ofNat 32 (4 * s.osz.bytes)) s.osz.bytes)).setWidth 16)
    (hst : StackTarget s (rpl sel) ss sd) :
    ∃ u, iretProtected off w fl t = .ok () u ∧
      Settled s u (s.regs.write (if s.osz = .b32 then .b32 else (s.outside sel d off ss sd).stackSize) .esp sp)
        (s.iretFlags fl s.eflags) (s.outside sel d off ss sd) (s.marks [(sel, d), (ss, sd)]) := by
  have hp := hc.plain
  obtain ⟨s1, h1, n1⟩ := returnSegment_ok h hc (BitVec.le_of_lt hlevel) hconf
  obtain ⟨s2, h2, n2⟩ := stackAt_ok (k := 3 * s.osz.bytes) (sz := s.osz) hp n1 hseg (by omega)
  obtain ⟨s3, h3, n3⟩ := stackAt_ok (k := 4 * s.osz.bytes) (sz := s.osz) hp n2 hseg (by omega)
  obtain ⟨s4, h4, n4⟩ := returnStack_ok hp n3 hst
  obtain ⟨s5, h5, b5⟩ := (Built.of_noted hs.mem n4 .b8).setAccessed hp hc.found
  obtain ⟨s6, h6, b6⟩ := b5.setAccessed hp hst.found
  rw [List.nil_append, ← marks_two] at b6
  rw [← hsp] at h2
  have hf : t.iretFlags fl s6.eflags = s.iretFlags fl s.eflags := by rw [b6.eflags, h]; rfl
  have hrun : iretProtected off w fl t =
      .ok () (State.dropInner ((({ (s6.setOuterStack (sd.cache ss) s.osz sp).setFlags (s.iretFlags fl s.eflags) with
        cpl := rpl sel } : State).setSeg .cs (d.cache sel)).jumpTo off) (rpl sel)) := by
    unfold iretProtected
    rw [run_bind_ok (run_get t), hw, run_bind_ok h1, if_neg (by rw [h.currentCpl]; exact fun e => BitVec.ne_of_lt hlevel e.symm),
      h.quiet.osz,
      run_bind_ok (checkStackTop_ok n1 hseg), run_bind_ok h2, run_bind_ok h3, ← hss, run_bind_ok h4,
      run_bind_ok (raiseIf_of_false s4 (decide_eq_false (Nat.not_lt.2 hc.limit))), run_bind_ok h5, run_bind_ok h6, ← hf]
    rfl
  rw [dropInner_eq, setOuterStack_eq] at hrun
  refine ⟨_, hrun, ?_, rfl, ?_, b6.stored.of_mem rfl⟩
  · show s6.regs.write (if s.osz = .b32 then .b32 else (s6.setSeg .ss (sd.cache ss)).stackSize) .esp sp = _
    rw [b6.regs, b6.outer_stackSize]
  · show ((s6.putBack s).outside sel d off ss sd) = _
    rw [b6.rest]

end

/-! The frame of an IRET in Protected Mode. -/

/-- IRET with NT = 0 in Protected Mode: what is left to do once the image has been read. -/
theorem returnFromException_protected {s : State} (hp : s.Plain) (hm : s.protectedMode = true) (hnt : s.eflags.nt = false)
    (hseg : s.segOk .ss s.sp (3 * s.osz.bytes) false = true) {item : Nat → Dword}
    (hitem : ∀ k, item k = leDword (s.operandBytes .ss (s.sp + BitVec.ofNat 32 (s.osz.bytes * k)) s.osz.bytes)) :
    ∃ t, Noted s t ∧ ∀ u,
      (if s.osz32 && (item 2).getLsbD 17 && s.currentCpl == 0 then iretToV86 (item 0) (item 1) (item 2)
        else iretProtected (item 0) (item 1) (item 2)) t = .ok () u →
      returnFromException s = .ok () { u with nmiInService := false } := by
  have h0 := hitem 0
  have h1 := hitem 1
  have h2 := hitem 2
  rw [Nat.mul_one] at h1
  rw [Nat.mul_comm] at h2
  rw [Nat.mul_zero] at h0
  obtain ⟨s1, r1, n1⟩ := stackAt_ok (k := 2 * s.osz.bytes) (sz := s.osz) hp (.refl s) hseg (by omega)
  obtain ⟨s2, r2, n2⟩ := stackAt_ok (k := 0) (sz := s.osz) hp n1 hseg (by omega)
  obtain ⟨s3, r3, n3⟩ := stackAt_ok (k := s.osz.bytes) (sz := s.osz) hp n2 hseg (by omega)
  rw [← h2] at r1
  rw [← h0] at r2
  rw [← h1] at r3
  refine ⟨s3, n3, fun u hu => ?_⟩
  unfold returnFromException
  rw [run_bind_ok (run_get s)]
  simp only [hm, hnt, Bool.not_true, Bool.false_eq_true, if_false]
  rw [run_bind_ok (checkStackTop_ok (.refl s) hseg), run_bind_ok r1, run_bind_ok r2, run_bind_ok r3]
  split at hu
  · next hc => rw [if_pos hc, run_bind_ok hu]; rfl
  · next hc => rw [if_neg hc, run_bind_ok hu]; rfl

theorem v86Sensitive_protected {s : State} (hm : s.protectedMode = true) : s.v86Sensitive = false := by
  unfold State.protectedMode at hm
  unfold State.v86Sensitive State.v86
  obtain ⟨-, hv⟩ := Bool.and_eq_true_iff.1 hm
  have : s.eflags.vm = false := by simpa using hv
  simp [this]

theorem v86Sensitive_iopl {s : State} (h : s.v86 = true → s.eflags.iopl = 3) : s.v86Sensitive = false := by
  unfold State.v86Sensitive
  cases hv : s.v86
  · rfl
  · rw [h hv]; rfl

/-- Settles O53. -/
theorem interruptReturn : Obligations.InterruptReturn := by
  unfold Obligations.InterruptReturn
  intro s sel hs hp
  refine ⟨fun hm hv hi ho hsel => ?_, fun d item hm hnt hseg hitem hno hsel hc hconf => ?_⟩
  · subst hsel
    obtain ⟨t, ht, h⟩ := iret8086_ok hs hp hi ho
    have hret : returnFromException s = .ok () { t with nmiInService := false } := by
      unfold returnFromException
      rw [run_bind_ok (run_get s), if_pos (by rw [hm]; rfl), run_bind_ok ht]
      rfl
    rw [iretFlags_eq] at h
    obtain ⟨hregs, hfl, hrest, hst⟩ := h.iret
    exact ⟨_, iret_next (v86Sensitive_iopl hv) hret, hregs, hfl, hrest, rfl, rfl, hst.noStore⟩
  · obtain ⟨t, hn, hrun⟩ := returnFromException_protected hp hm hnt hseg hitem
    have hif : (s.osz32 && (item 2).getLsbD 17 && s.currentCpl == 0) = false := by
      rw [← Bool.not_eq_true]
      intro h
      simp only [Bool.and_eq_true_iff, beq_iff_eq] at h
      exact hno ⟨osz_b32.2 h.1.1, h.1.2, h.2⟩
    rw [hif] at hrun
    refine ⟨fun hl => ?_, fun hl hseg5 ss sd hss hst => ?_⟩
    · obtain ⟨u, hu, h⟩ := iretProtected_same (fl := item 2) hs hn hc hl hconf hsel.symm
      rw [iretFlags_eq] at h
      obtain ⟨hregs, hfl, hrest, hst⟩ := h.iret
      exact ⟨_, iret_next (v86Sensitive_protected hm) (hrun u hu), hregs, hfl, hrest, rfl, rfl, hst⟩
    · have h3 := hitem 3
      have h4 := hitem 4
      rw [Nat.mul_comm] at h3 h4
      rw [h4] at hss
      obtain ⟨u, hu, h⟩ := iretProtected_outer (fl := item 2) hs hn hc hl hconf hsel.symm hseg5 h3 hss hst
      rw [iretFlags_eq] at h
      obtain ⟨hregs, hfl, hrest, hst⟩ := h.iret
      exact ⟨_, iret_next (v86Sensitive_protected hm) (hrun u hu), hregs, hfl, hrest, rfl, rfl, hst⟩

/-! Into Virtual 8086 Mode. -/

/-- A segment register as Virtual 8086 Mode loads it. -/
def SegReg.v86 (v : Word) : SegReg :=
  { selector := v, base := v.setWidth 32 <<< 4, limit := 0xFFFF, valid := true, dpl := 3, type := 3, db := false }

theorem load8086_pe {s : State} (h : s.cr0.pe = true) (sr : SReg) (v : Word) :
    s.load8086 sr v = s.setSeg sr (SegReg.v86 v) := by
  unfold State.load8086; rw [if_pos h]; rfl

theorem load8086_all {s : State} (h : s.cr0.pe = true) (cs ss es ds fs gs : Word) :
    (((((s.load8086 .cs cs).load8086 .ss ss).load8086 .es es).load8086 .ds ds).load8086 .fs fs).load8086 .gs gs =
      { s with cs := .v86 cs, ss := .v86 ss, es := .v86 es, ds := .v86 ds, fs := .v86 fs, gs := .v86 gs } := by
  simp only [load8086_pe, State.setSeg_cr0, h]
  rfl

/-- IRET to Virtual 8086 Mode, `item k` being the dword at place `k` of its frame. -/
theorem iretToV86_ok {s t : State} (hp : s.Plain) (hpe : s.cr0.pe = true) (h : Noted s t)
    (hseg : s.segOk .ss s.sp 36 false = true) {item : Nat → Dword}
    (hitem : ∀ k, item k = leDword (s.operandBytes .ss (s.sp + BitVec.ofNat 32 (4 * k)) 4)) :
    ∃ u, Noted s u ∧ iretToV86 (item 0) (item 1) (item 2) t = .ok () { u with
      cs := .v86 ((item 1).setWidth 16), ss := .v86 ((item 4).setWidth 16), es := .v86 ((item 5).setWidth 16)
      ds := .v86 ((item 6).setWidth 16), fs := .v86 ((item 7).setWidth 16), gs := .v86 ((item 8).setWidth 16)
      eip := item 0 &&& 0xFFFF, eipOver := false, stale := [], queued := [], regs := { s.regs with esp := item 3 }
      eflags := Eflags.ofWord (item 2), cpl := 3 } := by
  obtain ⟨s1, r1, n1⟩ := stackAt_ok (k := 20) (sz := .b32) hp h hseg (by decide)
  obtain ⟨s2, r2, n2⟩ := stackAt_ok (k := 24) (sz := .b32) hp n1 hseg (by decide)
  obtain ⟨s3, r3, n3⟩ := stackAt_ok (k := 28) (sz := .b32) hp n2 hseg (by decide)
  obtain ⟨s4, r4, n4⟩ := stackAt_ok (k := 32) (sz := .b32) hp n3 hseg (by decide)
  obtain ⟨s5, r5, n5⟩ := stackAt_ok (k := 12) (sz := .b32) hp n4 hseg (by decide)
  obtain ⟨s6, r6, n6⟩ := stackAt_ok (k := 16) (sz := .b32) hp n5 hseg (by decide)
  have h5 := (hitem 5).symm; have h6 := (hitem 6).symm; have h7 := (hitem 7).symm; have h8 := (hitem 8).symm
  have h3 := (hitem 3).symm; have h4 := (hitem 4).symm
  have e1 := r1.trans (congrArg (EStateM.Result.ok · s1) h5)
  have e2 := r2.trans (congrArg (EStateM.Result.ok · s2) h6)
  have e3 := r3.trans (congrArg (EStateM.Result.ok · s3) h7)
  have e4 := r4.trans (congrArg (EStateM.Result.ok · s4) h8)
  have e5 := r5.trans (congrArg (EStateM.Result.ok · s5) h3)
  have e6 := r6.trans (congrArg (EStateM.Result.ok · s6) h4)
  refine ⟨s6, n6, ?_⟩
  have hpe6 : s6.cr0.pe = true := by rw [n6]; exact hpe
  have hr6 : s6.regs = s.regs := n6.quiet.regs
  unfold iretToV86
  rw [run_bind_ok (checkStackTop_ok h hseg), run_bind_ok e1, run_bind_ok e2, run_bind_ok e3, run_bind_ok e4,
    run_bind_ok e5, run_bind_ok e6, ← hr6]
  refine congrArg (EStateM.Result.ok ()) ?_
  dsimp only
  rw [load8086_all hpe6]
  rfl

end Sys2Proof.Machine
end

section
/-! O48: interrupts and exceptions in Real Mode. -/

namespace Sys2Proof.Machine

/-! Delivery that raises nothing. -/

theorem deliverEvent_ok {ev : Event} {s t : State} (h : deliver ev s = .ok () t) :
    deliverEvent ev s = .next t.handlerEntered := by
  unfold deliverEvent deliverChain
  rw [h]

theorem takeException_ok {e : Exn} {s t : State} (h : deliver (e.event s.instrEip false) (s.noting e) = .ok () t) :
    takeException e s = .next t.handlerEntered := deliverEvent_ok h

/-- The software interrupts to vector `v`, where `INT n` is allowed. -/
theorem softwareForms {s : State} {v : Byte} (hv : s.v86Sensitive = false) {i : Instr}
    (hi : i = .intN v ∨ (i = .int3 ∧ v = 3) ∨ (i = .into ∧ v = 4 ∧ s.eflags.ofl = true)) :
    exec i s = deliverEvent (softwareEvent v s.eip) s := by
  rcases hi with rfl | ⟨rfl, rfl⟩ | ⟨rfl, rfl, ho⟩
  · show (if s.v86Sensitive then _ else _) = _
    rw [hv]
    rfl
  · rfl
  · show (if s.eflags.ofl then _ else _) = _
    rw [ho]
    rfl

/-! The interrupt table. -/

theorem leDword_pair (a b : Byte) : leDword [a, b] = (b ++ a).setWidth 32 := by
  apply BitVec.eq_of_toNat_eq
  have h1 := a.isLt
  have h2 := b.isLt
  have hor : b.toNat <<< 8 ||| a.toNat = b.toNat * 256 + a.toNat := by
    rw [← Nat.shiftLeft_add_eq_or_of_lt h1, Nat.shiftLeft_eq]
  rw [leDword_toNat (by simp), BitVec.toNat_setWidth, BitVec.toNat_append, hor]
  simp only [leNat]
  omega

/-- A word in plain memory. -/
theorem sysRead_word {s : State} (hp : s.Plain) (l : Dword) :
    ∃ t, sysRead l .b16 s = .ok ((s.readByte (l + 1) ++ s.readByte l).setWidth 32) t ∧ Noted s t := by
  obtain ⟨t, ht, he⟩ := sysRead_unpaged hp l .b16
  refine ⟨t, ?_, he⟩
  rw [← leDword_pair]
  exact ht

/-- Delivery in Real Mode. -/
theorem deliverReal_ok {s : State} {ev : Event} (hw : Memory.wf s.mem = true) (hp : s.Plain) (hpe : s.cr0.pe = false)
    (hidt : 4 * ev.vector.toNat + 3 ≤ s.idtr.limit.toNat) (hslot : ∀ i, i < 3 → s.slotOk .b16 i) :
    ∃ t, deliver ev s = .ok () t ∧
      EnteredReal s t.handlerEntered ev.vector ev.savedEip (s.eflags.rf && !ev.software) := by
  obtain ⟨u, hu, hb⟩ := (Built.of_noted hw (.refl s) .b16).pushAll hp
    [s.eflags.word, selValue s.cs.selector, ev.savedEip] (by simp) hslot
  let u1 : State :=
    { u with eflags := { u.eflags with ifl := false, tf := false, rf := u.eflags.rf && !ev.software } }
  have hp1 : u1.Plain := hb.plain hp
  have hread : ∀ x : State, x.mem = u1.mem → x.readByte = u1.readByte := fun x hx => by
    funext p; unfold State.readByte; rw [hx]
  obtain ⟨u2, h2, n2⟩ := sysRead_word hp1 (s.idtr.base + BitVec.ofNat 32 (4 * ev.vector.toNat))
  obtain ⟨u3, h3, n3⟩ := sysRead_word (n2.plain hp1) (s.idtr.base + BitVec.ofNat 32 (4 * ev.vector.toNat + 2))
  have n := n2.trans n3
  obtain ⟨a, ha⟩ : ∃ a, a = s.idtr.base + BitVec.ofNat 32 (4 * ev.vector.toNat) := ⟨_, rfl⟩
  have ha2 : s.idtr.base + BitVec.ofNat 32 (4 * ev.vector.toNat + 2) = a + 2#32 := by
    rw [ha, BitVec.ofNat_add, BitVec.add_assoc]
  have ha3 : a + 2#32 + 1 = a + 3 := by rw [BitVec.add_assoc]; rfl
  rw [← ha] at h2
  rw [ha2, hread u2 n2.mem, ha3] at h3
  have hrun : deliver ev s = .ok () ((u3.load8086 .cs (u1.readByte (a + 3) ++ u1.readByte (a + 2))).jumpTo
      ((u1.readByte (a + 1) ++ u1.readByte a).setWidth 32)) := by
    unfold deliver
    rw [run_bind_ok (run_get s), if_neg (by simp [hpe])]
    unfold deliverReal
    rw [run_bind_ok (run_get s), run_bind_ok (raiseIf_of_false s (decide_eq_false (by omega))),
      run_bind_ok (spoiling_ok hu)]
    refine (run_bind_ok (s' := u1) rfl).trans ?_
    rw [← ha, run_bind_ok h2, ha2, run_bind_ok h3, BitVec.setWidth_setWidth_of_le _ (by decide), BitVec.setWidth_eq]
    rfl
  refine ⟨_, hrun, ?_, ?_, ?_, ?_, rfl, rfl⟩
  · show (u3.load8086 .cs _).regs = _
    rw [load8086_regs, n.quiet.regs]
    exact hb.regs
  · show (u3.load8086 .cs _).eflags = _
    rw [load8086_eflags, n.quiet.eflags, ← hb.eflags]
  · refine (hb.stored.of_mem ?_).pushed
    show (u3.load8086 .cs _).mem = _
    rw [load8086_mem, n.mem]
  · intro a' ha'
    obtain rfl : a' = a := ha'.trans ha.symm
    have hrest : u3.putBack s = s := putBack_trans (t := u1) hb.rest n.quiet.rest
    have hmem : ((u3.load8086 .cs (u1.readByte (a' + 3) ++ u1.readByte (a' + 2))).jumpTo
        ((u1.readByte (a' + 1) ++ u1.readByte a').setWidth 32)).handlerEntered.readByte = u1.readByte :=
      hread _ ((load8086_mem u3 .cs _).trans n.mem)
    rw [hmem]
    show ({ (u3.load8086 .cs (u1.readByte (a' + 3) ++ u1.readByte (a' + 2))).putBack s with
      eip := (u1.readByte (a' + 1) ++ u1.readByte a').setWidth 32, eipOver := false, runState := .running } : State) = _
    rw [load8086_putBack, hrest]

/-- Settles O48. -/
theorem interruptReal : Obligations.InterruptReal := by
  unfold Obligations.InterruptReal
  intro s v hs hpe
  have hpg : s.cr0.pg = false := by
    cases h : s.cr0.pg
    · rfl
    · rw [hs.paging h] at hpe; exact absurd hpe (by decide)
  refine ⟨fun ho => ?_, fun hmem hidt hslot => ⟨fun i hi => ?_, fun e he => ?_⟩⟩
  · have hi : exec .into s = complete (pure ()) s := if_neg (by simp [ho])
    exact gives_of_quiet hi hs rfl (Quiet.refl s) rfl rfl rfl rfl
  · obtain ⟨t, ht, h⟩ := deliverReal_ok (ev := softwareEvent v s.eip) hs.mem ⟨hpg, hmem⟩ hpe hidt hslot
    have hv : s.v86Sensitive = false := by unfold State.v86Sensitive State.v86; rw [hpe]; rfl
    refine ⟨_, (softwareForms hv hi).trans (deliverEvent_ok ht), ?_⟩
    rwa [show (s.eflags.rf && !(softwareEvent v s.eip).software) = false from Bool.and_false _] at h
  · obtain ⟨t, ht, h⟩ := deliverReal_ok (s := s.noting e) (ev := e.event s.instrEip false) hs.mem ⟨hpg, hmem⟩ hpe
      (by subst he; exact hidt) hslot
    refine ⟨_, takeException_ok ht, ?_⟩
    subst he
    rwa [show ((s.noting e).eflags.rf && !(e.event s.instrEip false).software) = s.eflags.rf from Bool.and_true _] at h

end Sys2Proof.Machine
end

section
/-! Interrupt and trap gates with paging off: what finding one and going through it answers. -/

namespace Sys2Proof.Machine

theorem readDescriptorAt_noted {s t : State} (hp : s.Plain) (h : Noted s t) (l : Dword) :
    ∃ u, readDescriptorAt l t = .ok (s.descriptorIn l) u ∧ Noted s u := by
  obtain ⟨u, hu, he⟩ := readDescriptorAt_unpaged (h.plain hp) l
  rw [h.descriptorIn] at hu
  exact ⟨u, hu, h.trans he⟩

/-- The items pass the checks together when each of them does. -/
theorem pushesFit_of_slots {s t : State} {sz : Size} (hst : SameStack s t) (hr : t.regs = s.regs) :
    ∀ n, (∀ j, j < n → s.slotOk sz j) → t.pushesFit sz n = true
  | 0, _ => rfl
  | n + 1, h => by
    have hslot : t.slot sz n = s.slot sz n := by
      unfold State.slot State.spPlus State.sp State.reg
      rw [hst.size, hr]
    unfold State.pushesFit
    rw [pushesFit_of_slots hst hr n fun j hj => h j (by omega), Bool.and_true]
    exact (hst.slotOk hslot (h n (by omega))).1

/-- Nothing that `Built` speaks of has changed. -/
theorem Built.of_mem_eq {s t : State} (sz : Size) (hr : t.regs = s.regs) (hf : t.eflags = s.eflags)
    (hb : t.putBack s = s) (hm : t.mem = s.mem) (hw : Memory.wf s.mem = true) : Built s t s.regs sz [] [] :=
  ⟨hr, hf, hb, by rw [hm]; exact hw, ((Built.of_noted hw (.refl s) sz).stored).of_mem hm⟩

/-! The flags. -/

theorem throughGate_eq (s : State) (g : Descriptor) :
    s.eflags.throughGate (s.isInterruptGate g) = s.flagsEntered g := by
  have h : s.interruptGateType = if s.params.gateTypeInterrupt = .t14 then 14 else 15 := by
    unfold State.interruptGateType
    cases s.params.gateTypeInterrupt <;> rfl
  unfold State.flagsEntered State.isInterruptGate
  rw [h]
  rfl

/-- The image of EFLAGS that an event pushes. -/
theorem rf_word (f : Eflags) : ({ f with rf := true } : Eflags).word = f.word ||| 0x10000 := by
  unfold Eflags.word
  have h : bitAt true 16 = bitAt f.rf 16 ||| 0x10000 := by cases f.rf <;> decide
  rw [h]
  ac_rfl

theorem event_image (e : Exn) (eip : Dword) (f : Eflags) :
    (e.event eip false).image f = if e.rfImage then f.word ||| 0x10000 else f.word := by
  unfold Event.image
  show (if e.rfImage then _ else _) = _
  rw [rf_word]

/-! The error code. -/

/-- The items that an error code adds to a frame. -/
def CodeItems (v : Byte) (code : Option Word) (items : List Dword) : Prop :=
  match code with
  | none => items = []
  | some c => ∃ x, items = [x] ∧ CodeItem v c x

theorem codeItem_pageFault (u : Dword) (c : Word) :
    CodeItem 14 c ((u &&& 0xFFFFFFF8) ||| c.setWidth 32) := by
  unfold CodeItem
  rw [if_pos rfl]
  apply BitVec.eq_of_getLsbD_eq
  intro i hi
  have : i = 0 ∨ i = 1 ∨ i = 2 := by omega
  rcases this with rfl | rfl | rfl <;> simp

theorem errorItem_ok {s t : State} (h : Noted s t) (ev : Event) :
    ∃ items u, errorItem ev t = .ok items u ∧ Noted s u ∧ CodeItems ev.vector ev.errorCode items := by
  unfold errorItem
  cases he : ev.errorCode with
  | none => exact ⟨[], t, rfl, h, rfl⟩
  | some c =>
    refine ⟨_, _, rfl, h.trans (noted_draws t _), _, rfl, ?_⟩
    split
    · next hv => rw [hv]; exact codeItem_pageFault _ c
    · next hv =>
      unfold CodeItem
      rw [if_neg hv, mergeWord_low]

/-! Through the gate. -/

/-- What going through gate `g` to the code segment `c` leaves of the state `s`, whose stack is the handler's. -/
structure ThroughGate (s t : State) (g c : Descriptor) (level : BitVec 2) (items : List Dword) : Prop where
  regs : t.regs = s.regsPushed g.gateSize items.length
  eflags : t.eflags = s.flagsEntered g
  rest : t.putBack s = s.inCode (withRpl g.gateSelector level) c g.gateOffset
  pushed : PushedMarking s t g.gateSize items (s.marks [(g.gateSelector, c)])

theorem enterGate_ok {s x y : State} {g c : Descriptor} {level : BitVec 2} {loadStack : M Unit} {items : List Dword}
    (hp : s.Plain) (hst : SameStack s x) (hr : x.regs = s.regs) (hslot : ∀ j, j < items.length → s.slotOk g.gateSize j)
    (hlen : items.length < 1000) (hlim : g.gateOffset.toNat ≤ c.limit.toNat) (hload : loadStack x = .ok () y)
    (hb : Built s y s.regs g.gateSize [] [])
    (hbyte : ((c.hi >>> 8) ||| 1).setWidth 8 = s.readByte (s.descriptorAt g.gateSelector + 5) ||| 1) :
    ∃ u, enterGate g g.gateSelector c level loadStack items x = .ok () u ∧ ThroughGate s u g c level items := by
  obtain ⟨u, hu, hb1⟩ := hb.pushAll hp items hlen hslot
  obtain ⟨w, hw, hb2⟩ := hb1.setAccessed_of_byte hp hbyte
  rw [List.nil_append] at hb2
  have hroom : checkRoom g.gateSize items.length x = .ok () x := by
    unfold checkRoom
    rw [if_pos (pushesFit_of_slots hst hr _ hslot)]
  have hrun : enterGate g g.gateSelector c level loadStack items x =
      .ok () { (w.setSeg .cs (c.cache (withRpl g.gateSelector level))).jumpTo g.gateOffset with
        eflags := w.eflags.throughGate (w.isInterruptGate g) } := by
    unfold enterGate
    rw [run_bind_ok hroom, run_bind_ok (raiseIf_of_false x (decide_eq_false (Nat.not_lt.2 hlim))),
      run_bind_ok (spoiling_ok ((run_bind_ok hload).trans hu)), run_bind_ok hw]
    rfl
  refine ⟨_, hrun, hb2.regs, ?_, ?_, hb2.stored.of_mem rfl⟩
  · show w.eflags.throughGate (w.isInterruptGate g) = _
    rw [throughGate_eq]
    unfold State.flagsEntered
    rw [hb2.eflags, show w.params = s.params from hb2.field (·.params) fun _ _ => rfl]
  · show State.inCode (w.putBack s) (withRpl g.gateSelector level) c g.gateOffset = _
    rw [hb2.rest]

/-- The handler's state is put beside the state that the delivery began in. -/
theorem ThroughGate.entered {s s1 t : State} {g c : Descriptor} {level : BitVec 2} {items : List Dword}
    (h : ThroughGate s1 t g c level items) (hf : s1.eflags = s.eflags) (hq : s1.params = s.params) {marks : List Dword}
    (hm : s1.marks [(g.gateSelector, c)] = marks) : EnteredGate s s1 t.handlerEntered g c level items marks := by
  refine ⟨h.regs, ?_, hm ▸ h.pushed.of_mem rfl, ?_, rfl, rfl⟩
  · rw [show t.handlerEntered.eflags = t.eflags from rfl, h.eflags]
    unfold State.flagsEntered
    rw [hf, hq]
  · show ({ (t.putBack s1).putBack s with runState := .running } : State) = _
    rw [h.rest]

/-! Finding the gate. -/

theorem isSystem_of_ne {d : Descriptor} {t t' : BitVec 4} (h : d.isSystem t = true) (hne : t ≠ t') :
    d.isSystem t' = false := by
  unfold Descriptor.isSystem at h ⊢
  obtain ⟨-, ht⟩ := Bool.and_eq_true_iff.1 h
  rw [beq_iff_eq] at ht
  simp [ht, hne]

theorem IdtGate.notTask {s : State} {v : Byte} {g c : Descriptor} (h : IdtGate s v g c) : g.isSystem 5 = false := by
  rcases h.kind with k | k | k | k <;> exact isSystem_of_ne k (by decide)

theorem IdtGate.isIdtGate {s : State} {v : Byte} {g c : Descriptor} (h : IdtGate s v g c) :
    Machine.isIdtGate g = true := by
  unfold Machine.isIdtGate
  rcases h.kind with k | k | k | k <;> simp only [k, Bool.or_true, Bool.true_or]

/-- A gate that may be used: what is left to do once it and its code segment have been read. -/
theorem deliver_gate {s : State} {ev : Event} {g c : Descriptor} (hpe : s.cr0.pe = true) (h : IdtGate s ev.vector g c)
    (hdpl : ev.software = true → s.currentCpl ≤ g.dpl) (hlevel : c.dpl ≤ s.currentCpl) :
    ∃ t, Noted s t ∧ deliver ev s =
      (if s.v86 then deliverV86 ev g g.gateSelector c
        else if !c.isConforming && decide (c.dpl < s.currentCpl) then deliverInner ev g g.gateSelector c
        else deliverSame ev g g.gateSelector c) t := by
  have hp := h.target.plain
  obtain ⟨s1, h1, n1⟩ := readDescriptorAt_noted hp (.refl s) (s.idtr.base + BitVec.ofNat 32 (8 * ev.vector.toNat))
  rw [← h.gate] at h1
  obtain ⟨s2, h2, n2⟩ := readDescriptor_noted hp n1 h.target.inside (Exn.gp (selCode g.gateSelector ev.ext))
  rw [← h.target.found] at h2
  have hsoft : (ev.software && decide (g.dpl < s.currentCpl)) = false := by
    cases hs : ev.software
    · rfl
    · rw [Bool.true_and, decide_eq_false_iff_not]
      exact BitVec.not_lt.2 (hdpl hs)
  refine ⟨s2, n2, ?_⟩
  unfold deliver
  rw [run_bind_ok (run_get s), if_pos hpe]
  unfold deliverProtected
  rw [run_bind_ok (run_get s), run_bind_ok (raiseIf_of_false s (decide_eq_false (Nat.not_lt.2 h.inIdt))), run_bind_ok h1,
    run_bind_ok (raiseIf_of_false s1 (by rw [h.isIdtGate]; rfl)), run_bind_ok (raiseIf_of_false s1 hsoft),
    run_bind_ok (raiseIf_of_false s1 (by rw [h.present]; rfl)), if_neg (ne_true_of_eq_false h.notTask),
    run_bind_ok (raiseIf_of_false s1 h.target.notNull), run_bind_ok h2,
    run_bind_ok (raiseIf_of_false s2 (by rw [h.target.code]; rfl)),
    run_bind_ok (raiseIf_of_false s2 (decide_eq_false (BitVec.not_lt.2 hlevel))),
    run_bind_ok (raiseIf_of_false s2 (by rw [h.target.present]; rfl))]

/-- A software interrupt through a gate that CPL may not use. -/
theorem deliver_gate_forbidden {s : State} {ev : Event} {g c : Descriptor} (hpe : s.cr0.pe = true)
    (h : IdtGate s ev.vector g c) (hs : ev.software = true) (hdpl : g.dpl < s.currentCpl) :
    ∃ u, deliver ev s = .error (.exn (Exn.gp (idtCode ev.vector ev.ext)) .nothing) u ∧ Noted s u := by
  obtain ⟨s1, h1, n1⟩ :=
    readDescriptorAt_noted h.target.plain (.refl s) (s.idtr.base + BitVec.ofNat 32 (8 * ev.vector.toNat))
  rw [← h.gate] at h1
  refine ⟨s1, ?_, n1⟩
  unfold deliver
  rw [run_bind_ok (run_get s), if_pos hpe]
  unfold deliverProtected
  rw [run_bind_ok (run_get s), run_bind_ok (raiseIf_of_false s (decide_eq_false (Nat.not_lt.2 h.inIdt))), run_bind_ok h1,
    run_bind_ok (raiseIf_of_false s1 (by rw [h.isIdtGate]; rfl))]
  exact run_bind_error (raiseIf_of_true s1 (by rw [hs, decide_eq_true hdpl]; rfl))

end Sys2Proof.Machine
end

section
/-! O49 and O50: gates to the same level and to an inner one. -/

namespace Sys2Proof.Machine

/-! To the same level. -/

theorem Noted.same {s t : State} (h : Noted s t) : SameStack s t := by rw [h]; exact ⟨rfl, rfl, rfl⟩

theorem IdtGate.byte {s : State} {v : Byte} {g c : Descriptor} (h : IdtGate s v g c) :
    ((c.hi >>> 8) ||| 1).setWidth 8 = s.readByte (s.descriptorAt g.gateSelector + 5) ||| 1 := by
  have := typeByte_accessed s (s.descriptorAt g.gateSelector)
  rwa [← h.target.found] at this

theorem slots_of_code {s : State} {sz : Size} {v : Byte} {code : Option Word} {xs : List Dword} {n : Nat}
    (hx : CodeItems v code xs) (h : ∀ j, j < n + (if code = none then 0 else 1) → s.slotOk sz j) :
    ∀ j, j < n + xs.length → s.slotOk sz j := by
  intro j hj
  refine h j ?_
  cases code with
  | none =>
    rw [show xs = [] from hx] at hj
    exact hj
  | some c =>
    obtain ⟨x, rfl, -⟩ := hx
    exact hj

theorem CodeItems.length_le {v : Byte} {code : Option Word} {xs : List Dword} (h : CodeItems v code xs) :
    xs.length ≤ 1 := by
  cases code with
  | none => rw [show xs = [] from h]; simp
  | some c => obtain ⟨x, rfl, -⟩ := h; simp

/-- Delivery to a code segment of the current level. -/
theorem deliverSame_ok {s : State} {ev : Event} {g c : Descriptor} (hw : Memory.wf s.mem = true)
    (hm : s.protectedMode = true) (h : IdtGate s ev.vector g c)
    (hconf : if c.isConforming then c.dpl ≤ s.currentCpl else c.dpl = s.currentCpl)
    (hdpl : ev.software = true → s.currentCpl ≤ g.dpl)
    (hslot : ∀ j, j < 3 + (if ev.errorCode = none then 0 else 1) → s.slotOk g.gateSize j) :
    ∃ t xs, deliver ev s = .ok () t ∧ CodeItems ev.vector ev.errorCode xs ∧
      EnteredGate s s t.handlerEntered g c s.currentCpl
        ([ev.image s.eflags, s.cs.selector.setWidth 32, ev.savedEip] ++ xs) (s.marks [(g.gateSelector, c)]) := by
  obtain ⟨hpe, hvm⟩ := Bool.and_eq_true_iff.1 hm
  have hv : s.v86 = false := by
    have : s.eflags.vm = false := by simpa using hvm
    unfold State.v86; rw [this, Bool.and_false]
  have hlevel : c.dpl ≤ s.currentCpl := by
    split at hconf
    · exact hconf
    · exact BitVec.le_of_eq hconf
  have hsame : (!c.isConforming && decide (c.dpl < s.currentCpl)) = false := by
    split at hconf
    · next hc => rw [hc]; rfl
    · rw [hconf, decide_eq_false (BitVec.not_lt.2 (BitVec.le_of_eq rfl)), Bool.and_false]
  obtain ⟨s1, n1, hrun⟩ := deliver_gate hpe h hdpl hlevel
  rw [hv, hsame] at hrun
  obtain ⟨xs, s2, h2, n2, hx⟩ := errorItem_ok n1 ev
  obtain ⟨u, hu, hg⟩ := enterGate_ok (s := s) (x := s2) (y := s2) (level := s.currentCpl) (loadStack := pure ())
    (items := [ev.image s.eflags, s.cs.selector.setWidth 32, ev.savedEip] ++ xs) h.target.plain n2.same n2.quiet.regs
    (fun j hj => slots_of_code hx hslot j (by simp only [List.length_append, List.length_cons, List.length_nil] at hj; omega))
    (by have := hx.length_le; simp only [List.length_append, List.length_cons, List.length_nil]; omega) h.target.limit rfl
    (.of_noted hw n2 _) h.byte
  refine ⟨u, xs, ?_, hx, hg.entered rfl rfl rfl⟩
  rw [hrun]
  show deliverSame ev g g.gateSelector c s1 = _
  unfold deliverSame
  rw [run_bind_ok (run_get s1), run_bind_ok h2, n1.currentCpl, n1.quiet.eflags, n1.quiet.cs]
  exact hu

/-- The same gate after an exception has been noted. -/
theorem IdtGate.noting {s : State} {v : Byte} {g c : Descriptor} (h : IdtGate s v g c) (e : Exn) :
    IdtGate (s.noting e) v g c := by
  obtain ⟨hin, hg, hk, hpr, hp, hn, hi, hf, hc, hp', hl⟩ := h
  exact ⟨hin, hg, hk, hpr, hp, hn, hi, hf, hc, hp', hl⟩

/-- Settles O49. -/
theorem gateSameLevel : Obligations.GateSameLevel := by
  unfold Obligations.GateSameLevel
  intro s v g c hs hm h hconf
  refine ⟨fun i hi hdpl hslot => ?_, fun hdpl => ?_, ?_⟩
  · obtain ⟨t, xs, ht, hx, he⟩ := deliverSame_ok (ev := softwareEvent v s.eip) hs.mem hm h hconf (fun _ => hdpl) hslot
    obtain rfl : xs = [] := hx
    exact ⟨_, (softwareForms (v86Sensitive_protected hm) hi).trans (deliverEvent_ok ht), he⟩
  · obtain ⟨u, hu, hn⟩ := deliver_gate_forbidden (ev := softwareEvent v s.eip) (Bool.and_eq_true_iff.1 hm).1 h rfl hdpl
    refine ⟨u, ?_, hn⟩
    rw [hu, show idtCode (softwareEvent v s.eip).vector (softwareEvent v s.eip).ext = BitVec.ofNat 16 (8 * v.toNat + 2) from
      BitVec.or_zero]
  · rintro e s' image rfl rfl rfl
    have key := deliverSame_ok (s := s.noting e) (ev := e.event s.instrEip false) hs.mem hm (h.noting e) hconf nofun
    rw [event_image] at key
    refine ⟨fun he hslot => ?_, fun code he hslot _ => ?_⟩
    · obtain ⟨t, xs, ht, hx, hg⟩ := key (by
        rw [show (e.event s.instrEip false).errorCode = none from he, if_pos rfl]; exact hslot)
      rw [show (e.event s.instrEip false).errorCode = none from he] at hx
      obtain rfl : xs = [] := hx
      exact ⟨_, takeException_ok ht, hg⟩
    · obtain ⟨t, xs, ht, hx, hg⟩ := key (by
        rw [show (e.event s.instrEip false).errorCode = some code from he, if_neg nofun]; exact hslot)
      rw [show (e.event s.instrEip false).errorCode = some code from he] at hx
      obtain ⟨x, rfl, hc⟩ := hx
      exact ⟨_, x, takeException_ok ht, hc, hg⟩

end Sys2Proof.Machine
end

section
/-! O50: gates to an inner level. -/

namespace Sys2Proof.Machine

/-! The stack of the inner level. -/

theorem physDword_eq (s : State) (a : Dword) : s.physDword a = leDword ((linearRange a 4).map s.readByte) := by
  unfold State.physDword
  simp [linearRange, BitVec.add_assoc]

/-- The low word of a dword in memory. -/
theorem physDword_low (s : State) (a : Dword) :
    (leDword ((linearRange a 2).map s.readByte)).setWidth 16 = (s.physDword a).setWidth 16 ∧
      leDword ((linearRange a 2).map s.readByte) = s.physDword a &&& 0xFFFF := by
  have h : (leDword ((linearRange a 2).map s.readByte)).toNat = (s.physDword a).toNat % 65536 := by
    rw [physDword_eq, leDword_toNat (by simp), leDword_toNat (by simp)]
    have h0 := (s.readByte a).isLt
    have h1 := (s.readByte (a + 1)).isLt
    simp only [linearRange, List.map_cons, List.map_nil, leNat]
    omega
  constructor
  · apply BitVec.eq_of_toNat_eq
    rw [BitVec.toNat_setWidth, BitVec.toNat_setWidth, h]
    omega
  · apply BitVec.eq_of_toNat_eq
    rw [BitVec.toNat_and, h]
    exact (Nat.and_two_pow_sub_one_eq_mod _ 16).symm

theorem tssField_ok {s t : State} (hp : s.Plain) (h : Noted s t) (hv : s.tr.valid = true) {off : Dword} {sz : Size}
    (ext : Bool) (hl : off.toNat + sz.bytes - 1 ≤ s.tr.limit.toNat) :
    ∃ u, tssField off sz ext t = .ok (leDword ((linearRange (s.tr.base + off) sz.bytes).map s.readByte)) u ∧
      Noted s u := by
  obtain ⟨u, hu, he⟩ := sysRead_unpaged (h.plain hp) (s.tr.base + off) sz
  have hread : t.readByte = s.readByte := by rw [h]; rfl
  have htr : t.tr = s.tr := by rw [h]
  rw [hread] at hu
  refine ⟨u, ?_, h.trans he⟩
  unfold tssField
  rw [run_bind_ok (run_get t), htr, run_bind_ok (raiseIf_of_false t (by
    rw [hv, decide_eq_false (Nat.not_lt.2 hl)]; rfl))]
  exact hu


/-- Where the stack of a level stands in a TSS. -/
theorem tss_offsets (level : BitVec 2) :
    (4 + 8 * level.setWidth 32 : Dword) = BitVec.ofNat 32 (8 * level.toNat + 4) ∧
      (8 + 8 * level.setWidth 32 : Dword) = BitVec.ofNat 32 (8 * level.toNat + 8) ∧
      (2 + 4 * level.setWidth 32 : Dword) = BitVec.ofNat 32 (4 * level.toNat + 2) ∧
      (4 + 4 * level.setWidth 32 : Dword) = BitVec.ofNat 32 (4 * level.toNat + 4) := by
  revert level; decide

/-- The selector and the stack pointer of an inner level. -/
theorem tssStack_ok {s t : State} (hp : s.Plain) (h : Noted s t) {level : BitVec 2} {sel : Word} {sp : Dword}
    {d : Descriptor} (hi : InnerStack s level sel sp d) (ext : Bool) :
    ∃ u1 u2 w, Noted s u1 ∧ Noted s u2 ∧ w.setWidth 16 = sel ∧
      (if s.tr.is386 then tssField (4 + 8 * level.setWidth 32) .b32 ext
        else tssField (2 + 4 * level.setWidth 32) .b16 ext) t = .ok sp u1 ∧
      (if s.tr.is386 then tssField (8 + 8 * level.setWidth 32) .b16 ext
        else tssField (4 + 4 * level.setWidth 32) .b16 ext) u1 = .ok w u2 := by
  obtain ⟨e1, e2, e3, e4⟩ := tss_offsets level
  have hlt := level.isLt
  have hf := hi.fields
  rw [e1, e2, e3, e4]
  split at hf
  · next h386 =>
    obtain ⟨hl, hsp, hsel⟩ := hf
    obtain ⟨u1, h1, n1⟩ := tssField_ok hp h hi.valid (off := BitVec.ofNat 32 (8 * level.toNat + 4)) (sz := .b32) ext
      (by rw [BitVec.toNat_ofNat]; show _ % _ + 4 - 1 ≤ _; omega)
    obtain ⟨u2, h2, n2⟩ := tssField_ok hp n1 hi.valid (off := BitVec.ofNat 32 (8 * level.toNat + 8)) (sz := .b16) ext
      (by rw [BitVec.toNat_ofNat]; show _ % _ + 2 - 1 ≤ _; omega)
    rw [show leDword ((linearRange (s.tr.base + BitVec.ofNat 32 (8 * level.toNat + 4)) Size.b32.bytes).map s.readByte) = sp
      from (physDword_eq s _).symm.trans hsp.symm] at h1
    exact ⟨u1, u2, _, n1, n2, (physDword_low s _).1.trans hsel.symm, (congrFun (if_pos h386) t).trans h1,
      (congrFun (if_pos h386) u1).trans h2⟩
  · next h386 =>
    obtain ⟨hl, hsp, hsel⟩ := hf
    obtain ⟨u1, h1, n1⟩ := tssField_ok hp h hi.valid (off := BitVec.ofNat 32 (4 * level.toNat + 2)) (sz := .b16) ext
      (by rw [BitVec.toNat_ofNat]; show _ % _ + 2 - 1 ≤ _; omega)
    obtain ⟨u2, h2, n2⟩ := tssField_ok hp n1 hi.valid (off := BitVec.ofNat 32 (4 * level.toNat + 4)) (sz := .b16) ext
      (by rw [BitVec.toNat_ofNat]; show _ % _ + 2 - 1 ≤ _; omega)
    rw [show leDword ((linearRange (s.tr.base + BitVec.ofNat 32 (4 * level.toNat + 2)) Size.b16.bytes).map s.readByte) = sp
      from (physDword_low s _).2.trans hsp.symm] at h1
    exact ⟨u1, u2, _, n1, n2, (physDword_low s _).1.trans hsel.symm, (congrFun (if_neg h386) t).trans h1,
      (congrFun (if_neg h386) u1).trans h2⟩

theorem innerStack_ok {s t : State} (hp : s.Plain) (h : Noted s t) {level : BitVec 2} {sel : Word} {sp : Dword}
    {d : Descriptor} (hi : InnerStack s level sel sp d) (ext : Bool) :
    ∃ u, innerStack level ext t = .ok (sel, sp, d) u ∧ Noted s u := by
  obtain ⟨u1, u2, w, n1, n2, hw, h1, h2⟩ := tssStack_ok hp h hi ext
  obtain ⟨u3, h3, n3⟩ := loadStackSegment_unpaged (n2.plain hp) (Exn.ts (selCode sel ext)) (Exn.ts (selCode sel ext))
    (Exn.ss (selCode sel ext)) hi.notNull ((n2.inTable sel).trans hi.inside)
    (show d = u2.descriptorIn (u2.descriptorAt sel) by rw [n2.descriptorAt, n2.descriptorIn]; exact hi.found)
    ⟨hi.level.1, hi.level.2, hi.data.1⟩ hi.data.2
  have htr : t.tr = s.tr := by rw [h]
  refine ⟨u3, ?_, n2.trans n3⟩
  unfold innerStack
  rw [run_bind_ok (run_get t), htr]
  cases h386 : s.tr.is386
  · rw [h386] at h1 h2
    simp only [Bool.false_eq_true, if_false] at h1 h2 ⊢
    rw [run_bind_ok h1, run_bind_ok h2, hw, run_bind_ok h3]
    rfl
  · rw [h386] at h1 h2
    simp only [if_true] at h1 h2 ⊢
    rw [run_bind_ok h1, run_bind_ok h2, hw, run_bind_ok h3]
    rfl

/-! The handler's stack in place. -/

/-- `s` with the stack of `level` in place, its descriptor marked accessed, and flags `f`. -/
def State.handlerStack (s : State) (level : BitVec 2) (sel : Word) (sp : Dword) (d : Descriptor) (f : Eflags) : State :=
  { s.onInnerStack level sel sp d with mem := accessedMem s (s.descriptorAt sel + 5) d, eflags := f }

/-- The statements put the same state together from a store. -/
theorem markingAccessed_handlerStack {s : State} {level : BitVec 2} {sel : Word} {sp : Dword} {d : Descriptor}
    (hd : d = s.descriptorIn (s.descriptorAt sel)) :
    (s.onInnerStack level sel sp d).markingAccessed sel d = s.handlerStack level sel sp d s.eflags := by
  have hbyte : s.readByte (s.descriptorAt sel + 5) ||| 1 = ((d.hi >>> 8) ||| 1).setWidth 8 := by
    rw [hd]; exact (typeByte_accessed s _).symm
  unfold State.markingAccessed State.marks State.handlerStack accessedMem
  rw [← hbyte]
  cases hb : d.type.getLsbD 0
  · simp only [List.filter, hb]
    rfl
  · simp only [List.filter, hb]
    rfl

section
variable {s : State} {level : BitVec 2} {sel : Word} {sp : Dword} {d : Descriptor} {f : Eflags}

/-- The load of SS as the gate makes it, after what has been read. -/
theorem handlerStack_ok {n : State} (hp : s.Plain) (hw : Memory.wf s.mem = true) (h : Noted s n) (sz : Size) :
    ∃ y, setAccessed sel d ({ n.onInnerStack level sel sp d with eflags := f } : State) = .ok () y ∧
      Built (s.handlerStack level sel sp d f) y (s.handlerStack level sel sp d f).regs sz [] [] := by
  obtain ⟨y, hy, he⟩ := setAccessed_unpaged (s := { n.onInnerStack level sel sp d with eflags := f }) (h.plain hp) sel d
  have hmem : y.mem = accessedMem s (s.descriptorAt sel + 5) d := by rw [he, h]; rfl
  refine ⟨y, hy, .of_mem_eq sz ?_ ?_ ?_ hmem ?_⟩
  · rw [he, h]; rfl
  · rw [he]; rfl
  · rw [he, h]; rfl
  · show Memory.wf (accessedMem s (s.descriptorAt sel + 5) d) = true
    unfold accessedMem
    split
    · exact hw
    · exact writeCells_wf hw _ _

/-- The access byte of a code segment is not that of a stack segment. -/
theorem handlerStack_byte (hw : Memory.wf s.mem = true) {tsel : Word} {c : Descriptor}
    (hd : d = s.descriptorIn (s.descriptorAt sel)) (hc : c = s.descriptorIn (s.descriptorAt tsel))
    (hdata : d.isWritableData = true) (hcode : c.isCode = true) :
    ((c.hi >>> 8) ||| 1).setWidth 8 =
      (s.handlerStack level sel sp d f).readByte ((s.handlerStack level sel sp d f).descriptorAt tsel + 5) ||| 1 := by
  have hne : s.descriptorAt tsel + 5 ≠ s.descriptorAt sel + 5 := by
    intro he
    rw [hc, (BitVec.add_left_inj 5).1 he, ← hd] at hcode
    unfold Descriptor.isWritableData Descriptor.isData at hdata
    unfold Descriptor.isCode at hcode
    simp only [Bool.and_eq_true_iff, Bool.not_eq_true'] at hdata hcode
    rw [hcode.2] at hdata
    exact absurd hdata.1.2 (by decide)
  have hother := (read_accessedMem hw d hd rfl).2 _ hne
  rw [hc, typeByte_accessed]
  exact congrArg (· ||| 1) hother.symm

end

/-! Delivery. -/

/-- The items of a frame on an inner stack. -/
theorem deliverInner_ok {s : State} {ev : Event} {g c d : Descriptor} {sel : Word} {sp : Dword}
    (hw : Memory.wf s.mem = true) (hm : s.protectedMode = true) (h : IdtGate s ev.vector g c)
    (hconf : c.isConforming = false) (hlevel : c.dpl < s.currentCpl) (hi : InnerStack s c.dpl sel sp d)
    (hdpl : ev.software = true → s.currentCpl ≤ g.dpl)
    (hslot : ∀ j, j < 5 + (if ev.errorCode = none then 0 else 1) →
      (s.handlerStack c.dpl sel sp d s.eflags).slotOk g.gateSize j) :
    ∃ t xs, deliver ev s = .ok () t ∧ CodeItems ev.vector ev.errorCode xs ∧
      EnteredGate s (s.handlerStack c.dpl sel sp d s.eflags) t.handlerEntered g c c.dpl
        ([s.ss.selector.setWidth 32, s.regs.esp, ev.image s.eflags, s.cs.selector.setWidth 32, ev.savedEip] ++ xs)
        (s.marks [(g.gateSelector, c)]) := by
  obtain ⟨hpe, hvm⟩ := Bool.and_eq_true_iff.1 hm
  have hv : s.v86 = false := by
    have : s.eflags.vm = false := by simpa using hvm
    unfold State.v86; rw [this, Bool.and_false]
  have hp := h.target.plain
  obtain ⟨s1, n1, hrun⟩ := deliver_gate hpe h hdpl (BitVec.le_of_lt hlevel)
  rw [hv, show (!c.isConforming && decide (c.dpl < s.currentCpl)) = true by rw [hconf, decide_eq_true hlevel]; rfl] at hrun
  obtain ⟨s2, h2, n2⟩ := innerStack_ok hp n1 hi ev.ext
  obtain ⟨xs, s3, h3, n3, hx⟩ := errorItem_ok n2 ev
  obtain ⟨y, hy, hb⟩ := handlerStack_ok (level := c.dpl) (sel := sel) (sp := sp) (d := d) (f := s.eflags) hp hw n3 g.gateSize
  obtain ⟨u, hu, hg⟩ := enterGate_ok (s := s.handlerStack c.dpl sel sp d s.eflags) (level := c.dpl)
    (x := { s3.onInnerStack c.dpl sel sp d with eflags := s.eflags }) (loadStack := setAccessed sel d)
    (items := [s.ss.selector.setWidth 32, s.regs.esp, ev.image s.eflags, s.cs.selector.setWidth 32, ev.savedEip] ++ xs)
    hp (by rw [n3]; exact ⟨rfl, rfl, rfl⟩) (by rw [n3]; rfl)
    (fun j hj => slots_of_code hx hslot j (by
      simp only [List.length_append, List.length_cons, List.length_nil] at hj; omega))
    (by have := hx.length_le; simp only [List.length_append, List.length_cons, List.length_nil]; omega) h.target.limit hy hb
    (handlerStack_byte hw hi.found h.target.found hi.data.1 h.target.code)
  refine ⟨u, xs, ?_, hx, ThroughGate.entered (s := s) hg rfl rfl rfl⟩
  rw [hrun]
  show deliverInner ev g g.gateSelector c s1 = _
  unfold deliverInner
  rw [run_bind_ok (run_get s1), run_bind_ok h2, n1.quiet.eflags, n1.quiet.cs, n1.quiet.regs, show s1.ss = s.ss by rw [n1]]
  refine (run_bind_ok h3).trans (Eq.trans ?_ hu)
  rw [← n3.quiet.eflags]
  rfl

theorem InnerStack.noting {s : State} {level : BitVec 2} {sel : Word} {sp : Dword} {d : Descriptor}
    (h : InnerStack s level sel sp d) (e : Exn) : InnerStack (s.noting e) level sel sp d := by
  obtain ⟨hv, hf, hn, hi, hd, hl, hw⟩ := h
  exact ⟨hv, hf, hn, hi, hd, hl, hw⟩

/-- Settles O50. -/
theorem gateInnerLevel : Obligations.GateInnerLevel := by
  unfold Obligations.GateInnerLevel
  rintro s s1 v g c d sel sp hs hm h hconf hlevel hi rfl
  rw [markingAccessed_handlerStack hi.found]
  refine ⟨fun i hform hdpl hslot => ?_, ?_⟩
  · obtain ⟨t, xs, ht, hx, he⟩ := deliverInner_ok (ev := softwareEvent v s.eip) hs.mem hm h hconf hlevel hi
      (fun _ => hdpl) hslot
    obtain rfl : xs = [] := hx
    exact ⟨_, (softwareForms (v86Sensitive_protected hm) hform).trans (deliverEvent_ok ht), he⟩
  · rintro e image rfl rfl
    have key := deliverInner_ok (s := s.noting e) (ev := e.event s.instrEip false) hs.mem hm (h.noting e) hconf hlevel
      (hi.noting e) nofun
    rw [event_image] at key
    refine ⟨fun he hslot => ?_, fun code he hslot _ => ?_⟩
    · obtain ⟨t, xs, ht, hx, hg⟩ := key (by
        rw [show (e.event s.instrEip false).errorCode = none from he, if_pos rfl]; exact hslot)
      rw [show (e.event s.instrEip false).errorCode = none from he] at hx
      obtain rfl : xs = [] := hx
      exact ⟨_, takeException_ok ht, hg⟩
    · obtain ⟨t, xs, ht, hx, hg⟩ := key (by
        rw [show (e.event s.instrEip false).errorCode = some code from he, if_neg nofun]; exact hslot)
      rw [show (e.event s.instrEip false).errorCode = some code from he] at hx
      obtain ⟨x, rfl, hc⟩ := hx
      exact ⟨_, x, takeException_ok ht, hc, hg⟩

end Sys2Proof.Machine
end

section
/-! O51: leaving and entering Virtual 8086 Mode. -/

namespace Sys2Proof.Machine

/-! Leaving it. -/

theorem v86_iff {s : State} : s.v86 = true ↔ s.cr0.pe = true ∧ s.eflags.vm = true := by
  unfold State.v86; simp

theorem currentCpl_v86 {s : State} (h : s.v86 = true) : s.currentCpl = 3 := by
  obtain ⟨hpe, hvm⟩ := v86_iff.1 h
  unfold State.currentCpl
  rw [if_pos hpe, if_pos hvm]

theorem noted_freeUpper (s : State) (v : Word) :
    ∃ x t, freeUpper v s = .ok x t ∧ x.setWidth 16 = v ∧ Noted s t :=
  ⟨_, _, rfl, mergeWord_low _ _, noted_draws s _⟩

/-- The stack that the frame is pushed on. -/
def State.stackLeavingV86 (s : State) (sel : Word) (sp : Dword) (d : Descriptor) : State :=
  s.handlerStack 0 sel sp d { s.eflags with vm := false }

theorem markingAccessed_leavingV86 {s : State} {sel : Word} {sp : Dword} {d : Descriptor}
    (hd : d = s.descriptorIn (s.descriptorAt sel)) :
    ({ (s.onInnerStack 0 sel sp d).markingAccessed sel d with eflags := { s.eflags with vm := false } } : State) =
      s.stackLeavingV86 sel sp d := by
  rw [markingAccessed_handlerStack hd]
  rfl

/-- What the frame on the stack of level 0 tells of the state that was left. -/
theorem leftV86_of {s u : State} {g c d : Descriptor} {sel : Word} {sp : Dword} {image eip : Dword} {xs : List Dword}
    {gs fs ds es ss cs : Dword} (h386 : g.is386 = true) (hpe : s.cr0.pe = true)
    (hsel : [gs, fs, ds, es, ss, cs].map (·.setWidth 16) =
      [s.gs.selector, s.fs.selector, s.ds.selector, s.es.selector, s.ss.selector, s.cs.selector])
    (h : ThroughGate (s.stackLeavingV86 sel sp d) u g c 0 ([gs, fs, ds, es, ss, s.regs.esp, image, cs, eip] ++ xs)) :
    LeftV86 s (s.stackLeavingV86 sel sp d) u.dropData.handlerEntered g c d sel image eip xs := by
  have hsize : g.gateSize = .b32 := if_pos h386
  have hcr : u.cr0 = s.cr0 := congrArg (·.cr0) h.rest
  have hcpl : u.cpl = 0 := congrArg (·.cpl) h.rest
  refine ⟨?_, h.eflags, ⟨gs, fs, ds, es, ss, cs, hsel, ?_⟩, congrArg (·.cs) h.rest, congrArg (·.eip) h.rest,
    congrArg (·.ss) h.rest, ?_, ?_, ?_, rfl, rfl, rfl⟩
  · have := h.regs
    rw [hsize] at this
    simp only [List.length_append, List.length_cons, List.length_nil] at this
    exact this
  · have := h.pushed
    rw [hsize] at this
    exact this.of_mem rfl
  · show (if u.cr0.pe then (if u.eflags.vm then 3 else u.cpl) else 0) = (0 : BitVec 2)
    rw [hcr, if_pos hpe, h.eflags, hcpl]
    rfl
  · intro sr hcs hss
    cases sr
    case cs => exact absurd rfl hcs
    case ss => exact absurd rfl hss
    all_goals exact ⟨rfl, rfl⟩
  · have hrest : ({ (u.putBack (s.stackLeavingV86 sel sp d)) with
        es := s.es, cs := s.cs, ss := s.ss, ds := s.ds, fs := s.fs, gs := s.gs, eip := s.eip, cpl := s.cpl,
        eipOver := s.eipOver, runState := s.runState } : State).putBack s = s := by
      rw [h.rest]; rfl
    exact hrest

theorem deliverV86_ok {s : State} {ev : Event} {g c d : Descriptor} {sel : Word} {sp : Dword}
    (hw : Memory.wf s.mem = true) (hm : s.v86 = true) (h : IdtGate s ev.vector g c) (h386 : g.is386 = true)
    (hconf : c.isConforming = false) (hlevel : c.dpl = 0) (hi : InnerStack s 0 sel sp d)
    (hdpl : ev.software = true → s.currentCpl ≤ g.dpl)
    (hslot : ∀ j, j < 9 + (if ev.errorCode = none then 0 else 1) → (s.stackLeavingV86 sel sp d).slotOk .b32 j) :
    ∃ t xs, deliver ev s = .ok () t ∧ CodeItems ev.vector ev.errorCode xs ∧
      LeftV86 s (s.stackLeavingV86 sel sp d) t.handlerEntered g c d sel (ev.image s.eflags) ev.savedEip xs := by
  obtain ⟨hpe, hvm⟩ := v86_iff.1 hm
  have hp := h.target.plain
  have hsize : g.gateSize = .b32 := if_pos h386
  obtain ⟨s1, n1, hrun⟩ := deliver_gate hpe h hdpl (by rw [hlevel, currentCpl_v86 hm]; decide)
  rw [hm] at hrun
  obtain ⟨s2, h2, n2⟩ := innerStack_ok hp n1 hi ev.ext
  obtain ⟨gs, a1, e1, v1, m1⟩ := noted_freeUpper s2 s.gs.selector
  obtain ⟨fs, a2, e2, v2, m2⟩ := noted_freeUpper a1 s.fs.selector
  obtain ⟨ds, a3, e3, v3, m3⟩ := noted_freeUpper a2 s.ds.selector
  obtain ⟨es, a4, e4, v4, m4⟩ := noted_freeUpper a3 s.es.selector
  obtain ⟨ss, a5, e5, v5, m5⟩ := noted_freeUpper a4 s.ss.selector
  obtain ⟨cs, a6, e6, v6, m6⟩ := noted_freeUpper a5 s.cs.selector
  obtain ⟨xs, s3, h3, n3, hx⟩ := errorItem_ok (((((((n2.trans m1).trans m2).trans m3).trans m4).trans m5).trans m6)) ev
  obtain ⟨y, hy, hb⟩ := handlerStack_ok (level := 0) (sel := sel) (sp := sp) (d := d)
    (f := { s.eflags with vm := false }) hp hw n3 g.gateSize
  obtain ⟨u, hu, hg⟩ := enterGate_ok (s := s.stackLeavingV86 sel sp d) (level := 0)
    (x := { s3.onInnerStack 0 sel sp d with eflags := { s.eflags with vm := false } }) (loadStack := setAccessed sel d)
    (items := [gs, fs, ds, es, ss, s.regs.esp, ev.image s.eflags, cs, ev.savedEip] ++ xs)
    hp (by rw [n3]; exact ⟨rfl, rfl, rfl⟩) (by rw [n3]; rfl)
    (fun j hj => by
      rw [hsize]
      refine slots_of_code hx hslot j ?_
      simp only [List.length_append, List.length_cons, List.length_nil] at hj
      omega)
    (by have := hx.length_le; simp only [List.length_append, List.length_cons, List.length_nil]; omega) h.target.limit hy hb
    (handlerStack_byte hw hi.found h.target.found hi.data.1 h.target.code)
  refine ⟨u.dropData, xs, ?_, hx, leftV86_of h386 hpe ?_ hg⟩
  · rw [hrun]
    show deliverV86 ev g g.gateSelector c s1 = _
    unfold deliverV86
    have hseg : s1.gs = s.gs ∧ s1.fs = s.fs ∧ s1.ds = s.ds ∧ s1.es = s.es ∧ s1.ss = s.ss ∧ s1.cs = s.cs := by
      rw [n1]; exact ⟨rfl, rfl, rfl, rfl, rfl, rfl⟩
    obtain ⟨q1, q2, q3, q4, q5, q6⟩ := hseg
    rw [run_bind_ok (run_get s1), h386, q1, q2, q3, q4, q5, q6, n1.quiet.regs, n1.quiet.eflags]
    refine (run_bind_ok (raiseIf_of_false s1 (by rw [hconf, hlevel]; rfl))).trans ((run_bind_ok h2).trans ?_)
    refine (run_bind_ok e1).trans ((run_bind_ok e2).trans ((run_bind_ok e3).trans ((run_bind_ok e4).trans
      ((run_bind_ok e5).trans ((run_bind_ok e6).trans ((run_bind_ok h3).trans ?_))))))
    refine (run_bind_ok (s' := s3.leaveV86) rfl).trans ((run_bind_ok (s' := { s3.onInnerStack 0 sel sp d with
      eflags := { s3.eflags with vm := false } }) rfl).trans ?_)
    rw [n3.quiet.eflags]
    exact (run_bind_ok hu).trans rfl
  · simp only [List.map_cons, List.map_nil, v1, v2, v3, v4, v5, v6]

/-- The frame does not tell what taking the exception has noted. -/
theorem LeftV86.noting {s s1 t : State} {e : Exn} {g c d : Descriptor} {sel : Word} {image eip : Dword} {code : List Dword}
    (h : LeftV86 (s.noting e) (s1.noting e) t g c d sel image eip code) :
    LeftV86 (s.noting e) s1 t g c d sel image eip code := by
  obtain ⟨h1, h2, h3, h4, h5, h6, h7, h8, h9, h10, h11, h12⟩ := h
  exact ⟨h1, h2, h3, h4, h5, h6, h7, h8, h9, h10, h11, h12⟩

theorem v86Sensitive_forms {s : State} {v : Byte} {i : Instr}
    (hi : (i = .intN v ∧ s.eflags.iopl = 3) ∨ (i = .int3 ∧ v = 3) ∨ (i = .into ∧ v = 4 ∧ s.eflags.ofl = true)) :
    exec i s = deliverEvent (softwareEvent v s.eip) s := by
  rcases hi with ⟨rfl, ho⟩ | hi | hi
  · exact softwareForms (v86Sensitive_iopl fun _ => ho) (.inl rfl)
  · obtain ⟨rfl, rfl⟩ := hi
    rfl
  · obtain ⟨rfl, rfl, ho⟩ := hi
    show (if s.eflags.ofl then _ else _) = _
    rw [ho]
    rfl

/-! Entering it. -/

/-- IRET at level 0 from an image with VM = 1. -/
theorem iret_v86 {s : State} (hm : s.protectedMode = true) (hp : s.Plain) (hcpl : s.currentCpl = 0)
    (hosz : s.osz = .b32) (hnt : s.eflags.nt = false) (hseg : s.segOk .ss s.sp 36 false = true) {item : Nat → Dword}
    (hitem : ∀ k, item k = leDword (s.operandBytes .ss (s.sp + BitVec.ofNat 32 (4 * k)) 4))
    (hvm : (item 2).getLsbD 17 = true) :
    ∃ u, Noted s u ∧ exec .iret s = .next (s.retireKeepRf { u with
      cs := .v86 ((item 1).setWidth 16), ss := .v86 ((item 4).setWidth 16), es := .v86 ((item 5).setWidth 16)
      ds := .v86 ((item 6).setWidth 16), fs := .v86 ((item 7).setWidth 16), gs := .v86 ((item 8).setWidth 16)
      eip := item 0 &&& 0xFFFF, eipOver := false, stale := [], queued := [], regs := { s.regs with esp := item 3 }
      eflags := Eflags.ofWord (item 2), cpl := 3, nmiInService := false }) := by
  obtain ⟨t, hn, hrun⟩ := returnFromException_protected (item := item) hp hm hnt
    (by rw [hosz]; exact segOk_start hseg (by decide) (by decide)) (by rw [hosz]; exact hitem)
  obtain ⟨u, hu, hret⟩ := iretToV86_ok hp (Bool.and_eq_true_iff.1 hm).1 hn hseg hitem
  rw [osz_b32.1 hosz, hvm, hcpl] at hrun
  exact ⟨u, hu, iret_next (v86Sensitive_protected hm) (hrun _ hret)⟩

/-- Settles O51. -/
theorem virtual8086 : Obligations.Virtual8086 := by
  unfold Obligations.Virtual8086
  constructor
  · rintro s s1 v g c d sel sp hs hm h h386 hconf hlevel hi rfl
    rw [markingAccessed_leavingV86 hi.found]
    refine ⟨fun i hform hdpl hslot => ?_, ?_⟩
    · obtain ⟨t, xs, ht, hx, he⟩ := deliverV86_ok (ev := softwareEvent v s.eip) hs.mem hm h h386 hconf hlevel hi
        (fun _ => by rw [currentCpl_v86 hm]; exact hdpl) hslot
      obtain rfl : xs = [] := hx
      exact ⟨_, (v86Sensitive_forms hform).trans (deliverEvent_ok ht), he⟩
    · rintro e image rfl rfl
      have key := deliverV86_ok (s := s.noting e) (ev := e.event s.instrEip false) hs.mem hm (h.noting e) h386 hconf hlevel
        (hi.noting e) nofun
      rw [event_image] at key
      refine ⟨fun he hslot => ?_, fun code he hslot _ => ?_⟩
      · obtain ⟨t, xs, ht, hx, hg⟩ := key (by
          rw [show (e.event s.instrEip false).errorCode = none from he, if_pos rfl]; exact hslot)
        rw [show (e.event s.instrEip false).errorCode = none from he] at hx
        obtain rfl : xs = [] := hx
        exact ⟨_, takeException_ok ht, LeftV86.noting (s1 := s.stackLeavingV86 sel sp d) hg⟩
      · obtain ⟨t, xs, ht, hx, hg⟩ := key (by
          rw [show (e.event s.instrEip false).errorCode = some code from he, if_neg nofun]; exact hslot)
        rw [show (e.event s.instrEip false).errorCode = some code from he] at hx
        obtain ⟨x, rfl, hc⟩ := hx
        exact ⟨_, x, takeException_ok ht, hc, LeftV86.noting (s1 := s.stackLeavingV86 sel sp d) hg⟩
  · intro s _ hm hp hcpl hosz hnt hseg item hitem hvm
    obtain ⟨u, hu, hrun⟩ := iret_v86 hm hp hcpl hosz hnt hseg hitem hvm
    refine ⟨_, hrun, rfl, rfl, rfl, ?_, ?_, rfl, fun p => .inl ?_, ?_, rfl, rfl⟩
    · simp only [List.forall_mem_cons]
      exact ⟨rfl, rfl, rfl, rfl, rfl, rfl, nofun⟩
    · show (if u.cr0.pe then (if (item 2).getLsbD 17 then 3 else _) else 0) = (3 : BitVec 2)
      rw [hvm, if_pos rfl, hu, if_pos (Bool.and_eq_true_iff.1 hm).1]
    · rw [hu]; rfl
    · rw [hu]; rfl

end Sys2Proof.Machine
end

section
/-! O55 and O56: special registers and the privilege checks. -/

namespace Sys2Proof.Machine

/-! The checks that come first. -/

theorem checkCpl0_exn {s : State} (h : s.currentCpl ≠ 0) : checkCpl0 s = .error (.exn (Exn.gp 0) .nothing) s := by
  unfold checkCpl0
  rw [run_bind_ok (run_get s)]
  exact raiseIf_of_true s (bne_iff_ne.2 h)

theorem checkProtected_exn {s : State} (h : s.protectedMode = false) :
    checkProtected s = .error (.exn Exn.ud .nothing) s := by
  unfold checkProtected
  rw [run_bind_ok (run_get s)]
  exact raiseIf_of_true s (by rw [h]; rfl)

/-- An instruction that raises an exception before it has done anything, however it ends. -/
theorem finish_raises {α : Type} {after : α → State → State → State} {m : M α} {s : State} {e : Exn}
    (h : m s = .error (.exn e .nothing) s) : finish after m s = takeException e s := by
  rw [finish_exn h]; rfl

/-- The first check of an instruction fails. -/
theorem first_raises {α β : Type} {after : β → State → State → State} {check : M α} {k : α → M β} {s : State} {e : Exn}
    (h : check s = .error (.exn e .nothing) s) : finish after (check >>= k) s = takeException e s :=
  finish_raises (run_bind_error h)

theorem checkDetect_ok {s : State} (h : s.dr7.getLsbD 13 = false) : checkDetect s = .ok () s := by
  unfold checkDetect
  rw [run_bind_ok (run_get s)]
  exact raiseIf_of_false s h

theorem checkDetect_exn {s : State} (h : s.dr7.getLsbD 13 = true) :
    checkDetect s = .error (.exn Exn.generalDetect .nothing) s := by
  unfold checkDetect
  rw [run_bind_ok (run_get s)]
  exact raiseIf_of_true s h

/-- The check of a debug register move passes and that of the privilege level does not. -/
theorem debug_raises {k : Unit → M Unit} {s : State} (hd : s.dr7.getLsbD 13 = false) (h : s.currentCpl ≠ 0) :
    complete (checkDetect >>= fun _ => checkCpl0 >>= k) s = takeException (Exn.gp 0) s :=
  finish_raises ((run_bind_ok (checkDetect_ok hd)).trans (run_bind_error (checkCpl0_exn h)))

theorem protected_raises {k : Unit → M Unit} {s : State} (hm : s.protectedMode = true) (h : s.currentCpl ≠ 0) :
    complete (checkProtected >>= fun _ => checkCpl0 >>= k) s = takeException (Exn.gp 0) s :=
  finish_raises ((run_bind_ok (checkProtected_ok hm)).trans (run_bind_error (checkCpl0_exn h)))

theorem v86Sensitive_eq_true {s : State} (hv : s.v86 = true) (h : s.eflags.iopl ≠ 3) : s.v86Sensitive = true := by
  unfold State.v86Sensitive
  rw [hv, Bool.true_and, decide_eq_true_eq]
  revert h
  generalize s.eflags.iopl = x
  revert x
  decide

/-- Settles O56. -/
theorem privilegeChecks : Obligations.PrivilegeChecks := by
  unfold Obligations.PrivilegeChecks
  intro s r m rm n
  simp only [List.forall_mem_cons, List.not_mem_nil, false_implies, implies_true, and_true]
  refine ⟨fun h => ?privileged, fun h hd => ?debug, fun hm h => ?task, fun hv hi => ?v86, fun hm => ?mode⟩
  case privileged =>
    have key : ∀ k : Unit → M Unit, complete (checkCpl0 >>= k) s = takeException (Exn.gp 0) s :=
      fun k => first_raises (checkCpl0_exn h)
    exact ⟨key _, key _, key _, key _, key _, key _, key _, key _, key _, key _, key _, key _, key _, key _, key _⟩
  case debug =>
    have key : ∀ k : Unit → M Unit,
        complete (checkDetect >>= fun _ => checkCpl0 >>= k) s = takeException (Exn.gp 0) s := fun k => debug_raises hd h
    exact ⟨key _, key _, key _, key _, key _, key _, key _, key _, key _, key _, key _, key _⟩
  case task => exact ⟨protected_raises hm h, protected_raises hm h⟩
  case v86 =>
    have hs := v86Sensitive_eq_true hv hi
    have hcheck : raiseIf s.v86Sensitive (Exn.gp 0) s = .error (.exn (Exn.gp 0) .nothing) s := raiseIf_of_true s hs
    exact ⟨if_pos hs, first_raises hcheck, first_raises hcheck, first_raises hcheck⟩
  case mode =>
    have key : ∀ k : Unit → M Unit, complete (checkProtected >>= k) s = takeException Exn.ud s :=
      fun k => first_raises (checkProtected_exn hm)
    exact ⟨key _, key _, key _, key _, key _, key _, key _, key _, key _⟩

/-! Moves to and from the special registers. -/

theorem queueSince_eq (s old : State) : s.queueSince old = { s with queued := (s.queueSince old).queued } := by
  unfold State.queueSince
  split
  · rfl
  · rfl

theorem undefinedFlags_ok' (s : State) :
    ∃ t, undefinedFlags s = .ok () t ∧ t.tlb = s.tlb ∧ t.putBack s = s ∧ t.mem = s.mem ∧ t.regs = s.regs ∧
      t.eflags = s.eflags.arithmeticOf t.eflags := ⟨_, rfl, rfl, rfl, rfl, rfl, rfl⟩

section
variable {i : Instr} {s : State} (hc : s.currentCpl = 0) {write : State → State}
include hc

theorem moveTo_ok : ∃ t, moveTo write s = .ok () t ∧ t.putBack (write s) = write s ∧ t.mem = (write s).mem ∧
    t.regs = (write s).regs ∧ t.eflags = (write s).eflags.arithmeticOf t.eflags ∧ t.tlb = (write s).tlb := by
  obtain ⟨t, ht, htlb, h⟩ := undefinedFlags_ok' (write s)
  exact ⟨t, (run_bind_ok (checkCpl0_ok hc)).trans ht, h.1, h.2.1, h.2.2.1, h.2.2.2, htlb⟩

/-- A move to a special register, `m` being what comes after its other checks. -/
theorem moveTo_gives {m : M Unit} (hi : exec i s = complete m s) (hm : m s = moveTo write s) {u : State}
    (hr : (write s).regs = s.regs) (hf : (write s).eflags = s.eflags) (hmem : (write s).mem = s.mem)
    (hu : (write s).putBack s = u) : Gives i s s.regs (fun u => s.eflags.arithmeticOf u) u := by
  obtain ⟨t, ht, hb, hmt, hrt, hft, -⟩ := moveTo_ok (write := write) hc
  have hput : t.putBack s = u := by
    rw [← hu, ← hb]; rfl
  refine gives_of hi (hm.trans ht) (hrt.trans hr) ?_ hput fun p => .inl ?_
  · show ({ t.eflags with rf := false } : Eflags) = _
    rw [arithmeticOf_rf, ← hf, ← hft]
  · unfold State.readByte
    rw [hmt, hmem]

/-- A move from a special register. -/
theorem moveFrom_gives {m : M Unit} {r : Reg} {mask : Dword} {value : State → Dword} (hi : exec i s = complete m s)
    (hm : m s = moveFrom r mask value s) (hv : value s &&& mask = value s) :
    ∃ x, x &&& mask = value s ∧ Gives i s (s.regs.set r x) (fun u => s.eflags.arithmeticOf u) s := by
  obtain ⟨x, hx⟩ : ∃ x, x = (value s &&& mask) ||| (Config.freeDword s.draws &&& ~~~mask) := ⟨_, rfl⟩
  have hclear : Config.freeDword s.draws &&& ~~~mask &&& mask = 0#32 := by
    rw [BitVec.and_assoc, BitVec.not_and_self, show (0 : Dword) = 0#32 from rfl, BitVec.and_zero]
  obtain ⟨t, ht, -, hb, hmt, hrt, hft⟩ :=
    undefinedFlags_ok' ({ s with regs := s.regs.set r x, draws := s.draws + 1 } : State)
  have hrun : moveFrom r mask value s =
      undefinedFlags ({ s with regs := s.regs.set r x, draws := s.draws + 1 } : State) := by
    rw [hx]
    exact (run_bind_ok (checkCpl0_ok hc)).trans rfl
  refine ⟨x, ?_, gives_of hi (hm.trans (hrun.trans ht)) hrt ?_ ?_ fun p => .inl ?_⟩
  · rw [hx, BitVec.and_or_distrib_right, BitVec.and_assoc, BitVec.and_self, hclear, BitVec.or_zero, hv]
  · show ({ t.eflags with rf := false } : Eflags) = _
    rw [arithmeticOf_rf]
    exact congrArg (fun f : Eflags => { f with rf := false }) hft
  · have hput : t.putBack s =
        (t.putBack ({ s with regs := s.regs.set r x, draws := s.draws + 1 } : State)).putBack s := rfl
    rw [hput, hb]
    rfl
  · unfold State.readByte
    rw [hmt]

end

theorem and_mask_of_clear {x m : Dword} (h : x &&& ~~~m = 0) : x &&& m = x := by
  have : x = (x &&& m) ||| (x &&& ~~~m) := by
    rw [← BitVec.and_or_distrib_left, BitVec.or_not_self, BitVec.and_allOnes]
  rw [h] at this
  exact (this.trans BitVec.or_zero).symm

theorem bitAt_mask {n : Nat} {mask : Dword} (h : BitVec.ofNat 32 (2 ^ n) &&& mask = BitVec.ofNat 32 (2 ^ n)) (b : Bool) :
    bitAt b n &&& mask = bitAt b n := by
  cases b
  · exact BitVec.zero_and
  · exact h

theorem cr0_word_mask (c : Cr0) : c.word &&& 0x8000001F = c.word := by
  unfold Cr0.word
  simp only [BitVec.and_or_distrib_right]
  rw [bitAt_mask (by decide), bitAt_mask (by decide), bitAt_mask (by decide), bitAt_mask (by decide),
    bitAt_mask (by decide), bitAt_mask (by decide)]

theorem cr3_mask (c : BitVec 20) : (c ++ 0#12 : Dword) &&& 0xFFFFF000 = c ++ 0#12 := by
  rw [show (0xFFFFF000 : Dword) = BitVec.allOnes 20 ++ 0#12 by decide, BitVec.and_append, BitVec.and_allOnes, BitVec.zero_and]

theorem cr3_append (c : BitVec 20) : (c ++ 0#12 : Dword) = c.setWidth 32 <<< 12 := by
  have hc := c.isLt
  apply BitVec.eq_of_toNat_eq
  rw [BitVec.toNat_append, BitVec.toNat_shiftLeft, BitVec.toNat_setWidth]
  simp only [BitVec.toNat_ofNat, Nat.shiftLeft_eq, Nat.zero_mod, Nat.or_zero]
  omega

/-- Settles O55. -/
theorem specialRegisterMoves : Obligations.SpecialRegisterMoves := by
  unfold Obligations.SpecialRegisterMoves
  rintro s r v hs rfl hc
  have hall : ∀ x : Dword, x &&& 0xFFFFFFFF = x := fun x => BitVec.and_allOnes
  simp only [List.forall_mem_cons, List.not_mem_nil, false_implies, implies_true, and_true]
  refine ⟨fun hpg hpe => ?refused, fun h => ?cr0, ?into, ?tlb, ?from', fun hd => ⟨?toDebug, ?fromDebug⟩, fun hd => ?detect⟩
  case refused =>
    refine finish_raises ((run_bind_ok (checkCpl0_ok hc)).trans (run_bind_error (raiseIf_of_true s ?_)))
    show ((s.regs.get r).getLsbD 31 && !(s.regs.get r).getLsbD 0) = true
    rw [hpg, hpe]
    rfl
  case cr0 =>
    have hcheck : raiseIf ((Cr0.ofWord (s.regs.get r)).pg && !(Cr0.ofWord (s.regs.get r)).pe) (Exn.gp 0) s = .ok () s := by
      refine raiseIf_of_false s ?_
      show ((s.regs.get r).getLsbD 31 && !(s.regs.get r).getLsbD 0) = false
      rcases h with h | h
      · rw [h, Bool.false_and]
      · rw [h, Bool.not_true, Bool.and_false]
    have hrun : ∀ k : Unit → M Unit, (checkCpl0 >>= fun _ => raiseIf ((Cr0.ofWord (s.regs.get r)).pg &&
        !(Cr0.ofWord (s.regs.get r)).pe) (Exn.gp 0) >>= k) s = (checkCpl0 >>= k) s := fun k =>
      (run_bind_ok (checkCpl0_ok hc)).trans ((run_bind_ok hcheck).trans (run_bind_ok (checkCpl0_ok hc)).symm)
    exact moveTo_gives (write := fun u => (u.setCr0 (Cr0.ofWord (s.regs.get r))).queueSince u) hc rfl (hrun _)
      (by rw [queueSince_eq]; rfl) (by rw [queueSince_eq]; rfl) (by rw [queueSince_eq]; rfl) (by rw [queueSince_eq]; rfl)
  case into =>
    exact ⟨moveTo_gives hc rfl rfl rfl rfl rfl rfl,
      moveTo_gives hc rfl rfl (by rw [queueSince_eq]; rfl) (by rw [queueSince_eq]; rfl) (by rw [queueSince_eq]; rfl)
        (by rw [queueSince_eq]; rfl),
      moveTo_gives hc rfl rfl rfl rfl rfl rfl, moveTo_gives hc rfl rfl rfl rfl rfl rfl⟩
  case tlb =>
    intro t ht
    obtain ⟨t', ht', -, -, -, -, htlb⟩ :=
      moveTo_ok (write := fun s => (s.setCr3 (s.regs.get r)).queueSince s) hc
    have : exec (.movCr3Reg r) s = .next (s.retire t') := complete_ok ht'
    rw [this] at ht
    cases ht
    show t'.tlb = []
    rw [htlb, queueSince_eq]
    rfl
  case from' =>
    rw [← cr3_append]
    exact ⟨moveFrom_gives (value := fun s => s.cr0.word) hc rfl rfl (cr0_word_mask _),
      moveFrom_gives (value := fun s => s.cr2) hc rfl rfl (hall _),
      moveFrom_gives (value := fun s => s.cr3 ++ 0#12) hc rfl rfl (cr3_mask _),
      moveFrom_gives (value := fun s => s.tr6) hc rfl rfl (hall _),
      moveFrom_gives (value := fun s => s.tr7) hc rfl rfl (hall _)⟩
  case toDebug =>
    have hok : ∀ k : Unit → M Unit, (checkDetect >>= k) s = k () s := fun k => run_bind_ok (checkDetect_ok hd)
    exact ⟨moveTo_gives hc rfl (hok _) rfl rfl rfl rfl, moveTo_gives hc rfl (hok _) rfl rfl rfl rfl,
      moveTo_gives hc rfl (hok _) rfl rfl rfl rfl, moveTo_gives hc rfl (hok _) rfl rfl rfl rfl,
      moveTo_gives hc rfl (hok _) rfl rfl rfl rfl, moveTo_gives hc rfl (hok _) rfl rfl rfl rfl⟩
  case fromDebug =>
    have hok : ∀ k : Unit → M Unit, (checkDetect >>= k) s = k () s := fun k => run_bind_ok (checkDetect_ok hd)
    exact ⟨moveFrom_gives (value := fun s => s.dr0) hc rfl (hok _) (hall _),
      moveFrom_gives (value := fun s => s.dr1) hc rfl (hok _) (hall _),
      moveFrom_gives (value := fun s => s.dr2) hc rfl (hok _) (hall _),
      moveFrom_gives (value := fun s => s.dr3) hc rfl (hok _) (hall _),
      moveFrom_gives (value := fun s => s.dr6) hc rfl (hok _) (and_mask_of_clear hs.dr6),
      moveFrom_gives (value := fun s => s.dr7) hc rfl (hok _) (and_mask_of_clear hs.dr7)⟩
  case detect =>
    have key : ∀ k : Unit → M Unit, complete (checkDetect >>= k) s = takeException Exn.generalDetect s :=
      fun k => first_raises (checkDetect_exn hd)
    exact ⟨key _, key _, key _, key _, key _, key _, key _, key _, key _, key _, key _, key _⟩

end Sys2Proof.Machine
end

section
/-! O58: LGDT, LIDT, SGDT, SIDT. -/

namespace Sys2Proof.Machine

theorem Quiet.osz32 {s t : State} (h : Quiet s t) : t.osz32 = s.osz32 := by
  have := h.osz
  unfold State.osz at this
  revert this
  cases t.osz32 <;> cases s.osz32 <;> simp

theorem Quiet.isUser {s t : State} (h : Quiet s t) : t.isUser = s.isUser := by
  unfold State.isUser State.currentCpl
  rw [h.cr0, h.eflags, show t.cpl = s.cpl from putBack_congr h.rest (·.cpl) fun _ _ => rfl]

theorem Quiet.linear_eq {s t : State} (h : Quiet s t) (sr : SReg) (off : Dword) : t.linear sr off = s.linear sr off := by
  unfold State.linear; rw [h.seg]

/-! A store in two parts. -/

theorem writeCells_append (fixed : Nat → Bool) (as as' : List Dword) (bs bs' : List Byte) :
    ∀ m, as.length = bs.length →
      writeCells fixed m (as ++ as') (bs ++ bs') = writeCells fixed (writeCells fixed m as bs) as' bs' := by
  induction as generalizing bs with
  | nil =>
    intro m h
    obtain rfl : bs = [] := List.length_eq_zero_iff.1 h.symm
    rfl
  | cons a as ih =>
    intro m h
    cases bs with
    | nil => simp at h
    | cons b bs => exact ih bs _ (by simpa using h)

theorem writePhys_present {as : List Dword} {bs : List Byte} {s : State} (h : ∀ p ∈ as, s.isAbsent p = false) :
    ∃ v, writePhys as bs s = .ok () (v.storePhys as bs) ∧ Quiet s v ∧ v.mem = s.mem := by
  have ha : as.any s.isAbsent = false := by simpa [List.any_eq_false] using h
  unfold writePhys
  rw [ha]
  cases as.any s.isDevice
  · exact ⟨s, rfl, .refl s, rfl⟩
  · exact ⟨_, rfl, quiet_noteCycles s _ _ _, rfl⟩

theorem writePhys_ok_present {as : List Dword} {bs : List Byte} {s t : State} {a : Unit} (h : writePhys as bs s = .ok a t) :
    ∀ p ∈ as, s.isAbsent p = false := by
  unfold writePhys at h
  split at h
  · cases h
  · next ha => simpa [List.any_eq_false] using ha

/-- What a store of physical bytes leaves as it was. -/
theorem storePhys_putBack (s : State) (as : List Dword) (bs : List Byte) : (s.storePhys as bs).putBack s = s := rfl

/-- Two stores that follow each other make of memory what one store of all the bytes does. -/
theorem writePhys_split {as : List Dword} {bs bs' : List Byte} {s : State} (hl : bs.length ≤ as.length)
    (h : ∀ p ∈ as, s.isAbsent p = false) :
    ∃ t, (writePhys (as.take bs.length) bs >>= fun _ => writePhys (as.drop bs.length) bs') s = .ok () t ∧
      t.mem = (s.storePhys as (bs ++ bs')).mem ∧ t.putBack s = s ∧ t.regs = s.regs ∧ t.eflags = s.eflags := by
  obtain ⟨v, hv, qv, mv⟩ := writePhys_present (bs := bs) fun p hp => h p (List.mem_of_mem_take hp)
  have habs : ∀ p, (v.storePhys (as.take bs.length) bs).isAbsent p = s.isAbsent p := fun p => qv.isAbsent p
  obtain ⟨w, hw, qw, mw⟩ := writePhys_present (s := v.storePhys (as.take bs.length) bs) (bs := bs')
    fun p hp => (habs p).trans (h p (List.mem_of_mem_drop hp))
  have hfix : ∀ u : State, u.params = s.params → u.isFixed = s.isFixed := fun u hu => by
    funext a; unfold State.isFixed; rw [hu]
  have hwp : w.params = s.params := qw.params.trans qv.params
  refine ⟨_, (run_bind_ok hv).trans hw, ?_, ?_, ?_, ?_⟩
  · show writeCells w.isFixed w.mem (as.drop bs.length) bs' = writeCells s.isFixed s.mem as (bs ++ bs')
    have hmid : w.mem = writeCells v.isFixed v.mem (as.take bs.length) bs := mw
    rw [hmid, mv, hfix w hwp, hfix v qv.params, ← writeCells_append _ _ _ _ _ _ (by rw [List.length_take]; omega),
      List.take_append_drop]
  · exact putBack_trans (qv.putBack (storePhys_putBack v _ _)) (qw.putBack (storePhys_putBack w _ _))
  · exact qw.regs.trans qv.regs
  · exact qw.eflags.trans qv.eflags

/-! The bytes of a table register. -/

theorem tableBytes_last (v : Dword) : leBytes 4 v = leBytes 3 v ++ [v.extractLsb' 24 8] := by
  refine List.ext_getElem (by simp) fun k h1 h2 => ?_
  have hk : k < 4 := by simpa using h1
  rw [leBytes_getElem]
  rcases Nat.lt_or_ge k 3 with h | h
  · rw [List.getElem_append_left (by simpa using h), leBytes_getElem]
  · obtain rfl : k = 3 := by omega
    rfl

theorem tableBytes_low (u v : Dword) : leBytes 3 (u.extractLsb' 24 8 ++ v.extractLsb' 0 24) = leBytes 3 v := by
  refine List.ext_getElem (by simp) fun k h1 h2 => ?_
  have hk : k < 3 := by simpa using h1
  rw [leBytes_getElem, leBytes_getElem]
  apply BitVec.eq_of_getLsbD_eq
  intro i hi
  have hlow : 8 * k + i < 24 := by omega
  rw [BitVec.getLsbD_extractLsb', BitVec.getLsbD_extractLsb', BitVec.getLsbD_append, if_pos hlow,
    BitVec.getLsbD_extractLsb', decide_eq_true hlow, Nat.zero_add, Bool.true_and]

theorem tableBytes_eq (r : TableReg) (u : Dword) (wide : Bool) :
    leBytes 2 (r.limit.setWidth 32) ++ leBytes 4 (if wide then r.base else u.extractLsb' 24 8 ++ r.base.extractLsb' 0 24) =
      leBytes 2 (r.limit.setWidth 32) ++ leBytes 3 r.base ++ [if wide then r.base.extractLsb' 24 8 else u.extractLsb' 24 8] := by
  rw [tableBytes_last, ← List.append_assoc]
  cases wide
  · simp only [Bool.false_eq_true, if_false]
    rw [tableBytes_low, show (u.extractLsb' 24 8 ++ r.base.extractLsb' 0 24 : Dword).extractLsb' 24 8 = u.extractLsb' 24 8
      from BitVec.extractLsb'_append_eq_left]
  · rfl

/-- A store of a table register. -/
theorem storeTableReg_ends {i : Instr} {s s1 s2 s3 : State} {m : MemOp} {r : TableReg} {sr : SReg} {off u : Dword}
    {bs : List Byte} (hs : s.Inv) (hi : exec i s = complete (storeTableReg m r) s)
    (ha : effectiveAddress m s = .ok (sr, off) s1) (hseg : s1.segOk sr off 6 true = true) (hu : freeDword s1 = .ok u s2)
    (hbs : bs = leBytes 2 (r.limit.setWidth 32) ++
      leBytes 4 (if s.osz32 then r.base else u.extractLsb' 24 8 ++ r.base.extractLsb' 0 24))
    (hw : writeLinear s.isUser (s.linear sr off) bs s2 = .ok () s3) :
    ∃ t, exec i s = .next t ∧ Ends s t s.regs s.eflags s ∧ StoresAt s s2 t sr off bs := by
  have hlen : bs.length = 6 := by rw [hbs]; simp
  have q2 : Quiet s s2 := (quiet_effectiveAddress ha).trans (by cases hu; exact quiet_draws s1 _)
  unfold writeLinear at hw
  obtain ⟨as, a1, h1, k⟩ := run_bind_eq_ok.1 hw
  obtain ⟨⟨⟩, a2, h2, k⟩ := run_bind_eq_ok.1 k
  rw [hlen] at h1 h2
  have qa : Quiet s a2 := (q2.trans (quiet_physRange h1)).trans (quiet_noteAccess h2)
  obtain ⟨hnd, hl⟩ := physRange_nodup (by decide) h1
  have hl := hl (by decide)
  obtain ⟨t, ht, hmem, hput, hregs, hfl⟩ := writePhys_split (bs := leBytes 2 (r.limit.setWidth 32))
    (bs' := leBytes 4 (if s.osz32 then r.base else u.extractLsb' 24 8 ++ r.base.extractLsb' 0 24)) (by simp [hl])
    (writePhys_ok_present k)
  rw [← hbs] at hmem
  have hrun : storeTableReg m r s = .ok () t := by
    unfold storeTableReg
    rw [run_bind_ok ha]
    refine (run_bind_ok (a := ()) (segCheck_eq_ok.2 ⟨hseg, rfl⟩)).trans ((run_bind_ok hu).trans ?_)
    rw [run_bind_ok (run_get s2), q2.isUser, q2.linear_eq, q2.osz32]
    exact (run_bind_ok h1).trans ((run_bind_ok h2).trans ht)
  refine ⟨_, hi.trans (complete_ok hrun), ends_retire (hregs.trans qa.regs) ?_ (qa.putBack hput), ?_⟩
  · rw [hfl, qa.eflags]
  · intro as' u' hr
    rw [q2.isUser, q2.linear_eq, hlen, h1] at hr
    cases hr
    exact (stores_storePhys qa hs.mem hnd (hl.trans hlen.symm)).of_mem hmem

/-- Settles O58. -/
theorem tableRegisters : Obligations.TableRegisters := by
  unfold Obligations.TableRegisters
  intro s s1 s2 s3 m sr off lim base u hs ha
  refine ⟨?load, ?store⟩
  case load =>
    rintro hc hseg h2 h3 r rfl
    have q : Quiet s s3 := ((quiet_effectiveAddress ha).trans (memRead_ok h2).2).trans (memRead_ok h3).2
    have hr : readTableReg m s = .ok { limit := lim.setWidth 16, base := if s.osz32 then base else base &&& 0x00FFFFFF } s3 := by
      unfold readTableReg
      rw [run_bind_ok ha]
      refine (run_bind_ok (a := ()) (segCheck_eq_ok.2 ⟨hseg, rfl⟩)).trans ((run_bind_ok h2).trans ((run_bind_ok h3).trans ?_))
      rw [run_bind_ok (run_get s3), q.osz32]
      rfl
    have hbase : (if s.osz = .b32 then base else base &&& 0x00FFFFFF) = if s.osz32 then base else base &&& 0x00FFFFFF := by
      rcases osz_cases s with h | h
      · rw [h, osz_b16.1 h]; rfl
      · rw [h, osz_b32.1 h]; rfl
    rw [hbase]
    have hn : ∀ t : State, t.mem = s3.mem → NoStore s t := fun t ht p => (q.bytes hs.mem p).of_mem rfl ht rfl rfl
    have hf : ({ s3.eflags with rf := false } : Eflags) = { s.eflags with rf := false } := by rw [q.eflags]
    constructor
    · refine gives_of rfl ((run_bind_ok (checkCpl0_ok hc)).trans ((run_bind_ok hr).trans rfl)) q.regs hf ?_ (hn _ rfl)
      exact congrArg (fun u : State => u.setGdtr _) q.rest
    · refine gives_of rfl ((run_bind_ok (checkCpl0_ok hc)).trans ((run_bind_ok hr).trans rfl)) q.regs hf ?_ (hn _ rfl)
      exact congrArg (fun u : State => u.setIdtr _) q.rest
  case store =>
    intro hseg hu p hp bs hbs hw
    have hwide : (if s.osz = .b32 then p.2.base.extractLsb' 24 8 else u.extractLsb' 24 8) =
        (if s.osz32 then p.2.base.extractLsb' 24 8 else u.extractLsb' 24 8 : Byte) := by
      rcases osz_cases s with h | h
      · rw [h, osz_b16.1 h]; rfl
      · rw [h, osz_b32.1 h]; rfl
    rw [hwide, ← tableBytes_eq] at hbs
    simp only [List.mem_cons, List.not_mem_nil, or_false] at hp
    rcases hp with rfl | rfl
    · exact storeTableReg_ends hs rfl ha hseg hu hbs hw
    · exact storeTableReg_ends hs rfl ha hseg hu hbs hw

end Sys2Proof.Machine
end

section
/-! O59: LLDT, LTR and LMSW. -/

namespace Sys2Proof.Machine

theorem noted_resolve {rm : RM} {l : Loc} {s t : State} (h : resolve rm s = .ok l t) : Noted s t := by
  unfold resolve at h
  cases rm with
  | reg r => cases h; exact .refl s
  | mem m =>
    simp only at h
    split at h
    · next h1 => cases h; exact noted_effectiveAddress h1
    · cases h

theorem noted_readLoc {sz : Size} {l : Loc} {v : Dword} {s t : State} (hp : s.Plain) (h : readLoc sz l s = .ok v t) :
    Noted s t := by
  unfold readLoc at h
  cases l with
  | reg r => cases h; exact .refl s
  | mem sr off => exact noted_memRead hp h

theorem noted_readRm {sz : Size} {rm : RM} {v : Dword} {s t : State} (hp : s.Plain) (h : readRm sz rm s = .ok v t) :
    Noted s t := by
  unfold readRm at h
  obtain ⟨l, s1, h1, h⟩ := run_bind_eq_ok.1 h
  have n1 := noted_resolve h1
  exact n1.trans (noted_readLoc (n1.plain hp) h)

/-- An exception after reads with paging off. -/
theorem exec_exn_noted {i : Instr} {m : M Unit} {s s1 : State} {e : Exn} (hi : exec i s = complete m s)
    (hm : m s = .error (.exn e .nothing) s1) (h : Noted s s1) : exec i s = takeException e { s with draws := s1.draws } := by
  rw [exec_exn_after hi hm, h]

/-! LMSW. -/

theorem lmsw_gives {s s1 : State} {rm : RM} {v : Dword} (hs : s.Inv) (hc : s.currentCpl = 0)
    (hr : readRm .b16 rm s = .ok v s1) :
    Gives (.lmsw rm) s s.regs (fun _ => s.eflags) { s with cr0 := s.cr0.loadMsw v } := by
  have q := quiet_readRm hr
  have hrun : (checkCpl0 >>= fun _ => readRm .b16 rm >>= fun v => modify fun s =>
      (s.setCr0 (s.cr0.loadMsw v)).queueSince s) s = .ok () ((s1.setCr0 (s1.cr0.loadMsw v)).queueSince s1) :=
    (run_bind_ok (checkCpl0_ok hc)).trans ((run_bind_ok hr).trans rfl)
  rw [queueSince_eq] at hrun
  refine gives_of rfl hrun q.regs ?_ ?_ fun p => (q.bytes hs.mem p).of_mem rfl rfl rfl rfl
  · show ({ s1.eflags with rf := false } : Eflags) = _
    rw [q.eflags]
  · show ({ s1.putBack s with cr0 := s1.cr0.loadMsw v } : State) = _
    rw [q.rest, q.cr0]

/-! System descriptors. -/

theorem systemDescriptor_ok {s t : State} (hp : s.Plain) (h : Noted s t) {sel : Word} {ok : Descriptor → Bool}
    {d : Descriptor} (hl : inLdt sel = false) (hin : s.inTable sel = true)
    (hd : d = s.descriptorIn (s.descriptorAt sel)) (hok : ok d = true) (hpr : d.present = true) :
    ∃ u, systemDescriptor sel ok t = .ok d u ∧ Noted s u := by
  obtain ⟨u, hu, n⟩ := readDescriptor_noted hp h hin (Exn.gp (selCode sel false))
  rw [← hd] at hu
  refine ⟨u, ?_, n⟩
  unfold systemDescriptor
  rw [run_bind_ok (raiseIf_of_false t hl), run_bind_ok hu, run_bind_ok (raiseIf_of_false u (by rw [hok]; rfl)),
    run_bind_ok (raiseIf_of_false u (by rw [hpr]; rfl))]
  rfl

theorem systemDescriptor_bad {s t : State} (h : Noted s t) {sel : Word} (ok : Descriptor → Bool)
    (hbad : inLdt sel = true ∨ s.inTable sel = false) :
    systemDescriptor sel ok t = .error (.exn (Exn.gp (sel &&& 0xFFFC)) .nothing) t := by
  rw [← selCode_false]
  unfold systemDescriptor
  cases hl : inLdt sel
  · rw [run_bind_ok (raiseIf_of_false t rfl)]
    refine run_bind_error (readDescriptor_outside ?_ _)
    rw [h.inTable]
    rcases hbad with hb | hb
    · rw [hl] at hb; cases hb
    · exact hb
  · exact run_bind_error (raiseIf_of_true t rfl)

/-- The busy bit of a descriptor in memory. -/
theorem writeBusy_ok {s t : State} (hp : s.Plain) (hw : Memory.wf s.mem = true) (h : Noted s t) {sel : Word}
    {d : Descriptor} (hd : d = s.descriptorIn (s.descriptorAt sel)) :
    ∃ u, writeBusy sel d true t = .ok () u ∧ u.putBack s = s ∧ u.regs = s.regs ∧ u.eflags = s.eflags ∧
      u.readByte (s.descriptorAt sel + 5) =
        s.stored (s.descriptorAt sel + 5) (s.readByte (s.descriptorAt sel + 5) ||| 2) ∧
      ∀ p, p ≠ s.descriptorAt sel + 5 → u.readByte p = s.readByte p := by
  obtain ⟨u, hu, he⟩ := writeLinear_unpaged (h.plain hp) false (s.descriptorAt sel + 5)
    (bs := leBytes 1 ((d.hi >>> 8) ||| 2)) (by simp) (by simp)
  have hbyte : ((d.hi >>> 8) ||| 2).setWidth 8 = s.readByte (s.descriptorAt sel + 5) ||| 2 := by
    rw [hd, BitVec.setWidth_or, typeByte]; rfl
  have hmem : u.mem = writeCells s.isFixed s.mem [s.descriptorAt sel + 5] [s.readByte (s.descriptorAt sel + 5) ||| 2] := by
    rw [he, ← hbyte, h]; rfl
  refine ⟨u, ?_, by rw [he, h]; rfl, by rw [he, h], by rw [he, h], ?_, fun p hp => ?_⟩
  · unfold writeBusy
    rw [run_bind_ok (run_get t), h.descriptorAt]
    exact hu
  · have hget := read_writeCells_get (fixed := s.isFixed) hw [s.descriptorAt sel + 5]
      [s.readByte (s.descriptorAt sel + 5) ||| 2] (by simp) (k := 0) (by simp) (by simp)
    unfold State.readByte
    rw [hmem]
    exact hget
  · unfold State.readByte
    rw [hmem]
    exact read_writeCells_other hw _ _ (by simpa using hp)

/-- LDTR after reads with paging off. -/
theorem lldt_gives {i : Instr} {m : M Unit} {s n : State} {c : SegReg} (hi : exec i s = complete m s)
    (hm : m s = .ok () (n.setLdtr c)) (h : Noted s n) :
    Gives i s s.regs (fun _ => s.eflags) { s with ldtr := c } := by
  refine gives_of hi hm h.quiet.regs ?_ ?_ fun p => .inl ?_
  · show ({ n.eflags with rf := false } : Eflags) = _
    rw [h.quiet.eflags]
  · exact congrArg (fun u : State => u.setLdtr c) h.quiet.rest
  · rw [h]; rfl

/-- Settles O59. -/
theorem taskRegisters : Obligations.TaskRegisters := by
  unfold Obligations.TaskRegisters
  rintro s s1 rm v sel d hs hc hr rfl
  refine ⟨lmsw_gives hs hc hr, fun hm hp => ?_⟩
  have n := noted_readRm hp hr
  have hstart : ∀ {α : Type} (k : Dword → M α), (checkProtected >>= fun _ => checkCpl0 >>= fun _ => readRm .b16 rm >>= k) s =
      k v s1 := fun k => (run_bind_ok (checkProtected_ok hm)).trans ((run_bind_ok (checkCpl0_ok hc)).trans (run_bind_ok hr))
  refine ⟨fun h0 => ⟨?_, ?_⟩, fun h0 hbad => ⟨?_, ?_⟩, fun h0 hl hin hd hpr => ⟨fun h2 => ?_, fun htss => ?_⟩⟩
  · have hl : s1.ldtr = s.ldtr := by rw [n]
    rw [← hl]
    exact lldt_gives rfl ((hstart _).trans (congrFun (if_pos h0) s1)) n
  · refine exec_exn_noted rfl ((hstart _).trans ?_) n
    exact run_bind_error (raiseIf_of_true s1 h0)
  · refine exec_exn_noted rfl ((hstart _).trans (Eq.trans (congrFun (if_neg (ne_true_of_eq_false h0)) s1) ?_)) n
    exact run_bind_error (systemDescriptor_bad n _ hbad)
  · refine exec_exn_noted rfl ((hstart _).trans ?_) n
    exact (run_bind_ok (raiseIf_of_false s1 h0)).trans (run_bind_error (systemDescriptor_bad n _ hbad))
  · obtain ⟨u, hu, n2⟩ := systemDescriptor_ok hp n hl hin hd (ok := fun d => d.isSystem 2) h2 hpr
    exact lldt_gives rfl ((hstart _).trans (Eq.trans (congrFun (if_neg (ne_true_of_eq_false h0)) s1) (run_bind_ok hu))) n2
  · obtain ⟨u, hu, n2⟩ := systemDescriptor_ok hp n hl hin hd (ok := Descriptor.isAvailableTss)
      (Bool.or_eq_true_iff.2 htss) hpr
    obtain ⟨w, hw, hb, hg, hf, hat, hother⟩ := writeBusy_ok hp hs.mem n2 hd
    refine ⟨s.retire (w.setTr (d.cache (v.setWidth 16))), complete_ok ((hstart _).trans ?_), ends_retire hg ?_ ?_, hat, hother⟩
    · exact (run_bind_ok (raiseIf_of_false s1 h0)).trans ((run_bind_ok hu).trans (run_bind_ok hw))
    · show ({ w.eflags with rf := false } : Eflags) = _
      rw [hf]
    · exact congrArg (fun u : State => u.setTr _) hb

end Sys2Proof.Machine
end

section
/-! O60: ARPL, LAR, LSL, VERR, VERW. -/

namespace Sys2Proof.Machine

/-! ARPL. -/

theorem rpl_low (v : Dword) : rpl (v.setWidth 16) = v.extractLsb' 0 2 := by
  unfold rpl
  apply BitVec.eq_of_getLsbD_eq
  intro i hi
  have : i < 16 := by omega
  rw [BitVec.getLsbD_extractLsb', BitVec.getLsbD_extractLsb', Nat.zero_add, BitVec.getLsbD_setWidth, decide_eq_true this,
    Bool.true_and]

theorem low_word (v : Dword) : (v.setWidth 16).setWidth 32 = v &&& 0xFFFF := by
  apply BitVec.eq_of_toNat_eq
  rw [BitVec.toNat_and, BitVec.toNat_setWidth, BitVec.toNat_setWidth,
    show (0xFFFF : Dword).toNat = 2 ^ 16 - 1 from rfl, Nat.and_two_pow_sub_one_eq_mod]
  omega

theorem low_two (w : Dword) : ((w.extractLsb' 0 2).setWidth 16).setWidth 32 = w &&& 3 := by
  apply BitVec.eq_of_toNat_eq
  rw [BitVec.toNat_and, BitVec.toNat_setWidth, BitVec.toNat_setWidth, BitVec.extractLsb'_toNat, Nat.shiftRight_zero,
    show (3 : Dword).toNat = 2 ^ 2 - 1 from rfl, Nat.and_two_pow_sub_one_eq_mod]
  omega

theorem selValue_withRpl (v w : Dword) :
    selValue (withRpl (v.setWidth 16) (w.extractLsb' 0 2)) = (v &&& 0xFFFC) ||| (w &&& 3) := by
  unfold selValue withRpl
  rw [BitVec.setWidth_or, low_two, BitVec.setWidth_and, low_word, BitVec.and_assoc]
  rfl

theorem arpl_cases {s s1 s2 s3 : State} {rm : RM} {reg : Reg} {l : Loc} {v : Dword} (hs : s.Inv) (hm : s.protectedMode = true)
    (hl : resolve rm s = .ok l s1) (hr : readLoc .b16 l s1 = .ok v s2) :
    (v.extractLsb' 0 2 < (s.reg .b16 reg).extractLsb' 0 2 →
      ∀ x : Dword, x = (v &&& 0xFFFC) ||| (s.reg .b16 reg &&& 3) → writeLoc .b16 l x s2 = .ok () s3 →
        Puts (.arpl reg rm) s s2 l .b16 x fun _ => { s.eflags with zf := true }) ∧
    (¬v.extractLsb' 0 2 < (s.reg .b16 reg).extractLsb' 0 2 →
      Gives (.arpl reg rm) s s.regs (fun _ => { s.eflags with zf := false }) s) := by
  have q := (quiet_resolve hl).trans (quiet_readLoc hr)
  rw [← rpl_low, ← rpl_low]
  refine ⟨fun hlt x hx hw => ?_, fun hlt => ?_⟩
  · rw [← selValue_withRpl, ← rpl_low] at hx
    subst hx
    refine puts_of_write (t := s3.setFlags { s3.eflags with zf := true }) rfl hs
      ((run_bind_ok (checkProtected_ok hm)).trans ((run_bind_ok hl).trans ((run_bind_ok hr).trans
        (Eq.trans (congrFun (if_pos hlt) s2) ((run_bind_ok hw).trans rfl))))) q hw rfl rfl rfl ?_
    rw [writeLoc_flags hw, q.eflags]
    rfl
  · refine gives_of_quiet (t := s2.setFlags { s2.eflags with zf := false }) rfl hs
      ((run_bind_ok (checkProtected_ok hm)).trans ((run_bind_ok hl).trans ((run_bind_ok hr).trans
        (Eq.trans (congrFun (if_neg hlt) s2) rfl)))) q rfl rfl q.regs ?_
    show ({ s2.eflags with zf := false, rf := false } : Eflags) = _
    rw [q.eflags]

/-! The probes. -/

theorem probe_ok {s n : State} (hp : s.Plain) (h : Noted s n) (sel : Word) :
    ∃ t, probe sel n = .ok (if (!isNull sel && s.inTable sel) then some (s.descriptorIn (s.descriptorAt sel)) else none) t ∧
      Noted s t := by
  unfold probe
  rw [run_bind_ok (run_get n), h.inTable, h.descriptorAt]
  cases h0 : isNull sel
  · cases hin : s.inTable sel
    · exact ⟨n, rfl, h⟩
    · obtain ⟨t, ht, nt⟩ := readDescriptorAt_noted hp h (s.descriptorAt sel)
      exact ⟨t, (run_bind_ok ht).trans rfl, nt⟩
  · exact ⟨n, rfl, h⟩

section
variable {i : Instr} {s s1 : State} {rm : RM} {v : Dword} {ok : State → Word → Descriptor → Bool} {use : Descriptor → M Unit}
  {g : Regs} {d : Descriptor} {named good : Bool}

/-- A probe that has only ZF left to write. -/
theorem zf_gives {m : M Unit} {t : State} {b : Bool} (hi : exec i s = complete m s)
    (hrun : m s = setZf b { t with regs := g }) (h : Noted s t) :
    Gives i s g (fun _ => { s.eflags with zf := b }) s := by
  refine gives_of (t := { t with regs := g, eflags := { t.eflags with zf := b } }) hi (hrun.trans rfl) rfl ?_ ?_
    fun p => .inl ?_
  · rw [← h.quiet.eflags]
  · rw [h]; rfl
  · rw [h]; rfl

/-- What a probe does with the selector it has read. -/
theorem examine_gives (hm : s.protectedMode = true) (hp : s.Plain)
    (hi : exec i s = complete (examine rm ok use) s) (hr : readRm .b16 rm s = .ok v s1)
    (hn : named = (!isNull (v.setWidth 16) && s.inTable (v.setWidth 16)))
    (hd : d = s.descriptorIn (s.descriptorAt (v.setWidth 16)))
    (hok : ∀ t, Noted s t → ok t (v.setWidth 16) d = good)
    (huse : ∀ t, Noted s t → use d t = .ok () { t with regs := g }) :
    Gives i s (if named && good then g else s.regs) (fun _ => { s.eflags with zf := named && good }) s := by
  have n := noted_readRm hp hr
  obtain ⟨t, ht, nt⟩ := probe_ok hp n (v.setWidth 16)
  rw [← hn, ← hd] at ht
  have hsame : setZf false t = setZf false { t with regs := s.regs } := by rw [← nt.quiet.regs]
  cases named
  · have hrun : examine rm ok use s = setZf false t := by
      unfold examine
      rw [run_bind_ok (checkProtected_ok hm), run_bind_ok hr]
      exact (run_bind_ok ht).trans rfl
    exact zf_gives hi (hrun.trans hsame) nt
  · have hrun : examine rm ok use s =
        (if ok t (v.setWidth 16) d then (use d >>= fun _ => setZf true) else setZf false) t := by
      unfold examine
      rw [run_bind_ok (checkProtected_ok hm), run_bind_ok hr]
      exact (run_bind_ok ht).trans rfl
    rw [hok t nt] at hrun
    cases good
    · exact zf_gives hi (hrun.trans hsame) nt
    · exact zf_gives hi (hrun.trans (run_bind_ok (huse t nt))) nt

end

/-- Settles O60. -/
theorem selectorProbes : Obligations.SelectorProbes := by
  unfold Obligations.SelectorProbes
  intro s s1 s2 s3 rm reg l v sel d named system4 usable hs hm
  refine ⟨fun hl hr => arpl_cases hs hm hl hr, ?_⟩
  rintro hp hr rfl hn hd rfl hu
  have huse : ∀ t, Noted s t → (d.isConforming || t.mayUse (v.setWidth 16) d) = usable := fun t nt => by
    unfold State.mayUse
    rw [nt.currentCpl, hu]
  refine ⟨?verr, ?verw, ?lar, ?lsl⟩
  case verr =>
    have key := examine_gives (i := .verr rm) (ok := State.verrOk) (use := fun _ => pure ()) (g := s.regs)
      (good := (d.isData || d.isReadableCode) && usable) hm hp rfl hr hn hd
      (fun t nt => by unfold State.verrOk; rw [huse t nt]) fun t nt => by rw [← nt.quiet.regs]; rfl
    rwa [ite_self, ← Bool.and_assoc] at key
  case verw =>
    have hconf : d.isWritableData = true → d.isConforming = false := by
      unfold Descriptor.isWritableData Descriptor.isData Descriptor.isConforming Descriptor.isCode
      cases d.type.getLsbD 3 <;> simp
    have key := examine_gives (i := .verw rm) (ok := State.verwOk) (use := fun _ => pure ()) (g := s.regs)
      (good := d.isWritableData && usable) hm hp rfl hr hn hd
      (fun t nt => by
        unfold State.verwOk
        rw [← huse t nt]
        cases hw : d.isWritableData
        · rfl
        · rw [hconf hw]; rfl) fun t nt => by rw [← nt.quiet.regs]; rfl
    rwa [ite_self, ← Bool.and_assoc] at key
  case lar =>
    rintro ok rfl
    have key := examine_gives (i := .lar reg rm) (ok := State.larOk)
      (use := fun d => writeReg s.osz reg d.accessRights) (g := s.regs.write s.osz reg (d.hi &&& 0x00F0FF00))
      (good := d.larType && usable) hm hp rfl hr hn hd
      (fun t nt => by unfold State.larOk; rw [huse t nt]) fun t nt => by rw [← nt.quiet.regs]; rfl
    have htype : d.larType = (d.isSegment || (d.isSystem 1 || d.isSystem 2 || d.isSystem 3 || d.isSystem 9 || d.isSystem 11) ||
        d.isSystem 4 || d.isSystem 5 || d.isSystem 12) := by unfold Descriptor.larType; ac_rfl
    rwa [← Bool.and_assoc, htype] at key
  case lsl =>
    rintro ok rfl
    have key := examine_gives (i := .lsl reg rm) (ok := State.lslOk)
      (use := fun d => writeReg s.osz reg d.limit) (g := s.regs.write s.osz reg d.limit)
      (good := d.lslType && usable) hm hp rfl hr hn hd
      (fun t nt => by unfold State.lslOk; rw [huse t nt]) fun t nt => by rw [← nt.quiet.regs]; rfl
    have htype : d.lslType =
        (d.isSegment || (d.isSystem 1 || d.isSystem 2 || d.isSystem 3 || d.isSystem 9 || d.isSystem 11)) := by
      unfold Descriptor.lslType; ac_rfl
    rwa [← Bool.and_assoc, htype] at key

end Sys2Proof.Machine
end


section
/-! Words of the encoding tables, decoded. -/

namespace Sys2Proof.Machine

/-- Settles O5: each word is decoded by evaluation. -/
theorem decodeSamples : Obligations.DecodeSamples :=
  ⟨rfl, rfl, rfl, rfl, rfl, rfl, rfl, rfl, rfl⟩

end Sys2Proof.Machine

end


section
/-! The decoder reads what the encoder writes (30_encoding.md). `Reads p bs a` says that a reader takes the bytes `bs` and
gives `a`, whatever follows. Each reader of the decoder has a lemma for the bytes that the encoder writes for it, and an
instruction is then read by the readers of its row: `reads_encode` takes the rows by the shape of what follows the
opcode. -/

namespace Sys2Proof

/-- The reader `p` takes the bytes `bs` and gives `a`, whatever bytes follow. -/
def Reads {α : Type} (p : Parser α) (bs : List Byte) (a : α) : Prop := ∀ rest, p (bs ++ rest) = .ok a rest

namespace Reads

variable {α β : Type}

theorem pure (a : α) : Reads (Pure.pure a) [] a := fun _ => rfl

theorem pure_of_eq {a b : α} (h : a = b) : Reads (Pure.pure a) [] b := h ▸ pure a

theorem bind {p : Parser α} {f : α → Parser β} {bs cs : List Byte} {a : α} {b : β} (hp : Reads p bs a)
    (hf : Reads (f a) cs b) : Reads (p >>= f) (bs ++ cs) b := by
  intro rest
  have h := hp (cs ++ rest)
  rw [List.append_assoc]
  show EStateM.bind p f _ = _
  unfold EStateM.bind
  rw [h]
  exact hf rest

/-- A reader with one more step that takes nothing. -/
theorem map {p : Parser α} {f : α → Parser β} {bs : List Byte} {a : α} {b : β} (hp : Reads p bs a)
    (hf : Reads (f a) [] b) : Reads (p >>= f) bs b := by
  simpa using hp.bind hf

theorem nextByte (b : Byte) : Reads nextByte [b] b := fun _ => rfl

/-- A byte, and then what `f` reads. -/
theorem byte {f : Byte → Parser β} {b : Byte} {cs : List Byte} {x : β} (hf : Reads (f b) cs x) :
    Reads (Sys2Proof.nextByte >>= f) (b :: cs) x :=
  (nextByte b).bind hf

end Reads

/-! Words and the fields of the mod r/m byte. -/

theorem word_halves (v : Word) : (v.extractLsb' 8 8 ++ v.extractLsb' 0 8 : Word) = v := by
  ext i hi
  simp only [BitVec.getElem_append, BitVec.getElem_extractLsb']
  split <;> simp_all [BitVec.getLsbD_eq_getElem]

theorem dword_halves (v : Dword) : (v.extractLsb' 16 16 ++ v.extractLsb' 0 16 : Dword) = v := by
  ext i hi
  simp only [BitVec.getElem_append, BitVec.getElem_extractLsb']
  split <;> simp_all [BitVec.getLsbD_eq_getElem]

theorem reads_nextWord (v : Word) : Reads nextWord (encodeWord v) v := by
  intro rest
  exact congrArg (EStateM.Result.ok · rest) (word_halves v)

/-- The bytes of a dword are those of its low and its high word. -/
theorem encodeDword_eq (v : Dword) :
    encodeDword v = encodeWord (v.extractLsb' 0 16) ++ encodeWord (v.extractLsb' 16 16) := by
  have hlow : ∀ k, k + 8 ≤ 16 → (v.extractLsb' 0 16).extractLsb' k 8 = v.extractLsb' k 8 := by
    intro k hk
    ext i hi
    simp [show k + i < 16 by omega]
  have hhigh : ∀ k, k + 8 ≤ 16 → (v.extractLsb' 16 16).extractLsb' k 8 = v.extractLsb' (16 + k) 8 := by
    intro k hk
    ext i hi
    simp [show k + i < 16 by omega, Nat.add_assoc]
  simp [encodeDword, encodeWord, hlow, hhigh]

theorem reads_nextDword (v : Dword) : Reads nextDword (encodeDword v) v := by
  rw [encodeDword_eq]
  have hend : Reads (pure (v.extractLsb' 16 16 ++ v.extractLsb' 0 16 : Dword)) [] v :=
    fun rest => congrArg (EStateM.Result.ok · rest) (dword_halves v)
  exact (reads_nextWord _).bind ((reads_nextWord _).map hend)

/-- The bits of three fields in a byte. -/
theorem fieldsByte_bit (a : BitVec 2) (b c : BitVec 3) (i : Nat) :
    (fieldsByte a b c).getLsbD i =
      if i < 3 then c.getLsbD i else if i < 6 then b.getLsbD (i - 3) else a.getLsbD (i - 6) := by
  have hlow := BitVec.getLsbD_append (x := b) (y := c) (i := i)
  have hall := BitVec.getLsbD_append (x := a) (y := (b ++ c : BitVec 6)) (i := i)
  refine hall.trans ?_
  by_cases h3 : i < 3
  · rw [if_pos (by omega), if_pos h3]
    exact hlow.trans (if_pos h3)
  · by_cases h6 : i < 6
    · rw [if_pos h6, if_neg h3, if_pos h6]
      exact hlow.trans (if_neg h3)
    · rw [if_neg h6, if_neg h3, if_neg h6]

theorem fieldsByte_high (a : BitVec 2) (b c : BitVec 3) : (fieldsByte a b c).extractLsb' 6 2 = a := by
  ext i hi
  rw [BitVec.getElem_extractLsb', fieldsByte_bit, if_neg (by omega), if_neg (by omega), Nat.add_sub_cancel_left,
    BitVec.getLsbD_eq_getElem]

theorem fieldsByte_mid (a : BitVec 2) (b c : BitVec 3) : (fieldsByte a b c).extractLsb' 3 3 = b := by
  ext i hi
  rw [BitVec.getElem_extractLsb', fieldsByte_bit, if_neg (by omega), if_pos (by omega), Nat.add_sub_cancel_left,
    BitVec.getLsbD_eq_getElem]

theorem fieldsByte_low (a : BitVec 2) (b c : BitVec 3) : (fieldsByte a b c).extractLsb' 0 3 = c := by
  ext i hi
  rw [BitVec.getElem_extractLsb', fieldsByte_bit, if_pos (by omega), Nat.zero_add, BitVec.getLsbD_eq_getElem]

@[simp] theorem Reg.ofBits_toBits (r : Reg) : Reg.ofBits r.toBits = r := by cases r <;> rfl

@[simp] theorem Base16.ofBits_toBits (b : Base16) : Base16.ofBits b.toBits = b := by cases b <;> rfl

@[simp] theorem Scale.ofBits_toBits (k : Scale) : Scale.ofBits k.toBits = k := by cases k <;> rfl

theorem SReg.ofBits_toBits (sr : SReg) : SReg.ofBits sr.toBits = some sr := by cases sr <;> rfl

theorem indexOfBits_indexToBits {index : Option Reg} (h : indexOk index = true) :
    indexOfBits (indexToBits index) = index := by
  cases index with
  | none => rfl
  | some r =>
    cases r
    case esp => cases h
    all_goals rfl

/-! The r/m operand. -/

theorem Disp16.md_ne (d : Disp16) : d.md ≠ 3 := by cases d <;> simp [Disp16.md]

theorem Disp32.md_ne (d : Disp32) : d.md ≠ 3 := by cases d <;> simp [Disp32.md]

theorem reads_disp16 (d : Disp16) : Reads (disp16 d.md) d.encode d := by
  cases d with
  | none => exact .pure _
  | d8 v => exact .byte (.pure _)
  | d16 v => exact (reads_nextWord v).map (.pure _)

theorem reads_disp32 (d : Disp32) : Reads (disp32 d.md) d.encode d := by
  cases d with
  | none => exact .pure _
  | d8 v => exact .byte (.pure _)
  | d32 v => exact (reads_nextDword v).map (.pure _)

/-- The part of an operand that follows the mod r/m byte. -/
theorem reads_memOp16 {m : MemOp} {c : Ctx} (hw : m.wf c = true) (hc : c.asz32 = false) (reg : BitVec 3) :
    ∃ md rm tail, m.encode reg = fieldsByte md reg rm :: tail ∧ md ≠ 3 ∧ Reads (memOp16 md rm) tail m := by
  cases m with
  | a16 base disp =>
    have hne : ¬(disp.md = 0 ∧ base.toBits = 6) := by
      rintro ⟨hmd, hrm⟩
      cases disp <;> cases base <;> simp_all [MemOp.wf, Disp16.md, Base16.toBits]
    refine ⟨_, _, _, rfl, disp.md_ne, ?_⟩
    rw [memOp16, if_neg hne]
    exact (reads_disp16 disp).map (by rw [Base16.ofBits_toBits]; exact .pure _)
  | abs16 d => exact ⟨_, _, _, rfl, by decide, (reads_nextWord d).map (.pure _)⟩
  | a32 | abs32 | sib | sibAbs => simp [MemOp.wf, hc] at hw

theorem reads_memOp32 {m : MemOp} {c : Ctx} (hw : m.wf c = true) (hc : c.asz32 = true) (reg : BitVec 3) :
    ∃ md rm tail, m.encode reg = fieldsByte md reg rm :: tail ∧ md ≠ 3 ∧ Reads (memOp32 md rm) tail m := by
  cases m with
  | a16 | abs16 => simp [MemOp.wf, hc] at hw
  | a32 base disp =>
    have hsib : base.toBits ≠ 4 := by cases base <;> simp_all [MemOp.wf, Reg.toBits]
    have habs : ¬(disp.md = 0 ∧ base.toBits = 5) := by
      rintro ⟨hmd, hrm⟩
      cases disp <;> cases base <;> simp_all [MemOp.wf, Disp32.md, Reg.toBits]
    refine ⟨_, _, _, rfl, disp.md_ne, ?_⟩
    rw [memOp32, if_neg hsib, if_neg habs]
    exact (reads_disp32 disp).map (by rw [Reg.ofBits_toBits]; exact .pure _)
  | abs32 d => exact ⟨_, _, _, rfl, by decide, (reads_nextDword d).map (.pure _)⟩
  | sib base scale index disp =>
    have hindex : indexOk index = true := by simp_all [MemOp.wf]
    have habs : ¬(disp.md = 0 ∧ base.toBits = 5) := by
      rintro ⟨hmd, hrm⟩
      cases disp <;> cases base <;> simp_all [MemOp.wf, Disp32.md, Reg.toBits]
    refine ⟨_, _, _, rfl, disp.md_ne, .byte ?_⟩
    simp only [fieldsByte_high, fieldsByte_mid, fieldsByte_low, if_neg habs, Scale.ofBits_toBits,
      indexOfBits_indexToBits hindex, Reg.ofBits_toBits]
    exact (reads_disp32 disp).map (.pure _)
  | sibAbs scale index d =>
    have hindex : indexOk index = true := by simp_all [MemOp.wf]
    refine ⟨_, _, _, rfl, by decide, .byte ?_⟩
    simp only [fieldsByte_high, fieldsByte_mid, fieldsByte_low, Scale.ofBits_toBits, indexOfBits_indexToBits hindex]
    exact (reads_nextDword d).map (.pure _)

/-- The encoding of an r/m operand begins with a byte that holds the reg field. -/
theorem RM.encode_head (reg : BitVec 3) (rm : RM) : ∃ b tail, rm.encode reg = b :: tail ∧ b.extractLsb' 3 3 = reg := by
  cases rm with
  | reg r => exact ⟨_, _, rfl, fieldsByte_mid ..⟩
  | mem m => cases m <;> exact ⟨_, _, rfl, fieldsByte_mid ..⟩

theorem reads_modRM {c : Ctx} {rm : RM} (hw : rm.wf c = true) (reg : BitVec 3) :
    Reads (modRM c) (rm.encode reg) (reg, rm) := by
  cases rm with
  | reg r =>
    refine .byte ?_
    simp only [fieldsByte_high, fieldsByte_mid, fieldsByte_low, if_true, Reg.ofBits_toBits]
    exact .pure _
  | mem m =>
    have hm : m.wf c = true := hw
    show Reads _ (m.encode reg) _
    by_cases hc : c.asz32 = true
    · obtain ⟨md, f, tail, henc, hmd, hread⟩ := reads_memOp32 hm hc reg
      rw [henc]
      refine .byte ?_
      simp only [fieldsByte_high, fieldsByte_mid, fieldsByte_low, if_neg hmd, if_pos hc]
      exact hread.map (.pure _)
    · obtain ⟨md, f, tail, henc, hmd, hread⟩ := reads_memOp16 hm (by simpa using hc) reg
      rw [henc]
      refine .byte ?_
      simp only [fieldsByte_high, fieldsByte_mid, fieldsByte_low, if_neg hmd, if_neg hc]
      exact hread.map (.pure _)

theorem reads_extRM {c : Ctx} {rm : RM} {known : BitVec 3 → Bool} {reg : BitVec 3} (hw : rm.wf c = true)
    (hk : known reg = true) : Reads (extRM c known) (rm.encode reg) (reg, rm) := by
  obtain ⟨b, tail, henc, hb⟩ := rm.encode_head reg
  have h := reads_modRM hw reg
  rw [henc] at h ⊢
  intro rest
  refine Eq.trans ?_ (h rest)
  show (if known (b.extractLsb' 3 3) then modRM c else rejectWith .invalid) _ = _
  exact congrFun (if_pos (by rw [hb, hk])) _

/-! The readers of the rows. -/

section Rows

variable {c : Ctx} {rm : RM} {m : MemOp} {imm : Imm} {off : Off}

theorem reads_regRm {k : Reg → RM → Instr} (hw : rm.wf c = true) (r : Reg) :
    Reads (regRm c k) (rm.encode r.toBits) (k r rm) :=
  (reads_modRM hw r.toBits).map (.pure_of_eq (congrArg (k · rm) r.ofBits_toBits))

theorem reads_regMem {k : Reg → MemOp → Instr} (hw : m.wf c = true) (r : Reg) :
    Reads (regMem c k) (m.encode r.toBits) (k r m) :=
  (reads_modRM (rm := .mem m) hw r.toBits).map (.pure_of_eq (congrArg (k · m) r.ofBits_toBits))

theorem reads_regRmByte {k : Reg → RM → Byte → Instr} (hw : rm.wf c = true) (r : Reg) (v : Byte) :
    Reads (regRmByte c k) (rm.encode r.toBits ++ [v]) (k r rm v) :=
  (reads_modRM hw r.toBits).bind (.byte (.pure_of_eq (congrArg (k · rm v) r.ofBits_toBits)))

theorem reads_byteImm (v : Byte) : Reads byteImm [v] (.i8 v) := .byte (.pure _)

theorem reads_immOf {w : Width} (h : imm.wf c w = true) : Reads (immOf c w) imm.encode imm := by
  cases w <;> cases imm <;> simp [Imm.wf, Imm.fullWf] at h
  case byte.i8 v => exact reads_byteImm v
  case full.i16 v =>
    show Reads (fullImm c) _ _
    simp only [fullImm, h, Bool.false_eq_true, if_false]
    exact (reads_nextWord v).map (.pure _)
  case full.i32 v =>
    show Reads (fullImm c) _ _
    simp only [fullImm, h, if_true]
    exact (reads_nextDword v).map (.pure _)

theorem reads_offOf {is32 : Bool} (h : off.wf is32 = true) : Reads (offOf is32) off.encode off := by
  cases is32 <;> cases off <;> simp [Off.wf] at h
  case false.o16 v => exact (reads_nextWord v).map (.pure _)
  case true.o32 v => exact (reads_nextDword v).map (.pure _)

theorem reads_farPtr {k : Off → Word → Instr} (h : off.wf c.osz32 = true) (sel : Word) :
    Reads (farPtr c k) (off.encode ++ encodeWord sel) (k off sel) :=
  (reads_offOf h).bind ((reads_nextWord sel).map (.pure _))

/-- A string opcode after a repeat byte is the repeated row. -/
theorem reads_repPrefix {r : Rep} {alone : Instr} {b : Byte} (h : isStringOp b = true) :
    Reads (repPrefix r alone) [b] (stringInstr (some r) b) := by
  intro rest
  show (if isStringOp b = true then _ else _ : Parser Instr) (b :: rest) = _
  rw [if_pos h]
  rfl

/-- A string opcode without a repeat byte before it. -/
theorem reads_string (h : c.rep = none) (op : Byte) : Reads (pure (stringInstr c.rep op)) [] (stringInstr none op) := by
  rw [h]
  exact .pure _

/-! An instruction begins with one opcode byte, or with 0F and one more. -/

theorem reads_one {op : Byte} {tail : List Byte} {i : Instr} (h : Reads (decodeOneByte c op) tail i)
    (hop : op ≠ 0x0F := by decide) : Reads (decodeInstr c) (op :: tail) i :=
  .byte (by rw [if_neg hop]; exact h)

theorem reads_two {op : Byte} {tail : List Byte} {i : Instr} (h : Reads (decodeTwoByteRest c op) tail i)
    (h8 : op.toNat / 16 ≠ 8 := by decide) (h9 : op.toNat / 16 ≠ 9 := by decide) :
    Reads (decodeInstr c) (0x0F :: op :: tail) i := by
  refine .byte (.byte ?_)
  split
  · contradiction
  · contradiction
  · exact h

theorem reads_near (h : off.wf c.osz32 = true) {op : Byte} (hop : op.toNat / 16 = 8 := by decide) :
    Reads (decodeInstr c) (0x0F :: op :: off.encode) (jccNear (op.extractLsb' 0 4) off) := by
  refine .byte (.byte ?_)
  rw [hop]
  exact (reads_offOf h).map (.pure _)

theorem reads_setcc (h : rm.wf c = true) {op : Byte} (hop : op.toNat / 16 = 9 := by decide) :
    Reads (decodeInstr c) (0x0F :: op :: rm.encode 0) (setcc (op.extractLsb' 0 4) rm) := by
  refine .byte (.byte ?_)
  rw [hop]
  exact (reads_modRM h 0).map (.pure _)

/-- The forms with an r/m operand and an immediate of the group 80 to 83, the one with a sign-extended byte among
them. -/
theorem reads_aluRmImm {w : Width} {ooo : BitVec 3} (hw : rm.wf c = true) (hi : imm.sWf c w = true)
    (h8 : ∀ v, aluRmImm8 ooo rm v = aluRmImm ooo .full rm (.i8 v)) :
    Reads (decodeInstr c) ((0x80 ||| imm.sBit w ||| w.bit) :: (rm.encode ooo ++ imm.encode)) (aluRmImm ooo w rm imm) := by
  cases w <;> cases imm <;> simp only [Imm.sBit, Width.bit]
  case byte.i8 v => exact reads_one ((reads_modRM hw ooo).bind ((reads_byteImm v).map (.pure _)))
  case full.i8 v => exact reads_one ((reads_modRM hw ooo).bind (.byte (.pure_of_eq (h8 v))))
  case full.i16 v => exact reads_one ((reads_modRM hw ooo).bind ((reads_immOf (w := .full) hi).map (.pure _)))
  case full.i32 v => exact reads_one ((reads_modRM hw ooo).bind ((reads_immOf (w := .full) hi).map (.pure _)))
  case byte.i16 | byte.i32 => cases hi

/-- The forms of that group with an immediate of the operand's own size. -/
theorem reads_aluRmImm_full {w : Width} (ooo : BitVec 3) (hw : rm.wf c = true) (hi : imm.wf c w = true) :
    Reads (decodeInstr c) ((0x80 ||| w.bit) :: (rm.encode ooo ++ imm.encode)) (aluRmImm ooo w rm imm) := by
  cases w
  · exact reads_one ((reads_modRM hw ooo).bind ((reads_immOf (w := .byte) hi).map (.pure _)))
  · exact reads_one ((reads_modRM hw ooo).bind ((reads_immOf (w := .full) hi).map (.pure _)))

theorem reads_pushImm (hi : imm.sWf c .full = true) : Reads (decodeInstr c) (encode (.pushImm imm)) (.pushImm imm) := by
  rw [encode]
  cases imm <;> simp only [Imm.sBit]
  case i8 v => exact reads_one ((reads_byteImm v).map (.pure _))
  case i16 v => exact reads_one ((reads_immOf (w := .full) hi).map (.pure _))
  case i32 v => exact reads_one ((reads_immOf (w := .full) hi).map (.pure _))

theorem reads_imulImm (r : Reg) (hw : rm.wf c = true) (hi : imm.sWf c .full = true) :
    Reads (decodeInstr c) (encode (.imulImm r rm imm)) (.imulImm r rm imm) := by
  have hend : Reads (pure (Instr.imulImm (Reg.ofBits r.toBits) rm imm)) [] (Instr.imulImm r rm imm) :=
    .pure_of_eq (congrArg (Instr.imulImm · rm imm) r.ofBits_toBits)
  rw [encode]
  cases imm <;> simp only [Imm.sBit]
  case i8 v => exact reads_one ((reads_modRM hw r.toBits).bind ((reads_byteImm v).map hend))
  case i16 v => exact reads_one ((reads_modRM hw r.toBits).bind ((reads_immOf (w := .full) hi).map hend))
  case i32 v => exact reads_one ((reads_modRM hw r.toBits).bind ((reads_immOf (w := .full) hi).map hend))

/-- An ESC opcode holds three bits of the coprocessor's opcode. -/
theorem reads_esc (ttt lll : BitVec 3) (hw : rm.wf c = true) :
    Reads (decodeInstr c) (encode (.esc ttt lll rm)) (.esc ttt lll rm) := by
  have hall : ∀ b : BitVec 3, b = 0 ∨ b = 1 ∨ b = 2 ∨ b = 3 ∨ b = 4 ∨ b = 5 ∨ b = 6 ∨ b = 7 := by decide
  rcases hall ttt with rfl | rfl | rfl | rfl | rfl | rfl | rfl | rfl <;>
    exact reads_one ((reads_modRM hw lll).map (.pure _))

theorem reads_movRmSreg (sr : SReg) (hw : rm.wf c = true) :
    Reads (decodeInstr c) (encode (.movRmSreg sr rm)) (.movRmSreg sr rm) := by
  cases sr <;> exact reads_one ((reads_modRM hw _).map (.pure _))

theorem reads_movSregRm (sr : SReg) (hw : rm.wf c = true) (hcs : sr ≠ .cs) :
    Reads (decodeInstr c) (encode (.movSregRm sr rm)) (.movSregRm sr rm) := by
  cases sr
  case cs => contradiction
  all_goals exact reads_one ((reads_modRM hw _).map (.pure _))

/-- Reading the encoding of an instruction, but for the two repeat bytes, gives it back. -/
theorem reads_encode {i : Instr} (hw : i.wf c = true) (hne : i ≠ .repneRep) (hne3 : i ≠ .repeRep) :
    Reads (decodeInstr c) (encode i) i := by
  cases i
  case addrsize | lock | opsize | segCs | segDs | segEs | segFs | segGs | segSs | pushEs | pushCs | pushSs |
      pushDs | pusha | popEs | popSs | popDs | popa | clc | cld | cli | cmc | lahf | popf | pushf | sahf | stc |
      std | sti | aaa | aas | daa | das | cbw | cwd | xlat | ret | retf | leave | int3 | into | iret | hlt | nop |
      wait =>
    exact reads_one (.pure _)
  case pushFs | pushGs | popFs | popGs | clts =>
    exact reads_two (.pure _)
  case repneRep =>
    exact absurd rfl hne
  case repeRep =>
    exact absurd rfl hne3
  case pushReg r | popReg r | incReg r | decReg r =>
    cases r <;> exact reads_one (.pure _)
  case xchgAccReg r =>
    cases r
    case eax => cases hw
    all_goals exact reads_one (.pure _)
  case movRmReg w r rm | movRegRm w r rm | xchgRmReg w r rm | testRmReg w r rm =>
    cases w <;> exact reads_one (reads_regRm hw r)
  case addRegRm d w r rm | orRegRm d w r rm | adcRegRm d w r rm | sbbRegRm d w r rm | andRegRm d w r rm |
      subRegRm d w r rm | xorRegRm d w r rm | cmpRegRm d w r rm =>
    cases d <;> cases w <;> exact reads_one (reads_regRm hw r)
  case arpl r rm =>
    exact reads_one (reads_regRm hw r)
  case movsx w r rm | movzx w r rm =>
    cases w <;> exact reads_two (reads_regRm hw r)
  case imulReg r rm | shldCl r rm | shrdCl r rm | bsf r rm | bsr r rm | btReg r rm | btcReg r rm | btrReg r rm |
      btsReg r rm | ibts r rm | xbts r rm | lar r rm | lsl r rm =>
    exact reads_two (reads_regRm hw r)
  case shldImm r rm v | shrdImm r rm v =>
    exact reads_two (reads_regRmByte hw r v)
  case lea r m | lds r m | les r m | bound r m =>
    exact reads_one (reads_regMem hw r)
  case lfs r m | lgs r m | lss r m =>
    exact reads_two (reads_regMem hw r)
  case movRmSreg sr rm =>
    exact reads_movRmSreg sr hw
  case movSregRm sr rm =>
    obtain ⟨hrm, hcs⟩ := Bool.and_eq_true_iff.1 hw
    exact reads_movSregRm sr hrm (by simpa using hcs)
  case esc ttt lll rm =>
    exact reads_esc ttt lll hw
  case pushRm rm | popRm rm | callRm rm | jmpRm rm =>
    exact reads_one ((reads_extRM hw rfl).map (.pure _))
  case callMem m | jmpMem m =>
    exact reads_one ((reads_extRM (rm := .mem m) hw rfl).map (.pure _))
  case incRm w rm | decRm w rm =>
    cases w <;> exact reads_one ((reads_extRM hw rfl).map (.pure _))
  case notRm w rm | neg w rm | mul w rm | imulAcc w rm | div w rm | idiv w rm | rolBy1 w rm | rorBy1 w rm |
      rclBy1 w rm | rcrBy1 w rm | shlBy1 w rm | shrBy1 w rm | sarBy1 w rm | rolByCl w rm | rorByCl w rm |
      rclByCl w rm | rcrByCl w rm | shlByCl w rm | shrByCl w rm | sarByCl w rm =>
    cases w <;> exact reads_one ((reads_modRM hw _).map (.pure _))
  case sldt rm | str rm | lldt rm | ltr rm | verr rm | verw rm | smsw rm | lmsw rm =>
    exact reads_two ((reads_extRM hw rfl).map (.pure _))
  case sgdt m | sidt m | lgdt m | lidt m =>
    exact reads_two ((reads_extRM (rm := .mem m) hw rfl).map (.pure _))
  case seto rm | setno rm | setb rm | setnb rm | sete rm | setne rm | setbe rm | setnbe rm | sets rm | setns rm |
      setp rm | setnp rm | setl rm | setnl rm | setle rm | setnle rm =>
    exact reads_setcc hw
  case rolByImm w rm v | rorByImm w rm v | rclByImm w rm v | rcrByImm w rm v | shlByImm w rm v | shrByImm w rm v |
      sarByImm w rm v =>
    cases w <;> exact reads_one ((reads_modRM hw _).bind (.byte (.pure _)))
  case btImm rm v | btsImm rm v | btrImm rm v | btcImm rm v =>
    exact reads_two ((reads_extRM hw rfl).bind (.byte (.pure _)))
  case addRmImm w rm imm | adcRmImm w rm imm | subRmImm w rm imm | sbbRmImm w rm imm | cmpRmImm w rm imm =>
    obtain ⟨hrm, himm⟩ := Bool.and_eq_true_iff.1 hw
    exact reads_aluRmImm hrm himm fun _ => rfl
  case andRmImm w rm imm =>
    obtain ⟨hrm, himm⟩ := Bool.and_eq_true_iff.1 hw
    exact reads_aluRmImm_full 4 hrm himm
  case orRmImm w rm imm =>
    obtain ⟨hrm, himm⟩ := Bool.and_eq_true_iff.1 hw
    exact reads_aluRmImm_full 1 hrm himm
  case xorRmImm w rm imm =>
    obtain ⟨hrm, himm⟩ := Bool.and_eq_true_iff.1 hw
    exact reads_aluRmImm_full 6 hrm himm
  case andRmImm8 rm v | orRmImm8 rm v | xorRmImm8 rm v =>
    exact reads_one ((reads_modRM hw _).bind (.byte (.pure _)))
  case movRmImm w rm imm =>
    obtain ⟨hrm, himm⟩ := Bool.and_eq_true_iff.1 hw
    cases w <;> exact reads_one ((reads_extRM hrm rfl).bind ((reads_immOf himm).map (.pure _)))
  case testRmImm w rm imm =>
    obtain ⟨hrm, himm⟩ := Bool.and_eq_true_iff.1 hw
    cases w <;> exact reads_one ((reads_modRM hrm 0).bind ((reads_immOf himm).map (.pure _)))
  case addAccImm w imm | orAccImm w imm | adcAccImm w imm | sbbAccImm w imm | andAccImm w imm | subAccImm w imm |
      xorAccImm w imm | cmpAccImm w imm | testAccImm w imm =>
    have himm : imm.wf c w = true := hw
    cases w <;> exact reads_one ((reads_immOf himm).map (.pure _))
  case movRegImm w r imm =>
    have himm : imm.wf c w = true := hw
    cases w <;> cases r <;> exact reads_one ((reads_immOf himm).map (.pure _))
  case pushImm imm =>
    exact reads_pushImm hw
  case imulImm r rm imm =>
    obtain ⟨hrm, himm⟩ := Bool.and_eq_true_iff.1 hw
    exact reads_imulImm r hrm himm
  case inImm w v | outImm w v =>
    cases w <;> exact reads_one (.byte (.pure _))
  case inDx w | outDx w =>
    cases w <;> exact reads_one (.pure _)
  case aad v | aam v | intN v | jmpShort v | jcxz v | loop v | loopz v | loopnz v | joShort v | jnoShort v |
      jbShort v | jnbShort v | jeShort v | jneShort v | jbeShort v | jnbeShort v | jsShort v | jnsShort v |
      jpShort v | jnpShort v | jlShort v | jnlShort v | jleShort v | jnleShort v =>
    exact reads_one (.byte (.pure _))
  case retImm n | retfImm n =>
    exact reads_one ((reads_nextWord n).map (.pure _))
  case enter size level =>
    exact reads_one ((reads_nextWord size).bind (.byte (.pure _)))
  case movAccMem w off | movMemAcc w off =>
    cases w <;> exact reads_one ((reads_offOf hw).map (.pure _))
  case callRel off | jmpRel off =>
    exact reads_one ((reads_offOf hw).map (.pure _))
  case callPtr off sel | jmpPtr off sel =>
    exact reads_one (reads_farPtr hw sel)
  case joNear off | jnoNear off | jbNear off | jnbNear off | jeNear off | jneNear off | jbeNear off |
      jnbeNear off | jsNear off | jnsNear off | jpNear off | jnpNear off | jlNear off | jnlNear off |
      jleNear off | jnleNear off =>
    exact reads_near hw
  case movs w | cmps w | stos w | lods w | ins w | outs w | scas w =>
    cases w <;> exact reads_one (reads_string (by simpa [Instr.wf] using hw) _)
  case repeCmps w | repneCmps w | repeScas w | repneScas w | repInsF2 w | repInsF3 w | repLodsF2 w | repLodsF3 w |
      repMovsF2 w | repMovsF3 w | repOutsF2 w | repOutsF3 w | repStosF2 w | repStosF3 w =>
    cases w <;> exact reads_one (reads_repPrefix rfl)
  case movCr0Reg r | movCr2Reg r | movCr3Reg r | movRegCr0 r | movRegCr2 r | movRegCr3 r | movDr0Reg r |
      movDr1Reg r | movDr2Reg r | movDr3Reg r | movDr6Reg r | movDr7Reg r | movRegDr0 r | movRegDr1 r |
      movRegDr2 r | movRegDr3 r | movRegDr6 r | movRegDr7 r | movTr6Reg r | movTr7Reg r | movRegTr6 r |
      movRegTr7 r =>
    cases r <;> exact reads_two (.byte (.pure _))

end Rows

/-- A repeat byte before a byte that is no string opcode stands alone. -/
theorem repPrefix_alone (r : Rep) (alone : Instr) {b : Byte} (h : isStringOp b = false) (rest : List Byte) :
    repPrefix r alone (b :: rest) = .ok alone (b :: rest) := by
  show (if isStringOp b = true then _ else _ : Parser Instr) (b :: rest) = _
  rw [h]
  rfl

/-- What a reading of the instruction says of `decode`. -/
theorem decode_of_reads {c : Ctx} {i : Instr} {bs : List Byte} (h : Reads (decodeInstr c) bs i) (rest : List Byte) :
    decode c (bs ++ rest) = .instr i bs.length := by
  rw [decode, h rest]
  simp

/-- Settles O4. -/
theorem decodeOfEncode : Obligations.DecodeOfEncode := by
  intro c i rest hw
  refine ⟨fun hne hne3 => decode_of_reads (reads_encode hw hne hne3) rest, ?_⟩
  rintro (rfl | rfl) b hb
  · have h : decodeInstr c (0xF2 :: b :: rest) = .ok .repneRep (b :: rest) := repPrefix_alone .f2 .repneRep hb rest
    show decode c (0xF2 :: b :: rest) = _
    rw [decode, h]
    simp
  · have h : decodeInstr c (0xF3 :: b :: rest) = .ok .repeRep (b :: rest) := repPrefix_alone .f3 .repeRep hb rest
    show decode c (0xF3 :: b :: rest) = _
    rw [decode, h]
    simp

end Sys2Proof

end


section
/-! What comes between instructions: debug traps that pend, and the events of a boundary (60_exceptions.md R656, R730). -/

namespace Sys2Proof.Machine

/-! How data breakpoints come to pend. -/

/-- Two ranges overlap where a byte of one is a byte of the other. -/
theorem rangesOverlap_iff {a b : Dword} {n k : Nat} (hn : 1 ≤ n) (hk : 1 ≤ k) (hn' : n ≤ 4) (hk' : k ≤ 4) :
    rangesOverlap a n b k = true ↔ ∃ i j, i < n ∧ j < k ∧ a + BitVec.ofNat 32 i = b + BitVec.ofNat 32 j := by
  simp only [rangesOverlap, Bool.or_eq_true, decide_eq_true_eq]
  constructor
  · rintro (h | h)
    · exact ⟨(b - a).toNat, 0, h, hk, by bv_omega⟩
    · exact ⟨0, (a - b).toNat, hn, h, by bv_omega⟩
  · rintro ⟨i, j, hi, hj, he⟩
    rcases le_total j i with h | h
    · exact .inl (by bv_omega)
    · exact .inr (by bv_omega)

theorem drAddress_eq (s : State) {k : Nat} (hk : k < 4) : s.drAddress k = s.breakAddress k := by
  interval_cases k <;> rfl

theorem dr7Enabled_iff (s : State) (k : Nat) : dr7Enabled s.dr7 k = true ↔ s.BreakOn k := by
  simp [dr7Enabled, State.BreakOn]

/-- With no breakpoint enabled at all none is on. -/
theorem not_breakOn {s : State} (h : s.dr7 &&& 0xFF = 0) {k : Nat} (hk : k < 4) : ¬s.BreakOn k := by
  have hbit : ∀ i, i < 8 → s.dr7.getLsbD i = false := by
    intro i hi
    have hz := congrArg (·.getLsbD i) h
    have hmask : (255#32).getLsbD i = true := by interval_cases i <;> rfl
    simpa [BitVec.getLsbD_and, hmask, -BitVec.getLsbD_eq_getElem] using hz
  rintro (h1 | h1)
  · rw [hbit _ (by omega)] at h1; cases h1
  · rw [hbit _ (by omega)] at h1; cases h1

/-- The fields of DR7 that the spec defines say that breakpoint `k` matches as `Watches` has it. -/
theorem dataMatch_iff (s : State) {k n : Nat} {w : Bool} {l : Dword} (hk : k < 4) (h1 : 1 ≤ n) (h4 : n ≤ 4)
    (hrw : s.dr7.extractLsb' (16 + 4 * k) 2 ≠ 2) (hlen : s.dr7.extractLsb' (18 + 4 * k) 2 ≠ 2) :
    dataMatch s k w l n = true ↔ s.Watches k w l n := by
  have hall : ∀ b : BitVec 2, b ≠ 2 → b = 0 ∨ b = 1 ∨ b = 3 := by decide
  have hfour (x : Dword) : x &&& 4294967295#32 = x := BitVec.and_allOnes
  rw [State.Watches, ← dr7Enabled_iff, ← drAddress_eq s hk]
  unfold dataMatch dr7Rw dr7Len
  rcases hall _ hrw with e | e | e <;> rcases hall _ hlen with f | f | f <;>
    simp [e, f, rangesOverlap_iff, h1, h4, hfour]

/-- An access of `n` bytes at `l` has been noted on the way from `s` to `t`: the breakpoints that watch it pend. -/
structure Noticed (s t : State) (w : Bool) (l : Dword) (n : Nat) : Prop where
  trap : t.pendingDb.getLsbD 14 = s.pendingDb.getLsbD 14
  bits : ∀ k, k < 4 → s.dr7.extractLsb' (16 + 4 * k) 2 ≠ 2 → s.dr7.extractLsb' (18 + 4 * k) 2 ≠ 2 →
    (t.pendingDb.getLsbD k = true ↔ s.pendingDb.getLsbD k = true ∨ s.Watches k w l n)

theorem noteAccess_noticed (s : State) (w : Bool) (l : Dword) {n : Nat} (h1 : 1 ≤ n) (h4 : n ≤ 4) :
    ∃ t, noteAccess w l n s = .ok () t ∧ t = { s with pendingDb := t.pendingDb, draws := t.draws } ∧
      Noticed s t w l n := by
  unfold noteAccess
  split
  · next hoff =>
    refine ⟨s, rfl, rfl, rfl, fun k hk _ _ => ⟨.inl, ?_⟩⟩
    rintro (h | h)
    · exact h
    · exact absurd h.1 (not_breakOn hoff hk)
  · refine ⟨_, rfl, rfl, by simp [bitAt_bit, -BitVec.getLsbD_eq_getElem], fun k hk hrw hlen => ?_⟩
    rw [← dataMatch_iff s hk h1 h4 hrw hlen]
    interval_cases k <;> simp [bitAt_bit, -BitVec.getLsbD_eq_getElem]

theorem memRead_noticed {s : State} (hp : s.Plain) {sr : SReg} {off : Dword} {sz : Size}
    (hc : s.segOk sr off sz.bytes false = true) :
    ∃ v t, memRead sr off sz s = .ok v t ∧ Noticed s t false (s.linear sr off) sz.bytes := by
  have hsize := bytes_le_four sz
  obtain ⟨t, ht, he, hn⟩ := noteAccess_noticed s false (s.linear sr off) (one_le_bytes sz) hsize
  have hmem : t.AllMemory := by rw [he]; exact hp.memory
  refine ⟨leDword ((linearRange (s.linear sr off) sz.bytes).map t.readByte), t, ?_, hn⟩
  unfold memRead readLinear
  rw [run_bind_ok (a := ()) (segCheck_eq_ok.2 ⟨hc, rfl⟩), run_bind_ok (run_get s),
    run_bind_ok ((run_bind_ok (physRange_unpaged hp.unpaged false _ _ _ (one_le_bytes sz) (by omega))).trans
      ((run_bind_ok ht).trans (readPhys_memory hmem _)))]
  rfl

theorem memWrite_noticed {s : State} (hp : s.Plain) {sr : SReg} {off : Dword} {sz : Size} (v : Dword)
    (hc : s.segOk sr off sz.bytes true = true) :
    ∃ t, memWrite sr off sz v s = .ok () t ∧ Noticed s t true (s.linear sr off) sz.bytes := by
  have hsize := bytes_le_four sz
  obtain ⟨t, ht, he, hn⟩ := noteAccess_noticed s true (s.linear sr off) (one_le_bytes sz) hsize
  have hmem : t.AllMemory := by rw [he]; exact hp.memory
  rw [← leBytes_length sz.bytes v] at ht
  refine ⟨t.storePhys (linearRange (s.linear sr off) sz.bytes) (leBytes sz.bytes v), ?_, hn.trap, hn.bits⟩
  unfold memWrite writeLinear
  rw [run_bind_ok (a := ()) (segCheck_eq_ok.2 ⟨hc, rfl⟩), run_bind_ok (run_get s),
    run_bind_ok (physRange_unpaged hp.unpaged true _ _ _ (by rw [leBytes_length]; exact one_le_bytes sz)
      (by rw [leBytes_length]; omega)), run_bind_ok ht, leBytes_length]
  exact writePhys_memory hmem _ _

/-- An address that is computed uses at most a free value. -/
theorem effectiveAddress_draws {m : MemOp} {a : SReg × Dword} {s s1 : State} (h : effectiveAddress m s = .ok a s1) :
    ∃ d, s1 = { s with draws := d } := by
  unfold effectiveAddress at h
  simp only at h
  split at h <;> cases h <;> exact ⟨_, rfl⟩

theorem resolve_mem {m : MemOp} {sr : SReg} {off : Dword} {s s1 : State} (h : effectiveAddress m s = .ok (sr, off) s1) :
    resolve (.mem m) s = .ok (.mem sr off) s1 := by
  unfold resolve
  simp only [h]

/-- An instruction that completes after one access to memory. -/
theorem pends_of_noticed {s t : State} {w : Bool} {l : Dword} {n : Nat} (h : Noticed s t w l n) :
    (s.retire t).pendingDb.getLsbD 14 = (s.pendingDb.getLsbD 14 || s.eflags.tf) ∧
      ∀ k, k < 4 → s.dr7.extractLsb' (16 + 4 * k) 2 ≠ 2 → s.dr7.extractLsb' (18 + 4 * k) 2 ≠ 2 →
        ((s.retire t).pendingDb.getLsbD k = true ↔ s.pendingDb.getLsbD k = true ∨ s.Watches k w l n) := by
  have hstep (k : Nat) : (s.retire t).pendingDb.getLsbD k = (t.pendingDb.getLsbD k || (decide (k = 14) && s.eflags.tf)) := by
    rw [State.retire_pendingDb, BitVec.getLsbD_or]
    have hbit : s.stepBit = bitAt s.eflags.tf 14 := rfl
    rw [hbit, bitAt_bit]
    by_cases h14 : k = 14 <;> simp [h14]
  refine ⟨by rw [hstep, h.trap]; simp, fun k hk hrw hlen => ?_⟩
  rw [hstep, ← h.bits k hk hrw hlen]
  simp [show k ≠ 14 by omega]

/-- MOV from and to memory: the breakpoints that watch the operand pend. -/
theorem mov_pends {s s1 : State} {w : Width} {reg : Reg} {m : MemOp} {sr : SReg} {off : Dword} (hp : s.Plain)
    (ha : effectiveAddress m s = .ok (sr, off) s1) {p : Instr × Bool}
    (hmem : p ∈ [(Instr.movRegRm w reg (.mem m), false), (.movRmReg w reg (.mem m), true)])
    (hok : s.segOk sr off (s.wsz w).bytes p.2 = true) :
    ∃ t, exec p.1 s = .next (s.retire t) ∧ Noticed s t p.2 (s.linear sr off) (s.wsz w).bytes := by
  obtain ⟨d, rfl⟩ := effectiveAddress_draws ha
  have hp' : ({ s with draws := d } : State).Plain := (noted_draws s d).plain hp
  have hr := resolve_mem ha
  simp only [List.mem_cons, List.not_mem_nil, or_false] at hmem
  rcases hmem with rfl | rfl
  · obtain ⟨v, t, ht, hn⟩ := memRead_noticed (s := { s with draws := d }) hp' (sr := sr) (off := off) (sz := s.wsz w) hok
    have hread : readRm (s.wsz w) (.mem m) s = .ok v t := (run_bind_ok hr).trans ht
    exact ⟨t.setReg (s.wsz w) reg v, complete_ok ((run_bind_ok hread).trans rfl), hn.trap, hn.bits⟩
  · obtain ⟨t, ht, hn⟩ := memWrite_noticed (s := { s with draws := d }) hp' (sr := sr) (off := off) (sz := s.wsz w)
      (s.reg (s.wsz w) reg) hok
    exact ⟨t, complete_ok ((run_bind_ok hr).trans ht), hn.trap, hn.bits⟩

/-! The boundary. -/

/-- What takes the place of an instruction. -/
theorem step_of_interruption {r s : State} {a : Answer} (hr : r.pins.reset = false) (hp : prefetch r = .ok () s)
    (hi : interruption s = some a) : step r = a := by
  unfold step stepOnce
  rw [hr, if_neg (by decide), hp]
  simp only [stepAfterPrefetch, hi]

/-- With no HOLD, before an instruction's first byte and with no coprocessor transfer due, the boundary decides. -/
theorem interruption_boundary {s : State} (hh : s.pins.hold = false) (hc : s.pfx.count = 0) (hd : s.copDue = false) :
    interruption s = boundary s := by
  unfold interruption
  rw [hh, hc, hd]
  rfl

theorem dbDue_iff (s : State) : s.debugTrapDue = true ↔ s.pendingDb ≠ 0 ∧ s.shadow ≠ .ss := by
  simp [State.debugTrapDue]

theorem nmiDue_iff (s : State) :
    s.nmiDue = true ↔ s.nmiPending = true ∧ s.nmiInService = false ∧ s.shadow ≠ .ss := by
  simp [State.nmiDue, and_assoc]

theorem nmiDue_eq_false {s : State} (h : s.nmiPending = false ∨ s.nmiInService = true ∨ s.shadow = .ss) :
    s.nmiDue = false := by
  rcases h with h | h | h <;> simp [State.nmiDue, h]

theorem intrDue_iff (s : State) :
    s.intrDue = true ↔ s.pins.intr = true ∧ s.eflags.ifl = true ∧ s.shadow = .none := by
  simp [State.intrDue, and_assoc]

theorem fields_zero (x : Dword) (k : Nat) : x.extractLsb' (16 + 4 * k) 4 = 0 ↔ dr7Rw x k = 0 ∧ dr7Len x k = 0 := by
  have hbits (n m : Nat) : x.extractLsb' n m = 0#m ↔ ∀ i < m, x.getLsbD (n + i) = false := by
    constructor
    · intro h i hi
      have hz := congrArg (·.getLsbD i) h
      simpa [BitVec.getLsbD_extractLsb', hi] using hz
    · intro h
      ext i hi
      simpa using h i hi
  have hlow : dr7Rw x k = 0#2 ↔ _ := hbits (16 + 4 * k) 2
  have hhigh : dr7Len x k = 0#2 ↔ _ := hbits (18 + 4 * k) 2
  refine (hbits (16 + 4 * k) 4).trans (Iff.trans ?_ (and_congr hlow hhigh).symm)
  constructor
  · intro h
    exact ⟨fun i hi => h i (by omega), fun i hi => by
      rw [show 18 + 4 * k + i = 16 + 4 * k + (2 + i) by omega]; exact h (2 + i) (by omega)⟩
  · rintro ⟨h1, h2⟩ i hi
    rcases Nat.lt_or_ge i 2 with h | h
    · exact h1 i h
    · rw [show 16 + 4 * k + i = 18 + 4 * k + (i - 2) by omega]
      exact h2 (i - 2) (by omega)

/-- Instruction breakpoint `k` matches: its fields R/W and LEN are four zero bits. -/
theorem breakAt_iff (s : State) {k : Nat} (hk : k < 4) : s.breakAt k = true ↔ s.Breaks k := by
  rw [State.Breaks, fields_zero, ← dr7Enabled_iff, ← drAddress_eq s hk]
  simp [State.breakAt, State.linear, State.seg, and_assoc]

theorem breakBits_bit (s : State) (k : Nat) : s.breakBits.getLsbD k = true ↔ k < 4 ∧ s.Breaks k := by
  by_cases hk : k < 4
  · rw [← breakAt_iff s hk]
    interval_cases k <;> simp [State.breakBits, bitAt_bit, -BitVec.getLsbD_eq_getElem]
  · have h : ∀ i < 4, k ≠ i := by omega
    simp [State.breakBits, bitAt_bit, -BitVec.getLsbD_eq_getElem, hk, h 0, h 1, h 2, h 3]

/-- With no event before it, the boundary of a machine that is not shut down comes to NMI. -/
theorem boundary_nmi {s : State} (hrun : s.runState ≠ .shutdown) (hdb : s.pendingDb = 0)
    (hquiet : s.runState = .running → (s.eflags.rf = true ∨ ∀ k, k < 4 → ¬s.Breaks k) ∧ s.dr7.getLsbD 13 = false) :
    boundary s = if s.nmiDue then some (takeNmi s) else if s.intrDue then some (takeIntr s)
      else if s.runState = .halted then some (.next s) else none := by
  have hbreak : (s.runState = .running && s.breakDue) = false := by
    by_cases hr : s.runState = .running
    · have hzero : s.eflags.rf = true ∨ s.breakBits = 0 := by
        refine (hquiet hr).1.imp_right fun hb => BitVec.eq_of_getLsbD_eq fun k _ => ?_
        rw [Bool.eq_false_iff.2 fun h => hb k ((breakBits_bit s k).1 h).1 ((breakBits_bit s k).1 h).2]
        simp
      rcases hzero with h | h <;> simp [State.breakDue, h]
    · simp [hr]
  have hdetect : (s.runState = .running && s.detectDue) = false := by
    by_cases hr : s.runState = .running
    · simp [State.detectDue, (hquiet hr).2, -BitVec.getLsbD_eq_getElem]
    · simp [hr]
  have htrap : s.debugTrapDue = false := by simp [State.debugTrapDue, hdb]
  unfold boundary
  rw [if_neg hrun, htrap, hbreak, hdetect]
  rfl

/-- What a shut down machine does with an NMI. -/
theorem stepShutdown_nmi {s : State} (h : s.nmiDue = true) :
    (∀ u, deliver (hardwareEvent 2 s.eip) s.nmiTaken = .ok () u → stepShutdown s = .next u.handlerEntered) ∧
    (∀ e k u, deliver (hardwareEvent 2 s.eip) s.nmiTaken = .error (.exn e k) u →
      stepShutdown s =
        .next (({ s with nmiPending := false, draws := u.draws, deviceBus := u.deviceBus } : State).noting e)) := by
  unfold stepShutdown
  rw [if_pos h]
  exact ⟨fun u hu => by rw [hu], fun e k u hu => by rw [hu]; rfl⟩

/-! A delivery that fails. -/

theorem isContributory_iff (v : Byte) : isContributory v = true ↔ v ∈ ([0, 9, 10, 11, 12, 13] : List Byte) := by
  simp only [isContributory, Bool.or_eq_true, Bool.and_eq_true, beq_iff_eq, decide_eq_true_eq, List.mem_cons,
    List.not_mem_nil, or_false, BitVec.toNat_eq, BitVec.ofNat_eq_ofNat, BitVec.toNat_ofNat]
  omega

/-- The exceptions that make a double fault of `e` in the delivery of `ev`. -/
def Event.Doubles (ev : Event) (e : Exn) : Prop :=
  e.vector = 8 ∨ ev.exception = true ∧
    ((ev.vector ∈ ([0, 9, 10, 11, 12, 13] : List Byte) ∧ e.vector ∈ ([0, 9, 10, 11, 12, 13] : List Byte)) ∨
      (ev.vector = 14 ∧ e.vector ∈ ([0, 9, 10, 11, 12, 13, 14] : List Byte)))

theorem Event.escalate_shutdown {ev : Event} (e : Exn) (h : ev.exception = true ∧ ev.vector = 8) :
    ev.escalate e = none := by
  simp [Event.escalate, h]

theorem Event.escalate_doubles {ev : Event} {e : Exn} (h : ¬(ev.exception = true ∧ ev.vector = 8)) :
    (ev.Doubles e → ev.escalate e = some Exn.dfault) ∧ (¬ev.Doubles e → ev.escalate e = some e) := by
  have hsplit : e.vector ∈ ([0, 9, 10, 11, 12, 13, 14] : List Byte) ↔
      e.vector ∈ ([0, 9, 10, 11, 12, 13] : List Byte) ∨ e.vector = 14 := by
    simp [or_assoc]
  have hd : ev.Doubles e ↔ (e.vector == 8) = true ∨
      (ev.exception && isContributory ev.vector && isContributory e.vector) = true ∨
      (ev.exception && ev.vector == 14 && (isContributory e.vector || e.vector == 14)) = true := by
    simp only [Event.Doubles, hsplit, ← isContributory_iff, Bool.and_eq_true, Bool.or_eq_true, beq_iff_eq]
    tauto
  unfold Event.escalate
  rw [if_neg (by simpa using h), hd]
  generalize (e.vector == 8) = is8, (ev.exception && isContributory ev.vector && isContributory e.vector) = both,
    (ev.exception && ev.vector == 14 && (isContributory e.vector || e.vector == 14)) = page
  cases is8 <;> cases both <;> cases page <;> simp

/-- The delivery of an event that raises an exception, by what follows from the two. -/
theorem deliverChain_exn {n : Nat} {ev : Event} {e : Exn} {k : Keep} {s u b : State}
    (h : deliver ev s = .error (.exn e k) u) (hb : b = (keptState s u k).noteException e) :
    (ev.escalate e = none → deliverChain (n + 1) ev s = .next b.enterShutdown) ∧
    (∀ e2, ev.escalate e = some e2 → deliverChain (n + 1) ev s = deliverChain n (e2.event b.instrEip ev.ext) b) := by
  subst hb
  refine ⟨fun he => ?_, fun e2 he => ?_⟩
  · unfold deliverChain
    rw [h]
    simp only [he]
  · conv_lhs => unfold deliverChain
    rw [h]
    simp only [he]

/-- Settles O54: the breakpoints by `noteAccess_noticed`, the events by the order of `boundary`, a failing delivery by
`Event.escalate`. -/
theorem boundary_obligation : Obligations.Boundary := by
  unfold Obligations.Boundary
  refine ⟨?watch, ?nop, ?events, ?double⟩
  case watch =>
    intro s s1 w reg m sr off l sz hs hp hsz ha hl p hmem hok
    subst hsz hl
    obtain ⟨t, ht, hn⟩ := mov_pends hp ha hmem hok
    exact ⟨_, ht, pends_of_noticed hn⟩
  case nop => exact fun s => ⟨_, complete_ok rfl, rfl⟩
  case events =>
    intro r s hr hp
    refine ⟨fun hh => step_of_interruption hr hp (if_pos hh), fun hh hc hd => ?_⟩
    have hi := interruption_boundary hh hc hd
    have hstep {a : Answer} (ha : boundary s = some a) : step r = a := step_of_interruption hr hp (hi.trans ha)
    refine ⟨fun hrun hdb hsh => hstep ?_, fun hrun hdb hsh hrf hbr => ?_, fun hrun hdb hq => ?_, fun hrun => ?_⟩
    · unfold boundary
      rw [if_neg hrun, if_pos ((dbDue_iff s).2 ⟨hdb, hsh⟩)]
      rfl
    · obtain ⟨k, hk, hbk⟩ := hbr
      have hne : s.breakBits ≠ 0 := fun hz => by
        have hbit := (breakBits_bit s k).2 ⟨hk, hbk⟩
        rw [hz] at hbit
        simp at hbit
      have hdue : s.breakDue = true := by
        simp only [State.breakDue, hrf, Bool.not_false, Bool.true_and, Bool.and_eq_true, bne_iff_ne]
        exact ⟨hsh, hne⟩
      refine ⟨s.breakBits, fun k => breakBits_bit s k, hstep ?_⟩
      unfold boundary
      rw [if_neg (by simp [hrun]), if_neg (by simp [State.debugTrapDue, hdb]), if_pos (by simp [hrun, hdue])]
      rfl
    · have hb := boundary_nmi hrun hdb hq
      refine ⟨fun h1 h2 h3 => hstep (hb.trans (if_pos ((nmiDue_iff s).2 ⟨h1, h2, h3⟩))), fun hn => ?_⟩
      rw [nmiDue_eq_false hn] at hb
      refine ⟨fun h1 h2 h3 => hstep (hb.trans (if_pos ((intrDue_iff s).2 ⟨h1, h2, h3⟩))), fun hni hhalt => ?_⟩
      have hno : ¬s.intrDue = true := fun h => by
        obtain ⟨h1, h2, h3⟩ := (intrDue_iff s).1 h
        simp [h1, h2, h3] at hni
      exact hstep (hb.trans ((if_neg hno).trans (if_pos hhalt)))
    · have hb : boundary s = some (stepShutdown s) := if_pos hrun
      refine ⟨fun hn => (hstep hb).trans ?_, fun h1 h2 h3 => ?_⟩
      · unfold stepShutdown
        rw [nmiDue_eq_false hn]
        rfl
      · obtain ⟨hok, hexn⟩ := stepShutdown_nmi ((nmiDue_iff s).2 ⟨h1, h2, h3⟩)
        exact ⟨fun u hu => (hstep hb).trans (hok u hu), fun e k u hu => (hstep hb).trans (hexn e k u hu)⟩
  case double =>
    intro s u b ev df e double hdel hb hdf hdouble
    have hkept : b = (keptState s u .nothing).noteException e := hb
    have heip : b.instrEip = s.instrEip := by rw [hkept]; rfl
    obtain ⟨hnone, hsome⟩ := deliverChain_exn (n := 5) hdel hkept
    refine ⟨fun h8 => hnone (ev.escalate_shutdown e h8), fun h8 hd => ?_, fun h8 hd t ht => ?_⟩
    · have hchain := hsome _ ((Event.escalate_doubles h8).1 (hdouble.1 hd))
      rw [heip] at hchain
      have hdf' : Exn.dfault.event s.instrEip ev.ext = df := by rw [hdf]; rfl
      rw [hdf'] at hchain
      refine ⟨fun t ht => hchain.trans ?_, fun e2 k t ht => ?_⟩
      · unfold deliverChain
        rw [ht]
        rfl
      · have hlast : df.escalate e2 = none := df.escalate_shutdown e2 (by rw [hdf]; exact ⟨rfl, rfl⟩)
        exact ⟨_, hchain.trans ((deliverChain_exn (n := 4) ht rfl).1 hlast), rfl, rfl⟩
    · have hchain := hsome _ ((Event.escalate_doubles h8).2 fun h => hd (hdouble.2 h))
      rw [heip] at hchain
      refine hchain.trans ?_
      unfold deliverChain
      have ht' : deliver (e.event s.instrEip ev.ext) b = .ok () t := ht
      rw [ht']
      rfl

end Sys2Proof.Machine

end


section
/-! The transfers of a coprocessor operand, with memory alone in the address space and paging off: one transfer, and the
loop over them (20_memory.md R107; 70_reset_and_hazards.md R782). -/

namespace Sys2Proof.Machine

/-- From `s` to `t` transfers have been made: what is left is memory, the bus cycles `bus` and the held operand `o`. -/
def Served (s t : State) (bus : List BusCycle) (o : Option CopOperand) : Prop :=
  t = { s with mem := t.mem, stale := t.stale, pendingDb := t.pendingDb, draws := t.draws, bus := bus, copOperand := o }

theorem Served.trans {s t u : State} {b b' : List BusCycle} {o o' : Option CopOperand} (h : Served s t b o)
    (k : Served t u b' o') : Served s u b' o' := by
  unfold Served at *
  rw [k, h]

theorem Served.same {s : State} {o : Option CopOperand} (h : s.copOperand = o) : Served s s s.bus o := by
  subst h
  rfl

theorem Served.plain {s t : State} {b : List BusCycle} {o : Option CopOperand} (h : Served s t b o) (hp : s.Plain) :
    t.Plain := by
  unfold Served at h
  rw [h]
  exact hp

theorem Served.bus {s t : State} {b : List BusCycle} {o : Option CopOperand} (h : Served s t b o) : t.bus = b := by
  unfold Served at h
  rw [h]

theorem Served.copOperand {s t : State} {b : List BusCycle} {o : Option CopOperand} (h : Served s t b o) :
    t.copOperand = o := by
  unfold Served at h
  rw [h]

theorem Served.copUnit {s t : State} {b : List BusCycle} {o : Option CopOperand} (h : Served s t b o) :
    t.copUnit = s.copUnit := by
  unfold Served at h
  rw [h]
  rfl

theorem Served.isFixed {s t : State} {b : List BusCycle} {o : Option CopOperand} (h : Served s t b o) :
    t.isFixed = s.isFixed := by
  unfold Served at h
  rw [h]
  rfl

theorem Served.regs {s t : State} {b : List BusCycle} {o : Option CopOperand} (h : Served s t b o) :
    t.regs = s.regs := by
  unfold Served at h
  rw [h]

theorem Served.eflags {s t : State} {b : List BusCycle} {o : Option CopOperand} (h : Served s t b o) :
    t.eflags = s.eflags := by
  unfold Served at h
  rw [h]

theorem Served.pfx {s t : State} {b : List BusCycle} {o : Option CopOperand} (h : Served s t b o) : t.pfx = s.pfx := by
  unfold Served at h
  rw [h]

theorem Served.shadow {s t : State} {b : List BusCycle} {o : Option CopOperand} (h : Served s t b o) :
    t.shadow = s.shadow := by
  unfold Served at h
  rw [h]

theorem Served.putBack {s t : State} {b : List BusCycle} {o : Option CopOperand} (h : Served s t b o) (z : State) :
    t.putBack z = ({ s with bus := b, copOperand := o } : State).putBack z := by
  unfold Served at h
  rw [h]
  rfl

theorem copUnit_cases (s : State) : s.copUnit = 2 ∨ s.copUnit = 4 := by
  unfold State.copUnit
  split <;> simp

/-! The operand port. -/

theorem copBytes_ok (data : List Byte) (n k : Nat) (s : State) :
    ∃ bs d, copBytes data k n s = .ok bs { s with draws := d } ∧ bs.length = n ∧
      ∀ i b, i < n → data[k + i]? = some b → bs[i]? = some b := by
  induction n generalizing k s with
  | zero => exact ⟨[], s.draws, rfl, rfl, by omega⟩
  | succ n ih =>
    obtain ⟨bs, d, hbs, hlen, hdata⟩ := ih (k + 1) { s with draws := s.draws + 1 }
    refine ⟨data.getD k ((Config.freeDword s.draws).setWidth 8) :: bs, d, ?_, by simp [hlen], ?_⟩
    · unfold copBytes
      exact (run_bind_ok (s' := { s with draws := s.draws + 1 }) rfl).trans ((run_bind_ok hbs).trans rfl)
    · intro i b hi hb
      cases i with
      | zero => simp [List.getD, show data[k]? = some b from hb]
      | succ i => exact hdata i b (by omega) (by rw [show k + 1 + i = k + (i + 1) by omega]; exact hb)

theorem readCop_ok (data : List Byte) (k n : Nat) (s : State) :
    ∃ bs d, readCop data k n s = .ok bs { s with draws := d, bus := .coprocessorRead s.copUnit :: s.bus } ∧
      bs.length = n ∧ ∀ i b, i < n → data[k + i]? = some b → bs[i]? = some b := by
  obtain ⟨bs, d, hbs, hlen, hdata⟩ := copBytes_ok data n k (s.logged [.coprocessorRead s.copUnit])
  exact ⟨bs, d, hbs, hlen, hdata⟩

theorem writeCop_ok (bs : List Byte) (s : State) :
    ∃ (pad : List Byte) (d : Nat), writeCop bs s =
        .ok () { s with draws := d, bus := .coprocessorWrite (bs ++ pad) :: s.bus } ∧ pad.length = s.copUnit - bs.length := by
  obtain ⟨pad, d, hpad, hlen, -⟩ := copBytes_ok [] (s.copUnit - bs.length) 0 s
  exact ⟨pad, d, (run_bind_ok hpad).trans rfl, hlen⟩

/-! One transfer. -/

section Transfers

variable {r : CopRequest} {o : CopOperand}

theorem transferUnit_in {s : State} {k n : Nat} (hp : s.Plain) (hto : r.toMemory = true)
    (hfit : o.fits k n r.toMemory = true) (h1 : 1 ≤ n) (h4 : n ≤ 4) :
    ∃ t bs, transferUnit r o k n s = .ok () t ∧ bs.length = n ∧
      (∀ i b, i < n → r.data[k + i]? = some b → bs[i]? = some b) ∧
      Served s t (.coprocessorRead s.copUnit :: s.bus) (some { o with moved := k + n }) ∧
      t.mem = writeCells s.isFixed s.mem (linearRange (o.linear k) n) bs := by
  obtain ⟨bs, d, hread, hlen, hdata⟩ := readCop_ok r.data k n s
  obtain ⟨v, hv, he⟩ := noteAccess_answers true (o.linear k) n
    { s with draws := d, bus := .coprocessorRead s.copUnit :: s.bus }
  have hmem : v.AllMemory := by rw [he]; exact hp.memory
  refine ⟨(v.storePhys (linearRange (o.linear k) n) bs).copMoved o (k + n), bs, ?_, hlen, hdata, ?_, ?_⟩
  · unfold transferUnit
    rw [run_bind_ok (raiseIf_of_false s (by simp [hfit])),
      run_bind_ok (physRange_unpaged hp.unpaged _ _ _ _ h1 (by omega)), hto]
    exact (run_bind_ok hread).trans ((run_bind_ok hv).trans ((run_bind_ok (writePhys_memory hmem _ _)).trans rfl))
  · unfold Served
    rw [he]
    rfl
  · rw [he]
    rfl

theorem transferUnit_out {s : State} {k n : Nat} (hp : s.Plain) (hto : r.toMemory = false)
    (hfit : o.fits k n r.toMemory = true) (h1 : 1 ≤ n) (h4 : n ≤ 4) :
    ∃ (t : State) (pad : List Byte), transferUnit r o k n s = .ok () t ∧ pad.length = s.copUnit - n ∧
      Served s t (.coprocessorWrite ((linearRange (o.linear k) n).map s.readByte ++ pad) :: s.bus)
        (some { o with moved := k + n }) ∧ t.mem = s.mem := by
  obtain ⟨v, hv, he⟩ := noteAccess_answers false (o.linear k) n s
  have hmem : v.AllMemory := by rw [he]; exact hp.memory
  have hbytes : (linearRange (o.linear k) n).map v.readByte = (linearRange (o.linear k) n).map s.readByte := by
    rw [he]; rfl
  obtain ⟨pad, d, hwrite, hpad⟩ := writeCop_ok ((linearRange (o.linear k) n).map v.readByte) v
  refine ⟨({ v with
    draws := d, bus := .coprocessorWrite ((linearRange (o.linear k) n).map v.readByte ++ pad) :: v.bus } :
      State).copMoved o (k + n), pad, ?_, ?_, ?_, ?_⟩
  · unfold transferUnit
    rw [run_bind_ok (raiseIf_of_false s (by simp [hfit])),
      run_bind_ok (physRange_unpaged hp.unpaged _ _ _ _ h1 (by omega)), hto]
    exact (run_bind_ok hv).trans ((run_bind_ok (readPhys_memory hmem _)).trans ((run_bind_ok hwrite).trans rfl))
  · rw [hpad, List.length_map, linearRange_length, show v.copUnit = s.copUnit by rw [he]; rfl]
  · unfold Served
    rw [hbytes, he]
    rfl
  · rw [he]
    rfl

/-- A transfer that fits is made. -/
theorem transferUnit_ok {s : State} {k n : Nat} (hp : s.Plain) (hfit : o.fits k n r.toMemory = true) (h1 : 1 ≤ n)
    (h4 : n ≤ 4) : ∃ t, transferUnit r o k n s = .ok () t ∧ Served s t t.bus (some { o with moved := k + n }) := by
  cases hto : r.toMemory with
  | true =>
    obtain ⟨t, _, ht, _, _, hs, _⟩ := transferUnit_in hp hto hfit h1 h4
    exact ⟨t, ht, by rw [hs.bus]; exact hs⟩
  | false =>
    obtain ⟨t, _, ht, _, hs, _⟩ := transferUnit_out hp hto hfit h1 h4
    exact ⟨t, ht, by rw [hs.bus]; exact hs⟩

/-! The loop. -/

/-- One more transfer is one more cycle. -/
theorem cycles_step {unit n : Nat} (hu : unit = 2 ∨ unit = 4) (hn : 1 ≤ n) :
    (n + unit - 1) / unit = (n - unit + unit - 1) / unit + 1 := by
  rcases hu with rfl | rfl <;> omega

theorem linear_add (o : CopOperand) (k n : Nat) : o.linear k + BitVec.ofNat 32 n = o.linear (k + n) := by
  simp [CopOperand.linear, BitVec.ofNat_add, BitVec.add_assoc]

theorem transferRest_done {unit fuel k : Nat} {s : State} (h : r.count ≤ k) : transferRest r o unit fuel k s = .ok () s := by
  cases fuel with
  | zero => rfl
  | succ fuel => exact congrFun (if_pos h) s

theorem transferRest_step {unit fuel k : Nat} {s t : State} (hk : k < r.count)
    (h : transferUnit r o k (min unit (r.count - k)) s = .ok () t) :
    transferRest r o unit (fuel + 1) k s = transferRest r o unit fuel (k + unit) t :=
  (congrFun (if_neg (by omega)) s).trans (run_bind_ok h)

/-- All transfers to memory from byte `k` on: one write of the bytes that the operand port gives. -/
theorem transferRest_in {unit : Nat} (hto : r.toMemory = true) (hu : unit = 2 ∨ unit = 4) (fuel k : Nat) (s : State)
    (hp : s.Plain) (hunit : s.copUnit = unit) (hfuel : r.count - k ≤ fuel)
    (hfit : ∀ j, k + j < r.count → j % unit = 0 → o.fits (k + j) (min unit (r.count - (k + j))) r.toMemory = true)
    (hheld : r.count ≤ k → s.copOperand = some { o with moved := r.count }) :
    ∃ t bs, transferRest r o unit fuel k s = .ok () t ∧ bs.length = r.count - k ∧
      (∀ i b, i < r.count - k → r.data[k + i]? = some b → bs[i]? = some b) ∧
      Served s t (List.replicate ((r.count - k + unit - 1) / unit) (.coprocessorRead unit) ++ s.bus)
        (some { o with moved := r.count }) ∧
      t.mem = writeCells s.isFixed s.mem (linearRange (o.linear k) (r.count - k)) bs := by
  induction fuel generalizing k s with
  | zero =>
    have hz : r.count - k = 0 := by omega
    refine ⟨s, [], rfl, by rw [hz]; rfl, by omega, ?_, by rw [hz]; rfl⟩
    rw [hz, Nat.zero_add, Nat.div_eq_of_lt (by omega)]
    exact .same (hheld (by omega))
  | succ fuel ih =>
    by_cases hk : r.count ≤ k
    · have hz : r.count - k = 0 := by omega
      refine ⟨s, [], transferRest_done hk, by rw [hz]; rfl, by omega, ?_, by rw [hz]; rfl⟩
      rw [hz, Nat.zero_add, Nat.div_eq_of_lt (by omega)]
      exact .same (hheld hk)
    · have hfirst : o.fits k (min unit (r.count - k)) r.toMemory = true := by
        simpa using hfit 0 (by omega) (Nat.zero_mod _)
      obtain ⟨v, xs, hv, hxs, hxdata, hvs, hvmem⟩ := transferUnit_in hp hto hfirst (by omega) (by omega)
      rw [hunit] at hvs
      have hlast : r.count ≤ k + unit → k + min unit (r.count - k) = r.count := by omega
      obtain ⟨t, ys, ht, hys, hydata, hts, htmem⟩ := ih (k + unit) v (hvs.plain hp) (hvs.copUnit.trans hunit) (by omega)
        (fun j hj hmod => by
          have h := hfit (unit + j) (by omega) (by rw [Nat.add_mod_left]; exact hmod)
          rwa [← Nat.add_assoc] at h)
        (fun h => by rw [hvs.copOperand, hlast h])
      refine ⟨t, xs ++ ys, (transferRest_step (by omega) hv).trans ht, ?_, ?_, ?_, ?_⟩
      · rw [List.length_append, hxs, hys]
        omega
      · intro i b hi hb
        by_cases hin : i < min unit (r.count - k)
        · rw [List.getElem?_append_left (by omega)]
          exact hxdata i b hin hb
        · have hlen : xs.length = unit := by omega
          rw [List.getElem?_append_right (by omega), hlen]
          exact hydata (i - unit) b (by omega) (by rw [show k + unit + (i - unit) = k + i by omega]; exact hb)
      · rw [cycles_step hu (show 1 ≤ r.count - k by omega), List.replicate_succ', List.append_assoc]
        have h := hvs.trans hts
        rwa [hvs.bus, Nat.sub_add_eq] at h
      · by_cases hend : r.count ≤ k + unit
        · obtain rfl : ys = [] := List.length_eq_zero_iff.1 (by omega)
          rw [htmem, hvmem, List.append_nil, show r.count - (k + unit) = 0 by omega,
            show min unit (r.count - k) = r.count - k by omega]
          rfl
        · have hmin : min unit (r.count - k) = unit := by omega
          rw [htmem, hvmem, hvs.isFixed, ← writeCells_append _ _ _ _ _ _ (by rw [linearRange_length, hxs]), hmin,
            ← linear_add, linearRange_append, show unit + (r.count - (k + unit)) = r.count - k by omega]

/-- The cycles that write the bytes `l` to the operand port, `unit` at a time. -/
theorem writeCycles_cons {unit : Nat} {x : List Byte} (hx : x.length = unit) (l : List Byte) (n : Nat) :
    ((List.range (n + 1)).map fun j => BusCycle.coprocessorWrite (((x ++ l).drop (unit * j)).take unit)) =
      .coprocessorWrite x :: (List.range n).map fun j => BusCycle.coprocessorWrite ((l.drop (unit * j)).take unit) := by
  subst hx
  rw [List.range_succ_eq_map, List.map_cons, List.map_map]
  congr 1
  · simp
  · refine List.map_congr_left fun j _ => ?_
    have hdrop : (x ++ l).drop (x.length * (j + 1)) = l.drop (x.length * j) := by
      rw [Nat.mul_add, Nat.mul_one, Nat.add_comm, ← List.drop_drop, List.drop_left]
    simp only [Function.comp, hdrop, Nat.succ_eq_add_one]

/-- All transfers from memory from byte `k` on: the bytes of the operand, filled up to whole cycles. -/
theorem transferRest_out {unit : Nat} (hto : r.toMemory = false) (hu : unit = 2 ∨ unit = 4) (fuel k : Nat) (s : State)
    (hp : s.Plain) (hunit : s.copUnit = unit) (hfuel : r.count - k ≤ fuel)
    (hfit : ∀ j, k + j < r.count → j % unit = 0 → o.fits (k + j) (min unit (r.count - (k + j))) r.toMemory = true)
    (hheld : r.count ≤ k → s.copOperand = some { o with moved := r.count }) :
    ∃ (t : State) (pad : List Byte), transferRest r o unit fuel k s = .ok () t ∧
      pad.length = unit * ((r.count - k + unit - 1) / unit) - (r.count - k) ∧
      Served s t (((List.range ((r.count - k + unit - 1) / unit)).map fun j => BusCycle.coprocessorWrite
          ((((linearRange (o.linear k) (r.count - k)).map s.readByte ++ pad).drop (unit * j)).take unit)).reverse ++ s.bus)
        (some { o with moved := r.count }) ∧ t.mem = s.mem := by
  have hdone (s : State) (k : Nat) (hk : r.count ≤ k) (hheld : s.copOperand = some { o with moved := r.count }) :
      Served s s (((List.range ((r.count - k + unit - 1) / unit)).map fun j => BusCycle.coprocessorWrite
          ((((linearRange (o.linear k) (r.count - k)).map s.readByte ++ []).drop (unit * j)).take unit)).reverse ++ s.bus)
        (some { o with moved := r.count }) := by
    rw [show r.count - k = 0 by omega, Nat.zero_add, Nat.div_eq_of_lt (by omega)]
    exact .same hheld
  have hzero (k : Nat) (hk : r.count ≤ k) : ([] : List Byte).length =
      unit * ((r.count - k + unit - 1) / unit) - (r.count - k) := by
    rw [show r.count - k = 0 by omega, Nat.zero_add, Nat.div_eq_of_lt (by omega)]
    rfl
  induction fuel generalizing k s with
  | zero => exact ⟨s, [], rfl, hzero k (by omega), hdone s k (by omega) (hheld (by omega)), rfl⟩
  | succ fuel ih =>
    by_cases hk : r.count ≤ k
    · exact ⟨s, [], transferRest_done hk, hzero k hk, hdone s k hk (hheld hk), rfl⟩
    · have hfirst : o.fits k (min unit (r.count - k)) r.toMemory = true := by
        simpa using hfit 0 (by omega) (Nat.zero_mod _)
      obtain ⟨v, pad, hv, hpad, hvs, hvmem⟩ := transferUnit_out hp hto hfirst (by omega) (by omega)
      rw [hunit] at hpad
      have hlast : r.count ≤ k + unit → k + min unit (r.count - k) = r.count := by omega
      obtain ⟨t, pad', ht, hpad', hts, htmem⟩ := ih (k + unit) v (hvs.plain hp) (hvs.copUnit.trans hunit) (by omega)
        (fun j hj hmod => by
          have h := hfit (unit + j) (by omega) (by rw [Nat.add_mod_left]; exact hmod)
          rwa [← Nat.add_assoc] at h)
        (fun h => by rw [hvs.copOperand, hlast h])
      have hread : v.readByte = s.readByte := by funext p; unfold State.readByte; rw [hvmem]
      have hstep := cycles_step hu (show 1 ≤ r.count - k by omega)
      rw [Nat.sub_add_eq] at hpad' hts
      refine ⟨t, pad ++ pad', (transferRest_step (by omega) hv).trans ht, ?_, ?_, htmem.trans hvmem⟩
      · rw [List.length_append, hpad, hpad', hstep]
        rcases hu with rfl | rfl <;> omega
      · have h := hvs.trans hts
        have hsplit : (linearRange (o.linear k) (r.count - k)).map s.readByte ++ (pad ++ pad') =
            ((linearRange (o.linear k) (min unit (r.count - k))).map s.readByte ++ pad) ++
              ((linearRange (o.linear (k + unit)) (r.count - k - unit)).map s.readByte ++ pad') := by
          by_cases hend : r.count ≤ k + unit
          · rw [show r.count - k - unit = 0 by omega, show min unit (r.count - k) = r.count - k by omega]
            simp [linearRange]
          · obtain rfl : pad = [] := List.length_eq_zero_iff.1 (by omega)
            rw [show min unit (r.count - k) = unit by omega, ← linear_add, List.nil_append, List.append_nil,
              ← List.append_assoc, ← List.map_append, linearRange_append,
              show unit + (r.count - k - unit) = r.count - k by omega]
        rw [hsplit, hstep, writeCycles_cons (by
          rw [List.length_append, List.length_map, linearRange_length, hpad]; omega), List.reverse_cons, List.append_assoc]
        rwa [hvs.bus, hread] at h

/-- A transfer that does not fit stops the loop at its byte. -/
theorem transferRest_stop {unit : Nat} (hu : unit = 2 ∨ unit = 4) (fuel k d : Nat) (s : State) (hp : s.Plain)
    (hfuel : r.count - k ≤ fuel) (hd : k + d < r.count) (hmod : d % unit = 0)
    (hfit : ∀ j, j < d → j % unit = 0 → o.fits (k + j) (min unit (r.count - (k + j))) r.toMemory = true)
    (hstop : o.fits (k + d) (min unit (r.count - (k + d))) r.toMemory = false)
    (hheld : s.copOperand = some { o with moved := k }) :
    ∃ t, transferRest r o unit fuel k s = .error (.exn (segFault o.seg) .nothing) t ∧
      Served s t t.bus (some { o with moved := k + d }) := by
  induction fuel generalizing k d s with
  | zero => omega
  | succ fuel ih =>
    by_cases hz : d = 0
    · subst hz
      refine ⟨s, ?_, .same hheld⟩
      have hunit : transferUnit r o k (min unit (r.count - k)) s = .error (.exn (segFault o.seg) .nothing) s := by
        unfold transferUnit
        exact run_bind_error (raiseIf_of_true s (by rw [Nat.add_zero] at hstop; simp [hstop]))
      exact (congrFun (if_neg (by omega)) s).trans (run_bind_error hunit)
    · have hge : unit ≤ d := Nat.le_of_dvd (by omega) (Nat.dvd_of_mod_eq_zero hmod)
      have hfirst : o.fits k (min unit (r.count - k)) r.toMemory = true := by
        simpa using hfit 0 (by omega) (Nat.zero_mod _)
      obtain ⟨v, hv, hvs⟩ := transferUnit_ok hp hfirst (by omega) (by omega)
      have hmin : min unit (r.count - k) = unit := by omega
      obtain ⟨t, ht, hts⟩ := ih (k + unit) (d - unit) v (hvs.plain hp) (by omega) (by omega)
        (by rw [← Nat.mod_eq_sub_mod hge]; exact hmod)
        (fun j hj hj' => by
          have h := hfit (unit + j) (by omega) (by rw [Nat.add_mod_left]; exact hj')
          rwa [← Nat.add_assoc] at h)
        (by rw [show k + unit + (d - unit) = k + d by omega]; exact hstop)
        (by rw [hvs.copOperand, hmin])
      rw [show k + unit + (d - unit) = k + d by omega] at hts
      exact ⟨t, (transferRest_step (by omega) hv).trans ht, hvs.trans hts⟩

end Transfers

end Sys2Proof.Machine

end


section
/-! NOP, HLT, WAIT, ESC and the transfers that the coprocessor asks for (47_processor_control.md; 70_reset_and_hazards.md
R782). -/

namespace Sys2Proof.Machine

/-! The transfers of an operand. -/

section

variable {r : CopRequest} {o : CopOperand} {s t : State}

theorem overrunning_ok {m : M Unit} (h : m s = .ok () t) : overrunning m s = .ok () t := by
  unfold overrunning
  rw [h]

theorem overrunning_exn {m : M Unit} {e : Exn} {k : Keep} (h : m s = .error (.exn e k) t) :
    overrunning m s = .error (.exn Exn.overrun .memory) t.endTransfers := by
  unfold overrunning
  rw [h]

/-- The transfers that an ESC makes are the loop from byte 0, but for what a fault after the first one is. -/
theorem transferAll_eq (hp : s.Plain) (hcount : 1 ≤ r.count)
    (hfirst : o.fits 0 (min s.copUnit r.count) r.toMemory = true) :
    transferAll r o s = overrunning (transferRest r o s.copUnit (r.count + 1) 0) s := by
  have hu := copUnit_cases s
  obtain ⟨v, hv, -⟩ := transferUnit_ok hp hfirst (by omega) (by omega)
  have hloop : transferRest r o s.copUnit (r.count + 1) 0 s = transferRest r o s.copUnit r.count s.copUnit v := by
    refine (transferRest_step (by omega) hv).trans ?_
    rw [Nat.zero_add]
  have hall : transferAll r o s = overrunning (transferRest r o s.copUnit r.count s.copUnit) v := by
    unfold transferAll
    rw [run_bind_ok (run_get s)]
    exact (congrFun (if_neg (by omega)) s).trans (run_bind_ok hv)
  rw [hall]
  unfold overrunning
  rw [hloop]

/-- What a write of `bs` has stored. -/
theorem stores_of_writeCells {as : List Dword} {bs : List Byte} (hs : s.Inv) (hn : as.Nodup) (hl : as.length = bs.length)
    (hmem : t.mem = writeCells s.isFixed s.mem as bs) : Stores s t as bs :=
  .of_mem (t := s.storePhys as bs) hmem (stores_storePhys (.refl s) hs.mem hn hl)

theorem noStore_of_mem (h : t.mem = s.mem) : NoStore s t := fun p => .inl (by unfold State.readByte; rw [h])

end

/-! The transfers between instructions. -/

/-- The held operand with bytes still asked for takes the place of the next instruction. -/
theorem step_serves {z s : State} {o : CopOperand} (hr : z.pins.reset = false) (hz : prefetch z = .ok () s)
    (hhold : s.pins.hold = false) (hcount : s.pfx.count = 0) (hrun : s.runState = .running)
    (hcop : s.params.coprocessor ≠ .none) (hreq : s.pins.pereq = true) (ho : s.copOperand = some o)
    (hlive : o.live = true) (hmore : o.moved < s.copRequest.count) :
    step z = finish (fun _ _ s' => s')
      (overrunning (transferRest s.copRequest o s.copUnit s.copRequest.count o.moved)) s.atBoundary := by
  have hdue : s.copDue = true := by
    unfold State.copDue
    rw [ho]
    simp [hreq, hrun, hcop, hlive, hmore]
  have hi : interruption s = some (serveLater s) := by
    unfold interruption
    rw [hhold, hcount, hdue]
    rfl
  rw [step_of_interruption hr hz hi]
  have hmore' : transferMore s.atBoundary =
      overrunning (transferRest s.copRequest o s.copUnit s.copRequest.count o.moved) s.atBoundary := by
    unfold transferMore
    rw [run_bind_ok (run_get s.atBoundary)]
    simp only [State.atBoundary, ho]
    rfl
  unfold serveLater finish
  rw [hmore']

/-! ESC up to its transfers. -/

theorem isMem_iff (rm : RM) : RM.isMem rm = true ↔ ∃ m, rm = .mem m := by
  cases rm <;> simp [RM.isMem]

/-- Where the operand of an ESC lies, and that finding it uses at most a free value. -/
theorem resolve_cases {rm : RM} {l : Loc} {s s1 : State} (h : resolve rm s = .ok l s1) :
    ((∃ reg, rm = .reg reg ∧ l = .reg reg) ∨ ∃ m sr off, rm = .mem m ∧ l = .mem sr off) ∧
      ∃ d, s1 = { s with draws := d } := by
  cases rm with
  | reg reg =>
    cases h
    exact ⟨.inl ⟨reg, rfl, rfl⟩, s.draws, rfl⟩
  | mem m =>
    unfold resolve at h
    simp only at h
    split at h
    · next a s' ha =>
      cases h
      exact ⟨.inr ⟨m, a.1, a.2, rfl, rfl⟩, effectiveAddress_draws ha⟩
    · cases h

/-- The opcode E0DF, FSTSW AX, names a register: its second byte has mod = 11. -/
theorem fstswAx_reg {ttt lll : BitVec 3} {rm : RM} (h : escOpcode ttt lll rm = 0xE0DF) : ∃ reg, rm = .reg reg := by
  have hmd : ((encode (.esc ttt lll rm)).getD 1 0).extractLsb' 6 2 = 3 := by
    have hb : (encode (.esc ttt lll rm)).getD 1 0 = (escOpcode ttt lll rm).extractLsb' 8 8 :=
      BitVec.extractLsb'_append_eq_left.symm
    rw [hb, h]
    rfl
  cases rm with
  | reg reg => exact ⟨reg, rfl⟩
  | mem m =>
    exfalso
    cases m with
    | a16 base disp => exact disp.md_ne ((fieldsByte_high ..).symm.trans hmd)
    | a32 base disp => exact disp.md_ne ((fieldsByte_high ..).symm.trans hmd)
    | sib base scale index disp => exact disp.md_ne ((fieldsByte_high ..).symm.trans hmd)
    | abs16 d => exact absurd ((fieldsByte_high 0 lll 6).symm.trans hmd) (by decide)
    | abs32 d => exact absurd ((fieldsByte_high 0 lll 5).symm.trans hmd) (by decide)
    | sibAbs scale index d => exact absurd ((fieldsByte_high 0 lll 4).symm.trans hmd) (by decide)

section

variable {s s1 : State} {ttt lll : BitVec 3} {rm : RM} {l : Loc} {r : CopRequest}

theorem checkEscOperand_ok
    (h : ∀ sr off, l = .mem sr off → s.segOk sr off (r.checked s.copUnit sr) r.toMemory = true) :
    checkEscOperand l r s = .ok () s := by
  cases l with
  | reg _ => rfl
  | mem sr off => exact (run_bind_ok (run_get s)).trans (segCheck_eq_ok.2 ⟨h sr off rfl, rfl⟩)

theorem checkEscPage_ok (hp : s.Plain) : checkEscPage l r s = .ok () s := by
  cases l with
  | reg _ => rfl
  | mem sr off =>
    have hu := copUnit_cases s
    refine (run_bind_ok (run_get s)).trans ?_
    by_cases hz : r.count = 0
    · exact congrFun (if_pos hz) s
    · exact (congrFun (if_neg hz) s).trans
        (run_bind_ok (physRange_unpaged hp.unpaged _ _ _ _ (by omega) (by omega)))

/-- What an ESC does first: exception 7, then its operand. -/
theorem escape_seg {e : Stop} (hem : s.cr0.em = false) (hts : s.cr0.ts = false) (hres : resolve rm s = .ok l s1)
    (h : checkEscOperand l (s.copTransfers ttt lll rm) s1 = .error e s1) : escape ttt lll rm s = .error e s1 := by
  unfold escape
  rw [run_bind_ok (run_get s), run_bind_ok (raiseIf_of_false s (by rw [hem, hts]; rfl)), run_bind_ok hres]
  exact run_bind_error h

/-- The operand has passed its checks. -/
structure EscChecked (s s1 : State) (ttt lll : BitVec 3) (rm : RM) (l : Loc) : Prop where
  em : s.cr0.em = false
  ts : s.cr0.ts = false
  resolved : resolve rm s = .ok l s1
  operand : checkEscOperand l (s.copTransfers ttt lll rm) s1 = .ok () s1
  page : checkEscPage l (s.copTransfers ttt lll rm) s1 = .ok () s1

theorem EscChecked.busy (h : EscChecked s s1 ttt lll rm l) (hb : s.pins.busy = true)
    (hx : busyExempt (escOpcode ttt lll rm) = false) : escape ttt lll rm s = .ok true s1 := by
  unfold escape
  rw [run_bind_ok (run_get s), run_bind_ok (raiseIf_of_false s (by rw [h.em, h.ts]; rfl)), run_bind_ok h.resolved]
  refine (run_bind_ok h.operand).trans ((run_bind_ok h.page).trans ?_)
  exact congrFun (if_pos (by rw [hb, hx]; rfl)) s1

theorem EscChecked.error (h : EscChecked s s1 ttt lll rm l)
    (hb : (s.pins.busy && !busyExempt (escOpcode ttt lll rm)) = false) (he : s.pins.error = true)
    (hx : errorExempt ttt lll rm = false) : escape ttt lll rm s = .error (.exn Exn.mf .nothing) s1 := by
  unfold escape
  rw [run_bind_ok (run_get s), run_bind_ok (raiseIf_of_false s (by rw [h.em, h.ts]; rfl)), run_bind_ok h.resolved]
  refine (run_bind_ok h.operand).trans ((run_bind_ok h.page).trans ?_)
  refine (congrFun (if_neg (by rw [hb]; exact Bool.false_ne_true)) s1).trans ?_
  exact run_bind_error (raiseIf_of_true s1 (by rw [he, hx]; rfl))

/-- The opcode is written to its port, and its transfers are served. -/
theorem EscChecked.start (h : EscChecked s s1 ttt lll rm l)
    (hb : (s.pins.busy && !busyExempt (escOpcode ttt lll rm)) = false)
    (he : (s.pins.error && !errorExempt ttt lll rm) = false) :
    escape ttt lll rm s = (serveOrHang (s.hangs ttt lll rm) (escOpcode ttt lll rm) (s.copTransfers ttt lll rm) >>=
      fun _ => pure false) (s1.startEsc (escOpcode ttt lll rm) l) := by
  unfold escape
  rw [run_bind_ok (run_get s), run_bind_ok (raiseIf_of_false s (by rw [h.em, h.ts]; rfl)), run_bind_ok h.resolved]
  refine (run_bind_ok h.operand).trans ((run_bind_ok h.page).trans ?_)
  refine (congrFun (if_neg (by rw [hb]; exact Bool.false_ne_true)) s1).trans ?_
  exact (run_bind_ok (raiseIf_of_false s1 he)).trans ((run_bind_ok (run_modify _ s1)).trans rfl)

end

theorem State.not_hangs_of {s : State} {ttt lll : BitVec 3} {rm : RM}
    (h : s.params.coprocessor = .none → (∃ m, rm = .mem m) → storesStatus ttt lll rm = true) :
    s.hangs ttt lll rm = false := by
  unfold State.hangs
  by_cases hc : s.params.coprocessor = .none
  · by_cases hm : RM.isMem rm = true
    · rw [h hc ((isMem_iff rm).1 hm)]
      simp
    · rw [Bool.eq_false_iff.2 hm]
      simp
  · simp [hc]

theorem State.hangs_of {s : State} {ttt lll : BitVec 3} {rm : RM} (hc : s.params.coprocessor = .none)
    (hm : ∃ m, rm = .mem m) (hst : storesStatus ttt lll rm = false) : s.hangs ttt lll rm = true := by
  simp [State.hangs, hc, (isMem_iff rm).2 hm, hst]

/-! How an ESC ends, once its opcode has been written. -/

section

variable {s s1 t : State} {ttt lll : BitVec 3} {rm : RM} {l : Loc}

/-- An ESC that is neither kept waiting nor stopped by ERROR#. -/
structure EscStarts (s s1 : State) (ttt lll : BitVec 3) (rm : RM) (l : Loc) : Prop extends
    EscChecked s s1 ttt lll rm l where
  notBusy : (s.pins.busy && !busyExempt (escOpcode ttt lll rm)) = false
  noError : (s.pins.error && !errorExempt ttt lll rm) = false

theorem EscStarts.hang (h : EscStarts s s1 ttt lll rm l) (hh : s.hangs ttt lll rm = true) :
    exec (.esc ttt lll rm) s = .fault (.noPereq (s1.startEsc (escOpcode ttt lll rm) l)) := by
  have hm := h.toEscChecked.start h.notBusy h.noError
  rw [hh] at hm
  show finish State.retireBusy (escape ttt lll rm) s = _
  unfold finish
  rw [hm]
  rfl

theorem EscStarts.completes (h : EscStarts s s1 ttt lll rm l) (hh : s.hangs ttt lll rm = false)
    (hserve : serveTransfers (escOpcode ttt lll rm) (s.copTransfers ttt lll rm)
      (s1.startEsc (escOpcode ttt lll rm) l) = .ok () t) : exec (.esc ttt lll rm) s = .next (s.retire t) := by
  have hm := h.toEscChecked.start h.notBusy h.noError
  rw [hh] at hm
  exact finish_ok (a := false) (after := State.retireBusy) (hm.trans ((run_bind_ok hserve).trans rfl))

theorem EscStarts.raises {e : Exn} {k : Keep} (h : EscStarts s s1 ttt lll rm l) (hh : s.hangs ttt lll rm = false)
    (hserve : serveTransfers (escOpcode ttt lll rm) (s.copTransfers ttt lll rm)
      (s1.startEsc (escOpcode ttt lll rm) l) = .error (.exn e k) t) :
    exec (.esc ttt lll rm) s = takeException e (keptState s t k) := by
  have hm := h.toEscChecked.start h.notBusy h.noError
  rw [hh] at hm
  exact finish_exn (hm.trans (run_bind_error hserve))

end

section

variable {s t : State} {op : Word} {r : CopRequest} {o : CopOperand}

theorem serveTransfers_mem (ho : s.copOperand = some o) : serveTransfers op r s = transferAll r o s := by
  unfold serveTransfers
  rw [run_bind_ok (run_get s)]
  simp only [ho]

theorem serveTransfers_reg (ho : s.copOperand = none) :
    serveTransfers op r s = (if isFstswAx op && r.toMemory && decide (r.count ≠ 0) then
      readCop r.data 0 2 >>= fun bs => writeReg .b16 .eax (leDword bs) else pure ()) s := by
  unfold serveTransfers
  rw [run_bind_ok (run_get s)]
  simp only [ho]

theorem serveTransfers_none (ho : s.copOperand = none ∨ r.count = 0)
    (h : r.count = 0 ∨ op ≠ 0xE0DF ∨ r.toMemory = false) : serveTransfers op r s = .ok () s := by
  cases hc : s.copOperand with
  | none =>
    rw [serveTransfers_reg hc]
    refine congrFun (if_neg ?_) s
    rcases h with h | h | h
    · simp [h]
    · have hx : isFstswAx op = false := Bool.eq_false_iff.2 fun he => h (eq_of_beq he)
      simp [hx]
    · simp [h]
  | some o =>
    have hz : r.count = 0 := ho.resolve_left (by simp [hc])
    rw [serveTransfers_mem hc]
    exact (run_bind_ok (run_get s)).trans (congrFun (if_pos hz) s)

theorem serveTransfers_fstswAx (ho : s.copOperand = none) (hop : op = 0xE0DF) (hto : r.toMemory = true)
    (hcount : r.count ≠ 0) :
    ∃ v d, serveTransfers op r s =
        .ok () (({ s with draws := d, bus := .coprocessorRead s.copUnit :: s.bus } : State).setReg .b16 .eax v) ∧
      ∀ k b, k < 2 → r.data[k]? = some b → v.extractLsb' (8 * k) 8 = b := by
  obtain ⟨bs, d, hread, hlen, hdata⟩ := readCop_ok r.data 0 2 s
  refine ⟨leDword bs, d, ?_, fun k b hk hb => ?_⟩
  · rw [serveTransfers_reg ho, if_pos (by simp [isFstswAx, hop, hto, hcount]), run_bind_ok hread]
    rfl
  · have hget := hdata k b hk (by rw [Nat.zero_add]; exact hb)
    rw [leDword_byte (by omega) k (by omega)]
    exact (List.getElem?_eq_some_iff.1 hget).2

end

/-! The rows of the obligation. -/

theorem waitReady_nm {s : State} (hmp : s.cr0.mp = true) (hts : s.cr0.ts = true) :
    waitReady s = .error (.exn Exn.nm .nothing) s :=
  (run_bind_ok (run_get s)).trans (run_bind_error (raiseIf_of_true s (by rw [hmp, hts]; rfl)))

/-- WAIT with MP or TS clear: BUSY#, then ERROR#. -/
theorem waitReady_eq {s : State} (h : s.cr0.mp = false ∨ s.cr0.ts = false) :
    waitReady s = (if s.pins.busy then pure true else raiseIf s.pins.error Exn.mf >>= fun _ => pure false) s :=
  (run_bind_ok (run_get s)).trans (run_bind_ok (raiseIf_of_false s (by rcases h with h | h <;> simp [h])))

theorem wait_rows {s : State} (h : s.cr0.mp = false ∨ s.cr0.ts = false) :
    (s.pins.busy = true → exec .wait s = .next { s with eip := s.instrEip, eipOver := false, pfx := Prefixes.none }) ∧
      (s.pins.busy = false → s.pins.error = true → exec .wait s = takeException Exn.mf s) ∧
      (s.pins.busy = false → s.pins.error = false → Gives .wait s s.regs (fun _ => s.eflags) s) := by
  have hw := waitReady_eq h
  refine ⟨fun hb => ?_, fun hb he => ?_, fun hb he => ?_⟩
  · rw [hb] at hw
    exact finish_ok (a := true) (after := State.retireBusy) hw
  · rw [hb, he] at hw
    exact finish_raises (after := State.retireBusy) hw
  · rw [hb, he] at hw
    exact ⟨s.retire s, finish_ok (a := false) (after := State.retireBusy) hw, ends_retire rfl rfl rfl, noStore_of_mem rfl⟩

/-- The rows of NOP, HLT and WAIT, and exception 7 of ESC. -/
theorem control_rows (s : State) :
    Gives .nop s s.regs (fun _ => s.eflags) s ∧
    (s.currentCpl = 0 → Gives .hlt s s.regs (fun _ => s.eflags) { s with runState := .halted, bus := .halt :: s.bus }) ∧
    (s.cr0.mp = true → s.cr0.ts = true → exec .wait s = takeException Exn.nm s) ∧
    ∀ ttt lll rm, s.cr0.em = true ∨ s.cr0.ts = true → exec (.esc ttt lll rm) s = takeException Exn.nm s := by
  refine ⟨?nop, fun hcpl => ?hlt, fun hmp hts => finish_raises (after := State.retireBusy) (waitReady_nm hmp hts),
    fun ttt lll rm h => ?esc⟩
  case nop => exact gives_of (m := pure ()) rfl rfl rfl rfl rfl (noStore_of_mem rfl)
  case hlt =>
    exact gives_of (m := checkCpl0 >>= fun _ => modify State.halt) rfl ((run_bind_ok (checkCpl0_ok hcpl)).trans rfl)
      rfl rfl rfl (noStore_of_mem rfl)
  case esc =>
    have hm : escape ttt lll rm s = .error (.exn Exn.nm .nothing) s :=
      (run_bind_ok (run_get s)).trans (run_bind_error (raiseIf_of_true s (by rcases h with h | h <;> simp [h])))
    exact finish_raises (after := State.retireBusy) hm

/-- The transfers between instructions, by the loop from the byte that the operand has come to. -/
theorem later_rows {z s : State} {o : CopOperand} {r : CopRequest} {unit n : Nat} (hs : s.Inv) (hp : s.Plain)
    (hstep : step z = finish (fun _ _ s' => s') (overrunning (transferRest r o unit r.count o.moved)) s.atBoundary)
    (ho : s.copOperand = some o) (hn : o.moved + n = r.count) (h1 : 1 ≤ n) (hmax : r.count ≤ 2 ^ 32)
    (hunit : unit = s.copUnit) :
    ((∀ k, k < n → k % unit = 0 → o.fits (o.moved + k) (min unit (n - k)) r.toMemory = true) →
      (r.toMemory = true →
        ∃ t bs, step z = .next t ∧ bs.length = n ∧
          (∀ k b, k < n → r.data[o.moved + k]? = some b → bs[k]? = some b) ∧
          t.regs = s.regs ∧ t.eflags = s.eflags ∧ t.pfx = s.pfx ∧ t.shadow = s.shadow ∧
          t.putBack s = { s with
            instrEip := s.eip, copOperand := some { o with moved := r.count }
            bus := List.replicate ((n + unit - 1) / unit) (.coprocessorRead unit) ++ s.bus } ∧
          Stores s t (linearRange (o.linear o.moved) n) bs) ∧
      (r.toMemory = false →
        ∃ (t : State) (pad : List Byte), step z = .next t ∧ pad.length = unit * ((n + unit - 1) / unit) - n ∧
          t.regs = s.regs ∧ t.eflags = s.eflags ∧ t.pfx = s.pfx ∧ t.shadow = s.shadow ∧
          t.putBack s = { s with
            instrEip := s.eip, copOperand := some { o with moved := r.count }
            bus := ((List.range ((n + unit - 1) / unit)).map fun j => BusCycle.coprocessorWrite
              (((((linearRange (o.linear o.moved) n).map s.readByte) ++ pad).drop (unit * j)).take unit)).reverse ++ s.bus } ∧
          NoStore s t)) ∧
    ∀ k, k < n → k % unit = 0 →
      (∀ j, j < k → j % unit = 0 → o.fits (o.moved + j) (min unit (n - j)) r.toMemory = true) →
      o.fits (o.moved + k) (min unit (n - k)) r.toMemory = false →
      ∃ t, step z = takeException { vector := 9, errorCode := none, cr2 := none, dr6 := 0, rfImage := false } t ∧
        t.regs = s.regs ∧ t.eflags = s.eflags ∧ t.instrEip = s.eip ∧
        t.copOperand = some { o with moved := o.moved + k, live := false } ∧
        ({ t with instrEip := s.instrEip, copOperand := s.copOperand, bus := s.bus } : State).putBack s = s := by
  have hu : unit = 2 ∨ unit = 4 := hunit ▸ copUnit_cases s
  have hleft : r.count - o.moved = n := by omega
  have hsize (j : Nat) : r.count - (o.moved + j) = n - j := by omega
  refine ⟨fun hfit => ?_, fun k hk hmod hfit hstop => ?_⟩
  · have hfit' (j : Nat) (hj : o.moved + j < r.count) (hj' : j % unit = 0) :
        o.fits (o.moved + j) (min unit (r.count - (o.moved + j))) r.toMemory = true := by
      rw [hsize]
      exact hfit j (by omega) hj'
    refine ⟨fun hto => ?_, fun hto => ?_⟩
    · obtain ⟨t, bs, ht, hlen, hdata, hserved, hmem⟩ := transferRest_in hto hu r.count o.moved s.atBoundary hp hunit.symm
        (by omega) hfit' (by omega)
      rw [hleft] at hlen hdata hserved hmem
      refine ⟨t, bs, hstep.trans (finish_ok (overrunning_ok ht)), hlen, hdata, hserved.regs, hserved.eflags, hserved.pfx,
        hserved.shadow, hserved.putBack s, stores_of_writeCells hs (linearRange_nodup _ _ (by omega)) ?_ hmem⟩
      rw [linearRange_length, hlen]
    · obtain ⟨t, pad, ht, hlen, hserved, hmem⟩ := transferRest_out hto hu r.count o.moved s.atBoundary hp hunit.symm
        (by omega) hfit' (by omega)
      rw [hleft] at hlen hserved
      exact ⟨t, pad, hstep.trans (finish_ok (overrunning_ok ht)), hlen, hserved.regs, hserved.eflags, hserved.pfx,
        hserved.shadow, hserved.putBack s, noStore_of_mem hmem⟩
  · obtain ⟨t, ht, hserved⟩ := transferRest_stop (r := r) (o := o) hu r.count o.moved k s.atBoundary hp (by omega)
      (by omega) hmod (fun j hj hj' => by rw [hsize]; exact hfit j hj hj') (by rw [hsize]; exact hstop) ho
    refine ⟨keptState s.atBoundary t.endTransfers .memory, hstep.trans (finish_exn (overrunning_exn ht)), rfl, rfl, rfl,
      ?_, ?_⟩
    · show t.copOperand.map _ = _
      rw [hserved.copOperand]
      rfl
    · unfold Served at hserved
      rw [hserved]
      rfl

theorem busyExempt_iff (op : Word) : busyExempt op = true ↔ op = 0xE3DB ∨ op = 0xE2DB := by
  simp [busyExempt]

theorem storesStatus_iff (ttt lll : BitVec 3) (rm : RM) :
    storesStatus ttt lll rm = true ↔ (∃ m, rm = .mem m) ∧ (ttt = 5 ∨ ttt = 1) ∧ lll = 7 := by
  simp [storesStatus, isMem_iff, and_assoc]

theorem storesEnvironment_iff (ttt lll : BitVec 3) (rm : RM) :
    storesEnvironment ttt lll rm = true ↔ (∃ m, rm = .mem m) ∧ (ttt = 5 ∨ ttt = 1) ∧ lll = 6 := by
  simp [storesEnvironment, isMem_iff, and_assoc]

/-- The stores of the presence test. -/
theorem stores_iff (ttt lll : BitVec 3) (rm : RM) :
    (isFstswAx (escOpcode ttt lll rm) || storesStatus ttt lll rm) = true ↔ escOpcode ttt lll rm = 0xE0DF ∨
      (∃ m, rm = .mem m) ∧ (ttt = 5 ∨ ttt = 1) ∧ lll = 7 := by
  rw [Bool.or_eq_true, storesStatus_iff]
  exact or_congr (by simp [isFstswAx]) Iff.rfl

/-- With a memory operand a store of the presence test is FSTSW or FSTCW. -/
theorem storesStatus_of_mem {ttt lll : BitVec 3} {rm : RM} (hm : ∃ m, rm = .mem m)
    (h : (isFstswAx (escOpcode ttt lll rm) || storesStatus ttt lll rm) = true) : storesStatus ttt lll rm = true := by
  refine ((Bool.or_eq_true _ _).mp h).resolve_left fun hax => ?_
  obtain ⟨reg, rfl⟩ := fstswAx_reg (eq_of_beq hax)
  obtain ⟨m, hm⟩ := hm
  cases hm

theorem errorExempt_iff (ttt lll : BitVec 3) (rm : RM) :
    errorExempt ttt lll rm = true ↔ escOpcode ttt lll rm = 0xE3DB ∨ escOpcode ttt lll rm = 0xE2DB ∨
      (isFstswAx (escOpcode ttt lll rm) || storesStatus ttt lll rm) = true ∨
      (∃ m, rm = .mem m) ∧ (ttt = 5 ∨ ttt = 1) ∧ lll = 6 := by
  simp only [errorExempt, Bool.or_eq_true, busyExempt_iff, storesEnvironment_iff, or_assoc]

/-- The operand that an ESC at `sr:off` holds. -/
def State.escOperand (s : State) (sr : SReg) (off : Dword) : CopOperand :=
  { seg := sr, off := off, cache := s.seg sr, rights := s.cr0.pe, user := s.isUser, moved := 0, live := true }

theorem State.escOperand_fits (s : State) (sr : SReg) (off : Dword) (k n : Nat) (w : Bool) :
    (s.escOperand sr off).fits k n w = s.segOk sr (off + BitVec.ofNat 32 k) n w := rfl

theorem State.escOperand_linear (s : State) (sr : SReg) (off : Dword) : (s.escOperand sr off).linear 0 = s.linear sr off := by
  simp [State.escOperand, CopOperand.linear, State.linear]

/-- The opcode has been written and the operand at `sr:off` is held: its transfers are the loop from byte 0. -/
theorem serveTransfers_loop {s : State} {d : Nat} {op : Word} {sr : SReg} {off : Dword} {r : CopRequest} (hp : s.Plain)
    (h1 : 1 ≤ r.count) (hfirst : s.segOk sr off (min s.copUnit r.count) r.toMemory = true) :
    serveTransfers op r (({ s with draws := d } : State).startEsc op (.mem sr off)) =
      overrunning (transferRest r (s.escOperand sr off) s.copUnit (r.count + 1) 0)
        (({ s with draws := d } : State).startEsc op (.mem sr off)) :=
  (serveTransfers_mem (o := s.escOperand sr off) rfl).trans
    (transferAll_eq (s := ({ s with draws := d } : State).startEsc op (.mem sr off)) hp h1
      (by rw [State.escOperand_fits, BitVec.add_zero]; exact hfirst))

/-- The transfers that an ESC with a memory operand makes, from the loop from byte 0. -/
theorem esc_transfers {s : State} {d : Nat} {ttt lll : BitVec 3} {rm : RM} {sr : SReg} {off : Dword} {op : Word}
    {r : CopRequest} {unit : Nat} {u : State} (hs : s.Inv) (hp : s.Plain)
    (hstart : EscStarts s { s with draws := d } ttt lll rm (.mem sr off)) (hh : s.hangs ttt lll rm = false)
    (hop : op = escOpcode ttt lll rm) (hr : r = s.copTransfers ttt lll rm) (hunit : unit = s.copUnit)
    (hu : u = { s with
      copOpcode := op, copOperand := some { s.escOperand sr off with moved := r.count }
      bus := .coprocessorOpcode op s.cr0.et :: s.bus })
    (h1 : 1 ≤ r.count) (hmax : r.count ≤ 2 ^ 32) :
    ((∀ k, k < r.count → k % unit = 0 →
        s.segOk sr (off + BitVec.ofNat 32 k) (min unit (r.count - k)) r.toMemory = true) →
      (r.toMemory = true →
        ∃ t bs, exec (.esc ttt lll rm) s = .next t ∧ bs.length = r.count ∧
          (∀ k b, k < r.count → r.data[k]? = some b → bs[k]? = some b) ∧
          Ends s t s.regs s.eflags
            { u with bus := List.replicate ((r.count + unit - 1) / unit) (.coprocessorRead unit) ++ u.bus } ∧
          Stores s t (linearRange (s.linear sr off) r.count) bs) ∧
      (r.toMemory = false →
        ∃ pad : List Byte, pad.length = unit * ((r.count + unit - 1) / unit) - r.count ∧
          Gives (.esc ttt lll rm) s s.regs (fun _ => s.eflags)
            { u with bus := ((List.range ((r.count + unit - 1) / unit)).map
                fun j => BusCycle.coprocessorWrite (((s.operandBytes sr off r.count ++ pad).drop (unit * j)).take
                  unit)).reverse ++ u.bus })) ∧
    (s.segOk sr off (min unit r.count) r.toMemory = true →
      ∀ k, k < r.count → k % unit = 0 →
        (∀ j, j < k → j % unit = 0 → s.segOk sr (off + BitVec.ofNat 32 j) (min unit (r.count - j)) r.toMemory = true) →
        s.segOk sr (off + BitVec.ofNat 32 k) (min unit (r.count - k)) r.toMemory = false →
        ∃ t, exec (.esc ttt lll rm) s =
            takeException { vector := 9, errorCode := none, cr2 := none, dr6 := 0, rfImage := false } t ∧
          t.regs = s.regs ∧ t.eflags = s.eflags ∧ t.copOpcode = op ∧
          t.copOperand = some { s.escOperand sr off with moved := k, live := false } ∧
          ({ t with copOpcode := s.copOpcode, copOperand := s.copOperand, bus := s.bus } : State).putBack s = s) := by
  have hu2 : unit = 2 ∨ unit = 4 := hunit ▸ copUnit_cases s
  have hserve := fun hfirst => serveTransfers_loop (d := d) (op := op) (r := r) hp h1 (sr := sr) (off := off) hfirst
  rw [← hunit] at hserve
  refine ⟨fun hfit => ?_, fun hfirst k hk hmod hfit hstop => ?_⟩
  · have hfit' (j : Nat) (hj : 0 + j < r.count) (hj' : j % unit = 0) :
        (s.escOperand sr off).fits (0 + j) (min unit (r.count - (0 + j))) r.toMemory = true := by
      rw [Nat.zero_add] at hj ⊢
      exact hfit j hj hj'
    have hfirst := hfit 0 (by omega) (Nat.zero_mod _)
    rw [BitVec.add_zero, Nat.sub_zero] at hfirst
    have hgo := hserve hfirst
    refine ⟨fun hto => ?_, fun hto => ?_⟩
    · obtain ⟨t, bs, ht, hlen, hdata, hserved, hmem⟩ := transferRest_in (unit := unit) (o := s.escOperand sr off) hto hu2
        (r.count + 1) 0 (({ s with draws := d } : State).startEsc op (.mem sr off)) hp hunit.symm (by omega) hfit' (by omega)
      simp only [Nat.sub_zero, Nat.zero_add, State.escOperand_linear] at hlen hdata hserved hmem
      rw [overrunning_ok ht, hop, hr] at hgo
      refine ⟨s.retire t, bs, hstart.completes hh hgo, hlen, hdata, ends_retire hserved.regs (by rw [hserved.eflags]; rfl)
        ((hserved.putBack s).trans (by rw [hu]; rfl)), stores_of_writeCells hs (linearRange_nodup _ _ hmax) ?_ hmem⟩
      rw [linearRange_length, hlen]
    · obtain ⟨t, pad, ht, hlen, hserved, hmem⟩ := transferRest_out (unit := unit) (o := s.escOperand sr off) hto hu2
        (r.count + 1) 0 (({ s with draws := d } : State).startEsc op (.mem sr off)) hp hunit.symm (by omega) hfit' (by omega)
      simp only [Nat.sub_zero, State.escOperand_linear] at hlen hserved
      rw [overrunning_ok ht, hop, hr] at hgo
      exact ⟨pad, hlen, s.retire t, hstart.completes hh hgo, ends_retire hserved.regs (by rw [hserved.eflags]; rfl)
        ((hserved.putBack s).trans (by rw [hu]; rfl)), noStore_of_mem hmem⟩
  · obtain ⟨t, ht, hserved⟩ := transferRest_stop (unit := unit) (r := r) (o := s.escOperand sr off) hu2 (r.count + 1) 0 k
      (({ s with draws := d } : State).startEsc op (.mem sr off)) hp (by omega) (by omega) hmod
      (fun j hj hj' => by rw [Nat.zero_add]; exact hfit j hj hj') (by rw [Nat.zero_add]; exact hstop) rfl
    have hgo := hserve hfirst
    rw [overrunning_exn ht, hop, hr] at hgo
    refine ⟨keptState s t.endTransfers .memory, hstart.raises hh hgo, rfl, rfl, ?_, ?_, ?_⟩
    · unfold Served at hserved
      rw [hserved]
      rfl
    · show t.copOperand.map _ = _
      rw [hserved.copOperand, Nat.zero_add]
      rfl
    · unfold Served at hserved
      rw [hserved]
      rfl

/-- FSTSW AX takes its word from the operand port. -/
theorem esc_fstswAx {s : State} {d : Nat} {ttt lll : BitVec 3} {reg reg' : Reg}
    (hstart : EscStarts s { s with draws := d } ttt lll (.reg reg) (.reg reg'))
    (hop : escOpcode ttt lll (.reg reg) = 0xE0DF) (hto : (s.copTransfers ttt lll (.reg reg)).toMemory = true)
    (hcount : (s.copTransfers ttt lll (.reg reg)).count ≠ 0) :
    ∃ t v, exec (.esc ttt lll (.reg reg)) s = .next t ∧
      Ends s t (s.regs.write .b16 .eax v) s.eflags
        { s with
          copOpcode := escOpcode ttt lll (.reg reg), copOperand := none
          bus := .coprocessorRead s.copUnit :: .coprocessorOpcode (escOpcode ttt lll (.reg reg)) s.cr0.et :: s.bus } ∧
      NoStore s t ∧
      ∀ (k : Nat) (b : Byte), k < 2 → (s.copTransfers ttt lll (.reg reg)).data[k]? = some b →
        v.extractLsb' (8 * k) 8 = b := by
  obtain ⟨v, d', hserve, hdata⟩ := serveTransfers_fstswAx (op := escOpcode ttt lll (.reg reg))
    (s := ({ s with draws := d } : State).startEsc (escOpcode ttt lll (.reg reg)) (.reg reg')) rfl hop hto hcount
  exact ⟨_, v, hstart.completes (State.hangs_reg ..) hserve, ends_retire rfl rfl rfl, noStore_of_mem rfl, hdata⟩

/-- Settles O57: NOP, HLT and WAIT by evaluation, ESC by the stages of `escape`, the transfers by the loop over them. -/
theorem processorControl : Obligations.ProcessorControl := by
  unfold Obligations.ProcessorControl
  refine ⟨fun s _ => ?simple, ?esc⟩
  case simple =>
    obtain ⟨hnop, hhlt, hnm, hesc⟩ := control_rows s
    exact ⟨hnop, hhlt, hnm, wait_rows, hesc⟩
  case esc =>
    intro s s1 u ttt lll rm l op stores exempt r unit hs hem hts hp hres hop hstores hexempt hr hunit hu
    have hop' : op = escOpcode ttt lll rm := hop
    have hst : (isFstswAx (escOpcode ttt lll rm) || storesStatus ttt lll rm) = stores :=
      Bool.eq_iff_iff.2 ((stores_iff ttt lll rm).trans (by rw [← hop']; exact hstores.symm))
    have hex : errorExempt ttt lll rm = exempt :=
      Bool.eq_iff_iff.2 ((errorExempt_iff ttt lll rm).trans (by rw [hst, ← hop']; exact hexempt.symm))
    have hr' : r = s.copTransfers ttt lll rm := by
      rw [hr, ← hst]
      rfl
    have hunit' : unit = s.copUnit := hunit
    obtain ⟨hrm, d, rfl⟩ := resolve_cases hres
    have hp1 : ({ s with draws := d } : State).Plain := hp
    refine ⟨fun sr off hl hbad => ?seg, fun hseg => ?checked, ?later⟩
    case later =>
      intro z s o r unit n hs hp hreset hz hhold hcount hrun hcop hreq ho hlive hr hn h1 hmax hunit
      subst hr
      have hstep := step_serves hreset hz hhold hcount hrun hcop hreq ho hlive (by omega)
      rw [← show unit = s.copUnit from hunit] at hstep
      exact later_rows hs hp hstep ho hn h1 hmax hunit
    case seg =>
      have hcheck : checkEscOperand l (s.copTransfers ttt lll rm) { s with draws := d } =
          .error (.exn (segFault sr) .nothing) { s with draws := d } := by
        subst hl
        rw [← hr']
        refine (run_bind_ok (run_get _)).trans (segCheck_error ?_)
        rw [hunit'] at hbad
        exact hbad
      have hexec : exec (.esc ttt lll rm) s = takeException (segFault sr) (keptState s { s with draws := d } .nothing) :=
        finish_exn (escape_seg hem hts hres hcheck)
      exact hexec
    case checked =>
      have hchecked : EscChecked s { s with draws := d } ttt lll rm l :=
        ⟨hem, hts, hres, checkEscOperand_ok fun sr off hl => by
          rw [← hr']
          have h := hseg sr off hl
          rw [hunit'] at h
          exact h, checkEscPage_ok hp1⟩
      have hbusy : (busyExempt op = true ↔ op = 0xE3DB ∨ op = 0xE2DB) := busyExempt_iff op
      refine ⟨fun hb h1 h2 => ?busy, fun hnb => ⟨fun he hx => ?error, fun hne => ?start⟩⟩
      case busy =>
        have hx : busyExempt (escOpcode ttt lll rm) = false := by
          rw [← hop', Bool.eq_false_iff]
          exact fun h => (hbusy.1 h).elim h1 h2
        have hexec : exec (.esc ttt lll rm) s = .next (s.retireWaiting { s with draws := d }) :=
          finish_ok (a := true) (after := State.retireBusy) (hchecked.busy hb hx)
        exact ⟨_, hexec, rfl, rfl, rfl, rfl, rfl, noStore_of_mem rfl⟩
      all_goals
        have hnotBusy : (s.pins.busy && !busyExempt (escOpcode ttt lll rm)) = false := by
          rw [← hop']
          rcases hnb with h | h
          · simp [h]
          · simp [hbusy.2 h]
      case error =>
        have hexec : exec (.esc ttt lll rm) s = takeException Exn.mf (keptState s { s with draws := d } .nothing) :=
          finish_exn (hchecked.error hnotBusy he (hex.trans hx))
        exact hexec
      case start =>
        have hstart : EscStarts s { s with draws := d } ttt lll rm l :=
          ⟨hchecked, hnotBusy, by rw [hex]; rcases hne with h | h <;> simp [h]⟩
        have hheld : r.count = 0 ∨ (∃ reg, l = .reg reg) →
            ({ s with draws := d } : State).startEsc op l = { u with draws := d } := by
          intro h
          rw [hu]
          rcases hrm with ⟨reg, -, rfl⟩ | ⟨m, sr, off, -, rfl⟩
          · rfl
          · have hz : r.count = 0 := h.resolve_right (by rintro ⟨reg, hreg⟩; cases hreg)
            rw [hz]
            rfl
        have huBack : ({ u with draws := d } : State).putBack s = u := by
          rw [hu]
          rfl
        refine ⟨fun hc hm hno => ?hang, fun hno hz => ?none, fun h0 hcount hto => ?fstsw, fun sr off hl h1 hmax => ?mem⟩
        case hang =>
          have hno' : storesStatus ttt lll rm = false := (Bool.or_eq_false_iff.1 (hst.trans hno)).2
          have hcount : r.count = 0 := by
            rw [hr, if_pos hc, hno]
            rfl
          rw [← hheld (.inl hcount), hop']
          exact hstart.hang (State.hangs_of hc hm hno')
        case none =>
          have hh : s.hangs ttt lll rm = false :=
            State.not_hangs_of fun hc hm => storesStatus_of_mem hm (hst.trans (hno hc hm))
          have hserve : serveTransfers op r (({ s with draws := d } : State).startEsc op l) =
              .ok () (({ s with draws := d } : State).startEsc op l) := by
            refine serveTransfers_none ?_ (hz.imp_right (·.2))
            refine hz.symm.imp_left fun h => ?_
            obtain ⟨reg, rfl⟩ := h.1
            rfl
          rw [hop', hr'] at hserve
          have hexec := hstart.completes hh hserve
          rw [← hop', hheld (hz.imp_right (·.1))] at hexec
          exact ⟨_, hexec, ends_retire (by rw [hu]) (by rw [hu]) huBack, noStore_of_mem (by rw [hu]; rfl)⟩
        case fstsw =>
          obtain ⟨reg, rfl⟩ := fstswAx_reg (hop'.symm.trans h0)
          obtain ⟨reg', -, rfl⟩ | ⟨m, sr, off, h, -⟩ := hrm
          · rw [hr'] at hto hcount ⊢
            rw [hu, hop', hunit']
            exact esc_fstswAx hstart (hop'.symm.trans h0) hto hcount
          · cases h
        case mem =>
          have hm : ∃ m, rm = .mem m := by
            rcases hrm with ⟨reg, -, h⟩ | ⟨m, -, -, h, -⟩
            · rw [hl] at h
              cases h
            · exact ⟨m, h⟩
          have hh : s.hangs ttt lll rm = false := by
            refine State.not_hangs_of fun hc _ => ?_
            have hor : stores = true := by
              by_contra hno
              rw [hr, if_pos hc, if_neg hno] at h1
              exact absurd h1 (by decide)
            exact storesStatus_of_mem hm (hst.trans hor)
          subst hl
          exact esc_transfers hs hp hstart hh hop' hr' hunit' hu h1 hmax

end Sys2Proof.Machine

end
